-- ==== Sys2Proof/Word.lean ====
section
/-! DEFINITION. The word types of the machine (R10, R50): bytes, 32-bit lane elements, 64-bit registers and words. -/
namespace Sys2Proof

/-- One byte of memory. -/
abbrev Byte := BitVec 8

/-- One 32-bit lane element of a v or t register (R38). -/
abbrev W32 := BitVec 32

/-- A 64-bit value: an s register, a register pair, an instruction word (R38, R50). -/
abbrev W64 := BitVec 64

/-- One bit per lane position 0 to 63 (R19, R21). -/
abbrev Mask := BitVec 64

/-- The 64 lanes of one physical register row, lane 0 first (R39). -/
abbrev Row := List W32

end Sys2Proof
end

