-- ==== Sys2Proof/Config.lean ====
section
/-! DEFINITION. What an implementation fixes and the spec leaves open. The opaque constants have no body: nothing
can be proved about which value they are. -/
namespace Sys2Proof.Config

/-- A free choice between two values: `k` is a fresh counter of the state, `lane` the element it concerns
(R13 "undefined value" and "unspecified"; R45, R61, R190, R246, R285). DESIGN CHOICE: log entry 7. -/
opaque freeBit (k lane : Nat) : Bool

/-- A free choice among `n` members of a stated set, taken modulo `n` (R190, R246, R345). -/
opaque freeNat (k lane : Nat) : Nat

/-- A free byte: what an agent outside the device left in memory that it owned (R305, R306). -/
opaque freeByte (k addr : Nat) : Byte

/-- The set of a cache that a line falls into; the hash is not given and changes only timing (R236, R240). DESIGN CHOICE: log entry 15. -/
opaque cacheSet (cache line : Nat) : Nat

/-- KMAC256 with a key, an input, an output length in bytes and the customisation string "HERUO-NDT" (R316). DESIGN CHOICE: log entry 8. -/
opaque kmac256 (key input : List Byte) (n : Nat) : List Byte

/-- SHAKE256 of an input, with `n` bytes of output (R315, R375). -/
opaque shake256 (input : List Byte) (n : Nat) : List Byte

/-- ML-DSA-65 verification of a signature over a message under a public key (R300, R315, R375, R418). -/
opaque mlDsaVerify (key message signature : List Byte) : Bool

/-- The 64-bit signature of a pitch's outputs, and the captures that a die's audit buffer has room for (R416). DESIGN CHOICE: log entry 89. -/
opaque auditSignature (outputs : List W64) : W64
opaque auditBuffer : Nat

/-- ML-DSA-65 signature of a message with this device's identity key (R300). -/
opaque mlDsaSign (message : List Byte) : List Byte

/-- The public keys and certificates that Jalqueris holds (R300). -/
opaque deviceCertificate : List Byte
opaque yunaistKey : List Byte

/-- The public identity key that a certificate chain proves, none where the chain does not verify (R300, R375). -/
opaque certifiedKey (chain : List Byte) : Option (List Byte)

/-- ML-KEM-1024 key generation, encapsulation and decapsulation, by a fresh counter (R314, R375). -/
opaque mlKemPublic (k : Nat) : List Byte
opaque mlKemEncaps (pub : List Byte) (k : Nat) : List Byte
opaque mlKemShared (encaps : List Byte) (pub : List Byte) : List Byte

/-- A measurement report of a firmware image and the CONFIG register (R300). -/
opaque measurement (firmware : List Byte) (config : W32) : List Byte

/-- The device that holds an address of the fabric window, as the fabric manager's decoders have it (R236, R310). -/
opaque pidOf (addr : Nat) : BitVec 12

/-- The address, in its M1's extent space, of the extent that the fabric manager maps at a base of an F2's window. DESIGN CHOICE: log entry 124. -/
opaque extentSpace (base : Nat) : Nat

/-- The 64 KiB frames that hold firmware and logs, which are the device's own from start-up on (R387). DEDUCED: log entry 85. -/
opaque startFrames : List Nat

/-- Estimates of time, in femtoseconds, where the spec names no rate: writing some bytes to the bivouac or the save area, some bytes of an engine's
work, and one group step on a platen (R347). DESIGN CHOICE: log entry 69. -/
opaque writeTime (bytes : Nat) : Nat
opaque engineTime (engine bytes : Nat) : Nat
opaque platenStep (k : Nat) : Nat

/-- The word that QBLK (`quant`) or DQBLK writes to an s register: R170 and R171 speak of the lanes of a block, and R136 of the same function of
the uniform value, so that it depends on the operand, the slot and the rounding code alone (R102). DESIGN CHOICE: log entry 27. -/
opaque blockWord (quant : Bool) (slot : W32) (rm : BitVec 3) (x : W32) : W32

/-- The 64-bit signature by which proofing compares two runs (R416). -/
opaque auditPick (k : Nat) : Bool

end Sys2Proof.Config
end

