-- ==== Sys2Proof/Syntax.lean ====
section
/-! DEFINITION. The instructions: one constructor per row of spec/opcode_table.json. A row is either an
instruction word of R79, which carries the fields of its format (R68 to R76), or one of the device's own
events, which carries what the agent that causes it supplies. -/
namespace Sys2Proof

/-- A register operand: class bit and number together (R62). -/
inductive Reg where
  | v (n : BitVec 8)
  | s (n : BitVec 6)
  | t (n : BitVec 3)
  | c (n : BitVec 3)
  | imm (n : BitVec 6)
deriving DecidableEq, Repr

/-- A source field: register, lane pattern and last-read bit (R62, R64, R66). -/
structure Src where
  reg : Reg
  pat : BitVec 4
  lr  : Bool
deriving DecidableEq, Repr

/-- The TYPE codes of R77; 0xE and 0xF are reserved. -/
inductive OpTy where
  | i32 | n32 | i64 | n64 | i16 | n16 | i8 | n8 | f32 | f16 | b16 | e4m3 | e5m2 | e2m1
deriving DecidableEq, Repr

/-- The rounding codes of R77; `rs` is code 7, the named slot's RND. -/
inductive RmCode where
  | rne | rz | rup | rdn | rna | rs
deriving DecidableEq, Repr

/-- The scopes of R78 and R247. -/
inductive Scope where
  | pty | frm | die | dev | sys
deriving DecidableEq, Repr

/-- The ordering codes of R78. -/
inductive Ord where
  | plain | rlx | acqRel | ar
deriving DecidableEq, Repr

/-- The access sizes of R78. -/
inductive Sz where
  | z8 | z16 | w32 | w64 | w128 | x8 | x16
deriving DecidableEq, Repr

/-- The atomic operations of R80 and R272. -/
inductive Aop where
  | add | min | max | and | or | xor | xchg | cas | fadd | fmin | fmax | inc
deriving DecidableEq, Repr

/-- Format V2 (R69), with the DUAL prefix's NC when one precedes the word (R76). -/
structure V2 where
  stall : BitVec 3
  dual  : Option (BitVec 2)
  d     : Reg
  a     : Src
  b     : Src
  sub   : BitVec 4
  ty    : OpTy
  rm    : RmCode
  fs    : BitVec 3
  x     : BitVec 2
deriving DecidableEq, Repr

/-- Format V3 (R68). -/
structure V3 where
  stall : BitVec 3
  dual  : Option (BitVec 2)
  d     : Reg
  a     : Src
  b     : Src
  c     : Src
  m     : BitVec 2
deriving DecidableEq, Repr

/-- Format VW (R70). -/
structure VW where
  stall : BitVec 3
  d     : Reg
  imm   : BitVec 32
deriving DecidableEq, Repr

/-- Format M (R71). -/
structure MF where
  stall : BitVec 3
  dual  : Option (BitVec 2)
  dat   : Reg
  so    : Src
  lrd   : Bool
  win   : BitVec 4
  nu    : BitVec 6
  scope : Scope
  ord   : Ord
  sz    : Sz
  off   : BitVec 11
deriving DecidableEq, Repr

/-- Format MA (R71). -/
structure MA where
  stall : BitVec 3
  dual  : Option (BitVec 2)
  dat   : Reg
  so    : Src
  lrd   : Bool
  win   : BitVec 4
  nu    : BitVec 6
  scope : Scope
  ord   : Ord
  sz    : Sz
  aop   : Aop
  sgn   : Bool
deriving DecidableEq, Repr

/-- Format P (R72). -/
structure PF where
  stall : BitVec 3
  dual  : Option (BitVec 2)
  g     : BitVec 3
  ua    : BitVec 6
  ub    : BitVec 6
  uc    : BitVec 6
  fa    : BitVec 3
  fb    : BitVec 3
  kd    : BitVec 8
  nu    : BitVec 6
  pmod  : BitVec 4
deriving DecidableEq, Repr

/-- Format X (R73); `rply` is the s register that takes the reply when RPLY is 1 (R281). -/
structure XF where
  stall : BitVec 3
  rply  : Option (BitVec 6)
  xa    : BitVec 6
  xb    : BitVec 6
  nu    : BitVec 6
  scope : Scope
  ord   : Ord
deriving DecidableEq, Repr

/-- The branch modes of R74 and R356. -/
inductive BMode where
  | lanes | any | all
deriving DecidableEq, Repr

/-- Format CD (R74). -/
structure CD where
  stall : BitVec 3
  cn    : BitVec 3
  neg   : Bool
  bmode : BMode
  off   : BitVec 45
deriving DecidableEq, Repr

/-- Format CX (R74). -/
structure CX where
  stall : BitVec 3
  ua    : BitVec 6
deriving DecidableEq, Repr

/-- Format U (R75). -/
structure UF where
  stall : BitVec 3
  d     : Reg
  ua    : BitVec 6
  ub    : BitVec 6
  idx   : BitVec 8
  imm   : BitVec 24
deriving DecidableEq, Repr

/-- The element types that select FFMA's opcode pair (R79). -/
inductive FmaTy where
  | f32 | f16 | b16
deriving DecidableEq, Repr

/-- The trap codes of R400. -/
inductive TrapCode where
  | illegalEncoding | badCairn | tempUnset | stallShort | pressTouch | sheetMismatch | satArmed
  | ropeTimeout | accessViolation | misaligned | poison | viral | expanderLost | extentGone
  | queueQuota | auditMismatch | taskTagFail | collFail | cancelled | software | breakpoint
deriving DecidableEq, Repr

/-- A translation completion of R384: a refusal, or a translated address with its size and permissions. -/
inductive AtsReply where
  | refused
  | none
  | page (pa : Nat) (size : Nat) (r w x : Bool)
deriving DecidableEq, Repr

/-- The page-request responses of R390. -/
inductive PriReply where
  | success | invalidRequest | responseFailure
deriving DecidableEq, Repr

/-- One contribution of a collective step, carried by flits (R295, R296, R321). -/
structure Contribution where
  rank : Nat
  lane : Nat
  off  : Nat
  elem : List Byte
deriving DecidableEq, Repr

/-- A flit of contributions with the step's own operation, type, rounding and order (R296, R297). -/
structure Flit where
  step  : Nat
  sub   : BitVec 4
  ty    : OpTy
  rm    : RmCode
  routed : Bool
  parts : List Contribution
deriving DecidableEq, Repr

/-- A request to a line of an M1's extents (R302, R305, R307, R309). -/
inductive CxlKind where
  | readShared
  | readOwned
  /-- data, and whether it came with CXL poison (R411) -/
  | write (off : Nat) (data : List Byte) (bad : Bool)
  | atomic (off : Nat) (aop : Aop) (sgn : Bool) (wide : Bool) (op cmp : W64)
deriving DecidableEq, Repr

/-- One request with the requester's PID and the tenant that its translation carries (R301, R384). -/
structure CxlReq where
  pid    : BitVec 12
  tenant : W32
  addr   : Nat
  kind   : CxlKind
  /-- the dirty bytes that the line's owner gives back to the snoop, by their place in the line (R305) -/
  back   : List (Nat × Byte) := []
  /-- the sectors of the line that come back poisoned (R411) -/
  backBad : List Nat := []
deriving DecidableEq, Repr

/-- A host's uncached UIO access (R299). -/
inductive HostAccess where
  | read (addr len : Nat)
  | write (addr : Nat) (data : List Byte)
deriving DecidableEq, Repr

/-- The software-written registers that have no behaviour of their own (R12, R373, R383, R416, R420). -/
inductive BarReg where
  | mbArg (k : Fin 8)
  | qdesc (ctx slot : Nat)
  | audctl (part : Fin 16)
  | config
  /-- MBCMD, with a value that names no command -/
  | mbCmd
deriving DecidableEq, Repr

/-- Where a storage error struck (R410, R412). -/
inductive ErrSite where
  | discardable
  /-- a 32-byte sector of HBM4E or LPDDR whose CRC no longer matches (R410) -/
  | dram (addr : Nat)
  /-- a sector that holds what was written for another one (R409) -/
  | misplaced (addr other : Nat)
  | cacheLine (addr : Nat)
  | scratchpad (fid : Nat) (off : Nat)
  | row (fid hp : Nat) (reg : BitVec 8) (comp : Nat) (lane : Nat)
  | tile (fid : Nat) (tile row col : Nat)
deriving DecidableEq, Repr

/-- The units that proofing may find suspect (R417). -/
inductive UnitId where
  | core (n : Nat)
  | pressPair (n : Nat)
  | platen (n : Nat)
deriving DecidableEq, Repr

/-- What the replays of a capture gave: the units that ran them, and their signatures (R416, R417). -/
structure AuditReport where
  id     : Nat
  unit1  : UnitId
  unit2  : UnitId
  sig1   : W64
  sig2   : W64
deriving DecidableEq, Repr

/-- A session request that an F2 sends to an M1 (R375). -/
structure SessReq where
  pid     : BitVec 12
  tenant  : W32
  regions : List (Nat × Nat × Nat)
  key     : List Byte
  cert    : List Byte
  sig     : List Byte
deriving DecidableEq, Repr

/-- What another device's Jalqueris says about sessions: a request, which goes to an M1, or the notice that it has closed one (R314, R375). -/
inductive SessCall where
  | request (r : SessReq)
  | closed (peer : BitVec 12) (handle : W64)
deriving DecidableEq, Repr

/-- A step of the copying of a page that moves: the old home copies one line, or the new home receives what the old one sent, bytes from some place on
with their poisoned sectors (R309). -/
inductive LineStep where
  | copy (line : Nat)
  | sent (at_ : Nat) (data : List Byte) (bad : List Nat)
deriving DecidableEq, Repr

/-- A line that is to be invalidated; `gone`: its extent is withdrawn (R303, R305). -/
structure InvLine where
  addr : Nat
  gone : Bool
deriving DecidableEq, Repr

/-- The M1's answer to a session request (R375). -/
structure SessAns where
  /-- the RESULT with which the M1 turns the request down, or 0 -/
  refused : Nat
  handle : W64
  cert : List Byte
  encaps : List Byte
  sig    : List Byte
deriving DecidableEq, Repr

/-- The SPDM requests that Jalqueris answers (R300). -/
inductive SpdmKind where
  | certificates | measurements | ideKeys
deriving DecidableEq, Repr

/-- What start-up finds: the firmware's image and signature, each unit's lowest passing bin (none when it
fails bin 3), and whether each training and initialisation step succeeds (R418). -/
structure StartReport where
  /-- power-good, and no conventional reset (R420) -/
  powerOn   : Bool
  firmware  : List Byte
  signature : List Byte
  bins      : List (UnitId × Option Nat)
  phyOk     : Bool
  memOk     : Bool
deriving DecidableEq, Repr

/-- The instructions and events of spec/opcode_table.json, in the table's order. -/
inductive Instr where
  | pitchIssue (core : Nat)
  | priorityPromotion (pid : Nat)
  | nop (o : UF)
  | bra (o : CD)
  | brc (o : CD)
  | branchHeldRelease (pid : Nat)
  | brx (o : CX)
  | call (o : CD)
  | callx (o : CX)
  | ret (o : UF)
  | exit (o : UF)
  | reconvergeWaitExpiry (pid : Nat)
  | fuse (o : UF)
  | yield (o : UF)
  | sleep (o : UF)
  | sleepExpiry (pid : Nat)
  | isync (o : UF)
  | ropeSet (o : UF)
  | ropeArv (o : UF)
  | ropeWait (o : UF)
  | ropeSync (o : UF)
  | belayWatchdogFire (fid rope : Nat)
  | phase (o : UF)
  | signal (o : UF)
  | waitc (o : UF)
  | waitcPoll (pid : Nat)
  | cancel (o : UF)
  | launch (o : UF)
  | trap (o : UF)
  | bkpt (o : UF)
  | eret (o : UF)
  | boundaryTrap (pid : Nat)
  | movs (o : UF)
  | movsw (o : UF)
  | ctrr (o : UF)
  | iadd (o : V2)
  | isub (o : V2)
  | imul (o : V2)
  | imulh (o : V2)
  | imad (o : V3)
  | imadw (o : V3)
  | ineg (o : V2)
  | iabs (o : V2)
  | imin (o : V2)
  | imax (o : V2)
  | iclamp (o : V3)
  | lea (o : V2)
  | and (o : V2)
  | or (o : V2)
  | xor (o : V2)
  | andn (o : V2)
  | orn (o : V2)
  | not (o : V2)
  | bmix (o : V3)
  | shl (o : V2)
  | shr (o : V2)
  | sar (o : V2)
  | rol (o : V2)
  | fshl (o : V3)
  | bfx (o : V3)
  | bfi (o : V3)
  | popc (o : V2)
  | clz (o : V2)
  | ctz (o : V2)
  | brev (o : V2)
  | icmp (o : V2)
  | sel (o : V3)
  | clop (o : V2)
  | cvote (o : V2)
  | mov (o : V2)
  | movi (o : VW)
  | movhi (o : VW)
  | movx (o : V2)
  | movxw (o : V2)
  | lperm (o : V2)
  | fadd (o : V2)
  | fsub (o : V2)
  | fmul (o : V2)
  | ffma (ty : FmaTy) (e : Bool) (o : V3)
  | fdot2 (bf : Bool) (e : Bool) (o : V3)
  | fdot4 (e5 : Bool) (e : Bool) (o : V3)
  | fmin (o : V2)
  | fmax (o : V2)
  | fcmp (o : V2)
  | fclass (o : V2)
  | frnd (o : V2)
  | fscale (o : V2)
  | fexpn (o : V2)
  | frcps (o : V2)
  | frsqs (o : V2)
  | fex2 (o : V2)
  | flg2 (o : V2)
  | fsin (o : V2)
  | fcos (o : V2)
  | cvt (o : V2)
  | pack2 (o : V2)
  | pack4 (o : V2)
  | xpnd (o : V2)
  | qblk (o : V2)
  | dqblk (o : V2)
  | sheet (o : PF)
  | press (o : PF)
  | presss (o : PF)
  | gclr (o : PF)
  | gload (o : PF)
  | gstore (o : PF)
  | platen (o : PF)
  | gread (o : V2)
  | gwrite (o : V2)
  | oready (o : UF)
  | batch (o : UF)
  | waitb (o : UF)
  | overflowRefill (queue site : Nat)
  | pressOpStart (spread : Nat)
  | pressGroupStep (op : Nat)
  | pressOpFail (op : Nat) (code : TrapCode) (addr : Nat)
  | platenOpStart (stack : Nat)
  | coink (o : UF)
  | coin (o : V2)
  | coinr (o : V2)
  | draw (o : V2)
  | drawa (o : V2)
  | dmerge (o : V3)
  | dshift (o : V2)
  | tget (o : V2)
  | tset (o : V2)
  | tclr (o : V2)
  | ld (o : MF)
  | ldk (o : MF)
  | ldsc (o : MF)
  | stsc (o : MF)
  | ldpv (o : MF)
  | stpv (o : MF)
  | st (o : MF)
  | atom (o : MA)
  | atomsc (o : MA)
  | red (o : MA)
  | pref (o : MF)
  | reuse (o : MF)
  | fence (o : UF)
  | cwb (o : MF)
  | cinv (o : MF)
  | iinv (o : MF)
  | wopen (o : UF)
  | wclose (o : UF)
  | pageRequestResponse (ctx va : Nat) (r : PriReply)
  | longLatencyResult (id : Nat)
  | memoryAccessFail (id lane comp : Nat) (code : TrapCode)
  | reuseClockTick (fid : Nat)
  | standingUpdate (part : Nat)
  | cpy (o : XF)
  | cpyx (o : XF)
  | cpyrot (o : XF)
  | fill (o : XF)
  | scrub (o : XF)
  | seal (o : XF)
  | ndt (o : XF)
  | engineCmdStart (op : Nat)
  | engineCmdEnd (op : Nat)
  | engineCmdFail (op : Nat) (code : TrapCode) (addr : Nat)
  | ndtCompletionMessage (op : Nat) (failure : Option TrapCode) (result : List (Nat × Byte))
  | coll (o : V2)
  | csigBind (o : UF)
  | csigSig (o : UF)
  | csigStat (o : UF)
  | collFlitReceive (fid hp bind : Nat) (flit : Flit)
  | collMarkerArrival (fid hp bind step rank : Nat)
  | collLocalComplete (op : Nat)
  | collStepFail (fid hp bind step : Nat)
  | collMarkerTimeout (fid hp bind step : Nat)
  | flitRetry (port : Nat)
  | linkRetrainTimeout (port : Nat)
  | formePlace (lid core : Nat)
  | placementHoldExpiry (lid : Nat)
  | latboundExpiry (lid : Nat)
  | formeLeaveCore (fid : Nat)
  | sliceEnd (part : Nat)
  | sliceStart (part : Nat)
  | db (ctx slot : Nat) (value : W64)
  | packetFetch (ctx slot : Nat)
  | packetNop (ctx slot : Nat)
  | packetLaunch (ctx slot : Nat)
  | packetGraph (ctx slot : Nat)
  | packetJob (ctx slot : Nat)
  | packetFence (ctx slot : Nat)
  | fencePacketPoll (ctx slot : Nat)
  | packetSignal (ctx slot : Nat)
  | graphNodeReady (gid node : Nat)
  | phaseCommStep (jid : Nat)
  | phaseBarrier (jid : Nat)
  | qctlEnable (ctx slot : Nat)
  | qctlDisable (ctx slot : Nat)
  | qctlKill (ctx slot : Nat)
  | registerWrite (r : BarReg) (value : W64)
  | partSet
  | ctxBind
  | ctxUnbind
  | fassign
  | frelease
  | hmove
  | preempt
  | killq
  | standset
  | signerSet
  | tmplReg
  | tmplDrop
  | taskctx
  | sessOpen
  | sessRequest (c : SessCall)
  | sessAnswer (r : SessAns)
  | sessOpenTimeout
  | sessClose
  | spdmRequest (port : Nat) (kind : SpdmKind)
  | hmopen (old new : Nat) (sizeCode : Nat) (tenant : W32)
  | lineCopy (old : Nat) (x : LineStep)
  | hmswitch (old : Nat)
  | hmabort (old : Nat)
  | cxlMemRequest (r : CxlReq)
  | bisnpinv (x : InvLine)
  | bisnpdata (addr : Nat)
  | biconflict (addr : Nat) (data : Bool)
  | extentAdd (base : Nat) (tag : BitVec 128) (pids : List (BitVec 12))
  | extentRelease (base : Nat)
  | extentGoneNotice (base : Nat)
  | ndtPacketReceive (src : BitVec 12) (packet : List Byte)
  | pageBringIn (page : Nat) (lost : List Nat)
  | atsInvalidation (pasid : BitVec 20) (base size : Nat)
  | softError (site : ErrSite) (worse : Bool)
  | viralReceived (peer : BitVec 12)
  | deviceViral
  | expanderLost (pid : BitVec 12)
  | vfEnableClear
  | thermalClockStep (raise : Bool)
  | auditReplayDone (r : AuditReport)
  | unitRetest (u : UnitId) (pass : Bool)
  | startUp (r : StartReport)
  | translationCompletion (ctx va : Nat) (r : AtsReply)
  | iinvComplete (id : Nat)
  | pageRequestInterfaceEnable (ctx : Nat)
  | vfEnableSet
  | linkReset (peer : BitVec 12)
  | retrainingComplete (port : Nat) (width : Nat)
  | hostUioAccess (a : HostAccess)
deriving DecidableEq, Repr

end Sys2Proof
end

