-- ==== Sys2Proof/WellFormed.lean ====
section
/-! DEFINITION. Which instruction words are legal, apart from what the launch's format slots decide
(R62, R63, R66, R67, R81, R137, R140, R184, R214, R262, R281, R294, R295, R354). An event of the device has no
word and is always well formed. -/
namespace Sys2Proof

/-- An unused source field: all zero bits (R67). -/
def Src.zero : Src := ⟨.v 0, 0, false⟩

/-- An unused destination field (R67). -/
def Reg.zero : Reg := .v 0

def Reg.isV : Reg → Bool | .v _ => true | _ => false
def Reg.isT : Reg → Bool | .t _ => true | _ => false
def Reg.isS : Reg → Bool | .s _ => true | _ => false
def Reg.isC : Reg → Bool | .c _ => true | _ => false
def Reg.isImm : Reg → Bool | .imm _ => true | _ => false

/-- An s register or an inline constant: one value for the party (R67). -/
def Reg.uniform (r : Reg) : Bool := r.isS || r.isImm

/-- Registers of a group of `n` start on a multiple of `n` (R38, R137, R214); a quad is never an s register,
and neither a group nor a floating operand is a c register (R137). -/
def Reg.groupOk (n : Nat) : Reg → Bool
  | .v k => k.toNat % n = 0
  | .t k => k.toNat % n = 0
  | .s _ => n ≤ 2
  | .c _ => n = 1
  | .imm _ => n ≤ 2

/-- An even register, whatever its class (R167). -/
def Reg.even : Reg → Bool
  | .v k => k.toNat % 2 = 0
  | .t k => k.toNat % 2 = 0
  | .s k => k.toNat % 2 = 0
  | _ => false

/-- A register whose number is a multiple of 4, whatever its class (R168). -/
def Reg.fours : Reg → Bool
  | .v k => k.toNat % 4 = 0
  | .t k => k.toNat % 4 = 0
  | .s k => k.toNat % 4 = 0
  | _ => false

/-- A source field: its class, pattern, last-read bit and group (R62, R63, R66). `int` holds where the operand is
read as an integer. -/
def Src.ok (n : Nat) (int : Bool) (x : Src) : Bool :=
  x.reg.groupOk n && (int || !(x.reg.isImm || x.reg.isC)) && (!x.lr || x.reg.isV)
    && (!x.reg.uniform || x.pat = 0)

/-- A v or t destination of `n` registers, or an s destination when every source is uniform (R67). -/
def Reg.dstOk (n : Nat) (srcs : List Src) (r : Reg) : Bool :=
  match r with
  | .v _ | .t _ => r.groupOk n
  | .s _ => n ≤ 2 && srcs.all fun x => x.reg.uniform
  | _ => false

/-- A destination that may also be a c register, as for ICMP and FCMP (R146, R161). -/
def Reg.dstOrC (srcs : List Src) (r : Reg) : Bool := r.isC || r.dstOk 1 srcs

def OpTy.isInt : OpTy → Bool
  | .i32 | .n32 | .i64 | .n64 | .i16 | .n16 | .i8 | .n8 => true
  | _ => false

/-- How many 32-bit registers an operand of the type takes (R38). -/
def OpTy.regs : OpTy → Nat
  | .i64 | .n64 => 2
  | _ => 1

def OpTy.signed : OpTy → Bool
  | .i32 | .i64 | .i16 | .i8 => true
  | _ => false

/-- The four full-width integer types that logic, shifts and moves allow (R140). -/
def OpTy.isWord : OpTy → Bool
  | .i32 | .n32 | .i64 | .n64 => true
  | _ => false

/-- The types of the packed floating instructions (R140). -/
def OpTy.isF : OpTy → Bool
  | .f32 | .f16 | .b16 => true
  | _ => false

/-- How many elements of the type one register holds (R110, R166). -/
def OpTy.elems : OpTy → Nat
  | .f16 | .b16 => 2
  | .e4m3 | .e5m2 => 4
  | .e2m1 => 8
  | _ => 1

/-- The rounding code is one of R77's five modes. -/
def RmCode.isMode : RmCode → Bool
  | .rs => false
  | _ => true

/-- The fields SUB, RM, FS and X that a V2 entry gives no use are zero (R137). -/
def V2.plain (o : V2) : Bool := o.sub = 0 && o.rm = .rne && o.fs = 0 && o.x = 0

/-- A one-source V2 word has SB, BK and LRB at zero (R137). -/
def V2.oneSrc (o : V2) : Bool := o.b = .zero

def V2.binInt (o : V2) : Bool :=
  o.a.ok o.ty.regs true && o.b.ok o.ty.regs true && o.d.dstOk o.ty.regs [o.a, o.b] && o.dual.isNone

def V2.unInt (o : V2) : Bool :=
  o.oneSrc && o.a.ok o.ty.regs true && o.dual.isNone && o.plain

def V2.shift (o : V2) : Bool :=
  o.ty.isWord && o.plain && o.a.ok o.ty.regs true && o.b.ok 1 true && o.d.dstOk o.ty.regs [o.a, o.b] && o.dual.isNone

/-- DUAL stands only before an instruction whose destination is no s register (R221). -/
def V2.dualOk (o : V2) : Bool := o.dual.isNone || !o.d.isS

def V3.dualOk (o : V3) : Bool := o.dual.isNone || !o.d.isS

def V2.binF (o : V2) : Bool :=
  o.ty.isF && o.sub = 0 && o.fs = 0 && o.x = 0 && o.a.ok 1 false && o.b.ok 1 false && o.d.dstOk 1 [o.a, o.b] && o.dualOk

def V2.unF32 (o : V2) : Bool :=
  o.ty = .f32 && o.plain && o.oneSrc && o.a.ok 1 false && o.d.dstOk 1 [o.a] && o.dualOk

def V3.int32 (o : V3) : Bool :=
  o.a.ok 1 true && o.b.ok 1 true && o.c.ok 1 true && o.d.dstOk 1 [o.a, o.b, o.c] && o.dual.isNone

def V3.float (o : V3) : Bool :=
  o.a.ok 1 false && o.b.ok 1 false && o.c.ok 1 false && o.d.dstOk 1 [o.a, o.b, o.c] && o.dualOk

/-- NU values 48 to 61 are reserved (R78). -/
def nuOk (nu : BitVec 6) : Bool := nu.toNat ≤ 47 || nu.toNat ≥ 62

/-- The offset source is a v, t or s register or an inline constant, read as an integer (R262, R260). -/
def soOk (x : Src) : Bool := x.ok 1 true && !x.reg.isC

/-- ORD and SCOPE of a load or store through a window: plain has SCOPE 0, and ORD 3 is for atomics (R78, R262). -/
def ordLdSt (ord : Ord) (sc : Scope) : Bool :=
  match ord with
  | .plain => sc = .pty
  | .rlx | .acqRel => true
  | .ar => false

/-- The scratchpad's scopes: .PTY or .FRM (R269). -/
def scopeSc (sc : Scope) : Bool := sc = .pty || sc = .frm

/-- How many registers an access of a size moves (R78). -/
def Sz.regs : Sz → Nat
  | .w64 => 2
  | .w128 => 4
  | _ => 1

/-- Bytes of an access (R78). -/
def Sz.bytes : Sz → Nat
  | .z8 | .x8 => 1
  | .z16 | .x16 => 2
  | .w32 => 4
  | .w64 => 8
  | .w128 => 16

def Sz.storable : Sz → Bool
  | .x8 | .x16 => false
  | _ => true

/-- Sizes whose accesses can carry tangents (R225). -/
def Sz.tangent : Sz → Bool
  | .w32 | .w64 | .w128 => true
  | _ => false

/-- A store's data register (R262): SZ 3 takes an even v or t or an s register, SZ 4 a quad of v or t. -/
def stDat (sz : Sz) (r : Reg) : Bool :=
  match r with
  | .v k => k.toNat % sz.regs = 0
  | .t k => k.toNat % sz.regs = 0
  | _ => sz ≠ .w128

def MF.dualOk (o : MF) : Bool := o.dual.isNone || o.sz.tangent

def MF.load (o : MF) : Bool :=
  (match o.dat with | .v k => k.toNat % o.sz.regs = 0 | _ => false) && !o.lrd && soOk o.so && nuOk o.nu && o.dualOk

def MF.store (o : MF) : Bool :=
  stDat o.sz o.dat && (!o.lrd || o.dat.isV) && o.sz.storable && soOk o.so && nuOk o.nu && o.dualOk

/-- PREF, REUSE and the cache instructions name no data register (R262). -/
def MF.noData (o : MF) : Bool := o.dat = .zero && !o.lrd && soOk o.so && nuOk o.nu && o.dual.isNone

def Aop.isFloat : Aop → Bool | .fadd | .fmin | .fmax => true | _ => false
def Aop.isMinMax : Aop → Bool | .min | .max => true | _ => false
def Aop.two : Aop → Bool | .cas | .inc => true | _ => false

/-- The rules that ATOM, ATOMSC and RED share (R262, R272); DUAL needs XCHG or FADD (R225). -/
def MA.base (o : MA) : Bool :=
  (o.sz = .w32 || o.sz = .w64) && (o.ord = .rlx || o.ord = .ar) && soOk o.so && nuOk o.nu
    && !(o.aop.isFloat && o.sz = .w64) && (!o.sgn || o.aop.isMinMax)
    && (o.dual.isNone || o.aop = .xchg || o.aop = .fadd)

/-- DAT alignment of an atomic: CAS and INC take twice the registers (R80, R272). -/
def MA.datOk (o : MA) : Bool :=
  let n := o.sz.regs * (if o.aop.two then 2 else 1)
  match o.dat with
  | .v k => k.toNat % n = 0
  | .t k => k.toNat % n = 0
  | .s k => !o.aop.two || k.toNat % n = 0
  | .c k => !o.aop.two || k.toNat % n = 0
  | .imm _ => !o.aop.two

/-- Every field of a U word but those named is zero (R75). -/
def UF.only (o : UF) (d ua ub idx imm : Bool) : Bool :=
  (d || o.d = .zero) && (ua || o.ua = 0) && (ub || o.ub = 0) && (idx || o.idx = 0) && (imm || o.imm = 0)

def UF.none (o : UF) : Bool := o.only false false false false false

/-- A rope instruction names rope 0 to 63 (R354). -/
def UF.rope (o : UF) : Bool := o.idx.toNat ≤ 63

/-- The writable special registers of R43. -/
def specialWritable (n : BitVec 8) : Bool :=
  n = 0x00 || n = 0x01 || n = 0x03 || n = 0x04 || n = 0x21

/-- The special registers that MOVS reads: those of R43 but the per-lane laneid. -/
def specialReadable (n : BitVec 8) : Bool :=
  (n.toNat ≤ 0x0B && n ≠ 0x05) || (0x10 ≤ n.toNat && n.toNat ≤ 0x17) || (0x20 ≤ n.toNat && n.toNat ≤ 0x25)

def XF.ok (o : XF) : Bool :=
  nuOk o.nu && o.ord ≠ .rlx && (o.ord ≠ .plain || o.scope = .pty)

def PF.slotless (o : PF) : Bool := o.fa = 0 && o.fb = 0

/-- The FCMP codes of R80. -/
def fcmpCode (n : BitVec 4) : Bool := n.toNat ≤ 5 || (8 ≤ n.toNat && n.toNat ≤ 13)

/-- A quad operand: a v register that is a multiple of 4, or t0 or t4 (R214). -/
def Src.quadOk (x : Src) : Bool := x.ok 4 false && (x.reg.isV || x.reg.isT)

def Reg.quadOk (r : Reg) : Bool := r.groupOk 4 && (r.isV || r.isT)

def Reg.vt (n : Nat) (r : Reg) : Bool := r.groupOk n && (r.isV || r.isT)

/-- The element types of COLL's operations (R295). -/
def collTy (sub : BitVec 4) (ty : OpTy) : Bool :=
  if sub.toNat ≤ 3 then ty.isWord || ty.isF else sub = 4 && ty = .f32

/-- COLL's peer and offset are v, t or s registers or constants (R295). -/
def collSrc (x : Src) : Bool := x.ok 1 true && !x.reg.isC

/-- Whether the word's fields are legal (R81), apart from the format slots. FSCALE's entry reads its B as an integer, so a
constant is legal there. DEDUCED: log entry 28. DEDUCED: log entry 96. DEDUCED: log entry 111. DEDUCED: log entry 133. -/
def Instr.wf : Instr → Bool
  | .nop o | .ret o | .exit o | .fuse o | .yield o | .isync o | .phase o | .eret o | .oready o => o.none
  | .bra o | .call o => o.cn = 0 && !o.neg && o.bmode = .lanes
  | .brc _ | .brx _ | .callx _ => true
  | .sleep o => o.only false false false false true
  | .ropeSet o =>
    o.only false false false true true && o.rope && 1 ≤ (o.imm.extractLsb' 0 6).toNat
      && (o.imm.extractLsb' 0 6).toNat ≤ 32 && o.imm.extractLsb' 6 2 = 0
  | .ropeArv o | .ropeWait o | .ropeSync o => o.only false false false true false && o.rope
  | .signal o => o.only false true true true true && o.idx.toNat ≤ 2 && o.imm.toNat ≤ 4
  | .waitc o => o.only false true true true true && o.idx.toNat ≤ 5 && o.imm.toNat ≤ 4
  | .cancel o => o.only true true false true true && o.d.isS && o.idx.toNat ≤ 1 && o.imm.toNat ≤ 1
  | .launch o => o.only true true false true false && o.d.isS && o.idx.toNat ≤ 1
  | .trap o | .bkpt o => o.only false false false false true
  | .movs o =>
    if o.imm = 0 then o.only true false false true false && o.d.isS && specialReadable o.idx
    else o.imm = 1 && o.only false true false true true && specialWritable o.idx
  | .movsw o => o.only true false false true false && o.d.vt 1 && o.idx = 0x05
  | .ctrr o => o.only true false false true false && o.d.isS && o.idx.toNat ≤ 0x16
  | .iadd o | .isub o | .imul o | .imin o | .imax o => o.ty.isInt && o.plain && o.binInt
  | .imulh o => o.ty.isWord && o.plain && o.binInt
  | .ineg o => o.ty.isInt && o.unInt && o.d.dstOk o.ty.regs [o.a]
  | .iabs o => o.ty.isInt && o.ty.signed && o.unInt && o.d.dstOk o.ty.regs [o.a]
  | .imad o | .iclamp o | .bfx o => o.int32 && !o.m.getLsbD 1
  | .imadw o =>
    o.a.ok 1 true && o.b.ok 1 true && o.c.ok 2 true && o.d.dstOk 2 [o.a, o.b, o.c] && o.dual.isNone && !o.m.getLsbD 1
  | .lea o =>
    o.ty.isWord && o.rm = .rne && o.fs = 0 && o.x = 0 && o.a.ok o.ty.regs true && o.b.ok 1 true
      && o.d.dstOk o.ty.regs [o.a, o.b] && o.dual.isNone
  | .and o | .or o | .xor o | .andn o | .orn o => o.ty.isWord && o.plain && o.binInt
  | .not o | .brev o => o.ty.isWord && o.unInt && o.d.dstOk o.ty.regs [o.a]
  | .popc o | .clz o | .ctz o => o.ty.isWord && o.unInt && o.d.dstOk 1 [o.a]
  | .bmix o =>
    o.m = 0 && o.dual.isNone && o.a.ok 1 true && Src.ok 1 true { o.b with pat := 0 }
      && Src.ok 1 true { o.c with pat := 0 } && o.d.dstOk 1 [o.a, o.b, o.c]
      && !o.a.reg.isC && !o.b.reg.isC && !o.c.reg.isC
  | .shl o | .shr o | .sar o | .rol o => o.shift
  | .fshl o | .bfi o => o.int32 && o.m = 0
  | .icmp o =>
    o.ty.isInt && o.sub.toNat ≤ 5 && o.rm = .rne && o.fs = 0 && o.x = 0 && o.a.ok o.ty.regs true
      && o.b.ok o.ty.regs true && o.d.dstOrC [o.a, o.b] && o.dual.isNone
  | .sel o =>
    let n := if o.m.getLsbD 0 then 2 else 1
    o.a.ok n true && o.b.ok n true && o.c.ok 1 true && o.d.dstOk n [o.a, o.b, o.c] && o.dualOk && !o.m.getLsbD 1
  | .clop o =>
    o.sub.toNat ≤ 6 && o.ty = .i32 && o.rm = .rne && o.fs = 0 && o.x = 0 && o.dual.isNone && o.d.isC
      && o.a.reg.isC && !o.a.lr && (if o.sub.toNat ≤ 4 then o.b.reg.isC && !o.b.lr else o.oneSrc)
  | .cvote o =>
    (o.ty = .i32 || o.ty = .i64) && o.sub.toNat ≤ 3 && o.rm = .rne && o.fs = 0 && o.x = 0 && o.oneSrc
      && o.a.ok o.ty.regs true && o.dual.isNone
      && (o.d.isS || (o.sub ≠ 3 && (o.d.isC || o.d.vt 1)))
  | .mov o =>
    o.ty.isWord && o.plain && o.oneSrc && o.a.ok o.ty.regs true && o.d.dstOk o.ty.regs [o.a] && o.dualOk
  | .movi o => o.d.isV || o.d.isT || o.d.isS
  | .movhi o => o.d.isS
  | .movx o => o.ty = .n32 && o.unInt && o.d.vt 1
  | .movxw o => o.ty = .n32 && o.plain && o.d = .zero && o.a.ok 1 true && o.b.ok 1 true && o.dual.isNone
  | .lperm o =>
    o.ty.isWord && o.plain && o.a.ok o.ty.regs true && o.b.ok 1 true && o.d.dstOk o.ty.regs [o.a, o.b] && o.dualOk
  | .fadd o | .fsub o | .fmul o => o.binF && o.rm.isMode
  | .fmin o | .fmax o => o.binF && o.rm = .rne
  | .fcmp o =>
    o.ty = .f32 && fcmpCode o.sub && o.rm = .rne && o.fs = 0 && o.x = 0 && o.a.ok 1 false && o.b.ok 1 false
      && o.d.dstOrC [o.a, o.b] && o.dual.isNone
  | .fclass o | .fexpn o => o.unF32 && o.dual.isNone
  | .frnd o =>
    o.ty.isF && o.sub = 0 && o.fs = 0 && o.x = 0 && o.oneSrc && o.a.ok 1 false && o.d.dstOk 1 [o.a] && o.dualOk
      && o.rm.isMode
  | .fscale o =>
    o.ty.isF && o.sub = 0 && o.fs = 0 && o.x = 0 && o.a.ok 1 false && o.b.ok 1 true && o.d.dstOk 1 [o.a, o.b]
      && o.dualOk && o.rm.isMode
  | .frcps o | .frsqs o | .fex2 o | .flg2 o | .fsin o | .fcos o => o.unF32
  | .ffma _ e o => o.float && (!e || o.m = 0)
  | .fdot2 _ e o => o.float && (!e || o.m = 0)
  | .fdot4 _ e o => o.float && (!e || o.m = 0)
  | .cvt o =>
    o.oneSrc && o.x = 0 && o.a.ok o.ty.regs o.ty.isInt && o.sub.toNat < o.ty.elems && o.d.dstOk 1 [o.a] && o.dualOk
      && (o.dual.isNone || !o.ty.isInt)
  | .pack2 o =>
    o.ty = .f32 && o.sub = 0 && o.x = 0 && o.a.ok 1 false && o.b.ok 1 false && o.d.dstOk 1 [o.a, o.b] && o.dualOk
  | .pack4 o =>
    o.ty = .f32 && o.sub = 0 && !o.x.getLsbD 1 && o.a.ok 2 false && o.b.ok 2 false && o.d.dstOk 1 [o.a, o.b]
      && o.dualOk && o.a.reg.even && o.b.reg.even
  | .xpnd o =>
    o.ty = .f32 && o.sub = 0 && o.rm = .rne && !o.x.getLsbD 1 && o.oneSrc && o.a.ok 1 false
      && (o.d.vt 2 || (o.d.even && o.d.dstOk 2 [o.a])) && o.dualOk
  | .qblk o =>
    o.ty = .f32 && o.sub = 0 && o.x = 0 && o.oneSrc && o.a.ok 1 false && o.d.dstOk 1 [o.a] && o.dual.isNone
  | .dqblk o =>
    o.ty = .f32 && o.sub = 0 && o.rm = .rne && o.x = 0 && o.oneSrc && o.a.ok 1 false && o.d.dstOk 1 [o.a] && o.dual.isNone
  | .sheet o => o.g = 0 && o.uc = 0 && o.slotless && o.kd = 0 && o.pmod = 0 && nuOk o.nu
  | .press o => o.kd ≠ 0 && o.pmod.toNat ≤ 1 && nuOk o.nu
  | .presss o => o.kd.toNat % 4 = 0 && o.kd ≠ 0 && o.pmod.toNat ≤ 3 && nuOk o.nu
  | .gclr o => o.ua = 0 && o.ub = 0 && o.uc = 0 && o.slotless && o.kd = 0 && o.nu = 0 && o.pmod = 0
  | .gload o => o.fb = 0 && o.kd = 0 && o.pmod = 0 && nuOk o.nu
  | .gstore o => o.fb = 0 && o.kd = 0 && (o.pmod.toNat ≤ 4 || o.pmod = 7) && nuOk o.nu
  | .platen o => o.kd ≠ 0 && o.pmod.toNat ≤ 1 && nuOk o.nu
  | .gread o =>
    o.ty = .f32 && !o.sub.getLsbD 3 && o.rm = .rne && o.fs = 0 && o.x = 0 && o.oneSrc && o.a.ok 1 true && o.d.isV
  | .gwrite o =>
    o.ty = .f32 && !o.sub.getLsbD 3 && o.rm = .rne && o.fs = 0 && o.x = 0 && o.d = .zero && o.a.ok 1 true
      && o.b.ok 1 false
  | .batch o => o.only true false false false false && o.d.isS
  | .waitb o =>
    if o.idx = 0 then o.only false true false true false
    else o.idx = 1 && o.only false false false true true && o.imm.toNat ≤ 255
  | .coink o =>
    o.only false true true false true && o.imm.extractLsb' 0 2 ≠ 0 && o.imm.extractLsb' 10 14 = 0
      && (o.imm.getLsbD 0 || o.ua = 0) && (o.imm.getLsbD 1 || (o.ub = 0 && o.imm.extractLsb' 2 8 = 0))
  | .coin o => o.ty = .n32 && o.plain && o.a = .zero && o.oneSrc && o.d.vt 1 && o.dual.isNone
  | .coinr o => o.ty = .n64 && o.plain && o.oneSrc && o.a.ok 2 true && o.d.vt 1 && o.dual.isNone
  | .draw o => o.ty = .f32 && o.plain && o.a.ok 1 false && o.b.ok 1 false && o.d.quadOk
  | .drawa o =>
    o.ty = .f32 && o.rm = .rne && o.fs = 0 && o.x = 0 && o.d.quadOk
      && (if o.sub = 0 then o.a.quadOk && o.oneSrc else o.sub = 1 && o.a.ok 1 false && o.b.ok 1 false)
  | .dmerge o =>
    o.a.quadOk && o.b.quadOk && o.d.quadOk && !o.m.getLsbD 1 && (if o.m.getLsbD 0 then o.c = .zero else o.c.ok 1 true)
  | .dshift o => o.ty = .f32 && o.plain && o.a.quadOk && o.b.ok 1 false && o.d.quadOk
  | .tget o =>
    (o.ty = .n32 || o.ty = .n64) && o.rm = .rne && o.fs = 0 && o.x = 0 && o.oneSrc && o.dual.isNone
      && 1 ≤ o.sub.toNat && o.sub.toNat ≤ 4 && o.a.ok o.ty.regs true && (o.a.reg.isV || o.a.reg.isT)
      && o.d.vt o.ty.regs
  | .tset o =>
    (o.ty = .n32 || o.ty = .n64) && o.rm = .rne && o.fs = 0 && o.x = 0 && o.oneSrc && o.dual.isNone
      && 1 ≤ o.sub.toNat && o.sub.toNat ≤ 4 && o.a.ok o.ty.regs true && !o.a.reg.isC && o.d.vt o.ty.regs
  | .tclr o =>
    (o.ty = .n32 || o.ty = .n64) && o.rm = .rne && o.fs = 0 && o.x = 0 && o.a = .zero && o.oneSrc && o.dual.isNone
      && o.sub ≠ 0 && o.d.vt o.ty.regs
  | .ld o => o.load && ordLdSt o.ord o.scope
  | .ldsc o => o.load && o.nu = 0 && ordLdSt o.ord o.scope && scopeSc o.scope
  | .ldpv o => o.load && o.ord = .plain && o.scope = .pty
  | .ldk o =>
    o.dat.isS && !o.lrd && o.so.reg.uniform && soOk o.so && nuOk o.nu && o.sz ≠ .w128 && ordLdSt o.ord o.scope
      && o.dual.isNone
  | .st o => o.store && ordLdSt o.ord o.scope
  | .stsc o => o.store && o.nu = 0 && ordLdSt o.ord o.scope && scopeSc o.scope
  | .stpv o => o.store && o.ord = .plain && o.scope = .pty
  | .atom o => o.base && o.datOk && o.dat.isV
  | .atomsc o => o.base && o.datOk && o.dat.isV && o.nu = 0 && scopeSc o.scope
  | .red o => o.base && o.datOk && o.aop ≠ .xchg && o.aop ≠ .cas && (!o.lrd || o.dat.isV)
  | .pref o => o.noData && o.ord = .plain && o.scope = .pty && (o.sz = .z8 || o.sz = .z16)
  | .reuse o => o.noData && o.ord = .plain && o.scope = .pty && o.sz.storable
  | .fence o =>
    o.only false false false false true && (o.imm.extractLsb' 0 3).toNat ≤ 4 && o.imm.extractLsb' 3 4 ≠ 0
      && o.imm.extractLsb' 7 17 = 0
  | .cwb o | .cinv o => o.noData && o.nu = 0 && o.ord = .plain && o.sz = .z8
  | .iinv o => o.noData && o.nu = 0 && o.ord = .plain && o.sz = .z8 && o.scope ≠ .sys
  | .wopen o =>
    o.only false true true true true && o.ub.toNat % 2 = 0 && o.idx.toNat ≤ 15 && 1 ≤ o.imm.toNat && o.imm.toNat ≤ 7
  | .wclose o => o.only false false false true false && o.idx.toNat ≤ 15
  | .cpy o | .cpyx o | .cpyrot o | .fill o | .scrub o | .seal o | .ndt o => o.ok
  | .coll o =>
    o.d.isS && collSrc o.a && collSrc o.b && o.sub.toNat ≤ 4 && collTy o.sub o.ty && !o.x.getLsbD 1 && o.fs = 0
      && (if o.sub = 1 && o.ty.isF then o.rm.isMode else o.rm = .rne) && o.dual.isNone
  | .csigBind o => o.only false true false true false && o.idx = 0
  | .csigSig o => o.only true true false true false && o.d.isS && o.idx = 1
  | .csigStat o => o.only true true false true false && o.d.isS && o.idx = 2
  | _ => true

end Sys2Proof
end

