-- ==== Sys2Proof/Decode.lean ====
section
/-! DEFINITION. From 64-bit words to instructions and back (R50, R62, R68 to R81). Decoding answers an instruction
that is legal in itself, or the name of what makes the words none. -/
namespace Sys2Proof

/-- Why words are not an instruction (R81). -/
inductive Reject where
  | noWord
  | unassignedOpcode
  | framingWord
  | reservedField
  | reservedCode
  | badOperand
  | badDual
  | illegalForm
deriving DecidableEq, Repr

/-- Field `n` bits wide from bit `lo`. -/
def fieldOf (w : W64) (lo n : Nat) : BitVec n := w.extractLsb' lo n

/-- Bits 63:56, the major opcode (R50). -/
def opOf (w : W64) : BitVec 8 := fieldOf w 56 8

def opDual : BitVec 8 := 0xF0
def opCairn : BitVec 8 := 0xFE
def opAnchor : BitVec 8 := 0xFF

def need (e : Reject) (b : Bool) : Except Reject Unit := if b then .ok () else .error e

/-- The operand that a class bit and a number select (R62). -/
def Reg.ofCode (k : Bool) (n : BitVec 8) : Except Reject Reg :=
  if !k then .ok (.v n)
  else if n.extractLsb' 6 2 = 0#2 then .ok (.s (n.extractLsb' 0 6))
  else if n.extractLsb' 3 5 = 0b01000#5 then .ok (.t (n.extractLsb' 0 3))
  else if n.extractLsb' 3 5 = 0b01001#5 then .ok (.c (n.extractLsb' 0 3))
  else if n.extractLsb' 6 2 = 2#2 then .ok (.imm (n.extractLsb' 0 6))
  else .error .badOperand

def Reg.classBit : Reg → Bool
  | .v _ => false
  | _ => true

def Reg.number : Reg → BitVec 8
  | .v n => n
  | .s n => 0b00#2 ++ n
  | .t n => 0b01000#5 ++ n
  | .c n => 0b01001#5 ++ n
  | .imm n => 0b10#2 ++ n

def Src.ofCode (k : Bool) (f : BitVec 12) (lr : Bool) : Except Reject Src :=
  (Reg.ofCode k (f.extractLsb' 4 8)).map fun r => ⟨r, f.extractLsb' 0 4, lr⟩

def Src.field (x : Src) : BitVec 12 := x.reg.number ++ x.pat

def OpTy.ofCode : BitVec 4 → Except Reject OpTy
  | 0 => .ok .i32 | 1 => .ok .n32 | 2 => .ok .i64 | 3 => .ok .n64 | 4 => .ok .i16 | 5 => .ok .n16 | 6 => .ok .i8
  | 7 => .ok .n8 | 8 => .ok .f32 | 9 => .ok .f16 | 10 => .ok .b16 | 11 => .ok .e4m3 | 12 => .ok .e5m2
  | 13 => .ok .e2m1 | _ => .error .reservedCode

def OpTy.code : OpTy → BitVec 4
  | .i32 => 0 | .n32 => 1 | .i64 => 2 | .n64 => 3 | .i16 => 4 | .n16 => 5 | .i8 => 6 | .n8 => 7 | .f32 => 8
  | .f16 => 9 | .b16 => 10 | .e4m3 => 11 | .e5m2 => 12 | .e2m1 => 13

def RmCode.ofCode : BitVec 3 → Except Reject RmCode
  | 0 => .ok .rne | 1 => .ok .rz | 2 => .ok .rup | 3 => .ok .rdn | 4 => .ok .rna | 7 => .ok .rs
  | _ => .error .reservedCode

def RmCode.code : RmCode → BitVec 3
  | .rne => 0 | .rz => 1 | .rup => 2 | .rdn => 3 | .rna => 4 | .rs => 7

def Scope.ofCode : BitVec 3 → Except Reject Scope
  | 0 => .ok .pty | 1 => .ok .frm | 2 => .ok .die | 3 => .ok .dev | 4 => .ok .sys | _ => .error .reservedCode

def Scope.code : Scope → BitVec 3
  | .pty => 0 | .frm => 1 | .die => 2 | .dev => 3 | .sys => 4

def Ord.ofCode : BitVec 2 → Ord
  | 0 => .plain | 1 => .rlx | 2 => .acqRel | 3 => .ar

def Ord.code : Ord → BitVec 2
  | .plain => 0 | .rlx => 1 | .acqRel => 2 | .ar => 3

def Sz.ofCode : BitVec 3 → Except Reject Sz
  | 0 => .ok .z8 | 1 => .ok .z16 | 2 => .ok .w32 | 3 => .ok .w64 | 4 => .ok .w128 | 5 => .ok .x8 | 6 => .ok .x16
  | _ => .error .reservedCode

def Sz.code : Sz → BitVec 3
  | .z8 => 0 | .z16 => 1 | .w32 => 2 | .w64 => 3 | .w128 => 4 | .x8 => 5 | .x16 => 6

def Aop.ofCode : BitVec 4 → Except Reject Aop
  | 0 => .ok .add | 1 => .ok .min | 2 => .ok .max | 3 => .ok .and | 4 => .ok .or | 5 => .ok .xor | 6 => .ok .xchg
  | 7 => .ok .cas | 8 => .ok .fadd | 9 => .ok .fmin | 10 => .ok .fmax | 11 => .ok .inc | _ => .error .reservedCode

def Aop.code : Aop → BitVec 4
  | .add => 0 | .min => 1 | .max => 2 | .and => 3 | .or => 4 | .xor => 5 | .xchg => 6 | .cas => 7 | .fadd => 8
  | .fmin => 9 | .fmax => 10 | .inc => 11

def BMode.ofCode : BitVec 2 → Except Reject BMode
  | 0 => .ok .lanes | 1 => .ok .any | 2 => .ok .all | _ => .error .reservedCode

def BMode.code : BMode → BitVec 2
  | .lanes => 0 | .any => 1 | .all => 2

def FmaTy.code : FmaTy → BitVec 2
  | .f32 => 0 | .f16 => 1 | .b16 => 2

/-- Format V2 (R69). -/
def V2.read (dual : Option (BitVec 2)) (w : W64) : Except Reject V2 := do
  let d ← Reg.ofCode (w.getLsbD 52) (fieldOf w 44 8)
  let a ← Src.ofCode (w.getLsbD 19) (fieldOf w 32 12) (w.getLsbD 17)
  let b ← Src.ofCode (w.getLsbD 18) (fieldOf w 20 12) (w.getLsbD 16)
  let ty ← OpTy.ofCode (fieldOf w 8 4)
  let rm ← RmCode.ofCode (fieldOf w 5 3)
  return { stall := fieldOf w 53 3, dual, d, a, b, sub := fieldOf w 12 4, ty, rm, fs := fieldOf w 2 3, x := fieldOf w 0 2 }

def V2.word (op : BitVec 8) (o : V2) : W64 :=
  op ++ o.stall ++ BitVec.ofBool o.d.classBit ++ o.d.number ++ o.a.field ++ o.b.field ++ BitVec.ofBool o.a.reg.classBit
    ++ BitVec.ofBool o.b.reg.classBit ++ BitVec.ofBool o.a.lr ++ BitVec.ofBool o.b.lr ++ o.sub ++ o.ty.code ++ o.rm.code
    ++ o.fs ++ o.x

/-- Format V3 (R68). -/
def V3.read (dual : Option (BitVec 2)) (w : W64) : Except Reject V3 := do
  let d ← Reg.ofCode (w.getLsbD 52) (fieldOf w 44 8)
  let a ← Src.ofCode (w.getLsbD 7) (fieldOf w 32 12) (w.getLsbD 4)
  let b ← Src.ofCode (w.getLsbD 6) (fieldOf w 20 12) (w.getLsbD 3)
  let c ← Src.ofCode (w.getLsbD 5) (fieldOf w 8 12) (w.getLsbD 2)
  return { stall := fieldOf w 53 3, dual, d, a, b, c, m := fieldOf w 0 2 }

def V3.word (op : BitVec 8) (o : V3) : W64 :=
  op ++ o.stall ++ BitVec.ofBool o.d.classBit ++ o.d.number ++ o.a.field ++ o.b.field ++ o.c.field
    ++ BitVec.ofBool o.a.reg.classBit ++ BitVec.ofBool o.b.reg.classBit ++ BitVec.ofBool o.c.reg.classBit
    ++ BitVec.ofBool o.a.lr ++ BitVec.ofBool o.b.lr ++ BitVec.ofBool o.c.lr ++ o.m

/-- Format VW (R70); SUB has no use in MOVI and MOVHI (R151). -/
def VW.read (w : W64) : Except Reject VW := do
  let d ← Reg.ofCode (w.getLsbD 52) (fieldOf w 44 8)
  need .reservedField (fieldOf w 32 12 = 0#12)
  return { stall := fieldOf w 53 3, d, imm := fieldOf w 0 32 }

def VW.word (op : BitVec 8) (o : VW) : W64 :=
  op ++ o.stall ++ BitVec.ofBool o.d.classBit ++ o.d.number ++ 0#12 ++ o.imm

/-- Format M (R71). -/
def MF.read (dual : Option (BitVec 2)) (w : W64) : Except Reject MF := do
  let dat ← Reg.ofCode (w.getLsbD 52) (fieldOf w 44 8)
  let so ← Src.ofCode (w.getLsbD 31) (fieldOf w 32 12) (w.getLsbD 30)
  let scope ← Scope.ofCode (fieldOf w 16 3)
  let sz ← Sz.ofCode (fieldOf w 11 3)
  return { stall := fieldOf w 53 3, dual, dat, so, lrd := w.getLsbD 29, win := fieldOf w 25 4, nu := fieldOf w 19 6,
           scope, ord := Ord.ofCode (fieldOf w 14 2), sz, off := fieldOf w 0 11 }

def MF.word (op : BitVec 8) (o : MF) : W64 :=
  op ++ o.stall ++ BitVec.ofBool o.dat.classBit ++ o.dat.number ++ o.so.field ++ BitVec.ofBool o.so.reg.classBit
    ++ BitVec.ofBool o.so.lr ++ BitVec.ofBool o.lrd ++ o.win ++ o.nu ++ o.scope.code ++ o.ord.code ++ o.sz.code ++ o.off

/-- Format MA (R71). -/
def MA.read (dual : Option (BitVec 2)) (w : W64) : Except Reject MA := do
  let dat ← Reg.ofCode (w.getLsbD 52) (fieldOf w 44 8)
  let so ← Src.ofCode (w.getLsbD 31) (fieldOf w 32 12) (w.getLsbD 30)
  let scope ← Scope.ofCode (fieldOf w 16 3)
  let sz ← Sz.ofCode (fieldOf w 11 3)
  let aop ← Aop.ofCode (fieldOf w 7 4)
  need .reservedField (fieldOf w 0 6 = 0#6)
  return { stall := fieldOf w 53 3, dual, dat, so, lrd := w.getLsbD 29, win := fieldOf w 25 4, nu := fieldOf w 19 6,
           scope, ord := Ord.ofCode (fieldOf w 14 2), sz, aop, sgn := w.getLsbD 6 }

def MA.word (op : BitVec 8) (o : MA) : W64 :=
  op ++ o.stall ++ BitVec.ofBool o.dat.classBit ++ o.dat.number ++ o.so.field ++ BitVec.ofBool o.so.reg.classBit
    ++ BitVec.ofBool o.so.lr ++ BitVec.ofBool o.lrd ++ o.win ++ o.nu ++ o.scope.code ++ o.ord.code ++ o.sz.code
    ++ o.aop.code ++ BitVec.ofBool o.sgn ++ 0#6

/-- Format P (R72). -/
def PF.read (dual : Option (BitVec 2)) (w : W64) : Except Reject PF := do
  need .reservedField (fieldOf w 0 8 = 0#8)
  return { stall := fieldOf w 53 3, dual, g := fieldOf w 50 3, ua := fieldOf w 44 6, ub := fieldOf w 38 6,
           uc := fieldOf w 32 6, fa := fieldOf w 29 3, fb := fieldOf w 26 3, kd := fieldOf w 18 8, nu := fieldOf w 12 6,
           pmod := fieldOf w 8 4 }

def PF.word (op : BitVec 8) (o : PF) : W64 :=
  op ++ o.stall ++ o.g ++ o.ua ++ o.ub ++ o.uc ++ o.fa ++ o.fb ++ o.kd ++ o.nu ++ o.pmod ++ 0#8

/-- Format X (R73, R281): the reply destination is an s register when RPLY is 1, and zero otherwise. -/
def XF.read (w : W64) : Except Reject XF := do
  let scope ← Scope.ofCode (fieldOf w 15 3)
  need .reservedField (fieldOf w 0 13 = 0#13)
  let rply ← if w.getLsbD 24
    then (need .badOperand (w.getLsbD 52 && fieldOf w 50 2 = 0#2)).map fun _ => some (fieldOf w 44 6)
    else (need .reservedField (fieldOf w 44 9 = 0#9)).map fun _ => none
  return { stall := fieldOf w 53 3, rply, xa := fieldOf w 38 6, xb := fieldOf w 32 6, nu := fieldOf w 18 6, scope,
           ord := Ord.ofCode (fieldOf w 13 2) }

def XF.word (fn : BitVec 7) (o : XF) : W64 :=
  0xB5#8 ++ o.stall ++ (match o.rply with | some d => 0b100#3 ++ d | none => 0#9) ++ o.xa ++ o.xb ++ fn
    ++ BitVec.ofBool o.rply.isSome ++ o.nu ++ o.scope.code ++ o.ord.code ++ 0#13

/-- Format CD (R74). -/
def CD.read (w : W64) : Except Reject CD := do
  let bmode ← BMode.ofCode (fieldOf w 47 2)
  need .reservedField (fieldOf w 45 2 = 0#2)
  return { stall := fieldOf w 53 3, cn := fieldOf w 50 3, neg := w.getLsbD 49, bmode, off := fieldOf w 0 45 }

def CD.word (op : BitVec 8) (o : CD) : W64 :=
  op ++ o.stall ++ o.cn ++ BitVec.ofBool o.neg ++ o.bmode.code ++ 0#2 ++ o.off

/-- Format CX (R74). -/
def CX.read (w : W64) : Except Reject CX := do
  need .reservedField (fieldOf w 0 47 = 0#47)
  return { stall := fieldOf w 53 3, ua := fieldOf w 47 6 }

def CX.word (op : BitVec 8) (o : CX) : W64 := op ++ o.stall ++ o.ua ++ 0#47

/-- Format U (R75). -/
def UF.read (w : W64) : Except Reject UF := do
  let d ← Reg.ofCode (w.getLsbD 52) (fieldOf w 44 8)
  return { stall := fieldOf w 53 3, d, ua := fieldOf w 38 6, ub := fieldOf w 32 6, idx := fieldOf w 24 8,
           imm := fieldOf w 0 24 }

def UF.word (op : BitVec 8) (o : UF) : W64 :=
  op ++ o.stall ++ BitVec.ofBool o.d.classBit ++ o.d.number ++ o.ua ++ o.ub ++ o.idx ++ o.imm

/-- XOP's functions (R80). -/
def XF.decode (w : W64) : Except Reject Instr := do
  let o ← XF.read w
  match (fieldOf w 25 7).toNat with
  | 1 => return .cpy o
  | 2 => return .cpyx o
  | 3 => return .cpyrot o
  | 4 => return .fill o
  | 5 => return .scrub o
  | 6 => return .seal o
  | 7 => return .ndt o
  | _ => .error .reservedCode

/-- CSIG's functions, by IDX (R294). -/
def CSIG.decode (w : W64) : Except Reject Instr := do
  let o ← UF.read w
  match o.idx.toNat with
  | 0 => return .csigBind o
  | 1 => return .csigSig o
  | 2 => return .csigStat o
  | _ => .error .reservedCode

/-- A DUAL prefix before a word of a format that carries no tangents is illegal (R76). -/
def noDual (dual : Option (BitVec 2)) (r : Except Reject Instr) : Except Reject Instr :=
  if dual.isSome then .error .badDual else r

/-- The DUAL prefix of NC (R76). -/
def dualWord (nc : BitVec 2) : W64 := opDual ++ 0#3 ++ nc ++ 0#51

/-- A word with its prefix, where it has one. -/
def withDual (d : Option (BitVec 2)) (w : W64) : List W64 :=
  match d with
  | none => [w]
  | some nc => [dualWord nc, w]

/-- The instruction of one word, by its major opcode (R79); `dual` is the NC of a DUAL prefix before it. The fields
of a format without a prefix take none. -/
def decodeWord (dual : Option (BitVec 2)) (w : W64) : Except Reject Instr :=
  match (opOf w).toNat with
  | 0x01 => noDual dual ((UF.read w).map .nop)
  | 0x02 => noDual dual ((CD.read w).map .bra)
  | 0x03 => noDual dual ((CD.read w).map .brc)
  | 0x04 => noDual dual ((CX.read w).map .brx)
  | 0x05 => noDual dual ((CD.read w).map .call)
  | 0x06 => noDual dual ((CX.read w).map .callx)
  | 0x07 => noDual dual ((UF.read w).map .ret)
  | 0x08 => noDual dual ((UF.read w).map .exit)
  | 0x09 => noDual dual ((UF.read w).map .fuse)
  | 0x0A => noDual dual ((UF.read w).map .yield)
  | 0x0B => noDual dual ((UF.read w).map .sleep)
  | 0x0C => noDual dual ((UF.read w).map .isync)
  | 0x10 => noDual dual ((UF.read w).map .ropeSet)
  | 0x11 => noDual dual ((UF.read w).map .ropeArv)
  | 0x12 => noDual dual ((UF.read w).map .ropeWait)
  | 0x13 => noDual dual ((UF.read w).map .ropeSync)
  | 0x14 => noDual dual ((UF.read w).map .phase)
  | 0x15 => noDual dual ((UF.read w).map .signal)
  | 0x16 => noDual dual ((UF.read w).map .waitc)
  | 0x17 => noDual dual ((UF.read w).map .cancel)
  | 0x18 => noDual dual ((UF.read w).map .launch)
  | 0x19 => noDual dual ((UF.read w).map .trap)
  | 0x1A => noDual dual ((UF.read w).map .bkpt)
  | 0x1B => noDual dual ((UF.read w).map .eret)
  | 0x1C => noDual dual ((UF.read w).map .movs)
  | 0x1D => noDual dual ((UF.read w).map .movsw)
  | 0x1E => noDual dual ((UF.read w).map .ctrr)
  | 0x20 => (V2.read dual w).map .iadd
  | 0x21 => (V2.read dual w).map .isub
  | 0x22 => (V2.read dual w).map .imul
  | 0x23 => (V2.read dual w).map .imulh
  | 0x24 => (V3.read dual w).map .imad
  | 0x25 => (V3.read dual w).map .imadw
  | 0x26 => (V2.read dual w).map .ineg
  | 0x27 => (V2.read dual w).map .iabs
  | 0x28 => (V2.read dual w).map .imin
  | 0x29 => (V2.read dual w).map .imax
  | 0x2A => (V3.read dual w).map .iclamp
  | 0x2B => (V2.read dual w).map .lea
  | 0x2C => (V2.read dual w).map .icmp
  | 0x2D => (V3.read dual w).map .sel
  | 0x2E => (V2.read dual w).map .popc
  | 0x2F => (V2.read dual w).map .clz
  | 0x30 => (V2.read dual w).map .and
  | 0x31 => (V2.read dual w).map .or
  | 0x32 => (V2.read dual w).map .xor
  | 0x33 => (V2.read dual w).map .andn
  | 0x34 => (V2.read dual w).map .orn
  | 0x35 => (V2.read dual w).map .not
  | 0x36 => (V3.read dual w).map .bmix
  | 0x37 => (V2.read dual w).map .shl
  | 0x38 => (V2.read dual w).map .shr
  | 0x39 => (V2.read dual w).map .sar
  | 0x3A => (V2.read dual w).map .rol
  | 0x3B => (V3.read dual w).map .fshl
  | 0x3C => (V3.read dual w).map .bfx
  | 0x3D => (V3.read dual w).map .bfi
  | 0x3E => (V2.read dual w).map .ctz
  | 0x3F => (V2.read dual w).map .brev
  | 0x40 => (V2.read dual w).map .clop
  | 0x41 => (V2.read dual w).map .cvote
  | 0x42 => (V2.read dual w).map .mov
  | 0x43 => noDual dual ((VW.read w).map .movi)
  | 0x44 => noDual dual ((VW.read w).map .movhi)
  | 0x45 => (V2.read dual w).map .movx
  | 0x46 => (V2.read dual w).map .movxw
  | 0x47 => (V2.read dual w).map .lperm
  | 0x50 => (V2.read dual w).map .fadd
  | 0x51 => (V2.read dual w).map .fsub
  | 0x52 => (V2.read dual w).map .fmul
  | 0x53 => (V2.read dual w).map .fmin
  | 0x54 => (V2.read dual w).map .fmax
  | 0x55 => (V2.read dual w).map .fcmp
  | 0x56 => (V2.read dual w).map .fclass
  | 0x57 => (V2.read dual w).map .frnd
  | 0x58 => (V2.read dual w).map .fscale
  | 0x59 => (V2.read dual w).map .fexpn
  | 0x5A => (V2.read dual w).map .frcps
  | 0x5B => (V2.read dual w).map .frsqs
  | 0x5C => (V2.read dual w).map .fex2
  | 0x5D => (V2.read dual w).map .flg2
  | 0x5E => (V2.read dual w).map .fsin
  | 0x5F => (V2.read dual w).map .fcos
  | 0x60 => (V3.read dual w).map (.ffma .f32 false)
  | 0x61 => (V3.read dual w).map (.ffma .f32 true)
  | 0x62 => (V3.read dual w).map (.ffma .f16 false)
  | 0x63 => (V3.read dual w).map (.ffma .f16 true)
  | 0x64 => (V3.read dual w).map (.ffma .b16 false)
  | 0x65 => (V3.read dual w).map (.ffma .b16 true)
  | 0x68 => (V3.read dual w).map (.fdot2 false false)
  | 0x69 => (V3.read dual w).map (.fdot2 false true)
  | 0x6A => (V3.read dual w).map (.fdot2 true false)
  | 0x6B => (V3.read dual w).map (.fdot2 true true)
  | 0x6C => (V3.read dual w).map (.fdot4 false false)
  | 0x6D => (V3.read dual w).map (.fdot4 false true)
  | 0x6E => (V3.read dual w).map (.fdot4 true false)
  | 0x6F => (V3.read dual w).map (.fdot4 true true)
  | 0x70 => (V2.read dual w).map .cvt
  | 0x71 => (V2.read dual w).map .pack2
  | 0x72 => (V2.read dual w).map .pack4
  | 0x73 => (V2.read dual w).map .xpnd
  | 0x74 => (V2.read dual w).map .qblk
  | 0x75 => (V2.read dual w).map .dqblk
  | 0x80 => (PF.read dual w).map .sheet
  | 0x81 => (PF.read dual w).map .press
  | 0x82 => (PF.read dual w).map .presss
  | 0x83 => (PF.read dual w).map .gclr
  | 0x84 => (V2.read dual w).map .gread
  | 0x85 => (V2.read dual w).map .gwrite
  | 0x86 => (PF.read dual w).map .gload
  | 0x87 => (PF.read dual w).map .gstore
  | 0x88 => noDual dual ((UF.read w).map .oready)
  | 0x89 => noDual dual ((UF.read w).map .batch)
  | 0x8A => noDual dual ((UF.read w).map .waitb)
  | 0x8B => (PF.read dual w).map .platen
  | 0x90 => noDual dual ((UF.read w).map .coink)
  | 0x91 => (V2.read dual w).map .coin
  | 0x92 => (V2.read dual w).map .coinr
  | 0x93 => (V2.read dual w).map .draw
  | 0x94 => (V2.read dual w).map .drawa
  | 0x95 => (V3.read dual w).map .dmerge
  | 0x96 => (V2.read dual w).map .dshift
  | 0x97 => (V2.read dual w).map .tget
  | 0x98 => (V2.read dual w).map .tset
  | 0x99 => (V2.read dual w).map .tclr
  | 0xA0 => (MF.read dual w).map .ld
  | 0xA1 => (MF.read dual w).map .st
  | 0xA2 => (MF.read dual w).map .ldk
  | 0xA3 => (MF.read dual w).map .ldsc
  | 0xA4 => (MF.read dual w).map .stsc
  | 0xA5 => (MF.read dual w).map .ldpv
  | 0xA6 => (MF.read dual w).map .stpv
  | 0xA7 => (MA.read dual w).map .atom
  | 0xA8 => (MA.read dual w).map .atomsc
  | 0xA9 => (MA.read dual w).map .red
  | 0xAA => (MF.read dual w).map .pref
  | 0xAB => (MF.read dual w).map .reuse
  | 0xAC => noDual dual ((UF.read w).map .fence)
  | 0xB0 => (MF.read dual w).map .cwb
  | 0xB1 => (MF.read dual w).map .cinv
  | 0xB2 => (MF.read dual w).map .iinv
  | 0xB3 => noDual dual ((UF.read w).map .wopen)
  | 0xB4 => noDual dual ((UF.read w).map .wclose)
  | 0xB5 => noDual dual (XF.decode w)
  | 0xB6 => (V2.read dual w).map .coll
  | 0xB7 => noDual dual (CSIG.decode w)
  | _ => .error .unassignedOpcode

/-- Keep an instruction only if its fields are legal (R81). -/
def checked (i : Instr) : Except Reject Instr := if i.wf then .ok i else .error .illegalForm

/-- The instruction at the head of a list of words, with its prefix where it has one, and the words after it. DESIGN CHOICE: log entry 98. -/
def decode : List W64 → Except Reject (Instr × List W64)
  | [] => .error .noWord
  | w :: ws =>
    if opOf w = opDual then
      if fieldOf w 53 3 = 0#3 ∧ fieldOf w 0 51 = 0#51 then
        match ws with
        | [] => .error .badDual
        | x :: xs =>
          if opOf x = opDual ∨ opOf x = opAnchor ∨ opOf x = opCairn then .error .badDual
          else do
            let i ← decodeWord (some (fieldOf w 51 2)) x
            let i ← checked i
            return (i, xs)
      else .error .badDual
    else if opOf w = opAnchor ∨ opOf w = opCairn then .error .framingWord
    else do
      let i ← decodeWord none w
      let i ← checked i
      return (i, ws)

/-- Eight bytes as a word, the lowest address first (R10). -/
def wordOfBytes : List Byte → Nat
  | [] => 0
  | b :: bs => b.toNat + 256 * wordOfBytes bs

/-- The bytes of a number, the lowest address first (R10). -/
def bytesOfNat : Nat → Nat → List Byte
  | 0, _ => []
  | n + 1, v => BitVec.ofNat 8 v :: bytesOfNat n (v / 256)

/-- The 64-bit words of a list of bytes. -/
def wordsOfBytes : Nat → List Byte → List W64
  | 0, _ => []
  | n + 1, bs => BitVec.ofNat 64 (wordOfBytes (bs.take 8)) :: wordsOfBytes n (bs.drop 8)

/-- The longest instruction is two words: a DUAL prefix and the word after it (R76). -/
def maxWords : Nat := 2

/-- The words of an instruction given as one number, its first word in the low bits. -/
def tableWords (nbits w : Nat) : List W64 := wordsOfBytes maxWords (bytesOfNat (8 * maxWords) (w % 2 ^ nbits))

/-- What the decoder reads from an instruction given as one number. -/
def decodeTableWord (nbits w : Nat) : Option Instr :=
  match decode (tableWords nbits w) with
  | .ok (i, _) => some i
  | .error _ => none


/-- The words of an instruction (R68 to R76), its DUAL prefix first where it has one; an event has none. -/
def encode : Instr → List W64
  | .pitchIssue _ => []
  | .priorityPromotion _ => []
  | .nop o => [UF.word 0x01 o]
  | .bra o => [CD.word 0x02 o]
  | .brc o => [CD.word 0x03 o]
  | .branchHeldRelease _ => []
  | .brx o => [CX.word 0x04 o]
  | .call o => [CD.word 0x05 o]
  | .callx o => [CX.word 0x06 o]
  | .ret o => [UF.word 0x07 o]
  | .exit o => [UF.word 0x08 o]
  | .reconvergeWaitExpiry _ => []
  | .fuse o => [UF.word 0x09 o]
  | .yield o => [UF.word 0x0A o]
  | .sleep o => [UF.word 0x0B o]
  | .sleepExpiry _ => []
  | .isync o => [UF.word 0x0C o]
  | .ropeSet o => [UF.word 0x10 o]
  | .ropeArv o => [UF.word 0x11 o]
  | .ropeWait o => [UF.word 0x12 o]
  | .ropeSync o => [UF.word 0x13 o]
  | .belayWatchdogFire _ _ => []
  | .phase o => [UF.word 0x14 o]
  | .signal o => [UF.word 0x15 o]
  | .waitc o => [UF.word 0x16 o]
  | .waitcPoll _ => []
  | .cancel o => [UF.word 0x17 o]
  | .launch o => [UF.word 0x18 o]
  | .trap o => [UF.word 0x19 o]
  | .bkpt o => [UF.word 0x1A o]
  | .eret o => [UF.word 0x1B o]
  | .boundaryTrap _ => []
  | .movs o => [UF.word 0x1C o]
  | .movsw o => [UF.word 0x1D o]
  | .ctrr o => [UF.word 0x1E o]
  | .iadd o => withDual o.dual (V2.word 0x20 o)
  | .isub o => withDual o.dual (V2.word 0x21 o)
  | .imul o => withDual o.dual (V2.word 0x22 o)
  | .imulh o => withDual o.dual (V2.word 0x23 o)
  | .imad o => withDual o.dual (V3.word 0x24 o)
  | .imadw o => withDual o.dual (V3.word 0x25 o)
  | .ineg o => withDual o.dual (V2.word 0x26 o)
  | .iabs o => withDual o.dual (V2.word 0x27 o)
  | .imin o => withDual o.dual (V2.word 0x28 o)
  | .imax o => withDual o.dual (V2.word 0x29 o)
  | .iclamp o => withDual o.dual (V3.word 0x2A o)
  | .lea o => withDual o.dual (V2.word 0x2B o)
  | .and o => withDual o.dual (V2.word 0x30 o)
  | .or o => withDual o.dual (V2.word 0x31 o)
  | .xor o => withDual o.dual (V2.word 0x32 o)
  | .andn o => withDual o.dual (V2.word 0x33 o)
  | .orn o => withDual o.dual (V2.word 0x34 o)
  | .not o => withDual o.dual (V2.word 0x35 o)
  | .bmix o => withDual o.dual (V3.word 0x36 o)
  | .shl o => withDual o.dual (V2.word 0x37 o)
  | .shr o => withDual o.dual (V2.word 0x38 o)
  | .sar o => withDual o.dual (V2.word 0x39 o)
  | .rol o => withDual o.dual (V2.word 0x3A o)
  | .fshl o => withDual o.dual (V3.word 0x3B o)
  | .bfx o => withDual o.dual (V3.word 0x3C o)
  | .bfi o => withDual o.dual (V3.word 0x3D o)
  | .popc o => withDual o.dual (V2.word 0x2E o)
  | .clz o => withDual o.dual (V2.word 0x2F o)
  | .ctz o => withDual o.dual (V2.word 0x3E o)
  | .brev o => withDual o.dual (V2.word 0x3F o)
  | .icmp o => withDual o.dual (V2.word 0x2C o)
  | .sel o => withDual o.dual (V3.word 0x2D o)
  | .clop o => withDual o.dual (V2.word 0x40 o)
  | .cvote o => withDual o.dual (V2.word 0x41 o)
  | .mov o => withDual o.dual (V2.word 0x42 o)
  | .movi o => [VW.word 0x43 o]
  | .movhi o => [VW.word 0x44 o]
  | .movx o => withDual o.dual (V2.word 0x45 o)
  | .movxw o => withDual o.dual (V2.word 0x46 o)
  | .lperm o => withDual o.dual (V2.word 0x47 o)
  | .fadd o => withDual o.dual (V2.word 0x50 o)
  | .fsub o => withDual o.dual (V2.word 0x51 o)
  | .fmul o => withDual o.dual (V2.word 0x52 o)
  | .ffma ty e o => withDual o.dual (V3.word (0b01100#5 ++ FmaTy.code ty ++ BitVec.ofBool e) o)
  | .fdot2 bf e o => withDual o.dual (V3.word (0b011010#6 ++ BitVec.ofBool bf ++ BitVec.ofBool e) o)
  | .fdot4 e5 e o => withDual o.dual (V3.word (0b011011#6 ++ BitVec.ofBool e5 ++ BitVec.ofBool e) o)
  | .fmin o => withDual o.dual (V2.word 0x53 o)
  | .fmax o => withDual o.dual (V2.word 0x54 o)
  | .fcmp o => withDual o.dual (V2.word 0x55 o)
  | .fclass o => withDual o.dual (V2.word 0x56 o)
  | .frnd o => withDual o.dual (V2.word 0x57 o)
  | .fscale o => withDual o.dual (V2.word 0x58 o)
  | .fexpn o => withDual o.dual (V2.word 0x59 o)
  | .frcps o => withDual o.dual (V2.word 0x5A o)
  | .frsqs o => withDual o.dual (V2.word 0x5B o)
  | .fex2 o => withDual o.dual (V2.word 0x5C o)
  | .flg2 o => withDual o.dual (V2.word 0x5D o)
  | .fsin o => withDual o.dual (V2.word 0x5E o)
  | .fcos o => withDual o.dual (V2.word 0x5F o)
  | .cvt o => withDual o.dual (V2.word 0x70 o)
  | .pack2 o => withDual o.dual (V2.word 0x71 o)
  | .pack4 o => withDual o.dual (V2.word 0x72 o)
  | .xpnd o => withDual o.dual (V2.word 0x73 o)
  | .qblk o => withDual o.dual (V2.word 0x74 o)
  | .dqblk o => withDual o.dual (V2.word 0x75 o)
  | .sheet o => withDual o.dual (PF.word 0x80 o)
  | .press o => withDual o.dual (PF.word 0x81 o)
  | .presss o => withDual o.dual (PF.word 0x82 o)
  | .gclr o => withDual o.dual (PF.word 0x83 o)
  | .gload o => withDual o.dual (PF.word 0x86 o)
  | .gstore o => withDual o.dual (PF.word 0x87 o)
  | .platen o => withDual o.dual (PF.word 0x8B o)
  | .gread o => withDual o.dual (V2.word 0x84 o)
  | .gwrite o => withDual o.dual (V2.word 0x85 o)
  | .oready o => [UF.word 0x88 o]
  | .batch o => [UF.word 0x89 o]
  | .waitb o => [UF.word 0x8A o]
  | .overflowRefill _ _ => []
  | .pressOpStart _ => []
  | .pressGroupStep _ => []
  | .pressOpFail _ _ _ => []
  | .platenOpStart _ => []
  | .coink o => [UF.word 0x90 o]
  | .coin o => withDual o.dual (V2.word 0x91 o)
  | .coinr o => withDual o.dual (V2.word 0x92 o)
  | .draw o => withDual o.dual (V2.word 0x93 o)
  | .drawa o => withDual o.dual (V2.word 0x94 o)
  | .dmerge o => withDual o.dual (V3.word 0x95 o)
  | .dshift o => withDual o.dual (V2.word 0x96 o)
  | .tget o => withDual o.dual (V2.word 0x97 o)
  | .tset o => withDual o.dual (V2.word 0x98 o)
  | .tclr o => withDual o.dual (V2.word 0x99 o)
  | .ld o => withDual o.dual (MF.word 0xA0 o)
  | .ldk o => withDual o.dual (MF.word 0xA2 o)
  | .ldsc o => withDual o.dual (MF.word 0xA3 o)
  | .stsc o => withDual o.dual (MF.word 0xA4 o)
  | .ldpv o => withDual o.dual (MF.word 0xA5 o)
  | .stpv o => withDual o.dual (MF.word 0xA6 o)
  | .st o => withDual o.dual (MF.word 0xA1 o)
  | .atom o => withDual o.dual (MA.word 0xA7 o)
  | .atomsc o => withDual o.dual (MA.word 0xA8 o)
  | .red o => withDual o.dual (MA.word 0xA9 o)
  | .pref o => withDual o.dual (MF.word 0xAA o)
  | .reuse o => withDual o.dual (MF.word 0xAB o)
  | .fence o => [UF.word 0xAC o]
  | .cwb o => withDual o.dual (MF.word 0xB0 o)
  | .cinv o => withDual o.dual (MF.word 0xB1 o)
  | .iinv o => withDual o.dual (MF.word 0xB2 o)
  | .wopen o => [UF.word 0xB3 o]
  | .wclose o => [UF.word 0xB4 o]
  | .pageRequestResponse _ _ _ => []
  | .longLatencyResult _ => []
  | .memoryAccessFail _ _ _ _ => []
  | .reuseClockTick _ => []
  | .standingUpdate _ => []
  | .cpy o => [XF.word 1 o]
  | .cpyx o => [XF.word 2 o]
  | .cpyrot o => [XF.word 3 o]
  | .fill o => [XF.word 4 o]
  | .scrub o => [XF.word 5 o]
  | .seal o => [XF.word 6 o]
  | .ndt o => [XF.word 7 o]
  | .engineCmdStart _ => []
  | .engineCmdEnd _ => []
  | .engineCmdFail _ _ _ => []
  | .ndtCompletionMessage _ _ _ => []
  | .coll o => withDual o.dual (V2.word 0xB6 o)
  | .csigBind o => [UF.word 0xB7 o]
  | .csigSig o => [UF.word 0xB7 o]
  | .csigStat o => [UF.word 0xB7 o]
  | .collFlitReceive _ _ _ _ => []
  | .collMarkerArrival _ _ _ _ _ => []
  | .collLocalComplete _ => []
  | .collStepFail _ _ _ _ => []
  | .collMarkerTimeout _ _ _ _ => []
  | .flitRetry _ => []
  | .linkRetrainTimeout _ => []
  | .formePlace _ _ => []
  | .placementHoldExpiry _ => []
  | .latboundExpiry _ => []
  | .formeLeaveCore _ => []
  | .sliceEnd _ => []
  | .sliceStart _ => []
  | .db _ _ _ => []
  | .packetFetch _ _ => []
  | .packetNop _ _ => []
  | .packetLaunch _ _ => []
  | .packetGraph _ _ => []
  | .packetJob _ _ => []
  | .packetFence _ _ => []
  | .fencePacketPoll _ _ => []
  | .packetSignal _ _ => []
  | .graphNodeReady _ _ => []
  | .phaseCommStep _ => []
  | .phaseBarrier _ => []
  | .qctlEnable _ _ => []
  | .qctlDisable _ _ => []
  | .qctlKill _ _ => []
  | .registerWrite _ _ => []
  | .partSet => []
  | .ctxBind => []
  | .ctxUnbind => []
  | .fassign => []
  | .frelease => []
  | .hmove => []
  | .preempt => []
  | .killq => []
  | .standset => []
  | .signerSet => []
  | .tmplReg => []
  | .tmplDrop => []
  | .taskctx => []
  | .sessOpen => []
  | .sessRequest _ => []
  | .sessAnswer _ => []
  | .sessOpenTimeout => []
  | .sessClose => []
  | .spdmRequest _ _ => []
  | .hmopen _ _ _ _ => []
  | .lineCopy _ _ => []
  | .hmswitch _ => []
  | .hmabort _ => []
  | .cxlMemRequest _ => []
  | .bisnpinv _ => []
  | .bisnpdata _ => []
  | .biconflict _ _ => []
  | .extentAdd _ _ _ => []
  | .extentRelease _ => []
  | .extentGoneNotice _ => []
  | .ndtPacketReceive _ _ => []
  | .pageBringIn _ _ => []
  | .atsInvalidation _ _ _ => []
  | .softError _ _ => []
  | .viralReceived _ => []
  | .deviceViral => []
  | .expanderLost _ => []
  | .vfEnableClear => []
  | .thermalClockStep _ => []
  | .auditReplayDone _ => []
  | .unitRetest _ _ => []
  | .startUp _ => []
  | .translationCompletion _ _ _ => []
  | .iinvComplete _ => []
  | .pageRequestInterfaceEnable _ => []
  | .vfEnableSet => []
  | .linkReset _ => []
  | .retrainingComplete _ _ => []
  | .hostUioAccess _ => []

end Sys2Proof
end

