-- ==== Sys2Proof/Machine/State.lean ====
section
/-! DEFINITION. Everything the machine holds (INVENTORY.md lists each field with its rule), the reasons a step can stop, and
the state at reset. -/
namespace Sys2Proof.Machine

/-- Why the machine stops. -/
inductive Fault where
  /-- An instruction word was given to `exec` while no party holds an issue slot; raised by every word's meaning
  outside a pitch (R19, R51). No step raises it. Safe. -/
  | noIssue
  /-- The issuing party's forme, home party, launch or context is not in the state: no run reaches such a state.
  Raised by every word's meaning. Safe. -/
  | broken
deriving DecidableEq, Repr

/-- Why an instruction has no meaning. -/
inductive Refusal where
  /-- The meaning is not written. Safe. -/
  | notModelled (mnemonic : String)
deriving DecidableEq, Repr

/-- The two fits of the die (R3, R4). -/
inductive Fit where
  | f2 | m1
deriving DecidableEq, Repr

/-- Data by key: strictly rising keys, and no entry equal to what an unlisted key reads as. -/
abbrev Mem := List (Nat × Byte)
abbrev Tile := List (Nat × W32)

/-- A window register (R257, R386). -/
structure Window where
  isOpen : Bool := false
  spad   : Bool := false
  vb     : Nat := 0
  len    : Nat := 0
  frame  : Nat := 0
  flim   : Nat := 0
  fvalid : Bool := false
  perm   : BitVec 3 := 0
  toff   : Nat := 0
deriving DecidableEq, Repr

/-- What an access needs of its page (R262, R384). -/
inductive Need where
  | r | w | rw | x | none
deriving DecidableEq, Repr

/-- The address spaces that translate: a context's (R384), or a near-data task's own (R318). -/
inductive Space where
  | ctx (n : Nat)
  | task (lid : Nat)
deriving DecidableEq, Repr

inductive Verdict where
  | waiting | ready | refused
deriving DecidableEq, Repr

/-- One 64 KiB granule that an agent waits for (R264, R390). -/
structure Granule where
  addr : Nat
  need : Need
  verdict : Verdict := .waiting
  /-- which parking asked for it (R390) -/
  parking : Nat := 0
deriving DecidableEq, Repr

/-- A page walk in progress for a context (R384, R390). -/
structure Walk where
  ctx : Nat
  granule : Nat
  need : Need
  /-- the parking whose request it is (R390) -/
  parking : Nat := 0
  asked : Bool := false
  tries : Nat := 0
  /-- what has been invalidated since the walk began: a completion that overlaps it is not installed (R391) -/
  stale : List (Nat × Nat) := []
  /-- a lane that waits for its own response is walked again after another one of its parking (R390) -/
  again : Bool := false
deriving DecidableEq, Repr

/-- A translation held in a TLB (R385). -/
structure TlbEntry where
  ctx  : Nat
  page : Nat
  size : Nat
  pa   : Nat
  r    : Bool
  w    : Bool
  x    : Bool
deriving DecidableEq, Repr

/-- A failed item (R408). -/
structure Item where
  ikind : Nat
  code  : TrapCode
  lane  : Nat := 0xFF
  comp  : Nat := 0
  loc   : Nat := 0
  addr  : Nat := 0
  batch : Nat := 0
deriving DecidableEq, Repr

/-- A boundary trap that is due (R402). -/
structure Pending where
  code  : TrapCode
  tinfo : Option Nat := none
  items : List Item := []
  /-- it was delivered while the party waited in its handler, and is taken there (R403) -/
  inside : Bool := false
deriving DecidableEq, Repr

/-- A written temporary, primary or tangent component (R42). -/
structure Temp where
  reg  : BitVec 3
  comp : Nat
  data : Row
deriving DecidableEq, Repr

/-- Which register a word reads or writes, as the hazard rules see it (R57 to R61). -/
inductive Name where
  | v (n : BitVec 8)
  | s (n : BitVec 6)
  | t (n : BitVec 3)
  | c (n : BitVec 3)
  | w (n : BitVec 4)
  /-- MOVXW, which counts as writing every v register, and MOVX, which counts as reading them (R152) -/
  | anyV
deriving DecidableEq, Repr

/-- A fixed-latency write of the current pitch, with what the register held before it (R58, R61). -/
structure Recent where
  word  : Nat
  ready : Nat
  name  : Name
  comp  : Nat
  old   : Row
deriving DecidableEq, Repr

/-- A run of bytes of one access and the path by which they are reached (R261, R237). -/
inductive Part_ where
  | frame (pa n : Nat)
  | va (a n : Nat)
  | spad (off n : Nat)
deriving DecidableEq, Repr

/-- One lane's access of one component by a memory instruction; a uniform instruction's lane is 255 (R260, R268). `addr` is
what a trap reports. -/
structure Acc where
  lane : Nat
  comp : Nat
  addr : Nat
  need : Need
  parts : List Part_
  /-- an access to the lane's private memory (R239) -/
  own : Bool := false
  /-- the bytes that the access stores, or the operands of an atomic, as the first issue read them -/
  data : List Byte := []
deriving DecidableEq, Repr

/-- Where a long-latency result goes (R59). -/
inductive Dest where
  /-- register, component, the lanes still to be written, and their values -/
  | lanes (reg : BitVec 8) (comp : Nat) (mask : Mask) (data : Row)
  | sreg (n : BitVec 6) (value : W64)
  | wreg (n : BitVec 4) (value : Window)
  /-- a shadow that the result unmaps, and what it held: lanes in which a read may still find it (R234) -/
  | gone (reg : BitVec 8) (comp : Nat) (mask : Mask) (old : Row)
deriving DecidableEq, Repr

/-- The pitch that a party is running (R51, R58). -/
structure Pitch where
  base   : Nat
  words  : List W64
  awaits : List (BitVec 8)
  after  : Nat
  last   : Bool
  /-- the word after the block's last anchor (R52) -/
  blockEnd : Nat := 0
  /-- the reconvergence point that the block's cairn names (R54) -/
  rcv    : Option Nat := none
  idx    : Nat := 0
  clk    : Nat := 0
  recent : List Recent := []
  temps  : List Temp := []
  /-- accesses that a parked instruction has left, none where it has not yet issued (R264, R228) -/
  left    : Option (List Acc) := none
  refused : List Acc := []
  /-- whether the instruction has performed an access (R404) -/
  some_   : Bool := false
  /-- the forme's reuse clock at the first issue of a parked instruction (R242) -/
  rcAt : Option Nat := none
  /-- what the first issue of an instruction that parked with nothing performed leaves to its first access that is: shadows that the allocation of its
  destination unmapped, and registers that it allocated and that its last-read bits free (R66, R234) -/
  lost : List Dest := []
  solo : List (BitVec 8) := []
  /-- a pitch selected for proofing: its inputs, and the registers that it writes (R416) -/
  audit : Option (List W64 × List Name) := none
deriving DecidableEq, Repr

/-- What a party waits for (R328). -/
inductive Wait where
  | none
  | reconv (count : Nat)
  | fuse (addr : Nat)
  | rope (k : Nat) (gen : Option Nat)
  | phase
  /-- a counter, with the base of the pitch, the index of the WAITC word in it, and the step of the latest read (R367) -/
  | counter (base idx : Nat) (addr : Nat) (cmp scope : Nat) (thresh : W64) (seen : Nat)
  | batch (upto : Option Nat) (atMost : Nat)
  /-- a SLEEP that ends when this much wall time has passed since start-up, in femtoseconds (R361) -/
  | sleep (until_ : Nat)
  | turns (after : List Nat)
  | isync
  /-- a branch held for a party slot: its successors and their lanes (R330) -/
  | slot (taken fall : Nat) (takenLanes fallLanes : Mask) (rcv : Option Nat)
  /-- halves that ended apart, held for a party slot; the FUSE that the second half reached, if it was one (R330) -/
  | apart (fuse : Option Nat)
deriving DecidableEq, Repr

/-- Where a party's next pitch stands: at a cairn reached by a transfer, at a word reached by falling through or
returning, or inside the current block (R53). -/
inductive Entry where
  | block | fall | inside
deriving DecidableEq, Repr

/-- Where a trapped party resumes (R404). -/
structure Resume where
  cairn : Nat
  pc    : Nat
  entry : Entry
  word  : Nat
  /-- the arrival at the cairn there has been seen to (R23) -/
  met   : Bool := true
deriving DecidableEq, Repr

/-- Everything that a trap fixes: its code, tinfo, items, the index of the word, the unfinished lanes and the resume point. -/
structure Trap where
  code   : TrapCode
  /-- none where the spec states no content for tinfo: a free value -/
  tinfo  : Option Nat := none
  items  : List Item := []
  word   : Nat := 0
  tmask  : Mask := 0
  resume : Resume
  /-- the temporaries written in the pitch of the resume point (R404) -/
  temps  : List Temp := []
deriving DecidableEq, Repr

/-- Which registers a party wrote in one stretch of its history, from a split or a fusion to the next (R25). -/
structure Marks where
  sid  : Nat := 0
  s    : BitVec 64 := 0
  w    : BitVec 16 := 0
  pick : Bool := false
deriving DecidableEq, Repr

/-- An entry of the reconvergence stack (R23). -/
structure Reconv where
  point : Option Nat
  depth : Nat
deriving DecidableEq, Repr

/-- Where a half of a deferred branch ended (R330). -/
inductive HalfEnd where
  | reconv (a : Nat)
  | fuse (a : Nat)
  | exited
deriving DecidableEq, Repr

/-- An entry of the deferral list (R330). -/
structure Deferral where
  other : Nat
  entry : Entry
  l1    : Mask
  l2    : Mask
  rcv   : Option Nat
  depth : Nat
  first : Option HalfEnd := none
  resume : Option Resume := none
  marks : Marks := {}
  call  : List Nat := []
deriving DecidableEq, Repr

/-- A forme key that COINK has written: by which party, at which step (R211). -/
structure KeyWrite where
  by_ : Nat
  at_ : Nat
  key : W64
deriving DecidableEq, Repr

/-- A party (R19 to R26, R37, R44, R47). -/
structure Party where
  pid   : Nat
  fid   : Nat
  hp    : Nat
  slot  : Nat
  lanes : Mask
  exited : Mask := 0
  em    : Mask
  s     : List W64
  w     : List Window := List.replicate 16 {}
  c     : List Mask := List.replicate 7 0
  pick  : BitVec 6 := 0
  calls : List Nat := []
  pc    : Nat
  entry : Entry := .block
  /-- the arrival at the cairn where the party stands has been seen to (R23, R330) -/
  met   : Bool := false
  cairn : Nat := 0
  skip  : Nat := 0
  kept  : List Temp := []
  stack : List Reconv := []
  hist  : List Marks := [{}]
  defer : List Deferral := []
  hnd   : Bool := false
  fused : Bool := false
  udiv  : Bool := false
  tstat : W64 := 0
  tpc   : W64 := 0
  tinfo : W64 := 0
  titems : W64 := 0
  tmask : W64 := 0
  tpcSet : Bool := false
  frame : Option Resume := none
  /-- the temporaries of the pitch of the frame's resume point (R404) -/
  frameTemps : List Temp := []
  pending : List Pending := []
  /-- a trap that is being taken, once RIDX of the log can be read (R403, R407) -/
  trap : Option Trap := none
  awaits : List (BitVec 8) := []
  wait  : Wait := .none
  park  : List Granule := []
  pitch : Option Pitch := none
  stopped : Bool := false
  lastIssue : Nat := 0
  promoted : Bool := false
  arrSince : List Nat := []
  fetched : List (Nat × W64) := []
  /-- the step since which it may have fetched words ahead: its start, or its latest ISYNC (R280, R362) -/
  freshAt : Nat := 0
  /-- flags that the party must see: those that its own instructions set, and those set before a rope release that it passed (R45) -/
  seen : BitVec 9 := 0
  /-- the coin key that the party's own latest COINK or rope release fixed, and the keys written concurrently by others (R211) -/
  key : Option W64 := none
  rivals : List KeyWrite := []
  /-- parties from which this one has come by splits and fusions, each with the step before which its accesses count as this party's own
  (R22, R255) -/
  line : List (Nat × Nat) := []
  /-- the clock at which the party was found ready, while it has not issued since (R329) -/
  readySince : Option Nat := none
  /-- the clock at which it was last found not ready -/
  notReady : Nat := 0
  /-- the step of the party's latest OREADY, and that before which its stores are ordered before the reads of its later operations: a FENCE, or
  a release and an acquire that follows it (R186, R253, R254, R274) -/
  opReady : Nat := 0
  cmdReady : Nat := 0
  /-- the step before which the party's stores are ordered before the writes of its later operations (R254, R274) -/
  cmdSettled : Nat := 0
  /-- the step before which the party's loads are (R274) -/
  cmdLoads : Nat := 0
  /-- the step of the party's latest arrival at each rope, and of its latest update of each counter (R253) -/
  arrAt : List (Nat × Nat) := []
  signalled : List (Nat × Nat) := []
deriving DecidableEq, Repr

/-- A mapped row of a home party: register, component and its 64 lanes (R39, R41). -/
structure VRow where
  reg  : BitVec 8
  comp : Nat
  data : Row
deriving DecidableEq, Repr

/-- A bound collective group with the coin source captured at the bind (R293, R294, R323). -/
structure Group where
  id     : Nat
  /-- which of the home party's binds this is, from 1 -/
  bind   : Nat
  table  : Nat
  sbuf   : Nat
  rbuf   : Nat
  len    : Nat
  nrank  : Nat
  myrank : Nat
  key    : W64
  src    : Nat
  srcLen : Nat
  base   : W64
deriving DecidableEq, Repr

/-- A collective step at a rank, under one of its home party's binds (R296, R297). -/
structure Step where
  bind   : Nat
  n      : Nat
  issued : Bool := false
  sub    : BitVec 4 := 0
  ty     : OpTy := .i32
  rm     : RmCode := .rne
  routed : Bool := false
  parts  : List Contribution := []
  /-- the operations, types and orders that contributions came with -/
  kinds  : List (BitVec 4 × OpTy × Bool) := []
  marks  : List Nat := []
  closed : Bool := false
  received : Bool := false
  failed : Option (TrapCode × Nat) := none
  signature : W64 := 0
  /-- contributions that stand in the overflow ring (R324) -/
  spilt  : Nat := 0
  /-- when each of those arrived, in their order -/
  spiltAt : List Nat := []
  /-- translations that the fold waits for -/
  wait   : List Granule := []
  /-- what stood at the folded locations before the fold -/
  before : List (Nat × List Byte) := []
  /-- the folds that have been queued: when, by identifier and by step; the locations still to be folded; and the nodes of those that are (R322, R324) -/
  folding : Option (Nat × Nat) := none
  toFold : List Nat := []
  nodes : List (Nat × List (Nat × Nat)) := []
  /-- the wall time at which the rank's own marker was sent (R325) -/
  markedAt : Option Nat := none
  /-- the devices of its other ranks, as the rank table had them (R413, R415) -/
  peers : List (BitVec 12) := []
deriving DecidableEq, Repr

/-- A home party (R20, R39, R188, R209). -/
structure Home where
  fid   : Nat
  hp    : Nat
  lanes : Nat
  rows  : List VRow := []
  readers : List (BitVec 8 × List Nat) := []
  seq   : List W64 := List.replicate 64 0
  bn    : W64 := 0
  /-- the flags that the operations of batches already awaited set (R198) -/
  batchFlags : List (Nat × BitVec 9) := []
  /-- the binds that CSIG.BIND has made, the latest first, and the one whose steps CSIG reads (R294) -/
  groups : List Group := []
  bound : Nat := 0
  steps : List Step := []
  stepNo : Nat := 0
deriving DecidableEq, Repr

/-- A released generation of a rope: the forme's flags at its release, the keys written before it by the parties that it involved, the latest
first, and those parties with all that they came from (R45, R211). -/
structure Freed where
  gen   : Nat
  flags : BitVec 9
  keys  : List KeyWrite
  joined : List (Nat × Nat)
deriving DecidableEq, Repr

/-- A forme that has ended while collective steps of its home parties go on (R27, R297). -/
structure Ghost where
  fid   : Nat
  lid   : Nat
  core  : Nat
  index : Nat
deriving DecidableEq, Repr

/-- A rope (R350 to R353). -/
structure Rope where
  expect : Nat
  belay  : Nat := 10000
  gen    : Nat := 0
  cnt    : Nat := 0
  broken : Bool := false
  /-- parties that have recorded an arrival since their home party's last counted one -/
  arrived : List Nat := []
  /-- for each home party that has arrived, the generation its latest arrival is counted in, if it is -/
  counted : List (Nat × Option Nat) := []
  /-- the watchdog of the current generation where it runs: what it had counted, in femtoseconds, when the forme was last placed, and when
  that was (R353) -/
  watch : Option (Nat × Nat) := none
  /-- the generations that have been released, the latest first -/
  freed : List Freed := []
  /-- the home parties of parties that have exited after an arrival at a generation not yet released, with all that the party came from -/
  came : List (Nat × List (Nat × Nat)) := []
deriving DecidableEq, Repr

/-- Where a forme stands (R27, R345, R347, R379). -/
inductive Place where
  | placed | halted | saved
deriving DecidableEq, Repr

/-- How a forme's operations are treated when it is taken off its core (R202, R347). -/
inductive Method where
  | drain | save | flush
deriving DecidableEq, Repr

/-- A pre-emption under way: its method, whether it is the halt at a slice's end, which leaves the forme in place, and the wall time by which the
forme leaves its core (R346, R347, R379). -/
structure Leave where
  how  : Method
  halt : Bool
  by_  : Nat := 0
deriving DecidableEq, Repr

/-- The units of a halted forme that have moved to the bivouac or the save area: its home parties from a number on, and its scratchpad, tiles and
ropes (R380). -/
structure Moved where
  from_ : Option Nat := none
  rest  : Bool := false
  /-- bytes of them in the bivouac of the forme's die, and in its partition's save area (R380, R381) -/
  bivouac : Nat := 0
  area    : Nat := 0
deriving DecidableEq, Repr

/-- A forme (R19, R27, R45, R176). -/
structure Forme where
  fid   : Nat
  lid   : Nat
  index : Nat
  core  : Nat
  place : Place := .placed
  begun : Bool := false
  stop  : Option TrapCode := none
  rc    : Nat := 0
  counted : Nat := 0
  flags : BitVec 9
  key   : W64
  scratch : Mem := []
  spoison : List Nat := []
  galley : Tile := []
  gpoison : List Nat := []
  ropes : List Rope
  failedTo : Bool := false
  leave : Option Leave := none
  /-- when the forme was placed, and when it was last halted in place (R346, R380) -/
  placedAt : Nat := 0
  haltedAt : Nat := 0
  /-- the wall time at which the forme was halted in place, while it is (R379) -/
  haltWall : Option Nat := none
  moved : Moved := {}
  /-- the keys that COINK has written, the latest first (R211) -/
  keyLog : List KeyWrite := []
deriving DecidableEq, Repr

/-- A launch record (R31 to R34). -/
structure LRec where
  entry : Nat := 0
  prio : Nat := 0
  rcrate : Nat := 0
  satarm : Bool := false
  tnum : Nat := 0
  tmode : Bool := false
  chk : Bool := false
  gx : Nat := 1
  gy : Nat := 1
  gz : Nat := 1
  srows : Nat := 0
  ropes : Nat := 0
  gtiles : Nat := 0
  vmax : Nat := 1
  lanes : Nat := 4
  parties : Nat := 1
  fslot : List W32 := List.replicate 8 0
  coinKey : W64 := 0
  coinSrc : Nat := 0
  coinLen : Nat := 0
  latbound : Nat := 0
  handler : Nat := 0
  args : List W64 := []
  done : Nat := 0
  tag : W64 := 0
  privBase : Nat := 0
  privSz : Nat := 0
deriving DecidableEq, Repr

/-- A completion block as the device keeps it (R30, R341). -/
structure Block where
  addr  : Option Nat := none
  /-- the LAUNCHTAG of a launch's block -/
  tag   : W64 := 0
  total : Nat := 0
  done  : Nat := 0
  stop  : Nat := 0
  wdr   : Nat := 0
  status : Nat := 0
  first : Nat := 0
deriving DecidableEq, Repr

/-- A page range of a near-data task's own address space (R318). -/
structure TaskMap where
  va   : Nat
  len  : Nat
  pa   : Nat
  r    : Bool
  w    : Bool
  x    : Bool
deriving DecidableEq, Repr

/-- The task that a launch runs (R318). -/
structure Task where
  maps : List TaskMap
  src  : BitVec 12
  op   : Nat
  /-- bytes of the result region that the task has written, by offset -/
  result : List (Nat × Byte) := []
deriving DecidableEq, Repr

/-- An accepted launch (R28, R31, R341, R369). -/
structure Launch where
  lid   : Nat
  ctx   : Nat
  record : LRec
  block : Block
  next  : Nat := 0
  cancel : Bool := false
  failed : Bool := false
  key   : W64 := 0
  prio  : Nat := 7
  queue : Option Nat := none
  packet : Option Nat := none
  gid   : Option Nat := none
  /-- whose accesses come before those of its parties: those of the party that issued LAUNCH (R253) -/
  line  : List (Nat × Nat) := []
  /-- the writes of the counter values that satisfied a fence packet before its packet (R253) -/
  after : List Nat := []
  tail  : Option Nat := none
  parent : Option Nat := none
  task  : Option Task := none
  heldLong : Bool := false
  /-- the wall time since which the head of the launch has found no room, or has been held (R345) -/
  heldAt : Option Nat := none
  /-- the launch waits in a partition's overflow ring, of this die (R348) -/
  spilt : Option Nat := none
  /-- the step at which the launch was accepted: a coin stream written since may be read as it was (R134) -/
  since : Nat := 0
  /-- the die whose launch queue LAUNCH put it in, and the identifier of that submission (R348, R369) -/
  sub : Option (Nat × Nat) := none
deriving DecidableEq, Repr

/-- A node of a graph (R340, R341). -/
structure Node where
  record : Nat
  deps : List Nat
  lid  : Option Nat := none
  tail : Option Nat := none
  status : Nat := 0
  wait : List Granule := []
  /-- a cancel stopped or withdrew it (R341) -/
  cancelled : Bool := false
deriving DecidableEq, Repr

structure Graph where
  gid   : Nat
  ctx   : Nat
  block : Block
  nodes : List Node
  key   : W64 := 0
  prio  : Nat := 7
  queue : Option Nat := none
  packet : Option Nat := none
  jid   : Option Nat := none
  cancel : Bool := false
deriving DecidableEq, Repr

/-- A launch record that LAUNCH has submitted and whose acceptance waits for a translation (R31, R369). -/
structure Accepting where
  /-- the outstanding result of the instruction -/
  id    : Nat
  pid   : Nat
  fid   : Nat
  parent : Nat
  addr  : Nat
  tail  : Bool
  /-- the die whose launch queue it stands in (R369) -/
  die   : Nat
  spilt : Option Nat
  wait  : List Granule := []
  /-- the party and what it came from, each with the step before which its accesses come before the launch (R253) -/
  line  : List (Nat × Nat) := []
deriving DecidableEq, Repr

/-- A phase of a job (R342). -/
structure Phase where
  comp : Nat
  comm : Nat
  block : Block
  compG : Option Nat := none
  commG : Option Nat := none
  /-- the graphs whose records were rejected -/
  rejected : Nat := 0
  compBegun : Bool := false
  commBegun : Bool := false
  wait : List Granule := []
  cancel : Bool := false
  ended : Bool := false
deriving DecidableEq, Repr

structure Job where
  jid   : Nat
  ctx   : Nat
  block : Block
  phases : List Phase
  cur   : Nat := 0
  key   : W64 := 0
  prio  : Nat := 7
  queue : Option Nat := none
  packet : Option Nat := none
  cancel : Bool := false
  /-- a graph of an ended phase, carried on by PHASE, has failed (R343) -/
  failed : Bool := false
deriving DecidableEq, Repr

/-- A sheet header as read at issue (R177). -/
structure Sheet where
  at_   : Nat := 0
  body  : Nat := 0
  xbase : Nat := 0
  seed  : W64 := 0
  rows  : Nat := 0
  cols  : Nat := 0
  pitch : Nat := 0
  xpitch : Nat := 0
  fmt   : Nat := 0
  slot  : Nat := 0
  swz   : Nat := 0
  stamp : Nat := 0
  spr   : Nat := 0
deriving DecidableEq, Repr

/-- The product that PRESS, PRESSS and PLATEN form, with the headers of every component (R192, R193, R200, R229). -/
structure Product where
  tile : Nat
  a    : List Sheet
  b    : List Sheet
  arow : Nat
  brow : Nat
  k0   : Nat
  m    : Nat
  n    : Nat
  kd   : Nat
  zero : Bool
  sparseA : Bool := false
  sparseB : Bool := false
  platen : Option Nat := none
  /-- the pages of B were translated at issue, so that the stack is known (R199, R200) -/
  sited : Bool := true
deriving DecidableEq, Repr

/-- A galley rectangle in memory (R196). -/
structure Rect where
  tile : Nat
  base : Nat
  stride : Nat
  row  : Nat
  col  : Nat
  rows : Nat
  cols : Nat
  fmt  : Nat
  rm   : RmCode := .rne
  satm : Bool := false
  comps : Nat := 0
deriving DecidableEq, Repr

/-- What an asynchronous operation does (R172, R283, R295). -/
inductive Work where
  | product (p : Product)
  | clear (tile comps : Nat)
  | load (r : Rect)
  | store (r : Rect)
  | sheet (src dst : List Sheet)
  | cpy (src dst len : Nat)
  | cpyx (src dst rows rbytes spitch dpitch xsrc xspitch : Nat) (hdr : Option Sheet)
  | cpyrot (src dst ftab rows spitch dpitch dim fmt mode : Nat) (delta : W32)
  | fill (dst len : Nat) (pat : W64)
  | scrub (dst len rpt : Nat) (zero : Bool)
  /-- a packet, the session, and the packet's bytes as they were read at issue; none where that read failed (R283) -/
  | seal (pkt : Nat) (handle : W64) (read : List Byte)
  | ndt (pkt : Nat) (read : List Byte)
  /-- an operation whose header or descriptor failed at memory when it was read at issue (R411) -/
  | void
  /-- a collective step: group, number, operation, type, rounding, order, and each sending lane with its offset and its peer -/
  | coll (g : Group) (n : Nat) (sub : BitVec 4) (ty : OpTy) (rm : RmCode) (routed : Bool) (sends : List (Nat × Nat × Nat))
  | bind (g : Group)
deriving DecidableEq, Repr

/-- Where an operation stands: spilt, queued, running, ended, or failed and not yet delivered (R188, R199, R348). -/
inductive Phase_ where
  | spilt | queued | running | ended
deriving DecidableEq, Repr

/-- An asynchronous operation of a home party. -/
structure Op where
  id    : Nat
  fid   : Nat
  hp    : Nat
  word  : Nat
  queue : Nat
  site  : Nat
  work  : Work
  batch : Option Nat := none
  phase : Phase_ := .queued
  step  : Nat := 0
  ident : W64 := 0
  scope : Scope := .pty
  held  : Bool := false
  flags : BitVec 9 := 0
  wait  : List Granule := []
  fail  : Option (TrapCode × Nat) := none
  told  : Bool := false
  seq   : Nat := 0
  /-- when a PLATEN whose stack was not known at issue came to its stack (R201) -/
  arr   : Nat := 0
  /-- the issuing party, the step of issue, and the steps before which the party's accesses are ordered before the operation's reads and writes
  (R186, R254) -/
  pid   : Nat := 0
  issued : Nat := 0
  ready : Nat := 0
  settled : Nat := 0
  /-- the step before which the party's loads are ordered before the operation's writes, and the loads that the branches before it depended on (R248,
  R274) -/
  loads : Nat := 0
  deps  : List Nat := []
  /-- ORD 3: the party's later accesses come after the command's reads (R281) -/
  after : Bool := false
  /-- the step of the party's first access after an ORD 3 command: the command's reads were done before it (R281) -/
  sealed : Option Nat := none
  /-- the parties whose accesses before the steps given are the issuing party's own earlier ones (R255) -/
  line  : List (Nat × Nat) := []
  /-- earlier operations of the home party whose writes come in no order before this one's reads (R186) -/
  unseen : List Nat := []
  /-- when the operation last took its unit, and the group step at which it stops with its forme (R174, R203) -/
  runAt : Nat := 0
  stopAt : Option Nat := none
  /-- the next-use distance and the forme's reuse clock at issue (R242) -/
  nu    : Nat := 62
  rc    : Nat := 0
  /-- the operation's galley rectangle as it was when the operation started, but for what GWRITE had written since the issue (R190) -/
  snap  : Tile := []
  /-- entries that GWRITE has written since the issue: what stood there before, and what GWRITE wrote (R190) -/
  poked : List (Nat × W32 × W32) := []
deriving DecidableEq, Repr

/-- A long-latency result that is outstanding (R57, R59, R60). -/
structure Long where
  id     : Nat
  fid    : Nat
  hp     : Nat
  owners : List Nat
  word   : Nat
  addr   : Nat
  dests  : List Dest
  /-- the accesses whose failure can still become known: lane, component, virtual and physical address -/
  accs   : List (Nat × Nat × Nat × Nat) := []
  /-- line-sized requests of the core that it holds (R48) -/
  reqs   : Nat := 0
  /-- the accesses of a load, which can still come after a later write, and the size of its elements (R250) -/
  loads  : List Nat := []
  size   : Sz := .w32
deriving DecidableEq, Repr

/-- A line held by a cache, with its declaration (R240 to R244, R393). -/
structure Line where
  cache : Nat
  addr  : Nat
  owner : Option Nat := none
  cls   : Nat := 0
  due   : Int := 0
  filled : Nat := 0
  pinned : Option (Nat × Nat) := none
  part  : Option Nat := none
  record : Bool := false
  /-- the set that holds the line -/
  set : Nat := 0
  /-- the home party whose lane-private memory the line holds (R239) -/
  priv : Option (Nat × Nat) := none
  /-- the context of the owner, which outlives it (R395) -/
  ctx : Option Nat := none
deriving DecidableEq, Repr

/-- A BULK line in an RDC: its bytes and the mask of those the holder wrote (R277, R306). -/
structure Bulk where
  die  : Nat
  addr : Nat
  data : List Byte
  mask : BitVec 128
  owner : Option Nat := none
deriving DecidableEq, Repr

/-- A 128-byte instruction line in a core's instruction cache (R50, R279). -/
structure ILine where
  core : Nat
  addr : Nat
  words : List W64
deriving DecidableEq, Repr

/-- An IINV that has not completed (R279, R280). -/
structure Iinv where
  id    : Nat
  /-- the party that issued it, and those that carry its order on after a split or a fusion -/
  pids  : List Nat
  core  : Nat
  scope : Scope
  lines : List Nat
deriving DecidableEq, Repr

/-- A context's log as the device keeps it (R407). -/
structure Log where
  widx : Nat := 0
  lost : Nat := 0
  recs : Nat := 0
deriving DecidableEq, Repr

/-- A log record (R408). -/
structure LogRec where
  kind : Nat
  code : Nat
  tag  : W64 := 0
  who  : W64 := 0
  clk  : Nat := 0
  items : List Item := []
  raw   : List (List Byte) := []
deriving DecidableEq, Repr

/-- A context (R372, R374, R395). -/
structure Ctx where
  part   : Option Nat := none
  tenant : W32 := 0
  pasid  : BitVec 20 := 0
  slice  : Nat := 0
  haltBound : Nat := 0
  logBase : Nat := 0
  logBytes : Nat := 0
  log    : Log := {}
  held   : List LogRec := []
  priOff : Bool := false
  counters : List W64 := List.replicate 23 0
deriving DecidableEq, Repr

/-- A partition's quota on one die (R376, R377). -/
structure Quota where
  cores  : BitVec 16 := 0
  pslot  : Nat := 0
  rows   : Nat := 0
  srows  : Nat := 0
  gtiles : Nat := 0
  ropes  : Nat := 0
  l1pin  : Nat := 0
  l2pin  : Nat := 0
  rdcpin : Nat := 0
  ring   : Nat := 0
  ringBytes : Nat := 0
  ringQuota : Nat := 0
  save   : Nat := 0
  saveBytes : Nat := 0
deriving DecidableEq, Repr

/-- A partition (R372, R378, R394, R416). -/
structure Part where
  set    : Bool := false
  quota0 : Quota := {}
  quota1 : Quota := {}
  sigma  : Nat := 16
  hits   : Nat := 0
  records : Nat := 0
  running : Option Nat := none
  halting : Bool := false
  /-- the wall time at which the running slice began (R378) -/
  sliceAt : Nat := 0
  audctl : W64 := 0
deriving DecidableEq, Repr

/-- Where a fetched packet stands (R332, R336, R337). -/
inductive PkState where
  | fetched | parsing | accepted | withdrawn | retired
deriving DecidableEq, Repr

/-- What an accepted packet runs. -/
inductive Unit_ where
  | launch (lid : Nat)
  | graph (gid : Nat)
  | job (jid : Nat)
deriving DecidableEq, Repr

structure Packet where
  idx   : Nat
  bytes : List Byte
  state : PkState := .fetched
  bad   : Option Nat := none
  work  : Option Unit_ := none
  latched : List Nat := []
  /-- the step at which a fence last read its counters (R335) -/
  seen  : Nat := 0
  wait  : List Granule := []
deriving DecidableEq, Repr

/-- A queue slot (R331, R332, R338, R383). -/
structure Queue where
  ctx   : Nat
  slot  : Nat
  qdesc : W64 := 0
  en    : Bool := false
  killed : Bool := false
  refused : Bool := false
  db    : Nat := 0
  parse : Nat := 0
  fetch : Nat := 0
  rdidx : Nat := 0
  ring  : Nat := 0
  logn  : Nat := 4
  prio  : Nat := 0
  rdAddr : Nat := 0
  doneAddr : Nat := 0
  logAddr : Nat := 0
  rejIdx : Nat := 0
  reason : Nat := 0
  rejCnt : Nat := 0
  supCnt : Nat := 0
  packets : List Packet := []
  /-- translations that the fetch of the next packet, or the reading of the descriptor, waits for -/
  wait : List Granule := []
  /-- the writes of the counter values that satisfied the fence packet parsed last (R253) -/
  after : List Nat := []
  /-- an enable that has not read its descriptor yet (R383) -/
  opening : Bool := false
  /-- a kill that has not completed (R397) -/
  killing : Bool := false
deriving DecidableEq, Repr

/-- A write of the device's own status (R339). -/
inductive StatusKind where
  | bytes (bs : List Byte)
  | add (v : W64)
  | max (v : W64)
  /-- a log record that waits for RIDX to be read (R407) -/
  | record (r : LogRec)
deriving DecidableEq, Repr

structure StatusWrite where
  ctx   : Nat
  space : Space
  addr  : Nat
  what  : StatusKind
  group : Nat
  packet : Nat := 0
  /-- the LAUNCHTAG of the launch concerned, or 0 (R408) -/
  tag   : W64 := 0
  wait  : List Granule := []
deriving DecidableEq, Repr

/-- A dynamic-capacity extent (R301). -/
structure Extent where
  base   : Nat
  tenant : W32
  gen    : Nat
  resid  : Bool
  bulk   : Bool
  pids   : List (BitVec 12)
  own    : Bool := true
deriving DecidableEq, Repr

/-- A snoop-filter entry (R304). -/
structure Snoop where
  line : Nat
  holders : List (BitVec 12)
  broad : Bool := false
  excl  : Bool := false
deriving DecidableEq, Repr

/-- A home move with the lines that are valid at the new copy (R308, R309). -/
structure Move where
  old  : Nat
  new  : Nat
  size : Nat
  valid : List Nat := []
  /-- the new home has become the point of coherence, and the old one forwards (R310) -/
  switched : Bool := false
  /-- this device is the new home, and another is the old one (R308) -/
  taken : Bool := false
  /-- the new home's memory has been withdrawn, and requests to the old page fail (R303) -/
  gone : Bool := false
deriving DecidableEq, Repr

/-- A near-data session (R314). -/
structure Session where
  handle : W64
  peer   : BitVec 12
  tenant : W32
  key    : List Byte
  regions : List (Nat × Nat × Nat)
  next   : Nat := 1
  high   : Nat := 0
  seen   : List Nat := []
  badTags : Nat := 0
  /-- the context whose session it is, on an F2 -/
  ctx : Option Nat := none
deriving DecidableEq, Repr

/-- A registered template (R315). -/
structure Template where
  digest : List Byte
  image  : List Byte
  tenants : List W32
deriving DecidableEq, Repr

/-- The mailbox (R373). -/
structure Mailbox where
  args : List W64 := List.replicate 8 0
  /-- the arguments as the command in progress found them -/
  run  : List W64 := List.replicate 8 0
  done : Bool := true
  result : Nat := 0
  /-- the command in progress -/
  cmd : Nat := 0
  /-- translations that the command waits for -/
  wait : List Granule := []
  /-- the session request that SESS_OPEN has sent (R375) -/
  session : Option SessReq := none
  /-- the wall time at which it was sent -/
  askedAt : Nat := 0
deriving DecidableEq, Repr

/-- The DVSEC registers (R419, R420). -/
structure Dvsec where
  retcore : Nat := 0
  fcode : Nat := 0
  stage : Nat := 0
  viral : Bool := false
  failed : Bool := false
  ready : Bool := false
  /-- Memory_Active of an M1's CXL device DVSEC -/
  memActive : Bool := false
  /-- CONFIG as the fit of `State.reset` reads it: PCACHE reads 0 on an F2 -/
  config : W32 := 0x00000004
  /-- the values in force since start-up -/
  pcache : Nat := 96
  bivsz : Nat := 4
deriving DecidableEq, Repr

/-- A CXL port (R298, R325). -/
structure Port where
  up : Bool := true
  width : Nat := 16
  retraining : Bool := false
  /-- the wall time at which the link began to retrain (R325) -/
  retrainAt : Nat := 0
  /-- flits held for retry: the home party, the bind and the step that they belong to (R297, R325) -/
  retry : List (Nat × Nat × Nat × Nat) := []
deriving DecidableEq, Repr

/-- What the device sends. -/
inductive Msg where
  | translate (ctx va : Nat) (need : Need)
  | pageRequest (ctx va : Nat) (need : Need)
  | invalidated (pasid : BitVec 20) (base size : Nat)
  | interrupt (ctx vector : Nat)
  | mailboxDone (result : Nat)
  | sessRequest (dest : BitVec 12) (r : SessReq)
  | sessAnswer (dest : BitVec 12) (a : SessAns)
  | sessClosed (dest : BitVec 12) (handle : W64)
  | ndt (dest : BitVec 12) (packet : List Byte)
  | ndtDone (dest : BitVec 12) (op : Nat) (failure : Option TrapCode) (result : List (Nat × Byte))
  | flit (dest : W64) (group : Nat) (f : Flit)
  | marker (dest : W64) (group step rank : Nat)
  | snoop (dest : BitVec 12) (line : Nat) (inv : Bool)
  | snoopResponse (line : Nat) (dirty : List (Nat × Byte)) (bad : List Nat)
  | conflict (line : Nat)
  | cxlReply (dest : BitVec 12) (addr : Nat) (data : List Byte) (failure : Option TrapCode)
  | forward (r : CxlReq)
  | hostReply (data : List Byte)
  | remote (dest : BitVec 12) (addr : Nat) (data : List Byte) (bad : List Nat)
  | homeMove (state : Nat) (old new : Nat)
  | spdm (port : Nat) (report : List Byte)
  | viral (port : Nat)
  | extentRefused (base : Nat)
  | extentGone (dest : BitVec 12) (base : Nat)
deriving DecidableEq, Repr

/-- Who wrote a byte: a party, a lane of a party in its private memory, an operation of a home party, or anything else. -/
inductive Writer where
  | party (pid : Nat)
  | lane (pid fid hp : Nat)
  | op (fid hp id : Nat)
  | other
deriving DecidableEq, Repr

/-- A byte that was overwritten: when, by whom, and what it was. Reads that R134, R186, R190 or R254 leave open may still find it. -/
structure Past where
  at_ : Nat
  writer  : Writer
  key : Nat
  old : Byte
  /-- the access of `State.acts` that wrote it, as its number and 1 more; 0 for none -/
  act : Nat := 0
deriving DecidableEq, Repr

/-- An access that an agent made, or a point of its program order that orders accesses (R246 to R253). `reads` and `writes` are runs of keys of
`State.past`; `line` says what comes before it in its agent's program order; `deps` come before it in every scope instance, and so does, through
its location, what `after` lists. -/
structure Act where
  id     : Nat
  at_    : Nat
  pid    : Nat
  line   : List (Nat × Nat)
  fid    : Nat
  hp     : Nat
  die    : Nat
  lane   : Nat := 255
  comp   : Nat := 0
  reads  : List (Nat × Nat) := []
  writes : List (Nat × Nat) := []
  /-- the access of an atomic, with the rank of its scope (R251) -/
  atomic : Option Nat := none
  /-- an access that is not plain (R252) -/
  strong : Bool := false
  /-- the rank of the scope at which a store that is not plain becomes visible (R252) -/
  scope  : Nat := 4
  /-- the ranks of the scopes at which it is an acquire and a release, and a fence's with its kinds (R248) -/
  acq    : Option Nat := none
  rel    : Option Nat := none
  fence  : Option (Nat × BitVec 4) := none
  /-- the rope or the job at which it arrives (R253) -/
  sync   : Option (Nat × Nat) := none
  deps   : List Nat := []
  after  : List Nat := []
  /-- the clock from which its bound of visibility counts (R252) -/
  seen   : Option Nat := none
deriving DecidableEq, Repr

/-- The accesses on which the value of a register depends, or a party's control flow where it names none (R249). The v registers are their home
party's. -/
structure Taint where
  who  : Nat × Nat × Nat
  name : Option Name
  acts : List Nat
deriving DecidableEq, Repr

/-- A unit under proofing (R417, R418). -/
structure UnitBin where
  unit : UnitId
  bin  : Option Nat
  testing : Bool := false
deriving DecidableEq, Repr

/-- What proofing has captured of a finished pitch, or of a row in a group step of a press operation, until it has been replayed (R416). -/
structure Audit where
  id   : Nat
  /-- the unit that did it -/
  unit : UnitId
  ctx  : Nat
  fid  : Nat
  hp   : Nat
  /-- the party whose pitch it was; none for a press operation -/
  pid  : Option Nat
  addr : Nat
  tag  : W64
  who  : W64
  inputs   : List W64
  returned : List W64
  outputs  : List W64
deriving DecidableEq, Repr

/-- The machine's state. -/
structure State where
  fit    : Fit
  pid    : BitVec 12
  dvsec  : Dvsec
  clk    : Nat
  /-- wall time since start-up, in femtoseconds -/
  wall   : Nat
  clockMHz : Nat
  /-- the model's names of what it creates, in order. DESIGN CHOICE: log entry 102. -/
  nextId : Nat
  freeCtr : Nat
  issue  : Option Nat
  /-- which of the things that the device can do comes next -/
  turn   : Nat
  inbox  : List Instr
  out    : List Msg
  parties : List Party
  homes  : List Home
  formes : List Forme
  ghosts : List Ghost
  launches : List Launch
  accepting : List Accepting
  graphs : List Graph
  jobs   : List Job
  ops    : List Op
  longs  : List Long
  pressTurn : List Nat
  seqs   : List (Nat × Nat)
  ctxs   : List Ctx
  parts  : List Part
  queues : List Queue
  status : List StatusWrite
  mailbox : Mailbox
  vfEnable : Bool
  /-- the bytes that are not 0, by device physical address (R236). DESIGN CHOICE: log entry 91. -/
  mem    : Mem
  past   : List Past
  poison : List Nat
  /-- bytes that dirty RDC lines hold newer than their home, as they stand at the home (R241, R277) -/
  unhomed : List (Nat × Byte)
  /-- sectors whose CRC mismatches and that nothing has read since (R410) -/
  failing : List Nat
  frames : List (Nat × Option W32)
  /-- translations held, without a limit (R385). DEDUCED: log entry 99. -/
  tlb    : List TlbEntry
  walks  : List Walk
  lines  : List Line
  fills  : List (Nat × Nat)
  bulk   : List Bulk
  /-- instruction lines, without a limit (R279). DEDUCED: log entry 99. -/
  icache : List ILine
  iinvs  : List Iinv
  extents : List Extent
  snoops : List Snoop
  moves  : List Move
  /-- lines of other devices' SHARED extents that this device holds (R305) -/
  shared : List Nat
  /-- extent pages of 64 KiB that LPDDR holds, the latest first (R312) -/
  resident : List Nat
  sessions : List Session
  templates : List Template
  signers : List (W32 × List Byte)
  taskCtxs : List (W32 × Nat)
  viralPeers : List (BitVec 12)
  lostPeers : List (BitVec 12)
  ports  : List Port
  bins   : List UnitBin
  corrections : Nat
  /-- the firmware image that start-up verified (R300, R418) -/
  firmware : List Byte
  /-- values that a party's placement and timing reads and coin reads have returned since its pitch issued, as proofing captures them (R103, R209, R416) -/
  captures : List (Nat × W64)
  /-- the outputs of a party's pitch since it issued, other than registers: addresses and data of stores, and the fields of what it issues (R416) -/
  outputs : List (Nat × W64)
  /-- the dies' audit buffers (R416) -/
  audits : List Audit
  /-- the accesses whose order matters, each location's writes in coherence order; the next one's number; and the dependences (R249, R250) -/
  acts   : List Act
  actId  : Nat
  taints : List Taint
deriving DecidableEq, Repr

/-- The machine right after reset and before start-up (R418): nothing is ready, memory lists nothing, and the registers of
the DVSEC, the mailbox, the contexts and the queue slots hold the values of their Reset columns. The fit and the
PID are the model's choice (log entry 2). DESIGN CHOICE: log entry 1. -/
def State.reset : State where
  fit := .f2
  pid := 1
  dvsec := {}
  clk := 0
  wall := 0
  clockMHz := 1800
  nextId := 1
  freeCtr := 0
  issue := none
  turn := 0
  inbox := []
  out := []
  parties := []
  homes := []
  formes := []
  ghosts := []
  launches := []
  accepting := []
  graphs := []
  jobs := []
  ops := []
  longs := []
  pressTurn := []
  seqs := []
  ctxs := List.replicate 64 {}
  parts := List.replicate 16 {}
  queues := []
  status := []
  mailbox := {}
  vfEnable := false
  mem := []
  past := []
  poison := []
  unhomed := []
  failing := []
  frames := []
  tlb := []
  walks := []
  lines := []
  fills := []
  bulk := []
  icache := []
  iinvs := []
  extents := []
  snoops := []
  moves := []
  shared := []
  resident := []
  sessions := []
  templates := []
  signers := []
  taskCtxs := []
  viralPeers := []
  lostPeers := []
  ports := List.replicate 8 {}
  bins := []
  corrections := 0
  firmware := []
  captures := []
  outputs := []
  audits := []
  acts := []
  actId := 0
  taints := []

end Sys2Proof.Machine
end

