-- ==== Sys2Proof/Machine/Ops.lean ====
section
/-! DEFINITION. The named operations that every meaning shares: data by key, lanes, memory and its paths, translation, the device's
own writes, the log, the end of parties, formes and launches, taking a trap and returning from one. -/
namespace Sys2Proof.Machine

/-! Data by key, kept in one canonical form. -/

/-- What a key reads as. -/
def storeGet {α : Type} (d : α) (k : Nat) : List (Nat × α) → α
  | [] => d
  | (a, x) :: m => if a = k then x else storeGet d k m

/-- The data with one key written; writing the default removes the entry. -/
def storeSet {α : Type} [DecidableEq α] (d : α) (k : Nat) (v : α) : List (Nat × α) → List (Nat × α)
  | [] => if v = d then [] else [(k, v)]
  | (a, x) :: m =>
    if a < k then (a, x) :: storeSet d k v m
    else if a = k then (if v = d then m else (k, v) :: m)
    else if v = d then (a, x) :: m else (k, v) :: (a, x) :: m

/-- Strictly rising keys from `lo`, and no entry equal to the default. -/
def storeWfFrom {α : Type} [DecidableEq α] (d : α) : Nat → List (Nat × α) → Bool
  | _, [] => true
  | lo, (a, x) :: m => decide (lo ≤ a) && decide (x ≠ d) && storeWfFrom d (a + 1) m

def storeWf {α : Type} [DecidableEq α] (d : α) (m : List (Nat × α)) : Bool := storeWfFrom d 0 m

/-- What a byte of memory that nothing has written reads as (R418: start-up writes zeros). -/
def memDefault : Byte := 0

def memGet (m : Mem) (a : Nat) : Byte := storeGet memDefault a m
def memSet (m : Mem) (a : Nat) (b : Byte) : Mem := storeSet memDefault a b m
def Memory.wf (m : Mem) : Bool := storeWf memDefault m

/-- Consecutive bytes from an address, the lowest first (R10). -/
def memGetN (m : Mem) (a : Nat) : Nat → List Byte
  | 0 => []
  | n + 1 => memGet m a :: memGetN m (a + 1) n

def memSetN (m : Mem) (a : Nat) : List Byte → Mem
  | [] => m
  | b :: bs => memSetN (memSet m a b) (a + 1) bs

/-- Entries of a galley are +0 where nothing is listed (R176). -/
def tileGet (g : Tile) (k : Nat) : W32 := storeGet 0 k g
def tileSet (g : Tile) (k : Nat) (v : W32) : Tile := storeSet 0 k v g

/-- The key of entry (row, column) of tile pair `g` (R176). -/
def tileKey (g row col : Nat) : Nat := (g * 128 + row) * 256 + col

/-! Small helpers on lists. -/

/-- The first `n` naturals from `k`. -/
def upFrom (k : Nat) : Nat → List Nat
  | 0 => []
  | n + 1 => k :: upFrom (k + 1) n

/-- Lane positions 0 to 63. -/
def lanes64 : List Nat := upFrom 0 64

def modifyWhere {α : Type} (p : α → Bool) (f : α → α) (l : List α) : List α :=
  l.map fun x => if p x then f x else x

def setNth {α : Type} (l : List α) (n : Nat) (v : α) : List α := l.set n v

def sumBy {α : Type} (f : α → Nat) (l : List α) : Nat := (l.map f).foldl (· + ·) 0

/-- The lanes of a mask, in ascending order. -/
def maskLanes (m : Mask) : List Nat := lanes64.filter fun i => m.getLsbD i

def laneBit (i : Nat) : Mask := 1#64 <<< i

/-- The lowest-numbered lane of a mask. -/
def lowestLane (m : Mask) : Option Nat := (maskLanes m).head?

def rowZero : Row := List.replicate 64 0

/-- A row of 64 values given lane by lane. -/
def rowOf (f : Nat → W32) : Row := lanes64.map f

def rowGet (r : Row) (i : Nat) : W32 := r.getD i 0

/-- Lanes of `m` from `new`, the rest from `old`. -/
def rowMerge (m : Mask) (new old : Row) : Row := rowOf fun i => if m.getLsbD i then rowGet new i else rowGet old i

def maskOf (f : Nat → Bool) : Mask := (maskLanes (BitVec.allOnes 64)).foldl (fun m i => if f i then m ||| laneBit i else m) 0

/-- Mask of the lowest `n` lanes. -/
def maskLow (n : Nat) : Mask := BitVec.ofNat 64 (2 ^ n - 1)

/-! The pieces of the state, by their identifiers. -/

def State.party? (s : State) (pid : Nat) : Option Party := s.parties.find? fun p => p.pid = pid
def State.forme? (s : State) (fid : Nat) : Option Forme := s.formes.find? fun f => f.fid = fid
def State.home? (s : State) (fid hp : Nat) : Option Home := s.homes.find? fun h => h.fid = fid && h.hp = hp
def State.launch? (s : State) (lid : Nat) : Option Launch := s.launches.find? fun l => l.lid = lid
def State.graph? (s : State) (gid : Nat) : Option Graph := s.graphs.find? fun g => g.gid = gid
def State.job? (s : State) (jid : Nat) : Option Job := s.jobs.find? fun j => j.jid = jid
def State.op? (s : State) (id : Nat) : Option Op := s.ops.find? fun o => o.id = id
def State.queue? (s : State) (c q : Nat) : Option Queue := s.queues.find? fun x => x.ctx = c && x.slot = q
def State.ctx (s : State) (n : Nat) : Ctx := s.ctxs.getD n {}
def State.part (s : State) (n : Nat) : Part := s.parts.getD n {}

def State.onParty (s : State) (pid : Nat) (f : Party → Party) : State :=
  { s with parties := modifyWhere (fun p => p.pid = pid) f s.parties }
def State.onForme (s : State) (fid : Nat) (f : Forme → Forme) : State :=
  { s with formes := modifyWhere (fun x => x.fid = fid) f s.formes }
def State.onHome (s : State) (fid hp : Nat) (f : Home → Home) : State :=
  { s with homes := modifyWhere (fun h => h.fid = fid && h.hp = hp) f s.homes }
def State.onLaunch (s : State) (lid : Nat) (f : Launch → Launch) : State :=
  { s with launches := modifyWhere (fun l => l.lid = lid) f s.launches }
def State.onGraph (s : State) (gid : Nat) (f : Graph → Graph) : State :=
  { s with graphs := modifyWhere (fun g => g.gid = gid) f s.graphs }
def State.onJob (s : State) (jid : Nat) (f : Job → Job) : State :=
  { s with jobs := modifyWhere (fun j => j.jid = jid) f s.jobs }
def State.onOp (s : State) (id : Nat) (f : Op → Op) : State :=
  { s with ops := modifyWhere (fun o => o.id = id) f s.ops }
def State.onQueue (s : State) (c q : Nat) (f : Queue → Queue) : State :=
  { s with queues := modifyWhere (fun x => x.ctx = c && x.slot = q) f s.queues }
def State.onCtx (s : State) (n : Nat) (f : Ctx → Ctx) : State := { s with ctxs := s.ctxs.modify n f }
def State.onPart (s : State) (n : Nat) (f : Part → Part) : State := { s with parts := s.parts.modify n f }
def State.send (s : State) (m : Msg) : State := { s with out := s.out ++ [m] }
def State.bump (s : State) : State := { s with nextId := s.nextId + 1 }
def State.stir (s : State) : State := { s with freeCtr := s.freeCtr + 1 }

/-- One of some values, by the free choice `k`. -/
def State.oneOf {α : Type} (s : State) (k : Nat) (d : α) : List α → α
  | [] => d
  | [x] => x
  | l => l.getD (Config.freeNat s.freeCtr k % l.length) d

/-- A unit that is retired, or out of service for its retest (R417). -/
def State.unitOut (s : State) (u : UnitId) : Bool := s.bins.any fun b => b.unit = u && (b.bin.isNone || b.testing)

/-- Femtoseconds of an arithmetic clock. -/
def State.fsPerClk (s : State) : Nat := 10 ^ 9 / s.clockMHz

/-- A value that a placement or timing read or a coin read has returned to a party, as proofing captures it (R103, R209, R416). -/
def State.capture (s : State) (pid : Nat) (v : W64) : State := { s with captures := (pid, v) :: s.captures }

/-- What was captured of a party's earlier pitch goes when its next one issues. -/
def State.captureAnew (s : State) (pid : Nat) : State := 
  { s with captures := s.captures.filter fun x => x.1 ≠ pid, outputs := s.outputs.filter fun x => x.1 ≠ pid }

/-- Outputs of a party's pitch, as proofing captures them (R416). -/
def State.emit (s : State) (pid : Nat) (l : List W64) : State := { s with outputs := l.map (pid, ·) ++ s.outputs }

/-- Clocks that can pass while every party still issues within its bound, one that has not been looked at since it was last found not ready being taken to
be ready since then (R326, R329), and up to the time by which a forme is to leave its core (R347). -/
def State.slack (s : State) (n : Nat) : Nat :=
  let n := s.parties.foldl (fun n p => min n (p.notReady + 10288 - s.clk)) n
  s.formes.foldl (fun n f => match f.leave with | some x => if s.wall < x.by_ then min n ((x.by_ - s.wall) / s.fsPerClk + 1) else n | none => n) n

/-- Arithmetic clocks pass, as far as the bound of R329 lets them. DESIGN CHOICE: log entry 9. -/
def State.pass (s : State) (n : Nat) : State := { s with clk := s.clk + s.slack n, wall := s.wall + s.slack n * s.fsPerClk }

/-- The die of a core, 16 cores to a die (R1, R43). -/
def dieOf (core : Nat) : Nat := core / 16

/-- How many dies and cores the fit has (R3, R4). -/
def Fit.dies : Fit → Nat | .f2 => 2 | .m1 => 1
def State.cores (s : State) : Nat := 16 * s.fit.dies

/-- Add to counter `k` of a context (R395, R396). -/
def State.count (s : State) (c k n : Nat) : State :=
  s.onCtx c fun x => { x with counters := x.counters.modify k fun v => v + BitVec.ofNat 64 n }

/-! Addresses (R236). -/

def fabricBase : Nat := 0x100000000000
def fabricEnd : Nat := 0x120000000000
/-- The fabric window (R236). -/
def inWindow (a : Nat) : Bool := decide (fabricBase ≤ a ∧ a < fabricEnd)
/-- Fabric memory: an M1's extent space of 32 TiB begins where the window does, and its cores reach through the window what lies there (R236, R312). -/
def inFabric (a : Nat) : Bool := decide (fabricBase ≤ a ∧ a < fabricBase + 2 ^ 45)

/-- The device's own HBM4E or LPDDR. -/
def State.ownMem (s : State) (a : Nat) : Bool :=
  match s.fit with | .f2 => decide (a < 2 ^ 39) | .m1 => decide (a < 2 ^ 41)

/-- The die that an address of the device's own memory is homed on. -/
def State.homeDie (s : State) (a : Nat) : Nat := match s.fit with | .f2 => a / 2 ^ 38 % 2 | .m1 => 0

def State.extentOf (s : State) (a : Nat) : Option Extent :=
  s.extents.find? fun e => decide (e.base ≤ a ∧ a < e.base + 2 ^ 29)

/-- The owner of a 64 KiB frame: none means FREE, `some none` the device (R387). DEDUCED: log entry 85. -/
def State.frameOwner (s : State) (a : Nat) : Option (Option W32) :=
  (s.frames.find? fun f => f.1 = a / 2 ^ 16).map (·.2)

/-- A translated address that the device refuses (R236, R384). -/
def State.refusedPa (s : State) (tenant : W32) (a : Nat) : Bool :=
  if inWindow a then (s.extentOf a).isNone
  else !s.ownMem a || s.frameOwner a ≠ some (some tenant)

/-- Why an access to a physical address fails at memory, apart from poison (R265, R303, R384, R413, R415). -/
def State.lost (s : State) (tenant : W32) (a : Nat) : Option TrapCode :=
  if s.moves.any fun m => m.gone && decide (m.old ≤ a ∧ a < m.old + m.size) then some .extentGone
  else if inFabric a then
    match s.extentOf a with
    | none => if s.moves.any fun m => m.switched && decide (m.new ≤ a ∧ a < m.new + m.size) then none else some .extentGone
    | some e =>
      if e.own then (if e.tenant = tenant then none else some .extentGone)
      else if e.pids.head?.any s.lostPeers.contains then some .expanderLost
      else if e.pids.head?.any s.viralPeers.contains then some .viral
      else if e.tenant = tenant then none else some .extentGone
  else none

/-! Poison, by 32-byte sector (R265, R411). -/

def sectorOf (a : Nat) : Nat := a / 32
def sectorsOf (a n : Nat) : List Nat := if n = 0 then [] else upFrom (sectorOf a) (sectorOf (a + n - 1) + 1 - sectorOf a)
def poisonedIn (l : List Nat) (a n : Nat) : Bool := (sectorsOf a n).any fun x => l.contains x
/-- A write that covers a whole sector clears its poison (R265). -/
def clearPoison (l : List Nat) (a n : Nat) : List Nat := l.filter fun x => !decide (a ≤ 32 * x ∧ 32 * x + 32 ≤ a + n)

/-! BULK lines held by an RDC (R277, R306). -/

def lineOf (a : Nat) : Nat := a / 128 * 128

/-- Whether an access from a die goes through that die's RDC without fabric coherence. -/
def State.isBulk (s : State) (a : Nat) : Bool :=
  match s.extentOf a with | some e => e.bulk && !e.own | none => false

def State.bulkLine (s : State) (a : Nat) : Option Bulk := s.bulk.find? fun b => b.addr = lineOf a

/-- The byte that an agent of the device reads at a physical address. A BULK line is coherent within the folio, which is
one holder (R302). -/
def State.readPa (s : State) (a : Nat) : Byte :=
  match s.bulkLine a with
  | some b => b.data.getD (a % 128) 0
  | none => memGet s.mem a

/-- The other copy of an address whose page is in a dual-home window, which every write reaches too (R309). -/
def State.mirror (s : State) (a : Nat) : Option Nat :=
  (s.moves.find? fun m => !m.switched && decide (m.old ≤ a ∧ a < m.old + m.size)).map fun m => m.new + (a - m.old)

/-- Where requests that are forwarded at most `n` times go. -/
def forwarded (l : List Move) : Nat → Nat → Nat
  | 0, a => a
  | n + 1, a => match l.find? fun m => m.switched && !m.gone && decide (m.old ≤ a ∧ a < m.old + m.size) with
    | some m => forwarded l n (m.new + (a - m.old))
    | none => a

/-- Where a request to an old home goes after the switch, and after every later move of the page (R310). -/
def State.moved (s : State) (a : Nat) : Nat := forwarded s.moves s.moves.length a

/-- One byte written at a physical address, at its point of coherence (R241, R302, R309). -/
def State.writePa (s : State) (a : Nat) (b : Byte) : State :=
  if (s.bulkLine a).isSome then
    let put := fun (l : Bulk) => { l with data := l.data.set (a % 128) b, mask := l.mask ||| (1#128 <<< (a % 128)) }
    { s with bulk := modifyWhere (fun l => l.addr = lineOf a) put s.bulk }
  else
    let m := memSet s.mem a b
    { s with mem := match s.mirror a with | some n => memSet m n b | none => m }

def State.readPaN (s : State) (a : Nat) : Nat → List Byte
  | 0 => []
  | n + 1 => s.readPa a :: s.readPaN (a + 1) n

def State.writeBytesPa (s : State) (a : Nat) : List Byte → State
  | [] => s
  | b :: bs => (s.writePa a b).writeBytesPa (a + 1) bs

/-- The lines that some bytes cover whole. -/
def wholeLines (a n : Nat) : List Nat := (upFrom ((a + 127) / 128) ((a + n) / 128 - (a + 127) / 128)).map (· * 128)

/-- Mark the lines of a home move that a write covers whole as valid at the new copy (R309). -/
def State.noteMirrored (s : State) (a n : Nat) : State :=
  { s with moves := s.moves.map fun m =>
      if m.switched then m
      else
        let ls := (wholeLines a n).filter fun x => decide (m.old ≤ x ∧ x < m.old + m.size)
        { m with valid := ls.foldl (fun v x => if v.contains (x - m.old) then v else (x - m.old) :: v) m.valid } }

/-- The key under which `State.past` keeps a byte of memory, and one of a scratchpad. -/
def memKey (a : Nat) : Nat := 2 * a
def spadKey (fid off : Nat) : Nat := 2 * (fid * 2 ^ 22 + off) + 1

/-! Lines that other agents of the fabric hold and write (R305, R411). -/

/-- What a fabric line's home holds now: another agent may have written any byte of it. -/
def State.lineAnew (s : State) (line : Nat) : List Byte :=
  (upFrom 0 128).map fun k =>
    if Config.freeBit s.freeCtr (1000000 + line + k) then Config.freeByte s.freeCtr (line + k) else memGet s.mem (line + k)

/-- The poisoned sectors once a line has come from its home with its poison, which both copies of a moving page get (R309, R411). -/
def State.poisonAnew (s : State) (line : Nat) : List Nat :=
  let secs := upFrom (line / 32) 4
  let bad := secs.filter fun x => Config.freeBit s.freeCtr (1060000 + x)
  let there := (s.mirror line).map fun n => upFrom (n / 32) 4
  s.poison.filter (fun x => !(secs ++ there.getD []).contains x) ++ bad ++ (bad.flatMap fun x => (there.getD []).filter fun y => y % 4 = x % 4)

/-- A line as its home holds it now. The device changes no memory in its own viral state (R414). -/
def State.renewLine (s : State) (line : Nat) : State :=
  let bs := s.lineAnew line
  if s.dvsec.viral then s else
  { s with mem := (match s.mirror line with | some n => memSetN (memSetN s.mem line bs) n bs | none => memSetN s.mem line bs)
           unhomed := s.unhomed.filter fun x => lineOf x.1 ≠ line
           poison := s.poisonAnew line }

/-- An access to a line of a SHARED extent: this device comes to hold another's line, which it may have lost since it last had it, and a
line of its own extents is first taken back from its holders (R305). DESIGN CHOICE: log entry 20. -/
def State.touchShared (s : State) (pa : Nat) (write : Bool) : State :=
  if !inFabric pa then s else
  let line := lineOf pa
  let foreign : State :=
    if s.shared.contains line && !Config.freeBit s.freeCtr (1150000 + line) then s
    else { s.renewLine line with shared := line :: s.shared.filter (· ≠ line) }
  match s.extentOf pa with
  | none => foreign
  | some e =>
    if e.bulk then s
    else if !e.own then foreign
    else match s.snoops.find? fun x => x.line = line with
      | none => s
      | some x =>
        if !write && !x.excl then s
        else
          let s := (if x.broad then e.pids else x.holders).foldl (fun s h => s.send (.snoop h line write)) s
          let s := if x.excl then s.renewLine line else s
          { s with snoops := if write then s.snoops.filter fun y => y.line ≠ line else modifyWhere (fun y => y.line = line) (fun y => { y with excl := false }) s.snoops }

/-! BULK lines (R306, R307). -/

/-- Write back the bytes that the folio wrote, and drop the line (R277, R307); to the new home where its page has moved (R310). -/
def State.evictBulk (s : State) (line : Nat) : State :=
  if s.dvsec.viral then s else match s.bulk.find? fun b => b.addr = line with
  | none => s
  | some b =>
    let s := { s with bulk := s.bulk.filter fun x => x.addr ≠ line }
    (upFrom 0 128).foldl (fun s k => if b.mask.getLsbD k then s.writePa (s.moved (line + k)) (b.data.getD k 0) else s) s

/-- A BULK line comes into the RDC for an access; one that is there may have left and come again (R306, R307). DESIGN CHOICE: log entry 19. -/
def State.touchBulk (s : State) (pa : Nat) (owner : Option Nat) : State :=
  if !s.isBulk pa then s
  else
    let line := lineOf pa
    let s := if (s.bulkLine pa).isSome && Config.freeBit s.freeCtr (1100000 + line) then s.evictBulk line else s
    if (s.bulkLine pa).isSome then s else { s with bulk := ⟨0, line, s.lineAnew line, 0, owner⟩ :: s.bulk, poison := s.poisonAnew line }

/-- An atomic at .SYS on a BULK line is performed at the M1, after the line is written back and dropped (R307). -/
def State.leaveBulk (s : State) (pa : Nat) : State :=
  if !s.isBulk pa || s.dvsec.viral then s
  else
    let s := s.evictBulk (lineOf pa)
    { s with mem := memSetN s.mem (lineOf pa) (s.lineAnew (lineOf pa)), poison := s.poisonAnew (lineOf pa) }

/-! The dense tier (R312). -/

/-- The pages that the page cache holds when it is full. -/
def State.pageCap (s : State) : Nat := s.dvsec.pcache * 2 ^ 18

/-- The page that gives way: the least recently accessed among those not held by RESID, or among all where RESID holds them all (R312). -/
def State.dropPage (s : State) (l : List Nat) : List Nat :=
  match l.reverse.find? fun a => !(s.extentOf a).any (·.resid) with
  | none => l.dropLast
  | some a => l.filter (· ≠ a)

/-- A page of the device's own extents stands in LPDDR, the latest accessed, for an access to it (R312). -/
def State.bringIn (s : State) (pa : Nat) : State :=
  let page := pa / 2 ^ 16 * 2 ^ 16
  if !(s.extentOf pa).any (·.own) then s
  else if s.resident.contains page then { s with resident := page :: s.resident.filter (· ≠ page) }
  else { s with resident := page :: (if s.pageCap ≤ s.resident.length then s.dropPage s.resident else s.resident) }

/-- A line reached by any agent of the device. -/
def State.touchLine (s : State) (pa : Nat) (owner : Option Nat) (write : Bool) : State := ((s.bringIn pa).touchBulk pa owner).touchShared pa write

/-- The lines of some physical runs, each once. -/
def runLines (l : List (Nat × Nat)) : List Nat :=
  (l.flatMap fun r => (upFrom 0 (r.2 / 128 + 2)).map fun k => lineOf r.1 + 128 * k).foldl (fun ls a =>
    if ls.contains a || !l.any (fun r => decide (a < r.1 + r.2 ∧ r.1 < a + 128)) then ls else ls ++ [a]) []

/-- The fabric lines of some physical runs are reached. -/
def State.touchRuns (s : State) (l : List (Nat × Nat)) (owner : Option Nat) (write : Bool) : State :=
  (runLines (l.filter fun r => inFabric r.1)).foldl (fun s a => s.touchLine a owner write) s

/-- Whether accesses need to be kept: not while a single party stands that has met no other. -/
def State.alone (s : State) : Bool := decide (s.parties.length ≤ 1) && s.acts.isEmpty

/-- Which access of the graph a party's bytes belong to, as its number and 1 more: the one that is about to join. -/
def State.actNow (s : State) : Writer → Nat
  | .party _ => if s.alone then 0 else s.actId + 1
  | _ => 0

/-- Whether a writer's bytes are remembered even where they change nothing: those of a lane's private memory (R239). -/
def Writer.always : Writer → Bool
  | .lane .. => true
  | _ => false

/-- Remember the bytes that a write changes, from the one with key `k`; consecutive bytes are 2 apart. DESIGN CHOICE: log entry 92. -/
def State.recall (s : State) (w : Writer) (k : Nat) (old new : List Byte) : State :=
  { s with past := s.past ++ ((old.zip new).zip (upFrom 0 old.length)).filterMap fun x =>
      if x.1.1 = x.1.2 && !w.always then none else some ⟨s.freeCtr, w, k + 2 * x.2, x.1.1, s.actNow w⟩ }

/-- Consecutive bytes written by the device itself: every copy of their lines but the home's goes (R241). -/
def State.dropRuns (s : State) (a n : Nat) : State :=
  { s with lines := s.lines.filter fun l => !((decide (l.cache < 32) || decide (34 ≤ l.cache)) && decide (l.addr < a + n ∧ a < l.addr + 128)) }

/-- Where a task keeps its image, the copy of its packet and its result: the M1's own program memory (R318). -/
def taskPa (lid : Nat) : Nat := 2 ^ 50 + lid * 2 ^ 24
def taskPacketAt : Nat := 2 ^ 21
def taskResultAt : Nat := 2 ^ 22

/-- Bytes that a task writes to its result region (R318). -/
def State.noteResult (s : State) (a : Nat) (bs : List Byte) : State :=
  if a < 2 ^ 50 then s
  else
    let o := (a - 2 ^ 50) % 2 ^ 24 - taskResultAt
    let put := fun (t : Task) => { t with result := (t.result.filter fun c => !decide (o ≤ c.1 ∧ c.1 < o + bs.length)) ++ (upFrom o bs.length).zip bs }
    s.onLaunch ((a - 2 ^ 50) / 2 ^ 24) fun l => { l with task := l.task.map put }

/-- A write to the new copy of a moving page, where another device holds that, with the poison of its sectors (R309, R411). -/
def State.sendHome (s : State) (a : Nat) (bs : List Byte) : State :=
  let bad := ((sectorsOf a bs.length).filter s.poison.contains).map (· - a / 32)
  match s.extentOf a with
  | none => if inFabric a then s.send (.remote 0 a bs bad) else s
  | some e => if e.own then s else s.send (.remote (e.pids.headD 0) a bs bad)

/-- Consecutive bytes written, with the poison that they cover cleared (R265). The device writes nothing in its own viral state (R414). -/
def State.writePaN (s : State) (a : Nat) (bs : List Byte) (w : Writer := .other) : State :=
  if s.dvsec.viral then s
  else
    let n := bs.length
    let s := (s.recall w (memKey a) (s.readPaN a n) bs).noteResult a bs
    let also := match s.mirror a with | some b => b | none => a
    let s := ({ s.writeBytesPa a bs with poison := clearPoison (clearPoison s.poison a n) also n
                                         failing := clearPoison (clearPoison s.failing a n) also n } : State).noteMirrored a n
    if also = a then s else s.sendHome also bs

/-- Consecutive bytes, now `cur` and the first with key `k`, as they stood before everything that was written from a step on. -/
def State.asOf (s : State) (k : Nat) (cur : List Byte) (t : Nat) : List Byte :=
  (cur.zip (upFrom 0 cur.length)).map fun b =>
    match s.past.find? fun x => x.key = k + 2 * b.2 && decide (t ≤ x.at_) with
    | some x => x.old
    | none => b.1

/-- The CRC-16 of a sector: polynomial 0x1021, initial value 0xFFFF, over its 32 bytes and then bits 47:5 of its address as 6 bytes (R409). -/
def sectorCrc (bs : List Byte) (sector : Nat) : BitVec 16 :=
  (bs ++ bytesOfNat 6 (sector % 2 ^ 43)).foldl (fun c b =>
    (upFrom 0 8).foldl (fun (c : BitVec 16) _ => if c.getLsbD 15 then (c <<< 1) ^^^ 0x1021#16 else c <<< 1) (c ^^^ ((b.zeroExtend 16 : BitVec 16) <<< (8 : Nat)))) 0xFFFF#16

/-- A read corrects the one failing sector of a stripe, and poisons every failing sector where there are more (R410). -/
def State.correct (s : State) (a n : Nat) : State :=
  let hit := (sectorsOf a n).filter fun x => s.failing.contains x
  let stripes := hit.map (· / 16)
  let lone := fun (x : Nat) => (s.failing.filter fun y => y / 16 = x / 16).length ≤ 1
  { s with failing := s.failing.filter fun x => !stripes.contains (x / 16)
           poison := s.poison ++ s.failing.filter fun x => stripes.contains (x / 16) && !lone x && !s.poison.contains x
           corrections := s.corrections + (hit.filter lone).length }

def natOfBytes (bs : List Byte) : Nat := wordOfBytes bs
def State.readNat (s : State) (a n : Nat) : Nat := natOfBytes (s.readPaN a n)

/-- Whether a read meets poison: a poisoned sector, or a failing one with which another of its stripe fails (R265, R410). -/
def State.poisoned (s : State) (a n : Nat) : Bool :=
  poisonedIn s.poison a n || (sectorsOf a n).any fun x => s.failing.contains x && s.failing.any fun y => y ≠ x && y / 16 = x / 16

/-! Where an access goes (R261): memory, or a forme's scratchpad. -/

inductive Loc where
  | pa (a : Nat)
  | spad (fid off : Nat)
deriving DecidableEq, Repr

def State.locRead (s : State) : Loc → Nat → List Byte
  | .pa a, n => s.readPaN a n
  | .spad fid o, n => match s.forme? fid with | some f => memGetN f.scratch o n | none => List.replicate n 0

/-- Bytes of a record as the device reads it: another agent may have written those of a SHARED fabric line (R305). -/
def State.recordRead (s : State) (l : Loc) (n : Nat) : List Byte :=
  match l with
  | .pa a => if !inFabric a || s.isBulk a then s.readPaN a n
      else if (s.extentOf a).any (·.own) && !(s.snoops.any fun x => x.line = lineOf a && x.excl) then s.readPaN a n
      else (upFrom a n).map fun b => if Config.freeBit s.freeCtr (1080000 + b) then Config.freeByte s.freeCtr b else s.readPa b
  | .spad .. => s.locRead l n

def Loc.key : Loc → Nat
  | .pa a => memKey a
  | .spad fid o => spadKey fid o

def State.locWrite (s : State) (l : Loc) (bs : List Byte) (w : Writer := .other) : State :=
  match l with
  | .pa a => s.writePaN a bs w
  | .spad fid o =>
    let s := s.recall w (spadKey fid o) (s.locRead (.spad fid o) bs.length) bs
    s.onForme fid fun f => { f with scratch := memSetN f.scratch o bs, spoison := clearPoison f.spoison o bs.length }

def State.locPoisoned (s : State) : Loc → Nat → Bool
  | .pa a, n => s.poisoned a n
  | .spad fid o, n => match s.forme? fid with | some f => poisonedIn f.spoison o n | none => false

/-- Why an access at a location fails at memory; poison fails only reads (R265). -/
def State.locFail (s : State) (tenant : W32) (read : Bool) (l : Loc) (n : Nat) : Option TrapCode :=
  match l with
  | .pa a =>
    match s.lost tenant a with
    | some c => some c
    | none => if read && s.poisoned a n then some .poison else none
  | .spad _ _ => if read && s.locPoisoned l n then some .poison else none

/-! Translation (R264, R384, R385, R390). -/

inductive Trans where
  | hit (pa : Nat)
  | miss
  | refused
deriving DecidableEq, Repr

def permits (n : Need) (r w x : Bool) : Bool :=
  match n with
  | .r => r
  | .w => w
  | .rw => r && w
  | .x => x
  | .none => true

def granuleOf (a : Nat) : Nat := a / 2 ^ 16 * 2 ^ 16

/-- The scratchpad aperture (R237). -/
def apertureBase : Nat := 0x1FFFFFFFFC00000
def apertureEnd : Nat := 0x200000000000000
def inAperture (a : Nat) : Bool := decide (apertureBase ≤ a ∧ a < apertureEnd)

def State.tlbHit (s : State) (c a : Nat) : Option TlbEntry :=
  s.tlb.find? fun e => e.ctx = c && decide (e.page ≤ a ∧ a < e.page + e.size)

/-- The translation of a virtual address, as the TLB holds it, or as the task's own map gives it. -/
def State.translate (s : State) (sp : Space) (a : Nat) (n : Need) : Trans :=
  match sp with
  | .ctx c =>
    if a ≥ 2 ^ 57 then .refused else
    match s.tlbHit c a with
    | some e => if permits n e.r e.w e.x then .hit (s.moved (e.pa + (a - e.page))) else .refused
    | none => .miss
  | .task lid =>
    match (s.launch? lid).bind (·.task) with
    | none => .refused
    | some t =>
      match t.maps.find? fun m => decide (m.va ≤ a ∧ a < m.va + m.len) with
      | some m => if permits n m.r m.w m.x then .hit (s.moved (m.pa + (a - m.va))) else .refused
      | none => .refused

/-- The address space of a launch (R318, R384). -/
def Launch.space (l : Launch) : Space := if l.task.isSome then .task l.lid else .ctx l.ctx

/-- Whether no translation is waited for any more. -/
def idle (gs : List Granule) : Bool := gs.all fun g => g.verdict ≠ .waiting

/-- Ask for the translations that are missing: one request for each granule of a parking (R390). DEDUCED: log entry 76. -/
def State.askAll (s : State) (sp : Space) (gs : List Granule) : State :=
  match sp with
  | .ctx c => gs.foldl (fun s g =>
      if g.verdict ≠ .waiting || s.walks.any (fun w => w.ctx = c && w.granule = g.addr && w.need = g.need && w.parking = g.parking) then s
      else ({ s with walks := s.walks ++ [{ ctx := c, granule := g.addr, need := g.need, parking := g.parking }] } : State).send (.translate c g.addr g.need)) s
  | .task _ => s

/-- A number that no walk under way bears, for the next parking. -/
def State.newParking (s : State) : Nat := s.walks.foldl (fun n w => max n w.parking) 0 + 1

/-- Whether two granules are for one need at one place. -/
def Granule.same (g h : Granule) : Bool := g.addr = h.addr && g.need = h.need

/-- The missing granules of some addresses, each once, as one parking waits for them: those that it waits for already, and new ones (R390). -/
def State.granulesOf (s : State) (old : List Granule) (l : List (Nat × Need)) : List Granule :=
  l.foldl (fun gs x =>
    let g : Granule := { addr := granuleOf x.1, need := x.2, parking := s.newParking }
    if gs.any g.same then gs else gs ++ [(old.find? fun h => g.same h && h.verdict = .waiting).getD g]) []

/-- What was waited for before stays beside what is waited for now. -/
def keeping (old gs : List Granule) : List Granule := (old.filter fun g => !gs.any g.same) ++ gs

def granuleRefused (gs : List Granule) (a : Nat) (n : Need) : Bool :=
  gs.any fun g => g.addr = granuleOf a && g.need = n && g.verdict = .refused

/-- A translation for an agent that waits with `gs`: a granule that was refused to it stays refused. -/
def State.translateFor (s : State) (sp : Space) (gs : List Granule) (a : Nat) (n : Need) : Trans :=
  match s.translate sp a n with
  | .miss => if granuleRefused gs a n then .refused else .miss
  | t => t

/-- The addresses of a range, one in each 64 KiB granule that it touches. -/
def granuleAddrs (a n : Nat) : List Nat :=
  if n = 0 then [] else
  a :: (upFrom (granuleOf a / 2 ^ 16 + 1) ((granuleOf (a + n - 1) - granuleOf a) / 2 ^ 16)).map (· * 2 ^ 16)

/-- A run of bytes cut at 64 KiB granules: address, place in the run, length. -/
def pieces (va n : Nat) : List (Nat × Nat × Nat) :=
  (granuleAddrs va n).map fun x => (x, x - va, min (va + n) (granuleOf x + 2 ^ 16) - x)

/-- What a record's bytes, as far as they translate, are read by: failing sectors are corrected (R410). -/
def State.reachVa (s : State) (sp : Space) (gs : List Granule) (va n : Nat) : State :=
  (pieces va n).foldl (fun s p => match s.translateFor sp gs p.1 .r with | .hit pa => s.correct pa p.2.2 | _ => s) s

/-- The outcome for a whole range of virtual bytes: refused at an address, missing granules, or translated. -/
inductive RangeTrans where
  | ok
  | missing (l : List (Nat × Need))
  | refused (a : Nat)
deriving DecidableEq, Repr

def State.translateRange (s : State) (sp : Space) (gs : List Granule) (a n : Nat) (need : Need) : RangeTrans :=
  (granuleAddrs a n).foldl (fun acc x =>
    match acc with
    | .refused y => .refused y
    | _ =>
      match s.translateFor sp gs x need with
      | .refused => .refused x
      | .hit _ => acc
      | .miss => match acc with | .missing l => .missing (l ++ [(x, need)]) | _ => .missing [(x, need)]) .ok

/-- One byte at a translated virtual address; an untranslated one reads 0 (callers translate first). -/
def State.readVa (s : State) (sp : Space) (fid : Nat) (srows : Nat) (a : Nat) : Byte :=
  if inAperture a then
    (if a - apertureBase < srows * 4096 then (s.locRead (.spad fid (a - apertureBase)) 1).headD 0 else 0)
  else match s.translate sp a .none with
    | .hit pa => s.readPa pa
    | _ => 0

def State.readVaN (s : State) (sp : Space) (a : Nat) : Nat → List Byte
  | 0 => []
  | n + 1 => s.readVa sp 0 0 a :: s.readVaN sp (a + 1) n

def State.readVaNat (s : State) (sp : Space) (a n : Nat) : Nat := natOfBytes (s.readVaN sp a n)

/-! Trap codes (R400). -/

def trapNum : TrapCode → Nat
  | .illegalEncoding => 0x01 | .badCairn => 0x02 | .tempUnset => 0x03 | .stallShort => 0x04 | .pressTouch => 0x05
  | .sheetMismatch => 0x06 | .satArmed => 0x07 | .ropeTimeout => 0x08 | .accessViolation => 0x09 | .misaligned => 0x0A
  | .poison => 0x10 | .viral => 0x11 | .expanderLost => 0x12 | .extentGone => 0x13 | .queueQuota => 0x14
  | .auditMismatch => 0x15 | .taskTagFail => 0x16 | .collFail => 0x17 | .cancelled => 0x18 | .software => 0x20
  | .breakpoint => 0x21

/-- The order in which boundary traps are taken (R402). -/
def trapRank : TrapCode → Nat
  | .viral => 1 | .expanderLost => 2 | .extentGone => 3 | .poison => 4 | .accessViolation => 5 | .collFail => 6
  | .queueQuota => 7 | .taskTagFail => 8 | .auditMismatch => 9 | .ropeTimeout => 10 | .satArmed => 11 | _ => 12

/-- A due trap joined to those of its code (R265, R402). -/
def addPending (l : List Pending) (x : Pending) : List Pending :=
  if l.any fun p => p.code = x.code then
    l.map fun p => if p.code = x.code then { p with items := p.items ++ x.items, inside := p.inside || x.inside } else p
  else l ++ [x]

/-- The due trap that is taken first (R402). -/
def firstPending : List Pending → Option Pending
  | [] => none
  | p :: ps => match firstPending ps with
    | none => some p
    | some q => if trapRank q.code < trapRank p.code then some q else some p

/-! The order of accesses (R246 to R253), as far as the device's own writes need it; the rest is in Order.lean. -/

/-- Whether two lists of runs of keys share a byte. -/
def overlap (a b : List (Nat × Nat)) : Bool :=
  a.any fun x => b.any fun y => decide (x.1 < y.1 + y.2 ∧ y.1 < x.1 + x.2 ∧ 0 < x.2 ∧ 0 < y.2 ∧ x.1 % 2 = y.1 % 2)

/-- What has just been written to some runs belongs to the access that is about to join the graph. -/
def State.tagged (s : State) (l : List (Nat × Nat)) : State :=
  { s with past := s.past.map fun x => if x.at_ = s.freeCtr && overlap [(x.key, 2)] l then { x with act := s.actId + 1 } else x }

/-- A write joins the graph as its location's latest. -/
def State.joinWrite (s : State) (y : Act) : State :=
  let y := { y with after := (s.acts.filter fun x => overlap (x.reads ++ x.writes) y.writes).map (·.id)
                    seen := if y.strong then some s.clk else none }
  { s with acts := s.acts ++ [y], actId := s.actId + 1 }

/-- Whether an agent that acquires now must find what an access wrote (R252). -/
def State.outNow (s : State) (x : Act) : Bool := x.seen.any fun t => !x.strong || decide (t + 20000 ≤ s.clk) || (s.party? x.pid).isNone

/-- The agent that parses a context's queues: the device's own atomics on counters are its accesses (R336). -/
def queueAgent (c : Nat) : Nat := 2 ^ 41 + c

/-- A status write of the device is a release at .SYS, after every access of the formes that have ended and every one visible (R30, R332, R336).
DEDUCED: log entry 120. -/
def State.joinSignal (s : State) (c pa n : Nat) (atomic : Bool) : State :=
  if s.alone then s
  else (s.tagged [(memKey pa, 2 * n)]).joinWrite {
    id := s.actId, at_ := s.freeCtr, pid := queueAgent c, line := [], fid := 0, hp := 0, die := 9
    writes := [(memKey pa, 2 * n)], atomic := (if atomic then some 4 else none), strong := true, rel := some 4
    deps := (s.acts.filter fun y => (s.forme? y.fid).isNone || s.outNow y).map (·.id) }

/-! The log (R407, R408). -/

def byteOf (n : Nat) : Byte := BitVec.ofNat 8 n

/-- One item entry of 32 bytes (R408). -/
def Item.bytes (x : Item) : List Byte :=
  [byteOf x.ikind, byteOf (trapNum x.code), byteOf x.lane, byteOf x.comp] ++ bytesOfNat 4 0 ++ bytesOfNat 8 x.loc
    ++ bytesOfNat 8 x.addr ++ bytesOfNat 8 x.batch

/-- The header entry of a record with `n` of its `total` items written (R408). -/
def LogRec.header (r : LogRec) (n total : Nat) : List Byte :=
  [byteOf r.kind, byteOf r.code] ++ bytesOfNat 2 n ++ bytesOfNat 4 total ++ bytesOfNat 8 r.tag.toNat
    ++ bytesOfNat 8 r.who.toNat ++ bytesOfNat 8 r.clk

def padEntry : List Byte := byteOf 0x8F :: List.replicate 31 0

def LogRec.entries (r : LogRec) : List (List Byte) := r.items.map Item.bytes ++ r.raw

/-- The write groups of a context whose writes stay in order: its log has one of its own (R339, R407). -/
def logGroup : Nat := 0

/-- Bytes that the device itself writes. -/
def State.putPa (s : State) (a : Nat) (bs : List Byte) : State := (s.dropRuns a bs.length).writePaN a bs

/-- Bytes that the device writes at a virtual address, when the translation is there. -/
def State.pokeVa (s : State) (sp : Space) (a : Nat) (bs : List Byte) : State :=
  (bs.zip (upFrom a bs.length)).foldl (fun s x =>
    match s.translate sp x.2 .w with
    | .hit pa => s.putPa pa [x.1]
    | _ => s) s

/-- Write device bytes inside one 64 KiB granule as one write, so that whole sectors clear their poison. -/
def State.pokeBlock (s : State) (sp : Space) (a : Nat) (bs : List Byte) : State :=
  match s.translate sp a .w with
  | .hit pa => s.putPa pa bs
  | _ => s

/-- The failure of a log write drops the entry and counts it (R407). -/
def State.loseLog (s : State) (c n : Nat) : State :=
  s.onCtx c fun x => { x with log := { x.log with lost := x.log.lost + n } }

/-- One write of log bytes: performed, waiting for its translation, or lost with what it counts for. -/
def State.logPut (s : State) (c a : Nat) (bs : List Byte) (n : Nat) : State :=
  if s.status.any fun w => w.ctx = c && w.group = logGroup then
    { s with status := s.status ++ [{ ctx := c, space := .ctx c, addr := a, what := .bytes bs, group := logGroup, packet := n }] }
  else match s.translate (.ctx c) a .w with
    | .hit pa => s.putPa pa bs
    | .refused => s.loseLog c n
    | .miss =>
      let g := s.granulesOf [] [(a, .w)]
      { s.askAll (.ctx c) g with status := s.status
          ++ [{ ctx := c, space := .ctx c, addr := a, what := .bytes bs, group := logGroup, packet := n, wait := g }] }

/-- The LOST field of a bound context's log follows the count, behind the writes that still wait (R407). -/
def State.lostPut (s : State) (c : Nat) : State :=
  let x := s.ctx c
  if x.part.isNone || s.status.any (fun w => w.ctx = c && w.group = logGroup) then s
  else match s.translate (.ctx c) (x.logBase + 16) .w with
    | .hit pa => if s.readNat pa 8 = x.log.lost then s else s.putPa pa (bytesOfNat 8 x.log.lost)
    | _ => s

/-- Where a record of `total` items goes in a ring of `size` entries of which `used` are taken, the next one at `at0`: how many pad entries come
before it, and how many of its items are written; none where its header has no room (R407). -/
def logPlace (size used at0 total : Nat) : Option (Nat × Nat) :=
  let free := size - used
  if free = 0 then none
  else if at0 + min (total + 1) free ≤ size then some (0, min total (free - 1))
  else if size - at0 < free then some (size - at0, min total (free - (size - at0) - 1))
  else none

/-- Place a record in a context's log whose RIDX is known (R407); with it how many items are written, and the address of the first item entry. -/
def State.logAt (s : State) (c ridx : Nat) (r : LogRec) : State × Nat × Nat :=
  let x := s.ctx c
  let size := (x.logBytes - 64) / 32
  let w0 := x.log.widx
  let total := r.entries.length
  match logPlace size (w0 - ridx) (w0 % size) total with
  | none =>
    let lost := x.log.lost + total + 1
    ((s.onCtx c fun x => { x with log := { x.log with lost := lost } }).logPut c (x.logBase + 16) (bytesOfNat 8 lost) 0, 0, 0)
  | some (pads, n) =>
    let start := w0 + pads
    let place (k : Nat) : Nat := x.logBase + 64 + 32 * ((start + k) % size)
    let s := (upFrom w0 pads).foldl (fun s k => s.logPut c (x.logBase + 64 + 32 * (k % size)) padEntry 0) s
    let s := s.logPut c (place 0) (r.header n total) 1
    let s := ((r.entries.take n).zip (upFrom 1 n)).foldl (fun s e => s.logPut c (place e.2) e.1 1) s
    let s := s.onCtx c fun x => { x with log := { x.log with widx := start + 1 + n, lost := x.log.lost + (total - n), recs := x.log.recs + 1 } }
    let s := s.logPut c (x.logBase + 16) (bytesOfNat 8 (s.ctx c).log.lost ++ bytesOfNat 8 (x.log.recs + 1)) 0
    let s := s.logPut c x.logBase (bytesOfNat 8 (start + 1 + n)) 0
    let s := if w0 = ridx then s.send (.interrupt c 1) else s
    (s, n, if n = 0 then 0 else place 1)

/-- The context whose log takes the records of a context: with VF Enable clear, the PF's (R398). -/
def State.logCtx (s : State) (c : Nat) : Nat := if s.vfEnable then c else 0

/-- Whether no record waits for RIDX before a new one. -/
def State.logClear (s : State) (c : Nat) : Bool :=
  !s.status.any fun w => w.ctx = c && match w.what with | .record _ => true | _ => false

/-- RIDX of a bound context's log as an agent that waits with `gs` reads it: none while its translation is missing. A log whose RIDX may not be read
has no room. DEDUCED: log entry 127. -/
def State.logRidx (s : State) (c : Nat) (gs : List Granule) : Option (Option Nat) :=
  match s.translateFor (.ctx c) gs ((s.ctx c).logBase + 8) .r with
  | .hit pa => some (some ((s.correct pa 8).readNat pa 8))
  | .refused => some none
  | .miss => none

/-- Write a record to a bound context's log, or lose it whole (R407). -/
def State.logPlaced (s : State) (c : Nat) (ridx : Option Nat) (r : LogRec) : State × Nat × Nat :=
  match ridx with
  | some n => s.logAt c n r
  | none => (s.loseLog c (r.entries.length + 1), 0, 0)

/-- Append a record to a context's log; it waits where RIDX cannot be read yet, and up to 256 records wait for the bind of an unbound context (R407).
DESIGN CHOICE: log entry 73. -/
def State.logWrite (s : State) (c : Nat) (r : LogRec) : State :=
  let c := s.logCtx c
  let x := s.ctx c
  if x.part.isSome then
    match (if s.logClear c then s.logRidx c [] else none) with
    | some n => (s.logPlaced c n r).1
    | none =>
      let g := s.granulesOf [] [(x.logBase + 8, .r)]
      { s.askAll (.ctx c) g with status := s.status
          ++ [{ ctx := c, space := .ctx c, addr := x.logBase + 8, what := .record r, group := logGroup, wait := g }] }
  else if x.held.length < 256 then s.onCtx c fun x => { x with held := x.held ++ [r] }
  else s.loseLog c (r.entries.length + 1)

/-- The WHO field of a record about a home party (R408). -/
def whoOf (c core hp index : Nat) : W64 :=
  BitVec.ofNat 64 (c % 64 + core % 16 * 2 ^ 6 + dieOf core % 2 * 2 ^ 10 + hp % 32 * 2 ^ 11 + index % 2 ^ 32 * 2 ^ 16)

/-! The device's own status writes (R339). -/

/-- A status write that the device drops (R339, R408). -/
def State.dropWrite (s : State) (w : StatusWrite) (c : TrapCode) : State :=
  s.logWrite w.ctx { kind := 0x81, code := trapNum c, tag := w.tag, who := whoOf w.ctx 0 0 0, clk := s.clk
                     items := [{ ikind := 8, code := c, loc := w.packet, addr := w.addr }] }

/-- Perform one status write at a translated address. -/
def State.statusAt (s : State) (w : StatusWrite) (pa : Nat) : State :=
  let s := s.touchLine pa none true
  let s := match w.what with | .bytes _ => s | _ => s.correct pa 8
  let join := fun (s : State) (n : Nat) (atomic : Bool) => if w.group = logGroup then s else s.joinSignal w.ctx pa n atomic
  match w.what with
  | .bytes bs => join (s.putPa pa bs) bs.length false
  | .add v =>
    if s.poisoned pa 8 then s.dropWrite w .poison
    else join (s.putPa pa (bytesOfNat 8 ((s.readNat pa 8 + v.toNat) % 2 ^ 64))) 8 true
  | .max v =>
    if s.poisoned pa 8 then s.dropWrite w .poison
    else join (s.putPa pa (bytesOfNat 8 (max (s.readNat pa 8) v.toNat))) 8 true
  | .record r => (s.logPlaced w.ctx (some ((s.correct pa 8).readNat pa 8)) r).1

/-- Perform a status write, drop it with a record, or keep it waiting (R339). -/
def State.statusTry (s : State) (w : StatusWrite) : State × Option StatusWrite :=
  let need : Need := match w.what with | .record _ => .r | _ => .w
  let drop := fun (c : TrapCode) => match w.what with
    | .record r => s.loseLog w.ctx (r.entries.length + 1)
    | _ => if w.group = logGroup then s.loseLog w.ctx w.packet else s.dropWrite w c
  match s.translateFor w.space w.wait w.addr need with
  | .hit pa =>
    match s.lost (s.ctx w.ctx).tenant pa with
    | some c => (drop c, none)
    | none => (s.statusAt w pa, none)
  | .refused => (drop .accessViolation, none)
  | .miss =>
    let g := s.granulesOf [] [(w.addr, need)]
    (s.askAll w.space g, some { w with wait := g })

/-- A status write joins the writes of its structure, in order (R339). -/
def State.statusPut (s : State) (w : StatusWrite) : State :=
  if s.status.any fun x => x.ctx = w.ctx && x.group = w.group then { s with status := s.status ++ [w] }
  else match s.statusTry w with
    | (s, none) => s
    | (s, some w) => { s with status := s.status ++ [w] }

/-- Perform every waiting status write whose translation has come; later writes of a structure that still waits stay behind it. -/
def State.statusDrain (s : State) : State :=
  let logs := (s.status.filter fun w => w.group = logGroup).map (·.ctx)
  logs.foldl (fun s c => s.lostPut c) (s.status.foldl (fun s w => s.statusPut w) { s with status := [] })

/-! Completion blocks (R30, R341). -/

def blockPut (s : State) (c : Nat) (b : Block) (off : Nat) (k : StatusKind) (pk : Nat) : State :=
  match b.addr with
  | none => s
  | some a => s.statusPut { ctx := c, space := .ctx c, addr := a + off, what := k, group := a + 1, packet := pk, tag := b.tag }

/-- Zero the whole block when its unit is accepted (R30). -/
def blockClear (s : State) (c : Nat) (b : Block) (pk : Nat) : State := blockPut s c b 0 (.bytes (List.replicate 32 0)) pk

/-- STATUS and FIRSTTRAP, written last (R30). -/
def blockStatus (s : State) (c : Nat) (b : Block) (pk : Nat) : State :=
  blockPut (blockPut s c b 0x19 (.bytes [byteOf b.first]) pk) c b 0x18 (.bytes [byteOf b.status]) pk

/-- Count children that ended (which = 0), stopped (1) or were withdrawn (2). -/
def Block.bump (b : Block) (which n : Nat) : Block :=
  match which with
  | 0 => { b with done := b.done + n }
  | 1 => { b with stop := b.stop + n }
  | _ => { b with wdr := b.wdr + n }

def Block.settled (b : Block) : Bool := b.done + b.stop + b.wdr = b.total

/-! Queues: retiring packets (R332, R338). -/

/-- The index of the lowest packet whose bytes the device still needs (R332). -/
def Queue.readIndex (q : Queue) : Nat :=
  match q.packets.find? fun p => p.state = .fetched || p.state = .parsing with
  | some p => p.idx
  | none => q.fetch

/-- Write RDIDX when it has moved (R332). -/
def State.queueIndex (s : State) (c k : Nat) : State :=
  match s.queue? c k with
  | none => s
  | some q =>
    if q.readIndex = q.rdidx then s
    else (s.onQueue c k fun q => { q with rdidx := q.readIndex }).statusPut
      { ctx := c, space := .ctx c, addr := q.rdAddr, what := .bytes (bytesOfNat 8 q.readIndex), group := q.rdAddr + 1, packet := q.readIndex - 1 }

/-- The status record QLOG, written for a packet (R338, R339). -/
def State.queueLog (s : State) (c k pk : Nat) : State :=
  match s.queue? c k with
  | none => s
  | some q => s.statusPut { ctx := c, space := .ctx c, addr := q.logAddr, group := q.logAddr + 1, packet := pk
                            what := .bytes (bytesOfNat 8 q.rejIdx ++ [byteOf q.reason] ++ bytesOfNat 7 0
                              ++ bytesOfNat 8 q.rejCnt ++ bytesOfNat 8 q.supCnt) }

/-- A packet retires: QDONE rises by 1, and RDIDX follows (R332). -/
def State.retire (s : State) (c k idx : Nat) : State :=
  match s.queue? c k with
  | none => s
  | some q =>
    if q.packets.any fun p => p.idx = idx then
      let s := s.onQueue c k fun q => { q with packets := q.packets.filter fun p => p.idx ≠ idx }
      let s := s.statusPut { ctx := c, space := .ctx c, addr := q.doneAddr, what := .add 1, group := q.doneAddr + 1, packet := idx }
      s.queueIndex c k
    else s

/-- A packet is rejected: QLOG records it, and it retires without effect (R338). -/
def State.reject (s : State) (c k idx reason : Nat) : State :=
  let s := s.onQueue c k fun q => { q with rejIdx := idx, reason := reason, rejCnt := q.rejCnt + 1 }
  (s.queueLog c k idx).retire c k idx

/-- A packet is withdrawn (R337, R344). -/
def State.withdrawPacket (s : State) (c k idx : Nat) : State :=
  let s := s.onQueue c k fun q => { q with supCnt := q.supCnt + 1 }
  (s.queueLog c k idx).retire c k idx

def State.retireOf (s : State) (c : Nat) (q p : Option Nat) : State :=
  match q, p with
  | some k, some i => s.retire c k i
  | _, _ => s

/-! Jobs, phases, graphs and launches come to their ends (R28, R341, R343). -/

/-- The packet whose work a graph is, or the job that it belongs to. -/
def State.graphPacket (s : State) (g : Graph) : Option Nat := g.packet.or ((g.jid.bind s.job?).bind (·.packet))

/-- The packet from whose work a launch descends, through at most `n` launches that LAUNCH issued (R339, R344). -/
def State.launchPacket (s : State) : Nat → Launch → Option Nat
  | 0, l => l.packet
  | n + 1, l => (l.packet.or ((l.gid.bind s.graph?).bind s.graphPacket)).or ((l.parent.bind s.launch?).bind (s.launchPacket n))

/-- The index that a record names for a launch's status writes; 0 where no packet carried it. -/
def State.packetOf (s : State) (l : Launch) : Nat := (s.launchPacket s.launches.length l).getD 0

/-- A job whose phases are all accounted for writes its STATUS (R341, R343). -/
def State.jobCheck (s : State) (jid : Nat) : State :=
  match s.job? jid with
  | none => s
  | some j =>
    if j.block.settled && j.block.status = 0 then
      let st := if j.cancel then 2 else if j.block.done = j.block.total && !j.failed then 1 else 3
      let b := { j.block with status := st }
      let s := s.onJob jid fun j => { j with block := b }
      let s := blockStatus s j.ctx b (j.packet.getD 0)
      (s.retireOf j.ctx j.queue j.packet)
    else s

def nodeFinal (n : Node) : Bool := 1 ≤ n.status && n.status ≤ 4

/-- Nodes whose dependences ended other than complete are withdrawn, in ascending index order (R341). -/
def withdrawNodes (nodes : List Node) : List Node :=
  nodes.foldl (fun acc n =>
    let lostDep := n.deps.any fun d => match acc[d]? with | some x => nodeFinal x && x.status ≠ 1 | none => false
    acc ++ [if n.status = 0 && lostDep then { n with status := 2 } else n]) []

/-- Count a graph's nodes into its block: complete, begun and ended otherwise, never begun (R341). -/
def graphCounts (nodes : List Node) : Nat × Nat × Nat :=
  ((nodes.filter fun n => n.status = 1).length,
   (nodes.filter fun n => (n.status = 2 || n.status = 3) && n.lid.isSome).length,
   (nodes.filter fun n => (n.status = 2 && n.lid.isNone) || n.status = 4).length)

/-- A graph is brought up to date with its nodes, and writes its STATUS when all have ended (R341). DEDUCED: log entry 64. -/
def State.graphCheck (s : State) (gid : Nat) : State :=
  match s.graph? gid with
  | none => s
  | some g =>
    let nodes := withdrawNodes g.nodes
    let (d, st, w) := graphCounts nodes
    let add := fun (s : State) (off now old : Nat) =>
      if now = old then s else blockPut s g.ctx g.block off (.add (BitVec.ofNat 64 (now - old))) ((s.graphPacket g).getD 0)
    let s := add (add (add s 0 d g.block.done) 8 st g.block.stop) 16 w g.block.wdr
    let b := { g.block with done := d, stop := st, wdr := w, total := nodes.length }
    let fin := nodes.all nodeFinal && g.block.status = 0
    let code := if d = nodes.length then 1 else if g.cancel || nodes.any (·.cancelled) then 2 else 3
    let b := if fin then { b with status := code } else b
    let s := s.onGraph gid fun g => { g with nodes := nodes, block := b }
    if fin then (blockStatus s g.ctx b ((s.graphPacket g).getD 0)).retireOf g.ctx g.queue g.packet else s

/-- Record how a launch ended in its node of its graph, and whether by a cancel; one that was withdrawn before it began counts as never begun
(R28, R341). -/
def State.nodeEnded (s : State) (gid lid status : Nat) (cancelled : Bool) : State :=
  let none_ := status = 2 && ((s.launch? lid).any fun l => l.block.done + l.block.stop = 0)
  let mark := fun (n : Node) => { n with status := status, lid := if none_ then none else n.lid, cancelled := cancelled }
  (s.onGraph gid fun g => { g with nodes := modifyWhere (fun n => n.lid = some lid) mark g.nodes }).graphCheck gid

/-- The message that ends a near-data task's command (R318, R319). A launch that was cancelled or killed has no trap code to give: the command fails with
ACCESS_VIOLATION. DESIGN CHOICE: log entry 135. -/
def State.taskEnded (s : State) (l : Launch) (status : Nat) : State :=
  match l.task with
  | none => s
  | some t =>
    let fail : Option TrapCode := if status = 1 then none else
      match [TrapCode.poison, .accessViolation, .extentGone, .expanderLost, .badCairn, .illegalEncoding, .misaligned,
        .software, .breakpoint, .tempUnset, .stallShort, .pressTouch, .sheetMismatch, .satArmed, .ropeTimeout, .viral,
        .queueQuota, .auditMismatch, .collFail, .taskTagFail].find? fun c => trapNum c = l.block.first with
      | some c => some c
      | none => some .accessViolation
    let s := { s with mem := s.mem.filter fun c => !decide (taskPa l.lid ≤ c.1 ∧ c.1 < taskPa (l.lid + 1)) }
    s.send (.ndtDone t.src t.op fail (if status = 1 then t.result else []))

/-- A launch whose formes are all accounted for writes its STATUS, and what hangs on it follows: its packet, its graph's node, its
tail launches and its task (R30, R332, R341, R369, R318). -/
def State.launchCheck (s : State) (lid : Nat) : State :=
  match s.launch? lid with
  | none => s
  | some l =>
    if l.block.settled && l.block.status = 0 then
      let st := if l.failed then 3 else if l.cancel then 2 else 1
      let b := { l.block with status := st }
      let s := s.onLaunch lid fun l => { l with block := b }
      let s := blockStatus s l.ctx b (s.packetOf l)
      let s := s.taskEnded l st
      let s := s.retireOf l.ctx l.queue l.packet
      let s := match l.gid with | some g => s.nodeEnded g lid st (st = 2) | none => s
      let tails := s.launches.filter fun t => t.tail = some lid && t.block.status = 0
      tails.foldl (fun s t =>
        if st = 1 then s.onLaunch t.lid fun t => { t with tail := none }
        else
          let b := { t.block with wdr := t.block.total, status := 2 }
          let s := s.onLaunch t.lid fun t => { t with tail := none, block := b, next := t.block.total, cancel := true }
          let s := blockPut s t.ctx t.block 16 (.add (BitVec.ofNat 64 t.block.total)) (s.packetOf t)
          let s := blockStatus s t.ctx b (s.packetOf t)
          match t.gid with | some g => s.nodeEnded g t.lid 2 (st = 2) | none => s) s
    else s

/-- Count `n` formes of a launch as ended (0), stopped (1) or withdrawn (2) (R30). -/
def State.launchCount (s : State) (lid which n : Nat) : State :=
  if n = 0 then s.launchCheck lid else
  match s.launch? lid with
  | none => s
  | some l =>
    let s := s.onLaunch lid fun l => { l with block := l.block.bump which n }
    (blockPut s l.ctx l.block (8 * which) (.add (BitVec.ofNat 64 n)) (s.packetOf l)).launchCheck lid

/-- Set FIRSTTRAP unless an earlier trap set it (R30, R403). -/
def State.firstTrap (s : State) (lid code : Nat) : State :=
  s.onLaunch lid fun l => if l.block.first = 0 then { l with block := { l.block with first := code } } else l

/-! Items that fail (R401). -/

/-- Where a forme is or was: its launch, core and index, while it or a collective step of it goes on. -/
def State.trace (s : State) (fid : Nat) : Option Ghost :=
  match s.forme? fid with
  | some f => some ⟨fid, f.lid, f.core, f.index⟩
  | none => s.ghosts.find? fun g => g.fid = fid

/-- A failure record with no party (R401, R408). -/
def State.itemRecord (s : State) (fid hp : Nat) (its : List Item) : State :=
  match its with
  | [] => s
  | it :: _ =>
    match s.trace fid with
    | none => s.logWrite 0 { kind := 0x81, code := trapNum it.code, clk := s.clk, items := its }
    | some g =>
      match s.launch? g.lid with
      | none => s.logWrite 0 { kind := 0x81, code := trapNum it.code, who := whoOf 0 g.core hp g.index, clk := s.clk, items := its }
      | some l => s.logWrite l.ctx { kind := 0x81, code := trapNum it.code, tag := l.record.tag
                                     who := whoOf l.ctx g.core hp g.index, clk := s.clk, items := its }

/-- The items of a home party with no party left: a record, and the forme counts as stopped. Its launch ends with STATUS 3, unless its STATUS is
there already; that holds too where the forme has ended, and been counted, before a collective step of it fails (R401). -/
def State.orphanItems (s : State) (fid hp : Nat) (its : List Item) : State :=
  match its, s.trace fid with
  | it :: _, some g =>
    let s := (s.itemRecord fid hp its).onForme fid fun f => { f with failedTo := true }
    if (s.launch? g.lid).any fun l => l.block.status = 0 then
      (s.onLaunch g.lid fun l => { l with failed := true }).firstTrap g.lid (trapNum it.code)
    else s
  | _, _ => s.itemRecord fid hp its

def State.siblings (s : State) (fid hp : Nat) : List Party := s.parties.filter fun p => p.fid = fid && p.hp = hp

/-- Make a boundary trap due for a party (R401, R402). -/
def State.due (s : State) (pid : Nat) (x : Pending) : State := s.onParty pid fun p => { p with pending := addPending p.pending x }

/-- The lowest-numbered of some parties, by party slot (R401). DEDUCED: log entry 118. -/
def lowestNumbered (p : Party) (ps : List Party) : Party := ps.foldl (fun m q => if q.slot < m.slot then q else m) p

/-- An item for the lowest-numbered live party of a home party, or for nobody (R401). -/
def State.itemToHome (s : State) (fid hp : Nat) (it : Item) : State :=
  match s.siblings fid hp with
  | [] => s.orphanItems fid hp [it]
  | p :: ps => s.due (lowestNumbered p ps).pid { code := it.code, items := [it] }

/-- A dirty line dropped with its memory (R303, R401). -/
def State.itemToOwner (s : State) (owner : Option Nat) (it : Item) : State :=
  match owner with
  | none => s.logWrite 0 { kind := 0x81, code := trapNum it.code, clk := s.clk, items := [it] }
  | some fid =>
    match s.forme? fid with
    | none => s.logWrite 0 { kind := 0x81, code := trapNum it.code, clk := s.clk, items := [it] }
    | some _ =>
      match s.parties.filter fun p => p.fid = fid with
      | [] => s.orphanItems fid 0 [it]
      | p :: ps => s.due (lowestNumbered p ps).pid { code := it.code, items := [it] }

/-! Registers of a home party (R39). -/

def Home.row? (h : Home) (r : BitVec 8) (comp : Nat) : Option VRow := h.rows.find? fun x => x.reg = r && x.comp = comp
def Home.footprint (h : Home) : Nat := h.rows.length
def Home.readersOf (h : Home) (r : BitVec 8) : List Nat := ((h.readers.find? fun x => x.1 = r).map (·.2)).getD []

/-- Unmap a register with its shadows (R39). -/
def Home.unmap (h : Home) (r : BitVec 8) : Home :=
  { h with rows := h.rows.filter fun x => x.reg ≠ r, readers := h.readers.filter fun x => x.1 ≠ r }

/-- A party leaves a register's reader set; the last one frees the register (R39). -/
def Home.dropReader (h : Home) (r : BitVec 8) (pid : Nat) : Home :=
  let l := (h.readersOf r).filter (· ≠ pid)
  if (h.readers.any fun x => x.1 = r) && l.isEmpty then h.unmap r
  else { h with readers := modifyWhere (fun x => x.1 = r) (fun x => (x.1, l)) h.readers }

/-- A party that ends leaves every reader set (R39). -/
def Home.dropParty (h : Home) (pid : Nat) : Home := h.readers.foldl (fun h x => h.dropReader x.1 pid) h

/-! Ropes (R351). -/

/-- The traps that the parties released by a rope take (R46). -/
def satArmedDue (f : Forme) : Bool := f.flags.getLsbD 0 && f.flags.getLsbD 8

/-- Everything whose accesses count as a party's own: it, and what it came from. -/
def Party.ancestry (p : Party) (now : Nat) : List (Nat × Nat) := (p.pid, now + 1) :: p.line

/-- Something that a party did at a step, against some ancestries. -/
def ownAct (l : List (Nat × Nat)) (pid at_ : Nat) : Bool := l.any fun e => e.1 = pid && decide (at_ < e.2)

/-! The order of accesses, as far as synchronisation needs it (R252, R253); the rest is in Order.lean. -/

def State.dieOfForme (s : State) (fid : Nat) : Nat := ((s.forme? fid).map fun f => dieOf f.core).getD 0

/-- A point of a party's program order that orders its accesses joins the graph (R253). -/
def State.joinMark (s : State) (p : Party) (f : Act → Act) : State :=
  if s.alone then s
  else { s with acts := s.acts ++ [f { id := s.actId, at_ := s.freeCtr, pid := p.pid, line := p.ancestry s.freeCtr, fid := p.fid, hp := p.hp, die := s.dieOfForme p.fid }]
                actId := s.actId + 1 }

/-- The party's plain stores are visible from now on (R252). -/
def State.publish (s : State) (line : List (Nat × Nat)) : State :=
  if s.acts.isEmpty then s
  else { s with acts := s.acts.map fun x => if x.seen.isNone && ownAct line x.pid x.at_ then { x with seen := some s.clk } else x }

/-- A party arrives at a rope or a phase barrier: a release, and its plain stores are visible (R252, R253). -/
def State.joinArrival (s : State) (p : Party) (scope : Nat) (at_ : Nat × Nat) : State :=
  (s.publish (p.ancestry s.freeCtr)).joinMark p fun x => { x with rel := some scope, sync := some at_ }

/-- Some parties go on past a rope or a phase barrier: an acquire after the arrivals there that count (R253). -/
def State.joinPassing (s : State) (l : List Party) (scope : Nat) (at_ : Nat × Nat) (counts : Act → Bool) : State :=
  l.foldl (fun s p => s.joinMark p fun x => { x with acq := some scope, deps := (s.acts.filter fun y => y.sync = some at_ && counts y).map (·.id) }) s

/-- The party's stores before a step are ordered before the accesses of its later operations (R253). -/
def Party.ordered (p : Party) (t : Nat) : Party := { p with cmdReady := max p.cmdReady t, cmdSettled := max p.cmdSettled t, cmdLoads := max p.cmdLoads t }

/-- The step of something noted under a number. -/
def notedAt (l : List (Nat × Nat)) (k : Nat) : Nat := ((l.find? fun x => x.1 = k).map (·.2)).getD 0
def noteAt (l : List (Nat × Nat)) (k t : Nat) : List (Nat × Nat) := (k, t) :: l.filter fun x => x.1 ≠ k

/-- What a party must see once it has passed a release (R45, R211): the flags set before it, and the last key that it or a party that the rope
involved wrote before it, unless it has written one since; a key that another party wrote stays possible. -/
def Party.passed (p : Party) (k : Nat) (x : Freed) (log : List KeyWrite) (now : Nat) : Party :=
  let own := fun (k : KeyWrite) => ownAct (p.ancestry now) k.by_ k.at_
  let joined := fun (k : KeyWrite) => ownAct x.joined k.by_ k.at_
  let p := if p.arrSince.contains k then p.ordered (notedAt p.arrAt k) else p
  { p with seen := p.seen ||| x.flags
           key := if (log.take (log.length - x.keys.length)).any own then p.key
             else match x.keys.find? fun k => own k || joined k with | some k => some k.key | none => p.key
           rivals := p.rivals.filter fun k => !joined k }

/-- The parties that the release of a rope's generation involves: those whose home parties' arrivals it counts, and those that wait for it. -/
def State.ropeParties (s : State) (fid k : Nat) (r : Rope) : List Party :=
  s.parties.filter fun p => p.fid = fid && (p.wait = .rope k (some r.gen) || r.counted.any fun x => x.1 = p.hp && x.2 = some r.gen)

/-- Release generation GEN of rope `k`: its waiters go on (R351, R46). DEDUCED: log entry 33. -/
def State.ropeRelease (s : State) (fid k : Nat) : State :=
  match (s.forme? fid).bind fun f => (f.ropes[k]?).map fun r => (f, r) with
  | none => s
  | some (f, r) =>
    let armed := satArmedDue f
    let go := fun (p : Party) => p.fid = fid && p.wait = .rope k (some r.gen)
    let left := !r.arrived.isEmpty || s.parties.any fun p => !go p && p.fid = fid && (match p.wait with | .rope j _ => j = k | _ => false)
    let now := s.freeCtr
    let counts := fun (hp : Nat) => r.counted.any fun x => x.1 = hp && x.2 = some r.gen
    let x : Freed := { gen := r.gen, flags := f.flags, keys := f.keyLog, joined := ((s.ropeParties fid k r).flatMap fun p => p.ancestry now) ++ (r.came.filter fun e => counts e.1).flatMap (·.2) }
    let s := s.onForme fid fun f => { f with ropes := f.ropes.modify k fun r =>
      { r with cnt := 0, gen := r.gen + 1, watch := (if left then some (0, s.wall) else none), freed := x :: r.freed, came := r.came.filter fun e => !counts e.1 } }
    let s := s.joinPassing (s.parties.filter go) 1 (fid, k) fun y => ownAct x.joined y.pid y.at_
    { s with parties := s.parties.map fun p => if go p then
        { p.passed k x f.keyLog now with
          wait := .none
          arrSince := p.arrSince.filter (· ≠ k)
          pending := (if armed then addPending p.pending { code := .satArmed } else p.pending) } else p }

/-- Count a home party's arrival once every live party of it has recorded one (R351). -/
def State.ropeCount (s : State) (fid hp k : Nat) : State :=
  match (s.forme? fid).bind fun f => f.ropes[k]? with
  | none => s
  | some r =>
    let sibs := s.siblings fid hp
    if !sibs.isEmpty && (sibs.all fun p => r.arrived.contains p.pid) then
      let s := s.onForme fid fun f => { f with ropes := f.ropes.modify k fun r =>
        { r with cnt := r.cnt + 1, arrived := r.arrived.filter fun a => !sibs.any fun p => p.pid = a,
                 counted := (hp, some r.gen) :: r.counted.filter fun x => x.1 ≠ hp } }
      let s := { s with parties := s.parties.map fun p =>
        if p.fid = fid && p.hp = hp && p.wait = .rope k none then { p with wait := .rope k (some r.gen) } else p }
      if r.cnt + 1 ≥ r.expect then s.ropeRelease fid k else s
    else s

/-- Count every rope's arrivals again after a party of the home party has gone. -/
def State.ropesRecount (s : State) (fid hp : Nat) : State :=
  match s.forme? fid with
  | none => s
  | some f => (upFrom 0 f.ropes.length).foldl (fun s k => s.ropeCount fid hp k) s

/-! The end of formes, and stopping them (R27, R28, R29, R401). -/

def Op.unfinished (o : Op) : Bool := o.phase ≠ .ended

/-- Lane-private memory of a home party is dropped, its lines discarded with what they alone hold: each byte that its lanes' lines hold holds what it
held before the launch or a value that a lane stored there (R239). -/
def State.dropPrivate (s : State) (f : Forme) (hp : Nat) : State :=
  match (if s.dvsec.viral then none else s.launch? f.lid) with
  | none => s
  | some l =>
    let mine := fun (w : Writer) => match w with | .lane _ g h => g = f.fid && h = hp | _ => false
    let during := s.past.filter fun x => x.key % 2 = 0 && decide (l.since ≤ x.at_)
    let lines := (during.filter fun x => mine x.writer).map fun x => lineOf (x.key / 2)
    let keys := ((during.map (·.key)).filter fun k => lines.contains (lineOf (k / 2))).foldl (fun ks k => if ks.contains k then ks else ks ++ [k]) []
    let s := keys.foldl (fun (s : State) k =>
      let ws := during.filter fun x => x.key = k
      let values := (ws.map (·.old)).tail ++ [s.readPa (k / 2)]
      let vs := (ws.map (·.old)).take 1 ++ ((ws.zip values).filter fun x => mine x.1.writer).map (·.2)
      s.writePa (k / 2) (s.oneOf (1700000 + k) 0 vs)) s
    let held := fun (a : Nat) => s.lines.any fun n => n.priv = some (f.fid, hp) && n.addr = lineOf a
    { s with unhomed := s.unhomed.filter fun x => !held x.1, lines := s.lines.filter fun n => n.priv ≠ some (f.fid, hp) }

def State.dropFormePrivate (s : State) (f : Forme) : State :=
  match s.launch? f.lid with
  | none => s
  | some l => (upFrom 0 l.record.parties).foldl (fun s hp => s.dropPrivate f hp) s

/-- What the items of a stopped forme's operations say (R29, R203): the operation's kind, and where it stood. -/
def Op.stopItem (o : Op) : Item :=
  { ikind := (match o.queue with | 0 => 2 | 4 => 4 | _ => 3)
    code := .cancelled
    loc := (match o.queue with
      | 0 => o.word
      | 4 => (match o.work with | .coll _ n .. => n | _ => 0)
      | _ => o.ident.toNat)
    batch := o.batch.getD 0 }

/-- The failed item that an operation is (R199, R282, R297, R408). -/
def Op.failItem (o : Op) (c : TrapCode) (addr : Nat) : Item := { o.stopItem with code := c, addr := addr }

/-- Whether a home party has issued collective steps that are not at their end yet (R297). -/
def Home.awaitsSteps (h : Home) : Bool := h.steps.any fun x => x.issued && !x.received && x.failed.isNone

/-- A forme ends when its parties have exited and its operations have ended; its completion is counted (R27, R30). -/
def State.formeCheck (s : State) (fid : Nat) : State :=
  match s.forme? fid with
  | none => s
  | some f =>
    if s.parties.any (fun p => p.fid = fid) || s.ops.any (fun o => o.fid = fid && o.unfinished) || s.accepting.any (fun x => x.fid = fid) then s
    else
      let s := if f.stop.isSome then s.dropFormePrivate f else s
      let left := s.ops.filter fun o => o.fid = fid && o.fail.isSome && !o.told
      let s := left.foldl (fun s o => match o.fail with
        | some (c, a) => s.orphanItems fid o.hp [o.failItem c a]
        | none => s) s
      let which := match s.forme? fid with
        | some f => if f.stop.isSome then (if f.begun then 1 else 2) else if f.failedTo then 1 else 0
        | none => 0
      let stays := fun (h : Home) => h.fid = fid && h.awaitsSteps
      let s := { s with formes := s.formes.filter (fun x => x.fid ≠ fid), homes := s.homes.filter (fun h => h.fid ≠ fid || stays h)
                        ghosts := if s.homes.any stays then ⟨fid, f.lid, f.core, f.index⟩ :: s.ghosts else s.ghosts
                        ops := s.ops.filter (fun o => o.fid ≠ fid), longs := s.longs.filter (fun x => x.fid ≠ fid)
                        lines := s.lines.map fun (l : Line) => if l.owner = some fid && l.cls = 2 then { l with pinned := none, cls := 0 } else l }
      s.launchCount f.lid which 1

/-- Account for the operations of a stopped forme whose parties have gone: those that have not started are withdrawn, and failures that no WAITB has
delivered are listed; one that runs is stopped at its group boundary, and listed then (R29, R203, R401). -/
def State.stopOps (s : State) (fid : Nat) : State :=
  let mine := s.ops.filter fun o => o.fid = fid && o.phase ≠ .running
  let items := fun (hp : Nat) => (mine.filter fun o => o.hp = hp).filterMap fun o => match o.fail with
    | some (c, a) => some (o.failItem c a)
    | none => if o.unfinished then some o.stopItem else none
  let s := (mine.map (·.hp)).eraseDups.foldl (fun s hp => s.itemRecord fid hp (items hp)) s
  let runs := (s.forme? fid).any fun f => f.place = .placed && f.leave.all fun x => x.how = .drain
  let stop := fun (o : Op) => if o.fid = fid && o.queue = 0 && o.stopAt.isNone then { o with stopAt := some (if runs then o.step + 1 else o.step) } else o
  { s with ops := (s.ops.filter fun o => o.fid ≠ fid || o.phase = .running).map stop }

/-- The items of what is due to a party, or of the trap that it is taking. -/
def Party.dueItems (p : Party) : List Item := (p.trap.toList.flatMap (·.items)) ++ p.pending.flatMap (·.items)

/-- A stopped forme's parties have gone: its operations are accounted for, and it ends when the last of them has (R27, R29). -/
def State.stopped (s : State) (fid : Nat) : State := if s.parties.any fun p => p.fid = fid then s else (s.stopOps fid).formeCheck fid

/-- Stop a forme: each party at its next pitch boundary, or where it is parked (R28). A party in the middle of a pitch goes when
the pitch ends. What was due to a party is listed (R401). -/
def State.stopForme (s : State) (fid : Nat) (code : TrapCode) : State :=
  let running := fun (p : Party) => p.pitch.isSome && p.park.isEmpty
  let s := s.onForme fid fun f => { f with stop := some (f.stop.getD code) }
  let halt := fun (p : Party) => if p.fid = fid then { p with stopped := true } else p
  let s := (s.parties.filter fun (p : Party) => p.fid = fid && !running p).foldl (fun s p => s.itemRecord fid p.hp p.dueItems) s
  let s := { s with parties := (s.parties.filter fun (p : Party) => p.fid ≠ fid || running p).map halt }
  let s := { s with issue := match s.issue with | some i => (if s.parties.any fun p => p.pid = i then some i else none) | none => none }
  s.stopped fid

/-- Stop every begun forme of a launch and withdraw the rest (R28, R344). -/
def State.stopLaunch (s : State) (lid : Nat) (code : TrapCode) : State :=
  match s.launch? lid with
  | none => s
  | some l =>
    let rest := l.block.total - l.next
    let s := s.onLaunch lid fun l => { l with next := l.block.total }
    let s := (s.formes.filter fun f => f.lid = lid).foldl (fun s f => s.stopForme f.fid code) s
    s.launchCount lid 2 rest

/-- A trap without a handler, or one taken inside it, ends the launch with STATUS 3 (R403). -/
def State.failLaunch (s : State) (lid : Nat) (code : TrapCode) : State :=
  let s := s.onLaunch lid fun l => { l with failed := true }
  (s.firstTrap lid (trapNum code)).stopLaunch lid code

/-! Taking a trap and returning from one (R403 to R406). -/

/-- Whether a boundary trap of this code is taken even inside the handler (R403). -/
def takenInHandler (boundary : Bool) (c : TrapCode) : Bool := !boundary || c = .ropeTimeout

/-- The other parties that are in the middle of a pitch go on issuing. -/
def State.otherIssue (s : State) (pid : Nat) : Option Nat :=
  (s.parties.find? fun p => p.pid ≠ pid && p.pitch.isSome && p.park.isEmpty).map (·.pid)

/-- A party takes a trap: its launch ends, or the record is written, the trap state and the frame are saved, and the
handler is entered (R403). The party waits where RIDX of the log cannot be read yet. DESIGN CHOICE: log entry 37. DEDUCED: log entry 127. -/
def State.takeTrap (s : State) (pid : Nat) (boundary : Bool) (t : Trap) : State :=
  match s.party? pid with
  | none => s
  | some p =>
    match (s.forme? p.fid).bind fun f => (s.launch? f.lid).map fun l => (f, l) with
    | none => s
    | some (f, l) =>
      if l.record.handler = 0 || (p.hnd && takenInHandler boundary t.code) then
        let s := (s.itemRecord p.fid p.hp t.items).onParty pid fun p => { p with pitch := none }
        let s := { s with issue := s.otherIssue pid }
        s.failLaunch l.lid t.code
      else
        let c := s.logCtx l.ctx
        let r : LogRec := { kind := 0x80, code := trapNum t.code, tag := l.record.tag, who := whoOf l.ctx f.core p.hp f.index, clk := s.clk, items := t.items }
        match (if !(s.ctx c).part.isSome then some (s.logWrite l.ctx r, 0, 0)
               else if !s.logClear c then none else (s.logRidx c p.park).map fun n => s.logPlaced c n r) with
        | none =>
          let g := s.granulesOf [] [((s.ctx c).logBase + 8, .r)]
          let s := (s.askAll (.ctx c) g).onParty pid fun p => { p with trap := some t, wait := .none, park := g, pitch := none }
          { s with issue := s.otherIssue pid }
        | some (s, n, items) =>
        let waits := (s.status.filter fun w => w.ctx = c && w.group = logGroup).flatMap (·.wait)
        let s := s.onParty pid fun p => { p with
          trap := none
          tstat := BitVec.ofNat 64 (n * 2 ^ 32 + t.word * 2 ^ 8 + trapNum t.code)
          tinfo := BitVec.ofNat 64 (t.tinfo.getD (Config.freeNat s.freeCtr 1000))
          titems := BitVec.ofNat 64 items
          tmask := t.tmask
          frame := some t.resume
          frameTemps := t.temps
          kept := []
          tpc := BitVec.ofNat 64 t.resume.cairn
          tpcSet := false
          hnd := true
          pc := l.record.handler
          entry := .block
          skip := 0
          wait := .none
          park := waits
          pitch := none }
        { s with issue := s.otherIssue pid }

/-- Return from a handler (R406): the resume point of the frame, with its temporaries, or the block at tpc. What is due is taken
before the resume point issues, by BOUNDARY_TRAP. The target has been checked. -/
def State.returnTrap (s : State) (pid : Nat) : State :=
  s.onParty pid fun p =>
    if p.tpcSet then
      { p with hnd := false, pc := p.tpc.toNat, entry := .block, skip := 0, kept := [], frame := none, frameTemps := [], pitch := none }
    else match p.frame with
      | none => { p with hnd := false, pitch := none }
      | some r => { p with hnd := false, pc := r.pc, entry := r.entry, cairn := r.cairn, skip := r.word, met := r.met, kept := p.frameTemps, frame := none, frameTemps := [], pitch := none }

/-! Flags (R45). -/

def flagSat : BitVec 9 := 1
def flagInv : BitVec 9 := 2
def flagDz : BitVec 9 := 4
def flagOvf : BitVec 9 := 8
def flagUnf : BitVec 9 := 16
def flagInx : BitVec 9 := 32

/-- Setting flags is an OR into the forme's register (R45). -/
def State.setFlags (s : State) (fid : Nat) (f : BitVec 9) : State := s.onForme fid fun x => { x with flags := x.flags ||| f }

/-- A party's instruction sets flags, which its own later reads return (R45). -/
def State.setFlagsBy (s : State) (pid fid : Nat) (f : BitVec 9) : State :=
  if f = 0 then s else (s.setFlags fid f).onParty pid fun p => { p with seen := p.seen ||| f }

end Sys2Proof.Machine
end

