-- ==== Sys2Proof/Machine/Tables.lean ====
section
/-! DEFINITION. The tables and coefficients of R123 to R128, each the integer nearest the real expression that the rule
gives, worked out from that expression. -/
namespace Sys2Proof.Machine

def ex2Table0 : List Int :=
  [17592186044416, 17783752390528, 17977404757381, 18173165860252, 18371058661769, 18571106374610, 18773332464219, 18977760651566,
   19184414915921, 19393319497675, 19604498901178, 19817977897613, 20033781527906, 20251935105661, 20472464220127, 20695394739203,
   20920752812471, 21148564874263, 21378857646762, 21611658143136, 21846993670708, 22084891834158, 22325380538761, 22568487993661,
   22814242715178, 23062673530157, 23313809579344, 23567680320808, 23824315533396, 24083745320225, 24346000112214, 24611110671650]

def ex2Table1 : List Int :=
  [24879108095804, 25150023820570, 25423889624159, 25700737630824, 25980600314626, 26263510503246, 26549501381838, 26838606496915,
   27130859760289, 27426295453047, 27724948229574, 28026853121614, 28332045542385, 28640561290725, 28952436555301, 29267707918846,
   29586412362452, 29908587269910, 30234270432094, 30563500051394, 30896314746195, 31232753555409, 31572855943056, 31916661802889,
   32264211463077, 32615545690931, 32970705697691, 33329733143360, 33692670141585, 34059559264602, 34430443548229, 34805366496913]

/-- R123: the integer nearest 2^44 x 2^(j/64), j from 0 to 63. -/
def ex2Table : List Int := ex2Table0 ++ ex2Table1

def ex2Coef0 : List Int :=
  [12193974156573, 4226109403225, 976438605861, 169203916661, 23456643555]

/-- R123: the integer nearest 2^44 x (ln 2)^k / k!, k from 1 to 5. -/
def ex2Coef : List Int := ex2Coef0

def lg2Table0 : List Int :=
  [197512060723, 587983578480, 972538252123, 1351354723536, 1724598842679, 2092432900565, 2455014157811, 2812486583420,
   3164994277173, 3512673558303, 3855653268864, 4194060551714, 4528014518756, 4857632299001, 5183022648853, 5504296034062,
   5821550812287, 6134891159087, 6444409348877, 6750196353760, 7052345293537, 7350938991903, 7646061208031, 7937790096489,
   8226203785187, 8511377909426, 8793380858164, 9072288195463, 9348160899391, 9621068588624, 9891074097167, 10158235110206]

def lg2Table1 : List Int :=
  [10422615061146, 10684267078053, 10943251857161, 11199619036886, 11453423066679, 11704713674440, 11953540300341, 12199951918442,
   12443994385450, 12685710138730, 12925147961260, 13162347901628, 13397350987155, 13630199149162, 13860927310560, 14089578765948,
   14316189500772, 14540795803185, 14763428767549, 14984127623381, 15202923481039, 15419849998717, 15634937809467, 15848217137257,
   16059717705424, 16269474387841, 16477509978317, 16683852138263, 16888533537425, 17091574194967, 17293004830092, 17492849154169]

/-- R124: the integer nearest -2^44 x log2(H / 2^24), j from 0 to 63. -/
def lg2Table : List Int := lg2Table0 ++ lg2Table1

def lg2Coef0 : List Int :=
  [25380159564675, -12690079782337, 8460053188225, -6345039891169, 5076031912935]

/-- R124: the integer nearest 2^44 x (-1)^(k+1) / (k x ln 2), k from 1 to 5. -/
def lg2Coef : List Int := lg2Coef0

def sinTable0 : List Int :=
  [0, 431733857934, 863207655535, 1294161489122, 1724335768219, 2153471371927, 2581309805004, 3007593353576,
   3432065240373, 3854469779402, 4274552529964, 4692060449918, 5106742048104, 5518347535834, 5926628977352, 6331340439185,
   6732238138282, 7129080588859, 7521628747863, 7909646158961, 8292899094974, 8671156698663, 9044191121792, 9411777662374,
   9773694900020, 10129724829321, 10479652991160, 10823268601896, 11160364680335, 11490738172403, 11814190073462, 12130525548182]

def sinTable1 : List Int :=
  [12439554047902, 12741089425408, 13034950047064, 13320958902220, 13598943709836, 13868737022258, 14130176326084, 14383104140052,
   14627368109905, 14862821100161, 15089321282743, 15306732222411, 15514922958943, 15713768086025, 15903147826788, 16082948105957,
   16253060618567, 16413382895201, 16563818363715, 16704276407409, 16834672419607, 16954927854629, 17064970275096, 17164733395571,
   17254157122478, 17333187590310, 17401777194067, 17459884617936, 17507474860179, 17544519254212, 17570995485879, 17586887606887]

def sinTable2 : List Int :=
  [17592186044416, 17586887606887, 17570995485879, 17544519254212, 17507474860179, 17459884617936, 17401777194067, 17333187590310,
   17254157122478, 17164733395571, 17064970275096, 16954927854629, 16834672419607, 16704276407409, 16563818363715, 16413382895201,
   16253060618567, 16082948105957, 15903147826788, 15713768086025, 15514922958943, 15306732222411, 15089321282743, 14862821100161,
   14627368109905, 14383104140052, 14130176326084, 13868737022258, 13598943709836, 13320958902220, 13034950047064, 12741089425408]

def sinTable3 : List Int :=
  [12439554047902, 12130525548182, 11814190073462, 11490738172403, 11160364680335, 10823268601896, 10479652991160, 10129724829321,
   9773694900020, 9411777662374, 9044191121792, 8671156698663, 8292899094974, 7909646158961, 7521628747863, 7129080588859,
   6732238138282, 6331340439185, 5926628977352, 5518347535834, 5106742048104, 4692060449918, 4274552529964, 3854469779402,
   3432065240373, 3007593353576, 2581309805004, 2153471371927, 1724335768219, 1294161489122, 863207655535, 431733857934]

def sinTable4 : List Int :=
  [0, -431733857934, -863207655535, -1294161489122, -1724335768219, -2153471371927, -2581309805004, -3007593353576,
   -3432065240373, -3854469779402, -4274552529964, -4692060449918, -5106742048104, -5518347535834, -5926628977352, -6331340439185,
   -6732238138282, -7129080588859, -7521628747863, -7909646158961, -8292899094974, -8671156698663, -9044191121792, -9411777662374,
   -9773694900020, -10129724829321, -10479652991160, -10823268601896, -11160364680335, -11490738172403, -11814190073462, -12130525548182]

def sinTable5 : List Int :=
  [-12439554047902, -12741089425408, -13034950047064, -13320958902220, -13598943709836, -13868737022258, -14130176326084, -14383104140052,
   -14627368109905, -14862821100161, -15089321282743, -15306732222411, -15514922958943, -15713768086025, -15903147826788, -16082948105957,
   -16253060618567, -16413382895201, -16563818363715, -16704276407409, -16834672419607, -16954927854629, -17064970275096, -17164733395571,
   -17254157122478, -17333187590310, -17401777194067, -17459884617936, -17507474860179, -17544519254212, -17570995485879, -17586887606887]

def sinTable6 : List Int :=
  [-17592186044416, -17586887606887, -17570995485879, -17544519254212, -17507474860179, -17459884617936, -17401777194067, -17333187590310,
   -17254157122478, -17164733395571, -17064970275096, -16954927854629, -16834672419607, -16704276407409, -16563818363715, -16413382895201,
   -16253060618567, -16082948105957, -15903147826788, -15713768086025, -15514922958943, -15306732222411, -15089321282743, -14862821100161,
   -14627368109905, -14383104140052, -14130176326084, -13868737022258, -13598943709836, -13320958902220, -13034950047064, -12741089425408]

def sinTable7 : List Int :=
  [-12439554047902, -12130525548182, -11814190073462, -11490738172403, -11160364680335, -10823268601896, -10479652991160, -10129724829321,
   -9773694900020, -9411777662374, -9044191121792, -8671156698663, -8292899094974, -7909646158961, -7521628747863, -7129080588859,
   -6732238138282, -6331340439185, -5926628977352, -5518347535834, -5106742048104, -4692060449918, -4274552529964, -3854469779402,
   -3432065240373, -3007593353576, -2581309805004, -2153471371927, -1724335768219, -1294161489122, -863207655535, -431733857934]

/-- R125: the integer nearest 2^44 x sin(2 x pi x j/256), j from 0 to 255. -/
def sinTable : List Int := sinTable0 ++ sinTable1 ++ sinTable2 ++ sinTable3 ++ sinTable4 ++ sinTable5 ++ sinTable6 ++ sinTable7

def cosTable0 : List Int :=
  [17592186044416, 17586887606887, 17570995485879, 17544519254212, 17507474860179, 17459884617936, 17401777194067, 17333187590310,
   17254157122478, 17164733395571, 17064970275096, 16954927854629, 16834672419607, 16704276407409, 16563818363715, 16413382895201,
   16253060618567, 16082948105957, 15903147826788, 15713768086025, 15514922958943, 15306732222411, 15089321282743, 14862821100161,
   14627368109905, 14383104140052, 14130176326084, 13868737022258, 13598943709836, 13320958902220, 13034950047064, 12741089425408]

def cosTable1 : List Int :=
  [12439554047902, 12130525548182, 11814190073462, 11490738172403, 11160364680335, 10823268601896, 10479652991160, 10129724829321,
   9773694900020, 9411777662374, 9044191121792, 8671156698663, 8292899094974, 7909646158961, 7521628747863, 7129080588859,
   6732238138282, 6331340439185, 5926628977352, 5518347535834, 5106742048104, 4692060449918, 4274552529964, 3854469779402,
   3432065240373, 3007593353576, 2581309805004, 2153471371927, 1724335768219, 1294161489122, 863207655535, 431733857934]

def cosTable2 : List Int :=
  [0, -431733857934, -863207655535, -1294161489122, -1724335768219, -2153471371927, -2581309805004, -3007593353576,
   -3432065240373, -3854469779402, -4274552529964, -4692060449918, -5106742048104, -5518347535834, -5926628977352, -6331340439185,
   -6732238138282, -7129080588859, -7521628747863, -7909646158961, -8292899094974, -8671156698663, -9044191121792, -9411777662374,
   -9773694900020, -10129724829321, -10479652991160, -10823268601896, -11160364680335, -11490738172403, -11814190073462, -12130525548182]

def cosTable3 : List Int :=
  [-12439554047902, -12741089425408, -13034950047064, -13320958902220, -13598943709836, -13868737022258, -14130176326084, -14383104140052,
   -14627368109905, -14862821100161, -15089321282743, -15306732222411, -15514922958943, -15713768086025, -15903147826788, -16082948105957,
   -16253060618567, -16413382895201, -16563818363715, -16704276407409, -16834672419607, -16954927854629, -17064970275096, -17164733395571,
   -17254157122478, -17333187590310, -17401777194067, -17459884617936, -17507474860179, -17544519254212, -17570995485879, -17586887606887]

def cosTable4 : List Int :=
  [-17592186044416, -17586887606887, -17570995485879, -17544519254212, -17507474860179, -17459884617936, -17401777194067, -17333187590310,
   -17254157122478, -17164733395571, -17064970275096, -16954927854629, -16834672419607, -16704276407409, -16563818363715, -16413382895201,
   -16253060618567, -16082948105957, -15903147826788, -15713768086025, -15514922958943, -15306732222411, -15089321282743, -14862821100161,
   -14627368109905, -14383104140052, -14130176326084, -13868737022258, -13598943709836, -13320958902220, -13034950047064, -12741089425408]

def cosTable5 : List Int :=
  [-12439554047902, -12130525548182, -11814190073462, -11490738172403, -11160364680335, -10823268601896, -10479652991160, -10129724829321,
   -9773694900020, -9411777662374, -9044191121792, -8671156698663, -8292899094974, -7909646158961, -7521628747863, -7129080588859,
   -6732238138282, -6331340439185, -5926628977352, -5518347535834, -5106742048104, -4692060449918, -4274552529964, -3854469779402,
   -3432065240373, -3007593353576, -2581309805004, -2153471371927, -1724335768219, -1294161489122, -863207655535, -431733857934]

def cosTable6 : List Int :=
  [0, 431733857934, 863207655535, 1294161489122, 1724335768219, 2153471371927, 2581309805004, 3007593353576,
   3432065240373, 3854469779402, 4274552529964, 4692060449918, 5106742048104, 5518347535834, 5926628977352, 6331340439185,
   6732238138282, 7129080588859, 7521628747863, 7909646158961, 8292899094974, 8671156698663, 9044191121792, 9411777662374,
   9773694900020, 10129724829321, 10479652991160, 10823268601896, 11160364680335, 11490738172403, 11814190073462, 12130525548182]

def cosTable7 : List Int :=
  [12439554047902, 12741089425408, 13034950047064, 13320958902220, 13598943709836, 13868737022258, 14130176326084, 14383104140052,
   14627368109905, 14862821100161, 15089321282743, 15306732222411, 15514922958943, 15713768086025, 15903147826788, 16082948105957,
   16253060618567, 16413382895201, 16563818363715, 16704276407409, 16834672419607, 16954927854629, 17064970275096, 17164733395571,
   17254157122478, 17333187590310, 17401777194067, 17459884617936, 17507474860179, 17544519254212, 17570995485879, 17586887606887]

/-- R125: the integer nearest 2^44 x cos(2 x pi x j/256), j from 0 to 255. -/
def cosTable : List Int := cosTable0 ++ cosTable1 ++ cosTable2 ++ cosTable3 ++ cosTable4 ++ cosTable5 ++ cosTable6 ++ cosTable7

def rsqTableEven0 : List Int :=
  [16777216, 16647660, 16521060, 16397305, 16276290, 16157916, 16042087, 15928714,
   15817711, 15708997, 15602494, 15498128, 15395829, 15295530, 15197165, 15100674,
   15005998, 14913081, 14821869, 14732310, 14644355, 14557957, 14473070, 14389651,
   14307658, 14227051, 14147791, 14069841, 13993165, 13917730, 13843502, 13770448]

def rsqTableEven1 : List Int :=
  [13698540, 13627746, 13558038, 13489389, 13421773, 13355163, 13289535, 13224866,
   13161131, 13098309, 13036378, 12975318, 12915107, 12855727, 12797158, 12739383,
   12682383, 12626142, 12570642, 12515868, 12461803, 12408433, 12355743, 12303719,
   12252346, 12201612, 12151502, 12102005, 12053108, 12004799, 11957066, 11909897]

def rsqTableEven2 : List Int :=
  [11863283]

/-- R128: the integer nearest 2^24 / sqrt(1 + j/64), j from 0 to 64. -/
def rsqTableEven : List Int := rsqTableEven0 ++ rsqTableEven1 ++ rsqTableEven2

def rsqTableOdd0 : List Int :=
  [11863283, 11771673, 11682154, 11594646, 11509075, 11425372, 11343468, 11263302,
   11184811, 11107938, 11032629, 10958832, 10886495, 10815573, 10746018, 10677789,
   10610843, 10545141, 10480644, 10417316, 10355123, 10294030, 10234006, 10175020,
   10117042, 10060044, 10003999, 9948880, 9894662, 9841321, 9788834, 9737177]

def rsqTableOdd1 : List Int :=
  [9686330, 9636271, 9586981, 9538439, 9490627, 9443526, 9397121, 9351392,
   9306325, 9261903, 9218111, 9174935, 9132360, 9090372, 9048957, 9008104,
   8967799, 8928030, 8888786, 8850055, 8811826, 8774087, 8736830, 8700043,
   8663717, 8627842, 8592410, 8557410, 8522834, 8488674, 8454922, 8421569]

def rsqTableOdd2 : List Int :=
  [8388608]

/-- R128: the integer nearest 2^24 / sqrt(2 x (1 + j/64)), j from 0 to 64. -/
def rsqTableOdd : List Int := rsqTableOdd0 ++ rsqTableOdd1 ++ rsqTableOdd2

/-- R125: floor(2^320 / (2 pi)). -/
def turnQ : Int := 339952895147018642535639799349517299692324064546005894715236429198937636543799886830530695754936

/-- R125: the integer nearest 2 x pi x 2^42. -/
def turnW : Int := 27633741218861

/-- R224: the integer nearest 2^44 x ln 2. -/
def ln2Fixed : Nat := 12193974156573

end Sys2Proof.Machine
end

