-- ==== Sys2Proof/Machine/Numbers.lean ====
section
/-! DEFINITION. Exact values, rounding and placing (R104 to R121), the BQ blocks, the functions and seeds (R122 to R128), the
press summation (R130, R131) and the coin generator (R133 to R135). -/
namespace Sys2Proof.Machine

/-! Exact values. -/

/-- An exact rational, (-1)^neg x num / den x 2^exp with den positive; a zero keeps its sign. -/
structure Rat2 where
  neg : Bool
  num : Nat
  den : Nat := 1
  exp : Int := 0
deriving DecidableEq, Repr

/-- The extended reals of R106 and R223. -/
inductive XR where
  | nan
  | inf (neg : Bool)
  | fin (q : Rat2)
deriving DecidableEq, Repr

def Rat2.zero (neg : Bool) : Rat2 := ⟨neg, 0, 1, 0⟩
def Rat2.isZero (q : Rat2) : Bool := q.num = 0
def Rat2.ofInt (i : Int) : Rat2 := ⟨decide (i < 0), i.natAbs, 1, 0⟩
def Rat2.scale (q : Rat2) (k : Int) : Rat2 := { q with exp := q.exp + k }
def Rat2.mul (a b : Rat2) : Rat2 := ⟨a.neg != b.neg, a.num * b.num, a.den * b.den, a.exp + b.exp⟩
def Rat2.div (a b : Rat2) : Rat2 := ⟨a.neg != b.neg, a.num * b.den, a.den * b.num, a.exp - b.exp⟩

/-- The signed numerator once the power of two is brought down to `e`, not above the value's own. -/
def Rat2.at (q : Rat2) (e : Int) : Int :=
  let n := (q.num * 2 ^ (q.exp - e).toNat : Nat)
  if q.neg then -(n : Int) else n

/-- An exact sum; a zero of terms of opposite sign is -0 only under RDN, and zeros of one sign keep it (R116, R157). -/
def Rat2.add (rdn : Bool) (a b : Rat2) : Rat2 :=
  let e := min a.exp b.exp
  let n := a.at e * b.den + b.at e * a.den
  if n = 0 then ⟨if a.num = 0 ∧ b.num = 0 ∧ a.neg = b.neg then a.neg else rdn, 0, 1, 0⟩
  else ⟨decide (n < 0), n.natAbs, a.den * b.den, e⟩

/-- Order of the values, zeros of both signs equal. -/
def Rat2.lt (a b : Rat2) : Bool :=
  let e := min a.exp b.exp
  decide (a.at e * b.den < b.at e * a.den)

def XR.isNan : XR → Bool | .nan => true | _ => false
def XR.isInf : XR → Bool | .inf _ => true | _ => false
def XR.isZero : XR → Bool | .fin q => q.isZero | _ => false
def XR.neg : XR → XR
  | .nan => .nan
  | .inf s => .inf (!s)
  | .fin q => .fin { q with neg := !q.neg }
def XR.sign : XR → Bool
  | .nan => false
  | .inf s => s
  | .fin q => q.neg

def XR.add (rdn : Bool) : XR → XR → XR
  | .nan, _ => .nan
  | _, .nan => .nan
  | .inf a, .inf b => if a = b then .inf a else .nan
  | .inf a, _ => .inf a
  | _, .inf b => .inf b
  | .fin a, .fin b => .fin (a.add rdn b)

def XR.mul : XR → XR → XR
  | .nan, _ => .nan
  | _, .nan => .nan
  | .inf a, .inf b => .inf (a != b)
  | .inf a, .fin q => if q.isZero then .nan else .inf (a != q.neg)
  | .fin q, .inf b => if q.isZero then .nan else .inf (q.neg != b)
  | .fin a, .fin b => .fin (a.mul b)

/-- Division as R223 extends it. -/
def XR.div : XR → XR → XR
  | .nan, _ => .nan
  | _, .nan => .nan
  | .inf _, .inf _ => .nan
  | .inf a, .fin q => .inf (a != q.neg)
  | .fin q, .inf b => .fin (.zero (q.neg != b))
  | .fin a, .fin b => if b.isZero then (if a.isZero then .nan else .inf (a.neg != b.neg)) else .fin (a.div b)

/-- a < b over the extended reals, false with a NaN. -/
def XR.lt : XR → XR → Bool
  | .nan, _ => false
  | _, .nan => false
  | .inf a, .inf b => a && !b
  | .inf a, .fin _ => a
  | .fin _, .inf b => !b
  | .fin a, .fin b => a.lt b

/-! Formats (R34, R104, R106, R111). -/

inductive Fmt where
  | fp32 | fp16 | bf16 | e4m3 | e5m2 | e2m1
  | int (signed : Bool) (bits : Nat)
  | bq (b : Nat)
deriving DecidableEq, Repr

/-- The FMT codes of R34. -/
def Fmt.ofCode : Nat → Option Fmt
  | 0x01 => some .fp32 | 0x02 => some .fp16 | 0x03 => some .bf16 | 0x04 => some .e4m3 | 0x05 => some .e5m2
  | 0x06 => some .e2m1
  | 0x20 => some (.int true 8) | 0x21 => some (.int true 16) | 0x22 => some (.int true 32) | 0x23 => some (.int true 64)
  | 0x28 => some (.int false 8) | 0x29 => some (.int false 16) | 0x2A => some (.int false 32) | 0x2B => some (.int false 64)
  | 0x10 => some (.bq 2) | 0x11 => some (.bq 3) | 0x12 => some (.bq 4) | 0x13 => some (.bq 5) | 0x14 => some (.bq 6)
  | 0x15 => some (.bq 7) | 0x16 => some (.bq 8)
  | _ => none

def Fmt.isBq : Fmt → Bool | .bq _ => true | _ => false
def Fmt.isInt : Fmt → Bool | .int _ _ => true | _ => false
/-- Whether an integer format, or a BQ mantissa, is two's complement (R104, R111). -/
def Fmt.signed : Fmt → Bool | .int s _ => s | _ => true

def Fmt.isFloat (f : Fmt) : Bool := !f.isBq && !f.isInt

/-- The layout of a floating format: exponent bits, fraction bits, bias, whether it has infinities, its canonical
NaN, and the encoding of its largest finite value (R106). -/
structure Layout where
  ebits : Nat
  f     : Nat
  bias  : Nat
  inf   : Bool
  nan   : Option Nat
  top   : Nat
deriving DecidableEq, Repr

def Fmt.layout : Fmt → Layout
  | .fp16 => ⟨5, 10, 15, true, some 0x7E00, 0x7BFF⟩
  | .bf16 => ⟨8, 7, 127, true, some 0x7FC0, 0x7F7F⟩
  | .e4m3 => ⟨4, 3, 7, false, some 0x7F, 0x7E⟩
  | .e5m2 => ⟨5, 2, 15, true, some 0x7E, 0x7B⟩
  | .e2m1 => ⟨2, 1, 1, false, none, 0x7⟩
  | _ => ⟨8, 23, 127, true, some 0x7FC00000, 0x7F7FFFFF⟩

/-- The width of an element in bits. -/
def Fmt.width : Fmt → Nat
  | .fp32 => 32 | .fp16 => 16 | .bf16 => 16 | .e4m3 => 8 | .e5m2 => 8 | .e2m1 => 4 | .int _ n => n | .bq b => b

def tyFmt : OpTy → Fmt
  | .i32 => .int true 32 | .n32 => .int false 32 | .i64 => .int true 64 | .n64 => .int false 64
  | .i16 => .int true 16 | .n16 => .int false 16 | .i8 => .int true 8 | .n8 => .int false 8
  | .f32 => .fp32 | .f16 => .fp16 | .b16 => .bf16 | .e4m3 => .e4m3 | .e5m2 => .e5m2 | .e2m1 => .e2m1

/-- The smallest normal exponent, 1 - bias. -/
def Layout.emin (l : Layout) : Int := 1 - l.bias

/-- The value of a finite encoding (R107). -/
def Layout.finite (l : Layout) (neg : Bool) (e f : Nat) : Rat2 :=
  if e = 0 then ⟨neg, f, 1, l.emin - l.f⟩ else ⟨neg, 2 ^ l.f + f, 1, (e : Int) - l.bias - l.f⟩

/-- An integer of `bits` bits read from its low bits (R105). -/
def intOf (signed : Bool) (bits w : Nat) : Int :=
  let u := w % 2 ^ bits
  if signed && decide (2 ^ (bits - 1) ≤ u) then (u : Int) - 2 ^ bits else u

/-- The exact value of an element, infinities and NaN kept (R106, R107, R108). -/
def valOf (fmt : Fmt) (w : Nat) : XR :=
  match fmt with
  | .int s n => .fin (.ofInt (intOf s n w))
  | .bq b => .fin (.ofInt (intOf true b w))
  | _ =>
    let l := fmt.layout
    let w := w % 2 ^ fmt.width
    let neg := decide (2 ^ (l.ebits + l.f) ≤ w)
    let e := w / 2 ^ l.f % 2 ^ l.ebits
    let f := w % 2 ^ l.f
    if l.inf && e = 2 ^ l.ebits - 1 then (if f = 0 then .inf neg else .nan)
    else if l.nan = some (w % 2 ^ (l.ebits + l.f)) then .nan
    else .fin (l.finite neg e f)

def val32 (w : W32) : XR := valOf .fp32 w.toNat

/-! Rounding (R116). -/

/-- floor(log2) of a positive natural, by its size. -/
def log2 (n : Nat) : Nat := n.log2

/-- floor(log2 |q|) of a nonzero value. -/
def Rat2.log2 (q : Rat2) : Int :=
  let g : Int := (Nat.log2 q.num : Int) - Nat.log2 q.den
  -- 2^g <= num/den may fail by one
  let low := if 0 ≤ g then decide (q.num < q.den * 2 ^ g.toNat) else decide (q.num * 2 ^ (-g).toNat < q.den)
  (if low then g - 1 else g) + q.exp

/-- |q| / 2^u as a whole part, and a remainder over a divisor. -/
def Rat2.units (q : Rat2) (u : Int) : Nat × Nat × Nat :=
  let k := q.exp - u
  let n := if 0 ≤ k then q.num * 2 ^ k.toNat else q.num
  let d := if 0 ≤ k then q.den else q.den * 2 ^ (-k).toNat
  (n / d, n % d, d)

/-- Whether a magnitude with whole part `n` and a remainder `r` of `d` is rounded away from zero. -/
def roundsUp (m : RmCode) (neg : Bool) (n r d : Nat) : Bool :=
  if r = 0 then false else
  match m with
  | .rz => false
  | .rup => !neg
  | .rdn => neg
  | .rna => decide (d ≤ 2 * r)
  | _ => decide (d < 2 * r) || (decide (d = 2 * r) && n % 2 = 1)

/-- Round a value to a multiple of 2^u. -/
def Rat2.roundAt (m : RmCode) (q : Rat2) (u : Int) : Rat2 :=
  let (n, r, d) := q.units u
  ⟨q.neg, if roundsUp m q.neg n r d then n + 1 else n, 1, u⟩

def Rat2.inexactAt (q : Rat2) (u : Int) : Bool := (q.units u).2.1 ≠ 0

/-- The unit in the last place of a floating format at a nonzero value, with the format's own subnormal range. -/
def Layout.unit (l : Layout) (q : Rat2) : Int := max q.log2 l.emin - l.f

/-- A value far outside every format's range stands for all beyond it: every mode rounds and places them alike. -/
def Rat2.tame (q : Rat2) : Rat2 :=
  if q.isZero then q
  else if 2000 < q.log2 then ⟨q.neg, 1, 1, 2000⟩
  else if q.log2 < -2000 then ⟨q.neg, 1, 1, -2000⟩
  else q

/-- round_to: the value of the target format, and INX and UNF (R116). -/
def roundTo (m : RmCode) (fmt : Fmt) (x : XR) : XR × BitVec 9 :=
  match x with
  | .nan => (.nan, 0)
  | .inf s => (.inf s, 0)
  | .fin q =>
    if q.isZero then (.fin (.zero q.neg), 0)
    else if fmt.isFloat then
      let l := fmt.layout
      let q := q.tame
      let u := l.unit q
      (.fin (q.roundAt m u), (if q.inexactAt u then flagInx else 0) ||| (if q.log2 < l.emin then flagUnf else 0))
    else (.fin (q.roundAt m 0), if q.inexactAt 0 then flagInx else 0)

/-- The integer that a rounded value is. -/
def Rat2.toInt (q : Rat2) : Int :=
  let n := (q.units 0).1
  if q.neg then -(n : Int) else n

/-- The encoding of a representable finite value (R106). -/
def Layout.encode (l : Layout) (q : Rat2) : Nat :=
  let s := if q.neg then 2 ^ (l.ebits + l.f) else 0
  if q.isZero then s else
  let n := (q.units (l.emin - l.f)).1
  -- in units of the smallest subnormal
  if n < 2 ^ l.f then s + n
  else
    let e := q.log2
    s + ((e - l.emin + 1).toNat * 2 ^ l.f + ((q.units (e - l.f)).1 - 2 ^ l.f))

def Layout.maxRat (l : Layout) (neg : Bool) : Rat2 := l.finite neg (l.top / 2 ^ l.f) (l.top % 2 ^ l.f)

/-- wrap_to an integer of `n` bits (R118). -/
def wrapTo (n : Nat) (x : Int) : Nat := (x % (2 ^ n : Int)).toNat

def intMax (signed : Bool) (n : Nat) : Int := if signed then 2 ^ (n - 1) - 1 else 2 ^ n - 1
def intMin (signed : Bool) (n : Nat) : Int := if signed then -(2 ^ (n - 1)) else 0

/-- sat_to: the bits of a rounded value in a format under SATM, and its flags (R117). -/
def satTo (fmt : Fmt) (satm : Bool) (y : XR) : Nat × BitVec 9 :=
  if !fmt.isFloat then
    let s := fmt.signed
    let n := fmt.width
    match y with
    | .nan => (0, flagSat)
    | .inf neg => (wrapTo n (if neg then intMin s n else intMax s n), flagSat)
    | .fin q =>
      let i := q.toInt
      if i < intMin s n then (wrapTo n (intMin s n), flagSat ||| flagInx)
      else if intMax s n < i then (wrapTo n (intMax s n), flagSat ||| flagInx)
      else (wrapTo n i, 0)
  else
    let l := fmt.layout
    let neg0 := 2 ^ (l.ebits + l.f)
    match y with
    | .nan => match l.nan with | some b => (b, 0) | none => (0, flagSat)
    | .inf neg =>
      if l.inf && satm then ((if neg then neg0 else 0) + (2 ^ l.ebits - 1) * 2 ^ l.f, 0)
      else ((if neg then neg0 else 0) + l.top, flagSat)
    | .fin q =>
      if (l.maxRat false).lt { q with neg := false } then
        if l.inf && satm then ((if q.neg then neg0 else 0) + (2 ^ l.ebits - 1) * 2 ^ l.f, flagOvf ||| flagInx)
        else ((if q.neg then neg0 else 0) + l.top, flagSat ||| flagInx)
      else (l.encode q, 0)

/-- sat_to(dsc, round_to(m, x)), the one operation that forms a rounded result (R117). -/
def place (fmt : Fmt) (satm : Bool) (m : RmCode) (x : XR) : Nat × BitVec 9 :=
  let (y, f) := roundTo m fmt x
  let (b, g) := satTo fmt satm y
  (b, f ||| g)

/-- Whether sat_to clamps a rounded value (the saturation row of R117), as R223 asks. -/
def clamped (fmt : Fmt) (satm : Bool) (m : RmCode) (x : XR) : Bool := (place fmt satm m x).2.getLsbD 0

/-- INV for a NaN that arose from operands none of which is a NaN (R108). -/
def invFlag (ops : List XR) (r : XR) : BitVec 9 := if r.isNan && !ops.any XR.isNan then flagInv else 0

/-- A floating result of an instruction that names no slot: (type, elementwise, SATM 1) (R118, R157). -/
def floatResult (fmt : Fmt) (m : RmCode) (ops : List XR) (x : XR) : Nat × BitVec 9 :=
  let (b, f) := place fmt true m x
  (b, f ||| invFlag ops x)

/-- The nearest integer of a value, ties to even (R121). -/
def intRne (q : Rat2) : Int := (q.roundAt .rne 0).toInt

/-- floor(a / 2^n) (R121). -/
def shrInt (a : Int) (n : Nat) : Int := a / 2 ^ n

/-- The fixed-point polynomial of R121. -/
def horner (c : List Int) (u : Int) (sh : Nat) : Int :=
  match c.reverse with
  | [] => 0
  | top :: rest => shrInt ((rest.foldl (fun acc k => k + shrInt (acc * u) sh) top) * u) sh

/-! The functions (R122 to R126). -/

/-- A nonzero finite FP32 value as M and e, with 2^23 <= M < 2^24 and value M x 2^(e - 23). -/
def normalised (q : Rat2) : Nat × Int :=
  let e := q.log2
  ((q.units (e - 23)).1, e)

def fp32Place (x : XR) : Nat × BitVec 9 := place .fp32 true .rne x

def ex2Exact (x : XR) : Nat × BitVec 9 :=
  match x with
  | .nan => (0x7FC00000, 0)
  | .inf neg => if neg then (0, 0) else (0x7F800000, 0)
  | .fin q =>
    if q.isZero then (0x3F800000, 0)
    else if !q.inexactAt 0 then fp32Place (.fin ⟨false, 1, 1, q.toInt⟩)
    else
      let big := intRne (q.scale 44)
      let n := shrInt big 44
      let f := big - n * 2 ^ 44
      let j := shrInt f 38
      let g := f - j * 2 ^ 38
      let t := ex2Table.getD j.toNat 0
      let mant := t + shrInt (t * horner ex2Coef g 44) 44
      fp32Place (.fin ⟨false, mant.toNat, 1, n - 44⟩)

def lg2Exact (x : XR) : Nat × BitVec 9 :=
  match x with
  | .nan => (0x7FC00000, 0)
  | .inf neg => if neg then (0x7FC00000, flagInv) else (0x7F800000, 0)
  | .fin q =>
    if q.isZero then (0xFF800000, flagDz)
    else if q.neg then (0x7FC00000, flagInv)
    else
      let (m, e) := normalised q
      if m = 2 ^ 23 then fp32Place (.fin (.ofInt e))
      else
        let j := shrInt m 17 - 64
        let h := intRne ⟨false, 2 ^ 24 * 128, (128 + 2 * j.toNat + 1), 0⟩
        let u := (m : Int) * h - 2 ^ 47
        let s := e * 2 ^ 44 + lg2Table.getD j.toNat 0 + horner lg2Coef u 47
        fp32Place (.fin (Rat2.scale (.ofInt s) (-44)))

/-- The sine and cosine of |x| >= 2^-12 in units of 2^-44 (R125). -/
def sinCosFixed (q : Rat2) : Int × Int :=
  let (m, e) := normalised q
  let big := (m : Int) * turnQ
  let k := 293 - e
  let rho := (if 0 ≤ k then shrInt big k.toNat else big * 2 ^ (-k).toNat) % 2 ^ 50
  let j := shrInt rho 42
  let d := rho - j * 2 ^ 42
  let phi := shrInt (d * turnW) 48
  let p2 := shrInt (phi * phi) 44
  let sixth := intRne ⟨false, 2 ^ 44, 6, 0⟩
  let a120 := intRne ⟨false, 2 ^ 44, 120, 0⟩
  let a24 := intRne ⟨false, 2 ^ 44, 24, 0⟩
  let a := sixth - shrInt (p2 * a120) 44
  let sp := phi - shrInt (shrInt (p2 * a) 44 * phi) 44
  let cm := -shrInt (p2 * (2 ^ 43 - shrInt (p2 * a24) 44)) 44
  let s := sinTable.getD j.toNat 0
  let c := cosTable.getD j.toNat 0
  (s + shrInt (s * cm) 44 + shrInt (c * sp) 44, c + shrInt (c * cm) 44 - shrInt (s * sp) 44)

/-- |x| < 2^-12 of a finite value. -/
def belowTiny (q : Rat2) : Bool := q.isZero || decide (q.log2 < -12)

def sinExact (x : XR) : Nat × BitVec 9 :=
  match x with
  | .nan => (0x7FC00000, 0)
  | .inf _ => (0x7FC00000, flagInv)
  | .fin q =>
    if belowTiny q then ((satTo .fp32 true (.fin q)).1, 0)
    else
      let y := (sinCosFixed q).1
      fp32Place (.fin (Rat2.scale ⟨decide (y < 0) != q.neg, y.natAbs, 1, 0⟩ (-44)))

def cosExact (x : XR) : Nat × BitVec 9 :=
  match x with
  | .nan => (0x7FC00000, 0)
  | .inf _ => (0x7FC00000, flagInv)
  | .fin q =>
    if belowTiny q then (0x3F800000, 0)
    else fp32Place (.fin (Rat2.scale (.ofInt (sinCosFixed q).2) (-44)))

/-! The seeds (R128). -/

def rcpSeed (x : XR) : Nat × BitVec 9 :=
  match x with
  | .nan => (0x7FC00000, 0)
  | .inf neg => (if neg then 0x80000000 else 0, 0)
  | .fin q =>
    if q.isZero then (if q.neg then 0xFF800000 else 0x7F800000, flagDz)
    else
      let (m, e) := normalised q
      let j := m / 2 ^ 17 - 64
      let d : Int := (m % 2 ^ 17 : Nat)
      let a := intRne ⟨false, 2 ^ 24 * 64, 64 + j, 0⟩
      let b := a - intRne ⟨false, 2 ^ 24 * 64, 64 + j + 1, 0⟩
      let y := a - shrInt (b * d) 17
      fp32Place (.fin ⟨q.neg, y.toNat, 1, -24 - e⟩)

def rsqSeed (x : XR) : Nat × BitVec 9 :=
  match x with
  | .nan => (0x7FC00000, 0)
  | .inf neg => if neg then (0x7FC00000, flagInv) else (0, 0)
  | .fin q =>
    if q.isZero then (if q.neg then 0xFF800000 else 0x7F800000, flagDz)
    else if q.neg then (0x7FC00000, flagInv)
    else
      let (m, e) := normalised q
      let p := e % 2
      let j := m / 2 ^ 17 - 64
      let d : Int := (m % 2 ^ 17 : Nat)
      let t := if p = 0 then rsqTableEven else rsqTableOdd
      let a := t.getD j 0
      let b := a - t.getD (j + 1) 0
      let y := a - shrInt (b * d) 17
      fp32Place (.fin ⟨false, y.toNat, 1, -24 - (e - p) / 2⟩)

/-! BQ blocks (R111 to R115). -/

/-- XR of a rounded-and-clamped mantissa. -/
def bqMant (b : Nat) (m : RmCode) (xe : Int) (x : XR) : XR × BitVec 9 :=
  match x with
  | .fin q => let s := q.scale (-(xe - 127 - ((b : Int) - 2))); (.fin (s.roundAt m 0), 0)
  | y => (y, 0)

/-- The exponent byte, the mantissas and the flags of a block of values (R114). -/
def bqEncode (b : Nat) (m : RmCode) (x : List XR) : Nat × List Int × BitVec 9 :=
  if x.any XR.isNan then (0xFF, x.map fun _ => 0, 0)
  else if x.all XR.isZero then (0, x.map fun _ => 0, 0)
  else
    let (xe0, unf) : Int × BitVec 9 :=
      if x.any XR.isInf then (254, 0)
      else
        let e := x.foldl (fun acc y => match y with | .fin q => if q.isZero then acc else max acc q.log2 | _ => acc) (-100000)
        let xe := e + 127
        (min 254 (max 1 xe), if xe < 1 then flagUnf else 0)
    let mants := fun (xe : Int) => x.map fun y => (bqMant b m xe y).1
    let above := fun (y : XR) => match y with
      | .fin q => decide ((2 : Int) ^ (b - 1) - 1 < q.toInt)
      | .inf neg => !neg
      | .nan => false
    let xe := if xe0 < 254 && (mants xe0).any above then xe0 + 1 else xe0
    let qs := (mants xe).map fun y => satTo (.bq b) false y
    let q := qs.map fun y => intOf true b y.1
    let sat := if qs.any fun y => y.2.getLsbD 0 then flagSat else 0
    let differs := (x.zip q).any fun p => match p.1 with
      | .fin v => (v.add false { Rat2.scale (.ofInt p.2) (xe - 127 - ((b : Int) - 2)) with neg := decide (0 ≤ p.2) }).num ≠ 0
      | _ => false
    (xe.toNat, q, unf ||| sat ||| (if differs then flagInx else 0))

/-- One element of a block (R111, R115). -/
def bqValue (b xe : Nat) (q : Int) : XR :=
  if xe = 0xFF then .nan else .fin (Rat2.scale (.ofInt q) ((xe : Int) - 127 - ((b : Int) - 2)))

/-- Element `k` of a block's mantissa area, one little-endian bit string (R112). -/
def bqField (b k : Nat) (area : Nat) : Int := intOf true b (area / 2 ^ (b * k))

/-- The mantissa area of a block as one number (R112). -/
def bqArea (b : Nat) (q : List Int) : Nat := (q.zip (upFrom 0 q.length)).foldl (fun a p => a + wrapTo b p.1 * 2 ^ (b * p.2)) 0

/-! The press summation (R130, R131). -/

def truncAt (q : Rat2) (u : Int) : Rat2 := ⟨q.neg, (q.units u).1, 1, u⟩

/-- One group of exact products added to an entry; the flags are OVF and INV only. `inv` says that a NaN product arose from
operands none of which is a NaN. -/
def pressGroup (acc : W32) (p : List XR) (inv : Bool) : W32 × BitVec 9 :=
  let hasPos := p.any fun x => x = .inf false
  let hasNeg := p.any fun x => x = .inf true
  let anyNan := p.any XR.isNan
  let inv0 := inv || (hasPos && hasNeg)
  let a := val32 acc
  if anyNan || (hasPos && hasNeg) then
    (0x7FC00000, if inv0 then flagInv else 0)
  else if hasPos || hasNeg then
    let g := XR.inf hasNeg
    let r := XR.add false a g
    let clash := r.isNan && !a.isNan
    (BitVec.ofNat 32 (satTo .fp32 true r).1, if inv0 || clash then flagInv else 0)
  else
    let nz := p.filterMap fun x => match x with | .fin q => if q.isZero then none else some q | _ => none
    match nz with
    | [] => (acc, if inv0 then flagInv else 0)
    | q :: qs =>
      let emax := qs.foldl (fun e x => max e x.log2) q.log2
      let g := nz.foldl (fun g x => g.add false (truncAt x (emax - 47))) (.zero false)
      if g.isZero then (acc, if inv0 then flagInv else 0)
      else
        let (b, f) := place .fp32 true .rne (XR.add false a (.fin g))
        (BitVec.ofNat 32 b, (f &&& flagOvf) ||| (if inv0 then flagInv else 0))

/-! The coin generator (R133 to R135). -/

def rotl32 (x : W32) (n : Nat) : W32 := x.rotateLeft n

def coinRA : List Nat := [13, 7, 29, 11, 19, 5, 23, 17, 3, 27]
def coinRB : List Nat := [9, 21, 14, 30, 6, 18, 25, 2, 15, 10]

def coinRounds (ka kb : W32) : Nat → List Nat → List Nat → W32 × W32 × W32 × W32 → W32
  | i, ra :: ras, rb :: rbs, (x0, x1, x2, x3) =>
    let x0 := x0 + x1 + ka + BitVec.ofNat 32 i * 0xB5AD4ECF#32
    let x1 := rotl32 x1 ra ^^^ x0
    let x2 := x2 + x3 + kb + BitVec.ofNat 32 i * 0x37C162E9#32
    let x3 := rotl32 x3 rb ^^^ x2
    coinRounds ka kb (i + 1) ras rbs (x0, x3, x2, x1)
  | _, _, _, (x0, _, x2, _) => x0 ^^^ x2

def coinKeyed (k : W64) (x0 x1 x2 x3 : W32) : W32 :=
  coinRounds (k.extractLsb' 0 32) (k.extractLsb' 32 32) 0 coinRA coinRB (x0, x1, x2, x3)

/-- u01(w), an exact real strictly between 0 and 1 (R135). -/
def u01 (w : W32) : Rat2 := ⟨false, 2 * w.toNat + 1, 1, -33⟩

/-- The kept positions of a group of four columns (R182). -/
def kept (seed : W64) (spr r q : Nat) : List Nat :=
  let h := (coinKeyed seed (BitVec.ofNat 32 q) (BitVec.ofNat 32 r) 0x6A09E667 (BitVec.ofNat 32 spr)).toNat
  if spr = 1 then [[0, 1], [0, 2], [0, 3], [1, 2], [1, 3], [2, 3]].getD (h % 6) []
  else [h % 4]

end Sys2Proof.Machine
end

