-- ==== Sys2Proof/Machine/Order.lean ====
section
/-! DEFINITION. The memory model: which accesses come before which (R246 to R250, R253 to R255), and the values that a read may find (R250 to R252).
The accesses that have been made, each location's writes in coherence order, are a graph; a choice is open where it leaves the graph of every scope
instance without a cycle, which is when every instance has the total order that R250 asks for. -/
namespace Sys2Proof.Machine

def runKeys (l : List (Nat × Nat)) : List Nat := l.flatMap fun r => (upFrom 0 (r.2 / 2)).map fun j => r.1 + 2 * j

/-- Whether a key lies in some runs. -/
def keysMeet (k : Nat) (l : List (Nat × Nat)) : Bool := overlap [(k, 2)] l

/-- The agent of an operation. -/
def opAgent (id : Nat) : Nat := 2 ^ 40 + id

/-- The rank of a scope: .PTY to .SYS (R247). -/
def scopeRank : Scope → Nat | .pty => 0 | .frm => 1 | .die => 2 | .dev => 3 | .sys => 4

/-- The scope that an immediate holds. -/
def imScope (imm : BitVec 24) : Scope :=
  match (imm.extractLsb' 0 3).toNat with | 0 => .pty | 1 => .frm | 2 => .die | 3 => .dev | _ => .sys

/-! Local order (R248). -/

/-- Whether two agents share the level of a scope (R247). -/
def Act.shares (j : Nat) (x y : Act) : Bool :=
  match j with
  | 0 => x.fid = y.fid && x.hp = y.hp
  | 1 => x.fid = y.fid
  | 2 => x.die = y.die
  | _ => true

/-- Whether two accesses belong to one instruction: its lanes are unordered (R246). -/
def Act.sameWord (x y : Act) : Bool := x.pid = y.pid && x.at_ = y.at_

/-- Whether an access precedes another in their agent's program order. -/
def Act.precedes (x y : Act) : Bool := decide (x.id < y.id) && !x.sameWord y && ownAct y.line x.pid x.at_

/-- A fence of the agent stands between two accesses whose kinds it names, at a scope of at least rank `j` (R274). -/
def Act.fenced (l : List Act) (j : Nat) (x y : Act) : Bool :=
  l.any fun f => match f.fence with
    | none => false
    | some (k, kinds) =>
      let load := fun (z : Act) => !z.reads.isEmpty || z.atomic.isSome
      let store := fun (z : Act) => !z.writes.isEmpty || z.atomic.isSome
      decide (j ≤ k) && ((load x && load y && kinds.getLsbD 0) || (load x && store y && kinds.getLsbD 1) || (store x && load y && kinds.getLsbD 2)
        || (store x && store y && kinds.getLsbD 3)) && x.precedes f && f.precedes y

/-- The local orders of an agent that count in an instance of rank `j` (R226, R248); dependences stand in `deps`. A read that follows its party's own
write to the byte need not come after that write (R250). DEDUCED: log entry 109. -/
def Act.ordered (l : List Act) (j : Nat) (x y : Act) : Bool :=
  if x.sameWord y then
    x.lane = y.lane && x.comp ≠ y.comp && ((x.comp = 0 && x.acq.any fun k => decide (j ≤ k)) || (y.comp = 0 && y.rel.any fun k => decide (j ≤ k)))
  else x.precedes y && ((overlap (x.reads ++ x.writes) (y.reads ++ y.writes) && (x.writes.isEmpty || y.reads.isEmpty))
    || (x.acq.any fun k => decide (j ≤ k)) || (y.rel.any fun k => decide (j ≤ k)) || Act.fenced l j x y)

/-! Order in a scope instance (R250). -/

/-- Whether an access directly comes before another in the instance of rank `j` that holds the agent `p`: of the agents outside it only the writes
count, and none of their local orders. -/
def Act.leads (l : List Act) (j : Nat) (p x y : Act) : Bool :=
  (!x.writes.isEmpty || x.shares j p) && x.id ≠ y.id
    && (y.after.contains x.id || (y.shares j p && (y.deps.contains x.id || x.ordered l j y)))

/-- With what comes before some accesses in an instance, at most `n` links away. -/
def actsBefore (l : List Act) (j : Nat) (p : Act) : Nat → List Nat → List Nat
  | 0, seen => seen
  | n + 1, seen =>
    let more := (l.filter fun x => !seen.contains x.id && l.any fun y => seen.contains y.id && x.leads l j p y).map (·.id)
    if more.isEmpty then seen else actsBefore l j p n (seen ++ more)

/-- Whether one of some accesses `ws` comes before the access `y` of its own agent, or before or among some others `kept`, in some instance that
holds the agent. -/
def Act.bound (l : List Act) (y : Act) (kept ws : List Nat) : Bool :=
  (upFrom 0 5).any fun j =>
    let back := actsBefore l j y l.length (kept ++ (l.filter fun x => x.leads l j y y).map (·.id))
    ws.any back.contains

/-! What a read finds (R250 to R252). -/

/-- Whether an access made now may still miss a write: a plain store is visible once it is published, and any other within 20,000 clocks to the agents
in its scope, except while its party is parked or pre-empted (R252). DEDUCED: log entry 109. -/
def State.fresh (s : State) (y w : Act) : Bool :=
  match w.seen with
  | none => true
  | some t => w.strong && (decide (s.clk < t + 20000) || !w.shares w.scope y
      || (s.party? w.pid).any fun p => !p.park.isEmpty || (s.forme? p.fid).any fun f => f.place ≠ .placed)

/-- Whether two atomics are atomic with respect to each other (R251). -/
def Act.mutual (x y : Act) : Bool :=
  match x.atomic, y.atomic with
  | some i, some j => x.shares i y && y.shares j x
  | _, _ => true

/-- Whether an access of the graph made a write of the past. -/
def Act.made (w : Act) (x : Past) : Bool := x.act = w.id + 1

/-- Whether nothing that is not in a list has written, after a write, a byte of it that the access reads. -/
def State.tail (s : State) (y w : Act) (l : List Act) : Bool :=
  ((s.acts.dropWhile fun x => x.id ≠ w.id).all fun x => x.id = w.id || !overlap x.writes w.writes || !overlap x.writes y.reads || l.any fun z => z.id = x.id)
    && ((runKeys y.reads).filter fun k => overlap [(k, 2)] w.writes).all fun k =>
      ((s.past.filter fun x => x.key = k).dropWhile fun x => !w.made x).all fun x => l.any fun z => z.made x

/-- Where a write would stand just before another: after every access to its bytes that does not come after that one. -/
def State.placeBefore (s : State) (y w : Act) : List Nat :=
  (s.acts.filter fun x => x.id ≠ w.id && !x.after.contains w.id && overlap (x.reads ++ x.writes) y.writes).map (·.id)

/-- Whether an atomic can stand, with its read and its write, just before some writes that it misses, the first of them `w` (R251). -/
def State.standsBefore (s : State) (y w : Act) (l : List Act) : Bool :=
  let z := { y with writes := y.reads }
  (w.atomic.isNone || !y.mutual w) && !z.bound s.acts (s.placeBefore z w) [w.id]
    && (s.acts.dropWhile fun x => x.id ≠ w.id).all fun x => !overlap x.writes z.writes || l.any fun u => u.id = x.id

/-- The writes that a read does not see, though they have been made: some of those that nothing orders before it, the latest of each byte. What an
atomic misses it either precedes as a whole, or they are atomics that are none with respect to it (R250, R251). -/
def State.missed (s : State) (y : Act) : List Act :=
  let over_ := s.acts.filter fun w => overlap w.writes y.reads
  let open_ := over_.filter fun w => !ownAct y.line w.pid w.at_ && s.fresh y w && !y.bound s.acts [] [w.id]
  let l := open_.reverse.foldl (fun l w =>
    if Config.freeBit s.freeCtr (50000000 + y.id * 2 ^ 20 + w.id) && s.tail y w (w :: l) then w :: l else l) []
  let kept := (over_.filter fun w => !l.any fun z => z.id = w.id).map (·.id)
  if y.bound s.acts kept (l.map (·.id)) then []
  else match y.atomic, l with
    | some _, w :: _ => if (l.all fun z => !y.mutual z) || s.standsBefore y w l then l else []
    | _, _ => l

/-- The earlier plain load of the party with which a plain load merges: it makes no access of its own then (R252). DEDUCED: log entry 119. -/
def State.merges (s : State) (y : Act) : Option Act :=
  if y.strong then none else
  (s.acts.filter fun z => !z.strong && z.reads = y.reads && z.precedes y && z.pid = y.pid && Config.freeBit s.freeCtr (70000000 + y.id * 2 ^ 20 + z.id)
    && s.acts.all fun f => !(z.precedes f && f.precedes y && (f.acq.isSome || f.fence.any (fun k => k.2.getLsbD 0) || overlap f.writes y.reads))).getLast?

/-- Bytes with some keys, now `cur`, without some writes. -/
def State.without (s : State) (l : List Act) (keys : List Nat) (cur : List Byte) : List Byte :=
  (cur.zip keys).map fun b => match s.past.find? fun x => x.key = b.2 && l.any fun w => w.made x with
    | some x => x.old
    | none => b.1

/-- A read joins the graph: after the writes of others that it sees, before those that it misses. -/
def State.joinRead (s : State) (y : Act) (l : List Act) : State :=
  let seen := (s.acts.filter fun w => overlap w.writes y.reads && !ownAct y.line w.pid w.at_ && !l.any fun z => z.id = w.id).map (·.id)
  { s with acts := s.acts.map (fun w => if l.any fun z => z.id = w.id then { w with after := y.id :: w.after } else w) ++ [{ y with after := seen }]
           actId := s.actId + 1 }

/-- The writes that a store or an atomic comes before in coherence order though it is made after them, the earliest first (R250, R251): the latest of
its bytes, of other agents. A store precedes some that nothing orders before it, and parts no atomic; an atomic precedes those that its read has
missed, or may stand after them where they are atomics that are none with respect to it. -/
def State.burial (s : State) (y : Act) : List Act :=
  let over_ := s.acts.filter fun w => overlap w.writes y.writes
  let chance := fun (w : Act) => Config.freeBit s.freeCtr (50000000 + y.id * 2 ^ 20 + w.id)
  match y.atomic with
  | some _ =>
    let l := over_.filter fun w => w.after.any fun r => y.deps.head? = some r
    match l with
    | [] => []
    | w :: _ => if (l.all fun z => !y.mutual z) && (chance w || !s.standsBefore { y with reads := y.writes } w l) then [] else l
  | none =>
    let l := (over_.reverse.takeWhile fun w => !ownAct y.line w.pid w.at_ && !y.bound s.acts [] [w.id] && chance w
      && ((runKeys y.writes).filter fun k => overlap [(k, 2)] w.writes).all fun k =>
        (s.past.filter fun x => x.key = k && decide (w.at_ ≤ x.at_)).all fun x => over_.any fun z => z.made x).reverse
    match l.dropWhile fun w => w.atomic.isSome with
    | [] => []
    | w :: r => if y.bound s.acts (s.placeBefore y w) [w.id] then [] else w :: r

/-- The bytes that a write leaves in memory which stands before some others: its own where none of them writes. -/
def Act.showing (y : Act) (l : List Act) (cur new : List Byte) : List Byte :=
  (((runKeys y.writes).zip cur).zip new).map fun x => if l.any fun w => overlap [(x.1.1, 2)] w.writes then x.1.2 else x.2

/-- One byte of a write enters the history of its key just before those of some others. -/
def Past.enter (y : Act) (l : List Act) (k : Nat) (cur new : Byte) (by_ : Writer) (h : List Past) : List Past :=
  match l.find? fun w => overlap [(k, 2)] w.writes with
  | none => h
  | some w =>
    let mine := fun (t : Nat) (old : Byte) => (⟨t, by_, k, old, y.id + 1⟩ : Past)
    let hit := fun (x : Past) => x.key = k && l.any fun z => z.made x
    match h.find? hit with
    | some x =>
      let i := (h.takeWhile fun x => !hit x).length
      h.take i ++ [mine x.at_ x.old, { x with old := new }] ++ h.drop (i + 1)
    | none => if cur = new then h else h ++ [mine w.at_ cur, ⟨w.at_, (if w.pid < 2 ^ 40 then .party w.pid else .op w.fid w.hp (w.pid - 2 ^ 40)), k, new, w.id + 1⟩]

/-- A write joins the graph, and the history of its bytes, just before some others; `cur` is what its bytes held when it was made, and `bs` what it
writes. -/
def State.bury (s : State) (y : Act) (l : List Act) (cur bs : List Byte) (by_ : Writer) : State :=
  match l with
  | [] => s
  | w :: _ =>
    let z := { y with after := s.placeBefore y w, seen := if y.strong then some s.clk else none }
    let over_ := fun (x : Act) => l.any fun u => u.id = x.id
    { s with acts := s.acts.flatMap fun x => (if x.id = w.id then [z] else []) ++ [if over_ x then { x with after := y.id :: x.after } else x]
             actId := s.actId + 1
             past := (((runKeys y.writes).zip cur).zip bs).foldl (fun h x => Past.enter y l x.1.1 x.1.2 x.2 by_ h) s.past }

/-- The earlier plain store of the party to the same bytes that a plain store absorbs, which no other agent has seen: nothing has read it or written
after it, and no local order stands between (R252). DEDUCED: log entry 119. -/
def State.absorbs (s : State) (y : Act) : Option Act :=
  if y.strong then none else
  match (s.acts.filter fun z => overlap z.writes y.writes).getLast? with
  | none => none
  | some z =>
    if !z.strong && z.seen.isNone && z.writes = y.writes && z.pid = y.pid && z.precedes y && Config.freeBit s.freeCtr (71000000 + y.id)
      && s.acts.all (fun f => !(f.after.contains z.id || (z.precedes f && f.precedes y && (f.acq.isSome || f.rel.isSome || f.fence.isSome))))
      && s.past.all (fun x => x.at_ ≤ z.at_ || !keysMeet x.key z.writes) then some z else none

/-- A store that is absorbed leaves the graph: what it wrote counts as part of the store that absorbs it. -/
def State.absorb (s : State) (y : Act) : State :=
  match s.absorbs y with
  | none => s
  | some z => { s with acts := s.acts.filter fun x => x.id ≠ z.id
                       past := s.past.map fun x => if z.made x then { x with act := y.id + 1 } else x }

/-! Late reads (R59, R250): until its result arrives a load may come after a write that has been made since. -/

/-- The writes that an outstanding load comes before. -/
def State.still (s : State) (y : Act) : List Act := s.acts.filter fun w => w.after.contains y.id && overlap w.writes y.reads

/-- The earliest writes that the load can come after, one after another. -/
def State.overtaken (s : State) (y : Act) : State :=
  (s.still y).foldl (fun s w =>
    match s.acts.find? fun x => x.id = w.id with
    | none => s
    | some w =>
      let free := { w with after := w.after.filter (· ≠ y.id) }
      let first := (s.still y).all fun x => x.id = w.id || !w.after.contains x.id
      let acts := s.acts.map fun x => if x.id = w.id then free else x
      if ownAct w.line y.pid y.at_ || !first || !Config.freeBit s.freeCtr (60000000 + y.id * 2 ^ 20 + w.id)
        || ((upFrom 0 5).any fun j => (actsBefore acts j y acts.length [w.id]).contains y.id) then s
      else { s with acts := acts.map fun x => if x.id = y.id then { x with after := w.id :: x.after } else x }) s

/-! Operations, launches and fusions (R253 to R255). -/

/-- Accesses that belong to some ancestries: dependences are a party's own (R249). -/
def State.ownIds (s : State) (line : List (Nat × Nat)) (l : List Nat) : List Nat := l.filter fun i => s.acts.any fun x => x.id = i && ownAct line x.pid x.at_

/-- The writes of an operation that ends join the graph: after the accesses of its party that are ordered before them, at the command's scope where
its own ordering does that, and after the loads that a branch before it depended on or that a fence orders (R248, R254, R274). -/
def State.joinOp (s : State) (o : Op) : State :=
  let ks := (s.past.filter fun x => x.at_ = s.freeCtr && x.writer = .op o.fid o.hp o.id).map (·.key)
  if s.alone || ks.isEmpty then s
  else
    let s := s.tagged (ks.map fun k => (k, 2))
    let line := (o.pid, o.issued + 1) :: o.line
    let loads := (s.acts.filter fun x => !x.reads.isEmpty && ownAct line x.pid x.at_ && decide (x.at_ < o.loads)).map (·.id)
    s.joinWrite { id := s.actId, at_ := s.freeCtr, pid := opAgent o.id, line := line.map fun e => (e.1, min e.2 o.settled)
                  fid := o.fid, hp := o.hp, die := s.dieOfForme o.fid, writes := ks.map fun k => (k, 2), strong := true
                  rel := some (if o.settled = o.issued + 1 then scopeRank o.scope else 3), deps := s.ownIds line o.deps ++ loads }

/-- A WAITB has completed: what the operations that it covers wrote comes before the party's later accesses, in every instance (R254). -/
def State.joinCovered (s : State) (p : Party) (l : List Op) : State :=
  if l.isEmpty then s
  else s.joinMark p fun x => { x with acq := some 4, deps := (s.acts.filter fun y => l.any fun o => y.pid = opAgent o.id).map (·.id) }

/-- LAUNCH and CANCEL are releases at .DEV (R253, R368). -/
def State.joinLaunch (s : State) (p : Party) : State := (s.publish (p.ancestry s.freeCtr)).joinMark p fun x => { x with rel := some 3 }

/-- A launched party begins with an acquire at .DEV: after the accesses of the party that launched it, and after those that are visible to it
(R252, R253); after a fence packet it is one at .SYS, after the writes of the counter values that satisfied the fence. -/
def State.joinBegin (s : State) (line : List (Nat × Nat)) (after : List Nat) (p : Party) : State :=
  s.joinMark p fun x => { x with acq := some (if after.isEmpty then 3 else 4), deps := (s.acts.filter fun y => s.outNow y || ownAct line y.pid y.at_ || after.contains y.id).map (·.id) }

/-- CSIG.STAT that finds a step received is an acquire at .DEV: after the step's writes and what is visible (R252, R294). -/
def State.joinReceived (s : State) (p : Party) : State :=
  s.joinMark p fun x => { x with acq := some 3, deps := (s.acts.filter s.outNow).map (·.id) }

/-- The writes of some bytes that stand in the graph (R253). -/
def State.writersOf (s : State) (a n : Nat) : List Nat := (s.acts.filter fun x => overlap x.writes [(memKey a, 2 * n)]).map (·.id)

/-! Dependences (R249). -/

/-- Where a register's dependences are kept. -/
def taintKey (p : Party) (n : Option Name) : Nat × Nat × Nat :=
  match n with
  | some (.v _) | some .anyV => (0, p.fid, p.hp)
  | _ => (1, p.pid, 0)

/-- The loads that some registers' values depend on. -/
def State.taintOf (s : State) (p : Party) (l : List Name) : List Nat :=
  if s.taints.isEmpty then [] else
  (s.taints.filter fun t => match t.name with
    | some n => t.who = taintKey p (some n) && (l.contains n || (match n with | .v _ => l.contains .anyV | _ => false) || (n = .anyV && l.any fun m => match m with | .v _ => true | _ => false))
    | none => false).flatMap (·.acts)

/-- The loads that the party's control flow depends on. -/
def State.control (s : State) (p : Party) : List Nat := (s.taints.filter fun t => t.name.isNone && t.who = taintKey p none).flatMap (·.acts)

/-- Whether a register holds a value for each lane. -/
def Name.lanewise : Name → Bool
  | .s _ | .w _ => false
  | _ => true

/-- Registers come to depend on some loads; what they held stays where not every lane is written. -/
def State.taint (s : State) (p : Party) (l : List Name) (ids : List Nat) (keep : Bool) : State :=
  if s.taints.isEmpty && ids.isEmpty then s
  else { s with taints := l.foldl (fun ts n =>
    let hit := fun (t : Taint) => t.name = some n && t.who = taintKey p (some n)
    let was := if (keep && n.lanewise) || n = .anyV then (ts.filter hit).flatMap (·.acts) else []
    let now := was ++ ids.filter fun i => !was.contains i
    (if now.isEmpty then [] else [⟨taintKey p (some n), some n, now⟩]) ++ ts.filter fun t => !hit t) s.taints }

/-- The party's control flow comes to depend on some loads. -/
def State.taintFlow (s : State) (p : Party) (ids : List Nat) : State :=
  if ids.isEmpty then s else { s with taints := ⟨taintKey p none, none, ids⟩ :: s.taints }

/-- A branch is taken or not by its condition register and its target register (R248, R249). -/
def State.branched (s : State) (p : Party) (l : List Name) : State := s.taintFlow p (s.taintOf p l)

/-- A party's dependences pass to another that comes from it (R22, R25). -/
def State.inheritTaints (s : State) (sources : List Nat) (pid : Nat) : State :=
  { s with taints := s.taints ++ (s.taints.filter fun t => t.who.1 = 1 && sources.contains t.who.2.1 && t.who.2.1 ≠ pid).map fun t => { t with who := (1, pid, 0) } }

end Sys2Proof.Machine
end

