-- ==== Sys2Proof/Machine/Fusion.lean ====
section
/-! DEFINITION. Split parties: forming them, their reconvergence and fusion (R20 to R25), deferral (R330), and a party's end (R359). -/
namespace Sys2Proof.Machine

/-- The lanes of a party that are active: owned, not exited, em 1 (R21). -/
def Party.active (p : Party) : Mask := p.em &&& p.lanes &&& ~~~p.exited

def Party.depth (p : Party) : Nat := p.calls.length

/-- Siblings other than the party itself. -/
def State.others (s : State) (p : Party) : List Party := (s.siblings p.fid p.hp).filter fun q => q.pid ≠ p.pid

/-- A sibling that cannot issue, as R23 lists it: parked on a fault, at a rope, sleeping, or at a reconvergence
point or FUSE (R360). -/
def Party.cannotIssue (q : Party) : Bool :=
  !q.park.isEmpty ||
  match q.wait with
  | .rope _ _ | .sleep _ | .reconv _ | .fuse _ => true
  | _ => false

/-! What was written since a split (R25). -/

def Party.marks (p : Party) : Marks := p.hist.headD {}

def Party.mark (p : Party) (f : Marks → Marks) : Party :=
  { p with hist := match p.hist with | [] => [f {}] | m :: ms => f m :: ms }

def Marks.join (a b : Marks) : Marks := { a with s := a.s ||| b.s, w := a.w ||| b.w, pick := a.pick || b.pick }

/-- The stretches of a party's history in which it wrote a register (R25). DEDUCED: log entry 29. -/
def Party.wroteIn (p : Party) (f : Marks → Bool) : List Nat := (p.hist.filter f).map (·.sid)

/-- How many of the oldest entries all of some lists share. -/
def commonDepth {α : Type} [DecidableEq α] (ls : List (List α)) : Nat :=
  match ls with
  | [] => 0
  | l :: rest =>
    let revs := rest.map List.reverse
    let rec go : List α → Nat → Nat
      | [], n => n
      | x :: xs, n => if revs.all fun r => r[n]? = some x then go xs (n + 1) else n
    go l.reverse 0

/-! Fusion (R25). -/

/-- One register's value after a fusion, and whether several sides wrote it: a side whose writes another side has too, and more, is not the
last writer, and sides with the same writes hold one value. The side of the lowest lane comes first (R25). -/
def fuseValue {α : Type} (sides : List (List Nat × α)) (dflt : α) : α × Bool :=
  let sub := fun (a b : List Nat) => a.all b.contains
  match sides.filter fun x => !sides.any fun y => sub x.1 y.1 && !sub y.1 x.1 with
  | [] => (dflt, false)
  | x :: r => (x.2, r.any fun y => !(sub x.1 y.1 && sub y.1 x.1))

/-- A window after a fusion: one that is closed on one side and open on another is open (R25). -/
def fuseWindow (sides : List (List Nat × Window)) : Window × Bool :=
  let (w, u) := fuseValue sides {}
  if w.isOpen then
    (w, u || sides.any fun x => !x.2.isOpen)
  else match sides.find? fun x => x.2.isOpen with
    | some x => (x.2, true)
    | none => (w, u)

/-- The state that fusing parties combine to, the first holding the lowest lane; `sid` begins a stretch of history, and `now` is the step (R25).
What the table of R25 does not name is the first party's. DESIGN CHOICE: log entry 103. -/
def fuseParties (ps : List Party) (keepStack : List Reconv) (sid now : Nat) : Option Party :=
  match ps with
  | [] => none
  | p :: _ =>
    let sides := fun {α : Type} (f : Marks → Bool) (g : Party → α) => ps.map fun q => (q.wroteIn f, g q)
    let sv := lanes64.map fun n => fuseValue (sides (fun m => m.s.getLsbD n) fun q => q.s.getD n 0) 0
    let wv := (upFrom 0 16).map fun n => fuseWindow (sides (fun m => m.w.getLsbD n) fun q => q.w.getD n {})
    let pv := fuseValue (sides (fun m => m.pick) fun q => q.pick) 0
    let udiv := (ps.any (·.udiv)) || sv.any (·.2) || wv.any (·.2) || pv.2
    let hist := ps.foldl (fun h q => h ++ q.hist.filter fun m => !h.any fun x => x.sid = m.sid) []
    some { p with
      lanes := ps.foldl (fun m q => m ||| q.lanes) 0
      exited := ps.foldl (fun m q => m ||| q.exited) 0
      em := ps.foldl (fun m q => m ||| q.em) 0
      c := (upFrom 0 7).map fun n => ps.foldl (fun m q => m ||| (q.c.getD n 0 &&& q.lanes)) 0
      s := sv.map (·.1)
      w := wv.map (·.1)
      pick := pv.1
      udiv := udiv
      seen := ps.foldl (fun m q => m ||| q.seen) 0
      hist := { sid := sid } :: hist
      stack := keepStack
      pending := ps.foldl (fun l q => q.pending.foldl addPending l) []
      rivals := ps.foldl (fun l q => l ++ q.rivals ++ (match q.key with | some k => if q.key = p.key then [] else [⟨q.pid, now, k⟩] | none => [])) []
      line := ps.foldl (fun l q => (if q.pid = p.pid then [] else [(q.pid, now + 1)]) ++ q.line ++ l) []
      opReady := ps.foldl (fun n q => min n q.opReady) p.opReady
      cmdReady := ps.foldl (fun n q => min n q.cmdReady) p.cmdReady
      cmdSettled := ps.foldl (fun n q => min n q.cmdSettled) p.cmdSettled
      cmdLoads := ps.foldl (fun n q => min n q.cmdLoads) p.cmdLoads
      arrAt := p.arrAt.map fun x => (x.1, ps.foldl (fun n q => min n (notedAt q.arrAt x.1)) x.2)
      signalled := p.signalled.map fun x => (x.1, ps.foldl (fun n q => min n (notedAt q.signalled x.1)) x.2)
      arrSince := ps.foldl (fun l q => l ++ q.arrSince.filter fun k => !l.contains k) []
      awaits := ps.foldl (fun l q => l ++ q.awaits) []
      wait := .none }

def sortByLane (ps : List Party) : List Party :=
  ps.foldl (fun l p =>
    let k := (lowestLane p.lanes).getD 64
    l.filter (fun q => (lowestLane q.lanes).getD 64 ≤ k) ++ [p] ++ l.filter (fun q => k < (lowestLane q.lanes).getD 64)) []

/-- The party whose value of an s or w register a fusion keeps (R25). -/
def fuseSide (ps : List Party) (written : Marks → Bool) : Nat := (fuseValue (ps.map fun q => (q.wroteIn written, q.pid)) 0).1

/-- A late result for an s or w register reaches the fused party only from the side whose value it keeps (R25, R57). -/
def Long.fused (ps : List Party) (x : Long) : Long :=
  let kept := fun (d : Dest) => match d with
    | .lanes .. | .gone .. => true
    | .sreg n _ => x.owners.contains (fuseSide ps fun m => m.s.getLsbD n.toNat)
    | .wreg n _ => x.owners.contains (fuseSide ps fun m => m.w.getLsbD n.toNat)
  if ps.any fun p => x.owners.contains p.pid then { x with dests := x.dests.filter kept } else x

/-- Where one of some parties carries something on, the party that they fuse into carries it. -/
def handOn (pids : List Nat) (pid : Nat) (l : List Nat) : List Nat := if l.any pids.contains then pid :: l.filter fun x => !pids.contains x else l

/-- Replace fusing parties by the party they form, which goes on past every entry that names the cairn at which it stands. DESIGN CHOICE: log
entries 103 and 104. -/
def State.fuse (s : State) (pids : List Nat) (stack : List Reconv) (set : Party → Party) : State :=
  let ps := sortByLane (s.parties.filter fun p => pids.contains p.pid)
  match fuseParties ps stack (2 * s.nextId) s.freeCtr with
  | none => s
  | some q =>
    let q := set (if (s.siblings q.fid q.hp).all fun p => pids.contains p.pid then { q with hist := [{}] } else q)
    let ren := handOn pids q.pid
    let s := { (s.inheritTaints pids q.pid).bump with
      parties := (s.parties.filter fun (p : Party) => !pids.contains p.pid || p.pid = q.pid).map fun (p : Party) => if p.pid = q.pid then q else p
      homes := s.homes.map fun (h : Home) => if h.fid = q.fid && h.hp = q.hp then { h with readers := h.readers.map fun (x : BitVec 8 × List Nat) => (x.1, ren x.2) } else h
      longs := s.longs.map fun (x : Long) => { x.fused ps with owners := ren x.owners }
      lines := s.lines.map fun (x : Line) => { x with pinned := x.pinned.map fun (k : Nat × Nat) => if pids.contains k.1 then (q.pid, k.2) else k }
      iinvs := s.iinvs.map fun (x : Iinv) => { x with pids := ren x.pids }
      formes := s.formes.map fun (f : Forme) => if f.fid = q.fid then { f with ropes := f.ropes.map fun (r : Rope) => { r with arrived := ren r.arrived } } else f }
    (s.joinMark q fun x => { x with acq := some 0, rel := some 0 }).ropesRecount q.fid q.hp

/-! Party slots (R48, R330, R376). -/

def Part.quota (p : Part) (die : Nat) : Quota := if die = 0 then p.quota0 else p.quota1

def State.partOf (s : State) (lid : Nat) : Nat := (((s.launch? lid).bind fun l => (s.ctx l.ctx).part)).getD 0

/-- Whether a home party of a forme that is on its core, or halted there, has not been moved away (R380). -/
def Forme.stays (f : Forme) (hp : Nat) : Bool := f.place ≠ .saved && f.moved.from_.all fun k => decide (hp < k)

/-- The parties that live on a core. -/
def State.onCore (s : State) (core : Nat) : List Party :=
  s.parties.filter fun p => match s.forme? p.fid with | some f => f.core = core && f.stays p.hp | none => false

/-- Whether a forme is on its core with nothing taking it off. -/
def State.running (s : State) (fid : Nat) : Bool := (s.forme? fid).any fun f => f.place = .placed && f.leave.isNone

/-- Party slots that a partition's formes hold on a core: those reserved for their parties, or more where parties have split (R27, R48). -/
def State.slotsHeld (s : State) (part core : Nat) (extra : Nat → Nat) : Nat :=
  sumBy (fun f : Forme =>
    if f.core = core && f.place ≠ .saved && s.partOf f.lid = part then
      max (f.moved.from_.getD (((s.launch? f.lid).map fun l => l.record.parties).getD 0)) ((s.parties.filter fun p => p.fid = f.fid && f.stays p.hp).length + extra f.fid)
    else 0) s.formes

def State.freeSlot (s : State) (core : Nat) : Option Nat :=
  let used := (s.onCore core).map (·.slot)
  (upFrom 0 128).find? fun k => !used.contains k

/-- A free party slot within the partition's quota (R330). -/
def State.slotFor (s : State) (f : Forme) : Option Nat :=
  let part := s.partOf f.lid
  if s.slotsHeld part f.core (fun k => if k = f.fid then 1 else 0) ≤ ((s.part part).quota (dieOf f.core)).pslot then s.freeSlot f.core else none

/-- Whether the home party may hold one more party, and the slot that it takes (R22, R330). -/
def State.splitSlot (s : State) (p : Party) : Option Nat :=
  if (s.siblings p.fid p.hp).length ≥ 16 then none else (s.forme? p.fid).bind s.slotFor

/-! Splitting (R22). -/

/-- The owned lanes that go to the successor of `a`, when the active lanes divide into `a` and `b` (R22). -/
def splitLanes (owned a b : Mask) : Mask :=
  let low := lowestLane (a ||| b)
  maskOf fun i =>
    owned.getLsbD i &&
    (let strand : Mask := 0xF#64 <<< (i / 4 * 4)
     let sa := a &&& strand
     let sb := b &&& strand
     if a.getLsbD i then true
     else if b.getLsbD i then false
     else if sa ≠ 0 ∧ sb = 0 then true
     else if sb ≠ 0 ∧ sa = 0 then false
     else if sa ≠ 0 ∧ sb ≠ 0 then (match lowestLane (sa ||| sb) with | some k => a.getLsbD k | none => false)
     else match low with | some k => a.getLsbD k | none => false)

def pushReconv (st : List Reconv) (r : Reconv) : List Reconv := (r :: st).take 16

/-- Split a party in two: lanes `a` go to `ta`, lanes `b` to `tb`; `r` is the entry pushed on both stacks. The part that holds
the lowest active lane keeps the party's number and slot; the other takes the slot given. Both keep the whole deferral list. DESIGN CHOICE: log entry 134. -/
def State.split (s : State) (pid : Nat) (a b : Mask) (ta tb : Nat) (ea eb : Entry) (r : Reconv) (slot : Nat) : State × Nat × Nat :=
  match s.party? pid with
  | none => (s, pid, pid)
  | some p =>
    let la := splitLanes p.lanes a b
    let lb := p.lanes &&& ~~~la
    let n := s.nextId
    let st := pushReconv p.stack r
    let firstA := match lowestLane (a ||| b) with | some k => a.getLsbD k | none => true
    let mk := fun (sid : Nat) (own : Mask) (act : Mask) (t : Nat) (e : Entry) (q : Party) =>
      { q with lanes := own, exited := p.exited &&& own, em := act, c := p.c.map (· &&& own), pc := t, entry := e, met := false
               stack := st, hist := { sid := sid } :: p.hist, wait := .none }
    let new := { p with pid := n, slot := slot, pending := [], lastIssue := n, readySince := none, notReady := s.clk, line := (pid, s.freeCtr + 1) :: p.line }
    let pa := mk (2 * n) la a ta ea (if firstA then p else new)
    let pb := mk (2 * n + 1) lb b tb eb (if firstA then new else p)
    let dup := fun (l : List Nat) => if l.contains pid then l ++ [n] else l
    ({ (s.inheritTaints [pid] n).bump with
      parties := s.parties.flatMap fun (q : Party) => if q.pid = pid then [pa, pb] else [q]
      homes := s.homes.map fun (h : Home) => if h.fid = p.fid && h.hp = p.hp then { h with readers := h.readers.map fun (x : BitVec 8 × List Nat) => (x.1, dup x.2) } else h
      longs := s.longs.map fun (x : Long) => { x with owners := dup x.owners }
      iinvs := s.iinvs.map fun (x : Iinv) => { x with pids := dup x.pids }
      formes := s.formes.map fun (f : Forme) => if f.fid = p.fid then { f with ropes := f.ropes.map fun (r : Rope) => { r with arrived := dup r.arrived } } else f },
     pa.pid, pb.pid)

/-! Waiting for siblings (R23, R24). -/

/-- End a reconvergence wait without fusion (R23). -/
def endReconv (p : Party) : Party := { p with wait := .none, fused := false, stack := p.stack.tail }

/-- The oldest entries that all of some stacks share: what a fused party keeps (R23). -/
def commonStack (sts : List (List Reconv)) : List Reconv := match sts with | [] => [] | st :: _ => st.drop (st.length - commonDepth sts)

/-- The siblings waiting at one FUSE word fuse when each live sibling waits at some FUSE (R24, R360). -/
def State.fuseCheck (s : State) (fid hp : Nat) : State :=
  let sibs := s.siblings fid hp
  let at_ := fun (p : Party) => match p.wait with | .fuse a => some a | _ => none
  if sibs.isEmpty || !(sibs.all fun p => (at_ p).isSome) then s
  else
    let words := sibs.foldl (fun l p => match at_ p with | some a => if l.contains a then l else l ++ [a] | none => l) []
    words.foldl (fun s a =>
      let g := sibs.filter fun p => at_ p = some a
      let st := commonStack (g.map (·.stack))
      let st := match st with | e :: r => if e.point = none then r else st | [] => []
      s.fuse (g.map (·.pid)) st id) s

/-- A reconvergence wait ends at once when no sibling can issue (R23), and a FUSE completes when all are there. -/
def State.siblingsChanged (s : State) (fid hp : Nat) : State :=
  let s := s.fuseCheck fid hp
  let sibs := s.siblings fid hp
  let rel := fun (p : Party) => match p.wait with
    | .reconv _ => sibs.all fun q => q.pid = p.pid || q.cannotIssue
    | _ => false
  { s with parties := s.parties.map fun (p : Party) => if p.fid = fid && p.hp = hp && rel p then endReconv p else p }

/-- Where a party arrives at its reconvergence point it goes on alone, fuses with those that wait there, or waits (R23). The fused party keeps
what its parts' stacks share below their top entries, so that it does not matter who came first; an entry below that names the same cairn counts
as passed. DESIGN CHOICE: log entry 104. -/
def State.arrive (s : State) (pid : Nat) : State :=
  match s.party? pid with
  | none => s
  | some p =>
    match p.stack with
    | [] => s
    | e :: rest =>
      if e.point = some p.pc ∧ e.depth = p.depth then
        let others := s.others p
        if others.isEmpty then s.onParty pid fun p => { p with stack := rest, fused := false }
        else
          let ready := others.filter fun q => (match q.wait with | .reconv _ => true | _ => false) && q.pc = p.pc && q.depth = p.depth
            && (match q.stack with | f :: _ => f = e | [] => false)
          if ready.isEmpty then (s.onParty pid fun p => { p with wait := .reconv 0 }).siblingsChanged p.fid p.hp
          else s.fuse (pid :: ready.map (·.pid)) (commonStack (rest :: ready.map (·.stack.tail))) fun q => { q with fused := true }
      else s

/-! Deferral (R330). -/

/-- A party with lanes `l` less those that have exited. -/
def Party.lanesOf (p : Party) (l : Mask) : Mask := l &&& p.lanes &&& ~~~p.exited

/-- UDIV is set when both halves of a deferred branch wrote one register (R330). -/
def Marks.meet (a b : Marks) : Bool := (a.s &&& b.s) ≠ 0 || (a.w &&& b.w) ≠ 0 || (a.pick && b.pick)

/-- End the first half at `e` and go on at the other successor. -/
def Party.secondHalf (p : Party) (d : Deferral) (ds : List Deferral) (e : HalfEnd) (r : Option Resume) : Party :=
  { p with em := p.lanesOf d.l2, pc := d.other, entry := d.entry, met := false, calls := d.call, wait := .none, awaits := p.awaits
           defer := { d with first := some e, resume := r, marks := p.marks, call := p.calls } :: ds
           hist := { sid := p.marks.sid } :: p.hist.tail }

/-- Rejoin both halves. -/
def Party.rejoin (p : Party) (d : Deferral) (ds : List Deferral) : Party :=
  let m := p.marks
  let both := m.join d.marks
  { p with em := p.lanesOf (d.l1 ||| d.l2), defer := ds, udiv := p.udiv || m.meet d.marks
           hist := match p.hist.tail with | [] => [both] | o :: r => o.join both :: r }

def Party.markAs (p : Party) (m : Marks) : Party := p.mark fun h => { m with sid := h.sid }

/-- Two halves that ended apart become two siblings, each at its own point (R330). `at_` is the FUSE where the second half ended. -/
def State.partHalves (s : State) (pid : Nat) (d : Deferral) (ds : List Deferral) (at_ : Option Nat) (slot : Nat) : State :=
  match s.party? pid with
  | none => s
  | some p =>
    let m := p.marks
    let s := s.onParty pid fun p => { p with defer := ds, hist := p.hist.tail }
    let (pc1, e1) := match d.first with | some (.reconv a) => (a, Entry.block) | _ => ((d.resume.map Resume.pc).getD d.other, (d.resume.map Resume.entry).getD .block)
    let (s, p1, p2) := s.split pid (p.lanesOf d.l1) (p.lanesOf d.l2) pc1 p.pc e1 p.entry ⟨d.rcv, d.depth⟩ slot
    let w1 := match d.first with | some (.reconv _) => Wait.reconv 0 | some (.fuse a) => Wait.fuse a | _ => Wait.none
    let s := s.onParty p1 fun q => { q with wait := w1, calls := d.call, met := (match d.first with | some (.reconv _) => true | _ => false)
                                            cairn := (d.resume.map Resume.cairn).getD q.cairn }.markAs d.marks
    let s := s.onParty p2 fun q => { q with wait := (match at_ with | some a => .fuse a | none => .none) }.markAs m
    s.siblingsChanged p.fid p.hp

/-- Hold a party whose halves ended apart until a slot is free, or part it at once (R330). -/
def State.endApart (s : State) (pid : Nat) (d : Deferral) (ds : List Deferral) (at_ : Option Nat) : State :=
  match (s.party? pid).bind s.splitSlot with
  | some k => s.partHalves pid d ds at_ k
  | none => s.onParty pid fun p => { p with wait := .apart at_ }

/-- A party stands at the cairn at its pc: the newest deferral entry ends a half there; with no entry R23 applies. -/
def State.reach : Nat → State → Nat → State
  | 0, s, _ => s
  | n + 1, s, pid =>
    match s.party? pid with
    | none => s
    | some p =>
      match p.defer with
      | [] => s.arrive pid
      | d :: ds =>
        if d.rcv = some p.pc ∧ d.depth = p.depth then
          match d.first with
          | none => State.reach n (s.onParty pid fun p => p.secondHalf d ds (.reconv p.pc) none) pid
          | some (.reconv _) | some .exited => State.reach n (s.onParty pid fun p => p.rejoin d ds) pid
          | some (.fuse _) => s.endApart pid d ds none
        else s

/-- A party stands at a FUSE with its pitch closed (R24, R330, R360). A party with no live siblings goes on, and its stack stays as it is: R23 pops for the
fused party alone. DEDUCED: log entry 131. -/
def State.atFuse : Nat → State → Nat → Nat → State
  | 0, s, _, _ => s
  | n + 1, s, pid, a =>
    match s.party? pid with
    | none => s
    | some p =>
      match p.defer with
      | [] => if (s.others p).isEmpty then s else (s.onParty pid fun p => { p with wait := .fuse a }).siblingsChanged p.fid p.hp
      | d :: ds =>
        match d.first with
        | none => s.onParty pid fun p => p.secondHalf d ds (.fuse a) (some ⟨p.cairn, p.pc, p.entry, 0, false⟩)
        | some .exited => State.atFuse n (s.onParty pid fun p => p.rejoin d ds) pid a
        | some (.fuse b) => if b = a then State.atFuse n (s.onParty pid fun p => p.rejoin d ds) pid a else s.endApart pid d ds (some a)
        | some (.reconv _) => s.endApart pid d ds (some a)

/-- Every party that stands at a cairn it has just come to is seen to (R23, R330). -/
def State.arrivals (s : State) : State :=
  s.parties.foldl (fun s q =>
    match s.party? q.pid with
    | none => s
    | some p =>
      if p.met ∨ p.wait ≠ .none ∨ p.pitch.isSome ∨ p.entry = .inside then s
      else State.reach 20 (s.onParty p.pid fun p => { p with met := true }) p.pid) s

/-! The end of a party (R359). -/

/-- Remove a party: its slot, its reader sets, its place at the ropes; and what its end lets happen. -/
def State.partyGone (s : State) (pid : Nat) : State :=
  match s.party? pid with
  | none => s
  | some p =>
    let s := p.pending.foldl (fun s x => s.orphanItems p.fid p.hp ({ p with pending := [x] }.dueItems)) s
    let s := { s with
      parties := s.parties.filter fun (q : Party) => q.pid ≠ pid
      issue := if s.issue = some pid then s.otherIssue pid else s.issue
      longs := s.longs.map fun (x : Long) => { x with owners := x.owners.filter (· ≠ pid) } }
    let s := s.onHome p.fid p.hp fun h => h.dropParty pid
    let s := if (s.siblings p.fid p.hp).isEmpty then
        (match s.forme? p.fid with | some f => s.dropPrivate f p.hp | none => s).onHome p.fid p.hp fun h => { h with rows := [], readers := [] }
      else s
    let s := s.onForme p.fid fun f => { f with ropes := f.ropes.map fun r => { r with
      arrived := r.arrived.filter (· ≠ pid)
      came := if r.arrived.contains pid || r.counted.any (fun x => decide (x.1 = p.hp) && decide (x.2 = some r.gen)) then (p.hp, p.ancestry s.freeCtr) :: r.came else r.came } }
    let s := s.ropesRecount p.fid p.hp
    (s.siblingsChanged p.fid p.hp).formeCheck p.fid

/-- The active lanes of a party have exited (R330, R359): a deferral goes on, else the party ends. -/
def State.halfExited : Nat → State → Nat → State
  | 0, s, _ => s
  | n + 1, s, pid =>
    match s.party? pid with
    | none => s
    | some p =>
      match p.defer with
      | [] => s.partyGone pid
      | d :: ds =>
        match d.first with
        | none => s.onParty pid fun p => p.secondHalf d ds .exited none
        | some e =>
          let s := s.onParty pid fun p => { p.rejoin d ds with em := p.lanesOf d.l1, calls := d.call }
          match e with
          | .reconv a => State.reach 20 (s.onParty pid fun p => { p with pc := a, entry := .block, met := true }) pid
          | .fuse a =>
            State.atFuse 10 (s.onParty pid fun p => { p with
              pc := (d.resume.map Resume.pc).getD p.pc
              cairn := (d.resume.map Resume.cairn).getD p.cairn
              entry := (d.resume.map Resume.entry).getD p.entry
              met := false }) pid a
          | .exited => State.halfExited n s pid

/-- The active lanes of a party exit; its pitch is over (R359). -/
def State.exitLanes (s : State) (pid : Nat) : State :=
  State.halfExited 10 (s.onParty pid fun p => { p with exited := p.exited ||| p.active, em := 0, pitch := none }) pid

end Sys2Proof.Machine
end

