-- ==== Sys2Proof/Machine/Operands.lean ====
section
/-! DEFINITION. Operands: format slots, which registers each word reads and writes and how late (R58 to R61, R79), reading them
through patterns (R62 to R66), writing them (R39, R41, R65, R67, R222), and running one word with the checks that
every word shares (R42, R61, R26). -/
namespace Sys2Proof.Machine

/-! Format slots (R34). -/

def LRec.slot (r : LRec) (n : BitVec 3) : W32 := r.fslot.getD n.toNat 0
def slotFmt (w : W32) : Option Fmt := Fmt.ofCode (w.toNat % 256)
/-- A slot that holds a floating format. -/
def slotFloat (w : W32) : Bool := match slotFmt w with | some f => f.isFloat | none => false
/-- SATM 1 (R34). -/
def slotSatm (w : W32) : Bool := (w.extractLsb' 19 2).toNat = 1
def slotBlk (w : W32) : Nat := (w.extractLsb' 17 2).toNat
/-- The RND field, which an accepted launch record keeps below 5 (R34, R35). -/
def slotRnd (w : W32) : RmCode :=
  match (w.extractLsb' 21 3).toNat with
  | 1 => .rz | 2 => .rup | 3 => .rdn | 4 => .rna | _ => .rne
/-- A rounding code with the slot's RND for code 7 (R77). -/
def rmWith (rm : RmCode) (w : W32) : RmCode := match rm with | .rs => slotRnd w | m => m

/-! Which registers a word reads and writes. -/

/-- The latency classes of R59. -/
inductive Lat where
  | none | ends | long | fixed (n : Nat)
deriving DecidableEq, Repr

/-- What a word reads, writes, and when. -/
structure Uses where
  /-- source fields, each with how many registers it takes -/
  srcs : List (Src × Nat) := []
  /-- registers read by a number of their own -/
  also : List Name := []
  dsts : List Name := []
  lat  : Lat := .none
deriving DecidableEq, Repr

/-- The registers that an operand of `n` registers names; c7 is no register that anything writes (R38). -/
def regNames (n : Nat) : Reg → List Name
  | .v k => (upFrom 0 n).map fun j => .v (k + BitVec.ofNat 8 j)
  | .t k => (upFrom 0 n).map fun j => .t (k + BitVec.ofNat 3 j)
  | .s k => [.s k]
  | .c k => if k = 7 then [] else [.c k]
  | .imm _ => []

/-- The registers of a group of 32-bit values, one in each s register too (R167, R168). -/
def groupNames (n : Nat) : Reg → List Name
  | .s k => (upFrom 0 n).map fun j => .s (k + BitVec.ofNat 6 j)
  | r => regNames n r

/-- The s register that holds the second value of a pair (R167). -/
def nextReg : Reg → List Name
  | .s k => [.s (k + 1)]
  | _ => []

def Uses.reads (u : Uses) : List Name := (u.srcs.flatMap fun x => regNames x.2 x.1.reg) ++ u.also

/-- How many registers CVT writes (R166). -/
def cvtRegs (slot : W32) : Nat := match slotFmt slot with | some (.int _ 64) => 2 | _ => 1
/-- How many registers XPND writes (R168). -/
def xpndRegs (slot : W32) : Nat := match slotFmt slot with | some .fp16 => 2 | some .bf16 => 2 | _ => 4

def uses2 (o : V2) (na nb nd : Nat) (lat : Nat) : Uses :=
  { srcs := [(o.a, na), (o.b, nb)], dsts := regNames nd o.d, lat := .fixed lat }
def uses1 (o : V2) (na nd : Nat) (lat : Nat) : Uses :=
  { srcs := [(o.a, na)], dsts := regNames nd o.d, lat := .fixed lat }
def uses3 (o : V3) (na nb nc nd : Nat) (lat : Nat) : Uses :=
  { srcs := [(o.a, na), (o.b, nb), (o.c, nc)], dsts := regNames nd o.d, lat := .fixed lat }

def usesLoad (o : MF) (win : Bool) : Uses :=
  { srcs := [(o.so, 1)], also := if win then [.w o.win] else [], lat := .long
    dsts := match o.dat with | .s k => [.s k] | r => regNames o.sz.regs r }
/-- A store's data register as a source (R262). -/
def mfData (o : MF) : Src := ⟨o.dat, 0, o.lrd⟩
def maData (o : MA) : Src := ⟨o.dat, 0, o.lrd⟩
def maRegs (o : MA) : Nat := o.sz.regs * (if o.aop.two then 2 else 1)
def usesStore (o : MF) : Uses := { srcs := [(o.so, 1), (mfData o, o.sz.regs)], also := [.w o.win] }
/-- CAS and INC with an s register read the registers that follow it (R272). -/
def usesAtom (o : MA) (ret : Bool) : Uses :=
  { srcs := [(o.so, 1), (maData o, maRegs o)]
    also := .w o.win :: (match o.dat with
      | .s k => if o.aop.two then [.s (k + BitVec.ofNat 6 o.sz.regs)] else []
      | .c k => if o.aop.two then [.c (k + BitVec.ofNat 3 o.sz.regs)] else []
      | _ => [])
    dsts := if ret then regNames o.sz.regs o.dat else [], lat := if ret then .long else .none }
def usesP (o : PF) : Uses := { also := [.s o.ua, .s o.ub, .s o.uc] }
def usesX (o : XF) : Uses :=
  { also := [.s o.xa, .s o.xb], lat := .long, dsts := match o.rply with | some d => [.s d] | none => [] }
def usesEnd (l : List Name) : Uses := { also := l, lat := .ends }

/-- What each word reads and writes, by its entry and R79; events name no registers. -/
def usesOf (fs : LRec) : Instr → Uses
  | .nop _ | .ropeSet _ | .ropeArv _ | .trap _ | .bkpt _ | .oready _ | .fence _ | .gclr _ => {}
  | .bra _ | .call _ | .ret _ | .exit _ | .fuse _ | .yield _ | .sleep _ | .isync _ | .ropeWait _ | .ropeSync _ | .phase _
  | .eret _ => usesEnd []
  | .brc o => usesEnd (regNames 1 (.c o.cn))
  | .brx o | .callx o => usesEnd [.s o.ua]
  | .signal o => { also := [.s o.ua, .s o.ub] }
  | .waitc o => usesEnd [.s o.ua, .s o.ub]
  | .waitb o => usesEnd (if o.idx = 0 then [.s o.ua] else [])
  | .cancel o => { also := [.s o.ua], dsts := regNames 1 o.d, lat := .long }
  | .launch o => { also := [.s o.ua], dsts := regNames 1 o.d, lat := .long }
  | .movs o => if o.imm = 0 then { dsts := regNames 1 o.d, lat := .fixed 4 } else { also := [.s o.ua], lat := .fixed 4 }
  | .movsw o => { dsts := regNames 1 o.d, lat := .fixed 4 }
  | .ctrr o => { dsts := regNames 1 o.d, lat := .long }
  | .iadd o | .isub o | .imin o | .imax o | .and o | .or o | .xor o | .andn o | .orn o =>
    uses2 o o.ty.regs o.ty.regs o.ty.regs 1
  | .imul o => uses2 o o.ty.regs o.ty.regs o.ty.regs 4
  | .imulh o => uses2 o o.ty.regs o.ty.regs o.ty.regs 8
  | .imad o => uses3 o 1 1 1 1 4
  | .imadw o => uses3 o 1 1 2 2 8
  | .ineg o | .iabs o | .not o | .brev o | .mov o => uses1 o o.ty.regs o.ty.regs 1
  | .iclamp o | .bmix o | .fshl o | .bfx o | .bfi o => uses3 o 1 1 1 1 1
  | .lea o | .shl o | .shr o | .sar o | .rol o => uses2 o o.ty.regs 1 o.ty.regs 1
  | .popc o | .clz o | .ctz o => uses1 o o.ty.regs 1 1
  | .icmp o => uses2 o o.ty.regs o.ty.regs 1 1
  | .sel o => let n := if o.m.getLsbD 0 then 2 else 1; uses3 o n n 1 n 1
  | .clop o => if o.sub.toNat ≤ 4 then uses2 o 1 1 1 1 else uses1 o 1 1 1
  | .cvote o => uses1 o o.ty.regs 1 4
  | .movi o => { dsts := regNames 1 o.d, lat := .fixed 1 }
  | .movhi o => { dsts := regNames 1 o.d, lat := .fixed 1 }
  | .movx o => { uses1 o 1 1 4 with also := [.anyV] }
  | .movxw o => { uses2 o 1 1 0 4 with dsts := [.anyV] }
  | .lperm o => uses2 o o.ty.regs 1 o.ty.regs 4
  | .fadd o | .fsub o | .fmul o | .fscale o => uses2 o 1 1 1 4
  | .fmin o | .fmax o | .fcmp o => uses2 o 1 1 1 1
  | .ffma _ _ o | .fdot2 _ _ o | .fdot4 _ _ o => uses3 o 1 1 1 1 4
  | .fclass o | .fexpn o => uses1 o 1 1 1
  | .frnd o => uses1 o 1 1 4
  | .frcps o | .frsqs o | .fex2 o | .flg2 o | .fsin o | .fcos o | .qblk o | .dqblk o => uses1 o 1 1 8
  | .cvt o => uses1 o o.ty.regs (cvtRegs (fs.slot o.fs)) 4
  | .pack2 o => uses2 o 1 1 1 4
  | .pack4 o => { uses2 o 2 2 1 4 with also := nextReg o.a.reg ++ nextReg o.b.reg }
  | .xpnd o => { uses1 o 1 0 4 with dsts := groupNames (xpndRegs (fs.slot o.fs)) o.d }
  | .sheet o => { also := [.s o.ua, .s o.ub] }
  | .press o | .presss o | .platen o | .gload o | .gstore o => usesP o
  | .gread o => { srcs := [(o.a, 1)], dsts := regNames 1 o.d, lat := .long }
  | .gwrite o => { srcs := [(o.a, 1), (o.b, 1)] }
  | .batch o => { dsts := regNames 1 o.d, lat := .fixed 1 }
  | .coink o => { also := (if o.imm.getLsbD 0 then [.s o.ua] else []) ++ (if o.imm.getLsbD 1 then [.s o.ub] else []) }
  | .coin o => { dsts := regNames 1 o.d, lat := .fixed 4 }
  | .coinr o => uses1 o 2 1 4
  | .draw o => uses2 o 1 1 4 8
  | .drawa o => if o.sub = 0 then uses1 o 4 4 8 else uses2 o 1 1 4 8
  | .dmerge o => if o.m.getLsbD 0 then { srcs := [(o.a, 4), (o.b, 4)], dsts := regNames 4 o.d, lat := .fixed 8 } else uses3 o 4 4 1 4 8
  | .dshift o => uses2 o 4 1 4 4
  | .tget o | .tset o => uses1 o o.ty.regs o.ty.regs 1
  | .tclr o => { dsts := regNames o.ty.regs o.d, lat := .fixed 1 }
  | .ld o | .ldk o | .ldsc o | .ldpv o => usesLoad o true
  | .st o | .stsc o | .stpv o => usesStore o
  | .atom o | .atomsc o => usesAtom o true
  | .red o => usesAtom o false
  | .pref o | .reuse o | .cwb o | .cinv o | .iinv o => { srcs := [(o.so, 1)], also := [.w o.win] }
  | .wopen o => { also := [.s o.ua, .s o.ub, .s (o.ub + 1)], dsts := [.w (o.idx.extractLsb' 0 4)], lat := .long }
  | .wclose o => { dsts := [.w (o.idx.extractLsb' 0 4)] }
  | .cpy o | .cpyx o | .cpyrot o | .fill o | .scrub o | .seal o | .ndt o => usesX o
  | .coll o => { srcs := [(o.a, 1), (o.b, 1)], dsts := regNames 1 o.d, lat := .long }
  | .csigBind o => { also := [.s o.ua] }
  | .csigSig o | .csigStat o => { also := [.s o.ua], dsts := regNames 1 o.d, lat := .long }
  | _ => {}

/-! The fields that every word has. -/

/-- Stall count and DUAL prefix of a word (R58, R76). -/
def shapeOf : Instr → BitVec 3 × Option (BitVec 2)
  | .nop o | .ret o | .exit o | .fuse o | .yield o | .sleep o | .isync o | .ropeSet o | .ropeArv o | .ropeWait o | .ropeSync o
  | .phase o | .signal o | .waitc o | .cancel o | .launch o | .trap o | .bkpt o | .eret o | .movs o | .movsw o | .ctrr o
  | .oready o | .batch o | .waitb o | .coink o | .fence o | .wopen o | .wclose o | .csigBind o | .csigSig o | .csigStat o =>
    (o.stall, none)
  | .bra o | .brc o | .call o => (o.stall, none)
  | .brx o | .callx o => (o.stall, none)
  | .iadd o | .isub o | .imul o | .imulh o | .ineg o | .iabs o | .imin o | .imax o | .lea o | .and o | .or o | .xor o | .andn o
  | .orn o | .not o | .shl o | .shr o | .sar o | .rol o | .popc o | .clz o | .ctz o | .brev o | .icmp o | .clop o | .cvote o
  | .mov o | .movx o | .movxw o | .lperm o | .fadd o | .fsub o | .fmul o | .fmin o | .fmax o | .fcmp o | .fclass o | .frnd o
  | .fscale o | .fexpn o | .frcps o | .frsqs o | .fex2 o | .flg2 o | .fsin o | .fcos o | .cvt o | .pack2 o | .pack4 o
  | .xpnd o | .qblk o | .dqblk o | .gread o | .gwrite o | .coin o | .coinr o | .draw o | .drawa o | .dshift o | .tget o
  | .tset o | .tclr o | .coll o => (o.stall, o.dual)
  | .imad o | .imadw o | .iclamp o | .bmix o | .fshl o | .bfx o | .bfi o | .sel o | .dmerge o => (o.stall, o.dual)
  | .ffma _ _ o | .fdot2 _ _ o | .fdot4 _ _ o => (o.stall, o.dual)
  | .movi o | .movhi o => (o.stall, none)
  | .sheet o | .press o | .presss o | .gclr o | .gload o | .gstore o | .platen o => (o.stall, o.dual)
  | .ld o | .ldk o | .ldsc o | .stsc o | .ldpv o | .stpv o | .st o | .pref o | .reuse o | .cwb o | .cinv o | .iinv o =>
    (o.stall, o.dual)
  | .atom o | .atomsc o | .red o => (o.stall, o.dual)
  | .cpy o | .cpyx o | .cpyrot o | .fill o | .scrub o | .seal o | .ndt o => (o.stall, none)
  | _ => (0, none)

/-- Words of the pitch that an instruction takes: its prefix counts (R58). -/
def wordsTaken (i : Instr) : Nat := if (shapeOf i).2.isSome then 2 else 1

/-! The acting party. -/

/-- The party whose word runs, with its forme, home party, launch and pitch. -/
structure Agent where
  p : Party
  f : Forme
  h : Home
  l : Launch
  c : Pitch

/-- What the issuing word acts for; the faults are the model's. DESIGN CHOICE: log entry 6. -/
def State.agent (s : State) : Except Fault Agent :=
  match s.issue.bind s.party? with
  | none => .error .noIssue
  | some p =>
    match p.pitch with
    | none => .error .noIssue
    | some c =>
      match s.forme? p.fid, s.home? p.fid p.hp with
      | some f, some h => match s.launch? f.lid with | some l => .ok ⟨p, f, h, l, c⟩ | none => .error .broken
      | _, _ => .error .broken

def Agent.onParty (a : Agent) (s : State) (f : Party → Party) : State := s.onParty a.p.pid f
def Agent.onHome (a : Agent) (s : State) (f : Home → Home) : State := s.onHome a.p.fid a.p.hp f

/-- Index of the instruction word itself, its prefix passed (R47, R82). -/
def Agent.word (a : Agent) (i : Instr) : Nat := a.c.idx + (wordsTaken i - 1)

/-- Address of the instruction word. -/
def Agent.addr (a : Agent) (i : Instr) : Nat := a.c.base + 8 * a.word i

/-- The tangent components that a word carries when it is eligible (R221). -/
def Agent.tans (a : Agent) (i : Instr) : Nat :=
  match (shapeOf i).2 with
  | some nc => nc.toNat + 1
  | none => if a.l.record.tmode then a.l.record.tnum else 0

/-! Reading registers. -/

def wLow (x : W64) : W32 := x.extractLsb' 0 32
def wHigh (x : W64) : W32 := x.extractLsb' 32 32
def wPair (lo hi : W32) : W64 := hi ++ lo

/-- An s register (R38). -/
def Party.sreg (p : Party) (n : BitVec 6) : W64 := p.s.getD n.toNat 0
def Party.win (p : Party) (n : BitVec 4) : Window := p.w.getD n.toNat {}
/-- A lane condition; c7 reads as 1 in every lane (R38). -/
def Party.creg (p : Party) (n : BitVec 3) : Mask := if n = 7 then BitVec.allOnes 64 else p.c.getD n.toNat 0

/-- The lane that lane `i` reads through a pattern (R64). -/
def patLane (pat : BitVec 4) (pick i : Nat) : Nat :=
  match pat.toNat with
  | 0 => i
  | 1 => (i + 1) % 64 | 2 => (i + 2) % 64 | 3 => (i + 4) % 64 | 4 => (i + 8) % 64 | 5 => (i + 16) % 64 | 6 => (i + 32) % 64
  | 7 => 0
  | 8 => pick
  | 9 => Nat.xor i 1 | 10 => Nat.xor i 2 | 11 => Nat.xor i 4 | 12 => Nat.xor i 8 | 13 => Nat.xor i 16 | 14 => Nat.xor i 32
  | _ => 63 - i

/-- The outstanding long-latency results of the party for a register. -/
def State.longsOf (s : State) (pid : Nat) (n : Name) : List Long :=
  s.longs.filter fun x => x.owners.contains pid && x.dests.any fun d =>
    match d, n with
    | .lanes r _ _ _, .v k => r = k
    | .gone r _ _ _, .v k => r = k
    | .sreg k _, .s m => k = m
    | .wreg k _, .w m => k = m
    | _, _ => false

/-- The fixed-latency writes that a read at this clock would come too early for, the newest first (R58). -/
def Pitch.early (c : Pitch) (n : Name) : List Recent := c.recent.filter fun r => decide (c.clk < r.ready) && (r.name = n || (match n, r.name with | .v _, .anyV => true | .anyV, .v _ => true | .anyV, .anyV => true | _, _ => false))

/-- A row that hazards can disturb: each lane is the value before or after each early write, and before or after each outstanding
result (R61). `k` numbers the read within its word. -/
def State.disturb (s : State) (a : Agent) (n : Name) (comp k : Nat) (row : Row) : Row :=
  let early := (a.c.early n).filter fun r => r.comp = comp && r.name = n
  let longs := (s.longsOf a.p.pid n).flatMap fun x => x.dests.filterMap fun d =>
    match d with
    | .lanes r c m v | .gone r c m v => if Name.v r = n && c = comp then some (m, v) else none
    | _ => none
  if early.isEmpty && longs.isEmpty then row
  else rowOf fun i =>
    let x := (early.zip (upFrom 0 early.length)).foldl (fun x e => if Config.freeBit s.freeCtr (i + 64 * (k + 64 * e.2)) then rowGet e.1.old i else x) (rowGet row i)
    (longs.zip (upFrom 0 longs.length)).foldl (fun x e => if e.1.1.getLsbD i && Config.freeBit s.freeCtr (i + 64 * (k + 64 * (32 + e.2))) then rowGet e.1.2 i else x) x

/-- A v register's row, or a shadow's, as the party reads it before any pattern (R39, R41). DEDUCED: log entry 48. -/
def State.vRow (s : State) (a : Agent) (n : BitVec 8) (comp k : Nat) : Row :=
  let row := if (a.h.readersOf n).contains a.p.pid then (match a.h.row? n comp with | some x => x.data | none => rowZero) else rowZero
  s.disturb a (.v n) comp k row

/-- A temporary's latch; other parties' lanes are not in it (R65). -/
def State.tRow (s : State) (a : Agent) (n : BitVec 3) (comp k : Nat) : Row :=
  let row := match a.c.temps.find? fun t => t.reg = n && t.comp = comp with | some t => t.data | none => rowZero
  let own := rowOf fun i => if a.p.lanes.getLsbD i then rowGet row i else 0
  s.disturb a (.t n) comp k own

/-- A uniform s register as lane `i` sees it at this clock: each lane of an early read is, independently, the value before or after (R61). -/
def State.sLane (s : State) (a : Agent) (n : BitVec 6) (k i : Nat) : W64 :=
  let early := (a.c.early (.s n)).filter fun r => r.name = .s n
  (early.zip (upFrom 0 early.length)).foldl (fun x e =>
    if Config.freeBit s.freeCtr (i + 64 * (k + 64 * e.2)) then wPair (rowGet e.1.old 0) (rowGet e.1.old 1) else x) (a.p.sreg n)

/-- The register as a word that reads it once sees it. -/
def State.sVal (s : State) (a : Agent) (n : BitVec 6) (k : Nat) : W64 := s.sLane a n k 0

/-- One 32-bit half of an s register in every lane. -/
def State.sRow (s : State) (a : Agent) (n : BitVec 6) (k : Nat) (high : Bool) : Row :=
  let half := fun (v : W64) => if high then wHigh v else wLow v
  if (a.c.early (.s n)).isEmpty then List.replicate 64 (half (a.p.sreg n)) else rowOf fun i => half (s.sLane a n k i)

/-- Register `j` of a source operand in all lanes, through its pattern: component `comp`, 0 for the primary (R63 to R65, R222). DEDUCED: log entry 110. -/
def State.srcRow (s : State) (a : Agent) (x : Src) (j comp k : Nat) : Row :=
  let through := fun (r : Row) => rowOf fun i =>
    let l := patLane x.pat a.p.pick.toNat i
    if l < a.h.lanes then rowGet r l else 0
  match x.reg with
  | .v n => through (s.vRow a (n + BitVec.ofNat 8 j) comp (k + j))
  | .t n => through (s.tRow a (n + BitVec.ofNat 3 j) comp (k + j))
  | .s n => if comp = 0 then s.sRow a n k (j ≠ 0) else rowZero
  | .c n =>
    if comp = 0 && j = 0 then
      let bits := rowOf fun i => if (a.p.creg n).getLsbD i && (a.p.lanes.getLsbD i || n = 7) then 1 else 0
      through (s.disturb a (.c n) 0 k bits)
    else rowZero
  | .imm n => if comp = 0 && j = 0 then List.replicate 64 (n.setWidth 32) else rowZero

/-- A 32-bit operand in each lane. -/
def State.src32 (s : State) (a : Agent) (x : Src) (slot : Nat) : Row := s.srcRow a x 0 0 (8 * slot)
/-- Component `comp` of register `j` of a source; `slot` tells the sources of one word apart. -/
def State.srcT (s : State) (a : Agent) (x : Src) (slot j comp : Nat) : Row := s.srcRow a x j comp (8 * slot + 32 * comp)

/-- An operand of one or two registers, as one value in each lane (R63). -/
def State.srcLanes (s : State) (a : Agent) (x : Src) (n slot : Nat) : List W64 :=
  let lo := s.srcRow a x 0 0 (8 * slot)
  if n = 1 then lo.map fun w => w.setWidth 64
  else (lo.zip (s.srcRow a x 1 0 (8 * slot))).map fun w => wPair w.1 w.2

def laneGet (l : List W64) (i : Nat) : W64 := l.getD i 0

/-- A source's value for a word that acts once: an s register or a constant (R67). -/
def State.srcUniform (s : State) (a : Agent) (x : Src) (n slot : Nat) : W64 := laneGet (s.srcLanes a x n slot) 0

/-! Writing registers. -/

/-- The row commitment of a home party (R36). -/
def LRec.commitment (r : LRec) : Nat := if r.tmode then r.vmax * (1 + r.tnum) else r.vmax

/-- The part of a result that later writes and unmappings leave outstanding. -/
def Dest.shrink (n : BitVec 8) (comp : Nat) (m : Mask) : Dest → Dest
  | .lanes r c k v => if r = n && c = comp then .lanes r c (k &&& ~~~m) v else .lanes r c k v
  | .gone r c k v => if r = n && c = comp then .gone r c (k &&& ~~~m) v else .gone r c k v
  | d => d

/-- A newer write, or an unmapping, of some lanes of a register takes them from the results still outstanding (R39, R60). -/
def State.overtake (s : State) (fid hp : Nat) (n : BitVec 8) (comp : Nat) (m : Mask) : State :=
  { s with longs := s.longs.map fun x => if x.fid = fid && x.hp = hp then { x with dests := x.dests.map (Dest.shrink n comp m) } else x }

/-- Unmap one shadow of a register (R41). -/
def Home.unmapShadow (h : Home) (n : BitVec 8) (comp : Nat) : Home := { h with rows := h.rows.filter fun x => !(x.reg = n && x.comp = comp) }

/-- A new row for a register or shadow: the given lanes from `data`, the others from the row before (R39). -/
def Home.setRow (h : Home) (n : BitVec 8) (comp : Nat) (m : Mask) (data : Row) : Home :=
  let old := match h.row? n comp with | some x => x.data | none => rowZero
  { h with rows := ⟨n, comp, rowMerge m data old⟩ :: h.rows.filter fun x => !(x.reg = n && x.comp = comp) }

/-- Every live party of the home party reads the register again (R39). -/
def Home.renew (h : Home) (n : BitVec 8) (pids : List Nat) : Home := { h with readers := (n, pids) :: h.readers.filter fun x => x.1 ≠ n }

/-- What one word writes. A v or t result has its primary and tangent components; `keep` leaves the shadows that it does not write
(TSET, TCLR); otherwise they are unmapped (R41, R222). -/
inductive Write where
  | row (r : Reg) (comps : List (Nat × Row)) (mask : Mask) (keep : Bool)
  | sreg (n : BitVec 6) (v : W64)
  | creg (n : BitVec 3) (m : Mask) (bits : Mask)
  | drop (n : BitVec 8) (comp : Nat)

/-- The rows that a list of writes leaves mapped. -/
def Home.afterWrite (h : Home) : Write → Home
  | .row (.v n) comps m keep =>
    let h := comps.foldl (fun h c => h.setRow n c.1 m c.2) h
    if keep then h else { h with rows := h.rows.filter fun x => x.reg ≠ n || x.comp = 0 || comps.any fun c => c.1 = x.comp }
  | .drop n c => h.unmapShadow n c
  | _ => h

/-- A fixed-latency write is remembered while a later word of the pitch could come too early for it. -/
def Pitch.remember (c : Pitch) (lat word : Nat) (n : Name) (comp : Nat) (old : Row) : Pitch :=
  if lat ≤ 1 then c else { c with recent := ⟨word, c.clk + lat, n, comp, old⟩ :: c.recent }

def State.onPitch (s : State) (pid : Nat) (f : Pitch → Pitch) : State := s.onParty pid fun p => { p with pitch := p.pitch.map f }

/-- A temporary's components written; its other components read 0 unless kept (R65, R222). -/
def Pitch.setTemp (c : Pitch) (n : BitVec 3) (comps : List (Nat × Row)) (m : Mask) (keep : Bool) : Pitch :=
  let put := fun (l : List Temp) (x : Nat × Row) =>
    let old := match l.find? fun t => t.reg = n && t.comp = x.1 with | some t => t.data | none => rowZero
    ⟨n, x.1, rowMerge m x.2 old⟩ :: l.filter fun t => !(t.reg = n && t.comp = x.1)
  let l := comps.foldl put c.temps
  { c with temps := if keep then l else l.filter fun t => t.reg ≠ n || t.comp = 0 || comps.any fun x => x.1 = t.comp }

/-- Perform one write of a party's word (R39, R41, R65, R25). -/
def State.write (s : State) (pid lat word : Nat) (w : Write) : State :=
  match s.party? pid with
  | none => s
  | some p =>
    match w with
    | .sreg n v =>
      let s := s.onPitch pid fun c => c.remember lat word (.s n) 0 [wLow (p.sreg n), wHigh (p.sreg n)]
      s.onParty pid fun p => { p with s := p.s.set n.toNat v }.mark fun m => { m with s := m.s ||| (1#64 <<< n.toNat) }
    | .creg n m bits =>
      if n = 7 then s else
      let old := p.creg n
      let s := s.onPitch pid fun c => c.remember lat word (.c n) 0 (rowOf fun i => if old.getLsbD i && p.lanes.getLsbD i then 1 else 0)
      s.onParty pid fun p => { p with c := p.c.set n.toNat ((old &&& ~~~m) ||| (bits &&& m)) }
    | .drop n comp => (s.onHome p.fid p.hp fun h => h.unmapShadow n comp).overtake p.fid p.hp n comp (BitVec.allOnes 64)
    | .row (.v n) comps m keep =>
      match s.home? p.fid p.hp with
      | none => s
      | some h =>
        let prior := fun (c : Nat) => match h.row? n c with | some x => x.data | none => rowZero
        let lost := if keep then [] else (upFrom 1 4).filter fun c => (h.row? n c).isSome && !comps.any fun x => x.1 = c
        let s := s.onPitch pid fun c => (comps.map (·.1) ++ lost).foldl (fun c x => c.remember lat word (.v n) x (prior x)) c
        let pids := (s.siblings p.fid p.hp).map (·.pid)
        let s := s.onHome p.fid p.hp fun h => (h.afterWrite w).renew n pids
        let s := comps.foldl (fun s x => s.overtake p.fid p.hp n x.1 m) s
        if keep then s
        else ((upFrom 1 4).filter fun c => !comps.any fun x => x.1 = c).foldl (fun s c => s.overtake p.fid p.hp n c (BitVec.allOnes 64)) s
    | .row (.t n) comps m keep =>
      s.onPitch pid fun c =>
        let old := fun (k : Nat) => match c.temps.find? fun t => t.reg = n && t.comp = k with | some t => t.data | none => rowZero
        let lost := if keep then [] else (upFrom 1 4).filter fun k => (c.temps.any fun t => t.reg = n && t.comp = k) && !comps.any fun x => x.1 = k
        ((comps.map (·.1) ++ lost).foldl (fun c x => c.remember lat word (.t n) x (old x)) c).setTemp n comps m keep
    | .row _ _ _ _ => s

/-- The registers that the last-read bits of a word free for the party (R66). -/
def lastNames (u : Uses) : List (BitVec 8) :=
  (u.srcs.filter fun x => x.1.lr).flatMap fun x => (regNames x.2 x.1.reg).filterMap fun n => match n with | .v k => some k | _ => none

def Home.afterReads (h : Home) (pid : Nat) (l : List (BitVec 8)) : Home := l.foldl (fun h n => h.dropReader n pid) h

/-- The party reads some registers for the last time (R39). -/
def State.freeReads (s : State) (p : Party) (l : List (BitVec 8)) : State :=
  if l.isEmpty then s else
  let s := s.onHome p.fid p.hp fun h => h.afterReads p.pid l
  match s.home? p.fid p.hp with
  | none => s
  | some h => l.foldl (fun s n => if (h.readersOf n).isEmpty then (upFrom 0 5).foldl (fun s c => s.overtake p.fid p.hp n c (BitVec.allOnes 64)) s else s) s

/-- Apply the last-read bits of a word (R66). -/
def State.lastReads (s : State) (p : Party) (u : Uses) : State := s.freeReads p (lastNames u)

/-- A register that was freed and mapped again by one word: its new row holds 0 in every lane (R39, R66). -/
def State.mapAnew (s : State) (p : Party) (n : BitVec 8) : State :=
  (upFrom 0 5).foldl (fun s c => s.overtake p.fid p.hp n c (BitVec.allOnes 64))
    (s.onHome p.fid p.hp fun h => { h with rows := modifyWhere (fun x => x.reg = n) (fun x => { x with data := rowZero }) h.rows })

/-! The end of a word and of a pitch. -/

/-- A party of a stopped forme goes at its pitch boundary (R28). -/
def State.settle (s : State) (pid : Nat) : State :=
  match s.party? pid with
  | none => s
  | some p =>
    if p.stopped && (p.pitch.isNone || !p.park.isEmpty) then
      let s := s.itemRecord p.fid p.hp p.dueItems
      let s := { s with parties := s.parties.filter fun (q : Party) => q.pid ≠ pid
                        issue := if s.issue = some pid then s.otherIssue pid else s.issue }
      s.stopped p.fid
    else s

/-- Where the party stands once its pitch has been closed (R51, R57). -/
def Party.closed (p : Party) (c : Pitch) : Party :=
  { p with pitch := none, awaits := c.awaits, pc := c.after, entry := if c.last then .fall else .inside, met := false, skip := 0, kept := [] }

/-! Proofing (R416). DESIGN CHOICE: log entry 89. -/

/-- The values that a register holds, with its shadows. -/
def Party.valuesOf (p : Party) (h : Home) (temps : List Temp) : Name → List W64
  | .v r => (h.rows.filter fun x => x.reg = r).flatMap fun x => x.data.map (·.setWidth 64)
  | .s n => [p.s.getD n.toNat 0]
  | .t n => (temps.filter fun x => x.reg = n).flatMap fun x => x.data.map (·.setWidth 64)
  | .c n => [p.c.getD n.toNat 0]
  | .w n =>
    let w := p.w.getD n.toNat {}
    [w.vb, w.len, w.frame, w.flim, w.toff].map (BitVec.ofNat 64)
  | .anyV => h.rows.flatMap fun x => x.data.map (·.setWidth 64)

/-- The registers that a pitch reads before it writes them, and those that it writes. -/
def auditNames (r : LRec) (is : List (Nat × Instr)) : List Name × List Name :=
  is.foldl (fun acc x =>
    let u := usesOf r x.2
    (acc.1 ++ u.reads.filter fun n => !acc.1.contains n && !acc.2.contains n, acc.2 ++ u.dsts.filter fun n => !acc.2.contains n)) ([], [])

/-- Whether a draw of 1 in 2^K selects, for a partition whose proofing is on. Which one does is unspecified. -/
def State.selects (s : State) (part k : Nat) : Bool :=
  let a := (s.part part).audctl
  a.getLsbD 15 && Config.freeNat s.freeCtr k % 2 ^ (a.extractLsb' 8 5).toNat = 0

/-- What a pitch is to capture as it issues, if it is selected. -/
def State.auditOf (s : State) (p : Party) (h : Home) (l : Launch) (is : List (Nat × Instr)) : Option (List W64 × List Name) :=
  if s.selects (((s.ctx l.ctx).part).getD 0) 2500000 then
    let (ins, outs) := auditNames l.record is
    some (ins.flatMap (p.valuesOf h p.kept), outs)
  else none

def unitDie : UnitId → Nat
  | .core n => n / 16
  | .pressPair n => n / 8
  | .platen n => n / 4

/-- A capture goes into its die's audit buffer, where it has room. -/
def State.auditPut (s : State) (x : Audit) : Bool × State :=
  if (s.audits.filter fun y => unitDie y.unit = unitDie x.unit).length < Config.auditBuffer then (true, { s with audits := s.audits ++ [x] }) else (false, s)

/-- A selected pitch has finished. -/
def State.auditTake (s : State) (p : Party) (c : Pitch) : State :=
  match c.audit, s.forme? p.fid, s.home? p.fid p.hp with
  | some (ins, outs), some f, some h =>
    match s.launch? f.lid with
    | none => s
    | some l =>
      let mine := fun (xs : List (Nat × W64)) => (xs.filter fun x => x.1 = p.pid).map (·.2)
      let (room, t) := s.auditPut {
        id := s.freeCtr, unit := .core f.core, ctx := l.ctx, fid := p.fid, hp := p.hp, pid := some p.pid, addr := c.base, tag := l.record.tag
        who := whoOf l.ctx f.core p.hp f.index, inputs := ins, returned := mine s.captures
        outputs := outs.flatMap (p.valuesOf h c.temps) ++ mine s.outputs }
      if room then t.count l.ctx 0x15 1 else t
  | _, _, _ => s

/-- Close the pitch of a party that goes on to the next one in memory. -/
def State.closePitch (s : State) (pid : Nat) : State :=
  match (s.party? pid).bind fun p => p.pitch.map fun c => (p, c) with
  | none => s
  | some (p, c) =>
    let s := s.auditTake p c
    let s := s.onParty pid fun p => p.closed c
    let s := { s with issue := s.otherIssue pid }
    s.settle pid

/-- The words by which a party's earlier plain stores become visible: fences, rope operations, waits and exits; releases see to it themselves (R252). -/
def publishes : Instr → Bool
  | .fence _ | .ropeSet _ | .ropeArv _ | .ropeWait _ | .ropeSync _ | .waitb _ | .waitc _ | .phase _ | .sleep _ | .yield _ | .isync _ | .fuse _ | .exit _
  | .ret _ => true
  | _ => false

/-- What a word that has completed makes visible (R252). -/
def State.shown (s : State) (a : Agent) (i : Instr) : State := if publishes i then s.publish (a.p.ancestry s.freeCtr) else s

/-- The clocks that a word takes; the last word's stall count has no effect (R52, R58, R74). -/
def Agent.clocks (a : Agent) (i : Instr) : Nat := if a.c.idx + wordsTaken i ≥ a.c.words.length then 1 else 1 + (shapeOf i).1.toNat

/-- A word has completed: its clocks pass, and after the last word the pitch closes (R58). -/
def State.advance (s : State) (a : Agent) (i : Instr) : State :=
  let t := a.clocks i
  let idx := a.c.idx + wordsTaken i
  let s := (s.shown a i).stir.pass (t + Config.freeNat s.freeCtr 2300000)
  let s := s.onParty a.p.pid fun p => { p with park := [] }
  let s := s.onPitch a.p.pid fun c => { c with idx := idx, clk := c.clk + t, left := none, refused := [], some_ := false, lost := [], solo := [] }
  if idx ≥ a.c.words.length then s.closePitch a.p.pid else s

/-! Traps of a word. -/

/-- The resume point at word `k` of the party's pitch, or at the next pitch when there is no such word (R404). DEDUCED: log entry 34. -/
def Agent.resumeAt (a : Agent) (k : Nat) : Resume × List Temp :=
  if k ≥ a.c.words.length then
    ({ cairn := if a.c.last then a.c.after else a.p.cairn, pc := a.c.after, entry := if a.c.last then .fall else .inside, word := 0, met := false }, [])
  else ({ cairn := a.p.cairn, pc := a.c.base, entry := .inside, word := k }, a.c.temps)

/-- Take a precise trap at a word, resuming at word `k`; the anchor's awaits bind the next pitch once the pitch is through. -/
def State.trapWord (s : State) (a : Agent) (i : Instr) (k : Nat) (code : TrapCode) (tinfo : Option Nat) (tmask : Mask) : State :=
  let (r, temps) := a.resumeAt k
  let s := if k ≥ a.c.words.length then a.onParty s fun p => { p with awaits := a.c.awaits } else s
  ((s.takeTrap a.p.pid false { code := code, tinfo := tinfo, word := a.word i, tmask := tmask, resume := r, temps := temps }).stir).settle a.p.pid

/-- Before the word has any effect: it is the resume point (R404). -/
def State.trapHere (s : State) (a : Agent) (i : Instr) (code : TrapCode) (tinfo : Option Nat) (tmask : Mask) : State :=
  s.trapWord a i a.c.idx code tinfo tmask

/-- After the word: the next one is the resume point (R404). -/
def State.trapAfter (s : State) (a : Agent) (i : Instr) (code : TrapCode) (tinfo : Option Nat) (tmask : Mask) : State :=
  s.trapWord a i (a.c.idx + wordsTaken i) code tinfo tmask

/-! The checks that every word shares. -/

/-- The first temporary that a word reads and the pitch has not written (R42). -/
def Agent.unset (a : Agent) (u : Uses) : Bool :=
  u.reads.any fun n => match n with | .t k => !a.c.temps.any fun t => t.reg = k | _ => false

/-- The word that produces what a checked read comes too early for (R61): the newest writer of the first such source. DEDUCED: log entry 49. -/
def State.tooEarly (s : State) (a : Agent) (u : Uses) : Option Nat :=
  (u.reads.filterMap fun n =>
    match (a.c.early n).head? with
    | some r => some r.word
    | none => match n with
      | .v _ => ((s.longsOf a.p.pid n).head?).map (·.word)
      | _ => none).head?

/-- What the body of a word does. -/
inductive Eff where
  /-- the word has completed, and the pitch goes on -/
  | done (s : State)
  /-- the word has written these registers; last reads and the commitment are still to be seen to (R66, R39) -/
  | writes (s : State) (ws : List Write)
  /-- the party moved, waits, parked or trapped -/
  | other (s : State)

/-- Whether a word's writes would take the footprint above the commitment (R39). -/
def Agent.overcommits (a : Agent) (u : Uses) (ws : List Write) : Bool :=
  let after := ws.foldl Home.afterWrite (a.h.afterReads a.p.pid (lastNames u))
  decide (after.footprint > a.l.record.commitment ∧ after.footprint > a.h.footprint)

/-- Whether a register that the word writes may keep values of other lanes. -/
def Agent.sharesRows (a : Agent) (s : State) : Bool := a.p.active ≠ a.p.lanes || decide (1 < (s.siblings a.p.fid a.p.hp).length)

/-- Apply a word's last reads and writes (R39, R66); its results depend on what its sources depend on (R249). -/
def State.commit (s : State) (a : Agent) (i : Instr) (u : Uses) (ws : List Write) : State :=
  let lat := match u.lat with | .fixed n => n | _ => 1
  let s := s.lastReads a.p u
  let s := ws.foldl (fun s w => s.write a.p.pid lat (a.word i) w) s
  let s := if u.dsts.contains .anyV then s.onPitch a.p.pid fun c => c.remember lat (a.word i) .anyV 9 [] else s
  (s.taint a.p u.dsts (s.taintOf a.p u.reads) (a.sharesRows s)).advance a i

/-- The words of an instruction count as issued (R396), once where a missing translation holds it. -/
def State.counted (t : State) (a : Agent) (i : Instr) : State :=
  if (t.party? a.p.pid).any fun p => !p.park.isEmpty && p.pitch.any fun c => c.idx = a.c.idx then t else t.count a.l.ctx 0x01 (wordsTaken i)

/-- The hints, which never trap once they are decoded (R263). -/
def neverTraps : Instr → Bool
  | .pref _ | .reuse _ => true
  | _ => false

/-- Run one word of the issuing party. `perLane` words, and those that act through an elected lane, are withheld when no lane is
active, but for their last-read bits (R26, R66). DEDUCED: log entry 93. -/
def State.word (s : State) (i : Instr) (perLane : Bool) (body : Agent → Eff) : Host.Outcome State Fault Refusal :=
  match s.agent with
  | .error e => .fault e
  | .ok a =>
    let u := usesOf a.l.record i
    if perLane && a.p.active = 0 then .next (((s.lastReads a.p u).advance a i).counted a i)
    else if !neverTraps i && a.unset u then .next ((s.trapHere a i .tempUnset none a.p.active).counted a i)
    else match (if a.l.record.chk && !neverTraps i then s.tooEarly a u else none) with
      | some w => .next ((s.trapHere a i .stallShort (some w) a.p.active).counted a i)
      | none =>
        match body a with
        | .done s => .next (((s.lastReads a.p u).advance a i).counted a i)
        | .writes t ws => .next ((if a.overcommits u ws then s.trapHere a i .badCairn none a.p.active else t.commit a i u ws).counted a i)
        | .other s => .next (s.counted a i)

end Sys2Proof.Machine
end

