-- ==== Sys2Proof/Machine/Flags.lean ====
section
/-! DEFINITION. The status word ps and the forme's flags as a party reads and writes them (R44, R45), and words that compute
each lane by itself, with the flags that any lane sets (R136, R138). -/
namespace Sys2Proof.Machine

/-! ps and flags. -/

/-- The status word (R44). -/
def State.psWord (s : State) (a : Agent) : W64 :=
  let r := a.l.record
  let bit := fun (b : Bool) (n : Nat) => if b then 2 ^ n else 0
  BitVec.ofNat 64 (a.p.depth * 2 ^ 32 + (s.siblings a.p.fid a.p.hp).length * 2 ^ 24 + r.tnum * 2 ^ 13 + bit r.tmode 12 + bit r.chk 11
    + bit a.p.hnd 10 + bit a.p.fused 3 + bit a.p.udiv 1)

/-- Bits of `x` outside `known`, each kept or not as a free value decides (R45). -/
def State.someOf (s : State) (x known : BitVec 9) : BitVec 9 :=
  (upFrom 0 9).foldl (fun m k => if x.getLsbD k && (known.getLsbD k || Config.freeBit s.freeCtr (5000 + k)) then m ||| (1#9 <<< k) else m) 0

/-- Bits 7 and 6 of flags are reserved. -/
def flagBits : BitVec 9 := 0x13F

/-- A party's read of flags: its own bits, those from before a rope release that it passed, SATARM, and any of the others (R45). DEDUCED: log entry 39. -/
def State.readFlags (s : State) (a : Agent) : W64 := (s.someOf a.f.flags (a.p.seen ||| 0x100)).setWidth 64

/-- A party's write of flags replaces the defined bits; a bit that another party set since the last rope that this one passed may come
before or after the write (R45). -/
def State.writeFlags (s : State) (a : Agent) (v : W64) : State :=
  let x := v.setWidth 9 &&& flagBits
  let late := s.someOf (a.f.flags &&& ~~~a.p.seen &&& 0x3F) 0
  (s.onForme a.p.fid fun f => { f with flags := x ||| late }).onParty a.p.pid fun p => { p with seen := x &&& 0x3F }

/-! Words that compute each lane by itself. -/

/-- What one lane computes: the registers of its result, the same of each tangent component, and the flags set. -/
structure LaneRes where
  words : List W32 := []
  tans  : List (List W32) := []
  flags : BitVec 9 := 0
deriving DecidableEq, Repr

/-- A result of one register, and one of one or two registers. -/
def res32 (w : W32) : LaneRes := { words := [w] }
def resN (n : Nat) (v : W64) : LaneRes := { words := if n = 1 then [wLow v] else [wLow v, wHigh v] }

/-- The value that an s destination takes from a result (R137). -/
def uniformResult (n : Nat) (sext : Bool) (r : LaneRes) : W64 :=
  let lo := r.words.getD 0 0
  if n = 1 then (if sext then lo.signExtend 64 else lo.setWidth 64) else wPair lo (r.words.getD 1 0)

/-- The writes that store the lanes' results: `n` registers and `nt` tangent components in the lanes of `m` (R136, R137, R222). -/
def resultWrites (d : Reg) (n : Nat) (sext : Bool) (nt : Nat) (m : Mask) (rs : List LaneRes) : List Write :=
  let col := fun (j : Nat) => rs.map fun r => r.words.getD j 0
  let tan := fun (k j : Nat) => rs.map fun r => (r.tans.getD k []).getD j 0
  let comps := fun (j : Nat) => (0, col j) :: (upFrom 0 nt).map fun k => (k + 1, tan k j)
  match d with
  | .v k => (upFrom 0 n).map fun j => .row (.v (k + BitVec.ofNat 8 j)) (comps j) m false
  | .t k => (upFrom 0 n).map fun j => .row (.t (k + BitVec.ofNat 3 j)) (comps j) m false
  | .s k => [.sreg k (uniformResult n sext (rs.headD {}))]
  | .c k => [.creg k m (maskOf fun i => ((rs.getD i {}).words.headD 0) ≠ 0)]
  | .imm _ => []

def flagsOf (rs : List LaneRes) : BitVec 9 := rs.foldl (fun x r => x ||| r.flags) 0

/-- The results of the lanes of a mask; the other lanes' are not used. -/
def laneResults (m : Mask) (f : Nat → LaneRes) : List LaneRes := lanes64.map fun i => if m.getLsbD i then f i else {}

/-- Tangent components of an eligible word; with an s destination it has none (R221). -/
def Agent.tansTo (a : Agent) (i : Instr) (d : Reg) : Nat := if d.isS then 0 else a.tans i

/-- A word whose lanes compute `f`, given the acting party and the tangent components that it carries; with an s destination it acts
once for the party (R136). -/
def State.lanewise (s : State) (i : Instr) (d : Reg) (n : Nat) (sext elig : Bool) (f : Agent → Nat → Nat → LaneRes) :
    Host.Outcome State Fault Refusal :=
  s.word i (!d.isS) fun a =>
    let nt := if elig then a.tansTo i d else 0
    let m := if d.isS then 1#64 else a.p.active
    let rs := laneResults m (f a nt)
    .writes (s.setFlagsBy a.p.pid a.p.fid (flagsOf rs)) (resultWrites d n sext nt m rs)

end Sys2Proof.Machine
end

