-- ==== Sys2Proof/Machine/Float.lean ====
section
/-! DEFINITION. Floating-point arithmetic, seeds and functions, conversion and block quantisation (R157 to R171), with the tangents of
each (R223, R224). -/
namespace Sys2Proof.Machine

/-! Elements of a register (R110). -/

def elemOf (f : Fmt) (w : W32) (k : Nat) : Nat := w.toNat / 2 ^ (f.width * k) % 2 ^ f.width
def elemCount (f : Fmt) : Nat := 32 / f.width
def packElems (width : Nat) (l : List Nat) : W32 :=
  BitVec.ofNat 32 ((l.zip (upFrom 0 l.length)).foldl (fun a x => a + x.1 * 2 ^ (width * x.2)) 0)

def canonNan (f : Fmt) : Nat := (f.layout.nan).getD 0

/-- A tangent component as it is written (R223): `reads` are the source tangents that the formula reads. -/
def tangentBits (f : Fmt) (satm nanPrimary clamped : Bool) (reads : List XR) (t : XR) : Nat :=
  if nanPrimary then canonNan f
  else if clamped then 0
  else if reads.all XR.isZero then 0
  else
    let b := (place f satm .rne t).1
    if (valOf f b).isZero then 0 else b

/-! Words on packed elements. -/

/-- What a word does with the elements of one position: its result's bits and flags, and its tangent's formula from the operand values,
the result and the source tangents. -/
structure ElemOp where
  val : List Nat → Nat × BitVec 9
  tan : List XR → XR → List XR → List XR × XR

/-- One lane of a word whose sources and destination share a packed type (R157). -/
def packedLane (f : Fmt) (op : ElemOp) (ws : List W32) (ts : List (List W32)) : LaneRes :=
  let ks := upFrom 0 (elemCount f)
  let rs := ks.map fun k => op.val (ws.map fun w => elemOf f w k)
  { words := [packElems f.width (rs.map (·.1))]
    tans := ts.map fun tw => [packElems f.width (ks.map fun k =>
      let d := valOf f (rs.getD k (0, 0)).1
      let (rd, t) := op.tan (ws.map fun w => valOf f (elemOf f w k)) d (tw.map fun w => valOf f (elemOf f w k))
      tangentBits f true d.isNan false rd t)]
    flags := rs.foldl (fun x r => x ||| r.2) 0 }

/-- The sources' rows, and those of each tangent component. -/
def State.srcAll (s : State) (a : Agent) (xs : List Src) (nt : Nat) : List Row × List (List Row) :=
  let ix := xs.zip (upFrom 0 xs.length)
  (ix.map fun x => s.src32 a x.1 x.2, (upFrom 1 nt).map fun c => ix.map fun x => s.srcT a x.1 x.2 0 c)

def State.packedOp (s : State) (i : Instr) (d : Reg) (f : Fmt) (xs : List Src) (op : ElemOp) : Host.Outcome State Fault Refusal :=
  s.lanewise i d 1 false true fun a nt =>
    let (rows, ts) := s.srcAll a xs nt
    fun k => packedLane f op (rows.map fun r => rowGet r k) (ts.map fun t => t.map fun r => rowGet r k)

/-- An exact result of the operands' values, rounded once (R158). -/
def exactOp (f : Fmt) (rm : RmCode) (val : List XR → XR) (tan : List XR → XR → List XR → List XR × XR) : ElemOp :=
  { val := fun ws => let vs := ws.map (valOf f); floatResult f rm vs (val vs), tan := tan }

def xr (l : List XR) (k : Nat) : XR := l.getD k (.fin (.zero false))
def isRdn (rm : RmCode) : Bool := rm = .rdn

/-! Arithmetic (R158 to R163). -/

def execFadd (o : V2) (s : State) :=
  s.packedOp (.fadd o) o.d (tyFmt o.ty) [o.a, o.b] (exactOp (tyFmt o.ty) o.rm (fun v => (xr v 0).add (isRdn o.rm) (xr v 1))
    fun _ _ t => (t, (xr t 0).add false (xr t 1)))

def execFsub (o : V2) (s : State) :=
  s.packedOp (.fsub o) o.d (tyFmt o.ty) [o.a, o.b] (exactOp (tyFmt o.ty) o.rm (fun v => (xr v 0).add (isRdn o.rm) (xr v 1).neg)
    fun _ _ t => (t, (xr t 0).add false (xr t 1).neg))

def mulTan (v t : List XR) : XR := ((xr t 0).mul (xr v 1)).add false ((xr v 0).mul (xr t 1))

def execFmul (o : V2) (s : State) :=
  s.packedOp (.fmul o) o.d (tyFmt o.ty) [o.a, o.b] (exactOp (tyFmt o.ty) o.rm (fun v => (xr v 0).mul (xr v 1)) fun v _ t => (t, mulTan v t))

def fmaFmt : FmaTy → Fmt | .f32 => .fp32 | .f16 => .fp16 | .b16 => .bf16

/-- The rounding code of a pair or quad of opcodes: the low opcode bit above M (R68, R79). -/
def mxRm (e : Bool) (m : BitVec 2) : RmCode :=
  match e, m.toNat with
  | true, _ => .rna
  | false, 0 => .rne | false, 1 => .rz | false, 2 => .rup | false, _ => .rdn

def execFfma (ty : FmaTy) (e : Bool) (o : V3) (s : State) :=
  let f := fmaFmt ty
  let rm := mxRm e o.m
  s.packedOp (.ffma ty e o) o.d f [o.a, o.b, o.c] (exactOp f rm (fun v => ((xr v 0).mul (xr v 1)).add (isRdn rm) (xr v 2))
    fun v _ t => (t, (mulTan v t).add false (xr t 2)))

/-- One lane of a dot product of packed elements added to an FP32 value (R159). -/
def dotLane (f : Fmt) (rm : RmCode) (ws : List W32) (ts : List (List W32)) : LaneRes :=
  let ks := upFrom 0 (elemCount f)
  let el := fun (w : W32) (k : Nat) => valOf f (elemOf f w k)
  let a := ws.getD 0 0; let b := ws.getD 1 0; let c := val32 (ws.getD 2 0)
  let x := (ks.map fun k => (el a k).mul (el b k)).foldl (fun x y => x.add (isRdn rm) y) c
  let ops := c :: ks.flatMap fun k => [el a k, el b k]
  let (bits, fl) := floatResult .fp32 rm ops x
  let d := valOf .fp32 bits
  { words := [BitVec.ofNat 32 bits], flags := fl
    tans := ts.map fun tw =>
      let ta := tw.getD 0 0; let tb := tw.getD 1 0; let tc := val32 (tw.getD 2 0)
      let t := (ks.map fun k => ((el ta k).mul (el b k)).add false ((el a k).mul (el tb k))).foldl (fun x y => x.add false y) tc
      let rd := tc :: ks.flatMap fun k => [el ta k, el tb k]
      [BitVec.ofNat 32 (tangentBits .fp32 true d.isNan false rd t)] }

def State.dotOp (s : State) (i : Instr) (o : V3) (f : Fmt) (rm : RmCode) : Host.Outcome State Fault Refusal :=
  s.lanewise i o.d 1 false true fun a nt =>
    let (rows, ts) := s.srcAll a [o.a, o.b, o.c] nt
    fun k => dotLane f rm (rows.map fun r => rowGet r k) (ts.map fun t => t.map fun r => rowGet r k)

def execFdot2 (bf e : Bool) (o : V3) (s : State) := s.dotOp (.fdot2 bf e o) o (if bf then .bf16 else .fp16) (mxRm e o.m)
def execFdot4 (e5 e : Bool) (o : V3) (s : State) := s.dotOp (.fdot4 e5 e o) o (if e5 then .e5m2 else .e4m3) (mxRm e o.m)

/-- Whether FMIN or FMAX writes B's bits (R160): -0 counts below +0. -/
def takesB (greater : Bool) (x y : XR) : Bool :=
  if x.isNan then true else if y.isNan then false
  else
    let less := fun (p q : XR) => p.lt q || (p.isZero && q.isZero && p.sign && !q.sign)
    if greater then less x y else less y x

def minMaxOp (f : Fmt) (greater : Bool) : ElemOp :=
  { val := fun ws =>
      let x := valOf f (ws.getD 0 0); let y := valOf f (ws.getD 1 0)
      (if x.isNan && y.isNan then canonNan f else if takesB greater x y then ws.getD 1 0 else ws.getD 0 0, 0)
    tan := fun v _ t => let c := if takesB greater (xr v 0) (xr v 1) then xr t 1 else xr t 0; ([c], c) }

def execFmin (o : V2) (s : State) := s.packedOp (.fmin o) o.d (tyFmt o.ty) [o.a, o.b] (minMaxOp (tyFmt o.ty) false)
def execFmax (o : V2) (s : State) := s.packedOp (.fmax o) o.d (tyFmt o.ty) [o.a, o.b] (minMaxOp (tyFmt o.ty) true)

/-- The conditions of FCMP (R80, R161); codes 8 to 13 are the complements of EQ, GE, GT, LE, LT and ORD. -/
def fcond (sub : Nat) (x y : XR) : Bool :=
  let ord := !x.isNan && !y.isNan
  let eq := ord && !x.lt y && !y.lt x
  match sub with
  | 0 => eq | 1 => x.lt y | 2 => x.lt y || eq | 3 => y.lt x | 4 => y.lt x || eq | 5 => ord
  | 8 => !eq | 9 => !(y.lt x || eq) | 10 => !y.lt x | 11 => !(x.lt y || eq) | 12 => !x.lt y | _ => !ord

def execFcmp (o : V2) (s : State) :=
  s.lanewise (.fcmp o) o.d 1 false false fun a _ =>
    let x := s.src32 a o.a 0
    let y := s.src32 a o.b 1
    fun k => res32 (if fcond o.sub.toNat (val32 (rowGet x k)) (val32 (rowGet y k)) then 1 else 0)

/-- The class bit of a value (R162). -/
def fclass (x : XR) : Nat :=
  match x with
  | .nan => 8
  | .inf true => 0
  | .inf false => 7
  | .fin q =>
    if q.isZero then (if q.neg then 3 else 4)
    else if q.log2 < -126 then (if q.neg then 2 else 5)
    else (if q.neg then 1 else 6)

def execFclass (o : V2) (s : State) :=
  s.lanewise (.fclass o) o.d 1 false false fun a _ =>
    let x := s.src32 a o.a 0
    fun k => res32 (BitVec.ofNat 32 (2 ^ fclass (val32 (rowGet x k))))

/-- Round to an integer value of the format (R163). -/
def frnd (f : Fmt) (rm : RmCode) (w : Nat) : Nat × BitVec 9 :=
  match valOf f w with
  | .nan => (canonNan f, 0)
  | .inf _ => (w, 0)
  | .fin q =>
    if q.isZero then (w, 0)
    else (f.layout.encode (q.roundAt rm 0), if q.inexactAt 0 then flagInx else 0)

def execFrnd (o : V2) (s : State) :=
  s.packedOp (.frnd o) o.d (tyFmt o.ty) [o.a] { val := fun ws => frnd (tyFmt o.ty) o.rm (ws.getD 0 0), tan := fun _ _ _ => ([], .fin (.zero false)) }

/-- A × 2^B; NaN, infinities and zeros pass (R163). -/
def fscale (f : Fmt) (rm : RmCode) (b : Int) (w : Nat) : Nat × BitVec 9 :=
  match valOf f w with
  | .nan => (canonNan f, 0)
  | .inf _ => (w, 0)
  | .fin q => if q.isZero then (w, 0) else place f true rm (.fin (q.scale b))

def xrScale (b : Int) : XR → XR
  | .fin q => .fin (q.scale b)
  | x => x

def execFscale (o : V2) (s : State) :=
  s.lanewise (.fscale o) o.d 1 false true fun a nt =>
    let (rows, ts) := s.srcAll a [o.a] nt
    let bs := s.src32 a o.b 1
    fun k =>
      let b := intOf true 32 (rowGet bs k).toNat
      packedLane (tyFmt o.ty) { val := fun ws => fscale (tyFmt o.ty) o.rm b (ws.getD 0 0), tan := fun _ _ t => (t, xrScale b (xr t 0)) }
        (rows.map fun r => rowGet r k) (ts.map fun t => t.map fun r => rowGet r k)

/-- The exponent as an I32 value (R163). DEDUCED: log entry 25. -/
def execFexpn (o : V2) (s : State) :=
  s.lanewise (.fexpn o) o.d 1 true false fun a _ =>
    let x := s.src32 a o.a 0
    fun k => res32 (match val32 (rowGet x k) with
      | .fin q => if q.isZero then 0x80000000 else BitVec.ofInt 32 q.log2
      | _ => 0x7FFFFFFF)

/-! Seeds and functions (R164, R165). -/

/-- A function of one FP32 value, with its tangent's derivative factor. -/
def State.funOp (s : State) (i : Instr) (o : V2) (f : XR → Nat × BitVec 9) (tan : XR → XR → XR → XR) : Host.Outcome State Fault Refusal :=
  s.packedOp i o.d .fp32 [o.a] { val := fun ws => f (valOf .fp32 (ws.getD 0 0)), tan := fun v d t => (t, tan (xr v 0) d (xr t 0)) }

/-- LN2 of R224, exactly. -/
def ln2 : XR := .fin ⟨false, ln2Fixed, 1, -44⟩

def execFrcps (o : V2) (s : State) := s.funOp (.frcps o) o rcpSeed fun _ d t => ((d.mul d).mul t).neg
def execFrsqs (o : V2) (s : State) := s.funOp (.frsqs o) o rsqSeed fun _ d t => (XR.mul (.fin ⟨true, 1, 1, -1⟩) ((d.mul d).mul d)).mul t
def execFex2 (o : V2) (s : State) := s.funOp (.fex2 o) o ex2Exact fun _ d t => (ln2.mul d).mul t
def execFlg2 (o : V2) (s : State) := s.funOp (.flg2 o) o lg2Exact fun x _ t => t.div (ln2.mul x)
def execFsin (o : V2) (s : State) := s.funOp (.fsin o) o sinExact fun x _ t => (valOf .fp32 (cosExact x).1).mul t
def execFcos (o : V2) (s : State) := s.funOp (.fcos o) o cosExact fun x _ t => ((valOf .fp32 (sinExact x).1).mul t).neg

/-! Conversion (R166 to R168). -/

/-- An element converted into a slot's format: bits, flags, and whether it was clamped (R117, R223). -/
def convert (w : W32) (rm : RmCode) (x : XR) : Nat × BitVec 9 × Bool :=
  match slotFmt w with
  | none => (0, 0, false)
  | some f =>
    let (b, fl) := place f (slotSatm w) rm x
    (b, fl, fl.getLsbD 0 && !x.isNan)

/-- The tangent of a converted element: the source's, placed in the slot's format (R223, R224). -/
def convertTan (w : W32) (c : Nat × BitVec 9 × Bool) (t : XR) : Nat :=
  match slotFmt w with
  | none => 0
  | some f => tangentBits f true (valOf f c.1).isNan c.2.2 [t] t

/-- A converted element as registers: integers extended, the rest right-aligned (R166). -/
def convertRes (w : W32) (b : Nat) : List W32 :=
  match slotFmt w with
  | some (.int sg n) =>
    let v := if sg then BitVec.ofInt 64 (intOf true n b) else BitVec.ofNat 64 b
    if n = 64 then [wLow v, wHigh v] else [wLow v]
  | _ => [BitVec.ofNat 32 b]

/-- Tangents belong to floating conversions only (R139). -/
def cvtEligible (r : LRec) (o : V2) : Bool := !o.ty.isInt && slotFloat (r.slot o.fs)

def State.cvtLane (s : State) (a : Agent) (o : V2) (nt : Nat) : Nat → LaneRes :=
  let w := a.l.record.slot o.fs
  let x := s.srcLanes a o.a o.ty.regs 0
  let ts := (upFrom 1 nt).map fun c => s.srcT a o.a 0 0 c
  let f := (tyFmt o.ty)
  let elem := fun (v : Nat) => valOf f (v / 2 ^ (f.width * o.sub.toNat) % 2 ^ f.width)
  fun k =>
    let c := convert w (rmWith o.rm w) (elem (laneGet x k).toNat)
    { words := convertRes w c.1, flags := c.2.1, tans := ts.map fun r => [BitVec.ofNat 32 (convertTan w c (elem (rowGet r k).toNat))] }

/-- An integer slot's result in an s register is extended as its type says (R137, R166). -/
def slotSigned (w : W32) : Bool := match slotFmt w with | some (.int sg _) => sg | _ => false

def execCvt (o : V2) (s : State) :=
  s.word (.cvt o) (!o.d.isS) fun a =>
    let w := a.l.record.slot o.fs
    let nt := if cvtEligible a.l.record o then a.tansTo (.cvt o) o.d else 0
    let m := if o.d.isS then 1#64 else a.p.active
    let rs := laneResults m (s.cvtLane a o nt)
    .writes (s.setFlagsBy a.p.pid a.p.fid (flagsOf rs)) (resultWrites o.d (cvtRegs w) (slotSigned w) nt m rs)

/-- Pack FP32 values as elements of a slot's format, the first at bit `base` (R167). -/
def packLane (w : W32) (rm : RmCode) (base : Nat) (ws : List W32) (ts : List (List W32)) : LaneRes :=
  let width := match slotFmt w with | some f => f.width | none => 32
  let cs := ws.map fun x => convert w rm (val32 x)
  let put := fun (l : List Nat) => BitVec.ofNat 32 ((packElems width l).toNat * 2 ^ base)
  { words := [put (cs.map (·.1))], flags := cs.foldl (fun x c => x ||| c.2.1) 0
    tans := ts.map fun tw => [put ((cs.zip tw).map fun c => convertTan w c.1 (val32 c.2))] }

def execPack2 (o : V2) (s : State) :=
  s.lanewise (.pack2 o) o.d 1 false true fun a nt =>
    let w := a.l.record.slot o.fs
    let (rows, ts) := s.srcAll a [o.a, o.b] nt
    fun k => packLane w (rmWith o.rm w) 0 (rows.map fun r => rowGet r k) (ts.map fun t => t.map fun r => rowGet r k)

/-- Value `j` of a pair of 32-bit values: two s registers hold one each (R167). DEDUCED: log entry 26. -/
def State.pairRow (s : State) (a : Agent) (x : Src) (slot j comp : Nat) : Row :=
  match x.reg with
  | .s n => if comp = 0 then s.sRow a (n + BitVec.ofNat 6 j) (8 * slot + j) false else rowZero
  | _ => if comp = 0 then s.srcRow a x j 0 (8 * slot) else s.srcT a x slot j comp

/-- The rows of the pairs A and B, and those of each tangent component. -/
def State.pairRows (s : State) (a : Agent) (x y : Src) (nt : Nat) : List Row × List (List Row) :=
  let rows := fun (c : Nat) => [s.pairRow a x 0 0 c, s.pairRow a x 0 1 c, s.pairRow a y 1 0 c, s.pairRow a y 1 1 c]
  (rows 0, (upFrom 1 nt).map rows)

def execPack4 (o : V2) (s : State) :=
  s.lanewise (.pack4 o) o.d 1 false true fun a nt =>
    let w := a.l.record.slot o.fs
    let base := if slotFmt w = some .e2m1 then 16 * (o.x.toNat % 2) else 0
    let (rows, ts) := s.pairRows a o.a o.b nt
    fun k => packLane w (rmWith o.rm w) base (rows.map fun r => rowGet r k) (ts.map fun t => t.map fun r => rowGet r k)

/-- Expand a register's elements into FP32 (R168). -/
def expand (f : Fmt) (h : Nat) (w : W32) : List Nat :=
  let n := match f with | .fp16 | .bf16 => 2 | _ => 4
  (upFrom (if f = .e2m1 then 4 * h else 0) n).map fun k => elemOf f w k

/-- The writes of an expansion: `n` registers, and in s registers one value in each, zero-extended (R137, R168). -/
def expandWrites (d : Reg) (n nt : Nat) (m : Mask) (rs : List LaneRes) : List Write :=
  match d with
  | .s k => (upFrom 0 n).map fun j => .sreg (k + BitVec.ofNat 6 j) (((rs.headD {}).words.getD j 0).setWidth 64)
  | _ => resultWrites d n false nt m rs

def execXpnd (o : V2) (s : State) :=
  s.word (.xpnd o) (!o.d.isS) fun a =>
    let w := a.l.record.slot o.fs
    let f := (slotFmt w).getD .fp16
    let nt := a.tansTo (.xpnd o) o.d
    let (rows, ts) := s.srcAll a [o.a] nt
    let wide := fun (b : Nat) => BitVec.ofNat 32 (place .fp32 true .rne (valOf f b)).1
    let lane := fun (k : Nat) =>
      let ps := expand f o.x.toNat (rowGet (rows.headD rowZero) k)
      { words := ps.map wide
        tans := ts.map fun t => (ps.zip (expand f o.x.toNat (rowGet (t.headD rowZero) k))).map fun e =>
          BitVec.ofNat 32 (tangentBits .fp32 true (valOf f e.1).isNan false [valOf f e.2] (valOf f e.2)) : LaneRes }
    let m := if o.d.isS then 1#64 else a.p.active
    .writes s (expandWrites o.d (xpndRegs w) nt m (laneResults m lane))

/-! Block quantisation (R169 to R171). -/

def slotBq (w : W32) : Nat := match slotFmt w with | some (.bq b) => b | _ => 2

/-- The 32 lane words of a block (R169). -/
def blockWords (b xe : Nat) (area : Nat) : List W32 :=
  (upFrom 0 32).map fun l => if l < b then BitVec.ofNat 32 (area / 2 ^ (32 * l)) else if l = 31 then BitVec.ofNat 32 xe else 0

/-- What a block instruction writes. R169 to R171 state no value for an s register: a free function of what R102 lets it depend on, extended as
R137 says. DESIGN CHOICE: log entry 27. -/
def blockWrites (o : V2) (quant : Bool) (slot x : W32) (m : Mask) (rs : List LaneRes) : List Write :=
  match o.d with
  | .s k => [.sreg k ((Config.blockWord quant slot o.rm.code x).setWidth 64)]
  | d => resultWrites d 1 false 0 m rs

/-- The flags of a decoded block element: R171 has only the one value that FP32 cannot hold set any, and an exact subnormal none. -/
def decodeFlags (fl : BitVec 9) : BitVec 9 := if fl &&& (flagSat ||| flagOvf) = 0 then 0 else fl

/-- The lanes that a block instruction takes: all of them where it acts once for the party (R136). -/
def Agent.blockLanes (a : Agent) (d : Reg) : Mask := if d.isS then BitVec.allOnes 64 else a.p.active

def execQblk (o : V2) (s : State) :=
  s.word (.qblk o) (!o.d.isS) fun a =>
    let w := a.l.record.slot o.fs
    let b := slotBq w
    let x := s.src32 a o.a 0
    let act := a.blockLanes o.d
    let blocks := (upFrom 0 2).map fun j =>
      let (xe, q, fl) := bqEncode b (rmWith o.rm w) ((upFrom (32 * j) 32).map fun l => if act.getLsbD l then val32 (rowGet x l) else .fin (.zero false))
      let live := ((upFrom (32 * j) 32).any fun l => act.getLsbD l)
      (live, blockWords b xe (bqArea b q), if live then fl else 0)
    let m := maskOf fun i => a.p.lanes.getLsbD i && ((blocks.getD (i / 32) (false, [], 0)).1)
    let row := blocks.flatMap fun e => e.2.1
    let fl := blocks.foldl (fun f e => f ||| e.2.2) 0
    .writes (s.setFlagsBy a.p.pid a.p.fid fl) (blockWrites o true w (rowGet x 0) m (row.map res32))

/-- The values of a block, read as 0 at the positions that the home party lacks, whose flags are those of R171 alone (R116 would set UNF for an exact subnormal). DESIGN CHOICE: log entry 27. -/
def execDqblk (o : V2) (s : State) :=
  s.word (.dqblk o) (!o.d.isS) fun a =>
    let w := a.l.record.slot o.fs
    let b := slotBq w
    let r := s.src32 a o.a 0
    let x := rowOf fun i => if i < a.h.lanes then rowGet r i else 0
    let areas := (upFrom 0 2).map fun j =>
      ((rowGet x (32 * j + 31)).toNat % 256, (upFrom 0 b).foldl (fun v l => v + (rowGet x (32 * j + l)).toNat * 2 ^ (32 * l)) 0)
    let rs := laneResults (a.blockLanes o.d) fun i =>
      let (xe, area) := areas.getD (i / 32) (0, 0)
      let (bits, fl) := place .fp32 (slotSatm w) .rne (bqValue b xe (bqField b (i % 32) area))
      { words := [BitVec.ofNat 32 bits], flags := decodeFlags fl }
    .writes (s.setFlagsBy a.p.pid a.p.fid (flagsOf rs)) (blockWrites o false w (rowGet r 0) a.p.active rs)

end Sys2Proof.Machine
end

