-- ==== Sys2Proof/Machine/Integer.lean ====
section
/-! DEFINITION. Integer arithmetic, logic, shifts, bit fields, compares, selects, lane conditions and moves (R141 to R156). -/
namespace Sys2Proof.Machine

/-- Width in bits of an integer type (R104). -/
def tyBits : OpTy → Nat
  | .i8 | .n8 => 8 | .i16 | .n16 => 16 | .i64 | .n64 => 64 | _ => 32

/-- An operand read as its type (R105). -/
def tyVal (t : OpTy) (w : W64) : Int := intOf t.signed (tyBits t) w.toNat

/-- A value written in its type: wrapped, and a narrow result extended to 32 bits (R105, R118). -/
def tyPut (t : OpTy) (x : Int) : W64 :=
  let w := wrapTo (tyBits t) x
  if t.signed then BitVec.ofInt 64 (intOf true (tyBits t) w) else BitVec.ofNat 64 w

/-- A result of the type in one or two registers. -/
def tyRes (t : OpTy) (x : Int) : LaneRes := resN t.regs (tyPut t x)

/-- Two operands of the type give a result of the type. -/
def State.intBin (s : State) (i : Instr) (o : V2) (f : Int → Int → Int) : Host.Outcome State Fault Refusal :=
  s.lanewise i o.d o.ty.regs o.ty.signed false fun a _ =>
    let x := s.srcLanes a o.a o.ty.regs 0
    let y := s.srcLanes a o.b o.ty.regs 1
    fun k => tyRes o.ty (f (tyVal o.ty (laneGet x k)) (tyVal o.ty (laneGet y k)))

/-- One operand of the type gives a result of the type. -/
def State.intUn (s : State) (i : Instr) (o : V2) (f : Int → Int) : Host.Outcome State Fault Refusal :=
  s.lanewise i o.d o.ty.regs o.ty.signed false fun a _ =>
    let x := s.srcLanes a o.a o.ty.regs 0
    fun k => tyRes o.ty (f (tyVal o.ty (laneGet x k)))

/-- Two operands as bits give a result as bits, of the type's width. -/
def State.bitBin (s : State) (i : Instr) (o : V2) (f : W64 → W64 → W64) : Host.Outcome State Fault Refusal :=
  s.lanewise i o.d o.ty.regs o.ty.signed false fun a _ =>
    let x := s.srcLanes a o.a o.ty.regs 0
    let y := s.srcLanes a o.b o.ty.regs 1
    fun k => resN o.ty.regs (f (laneGet x k) (laneGet y k))

/-- A value of the type's width and a count of 32 bits (R143). -/
def State.shiftOp (s : State) (i : Instr) (o : V2) (f : Int → Nat → Int) : Host.Outcome State Fault Refusal :=
  s.lanewise i o.d o.ty.regs o.ty.signed false fun a _ =>
    let x := s.srcLanes a o.a o.ty.regs 0
    let y := s.src32 a o.b 1
    fun k => tyRes o.ty (f (laneGet x k).toNat (rowGet y k).toNat)

/-- Three 32-bit operands give one 32-bit result. -/
def State.triOp (s : State) (i : Instr) (o : V3) (sext : Bool) (f : W32 → W32 → W32 → W32) : Host.Outcome State Fault Refusal :=
  s.lanewise i o.d 1 sext false fun a _ =>
    let x := s.src32 a o.a 0
    let y := s.src32 a o.b 1
    let z := s.src32 a o.c 2
    fun k => res32 (f (rowGet x k) (rowGet y k) (rowGet z k))

/-- A count of the bits of an operand, in one register (R145). -/
def State.countOp (s : State) (i : Instr) (o : V2) (f : Nat → Nat → Nat) : Host.Outcome State Fault Refusal :=
  s.lanewise i o.d 1 o.ty.signed false fun a _ =>
    let x := s.srcLanes a o.a o.ty.regs 0
    fun k => res32 (BitVec.ofNat 32 (f (tyBits o.ty) ((laneGet x k).toNat % 2 ^ tyBits o.ty)))

/-! Arithmetic (R141). -/

def execIadd (o : V2) (s : State) := s.intBin (.iadd o) o (· + ·)
def execIsub (o : V2) (s : State) := s.intBin (.isub o) o (· - ·)
def execImul (o : V2) (s : State) := s.intBin (.imul o) o (· * ·)
def execImulh (o : V2) (s : State) := s.intBin (.imulh o) o fun x y => shrInt (x * y) (tyBits o.ty)
def execIneg (o : V2) (s : State) := s.intUn (.ineg o) o fun x => -x
def execIabs (o : V2) (s : State) := s.intUn (.iabs o) o fun x => x.natAbs
def execImin (o : V2) (s : State) := s.intBin (.imin o) o min
def execImax (o : V2) (s : State) := s.intBin (.imax o) o max

/-- .I32 when M bit 0 is 0, .N32 when it is 1 (R140). -/
def mType (m : BitVec 2) : OpTy := if m.getLsbD 0 then .n32 else .i32

def execImad (o : V3) (s : State) := s.triOp (.imad o) o (!o.m.getLsbD 0) fun x y z => x * y + z

def execImadw (o : V3) (s : State) :=
  let t := mType o.m
  s.lanewise (.imadw o) o.d 2 t.signed false fun a _ =>
    let x := s.src32 a o.a 0
    let y := s.src32 a o.b 1
    let z := s.srcLanes a o.c 2 2
    fun k =>
      let e := fun (w : W32) => intOf t.signed 32 w.toNat
      resN 2 (BitVec.ofInt 64 (e (rowGet x k) * e (rowGet y k) + (laneGet z k).toNat))

def execIclamp (o : V3) (s : State) :=
  let t := mType o.m
  s.triOp (.iclamp o) o t.signed fun x y z =>
    let e := fun (w : W32) => intOf t.signed 32 w.toNat
    BitVec.ofInt 32 (min (max (e x) (e y)) (e z))

/-- The shift count is SUB (R141). -/
def execLea (o : V2) (s : State) :=
  s.lanewise (.lea o) o.d o.ty.regs o.ty.signed false fun a _ =>
    let x := s.srcLanes a o.a o.ty.regs 0
    let y := s.src32 a o.b 1
    fun k => tyRes o.ty (tyVal o.ty (laneGet x k) + intOf o.ty.signed 32 (rowGet y k).toNat * 2 ^ o.sub.toNat)

/-! Logic (R142). -/

def execAnd (o : V2) (s : State) := s.bitBin (.and o) o (· &&& ·)
def execOr (o : V2) (s : State) := s.bitBin (.or o) o (· ||| ·)
def execXor (o : V2) (s : State) := s.bitBin (.xor o) o (· ^^^ ·)
def execAndn (o : V2) (s : State) := s.bitBin (.andn o) o fun x y => x &&& ~~~y
def execOrn (o : V2) (s : State) := s.bitBin (.orn o) o fun x y => x ||| ~~~y
def execNot (o : V2) (s : State) :=
  s.lanewise (.not o) o.d o.ty.regs o.ty.signed false fun a _ =>
    let x := s.srcLanes a o.a o.ty.regs 0
    fun k => resN o.ty.regs (~~~laneGet x k)

/-- Bit k of the result is bit A[k] + 2 B[k] + 4 C[k] of the table (R142). -/
def bmix (table : BitVec 8) (x y z : W32) : W32 :=
  let pick := fun (n : Nat) (p q r : W32) => if table.getLsbD n then p &&& q &&& r else 0
  (upFrom 0 8).foldl (fun w n => w ||| pick n (if n % 2 = 1 then x else ~~~x) (if n / 2 % 2 = 1 then y else ~~~y) (if n / 4 = 1 then z else ~~~z)) 0

/-- The table stands in the pattern bits of B and C, which are read with the identity pattern (R68). DEDUCED: log entry 112. -/
def execBmix (o : V3) (s : State) :=
  s.lanewise (.bmix o) o.d 1 false false fun a _ =>
    let x := s.src32 a o.a 0
    let y := s.src32 a { o.b with pat := 0 } 1
    let z := s.src32 a { o.c with pat := 0 } 2
    fun k => res32 (bmix (o.c.pat ++ o.b.pat) (rowGet x k) (rowGet y k) (rowGet z k))

/-! Shifts (R143): a count of the width or more is a rule of its own. -/

def execShl (o : V2) (s : State) := s.shiftOp (.shl o) o fun x n => if n ≥ tyBits o.ty then 0 else x * 2 ^ n
def execShr (o : V2) (s : State) := s.shiftOp (.shr o) o fun x n => if n ≥ tyBits o.ty then 0 else shrInt x n
def execSar (o : V2) (s : State) := s.shiftOp (.sar o) o fun x n =>
  shrInt (intOf true (tyBits o.ty) x.toNat) (min n (tyBits o.ty))
def execRol (o : V2) (s : State) := s.shiftOp (.rol o) o fun x n =>
  let k := n % tyBits o.ty
  x * 2 ^ k + shrInt x (tyBits o.ty - k)

/-- Bits, so zero-extended in an s register (R137). DEDUCED: log entry 112. -/
def execFshl (o : V3) (s : State) := s.triOp (.fshl o) o false fun x y z =>
  BitVec.ofNat 32 (((x.toNat * 2 ^ 32 + y.toNat) * 2 ^ (z.toNat % 32)) / 2 ^ 32)

/-! Bit fields (R144). -/

/-- M bit 0 is 1 for .I32 here (R140). -/
def bfx (signed : Bool) (x y z : W32) : W32 :=
  let pos := y.toNat % 256
  let len := min (z.toNat % 256) 32
  let wide : Int := if signed then intOf true 32 x.toNat else x.toNat
  if len = 0 then 0 else
  let f := intOf signed len (wrapTo len (shrInt wide pos))
  BitVec.ofInt 32 f

def execBfx (o : V3) (s : State) := s.triOp (.bfx o) o (o.m.getLsbD 0) (bfx (o.m.getLsbD 0))

def bfi (x y z : W32) : W32 :=
  let pos := z.toNat % 256
  let len := z.toNat / 256 % 256
  let m : W32 := if pos ≥ 32 then 0 else BitVec.ofNat 32 ((2 ^ (min len 32) - 1) * 2 ^ pos)
  (x &&& ~~~m) ||| ((y <<< pos) &&& m)

/-- Bits, so zero-extended in an s register (R137). DEDUCED: log entry 112. -/
def execBfi (o : V3) (s : State) := s.triOp (.bfi o) o false bfi

/-! Counting bits (R145). -/

def bitCount : Nat → Nat → Nat
  | 0, _ => 0
  | n + 1, x => x % 2 + bitCount n (x / 2)
def trailing : Nat → Nat → Nat
  | 0, _ => 0
  | n + 1, x => if x % 2 = 1 then 0 else 1 + trailing n (x / 2)
def reverseBits : Nat → Nat → Nat → Nat
  | 0, _, r => r
  | n + 1, x, r => reverseBits n (x / 2) (2 * r + x % 2)

def execPopc (o : V2) (s : State) := s.countOp (.popc o) o bitCount
def execClz (o : V2) (s : State) := s.countOp (.clz o) o fun w x => if x = 0 then w else w - 1 - log2 x
def execCtz (o : V2) (s : State) := s.countOp (.ctz o) o trailing
def execBrev (o : V2) (s : State) :=
  s.lanewise (.brev o) o.d o.ty.regs o.ty.signed false fun a _ =>
    let x := s.srcLanes a o.a o.ty.regs 0
    fun k => resN o.ty.regs (BitVec.ofNat 64 (reverseBits (tyBits o.ty) (laneGet x k).toNat 0))

/-! Compare, select and lane conditions (R146 to R149). -/

def icond (sub : BitVec 4) (x y : Int) : Bool :=
  match sub.toNat with
  | 0 => x = y | 1 => x ≠ y | 2 => x < y | 3 => x ≤ y | 4 => y < x | _ => y ≤ x

def bool32 (b : Bool) : W32 := if b then 1 else 0

def execIcmp (o : V2) (s : State) :=
  s.lanewise (.icmp o) o.d 1 false false fun a _ =>
    let x := s.srcLanes a o.a o.ty.regs 0
    let y := s.srcLanes a o.b o.ty.regs 1
    fun k => res32 (bool32 (icond o.sub (tyVal o.ty (laneGet x k)) (tyVal o.ty (laneGet y k))))

/-- The rows of a source's registers for one component. -/
def State.srcRegs (s : State) (a : Agent) (x : Src) (n slot comp : Nat) : List Row :=
  (upFrom 0 n).map fun j => if comp = 0 then s.srcRow a x j 0 (8 * slot) else s.srcT a x slot j comp

def regsAt (rs : List Row) (k : Nat) : List W32 := rs.map fun r => rowGet r k

/-- Tangents of SEL and its like are copies of the source that gives the primary (R223, R224). -/
def execSel (o : V3) (s : State) :=
  let n := if o.m.getLsbD 0 then 2 else 1
  s.lanewise (.sel o) o.d n false true fun a nt =>
    let x := (upFrom 0 (nt + 1)).map fun c => s.srcRegs a o.a n 0 c
    let y := (upFrom 0 (nt + 1)).map fun c => s.srcRegs a o.b n 1 c
    let z := s.src32 a o.c 2
    fun k =>
      let from_ := (if rowGet z k ≠ 0 then x else y).map fun r => regsAt r k
      { words := from_.headD [], tans := from_.tail }

/-- Combine two lane conditions (R148). -/
def clop (sub : BitVec 4) (x y : Bool) : Bool :=
  match sub.toNat with
  | 0 => x && y | 1 => x || y | 2 => x != y | 3 => x && !y | 4 => x || !y | 5 => !x | _ => x

def execClop (o : V2) (s : State) :=
  s.lanewise (.clop o) o.d 1 false false fun a _ =>
    let x := s.src32 a o.a 0
    let y := if o.sub.toNat ≤ 4 then s.src32 a o.b 1 else rowZero
    fun k => res32 (bool32 (clop o.sub (rowGet x k ≠ 0) (rowGet y k ≠ 0)))

/-- The value gathered over the active lanes (R149). -/
def vote (sub : BitVec 4) (m : Mask) (x : List W64) : W64 :=
  let ls := maskLanes m
  let on := fun (i : Nat) => laneGet x i ≠ 0
  match sub.toNat with
  | 0 => if ls.all on then 1 else 0
  | 1 => if ls.any on then 1 else 0
  | 2 => if ls.all fun i => laneGet x i = laneGet x (ls.headD 0) then 1 else 0
  | _ => maskOf fun i => m.getLsbD i && on i

/-- A c, v or t destination takes the result in every active lane, an s destination once (R149). -/
def execCvote (o : V2) (s : State) :=
  s.word (.cvote o) true fun a =>
    let v := vote o.sub a.p.active (s.srcLanes a o.a o.ty.regs 0)
    match o.d with
    | .s n => .writes s [.sreg n v]
    | d => .writes s (resultWrites d 1 false 0 a.p.active (lanes64.map fun _ => res32 (wLow v)))

/-! Moves (R150 to R155). -/

def execMov (o : V2) (s : State) :=
  s.lanewise (.mov o) o.d o.ty.regs o.ty.signed true fun a nt =>
    let x := (upFrom 0 (nt + 1)).map fun c => s.srcRegs a o.a o.ty.regs 0 c
    fun k => { words := regsAt (x.headD []) k, tans := x.tail.map fun r => regsAt r k }

def execMovi (o : VW) (s : State) := s.lanewise (.movi o) o.d 1 false false fun _ _ _ => res32 o.imm

def execMovhi (o : VW) (s : State) :=
  s.word (.movhi o) false fun a =>
    match o.d with
    | .s n => .writes s [.sreg n (wPair (wLow (a.p.sreg n)) o.imm)]
    | _ => .done s

/-- The v registers that the active lanes name (R152). -/
def namedRegs (m : Mask) (x : Row) : List (BitVec 8) :=
  (maskLanes m).foldl (fun l i => let n := (rowGet x i).toNat
    if n ≤ 255 && !l.contains (BitVec.ofNat 8 n) then l ++ [BitVec.ofNat 8 n] else l) []

/-- MOVX reads lane i of the register that lane i names. A checked read of a result that was not awaited traps (R61, R152). -/
def execMovx (o : V2) (s : State) :=
  s.word (.movx o) true fun a =>
    let x := s.src32 a o.a 0
    let regs := namedRegs a.p.active x
    let late := regs.filterMap fun n => ((s.longsOf a.p.pid (.v n)).head?).map (·.word)
    match (if a.l.record.chk then late.head? else none) with
    | some w => .other (s.trapHere a (.movx o) .stallShort (some w) a.p.active)
    | none =>
      let rows := regs.map fun n => (n.toNat, s.vRow a n 0 (64 + n.toNat))
      let rs := laneResults a.p.active fun k =>
        res32 (match rows.find? fun r => r.1 = (rowGet x k).toNat with | some r => rowGet r.2 k | none => 0)
      .writes s (resultWrites o.d 1 false 0 a.p.active rs)

/-- MOVXW writes lane i of the register that lane i names (R152). -/
def State.movxwWrites (s : State) (a : Agent) (o : V2) : List Write :=
  let x := s.src32 a o.a 0
  (namedRegs a.p.active x).map fun n =>
    .row (.v n) [(0, s.src32 a o.b 1)] (maskOf fun i => a.p.active.getLsbD i && (rowGet x i).toNat = n.toNat) false

def execMovxw (o : V2) (s : State) := s.word (.movxw o) true fun a => .writes s (s.movxwWrites a o)

def execLperm (o : V2) (s : State) :=
  s.lanewise (.lperm o) o.d o.ty.regs o.ty.signed true fun a nt =>
    let x := (upFrom 0 (nt + 1)).map fun c => s.srcRegs a o.a o.ty.regs 0 c
    let y := s.src32 a o.b 1
    fun k =>
      let j := (rowGet y k).toNat
      let at_ := fun (r : List Row) => if j < a.h.lanes then regsAt r j else r.map fun _ => 0
      { words := at_ (x.headD []), tans := x.tail.map at_ }

/-! Special registers (R43, R154 to R156). -/

/-- The forme's coordinates from its linear index, x fastest (R31). -/
def Agent.coord (a : Agent) (k : Nat) : Nat :=
  let r := a.l.record
  match k with
  | 0 => a.f.index % r.gx
  | 1 => a.f.index / r.gx % r.gy
  | _ => a.f.index / r.gx / r.gy

/-- What a read of a special register returns (R43, R154). -/
def State.special (s : State) (a : Agent) (n : BitVec 8) : W64 :=
  match n.toNat with
  | 0x00 => a.p.em
  | 0x01 => s.psWord a
  | 0x02 => BitVec.ofNat 64 a.f.rc
  | 0x03 => a.p.pick.setWidth 64
  | 0x04 => s.readFlags a
  | 0x06 => BitVec.ofNat 64 (a.p.hp % 32)
  | 0x07 => BitVec.ofNat 64 (a.coord 0)
  | 0x08 => BitVec.ofNat 64 (a.coord 1)
  | 0x09 => BitVec.ofNat 64 (a.coord 2)
  | 0x0A => BitVec.ofNat 64 (a.f.core % 16 + 16 * dieOf a.f.core + (match s.fit with | .f2 => 0 | .m1 => 32))
  | 0x0B => BitVec.ofNat 64 s.clk
  | 0x20 => a.p.tstat
  | 0x21 => a.p.tpc
  | 0x22 => a.p.tinfo
  | 0x23 => a.p.titems
  | 0x24 => a.p.tmask
  | 0x25 => BitVec.ofNat 64 a.l.record.handler
  | k => if 0x10 ≤ k ∧ k ≤ 0x17 then (a.l.record.fslot.getD (k - 0x10) 0).setWidth 64 else 0

/-- What MOVS reads is captured for proofing: coreid and clk, which depend on placement and timing, and every other special register (R43, R103, R154,
R416). -/
def State.noteRead (s : State) (a : Agent) (v : W64) : State := s.capture a.p.pid v

/-- A write of a special register, which takes effect for the next word (R21, R44, R45, R47, R154). -/
def State.setSpecial (s : State) (a : Agent) (n : BitVec 8) (v : W64) : State :=
  match n.toNat with
  | 0x00 => a.onParty s fun p => { p with em := v &&& p.lanes &&& ~~~p.exited }
  | 0x01 => a.onParty s fun p => { p with udiv := v.getLsbD 1 }
  | 0x03 => a.onParty s fun p => { p with pick := v.setWidth 6 }.mark fun m => { m with pick := true }
  | 0x04 => s.writeFlags a v
  | 0x21 => if a.p.hnd then a.onParty s fun p => { p with tpc := v, tpcSet := true } else s
  | _ => s

def execMovs (o : UF) (s : State) :=
  s.word (.movs o) false fun a =>
    if o.imm = 0 then
      match o.d with
      | .s n => .writes (s.noteRead a (s.special a o.idx)) [.sreg n (s.special a o.idx)]
      | _ => .done s
    else .writes (s.setSpecial a o.idx (s.sVal a o.ua 0)) []

def execMovsw (o : UF) (s : State) :=
  s.lanewise (.movsw o) o.d 1 false false fun _ _ k => res32 (BitVec.ofNat 32 k)

/-- One destination of a result is written; lanes that a later write took are no longer in it (R60). -/
def State.deliver (s : State) (x : Long) (d : Dest) : State :=
  match d with
  | .lanes r c m v =>
    match (s.home? x.fid x.hp).bind fun h => h.row? r c with
    | none => s
    | some _ => s.onHome x.fid x.hp fun h => h.setRow r c m v
  | .sreg n v => { s with parties := s.parties.map fun p => if x.owners.contains p.pid then { p with s := p.s.set n.toNat v } else p }
  | .gone .. => s
  | .wreg n w => { s with parties := s.parties.map fun p => if x.owners.contains p.pid then { p with w := p.w.set n.toNat w } else p }

/-- The 32-bit words of a load's result (R267). -/
def loadWords (sz : Sz) (bs : List Byte) : List W32 :=
  let n := natOfBytes bs
  match sz with
  | .x8 => [(BitVec.ofNat 8 n).signExtend 32]
  | .x16 => [(BitVec.ofNat 16 n).signExtend 32]
  | _ => (upFrom 0 sz.regs).map fun k => BitVec.ofNat 32 (n / 2 ^ (32 * k))

/-- LDK's value in an s register (R268). -/
def ldkValue (sz : Sz) (bs : List Byte) : W64 :=
  let n := natOfBytes bs
  match sz with
  | .x8 => (BitVec.ofNat 8 n).signExtend 64
  | .x16 => (BitVec.ofNat 16 n).signExtend 64
  | _ => BitVec.ofNat 64 n

/-- The byte with a key of `State.past`. -/
def State.keyByte (s : State) (k : Nat) : Byte :=
  if k % 2 = 0 then s.readPa (k / 2) else (s.locRead (.spad (k / 2 / 2 ^ 22) (k / 2 % 2 ^ 22)) 1).headD 0

/-- A load's destinations with one of its accesses read again. -/
def Long.reload (x : Long) (y : Act) (bs : List Byte) : Long :=
  let ws := loadWords x.size bs
  { x with dests := (x.dests.foldl (fun (acc : List Dest × Nat) d => match d with
      | .lanes r c m v => if c = y.comp then (acc.1 ++ [.lanes r c m (rowOf fun i => if i = y.lane then ws.getD acc.2 0 else rowGet v i)], acc.2 + 1) else (acc.1 ++ [d], acc.2)
      | .sreg n _ => (acc.1 ++ [.sreg n (ldkValue x.size bs)], acc.2)
      | _ => (acc.1 ++ [d], acc.2)) ([], 0)).1 }

/-- The accesses of a load whose result arrives have been made at last: some of them after writes that came later (R250). -/
def State.lateReads (s : State) (x : Long) : State × Long :=
  x.loads.foldl (fun (acc : State × Long) id => match acc.1.acts.find? fun y => y.id = id with
    | none => acc
    | some y =>
      let t := acc.1.overtaken y
      if t.acts = acc.1.acts then acc
      else (t, acc.2.reload y (t.without (t.still y) (runKeys y.reads) ((runKeys y.reads).map t.keyByte)))) (s, x)

/-- A result arrives whole (R59). -/
def State.arrived (s : State) (x : Long) : State :=
  let (s, x) := s.lateReads x
  x.dests.foldl (fun (s : State) d => s.deliver x d) { s with longs := s.longs.filter fun y => y.id ≠ x.id }

/-- Line-sized requests of some accesses (R48). -/
def requestsOf (l : List Nat) : Nat := (l.foldl (fun ls a => if ls.contains (a / 128) then ls else a / 128 :: ls) []).length

/-- A core has room for 8,192 outstanding requests: the oldest results come in before a request that would pass that (R2, R48). DEDUCED: log entry 107. -/
def State.makeRoom (s : State) (core n : Nat) : State :=
  if n = 0 then s else
  let here := s.longs.filter fun x => decide (0 < x.reqs) && (s.forme? x.fid).any fun f => f.core = core
  (here.foldl (fun (acc : State × Nat) x => if acc.2 + n ≤ 8192 then acc else (acc.1.arrived x, acc.2 - x.reqs)) (s, sumBy Long.reqs here)).1

/-- A long-latency result of the word: the party's, with its registers' old values until it arrives (R59); `from_` are the accesses that read it, which
may still come after later writes where it is a load's (R249, R250). DEDUCED: log entry 94. -/
def State.addLong (s : State) (a : Agent) (i : Instr) (dests : List Dest) (accs : List (Nat × Nat × Nat × Nat)) (reqs : Nat := 0)
    (from_ : List Nat := []) (late : Option Sz := none) : State :=
  let wrote := fun (m : Marks) (d : Dest) => match d with
    | .sreg n _ => { m with s := m.s ||| (1#64 <<< n.toNat) }
    | .wreg n _ => { m with w := m.w ||| (1#16 <<< n.toNat) }
    | .lanes .. | .gone .. => m
  let s := a.onParty s fun p => p.mark fun m => dests.foldl wrote m
  let got := dests.flatMap fun d => match d with | .lanes _ _ _ r => r.map (·.setWidth 64) | .sreg _ v => [v] | .wreg .. | .gone .. => []
  let s := got.foldl (fun s v => s.capture a.p.pid v) (s.emit a.p.pid got)
  let s := s.makeRoom a.f.core reqs
  let u := usesOf a.l.record i
  let s := s.taint a.p u.dsts (if from_.isEmpty then s.taintOf a.p u.reads else from_) (a.c.some_ || a.sharesRows s)
  { s.bump with longs := s.longs ++ [{ id := s.nextId, fid := a.p.fid, hp := a.p.hp, owners := [a.p.pid], word := a.word i, addr := a.addr i, dests := dests
                                       accs := accs, reqs := reqs, loads := (if late.isSome then from_ else []), size := late.getD .w32 }] }

/-- Clocks that the ready parties of a context have waited so far; the count takes them in when they issue (R396). -/
def State.waitClocks (s : State) (c : Nat) : Nat :=
  sumBy (fun p : Party => if ((s.forme? p.fid).bind fun f => s.launch? f.lid).any (fun l => decide (l.ctx = c)) then (p.readySince.map fun t => s.clk - t).getD 0 else 0) s.parties

/-- A counter of a context (R396). Those of the caches rest on the free choices that the caches themselves do. DESIGN CHOICE: log entry 12. DESIGN
CHOICE: log entry 40. -/
def State.counterOf (s : State) (c idx : Nat) : W64 :=
  if idx = 0x02 then (s.ctx c).counters.getD idx 0 + BitVec.ofNat 64 (s.waitClocks c)
  else if idx = 0x14 then BitVec.ofNat 64 (((s.ctx c).part.map fun p => (s.part p).sigma).getD 16)
  else (s.ctx c).counters.getD idx 0

/-- The counter of the issuing party's context; the result arrives later (R156, R395). -/
def execCtrr (o : UF) (s : State) :=
  s.word (.ctrr o) false fun a =>
    match o.d with
    | .s n => .done ((s.capture a.p.pid (s.counterOf a.l.ctx o.idx.toNat)).addLong a (.ctrr o) [.sreg n (s.counterOf a.l.ctx o.idx.toNat)] [])
    | _ => .done s

end Sys2Proof.Machine
end

