-- ==== Sys2Proof/Machine/Issue.lean ====
section
/-! DEFINITION. Fetching and decoding a pitch (R50 to R57, R60, R76, R81 to R83), readiness and arbitration (R328, R329), and
boundary traps (R402). -/
namespace Sys2Proof.Machine

/-! Fetching (R50). -/

/-- Why a pitch does not issue. -/
inductive Stop where
  /-- the translation of an address is missing -/
  | miss (a : Nat)
  /-- a trap, its tinfo and the index of the offending word -/
  | trap (code : TrapCode) (tinfo : Nat) (word : Nat)
  /-- a fall-through that reached no cairn (R53) -/
  | fall (a : Nat)
deriving DecidableEq, Repr

/-- A word as its home holds it: the RDC never supplies code, and may or may not have written its dirty bytes home, each word whole (R277, R437).
DEDUCED: log entry 22. -/
def State.codeAt (s : State) (pa : Nat) : W64 :=
  let old := Config.freeBit s.freeCtr (110000 + pa)
  let byte := fun (b : Nat) => match s.unhomed.find? fun x => x.1 = b with
    | some x => if old then x.2 else memGet s.mem b
    | none => memGet s.mem b
  BitVec.ofNat 64 (wordOfBytes ((upFrom pa 8).map byte))

/-- What a word was at the times since a step at which it has been written: a party may have fetched it then (R280, R437). DEDUCED: log entry 22. -/
def State.codeSince (s : State) (pa t : Nat) : List W64 :=
  let now := s.readPaN pa 8
  let ts := (s.past.filter fun o => decide (memKey pa ≤ o.key ∧ o.key < memKey (pa + 8)) && o.key % 2 = 0 && decide (t ≤ o.at_)).map (·.at_)
  ts.map fun k => BitVec.ofNat 64 (wordOfBytes (s.asOf (memKey pa) now k))

/-- A word as the core fetches it: from its home, or an older copy that the instruction cache still holds, or that the party has fetched ahead since its
start or its latest ISYNC (R279, R280, R362, R437). DEDUCED: log entry 130. -/
def State.fetchWord (s : State) (p : Party) (core : Nat) (l : Launch) (a : Nat) : Except Stop W64 :=
  match s.translateFor l.space p.park a .x with
  | .miss => .error (.miss a)
  | .refused => .error (.trap .accessViolation a 0)
  | .hit pa =>
    match s.lost (s.ctx l.ctx).tenant pa with
    | some c => .error (.trap c a 0)
    | none =>
      if s.poisoned pa 8 then .error (.trap .poison a 0) else
      let home := s.codeAt pa
      let cached := match s.icache.find? fun x => x.core = core && x.addr = lineOf pa with
        | some x => x.words.getD (pa % 128 / 8) 0
        | none => home
      let held := ((p.fetched.filter fun x => x.1 = a).map (·.2)) ++ s.codeSince pa p.freshAt
      .ok (s.oneOf (100000 + pa) home (home :: (cached :: held).filter (· ≠ home)))

/-- The instruction lines that a fetch leaves in the core's instruction cache. -/
def State.fillCode (s : State) (core : Nat) (sp : Space) (a n : Nat) : State :=
  (upFrom 0 n).foldl (fun s k =>
    match s.translate sp (a + 8 * k) .x with
    | .hit pa =>
      let s := s.correct pa 8
      if s.icache.any fun x => x.core = core && x.addr = lineOf pa then s
      else { s with icache := ⟨core, lineOf pa, (upFrom 0 16).map fun j => s.codeAt (lineOf pa + 8 * j)⟩ :: s.icache }
    | _ => s) s

def majorOf (w : W64) : BitVec 8 := w.extractLsb' 56 8
def isCairn (w : W64) : Bool := majorOf w = opCairn
def isAnchor (w : W64) : Bool := majorOf w = opAnchor

/-! The cairn's fields (R54). -/

def cairnLen (w : W64) : Nat := (w.extractLsb' 44 12).toNat
def cairnLive (w : W64) : Nat := (w.extractLsb' 33 11).toNat
/-- The reconvergence point: none when RCV is 0. -/
def cairnRcv (w : W64) (at_ : Nat) : Option Nat :=
  let r := w.extractLsb' 9 24
  if r = 0 then none else some (((at_ : Int) + 8 * r.toInt) % 2 ^ 64).toNat
def cairnReserved (w : W64) : Nat := (w.extractLsb' 0 3).toNat

/-! The anchor's fields (R56). -/

def anchorCount (w : W64) : Nat := (w.extractLsb' 53 3).toNat
def anchorEntry (w : W64) (k : Nat) : BitVec 8 := w.extractLsb' (45 - 8 * k) 8
def anchorList (w : W64) : List (BitVec 8) := (upFrom 0 (anchorCount w)).map (anchorEntry w)
def anchorOk (w : W64) : Bool :=
  decide (anchorCount w ≤ 6) && ((upFrom 0 6).all fun k => decide (k < anchorCount w) || anchorEntry w k = 0) && (w.extractLsb' 0 5) = 0

/-! Framing (R53). -/

/-- A pitch as fetched: its words, its anchor, the address after the anchor, and whether it is the block's last. -/
structure Framed where
  cairn  : Nat
  base   : Nat
  words  : List W64
  anchor : W64
  after  : Nat
  last   : Bool
  rcv    : Option Nat
  blockEnd : Nat
deriving DecidableEq, Repr

/-- The words of a pitch up to its anchor; `k` words stand before the address. -/
def State.scan (s : State) (p : Party) (core : Nat) (l : Launch) (cairn len : Nat) : Nat → Nat → Nat → Except Stop (List W64 × W64 × Nat)
  | 0, a, k => .error (.trap .badCairn a k)
  | fuel + 1, a, k =>
    let off := (a - cairn) / 8
    if off ≥ len then .error (.trap .badCairn a k) else
    match s.fetchWord p core l a with
    | .error e => .error (match e with | .trap c t _ => .trap c t k | e => e)
    | .ok w =>
      if isCairn w then .error (.trap .badCairn a k)
      else if isAnchor w then .ok ([], w, a)
      else if off + 1 = len ∨ k ≥ 24 then .error (.trap .badCairn a k)
      else match s.scan p core l cairn len fuel (a + 8) (k + 1) with
        | .error e => .error e
        | .ok (ws, an, e) => .ok (w :: ws, an, e)

/-- The cairn of the block that the party enters, checked (R39, R53, R54, R55, R83). -/
def State.enterBlock (s : State) (p : Party) (h : Home) (core : Nat) (l : Launch) : Except Stop W64 :=
  match s.fetchWord p core l p.pc with
  | .error e => .error e
  | .ok c =>
    if p.pc % 8 ≠ 0 ∨ !isCairn c then .error (match p.entry with | .fall => .fall p.pc | _ => .trap .badCairn p.pc 0)
    else if cairnLen c ≤ 1 ∨ cairnReserved c ≠ 0 ∨ cairnLive c > l.record.vmax ∨ h.footprint > cairnLive c then .error (.trap .badCairn p.pc 0)
    else .ok c

/-- Fetch the party's next pitch (R51 to R53). -/
def State.frame (s : State) (p : Party) (h : Home) (core : Nat) (l : Launch) : Except Stop Framed :=
  let head : Except Stop (W64 × Nat × Nat) := match p.entry with
    | .inside => match s.fetchWord p core l p.cairn with | .ok c => .ok (c, p.cairn, p.pc) | .error e => .error e
    | _ => match s.enterBlock p h core l with | .ok c => .ok (c, p.pc, p.pc + 8) | .error e => .error e
  match head with
  | .error e => .error e
  | .ok (c, cairn, start) =>
    match s.scan p core l cairn (cairnLen c) 26 start 0 with
    | .error e => .error e
    | .ok (ws, an, e) => .ok { cairn := cairn, base := start, words := ws, anchor := an, after := e + 8
                               last := decide ((e - cairn) / 8 + 1 = cairnLen c)
                               rcv := cairnRcv c cairn
                               blockEnd := cairn + 8 * cairnLen c }

/-! Decoding a whole pitch (R81). -/

/-- Instructions that transfer control (R52). -/
def transfers : Instr → Bool
  | .bra _ | .brc _ | .brx _ | .call _ | .callx _ | .ret _ | .exit _ | .eret _ => true
  | _ => false

/-- Instructions that may hold the party (R52). -/
def mayWait : Instr → Bool
  | .fuse _ | .yield _ | .sleep _ | .isync _ | .ropeWait _ | .ropeSync _ | .phase _ | .waitc _ | .waitb _ => true
  | _ => false

/-- The families of formats that a press operation multiplies (R183). -/
def pressFamily : Fmt → Option Nat
  | .fp16 => some 0 | .bf16 => some 1 | .e4m3 => some 2 | .e5m2 => some 2 | .e2m1 => some 3 | .bq _ => some 4
  | _ => none

def pressPair (a b : W32) : Bool :=
  match (slotFmt a).bind pressFamily, (slotFmt b).bind pressFamily with
  | some x, some y => x = y
  | _, _ => false

def galleyFmt (w : W32) : Bool :=
  match slotFmt w with
  | some .fp32 | some .fp16 | some .bf16 | some .e4m3 | some .e5m2 => true
  | _ => false

/-- Whether the formats in the slots that a word names allow it (R81, R119, R166 to R171, R183, R196, R200). DEDUCED: log entry 24. -/
def slotsOk (r : LRec) (fit : Fit) : Instr → Bool
  | .cvt o => match slotFmt (r.slot o.fs) with
    | some (.int _ 64) => o.d.groupOk 2
    | some f => !f.isBq
    | none => false
  | .pack2 o => match slotFmt (r.slot o.fs) with | some .fp16 | some .bf16 => true | _ => false
  | .pack4 o => match slotFmt (r.slot o.fs) with
    | some .e4m3 | some .e5m2 => o.x = 0
    | some .e2m1 => true
    | _ => false
  | .xpnd o => match slotFmt (r.slot o.fs) with
    | some .fp16 | some .bf16 => o.x = 0
    | some .e4m3 | some .e5m2 => o.x = 0 && o.d.fours
    | some .e2m1 => o.d.fours
    | _ => false
  | .qblk o | .dqblk o => match slotFmt (r.slot o.fs) with | some (.bq _) => true | _ => false
  | .press o | .presss o => pressPair (r.slot o.fa) (r.slot o.fb)
  | .platen o => fit = .f2 && pressPair (r.slot o.fa) (r.slot o.fb) && (slotFmt (r.slot o.fa)).any Fmt.isBq
  | .gload o | .gstore o => galleyFmt (r.slot o.fa)
  | _ => true

/-- Whether a DUAL prefix may stand before CVT: both formats must be floating (R139). -/
def dualSlots (r : LRec) : Instr → Bool
  | .cvt o => slotFloat (r.slot o.fs)
  | _ => true

/-- A register that an earlier word of the pitch writes late is read or written again (R60, R152). -/
def lateClash (late names : List Name) : Bool :=
  names.any fun n => late.contains n || (n = .anyV && late.any fun m => match m with | .v _ => true | _ => false)

def isEret : Instr → Bool | .eret _ => true | _ => false

/-- Whether an instruction breaks a rule of its pitch: R60, R81, R406, and R52 where words follow it. -/
def pitchBad (r : LRec) (fit : Fit) (hnd : Bool) (late : List Name) (more : Bool) (i : Instr) : Bool :=
  let u := usesOf r i
  lateClash late (u.reads ++ u.dsts) || !slotsOk r fit i || (isEret i && !hnd) || (more && (transfers i || mayWait i))

/-- The registers written late, this instruction's included. -/
def lateAfter (r : LRec) (late : List Name) (i : Instr) : List Name :=
  let u := usesOf r i
  if u.lat = .long then u.dsts ++ late else late

/-- One instruction with its prefix: it, or how many words in the offending word stands (R76, R81, R82). -/
def decodeOne (r : LRec) (w : W64) (ws : List W64) : Except Nat Instr :=
  if majorOf w = opDual then
    match ws with
    | [] => .error 0
    | w2 :: _ =>
      if w ≠ dualWord (w.extractLsb' 51 2) ∨ majorOf w2 = opDual then .error 0 else
      match decode [w2] with
      | .error _ => .error 1
      | .ok _ => match decode [w, w2] with
        | .error _ => .error 0
        | .ok (i, _) => if dualSlots r i then .ok i else .error 0
  else match decode [w] with
    | .error _ => .error 0
    | .ok (i, _) => .ok i

/-- Decode the words of a pitch; the answer on an error is the index of the lowest offending word (R82). -/
def decodePitch (r : LRec) (fit : Fit) (hnd : Bool) : Nat → List W64 → Nat → List Name → Except Nat (List (Nat × Instr))
  | 0, _, _, _ => .ok []
  | _, [], _, _ => .ok []
  | n + 1, w :: ws, k, late =>
    match decodeOne r w ws with
    | .error j => .error (k + j)
    | .ok i =>
      let rest := (w :: ws).drop (wordsTaken i)
      if pitchBad r fit hnd late (!rest.isEmpty) i then .error (k + (wordsTaken i - 1))
      else match decodePitch r fit hnd n rest (k + wordsTaken i) (lateAfter r late i) with
        | .error e => .error e
        | .ok l => .ok ((k, i) :: l)

/-- Whether only empty pitches follow a transfer in its block (R52); a word that cannot be fetched stops the pitch as any other does. -/
def State.paddedOut (s : State) (p : Party) (core : Nat) (l : Launch) : Nat → Nat → Except Stop Bool
  | 0, _ => .ok true
  | n + 1, a => match s.fetchWord p core l a with
    | .ok w => if isAnchor w then s.paddedOut p core l n (a + 8) else .ok false
    | .error e => .error e

/-- Whether a pitch ends in a transfer: the padding that may follow it in its block is never issued (R52). -/
def endsInTransfer (is : List (Nat × Instr)) : Bool := is.getLast?.any fun x => transfers x.2

/-- The party's next pitch, framed and decoded (R82). A word other than an anchor in the padding after a transfer is a breach of R52, found at the
transfer. DEDUCED: log entry 106. -/
def State.nextPitch (s : State) (p : Party) (h : Home) (core : Nat) (l : Launch) : Except Stop (Framed × List (Nat × Instr)) :=
  match s.frame p h core l with
  | .error e => .error e
  | .ok f =>
    match decodePitch l.record s.fit p.hnd 24 f.words 0 [] with
    | .error k => .error (.trap .illegalEncoding (f.words.getD k 0).toNat k)
    | .ok is =>
      let k := f.words.length
      let out := if endsInTransfer is && !f.last then s.paddedOut p core l ((f.blockEnd - f.after) / 8) f.after else .ok true
      match out with
      | .error e => .error (match e with | .trap c t _ => .trap c t (k - 1) | e => e)
      | .ok false => .error (.trap .illegalEncoding (f.words.getD (k - 1) 0).toNat (k - 1))
      | .ok true =>
        if !anchorOk f.anchor then .error (.trap .illegalEncoding f.anchor.toNat k)
        else .ok (if endsInTransfer is then { f with after := f.blockEnd, last := true } else f, is)

/-! Readiness and arbitration (R328, R329). -/

/-- The await list that binds the party's next pitch (R57). -/
def State.awaited (s : State) (p : Party) : Bool := p.awaits.all fun r => (s.longsOf p.pid (.v r)).isEmpty

/-- The s and w registers that a pitch reads or writes have no result outstanding (R57). -/
def State.interlocked (s : State) (p : Party) (r : LRec) (is : List (Nat × Instr)) : Bool :=
  is.all fun x =>
    let u := usesOf r x.2
    (u.reads ++ u.dsts).all fun n => match n with
      | .s _ | .w _ => (s.longsOf p.pid n).isEmpty
      | _ => true

/-- A boundary trap that is taken now: inside the handler only the ROPE_TIMEOUT of a rope that the party waited for there (R403). -/
def Party.takeable (p : Party) : Option Pending :=
  firstPending (if p.hnd then p.pending.filter (·.inside) else p.pending)

def Party.resumable (p : Party) : Bool := p.pitch.isSome && !p.park.isEmpty

/-- A party that could be given an issue slot (R328). -/
def State.partyReady (s : State) (p : Party) : Bool :=
  match s.forme? p.fid, s.home? p.fid p.hp with
  | some f, some h =>
    match s.launch? f.lid with
    | none => false
    | some l =>
      f.place = .placed && f.leave.isNone && (p.lanes &&& ~~~p.exited) ≠ 0 && p.wait = .none && p.trap.isNone && (p.met || p.entry = .inside || p.pitch.isSome) && (p.park.all fun g => g.verdict ≠ .waiting) &&
      (if p.pitch.isSome then p.resumable
       else p.takeable.isNone && s.awaited p &&
        (match s.nextPitch p h f.core l with | .ok (_, is) => s.interlocked p l.record is | .error _ => true))
  | _, _ => false

/-- Effective priority: 7 once a party has been ready for 4,000 clocks (R329). -/
def State.priority (s : State) (p : Party) : Nat :=
  if p.promoted || p.readySince.any (fun t => decide (t + 4000 ≤ s.clk)) then 7 else match (s.forme? p.fid).bind fun f => s.launch? f.lid with | some l => l.prio | none => 0

/-- Whether `p` issues before `q` (R329). -/
def State.before (s : State) (p q : Party) : Bool :=
  decide (s.priority q < s.priority p) || (s.priority p = s.priority q &&
    (decide (p.lastIssue < q.lastIssue) || (p.lastIssue = q.lastIssue && decide (p.slot < q.slot))))

def State.bestOf (s : State) : List Party → Option Party
  | [] => none
  | p :: ps => match s.bestOf ps with
    | none => some p
    | some q => if s.before p q then some p else some q

/-- The parties that hold a core's issue slots. -/
def State.issuing (s : State) (core : Nat) : List Party := (s.onCore core).filter fun p => p.pitch.isSome && p.park.isEmpty

/-- What a pitch's issue does to the parties that watch it: reconvergence waits count it, and turns given by YIELD are taken (R23, R361). -/
def State.pitchSeen (s : State) (p : Party) : State :=
  let see := fun (q : Party) => match q.wait with
    | .reconv n => if q.fid = p.fid && q.hp = p.hp && q.pid ≠ p.pid then { q with wait := .reconv (n + 1) } else q
    | .turns l => let r := l.filter (· ≠ p.pid); { q with wait := if r.isEmpty then .none else .turns r }
    | _ => q
  { s with parties := s.parties.map see }

/-- The party stands where it does before it issues: the resume point of a trap at decode or at a boundary (R404). -/
def Party.here (p : Party) : Resume :=
  { cairn := (match p.entry with | .inside => p.cairn | _ => p.pc), pc := p.pc, entry := p.entry, word := p.skip }

/-- A party that a missing translation holds (R264). -/
def State.parkOn (s : State) (pid : Nat) (sp : Space) (c : Nat) (gs : List Granule) : State :=
  let s := (s.askAll sp gs).onParty pid fun p => { p with park := gs }
  let s := (s.count c 0x0F 1).stir
  let s := { s with issue := if s.issue = some pid then s.otherIssue pid else s.issue }
  match s.party? pid with
  | none => s
  | some p => (s.siblingsChanged p.fid p.hp).settle pid

/-- The codes of memory that fails: they reach a party at a boundary alone (R400). -/
def boundaryOnly (c : TrapCode) : Bool := c = .viral || c = .expanderLost || c = .extentGone || c = .poison

/-- A word that memory failed to give stands before the next pitch: the trap is due at this boundary. In the handler, which has no other way to its
ERET, it ends the launch. DESIGN CHOICE: log entry 128. -/
def State.fetchFails (s : State) (p : Party) (l : Launch) (c : TrapCode) (addr : Nat) : State :=
  let s := s.reachVa l.space p.park addr 8
  if p.hnd then (s.itemRecord p.fid p.hp p.dueItems).failLaunch l.lid c
  else (s.due p.pid { code := c, tinfo := some addr }).onParty p.pid fun p => { p with park := [] }

/-- A party starts its next pitch, or goes on with one that a missing translation held; its wait and the pitch, itself included for a CTRR in it, are
counted (R156, R396). DEDUCED: log entry 126. -/
def State.issueParty (s : State) (p : Party) (f : Forme) (h : Home) (l : Launch) : State :=
  if p.pitch.isSome then { s with issue := some p.pid }
  else
    match s.nextPitch p h f.core l with
    | .error (.miss a) => s.parkOn p.pid l.space l.ctx (s.granulesOf [] [(a, .x)])
    | .error (.trap c t k) =>
      if boundaryOnly c then s.fetchFails p l c t
      else ((s.takeTrap p.pid false { code := c, tinfo := some t, word := k, tmask := p.active, resume := p.here, temps := p.kept }).stir).settle p.pid
    | .error (.fall a) =>
      ((s.takeTrap p.pid false { code := .badCairn, tinfo := some a, word := 0, tmask := p.active
                                 resume := { p.here with cairn := p.cairn }, temps := [] }).stir).settle p.pid
    | .ok (fr, is) =>
      let s := s.fillCode f.core l.space fr.cairn ((fr.after - fr.cairn) / 8)
      let c : Pitch := { base := fr.base, words := fr.words, awaits := anchorList fr.anchor, after := fr.after, last := fr.last
                         rcv := fr.rcv, blockEnd := fr.blockEnd, idx := p.skip, temps := p.kept, audit := s.auditOf p h l is }
      let s := (s.onParty p.pid fun p => { p with
        cairn := fr.cairn, pitch := some c, awaits := [], kept := [], park := [], lastIssue := s.nextId, promoted := false, readySince := none, notReady := s.clk
        fetched := p.fetched.filter fun x => !decide (fr.base ≤ x.1 ∧ x.1 < fr.after) }).bump
      let s := s.onForme f.fid fun f => { f with begun := true }
      let s := ((s.captureAnew p.pid).count l.ctx 0x00 1).count l.ctx 0x02 ((p.readySince.map fun t => s.clk - t).getD 0)
      let s := s.pitchSeen p
      let s := { s.stir with issue := some p.pid }
      let s := s.siblingsChanged p.fid p.hp
      if p.skip ≥ fr.words.length then s.closePitch p.pid else s

/-- A party that gave way by YIELD waits only for parties that are still ready (R361). -/
def State.turnsCheck (s : State) : State :=
  let see := fun (q : Party) => match q.wait with
    | .turns l =>
      let r := l.filter fun k => match s.party? k with | some p => s.partyReady p | none => false
      { q with wait := if r.isEmpty then .none else .turns r }
    | _ => q
  { s with parties := s.parties.map see }

/-- A party is found ready, or not, at a clock. -/
def Party.seenReady (p : Party) (ready : Bool) (clk : Nat) : Party :=
  if ready then { p with readySince := some (p.readySince.getD clk) } else { p with readySince := none, notReady := clk }

/-- Since when each party of a core has stayed ready (R329). -/
def State.noteReady (s : State) (core : Nat) : State :=
  let here := (s.onCore core).map (·.pid)
  let note := fun (p : Party) =>
    if !here.contains p.pid then p
    else p.seenReady (s.partyReady p) s.clk
  { s with parties := s.parties.map note }

/-- A free issue slot of a core takes the first ready party (R329). DEDUCED: log entry 23. -/
def execPitchIssue (core : Nat) (s : State) : Host.Outcome State Fault Refusal :=
  let s := s.arrivals.turnsCheck.noteReady core
  if (s.issuing core).length ≥ 4 then .next s else
  match s.bestOf ((s.onCore core).filter s.partyReady) with
  | none => .next s
  | some p =>
    match s.forme? p.fid, s.home? p.fid p.hp with
    | some f, some h => match s.launch? f.lid with | some l => .next (s.issueParty p f h l) | none => .next s
    | _, _ => .next s

/-- When a party that stays ready counts as priority 7 (R329). -/
def Party.promotes (p : Party) : Option Nat := if p.promoted then none else p.readySince.map (· + 4000)

/-- A party that has been ready for 4,000 clocks counts as priority 7 until it issues (R329). DEDUCED: log entry 11. -/
def execPriorityPromotion (pid : Nat) (s : State) : Host.Outcome State Fault Refusal :=
  match s.party? pid with
  | some p => if s.partyReady p && p.promotes.any (fun t => decide (t ≤ s.clk)) then .next (s.onParty pid fun p => { p with promoted := true }) else .next s
  | none => .next s

/-- The boundary trap that is due is taken before the party's next pitch, once nothing holds the party (R401 to R404); so is a trap that waited for its
log. -/
def execBoundaryTrap (pid : Nat) (s : State) : Host.Outcome State Fault Refusal :=
  let s := s.arrivals
  match s.party? pid with
  | none => .next s
  | some p =>
    if p.pitch.isSome ∨ p.wait ≠ .none ∨ !idle p.park ∨ !s.running p.fid then .next s
    else match p.trap, p.takeable with
      | some t, _ => .next (((s.takeTrap pid true t).stir).settle pid)
      | none, none => .next s
      | none, some x =>
        let s := s.onParty pid fun p => { p with pending := p.pending.filter fun y => y.code ≠ x.code }
        .next (((s.takeTrap pid true { code := x.code, tinfo := x.tinfo, items := x.items, resume := p.here, temps := p.kept }).stir).settle pid)

end Sys2Proof.Machine
end

