-- ==== Sys2Proof/Machine/Draw.lean ====
section
/-! DEFINITION. Draws (R204 to R208, R212, R217 to R220, R230), their coins (R132, R209 to R211, R215, R216), and the moves of
tangents (R231 to R234). -/
namespace Sys2Proof.Machine

/-! Coins. -/

/-- The upper words of a lane's counter (R132). -/
def Agent.coinUpper (a : Agent) (lane : Nat) : W32 × W32 :=
  let l := a.f.index % 2 ^ 53
  (BitVec.ofNat 32 (lane % 64 + a.p.hp % 32 * 2 ^ 6 + l / 2 ^ 32 * 2 ^ 11), BitVec.ofNat 32 l)

/-- The keys that a keyed coin of the party may use (R211). DEDUCED: log entry 45. -/
def Agent.coinKeys (a : Agent) : List W64 := a.p.key.getD a.l.record.coinKey :: a.p.rivals.map (·.key)

/-- The keyed coin of a lane at a sequence number; `k` numbers the coin within its word. -/
def State.keyedCoin (s : State) (a : Agent) (k lane : Nat) (seq : W64) : W32 :=
  let keys := a.coinKeys
  let key := s.oneOf (200000 + k) 0 keys
  let (x2, x3) := a.coinUpper lane
  coinKeyed key (wLow seq) (wHigh seq) x2 x3

/-- A word of the supplied stream: as it is, or as it was before a write during the launch (R134); where memory fails to give it, a free value. -/
def State.streamWord (s : State) (a : Agent) (k pa : Nat) : W32 :=
  if (s.lost (s.ctx a.l.ctx).tenant pa).isSome then BitVec.ofNat 32 (Config.freeNat s.freeCtr (220000 + k)) else
  let now := s.readPaN pa 4
  let times := (s.past.filter fun o => decide (memKey pa ≤ o.key ∧ o.key < memKey (pa + 4)) && o.key % 2 = 0 && decide (a.l.since ≤ o.at_)).map (·.at_)
  BitVec.ofNat 32 (natOfBytes (s.oneOf (210000 + k) now (now :: times.map fun t => s.asOf (memKey pa) now t)))

/-- The words of the stream that translate are reached as a load reaches its bytes: fabric lines are fetched, failing sectors corrected
(R302, R305, R410). -/
def State.streamReach (s : State) (a : Agent) (vas : List Nat) : State :=
  vas.foldl (fun s va => match s.translateFor a.l.space a.p.park va .r with
    | .hit pa => (s.touchLine pa (some a.p.fid) false).correct pa 4
    | _ => s) s

/-- What an access to the supplied stream meets first: a trap with its address, or addresses to wait for (R210). -/
def State.streamCheck (s : State) (a : Agent) (vas : List Nat) : Option (TrapCode × Nat) × List Nat :=
  let sp := a.l.space
  let bad := vas.findSome? fun va =>
    match s.translateFor sp a.p.park va .r with
    | .refused => some (TrapCode.accessViolation, va)
    | .miss => none
    | .hit pa => match s.locFail (s.ctx a.l.ctx).tenant true (.pa pa) 4 with | some .poison => some (.poison, va) | _ => none
  (bad, vas.filter fun va => match s.translateFor sp a.p.park va .r with | .miss => true | _ => false)

/-- The stream words that memory fails to give, apart from poison, each a failed lane access that is due at the next boundary (R400, R401). DESIGN CHOICE:
log entry 128. -/
def State.streamFails (s : State) (a : Agent) (i : Instr) (l : List (Nat × Nat)) : State :=
  l.foldl (fun s x =>
    match s.translate a.l.space x.2 .r with
    | .hit pa => match s.lost (s.ctx a.l.ctx).tenant pa with
      | some c => s.due a.p.pid { code := c, tinfo := some x.2, items := [{ ikind := 1, code := c, lane := x.1, loc := a.addr i, addr := x.2 }] }
      | none => s
    | _ => s) s

/-- The coins at some sequence numbers of some lanes, or the state in which the word traps or waits (R134, R210). -/
def State.coins (s : State) (a : Agent) (i : Instr) (at_ : List (Nat × W64)) : Except State (List W32 × State) :=
  let ix := at_.zip (upFrom 0 at_.length)
  let out := fun (s : State) (ws : List W32) => (ws, ws.foldl (fun s w => s.capture a.p.pid (w.setWidth 64)) s)
  if a.l.record.coinSrc = 0 then .ok (out s (ix.map fun x => s.keyedCoin a x.2 x.1.1 x.1.2))
  else
    let src := a.l.record.coinSrc
    let va := fun (n : W64) => (src + 4 * n.toNat) % 2 ^ 64
    match at_.find? fun x => decide (a.l.record.coinLen ≤ x.2.toNat) with
    | some x => .error (s.trapHere a i .accessViolation (some (va x.2)) a.p.active)
    | none =>
      let s := s.streamReach a (at_.map fun x => va x.2)
      match s.streamCheck a (at_.map fun x => va x.2) with
      | (some (c, v), _) => .error (s.trapHere a i c (some v) a.p.active)
      | (none, []) => .ok (out (s.streamFails a i (at_.map fun x => (x.1, va x.2))) (ix.map fun x => match s.translate a.l.space (va x.1.2) .r with
          | .hit pa => s.streamWord a x.2 pa
          | _ => 0))
      | (none, miss) => .error (s.parkOn a.p.pid a.l.space a.l.ctx (s.granulesOf [] (miss.map fun v => (v, .r))))

def Home.seqOf (h : Home) (i : Nat) : W64 := h.seq.getD i 0

/-- Advance lane `i`'s sequence number (R209). -/
def State.useCoins (s : State) (a : Agent) (i n : Nat) : State :=
  a.onHome s fun h => { h with seq := h.seq.modify i fun v => v + BitVec.ofNat 64 n }

/-- The forme's key is written: the writer's later coins use it, and the others' may (R211, R215). -/
def State.setKey (s : State) (a : Agent) (v : W64) : State :=
  let w : KeyWrite := ⟨a.p.pid, s.freeCtr, v⟩
  let s := s.onForme a.p.fid fun f => { f with key := v, keyLog := w :: f.keyLog }
  { s with parties := s.parties.map fun p =>
      if p.pid = a.p.pid then { p with key := some v } else if p.fid = a.p.fid then { p with rivals := p.rivals ++ [w] } else p }

def execCoink (o : UF) (s : State) : Host.Outcome State Fault Refusal :=
  s.word (.coink o) false fun a =>
    let s := if o.imm.getLsbD 0 then s.setKey a (s.sVal a o.ua 0) else s
    let base := s.sVal a o.ub 1
    let stride := (o.imm.extractLsb' 2 8).toNat
    .done (if o.imm.getLsbD 1 then
      a.onHome s fun h => { h with seq := lanes64.map fun i => if a.p.lanes.getLsbD i then base + BitVec.ofNat 64 (stride * i) else h.seqOf i }
    else s)

/-- The next coin of every active lane, in ascending lane order. -/
def State.laneCoins (s : State) (a : Agent) (i : Instr) : Except State (Row × State) :=
  let ls := maskLanes a.p.active
  match s.coins a i (ls.map fun l => (l, a.h.seqOf l)) with
  | .error t => .error t
  | .ok (ws, s) => .ok (rowOf fun l => ((ls.zip ws).find? fun x => x.1 = l).elim 0 (·.2), ls.foldl (fun s l => s.useCoins a l 1) s)

def execCoin (o : V2) (s : State) : Host.Outcome State Fault Refusal :=
  s.word (.coin o) true fun a =>
    match s.laneCoins a (.coin o) with
    | .error t => .other t
    | .ok (row, s) => .writes s (resultWrites o.d 1 false 0 a.p.active (row.map res32))

def execCoinr (o : V2) (s : State) : Host.Outcome State Fault Refusal :=
  s.word (.coinr o) true fun a =>
    let ls := maskLanes a.p.active
    let ix := s.srcLanes a o.a 2 0
    match s.coins a (.coinr o) (ls.map fun l => (l, laneGet ix l)) with
    | .error t => .other t
    | .ok (ws, s) => .writes s (resultWrites o.d 1 false 0 a.p.active
        (lanes64.map fun l => res32 (((ls.zip ws).find? fun x => x.1 = l).elim 0 (·.2))))

/-! Triples (R204, R205). -/

/-- A triple with the tangents of its log-partition (R230). -/
structure Triple where
  m : W32
  w : W32
  x : W32
  z : List W32 := []
deriving DecidableEq, Repr

inductive TKind where
  | nan | zero | greedy | weighted
deriving DecidableEq, Repr

def Triple.kind (t : Triple) : TKind :=
  let w := val32 t.w
  if w.isNan || (val32 t.m).isNan || w.lt (.fin (.zero false)) then .nan
  else if w.isZero then .zero
  else if w.isInf then .greedy
  else .weighted

/-- A triple in the form in which draw instructions write it (R205); the tangent of a NaN is the canonical NaN (R223). -/
def Triple.written (t : Triple) : Triple :=
  match t.kind with
  | .nan => { m := 0x7FC00000, w := 0x7FC00000, x := 0xFFFFFFFE, z := t.z.map fun _ => 0x7FC00000 }
  | .zero => { t with m := 0xFF800000, w := 0, x := 0xFFFFFFFF }
  | _ => t

/-- The NaN and the zero-mass triple with `n` tangents. -/
def nanTriple (n : Nat) : Triple := { m := 0x7FC00000, w := 0x7FC00000, x := 0xFFFFFFFE, z := List.replicate n 0x7FC00000 }
def zeroTriple (n : Nat) : Triple := { m := 0xFF800000, w := 0, x := 0xFFFFFFFF, z := List.replicate n 0 }

def bits32 (n : Nat) : W32 := BitVec.ofNat 32 n

/-- A tangent of word 0 (R223, R230). -/
def drawTangent (reads : List XR) (t : XR) : W32 := bits32 (tangentBits .fp32 true false false reads t)

/-- A tangent that is passed on: placed again, so a zero is +0 and a NaN canonical (R223). -/
def passTangent (z : W32) : W32 := drawTangent [val32 z] (val32 z)

/-- leaf(l, tau, x) with the tangents of both (R206, R230). -/
def leaf (l tau x : W32) (dl dtau : List W32) : Triple × BitVec 9 :=
  let n := dl.length
  let lv := val32 l
  let tv := val32 tau
  if lv.isNan || tv.isNan then (nanTriple n, 0)
  else
    let (y, f) := match tv with
      | .inf false => (l, 0)
      | .inf true => (l ^^^ 0x80000000, 0)
      | _ => let (b, f) := floatResult .fp32 .rne [tv, lv] (tv.mul lv); (bits32 b, f)
    if (val32 y).isNan then (nanTriple n, f)
    else if val32 y = .inf true then (zeroTriple n, f)
    else
      let z := (dl.zip dtau).map fun d =>
        let a := val32 d.1; let b := val32 d.2
        match tv with
        | .inf false => drawTangent [a] a
        | .inf true => drawTangent [a] a.neg
        | _ => drawTangent [a, b] ((b.mul lv).add false (tv.mul a))
      ({ m := y, w := if tv.isInf then 0x7F800000 else 0x3F800000, x := x, z := z }, f)

/-- scale(mi, m) (R207). -/
def mergeScale (mi m : XR) : XR × BitVec 9 :=
  if !mi.lt m && !m.lt mi then (.fin (.ofInt 1), 0)
  else
    let (d, f) := roundTo .rne .fp32 (mi.add false m.neg)
    let (b, g) := ex2Exact d
    (valOf .fp32 b, f ||| g)

/-- Which of two triples a greedy merge takes: true for the second (R207). -/
def greedySecond (t1 t2 : Triple) : Bool :=
  let a := val32 t1.m; let b := val32 t2.m
  a.lt b || (!b.lt a && t2.x.toNat < t1.x.toNat)

def Triple.passed (t : Triple) : Triple := { t.written with z := t.written.z.map passTangent }

/-- The weighted row of dmerge (R207). -/
def mergeWeighted (t1 t2 : Triple) (c : W32) : Triple × BitVec 9 :=
  let m1 := val32 t1.m; let m2 := val32 t2.m
  let less := m1.lt m2 || (m1.isZero && m2.isZero && m1.sign && !m2.sign)
  let m := if less then t2.m else t1.m
  let (s1, f1) := mergeScale m1 (val32 m)
  let (s2, f2) := mergeScale m2 (val32 m)
  let (b1, g1) := place .fp32 false .rne ((val32 t1.w).mul s1)
  let (b2, g2) := place .fp32 false .rne ((val32 t2.w).mul s2)
  let a1 := valOf .fp32 b1; let a2 := valOf .fp32 b2
  let sum := a1.add false a2
  let (w, g) := place .fp32 false .rne sum
  let x := if (XR.mul (.fin (u01 c)) sum).lt a2 then t2.x else t1.x
  let z := (t1.z.zip t2.z).map fun d =>
    let p := val32 d.1; let q := val32 d.2
    drawTangent [p, q] (((a1.mul p).add false (a2.mul q)).div sum)
  ({ m := m, w := bits32 w, x := x, z := z }, f1 ||| f2 ||| g1 ||| g2 ||| g)

/-- dmerge(T1, T2, c) (R207, R230). -/
def dmerge (t1 t2 : Triple) (c : W32) : Triple × BitVec 9 :=
  let nanField := fun (t : Triple) => (val32 t.w).isNan || (val32 t.m).isNan
  let n := t1.z.length
  match t1.kind, t2.kind with
  | .nan, _ => (nanTriple n, if nanField t1 || nanField t2 then 0 else flagInv)
  | _, .nan => (nanTriple n, if nanField t1 || nanField t2 then 0 else flagInv)
  | .zero, _ => (t2.passed, 0)
  | _, .zero => (t1.passed, 0)
  | .greedy, .greedy => ((if greedySecond t1 t2 then t2 else t1).passed, 0)
  | .greedy, .weighted => (t1.passed, 0)
  | .weighted, .greedy => (t2.passed, 0)
  | .weighted, .weighted => let (t, f) := mergeWeighted t1 t2 c; (t.written, f)

/-- rebase(T, b) (R208). -/
def rebase (t : Triple) (b : W32) : Triple × BitVec 9 :=
  if t.kind = .nan ∨ (val32 b).isNan then (nanTriple t.z.length, 0)
  else match t.kind with
    | .weighted =>
      let (sc, f) := mergeScale (val32 t.m) (val32 b)
      let x := (val32 t.w).mul sc
      let (w, g) := place .fp32 false .rne x
      (Triple.written { t with m := b, w := bits32 w, z := t.z.map passTangent }, f ||| g)
    | _ => (t.passed, 0)

/-! Triples in registers. -/

/-- The triples of a quad source in each lane, with `nt` tangents of word 0. -/
def State.quad (s : State) (a : Agent) (x : Src) (slot nt : Nat) : List Triple :=
  let r := fun (j : Nat) => s.srcRow a x j 0 (8 * slot)
  let m := r 0; let w := r 1; let n := r 2
  let zs := (upFrom 1 nt).map fun c => s.srcT a x slot 0 c
  lanes64.map fun i => { m := rowGet m i, w := rowGet w i, x := rowGet n i, z := zs.map fun z => rowGet z i }

/-- The quad written with triples: word 0 takes the tangents, the others' shadows are unmapped (R204, R230). DEDUCED: log entry 46. -/
def quadWrites (d : Reg) (nt : Nat) (m : Mask) (ts : List Triple) : List Write :=
  let at_ := fun (j : Nat) => match d with
    | .v k => Reg.v (k + BitVec.ofNat 8 j)
    | .t k => Reg.t (k + BitVec.ofNat 3 j)
    | r => r
  let z := (upFrom 0 nt).map fun k => (k + 1, ts.map fun t => t.z.getD k 0)
  [.row (at_ 0) ((0, ts.map Triple.m) :: z) m false, .row (at_ 1) [(0, ts.map Triple.w)] m false,
   .row (at_ 2) [(0, ts.map Triple.x)] m false, .row (at_ 3) [(0, rowZero)] m false]

/-- The triples of the lanes of a mask and the flags that they set. -/
def laneTriples (m : Mask) (nt : Nat) (f : Nat → Triple × BitVec 9) : List Triple × BitVec 9 :=
  let rs := lanes64.map fun i => if m.getLsbD i then f i else (zeroTriple nt, 0)
  (rs.map (·.1), rs.foldl (fun x r => x ||| r.2) 0)

/-- The leaf of each lane of two sources (R206, R217). -/
def State.leaves (s : State) (a : Agent) (x y : Src) (nt : Nat) : Nat → Triple × BitVec 9 :=
  let (rows, ts) := s.srcAll a [x, y] nt
  fun i => leaf (rowGet (rows.getD 0 rowZero) i) (rowGet (rows.getD 1 rowZero) i) (BitVec.ofNat 32 i)
    (ts.map fun t => rowGet (t.getD 0 rowZero) i) (ts.map fun t => rowGet (t.getD 1 rowZero) i)

def execDraw (o : V2) (s : State) : Host.Outcome State Fault Refusal :=
  s.word (.draw o) true fun a =>
    let nt := a.tansTo (.draw o) o.d
    let (ts, f) := laneTriples a.p.active nt (s.leaves a o.a o.b nt)
    .writes (s.setFlagsBy a.p.pid a.p.fid f) (quadWrites o.d nt a.p.active ts)

/-- The nodes of the tree, in coin order: the two positions that each merges (R212). -/
def treeNodes : List (Nat × Nat) :=
  [1, 2, 4, 8, 16, 32].flatMap fun d => (lanes64.filter fun i => i % (2 * d) = 0).map fun i => (i, i + d)

/-- The 64 leaves merged through the tree with its 63 coins (R212). -/
def drawTree (ts : List Triple) (f : BitVec 9) (coins : List W32) : Triple × BitVec 9 :=
  let (l, f) := (treeNodes.zip coins).foldl (fun (acc : List Triple × BitVec 9) x =>
    let n := (acc.1.headD (zeroTriple 0)).z.length
    let (t, g) := dmerge (acc.1.getD x.1.1 (zeroTriple n)) (acc.1.getD x.1.2 (zeroTriple n)) x.2
    (acc.1.set x.1.1 t, acc.2 ||| g)) (ts, f)
  (l.headD (zeroTriple 0), f)

def execDrawa (o : V2) (s : State) : Host.Outcome State Fault Refusal :=
  s.word (.drawa o) true fun a =>
    let nt := a.tansTo (.drawa o) o.d
    let act := a.p.active
    let lane := (lowestLane act).getD 0
    let first := a.h.seqOf lane
    match s.coins a (.drawa o) ((upFrom 0 63).map fun k => (lane, first + BitVec.ofNat 64 k)) with
    | .error t => .other t
    | .ok (ws, s) =>
      let (ts, f) := if o.sub = 0 then
          let q := s.quad a o.a 0 nt
          laneTriples act nt fun i => (q.getD i (zeroTriple nt), 0)
        else laneTriples act nt (s.leaves a o.a o.b nt)
      let (t, f) := drawTree ts f ws
      .writes ((s.useCoins a lane 63).setFlagsBy a.p.pid a.p.fid f) (quadWrites o.d nt act (List.replicate 64 t.written))

/-- DMERGE with the coin of each lane. -/
def State.mergeLanes (s : State) (a : Agent) (o : V3) (coin : Row) : Eff :=
  let nt := a.tansTo (.dmerge o) o.d
  let x := s.quad a o.a 0 nt
  let y := s.quad a o.b 1 nt
  let (ts, f) := laneTriples a.p.active nt fun i => dmerge (x.getD i (zeroTriple nt)) (y.getD i (zeroTriple nt)) (rowGet coin i)
  .writes (s.setFlagsBy a.p.pid a.p.fid f) (quadWrites o.d nt a.p.active ts)

def execDmerge (o : V3) (s : State) : Host.Outcome State Fault Refusal :=
  s.word (.dmerge o) true fun a =>
    if o.m.getLsbD 0 then
      match s.laneCoins a (.dmerge o) with
      | .error t => .other t
      | .ok (row, s) => s.mergeLanes a o row
    else s.mergeLanes a o (s.src32 a o.c 2)

def execDshift (o : V2) (s : State) : Host.Outcome State Fault Refusal :=
  s.word (.dshift o) true fun a =>
    let nt := a.tansTo (.dshift o) o.d
    let x := s.quad a o.a 0 nt
    let b := s.src32 a o.b 1
    let (ts, f) := laneTriples a.p.active nt fun i => rebase (x.getD i (zeroTriple nt)) (rowGet b i)
    .writes (s.setFlagsBy a.p.pid a.p.fid f) (quadWrites o.d nt a.p.active ts)

/-! TGET, TSET and TCLR (R231 to R234). -/

def execTget (o : V2) (s : State) : Host.Outcome State Fault Refusal :=
  s.word (.tget o) true fun a =>
    let n := o.ty.regs
    let r := fun (j : Nat) => s.srcT a o.a 0 j o.sub.toNat
    let rows := (upFrom 0 n).map r
    .writes s (resultWrites o.d n false 0 a.p.active (lanes64.map fun i => { words := rows.map fun r => rowGet r i }))

/-- Register `j` of a destination. -/
def regPlus (j : Nat) : Reg → Reg
  | .v k => .v (k + BitVec.ofNat 8 j)
  | .t k => .t (k + BitVec.ofNat 3 j)
  | r => r

def execTset (o : V2) (s : State) : Host.Outcome State Fault Refusal :=
  s.word (.tset o) true fun a =>
    .writes s ((upFrom 0 o.ty.regs).map fun j => .row (regPlus j o.d) [(o.sub.toNat, s.srcRow a o.a j 0 0)] a.p.active true)

/-- What TCLR writes: the shadows dropped where the whole home party is active, else zero in the active lanes (R233). -/
def Agent.clearWrites (a : Agent) (o : V2) : List Write :=
  let comps := (upFrom 1 4).filter fun c => o.sub.getLsbD (c - 1)
  let whole := decide (a.p.active = maskLow a.h.lanes)
  (upFrom 0 o.ty.regs).flatMap fun j =>
    match regPlus j o.d with
    | .v k => if whole then comps.map fun c => .drop k c else comps.map fun c => .row (.v k) [(c, rowZero)] a.p.active true
    | r => comps.map fun c => .row r [(c, rowZero)] a.p.active true

def execTclr (o : V2) (s : State) : Host.Outcome State Fault Refusal :=
  s.word (.tclr o) true fun a => .writes s (a.clearWrites o)

end Sys2Proof.Machine
end

