-- ==== Sys2Proof/Machine/Cache.lean ====
section
/-! DEFINITION. Caches and next-use declarations (R240 to R245, R266), the reuse clock (R32), and standing (R393, R394). Nothing here
changes a value that an access reads. -/
namespace Sys2Proof.Machine

/-- Numbers of the caches: an L1 has its core's, an L2 and an RDC come after them (R240). -/
def l2Of (die : Nat) : Nat := 32 + die
def rdcOf (die : Nat) : Nat := 34 + die

/-- The cache of a die that holds a line at its point of coherence (R240, R241). -/
def State.homeCache (s : State) (die a : Nat) : Nat := if s.ownMem a && s.homeDie a = die then l2Of die else rdcOf die

/-- floor(2^(d / 4)) (R242). -/
def nuTicks (d : Nat) : Nat := [12, 11, 10, 9, 8, 7, 6, 5, 4, 3, 2, 1, 0].foldl (fun x b => if (x + 2 ^ b) ^ 4 ≤ 2 ^ d then x + 2 ^ b else x) 0

/-- A next-use declaration (R242): the forme and its clock, its partition, the distance, and the party and window of a pin. -/
structure Decl where
  fid  : Option Nat := none
  rc   : Nat := 0
  part : Option Nat := none
  nu   : Nat := 0
  pin  : Option (Nat × Nat) := none
  /-- the home party whose lane-private memory is accessed (R239) -/
  priv : Option (Nat × Nat) := none
  ctx  : Option Nat := none
deriving DecidableEq, Repr

def State.fillsOf (s : State) (cache : Nat) : Nat := ((s.fills.find? fun f => f.1 = cache).map (·.2)).getD 0

/-- The clock by which a line's due tick is judged: its owner's, or the cache's own (R242, R243). -/
def State.clockOf (s : State) (l : Line) : Nat :=
  match l.owner with
  | some f => ((s.forme? f).map Forme.rc).getD 0
  | none => s.fillsOf l.cache / 32

def Line.remaining (s : State) (l : Line) : Int := max (-(2 ^ 20)) (min (2 ^ 20) (l.due - s.clockOf l))

/-- An owner that has ended, stopped, or is on no core (R243). -/
def State.ownerAbsent (s : State) (l : Line) : Bool :=
  match l.owner with
  | none => false
  | some f => match s.forme? f with | some f => f.stop.isSome || f.place = .saved || f.moved ≠ {} | none => true

/-- A line's place in the order of R243: its row, its key within the row, and when it was filled. A line without an owner's partition stands as
with standing 16. DESIGN CHOICE: log entry 15. -/
def Line.rank (s : State) (l : Line) : Nat × Int × Nat :=
  if l.cls = 0 || s.ownerAbsent l then (2, 0, l.filled)
  else if l.cls = 2 then (5, -l.due, l.filled)
  else if l.remaining s < 0 then (3, l.remaining s, l.filled)
  else (4, -(l.remaining s * (17 - ((l.part.map fun p => (s.part p).sigma).getD 16 : Nat))), l.filled)

def rankLess (a b : Nat × Int × Nat) : Bool :=
  decide (a.1 < b.1) || (a.1 = b.1 && (decide (a.2.1 < b.2.1) || (a.2.1 = b.2.1 && decide (a.2.2 < b.2.2))))

/-- The line that gives way (R243). -/
def State.victim (s : State) : List Line → Option Line
  | [] => none
  | l :: ls => match s.victim ls with
    | none => some l
    | some m => if rankLess (m.rank s) (l.rank s) then some m else some l

/-- Scratchpad rows claimed on a core (R48). -/
def State.scratchRows (s : State) (core : Nat) : Nat :=
  sumBy (fun f : Forme => if f.core = core && f.place ≠ .saved && !f.moved.rest then ((s.launch? f.lid).map fun l => l.record.srows).getD 0 else 0) s.formes

/-- Sets of 16 lines of 128 bytes: 256 MiB of L2 on a die, less 16 MiB of collective staging and 16 MiB for each unit of BIVSZ (R240, R324, R381); 64 MiB
of RDC; and in a core what its scratchpad claims leave of 4 MiB (R240). -/
def State.cacheSets (s : State) (cache : Nat) : Nat :=
  if cache < 32 then 2 * (1024 - s.scratchRows cache) else if cache < 34 then 2 ^ 13 * (15 - min 8 s.dvsec.bivsz) else 2 ^ 15

/-- The set that a line falls into (R240). DESIGN CHOICE: log entry 15. -/
def State.setNo (s : State) (cache a : Nat) : Nat := Config.cacheSet cache (lineOf a) % s.cacheSets cache

def State.setOf (s : State) (cache a : Nat) : List Line := s.lines.filter fun l => l.cache = cache && l.set = s.setNo cache a

/-- The L1 of a core gives up the lines of the rows that its scratchpad has taken (R240). -/
def State.trimL1 (s : State) (core : Nat) : State := { s with lines := s.lines.filter fun l => l.cache ≠ core || decide (l.set < s.cacheSets core) }

/-- A write of a die's agent, at its line's point of coherence, invalidates every other copy of the line (R241). -/
def State.dropCopies (s : State) (die a : Nat) : State :=
  { s with lines := s.lines.filter fun l => !(l.addr = lineOf a && l.cache ≠ s.homeCache die a) }

/-- Standing moves one step toward its target, from 0 to 16, each time the records reach 4,096 (R394). -/
def Part.interval (p : Part) : Part :=
  if p.records < 4096 then p
  else
    let target := min 16 (p.hits / 256)
    { p with sigma := if p.sigma < target then p.sigma + 1 else if target < p.sigma then p.sigma - 1 else p.sigma, hits := 0, records := 0 }

/-- An event charged to a context, or to none (R395). -/
def State.charge (s : State) (ctx : Option Nat) (k n : Nat) : State := match ctx with | some c => s.count c k n | none => s

/-- A hit or miss record for a line's partition and the context of its owner (R393 to R396). -/
def State.record (s : State) (l : Line) (hit : Bool) : State :=
  let s := match l.part with
    | some p => s.onPart p fun x => ({ x with records := x.records + 1, hits := x.hits + (if hit then 1 else 0) } : Part).interval
    | none => s
  s.charge l.ctx (if hit then 0x12 else 0x13) 1

/-- The pin quota of a partition in a cache (R244, R376). -/
def State.pinQuota (s : State) (part : Option Nat) (cache : Nat) : Nat :=
  match part with
  | none => 0
  | some p =>
    let q := (s.part p).quota (if cache < 32 then cache / 16 else cache % 2)
    if cache < 32 then q.l1pin else if cache < 34 then q.l2pin else q.rdcpin

/-- What a declaration makes of a line (R242, R244). -/
def State.declared (s : State) (d : Decl) (l : Line) : Line :=
  let others := s.lines.filter fun x => !(x.cache = l.cache && x.addr = l.addr) && x.cls = 2 && x.cache = l.cache
  let full := (others.filter fun x => x.set = l.set).length ≥ 12
    || (others.filter fun x => x.part = d.part).length ≥ s.pinQuota d.part l.cache
  let pins := d.fid.isSome && d.nu = 63 && !full
  { l with
    owner := d.fid
    part := d.part
    ctx := d.ctx
    cls := if d.fid.isSome && d.nu = 0 then 0 else if pins then 2 else 1
    due := if d.fid.isNone then s.fillsOf l.cache / 32 + 256 else if d.nu = 0 then 0 else if pins then s.nextId else if d.nu ≥ 62 then d.rc + 256 else d.rc + nuTicks d.nu
    pinned := if pins then d.pin else none
    record := d.fid.isSome && 0 < d.nu && d.nu < 62
    priv := d.priv.or l.priv }

/-- A record changes nothing but what partitions and contexts count. -/
def State.recordIf (s : State) (c : Bool) (l : Line) (hit : Bool) : State :=
  let r := if c then s.record l hit else s
  { s with parts := r.parts, ctxs := r.ctxs }

/-- What an access that finds its line in a cache, or does not, counts (R396): an L1's fills, an L2's and an RDC's hits and misses, and the bytes that a
miss brings from the device's memory or over CXL. -/
def State.traffic (s : State) (ctx : Option Nat) (cache a : Nat) (hit : Bool) : State :=
  let r := if cache < 32 then (if hit then s else s.charge ctx 0x05 1)
    else
      let s := s.charge ctx (if cache < 34 then (if hit then 0x06 else 0x07) else if hit then 0x08 else 0x09) 1
      if hit then s else s.charge ctx (if s.ownMem a then 0x0A else 0x0D) 128
  { s with ctxs := r.ctxs }

/-- A line that gives way is written back where it is dirty; a line of the device's own memory may be (R396). DESIGN CHOICE: log entry 40. -/
def State.wroteBack (s : State) (l : Line) : State :=
  let away := (s.unhomed.any fun x => lineOf x.1 = l.addr) || s.bulk.any fun b => b.addr = l.addr && b.mask ≠ 0
  let r := if l.cache < 32 then s
    else if s.ownMem l.addr then (if away || Config.freeBit s.freeCtr (2210000 + l.addr) then s.charge l.ctx 0x0B 128 else s)
    else if away then s.charge l.ctx 0x0C 128 else s
  { s with ctxs := r.ctxs }

/-- The line that gives way to a new one: a set is full with 16 lines (R240, R243). -/
def State.gives (s : State) (cache a : Nat) : Option Line :=
  if (s.lines.filter fun l => l.cache = cache).length < 16 then none
  else if (s.setOf cache a).length ≥ 16 then s.victim (s.setOf cache a) else none

/-- An access that leaves its line in one cache (R241 to R244, R393). DESIGN CHOICE: log entry 15. -/
def State.cacheAccess (s : State) (cache : Nat) (d : Decl) (a : Nat) : State :=
  let a := lineOf a
  let here := fun (l : Line) => l.cache = cache && l.addr = a
  match s.lines.find? here with
  | some l =>
    let s := (s.recordIf (l.record && d.part = l.part && d.fid.isSome && decide ((s.clockOf l : Int) ≤ l.due)) l true).traffic d.ctx cache a true
    { s.bump with lines := modifyWhere here (s.declared d) s.lines }
  | none =>
    let v := s.gives cache a
    let s := match v with | some v => (s.recordIf (v.record && decide (v.remaining s < 0)) v false).wroteBack v | none => s
    let s := s.traffic d.ctx cache a false
    let s := { s with lines := s.lines.filter fun (l : Line) => !v.any fun (v : Line) => l.cache = v.cache && l.addr = v.addr }
    let l : Line := { cache := cache, addr := a, filled := s.nextId, set := s.setNo cache a }
    { s.bump with lines := s.declared d l :: s.lines, fills := storeSet 0 cache (s.fillsOf cache + 1) s.fills }

/-- An access by a core: a read leaves a copy in its L1 (R241, R242). -/
def State.coreAccess (s : State) (core : Nat) (d : Decl) (a : Nat) (l1 : Bool) : State :=
  let s := if l1 then s.cacheAccess core d a else s
  s.cacheAccess (s.homeCache (dieOf core) a) d a

/-- The lines of some addresses, each once. -/
def linesOf (l : List Nat) : List Nat := l.foldl (fun ls a => if ls.contains (lineOf a) then ls else ls ++ [lineOf a]) []

/-- The declaration that a forme's instruction makes (R242, R266). -/
def State.declOf (s : State) (f : Forme) (nu : Nat) (pin : Option (Nat × Nat)) : Decl :=
  { fid := some f.fid, rc := f.rc, part := some (s.partOf f.lid), nu := nu, pin := pin, ctx := (s.launch? f.lid).map Launch.ctx }

/-- WCLOSE and a later declaration release the pins of a window (R244, R259). DEDUCED: log entry 16. -/
def State.unpin (s : State) (pid win : Nat) : State :=
  { s with lines := s.lines.map fun (l : Line) => if l.pinned = some (pid, win) then { l with pinned := none, cls := 0 } else l }

/-- A memory instruction counts towards its forme's reuse clock (R32, R266). DEDUCED: log entry 56. -/
def State.countMem (s : State) (fid : Nat) : State := s.onForme fid fun f => { f with counted := f.counted + 1 }

/-- The reuse clock ticks once every 32 counted instructions; lines whose due tick it passes make their miss records (R32, R393). -/
def execReuseClockTick (fid : Nat) (s : State) : Host.Outcome State Fault Refusal :=
  match s.forme? fid with
  | none => .next s
  | some f =>
    if f.counted < 32 * (f.rc + 1) then .next s
    else
      let overdue := fun (l : Line) => l.record && l.owner = some fid && decide (l.due < ((f.rc + 1 : Nat) : Int))
      let late := s.lines.filter overdue
      let s := s.onForme fid fun f => { f with rc := f.rc + 1 }
      let s := late.foldl (fun s l => s.record l false) s
      .next { s with lines := modifyWhere overdue (fun l => { l with record := false }) s.lines }

/-- Standing moves at every 4,096 records (R394). -/
def execStandingUpdate (part : Nat) (s : State) : Host.Outcome State Fault Refusal := .next (s.onPart part Part.interval)

end Sys2Proof.Machine
end

