-- ==== Sys2Proof/Machine/Work.lean ====
section
/-! DEFINITION. What asynchronous operations do: which bytes each reads and writes (R178, R192, R196, R286 to R290), the values that an
open read may find (R134, R186, R190, R254), press products (R192, R193, R229), moves of rectangles and sheets (R194 to
R196), and the engines' copies (R286 to R290). -/
namespace Sys2Proof.Machine

/-! Where an operation's addresses lead. -/

/-- The address space, scratchpad, tenant and context of the forme that issued an operation (R283). -/
structure Scene where
  sp : Space
  fid : Nat
  srows : Nat
  tenant : W32
  ctx : Nat
deriving DecidableEq, Repr

def State.sceneOf (s : State) (fid : Nat) : Option Scene :=
  ((s.trace fid).bind fun g => s.launch? g.lid).map fun l => ⟨l.space, fid, l.record.srows, (s.ctx l.ctx).tenant, l.ctx⟩

inductive Found where
  | at_ (l : Loc)
  | miss
  | refused
deriving DecidableEq, Repr

/-- Where a virtual address leads: the forme's scratchpad through the aperture, or a translated byte (R237, R283). -/
def State.findVa (s : State) (sc : Scene) (gs : List Granule) (va : Nat) (n : Need) : Found :=
  if inAperture va then
    (if va - apertureBase < sc.srows * 4096 then .at_ (.spad sc.fid (va - apertureBase)) else .refused)
  else match s.translateFor sc.sp gs va n with
    | .hit pa => .at_ (.pa pa)
    | .miss => .miss
    | .refused => .refused

/-- The bytes that stand at a run of virtual addresses. -/
def State.runRead (s : State) (sc : Scene) (va n : Nat) : List Byte :=
  (pieces va n).flatMap fun p => match s.findVa sc [] p.1 .none with
    | .at_ l => s.locRead l p.2.2
    | _ => List.replicate p.2.2 0

/-! Values that an open read may find. -/

/-- Whether a write was a party's own at a step before some bound of its ancestry. -/
def Past.own (x : Past) (l : List (Nat × Nat)) : Bool :=
  match x.writer with
  | .party p | .lane p _ _ => ownAct l p x.at_
  | _ => false

/-- Writes since an operation's issue that touch what it reads or writes (R190, R254). -/
def Op.touchedIn (o : Op) (x : Past) : Bool :=
  decide (o.issued < x.at_) && (match x.writer with | .op f h _ => !(f = o.fid && h = o.hp) | _ => true)

/-- Earlier stores of the issuing party since `t`, which come in no order before the operation's accesses (R186, R254). -/
def Op.unordered (o : Op) (t : Nat) (x : Past) : Bool := decide (x.at_ ≤ o.issued) && x.own o.line && decide (t ≤ x.at_)

/-- Earlier writes of the issuing party that come in no order before the operation's reads: its stores, and the writes of earlier operations that no
OREADY has completed (R186, R254). -/
def Op.unread (o : Op) (x : Past) : Bool :=
  o.unordered o.ready x || (match x.writer with | .op f h id => f = o.fid && h = o.hp && o.unseen.contains id | _ => false)

/-- Writes that come after an operation's reads: those made since its party's next access under ORD 3, but for what earlier operations of its home
party write (R281, R284). -/
def Op.hides (o : Op) (x : Past) : Bool :=
  o.sealed.any fun t => decide (t ≤ x.at_) && !(match x.writer with | .op f h id => f = o.fid && h = o.hp && decide (id < o.id) | _ => false)

/-- A byte at a virtual address as its key and its present value. -/
def State.keyed (s : State) (sc : Scene) (va : Nat) : Nat × Byte :=
  match s.findVa sc [] va .none with
  | .at_ l => (l.key, (s.locRead l 1).headD 0)
  | _ => (2 ^ 71, 0)

/-- What one read of some bytes, given by key and present value, finds. They are read at one moment, so that writes since the issue are seen whole or
not at all; of the party's unordered earlier writes each byte takes or leaves any. Under ORD 3 nothing is seen of what comes after its reads (R186,
R190, R254, R281). -/
def State.openElem (s : State) (o : Op) (pick : Nat) (bs : List (Nat × Byte)) : List Byte :=
  let seen := s.past.filter fun x => bs.any fun b => b.1 = x.key
  let bs : List (Nat × Byte) := bs.map fun b => match (((seen.filter fun x => x.key = b.1).reverse.takeWhile o.hides).getLast?) with | some x => (b.1, x.old) | none => b
  let seen : List Past := seen.filter fun x => !o.hides x
  let hits : List Past := seen.filter o.touchedIn
  let when_ := s.oneOf (20000000 + 2 * pick) none (none :: hits.map fun x => some x.at_)
  (bs.zip (upFrom 0 bs.length)).map fun b =>
    let mine := hits.filter fun x => x.key = b.1.1
    let (v, first) := match mine.find? fun x => when_.any fun t => decide (t ≤ x.at_) with
      | some x => (x.old, !mine.any fun y => when_.any fun t => decide (y.at_ < t))
      | none => (b.1.2, mine.isEmpty)
    let olds := (seen.filter fun x => x.key = b.1.1 && o.unread x).map (·.old)
    if first then s.oneOf (20000001 + 2 * (pick * 64 + b.2)) v (v :: olds) else v

/-- A run of bytes that an operation reads, in elements of `e` bytes, each read at one moment. -/
def State.opRead (s : State) (o : Op) (sc : Scene) (pick e : Nat) (va n : Nat) : List Byte :=
  let bs := (pieces va n).flatMap fun p => match s.findVa sc [] p.1 .none with
    | .at_ l => ((s.locRead l p.2.2).zip (upFrom 0 p.2.2)).map fun b => (l.key + 2 * b.2, b.1)
    | _ => List.replicate p.2.2 (2 ^ 71, 0)
  (upFrom 0 ((n + e - 1) / e)).flatMap fun k => s.openElem o (pick + k * e) ((bs.drop (k * e)).take e)

/-- A write of an operation at memory: the copies of its lines go (R241). -/
def State.wroteAt (s : State) (o : Op) (l : Loc) (n : Nat) : State :=
  match l with
  | .spad .. => s
  | .pa a => (runLines [(a, n)]).foldl (fun s x => s.dropCopies (((s.forme? o.fid).map fun f => dieOf f.core).getD 0) x) s

/-- Bytes that an operation writes. Where `loose` holds, or another agent has written the byte since the issue, it keeps either value
(R190, R254, R286). -/
def State.opWrite (s : State) (o : Op) (sc : Scene) (loose : Nat → Bool) (va : Nat) (bs : List Byte) : State :=
  (pieces va bs.length).foldl (fun s p =>
    match s.findVa sc [] p.1 .none with
    | .at_ l =>
      let new := (bs.drop p.2.1).take p.2.2
      let put := (new.zip ((s.locRead l p.2.2).zip (upFrom 0 p.2.2))).map fun x =>
        let k := l.key + 2 * x.2.2
        if (loose (p.1 + x.2.2) || s.past.any fun y => y.key = k && (o.touchedIn y || o.unordered o.settled y)) && Config.freeBit s.freeCtr (400000 + p.1 + x.2.2) then x.2.1 else x.1
      (s.wroteAt o l p.2.2).locWrite l put (.op o.fid o.hp o.id)
    | _ => s) s

/-! Sheets (R177, R178). -/

def Sheet.format (h : Sheet) : Fmt := (Fmt.ofCode h.fmt).getD .fp16
def Sheet.stored (h : Sheet) : Nat := match h.spr with | 0 => h.cols | 1 => h.cols / 2 | _ => h.cols / 4
/-- Bytes of one stored row. -/
def Sheet.rowBytes (h : Sheet) : Nat := (h.stored * h.format.width + 7) / 8
/-- Address of byte `b` of row `r`, swizzled. -/
def Sheet.byteAt (h : Sheet) (r b : Nat) : Nat := h.body + r * h.pitch + 16 * Nat.xor (b / 16) (r % 2 ^ h.swz) + b % 16
/-- Address of the exponent of block `i` of row `r`. -/
def Sheet.expAt (h : Sheet) (r i : Nat) : Nat := h.xbase + r * h.xpitch + i
def Sheet.stampAt (h : Sheet) : Nat := h.at_ + 0x27

/-- The runs of body bytes `b0` to `b1` of a row, one in each chunk. -/
def Sheet.rowRuns (h : Sheet) (r b0 b1 : Nat) : List (Nat × Nat) :=
  if b1 ≤ b0 then [] else
  (upFrom (b0 / 16) ((b1 - 1) / 16 + 1 - b0 / 16)).map fun c =>
    let lo := max b0 (16 * c)
    (h.byteAt r lo, min b1 (16 * c + 16) - lo)

/-- The runs that hold stored columns `s0` to `s1` of some rows, with their exponents. -/
def Sheet.runs (h : Sheet) (r0 n s0 s1 : Nat) : List (Nat × Nat) :=
  let w := h.format.width
  (upFrom r0 n).flatMap fun r =>
    h.rowRuns r (s0 * w / 8) ((s1 * w + 7) / 8)
      ++ (if h.format.isBq && s0 < s1 then [(h.expAt r (s0 / 32), (s1 - 1) / 32 + 1 - s0 / 32)] else [])

/-- The stored column of logical column `k` where a sheet is read densely or by its seed: none where it is pruned (R182). -/
def Sheet.column (_ : Sheet) (sparse : Bool) (seed : W64) (spr r k : Nat) : Option Nat :=
  if !sparse then some k
  else
    let ks := kept seed spr r (k / 4)
    (ks.findIdx? fun x => x = k % 4).map fun i => k / 4 * (if spr = 1 then 2 else 1) + i

def storedCol (sparse : Bool) (spr k : Nat) : Nat := if !sparse then k else if spr = 1 then k / 2 else k / 4

/-! What an operation reads and writes. -/

def Product.tans (p : Product) : Nat := p.a.length - 1
def fmtBytes (f : Nat) : Nat := ((Fmt.ofCode f).getD .fp32).width / 8

/-- The address of row `i` of component `j` of a rectangle in memory (R196, R229). -/
def Rect.rowAt (r : Rect) (j i : Nat) : Nat := (r.base + j * r.stride * r.rows + i * r.stride) % 2 ^ 64

/-- The runs of a rectangle in memory, one for each row of each component. -/
def Rect.runs (r : Rect) : List (Nat × Nat) :=
  (upFrom 0 (r.comps + 1)).flatMap fun j => (upFrom 0 r.rows).map fun i => (r.rowAt j i, r.cols * fmtBytes r.fmt)

/-- Element size of a collective operation (R295). -/
def collSize (sub : BitVec 4) (ty : OpTy) : Nat := if sub = 4 then 16 else 4 * ty.regs

def State.memReads (_ : State) (o : Op) : List (Nat × Nat) :=
  match o.work with
  | .product p =>
    let part := fun (sparse : Bool) (h : Sheet) (r0 n : Nat) => h.runs r0 n (storedCol sparse h.spr p.k0) (storedCol sparse h.spr (p.k0 + p.kd))
    (p.a.flatMap fun h => part p.sparseA h p.arow p.m) ++ (p.b.flatMap fun h => part p.sparseB h p.brow p.n)
  | .load r => r.runs
  | .sheet src _ => src.flatMap fun h => h.runs 0 h.rows 0 h.stored
  | .cpy src _ len => [(src, len)]
  | .cpyx src _ rows rb sp _ xs xp hdr =>
    (upFrom 0 rows).map (fun r => (src + r * sp, rb))
      ++ (match hdr with | some h => if h.format.isBq then (upFrom 0 rows).map (fun r => (xs + r * xp, h.stored / 32)) else [] | none => [])
  | .cpyrot src _ ft rows sp _ dim f _ _ => (ft, dim / 2 * 4) :: (upFrom 0 rows).map fun r => (src + r * sp, dim * fmtBytes f)
  | .scrub dst len _ _ => [(dst, len)]
  | .seal pkt _ _ | .ndt pkt _ => [(pkt, 256)]
  | .coll g _ sub ty _ _ sends => (g.table, 8 * g.nrank) :: sends.map fun x => (g.sbuf + x.2.1, collSize sub ty)
  | _ => []

def State.memWrites (_ : State) (o : Op) : List (Nat × Nat) :=
  match o.work with
  | .store r => r.runs
  | .sheet _ dst => dst.flatMap fun h => h.runs 0 h.rows 0 h.stored ++ [(h.stampAt, 1)]
  | .cpy _ dst len => [(dst, len)]
  | .cpyx _ dst rows rb _ dp _ _ hdr =>
    match hdr with
    | none => (upFrom 0 rows).map fun r => (dst + r * dp, rb)
    | some h => h.runs 0 rows 0 h.stored ++ [(h.stampAt, 1)]
  | .cpyrot _ dst _ rows _ dp dim f _ _ => (upFrom 0 rows).map fun r => (dst + r * dp, dim * fmtBytes f)
  | .fill dst len _ => [(dst, len)]
  | .scrub dst len rpt _ => (dst, len) :: (if rpt = 0 then [] else [(rpt, 32)])
  | .seal pkt _ _ => [(pkt + 0x30, 8), (pkt + 0xE0, 32)]
  | _ => []

/-- The tiles that an operation reads or writes, its tangents' among them (R175, R229). -/
def Op.tiles (o : Op) : List Nat :=
  match o.work with
  | .product p => upFrom p.tile (p.tans + 1)
  | .clear t n => upFrom t (n + 1)
  | .load r | .store r => upFrom r.tile (r.comps + 1)
  | _ => []

/-- The entries that an operation writes (R190). -/
def Op.entries (o : Op) : List Nat :=
  let rect := fun (t r0 rows c0 cols : Nat) => (upFrom r0 rows).flatMap fun r => (upFrom c0 cols).map fun c => tileKey t r c
  match o.work with
  | .product p => (upFrom p.tile (p.tans + 1)).flatMap fun t => rect t 0 p.m 0 p.n
  | .clear t n => (upFrom t (n + 1)).flatMap fun t => rect t 0 128 0 256
  | .load r => (upFrom r.tile (r.comps + 1)).flatMap fun t => rect t r.row r.rows r.col r.cols
  | _ => []

/-- The entries of the galley that an operation touches (R412). -/
def Op.touches (o : Op) : List Nat :=
  match o.work with
  | .store r => (upFrom r.tile (r.comps + 1)).flatMap fun t => (upFrom r.row r.rows).flatMap fun i => (upFrom r.col r.cols).map fun c => tileKey t i c
  | _ => o.entries

/-! What stands in an operation's way. -/

/-- What an operation reads after its issue: a packet is read at issue (R283). -/
def State.readsLater (s : State) (o : Op) : List (Nat × Nat) :=
  match o.work with
  | .ndt _ sent => if sent.isEmpty then s.memReads o else []
  | _ => s.memReads o

/-- Translations that an operation waits for. -/
def State.opMissing (s : State) (o : Op) : List (Nat × Need) :=
  match s.sceneOf o.fid with
  | none => []
  | some sc =>
    let miss := fun (n : Need) (l : List (Nat × Nat)) =>
      (l.flatMap fun r => granuleAddrs r.1 r.2).filterMap fun a => match s.findVa sc o.wait a n with | .miss => some (a, n) | _ => none
    miss .r (s.readsLater o) ++ miss .w (s.memWrites o)

/-- Whether an operation takes poison on what it reads as a failure (R290, R411). -/
def Work.minds : Work → Bool
  | .scrub .. => false
  | _ => true

/-- An address that only SCRUB refuses (R290). -/
def State.scrubRefuses (s : State) (w : Work) (l : Loc) : Bool :=
  match w, l with
  | .scrub .., .pa a => !s.ownMem a
  | .scrub .., .spad _ _ => true
  | _, _ => false

/-- The first access of an operation that fails, with its code and address (R199, R285). -/
def State.opFault (s : State) (o : Op) : Option (TrapCode × Nat) :=
  match s.sceneOf o.fid with
  | none => none
  | some sc =>
    let at_ := fun (read : Bool) (p : Nat × Nat × Nat) => match s.findVa sc o.wait p.1 (if read then .r else .w) with
      | .refused => some (TrapCode.accessViolation, p.1)
      | .miss => none
      | .at_ l =>
        if s.scrubRefuses o.work l && !(match o.work with | .scrub _ _ rpt _ => p.1 = rpt && !read | _ => false) then some (.accessViolation, p.1)
        else (s.locFail sc.tenant (read && o.work.minds) l p.2.2).map fun c => (c, p.1)
    let look := fun (read : Bool) (l : List (Nat × Nat)) => (l.flatMap fun r => pieces r.1 r.2).findSome? (at_ read)
    match look true (s.readsLater o) with
    | some x => some x
    | none => match look false (s.memWrites o) with
      | some x => some x
      | none => if (s.forme? o.fid).any (fun f => f.gpoison.any fun k => o.touches.contains k) then some (.poison, 0) else none

/-! Press products (R130, R192, R193, R229). -/

/-- The bits of a stored element of a sheet as the operation reads it for the entry `e` (R190). -/
def State.sheetBits (s : State) (o : Op) (sc : Scene) (e : Nat) (h : Sheet) (r c : Nat) : Nat :=
  let w := h.format.width
  let b0 := c * w / 8
  let pick := ((h.at_ / 64 * 65536 + r) * 65536 + c) * 2 ^ 21 + e
  let raw := natOfBytes (s.openElem o pick ((upFrom b0 ((c * w + w - 1) / 8 + 1 - b0)).map fun b => s.keyed sc (h.byteAt r b)))
  raw / 2 ^ (c * w % 8) % 2 ^ w

/-- The value of a stored element of a sheet as the operation reads it for the entry `e` (R190). -/
def State.sheetElem (s : State) (o : Op) (sc : Scene) (e : Nat) (h : Sheet) (r c : Nat) : XR :=
  let f := h.format
  let bits := s.sheetBits o sc e h r c
  match f with
  | .bq b => bqValue b (natOfBytes (s.openElem o (((h.at_ / 64 * 65536 + r) * 65536 + 60000 + c / 32) * 2 ^ 21 + e) [s.keyed sc (h.expAt r (c / 32))])) (intOf true b bits)
  | _ => valOf f bits

/-- The elements of one row at some logical columns, none where pruned. The pattern is the primary sheet's (R229). -/
def State.sheetRow (s : State) (o : Op) (sc : Scene) (e : Nat) (h : Sheet) (sparse : Bool) (r : Nat) (ks : List Nat) : List (Option XR) :=
  ks.map fun k => (h.column sparse h.seed h.spr r k).map fun c => s.sheetElem o sc e h r c

/-- The products of a row of A and a row of B at the positions that neither prunes. -/
def rowProducts (a b : List (Option XR)) : List XR × Bool :=
  (a.zip b).foldl (fun (acc : List XR × Bool) x => match x with
    | (some p, some q) =>
      let y := p.mul q
      (acc.1 ++ [y], acc.2 || (y.isNan && !p.isNan && !q.isNan))
    | _ => acc) ([], false)

/-- press_group on every entry of an `m` by `n` rectangle of one tile; each entry reads its own rows (R190). -/
def groupOn (tile m n : Nat) (rows : Nat → Nat → List (Option XR) × List (Option XR)) (g : Tile) : Tile × BitVec 9 × Nat :=
  (upFrom 0 m).foldl (fun acc i => (upFrom 0 n).foldl (fun (acc : Tile × BitVec 9 × Nat) j =>
    let (ps, inv) := rowProducts (rows i j).1 (rows i j).2
    let k := tileKey tile i j
    let (v, f) := pressGroup (tileGet acc.1 k) ps inv
    (tileSet acc.1 k v, acc.2.1 ||| f, acc.2.2 + ps.length)) acc) (g, 0, 0)

/-- The logical columns of group `g`. -/
def Product.group (p : Product) (g : Nat) : List Nat := upFrom (p.k0 + 32 * g) (min 32 (p.kd - 32 * g))

/-- Group step `g` of a product on its tile and its tangent tiles: the forme's galley, the flags and the products formed. UNVERIFIED: log entry 95. -/
def State.groupStep (s : State) (o : Op) (sc : Scene) (p : Product) (g : Nat) (t : Tile) : Tile × BitVec 9 × Nat :=
  let ks := p.group g
  let rows := fun (tile : Nat) (ha hb : Sheet) (i j : Nat) =>
    let e := tileKey tile i j
    (s.sheetRow o sc e ha p.sparseA (p.arow + i) ks, s.sheetRow o sc e hb p.sparseB (p.brow + j) ks)
  let a0 := p.a.headD {}
  let b0 := p.b.headD {}
  let (t, f, n) := groupOn p.tile p.m p.n (rows p.tile a0 b0) t
  let t := ((p.a.drop 1).zip ((p.b.drop 1).zip (upFrom 1 p.tans))).foldl (fun t x =>
    let k := p.tile + x.2.2
    let t := (groupOn k p.m p.n (rows k x.1 b0) t).1
    (groupOn k p.m p.n (rows k a0 x.2.1) t).1) t
  (t, f, n)

def Op.steps (o : Op) : Nat := match o.work with | .product p => (p.kd + 31) / 32 | _ => 1

/-- The entries of an operation's rectangle set to +0 (R192, R194). -/
def clearEntries (ks : List Nat) (t : Tile) : Tile := t.filter fun e => !ks.contains e.1

/-! Rectangles and sheets (R194 to R196). -/

def Rect.format (r : Rect) : Fmt := (Fmt.ofCode r.fmt).getD .fp32

/-- GLOAD of component `j` (R196). -/
def State.loadRect (s : State) (o : Op) (sc : Scene) (r : Rect) (t : Tile) : Tile :=
  let e := fmtBytes r.fmt
  (upFrom 0 (r.comps + 1)).foldl (fun t j => (upFrom 0 r.rows).foldl (fun t i =>
    let va := r.rowAt j i
    let bs := s.opRead o sc va e va (r.cols * e)
    (upFrom 0 r.cols).foldl (fun t c =>
      let v := valOf r.format (natOfBytes ((bs.drop (c * e)).take e))
      tileSet t (tileKey (r.tile + j) (r.row + i) (r.col + c)) (BitVec.ofNat 32 (place .fp32 true .rne v).1)) t) t) t

/-- An entry as GSTORE reads it: one that GWRITE has written since the issue may be old or new (R190). -/
def State.storedEntry (s : State) (o : Op) (t : Tile) (k : Nat) : W32 :=
  let v := tileGet t k
  match o.poked.find? fun x => x.1 = k with
  | some x => if Config.freeBit s.freeCtr (500000 + k) then x.2.1 else v
  | none => v

/-- GSTORE (R196); a tangent is placed by its primary (R223, R229). -/
def State.storeRect (s : State) (o : Op) (sc : Scene) (r : Rect) (t : Tile) : State × BitVec 9 :=
  let e := fmtBytes r.fmt
  let prim := fun (i c : Nat) => let x := val32 (s.storedEntry o t (tileKey r.tile (r.row + i) (r.col + c))); (x, place r.format r.satm r.rm x)
  let row := fun (j i : Nat) => (upFrom 0 r.cols).flatMap fun c =>
    let (x, b, f) := prim i c
    if j = 0 then bytesOfNat e b
    else
      let d := val32 (s.storedEntry o t (tileKey (r.tile + j) (r.row + i) (r.col + c)))
      bytesOfNat e (tangentBits r.format true x.isNan (f.getLsbD 0 && !x.isNan) [d] d)
  let f := (upFrom 0 r.rows).foldl (fun f i => (upFrom 0 r.cols).foldl (fun f c => f ||| (prim i c).2.2) f) 0
  let s' := (upFrom 0 (r.comps + 1)).foldl (fun s' j => (upFrom 0 r.rows).foldl (fun s' i =>
    s'.opWrite o sc (fun _ => false) (r.rowAt j i) (row j i)) s') s
  (s', f)

/-- Whether an address lies in one of some runs. -/
def inRuns (l : List (Nat × Nat)) (a : Nat) : Bool := l.any fun r => decide (r.1 ≤ a ∧ a < r.1 + r.2)

/-- A sector that a write has covered is poisoned no more (R265). -/
def State.cleanSector (s : State) : Loc → State
  | .pa a => { s with poison := s.poison.filter (· ≠ sectorOf a) }
  | .spad fid o => s.onForme fid fun f => { f with spoison := f.spoison.filter (· ≠ sectorOf o) }

/-- Write some bytes at their own addresses; where they overlap the runs read, either value (R195, R286, R287). What covers a whole sector clears
its poison (R265). -/
def State.scatter (s : State) (o : Op) (sc : Scene) (reads : List (Nat × Nat)) (bs : List (Nat × Byte)) : State :=
  let s := bs.foldl (fun s b => s.opWrite o sc (inRuns reads) b.1 [b.2]) s
  let at_ := bs.map (·.1)
  (at_.filter fun a => a % 32 = 0).foldl (fun s a =>
    match s.findVa sc [] a .none with
    | .at_ l => if s.locPoisoned l 32 && (upFrom a 32).all at_.contains then s.cleanSector l else s
    | _ => s) s

/-- The body of one sheet copied into another's, through both swizzles, each element read whole (R190, R195). A last byte that holds one 4-bit element keeps its other half. -/
def State.sheetBytes (s : State) (o : Op) (sc : Scene) (src dst : Sheet) : List (Nat × Byte) :=
  let n := src.rowBytes
  let half := src.stored * src.format.width % 8 ≠ 0
  (upFrom 0 src.rows).flatMap fun r =>
    let row := (upFrom 0 src.stored).foldl (fun m c => m + s.sheetBits o sc 0 src r c * 2 ^ (c * src.format.width)) 0
    (((bytesOfNat n row).zip (upFrom 0 n)).map fun e =>
      let (x, b) := e
      let y := (s.runRead sc (dst.byteAt r b) 1).headD 0
      (dst.byteAt r b, if half ∧ b + 1 = n then (x &&& 0x0F) ||| (y &&& 0xF0) else x))
    ++ (if src.format.isBq then (upFrom 0 (src.stored / 32)).map fun i =>
        (dst.expAt r i, (s.opRead o sc (src.expAt r i) 1 (src.expAt r i) 1).headD 0) else [])

def State.doSheet (s : State) (o : Op) (sc : Scene) (src dst : List Sheet) : State :=
  let moved := (src.zip dst).flatMap fun h => s.sheetBytes o sc h.1 h.2
  let s := s.scatter o sc (s.memReads o) moved
  dst.foldl (fun s h => s.opWrite o sc (fun _ => false) h.stampAt [byteOf h.swz]) s

/-! The engines' copies (R286 to R290). -/

def State.doCpy (s : State) (o : Op) (sc : Scene) (src dst len : Nat) : State :=
  s.opWrite o sc (inRuns [(src, len)]) dst (s.opRead o sc src 1 src len)

/-- A fill's bytes: byte `a mod 8` of the pattern at address `a` (R289). -/
def fillBytes (pat : W64) (dst len : Nat) : List Byte := (upFrom dst len).map fun a => pat.extractLsb' (8 * (a % 8)) 8

/-- CPYX (R287); of rows that overlap at the destination a later one's bytes remain. DESIGN CHOICE: log entry 121. -/
def State.doCpyx (s : State) (o : Op) (sc : Scene) (src dst rows rb sp dp xs xp : Nat) (hdr : Option Sheet) : State :=
  let row := fun (r : Nat) => s.opRead o sc (src + r * sp) 1 (src + r * sp) rb
  match hdr with
  | none =>
    let all := (upFrom 0 rows).map row
    (all.zip (upFrom 0 rows)).foldl (fun s x => s.opWrite o sc (inRuns (s.memReads o)) (dst + x.2 * dp) x.1) s
  | some h =>
    let body := (upFrom 0 rows).flatMap fun r => ((row r).zip (upFrom 0 rb)).map fun b => (h.byteAt r b.2, b.1)
    let exps := if h.format.isBq then (upFrom 0 rows).flatMap fun r =>
        ((s.opRead o sc (xs + r * xp) 1 (xs + r * xp) (h.stored / 32)).zip (upFrom 0 (h.stored / 32))).map fun b => (h.expAt r b.2, b.1)
      else []
    (s.scatter o sc (s.memReads o) (body ++ exps)).opWrite o sc (fun _ => false) h.stampAt [byteOf h.swz]

/-- One pair rotated by an angle (R288): the two elements, and the flags. -/
def rotatePair (f : Fmt) (delta : W32) (freq x y : Nat) : Nat × Nat × BitVec 9 :=
  let d := Rat2.ofInt (intOf true 32 delta.toNat)
  let fv := valOf .fp32 freq
  let (phi, g0) := floatResult .fp32 .rne [fv] ((XR.fin d).mul fv)
  let (cb, g1) := cosExact (valOf .fp32 phi)
  let (sb, g2) := sinExact (valOf .fp32 phi)
  let c := valOf .fp32 cb; let sn := valOf .fp32 sb
  let xv := valOf f x; let yv := valOf f y
  let (p, g3) := floatResult f .rne [xv, yv, c, sn] ((xv.mul c).add false (yv.mul sn).neg)
  let (q, g4) := floatResult f .rne [xv, yv, c, sn] ((xv.mul sn).add false (yv.mul c))
  (p, q, g0 ||| g1 ||| g2 ||| g3 ||| g4)

/-- The rotated bytes of one row, and the flags. -/
def rotateRow (f : Fmt) (mode dim : Nat) (delta : W32) (ft row : List Byte) : List Byte × BitVec 9 :=
  let e := f.width / 8
  let el := fun (l : List Byte) (w i : Nat) => natOfBytes ((l.drop (w * i)).take w)
  let pos := fun (i : Nat) => if mode = 0 then (2 * i, 2 * i + 1) else (i, i + dim / 2)
  let rs := (upFrom 0 (dim / 2)).map fun i => rotatePair f delta (el ft 4 i) (el row e (pos i).1) (el row e (pos i).2)
  let out := (upFrom 0 dim).flatMap fun k =>
    let i := if mode = 0 then k / 2 else k % (dim / 2)
    let r := rs.getD i (0, 0, 0)
    bytesOfNat e (if k = (pos i).1 then r.1 else r.2.1)
  (out, rs.foldl (fun g r => g ||| r.2.2) 0)

def State.doCpyrot (s : State) (o : Op) (sc : Scene) (src dst ftab rows sp dp dim f mode : Nat) (delta : W32) : State × BitVec 9 :=
  let fm := (Fmt.ofCode f).getD .fp32
  let e := fmtBytes f
  let ft := s.opRead o sc ftab 4 ftab (dim / 2 * 4)
  let outs := (upFrom 0 rows).map fun r => rotateRow fm mode dim delta ft (s.opRead o sc (src + r * sp) e (src + r * sp) (dim * e))
  let twice := fun (a : Nat) => decide (1 < ((s.memWrites o).filter fun r => decide (r.1 ≤ a ∧ a < r.1 + r.2)).length)
  let loose := fun (a : Nat) => twice a || inRuns (if src = dst ∧ sp = dp then (s.memReads o).take 1 else s.memReads o) a
  ((outs.zip (upFrom 0 rows)).foldl (fun s x => s.opWrite o sc loose (dst + x.2 * dp) x.1.1) s,
   outs.foldl (fun g x => g ||| x.2) 0)

/-- The physical runs of a range. -/
def State.physical (s : State) (sc : Scene) (va n : Nat) : List (Nat × Nat) :=
  (pieces va n).filterMap fun p => match s.findVa sc [] p.1 .none with | .at_ (.pa a) => some (a, p.2.2) | _ => none

/-- SCRUB (R290): check and correct, or clear; then the report. DEDUCED: log entry 58. -/
def State.doScrub (s : State) (o : Op) (sc : Scene) (dst len rpt : Nat) (zero : Bool) : State :=
  let ps := s.physical sc dst len
  let fixed := s.corrections
  let s := if zero then s.opWrite o sc (fun _ => false) dst (List.replicate len 0) else ps.foldl (fun s p => s.correct p.1 p.2) s
  let bad := if zero then [] else (upFrom 0 (len / 32)).filter fun k =>
    match s.findVa sc [] (dst + 32 * k) .none with | .at_ l => s.locPoisoned l 32 | _ => false
  if rpt = 0 then s
  else
    let first := match bad with | k :: _ => dst + 32 * k | [] => 0
    s.opWrite o sc (fun _ => false) rpt (bytesOfNat 8 (len / 32) ++ bytesOfNat 8 (s.corrections - fixed) ++ bytesOfNat 8 bad.length ++ bytesOfNat 8 first)

/-! Task packets (R291, R316). -/

def packetField (pk : List Byte) (off n : Nat) : Nat := natOfBytes ((pk.drop off).take n)
def packetTag (key : List Byte) (pk : List Byte) : List Byte := Config.kmac256 key (pk.take 0xE0) 32

/-- A packet as its command read it at issue, with what an earlier operation of the home party, such as its SEAL, has written to it since (R283, R284). -/
def State.packetNow (s : State) (o : Op) (sc : Scene) (pkt : Nat) (read : List Byte) : List Byte :=
  (read.zip (upFrom 0 read.length)).map fun b =>
    let (k, cur) := s.keyed sc (pkt + b.2)
    let since := s.past.filter fun x => x.key = k && decide (o.issued < x.at_)
    let own := fun (x : Past) => match x.writer with | .op f h _ => f = o.fid && h = o.hp | _ => false
    if since.any own then (match (since.reverse.takeWhile fun x => !own x).reverse with | x :: _ => x.old | [] => cur) else b.1

/-- SEAL with the sequence number that it chose (R291). -/
def State.doSeal (s : State) (o : Op) (sc : Scene) (pkt : Nat) (handle : W64) (read : List Byte) : State :=
  match s.sessions.find? fun x => x.handle = handle with
  | none => s
  | some x =>
    let pk := s.packetNow o sc pkt read
    let pk := pk.take 0x30 ++ bytesOfNat 8 o.step ++ pk.drop 0x38
    (s.opWrite o sc (fun _ => false) (pkt + 0x30) (bytesOfNat 8 o.step)).opWrite o sc (fun _ => false) (pkt + 0xE0) (packetTag x.key pk)

/-! A whole step of an operation. -/

def State.galley (s : State) (fid : Nat) : Tile := ((s.forme? fid).map Forme.galley).getD []
def State.setGalley (s : State) (fid : Nat) (t : Tile) : State := s.onForme fid fun f => { f with galley := t }

/-- What happens to the galley when an operation starts: ZERO sets its entries to +0 (R192). -/
def State.opZeroed (s : State) (o : Op) : State :=
  match o.work with
  | .product p => if p.zero then s.setGalley o.fid (clearEntries o.entries (s.galley o.fid)) else s
  | _ => s

/-- Step `k` of an operation: the state after it, its flags, and the products formed. -/
def State.opStep (s : State) (o : Op) (k : Nat) : State × BitVec 9 × Nat :=
  match s.sceneOf o.fid with
  | none => (s, 0, 0)
  | some sc =>
    let g := s.galley o.fid
    match o.work with
    | .product p => let (t, f, n) := s.groupStep o sc p k g; (s.setGalley o.fid t, f, n)
    | .clear _ _ => (s.setGalley o.fid (clearEntries o.entries g), 0, 0)
    | .load r => (s.setGalley o.fid (s.loadRect o sc r g), 0, 0)
    | .store r => let (s, f) := s.storeRect o sc r g; (s, f, 0)
    | .sheet src dst => (s.doSheet o sc src dst, 0, 0)
    | .cpy src dst len => (s.doCpy o sc src dst len, 0, 0)
    | .cpyx src dst rows rb sp dp xs xp hdr => (s.doCpyx o sc src dst rows rb sp dp xs xp hdr, 0, 0)
    | .cpyrot src dst ft rows sp dp dim f mode delta => let (s, f) := s.doCpyrot o sc src dst ft rows sp dp dim f mode delta; (s, f, 0)
    | .fill dst len pat => (s.opWrite o sc (fun _ => false) dst (fillBytes pat dst len), 0, 0)
    | .scrub dst len rpt zero => (s.doScrub o sc dst len rpt zero, 0, 0)
    | .seal pkt h pk => (s.doSeal o sc pkt h pk, 0, 0)
    | .ndt .. | .void | .coll .. | .bind _ => (s, 0, 0)

/-- Remaining steps of an operation from step `k`: the states after each. -/
def State.opSteps (s : State) (o : Op) (k : Nat) : Nat → List State
  | 0 => []
  | n + 1 => let s' := (s.opStep o k).1; s' :: s'.opSteps o (k + 1) n

/-- The galley as it was before an operation started, with what GWRITE wrote since its issue undone (R190). -/
def State.opBefore (s : State) (o : Op) : State :=
  let t := (o.poked.foldl (fun t x => tileSet t x.1 x.2.1) (s.galley o.fid))
  s.setGalley o.fid (if o.phase = .running then o.snap.foldl (fun m e => tileSet m e.1 e.2) (clearEntries o.entries t) else t)

/-- Every state that an unfinished operation passes through, from before its start to its end (R190). DEDUCED: log entry 53. -/
def State.opTrace (s : State) (o : Op) : List State :=
  let b := s.opBefore o
  let z := b.opZeroed o
  b :: z :: z.opSteps o 0 o.steps

/-- Unfinished operations in issue order. -/
def State.openOps (s : State) : List Op := s.ops.filter Op.unfinished

/-- The states that some operations pass through, one after another; what GWRITE wrote to entries in `done` has been undone. -/
def State.traceFrom (s : State) (done : List Nat) : List Op → List State
  | [] => []
  | o :: os =>
    let t := s.opTrace { o with poked := o.poked.filter fun x => !done.contains x.1 }
    t ++ (t.getLastD s).traceFrom (done ++ o.entries) os

def State.traceAll (s : State) (os : List Op) : List State := s.traceFrom [] os

/-- What a GWRITE wrote over, as a later operation on the entry finds it once this one has ended (R190). -/
def Op.settleOn (o : Op) (k : Nat) (v : W32) (x : Op) : Op :=
  if x.fid = o.fid && x.id ≠ o.id then { x with poked := x.poked.map fun y => if y.1 = k then (k, v, y.2.2) else y } else x

/-- The end of an operation on its rectangle: an entry that GWRITE wrote holds what GWRITE wrote, what the operation leaves, or what it
leaves from GWRITE's value (R190). -/
def State.opSettle (s : State) (o : Op) : State :=
  o.poked.foldl (fun s x =>
    if !o.entries.contains x.1 then s
    else
      let b := s.opBefore o
      let last := fun (b : State) => tileGet ((((b.opZeroed o).opSteps o 0 o.steps).getLastD b).galley o.fid) x.1
      let r0 := last b
      let r1 := last (b.setGalley o.fid (tileSet (b.galley o.fid) x.1 x.2.2))
      let v := [x.2.2, r0, r1].getD (Config.freeNat s.freeCtr (600000 + x.1) % 3) r0
      let s := s.setGalley o.fid (tileSet (s.galley o.fid) x.1 v)
      { s with ops := s.ops.map (o.settleOn x.1 v) }) s

/-- A failed or stopped operation leaves each entry and each byte that it writes at some value on its way (R13, R199, R285). -/
def State.opSpoil (s : State) (o : Op) : State :=
  let t := s.opTrace o
  let s := o.entries.foldl (fun s k =>
    let vs := t.map fun x => tileGet (x.galley o.fid) k
    s.setGalley o.fid (tileSet (s.galley o.fid) k (s.oneOf (700000 + k) 0 vs))) s
  match s.sceneOf o.fid with
  | none => s
  | some sc =>
    let fin := t.getLastD s
    (s.memWrites o).foldl (fun s r => (upFrom r.1 r.2).foldl (fun s a =>
      if Config.freeBit s.freeCtr (800000 + a) then s.opWrite o sc (fun _ => false) a (fin.runRead sc a 1) else s) s) s

/-! Order among operations (R175, R284). -/

/-- The places that some runs occupy, as keys of `State.past`; an untranslated run stands at its own address, beyond every key. -/
def State.placed (s : State) (sc : Scene) (l : List (Nat × Nat)) : List (Nat × Nat) :=
  (l.flatMap fun r => pieces r.1 r.2).map fun p => match s.findVa sc [] p.1 .none with
    | .at_ x => (x.key, 2 * p.2.2)
    | _ => (2 ^ 70 + 2 * p.1, 2 * p.2.2)

/-- The result region of a task packet on this device: address and length (R316). -/
def State.resultRegion (s : State) (o : Op) : Option (Nat × Nat) :=
  match o.work with
  | .ndt _ sent =>
    let rdst := packetField sent 0x38 8
    if rdst / 2 ^ 48 % 2 ^ 12 = s.pid.toNat then some (rdst % 2 ^ 48, packetField sent 0x40 4) else none
  | _ => none

/-- Everything that an operation writes, as keys: an NDT's result region is a physical one, each page of it where it has moved to (R254, R292, R311). -/
def State.writeKeys (s : State) (sc : Scene) (o : Op) : List (Nat × Nat) :=
  s.placed sc (s.memWrites o) ++ (match s.resultRegion o with | some (a, n) => (pieces a n).map fun p => (memKey (s.moved p.1), 2 * p.2.2) | none => [])

/-- The arguments that an NDT's task reads, or writes, as this device reaches them (R316, R430). -/
def State.taskRuns (s : State) (o : Op) (write : Bool) : List (Nat × Nat) :=
  match o.work with
  | .ndt _ sent =>
    let f := packetField sent
    let tgt := BitVec.ofNat 12 (f 2 2)
    (upFrom 0 (min 8 (f 1 1))).flatMap fun i =>
      let x := f (0x48 + 16 * i) 8
      let n := f (0x50 + 16 * i) 4
      if f (0x54 + 16 * i) 4 / (if write then 2 else 1) % 2 = 0 then []
      else if tgt = s.pid then [(fabricBase + x, n)]
      else s.extents.filterMap fun e =>
        let y := Config.extentSpace e.base
        let lo := max x y
        let hi := min (x + n) (y + 2 ^ 29)
        if e.pids.head? = some tgt && decide (lo < hi) then some (e.base + (lo - y), hi - lo) else none
  | _ => []

/-- What the touches of an operation are checked by: what it reads, or writes, and what its task does (R191, R254, R430). -/
def State.touchKeys (s : State) (sc : Scene) (o : Op) (writes : Bool) : List (Nat × Nat) :=
  (if writes then s.writeKeys sc o else s.placed sc (s.memReads o)) ++ (s.taskRuns o writes).map fun r => (memKey r.1, 2 * r.2)

/-- The receive buffer of a collective step, which its folds write (R284, R296). -/
def Op.rbuf (o : Op) : List (Nat × Nat) := match o.work with | .coll g .. => [(g.rbuf, g.len)] | _ => []

/-- Whether `o` must wait for the earlier-issued `e` (R175, R284). DEDUCED: log entry 52. -/
def State.mustWait (s : State) (e o : Op) : Bool :=
  let tile := e.fid = o.fid && e.tiles.any fun t => o.tiles.contains t
  let mem := e.fid = o.fid && e.hp = o.hp && (match s.sceneOf o.fid with
    | none => false
    | some sc =>
      let pl := s.placed sc
      let ew := s.writeKeys sc e ++ pl e.rbuf
      let ow := s.writeKeys sc o ++ pl o.rbuf
      overlap ew (pl (s.memReads o)) || overlap ew ow || overlap (pl (s.memReads e)) ow)
  tile || mem

def State.opFree (s : State) (o : Op) : Bool := s.openOps.all fun e => !(decide (e.seq < o.seq) && s.mustWait e o)

end Sys2Proof.Machine
end

