-- ==== Sys2Proof/Machine/Fold.lean ====
section
/-! DEFINITION. The folds of collective steps: their trees, their values and order signature (R296, R320 to R323), and what a read of a receive
buffer finds while they run (R297). -/
namespace Sys2Proof.Machine

def Home.groupAt (h : Home) (bind : Nat) : Option Group := h.groups.find? fun g => g.bind = bind
def Home.step? (h : Home) (bind n : Nat) : Option Step := h.steps.find? fun x => x.bind = bind && x.n = n

/-! The fold (R296, R320 to R323). -/

/-- The tree of a fold at one location. -/
inductive FoldTree where
  | leaf (id : Nat) (elem : List Byte)
  | node (l r : FoldTree)
deriving DecidableEq, Repr

def startId : Nat := 0x40000

/-- The least contribution identifier of a subtree, or the starting value's (R321). -/
def FoldTree.ident : FoldTree → Nat
  | .leaf i _ => i
  | .node l r => min l.ident r.ident

def contribId (c : Contribution) : Nat := 64 * c.rank + c.lane

def insertBy {α : Type} (key : α → Nat) (x : α) : List α → List α
  | [] => [x]
  | y :: l => if key x < key y then x :: y :: l else y :: insertBy key x l

/-- In ascending order of a key; those of one key keep their order. -/
def sortBy {α : Type} (key : α → Nat) (l : List α) : List α := l.foldl (fun m x => insertBy key x m) []

/-- The left chain: the starting value, then the contributions in ascending rank and lane (R320). -/
def foldChain (start : List Byte) (cs : List Contribution) : FoldTree :=
  (sortBy contribId cs).foldl (fun t c => .node t (.leaf (contribId c) c.elem)) (.leaf startId start)

/-- Join two of some subtrees at a time; the route, a free choice, says which (R321). -/
def foldRoute (k pick : Nat) : Nat → List FoldTree → Option FoldTree
  | 0, l => l.head?
  | n + 1, l =>
    match l with
    | [] => none
    | [t] => some t
    | _ =>
      let i := Config.freeNat k (1900000 + 64 * pick + n) % l.length
      let rest := l.eraseIdx i
      let j := Config.freeNat k (1950000 + 64 * pick + n) % rest.length
      match l[i]?, rest[j]? with
      | some x, some y => foldRoute k pick n (.node x y :: rest.eraseIdx j)
      | _, _ => none

/-- An integer or floating-point element combined with another (R296). -/
def combineElem (sub : BitVec 4) (ty : OpTy) (rm : RmCode) (x y : Nat) : Nat :=
  if ty.isInt then
    let a := tyVal ty (BitVec.ofNat 64 x); let b := tyVal ty (BitVec.ofNat 64 y)
    match sub.toNat with
    | 1 => wrapTo (tyBits ty) (a + b)
    | 2 => if a < b then y else x
    | _ => if b < a then y else x
  else
    let f := tyFmt ty
    match sub.toNat with
    | 1 => (place f true rm ((valOf f x).add (isRdn rm) (valOf f y))).1
    | 2 => ((minMaxOp f true).val [x, y]).1
    | _ => ((minMaxOp f false).val [x, y]).1

def tripleOf (bs : List Byte) : Triple := { m := bits32 (packetField bs 0 4), w := bits32 (packetField bs 4 4), x := bits32 (packetField bs 8 4) }
def tripleBytes (t : Triple) : List Byte := bytesOfNat 4 t.m.toNat ++ bytesOfNat 4 t.w.toNat ++ bytesOfNat 4 t.x.toNat ++ bytesOfNat 4 0

/-- acc and e combined under a step's operation; `c` is DMERGE's coin (R296). -/
def combine (sub : BitVec 4) (ty : OpTy) (rm : RmCode) (acc e : List Byte) (c : W32) : List Byte :=
  match sub.toNat with
  | 0 => e
  | 4 => tripleBytes (dmerge (tripleOf acc) (tripleOf e) c).1.written
  | _ =>
    let w := if ty.isInt then 4 * ty.regs else (tyFmt ty).width / 8
    let n := acc.length / w
    (upFrom 0 n).flatMap fun k => bytesOfNat w (combineElem sub ty rm (packetField acc (w * k) w) (packetField e (w * k) w))

/-- A node as the signature and the coins know it: the identifiers of its children (R321). -/
abbrev FoldNode := Nat × Nat

/-- The value of a fold, its identifier and its nodes in post-order; `coin` gives the coin of the node with an index (R321 to R323). -/
def FoldTree.eval (f : List Byte → List Byte → W32 → List Byte) (coin : Nat → FoldNode → W32) : FoldTree → Nat → List Byte × Nat × List FoldNode
  | .leaf i e, _ => (e, i, [])
  | .node l r, j =>
    let (x, a, ns) := l.eval f coin j
    let (y, b, ms) := r.eval f coin (j + ns.length)
    let k := j + ns.length + ms.length
    (f x y (coin k (a, b)), min a b, ns ++ ms ++ [(a, b)])

/-- One node's word in the signature (R322). -/
def signStep (z off : Nat) (h : W64) (n : FoldNode) : W64 :=
  let w := BitVec.ofNat 64 (off / z % 2 ^ 26 * 2 ^ 38 + n.1 * 2 ^ 19 + n.2)
  (h.rotateLeft 7 ^^^ w) * 0x9E3779B97F4A7C15

def signStart : W64 := 0x6A09E667F3BCC908

/-- Locations that received contributions, in ascending order. -/
def Step.offs (x : Step) : List Nat :=
  sortBy id (x.parts.foldl (fun l c => if l.contains c.off then l else l ++ [c.off]) [])

/-- The first stream position of a location's coins (R323). -/
def Group.coinPos (g : Group) (n off : Nat) : Nat := g.base.toNat + ((n - 1) * (g.len / 16) + off / 16) * 64 * g.nrank

/-- The stream words that a location's fold uses. -/
def Step.coinRun (x : Step) (g : Group) (off : Nat) : List (Nat × Nat) :=
  if x.sub ≠ 4 ∨ g.src = 0 then [] else [(g.coinPos x.n off, (x.parts.filter fun c => c.off = off).length)]

/-- A node's coin (R323). -/
def State.foldCoin (s : State) (sc : Scene) (g : Group) (n off j : Nat) (nd : FoldNode) : W32 :=
  if g.src = 0 then
    coinKeyed g.key (BitVec.ofNat 32 n) (BitVec.ofNat 32 (off / 16)) (BitVec.ofNat 32 nd.1) (BitVec.ofNat 32 nd.2 ^^^ 0x80000000)
  else BitVec.ofNat 32 (natOfBytes (s.runRead sc (g.src + 4 * (g.coinPos n off + j)) 4))

/-- The tree by which a location's fold takes some contributions: the chain, or under routed order the route's (R320, R321). -/
def State.foldTreeOf (s : State) (x : Step) (off : Nat) (start : List Byte) (cs : List Contribution) : FoldTree :=
  let chain := foldChain start cs
  if x.routed then
    ((foldRoute s.freeCtr off cs.length (.leaf startId start :: cs.map fun c => .leaf (contribId c) c.elem)).getD chain)
  else chain

def State.foldTree (s : State) (sc : Scene) (g : Group) (x : Step) (off : Nat) : FoldTree :=
  s.foldTreeOf x off (s.runRead sc (g.rbuf + off) (collSize x.sub x.ty)) (x.parts.filter fun c => c.off = off)

/-- What one location's fold leaves, and its nodes. -/
def State.foldAt (s : State) (sc : Scene) (g : Group) (x : Step) (off : Nat) : List Byte × List FoldNode :=
  let r := (s.foldTree sc g x off).eval (combine x.sub x.ty x.rm) (s.foldCoin sc g x.n off) 0
  (r.1, r.2.2)

def State.writeRun (s : State) (sc : Scene) (va : Nat) (bs : List Byte) : State :=
  (pieces va bs.length).foldl (fun s p => match s.findVa sc [] p.1 .none with
    | .at_ l =>
      let s := match l with
        | .pa a => (runLines [(a, p.2.2)]).foldl (fun (s : State) x => s.dropCopies (((s.trace sc.fid).map fun (g : Ghost) => dieOf g.core).getD 0) x) s
        | .spad .. => s
      s.locWrite l ((bs.drop p.2.1).take p.2.2)
    | _ => s) s

/-- The values that a location of a failed step may hold: what stood there, and the fold after each contribution in the step's order (R13, R297). -/
def State.foldValues (s : State) (sc : Scene) (g : Group) (x : Step) (off : Nat) : List (List Byte) :=
  let all := x.parts.filter fun c => c.off = off
  let cs := if x.routed then all else sortBy contribId all
  let start := s.runRead sc (g.rbuf + off) (collSize x.sub x.ty)
  (upFrom 0 (cs.length + 1)).map fun k =>
    ((s.foldTreeOf x off start (cs.take k)).eval (combine x.sub x.ty x.rm) (s.foldCoin sc g x.n off) 0).1

/-- The elements that a read meets while their folds run: each is what stood there, or the fold of some first contributions (R297). -/
def State.foldView (s : State) (pick : Nat) (l : Loc) (n : Nat) : List (Nat × Byte) :=
  s.homes.flatMap fun h => match s.sceneOf h.fid with
    | none => []
    | some sc => h.steps.flatMap fun x => match h.groupAt x.bind with
      | none => []
      | some g => x.toFold.flatMap fun off =>
        let ks := (upFrom 0 (collSize x.sub x.ty)).map fun j => (s.keyed sc (g.rbuf + off + j)).1
        if ks.any fun k => decide (l.key ≤ k ∧ k < l.key + 2 * n) && k % 2 = l.key % 2 then ks.zip (s.oneOf (30000000 + pick * 4096 + off) [] (s.foldValues sc g x off)) else []

end Sys2Proof.Machine
end

