-- ==== Sys2Proof/Machine/Access.lean ====
section
/-! DEFINITION. The accesses of memory instructions: forming and checking addresses (R225, R238, R260, R263, R269, R270), reaching memory
(R261, R264), touches of operations in flight (R190, R191, R254), BULK lines (R306, R307), failures at memory
(R265), and parking, replay and refusal (R228, R264). -/
namespace Sys2Proof.Machine

/-! Forming addresses. -/

/-- How a memory instruction reaches memory. -/
inductive Way where
  | window (w : Window) (k : BitVec 4)
  | scratch (toff : Nat)
  | lane (toff : Nat)
deriving DecidableEq, Repr

def Way.toff : Way → Nat
  | .window w _ => w.toff
  | .scratch t | .lane t => t

def permHas (n : Need) (perm : BitVec 3) : Bool :=
  match n with
  | .r => perm.getLsbD 0
  | .w => perm.getLsbD 1
  | .rw => perm.getLsbD 2
  | _ => true

/-- The address of an access of `z` bytes at offset `off` in a window (R260, R261). DEDUCED: log entry 41. DEDUCED: log entry 42. -/
def formWindow (w : Window) (k : BitVec 4) (srows : Nat) (n : Need) (lane comp off z : Nat) : Except (TrapCode × Nat) Acc :=
  let a := w.vb + off
  if !w.isOpen then .error (.accessViolation, k.toNat)
  else if off + z > w.len then .error (.accessViolation, a % 2 ^ 64)
  else if a % z ≠ 0 then .error (.misaligned, a)
  else if !permHas n w.perm then .error (.accessViolation, a)
  else if w.spad then
    (if w.frame + off + z > srows * 4096 then .error (.accessViolation, a) else .ok { lane := lane, comp := comp, addr := a, need := n, parts := [.spad (w.frame + off) z] })
  else .ok { lane := lane, comp := comp, addr := a, need := n, parts := [if w.fvalid ∧ off + z ≤ w.flim then .frame (w.frame + off) z else .va a z] }

/-- An access to the scratchpad at a byte offset (R269). -/
def formScratch (srows : Nat) (n : Need) (lane comp off z : Nat) : Except (TrapCode × Nat) Acc :=
  if off + z > srows * 4096 then .error (.accessViolation, off)
  else if off % z ≠ 0 then .error (.misaligned, off)
  else .ok { lane := lane, comp := comp, addr := off, need := n, parts := [.spad off z] }

/-- The address of byte `o` of a lane's private memory (R238). DEDUCED: log entry 44. -/
def laneAddress (r : LRec) (index hp lane o : Nat) : Nat :=
  r.privBase + (index * r.parties + hp) * 64 * r.privSz + o / 4 * 256 + 4 * lane + o % 4

/-- An access to the lane's own private memory (R270). -/
def formLane (r : LRec) (index hp : Nat) (lane comp off z : Nat) : Except (TrapCode × Nat) Acc :=
  if off + z > r.privSz then .error (.accessViolation, off)
  else if off % z ≠ 0 then .error (.misaligned, off)
  else
    let at_ := laneAddress r index hp lane
    .ok { lane := lane, comp := comp, addr := at_ off, need := .rw, own := true
          parts := if z ≤ 4 then [.va (at_ off) z] else (upFrom 0 (z / 4)).map fun k => .va (at_ (off + 4 * k)) 4 }

/-- Component `comp` of a lane's access (R225). -/
def Agent.form (a : Agent) (way : Way) (n : Need) (lane comp off z : Nat) : Except (TrapCode × Nat) Acc :=
  let off := (off + comp * way.toff) % 2 ^ 64
  match way with
  | .window w k => formWindow w k a.l.record.srows n lane comp off z
  | .scratch _ => formScratch a.l.record.srows n lane comp off z
  | .lane _ => formLane a.l.record a.f.index a.p.hp lane comp off z

/-- The accesses of some lanes at their offsets with `nt` tangent components, or the first failing lane's failure (R263). -/
def Agent.formAll (a : Agent) (way : Way) (n : Need) (offs : List (Nat × Nat)) (nt z : Nat) : Except (TrapCode × Nat) (List Acc) :=
  let nt := if way.toff = 0 then 0 else nt
  offs.foldr (fun x acc =>
    (upFrom 0 (nt + 1)).foldr (fun c acc =>
      match a.form way n x.1 c x.2 z with
      | .error e => .error e
      | .ok y => match acc with
        | .error e => .error e
        | .ok l => .ok (y :: l)) acc) (.ok [])

/-- The offset of each lane of a mask: the SO value, and the byte offset added (R260). -/
def State.offsets (s : State) (a : Agent) (so : Src) (m : Mask) (bo : BitVec 64) : List (Nat × Nat) :=
  let v := if so.reg.isS then s.srcLanes a so 2 0 else (s.src32 a so 0).map fun w => w.setWidth 64
  (maskLanes m).map fun i => (i, (laneGet v i + bo).toNat)

def mfOff (o : MF) : BitVec 64 := o.off.signExtend 64

/-! Reaching memory. -/

inductive Got where
  | at_ (ls : List (Loc × Nat))
  | miss (l : List (Nat × Need))
  | refused
deriving DecidableEq, Repr

/-- Where the parts of an access lead (R261, R264). -/
def State.resolve (s : State) (a : Agent) (x : Acc) : Got :=
  x.parts.foldr (fun p g =>
    match p with
    | .frame pa n => match g with | .at_ l => .at_ ((.pa (s.moved pa), n) :: l) | g => g
    | .spad o n => match g with | .at_ l => .at_ ((.spad a.p.fid o, n) :: l) | g => g
    | .va v n =>
      match s.translateFor a.l.space a.p.park v x.need, g with
      | .refused, _ => .refused
      | _, .refused => .refused
      | .miss, .miss l => .miss ((v, x.need) :: l)
      | .miss, _ => .miss [(v, x.need)]
      | .hit pa, .at_ l => .at_ ((.pa pa, n) :: l)
      | .hit _, g => g) (.at_ [])

/-- What an access brings about before its bytes are read: a BULK line filled, a failing sector corrected (R306, R410). -/
def State.approach (s : State) (a : Agent) (sysAtomic write : Bool) (l : Loc × Nat) : State :=
  match l.1 with
  | .spad _ _ => s
  | .pa pa =>
    let s := s.bringIn pa
    ((if sysAtomic then s.leaveBulk pa else s.touchBulk pa (some a.p.fid)).touchShared pa write).correct pa l.2

/-! Touches (R190, R191, R254). -/

/-- The bytes of an access, as keys. -/
def State.accKeys (s : State) (a : Agent) (x : Acc) : List (Nat × Nat) :=
  x.parts.map fun p => match p with
    | .frame pa n => (memKey (s.moved pa), 2 * n)
    | .spad o n => (spadKey a.p.fid o, 2 * n)
    | .va v n => match s.translate a.l.space v .none with
      | .hit pa => (memKey pa, 2 * n)
      | _ => (2 ^ 70 + 2 * v, 2 * n)

/-- Whether a key lies in some runs of keys. -/
def keyIn (l : List (Nat × Nat)) (k : Nat) : Bool := l.any fun r => decide (r.1 ≤ k ∧ k < r.1 + r.2) && r.1 % 2 = k % 2

/-- The bytes that unfinished operations of the forme write, and those that they read. -/
def State.opPlaces (s : State) (fid : Nat) (writes : Bool) (keep : Op → Bool) : List (Nat × Nat) :=
  match s.sceneOf fid with
  | none => []
  | some sc => (s.openOps.filter fun o => o.fid = fid && keep o).flatMap fun o => s.touchKeys sc o writes

/-- The first touched byte of some accesses, by its address (R191). -/
def State.touchedBy (s : State) (a : Agent) (store : Bool) (l : List Acc) : Option Nat :=
  if s.openOps.isEmpty then none else
  let watched := s.opPlaces a.p.fid true (fun _ => true)
    ++ (if store then s.opPlaces a.p.fid false (fun o => !(o.after && ownAct (a.p.ancestry s.freeCtr) o.pid o.issued)) else [])
  l.findSome? fun x =>
    let from_ := x.parts.map fun p => match p with | .va v _ => v | _ => x.addr
    let keys := ((s.accKeys a x).zip from_).flatMap fun r => (upFrom 0 (r.1.2 / 2)).map fun j => (r.1.1 + 2 * j, r.2 + j)
    (keys.find? fun k => keyIn watched k.1).map (·.2)

/-- The bytes that a read finds: where an operation in flight writes them, per byte the old value or one that it writes (R190, R254); the old one
where a task writes, whose result arrives when its command ends. DEDUCED: log entry 125. -/
def State.touchRead (s : State) (pick : Nat) (l : Loc) (n : Nat) : List Byte :=
  let view := s.foldView pick l n
  let now := ((s.locRead l n).zip (upFrom 0 n)).map fun b => ((view.find? fun v => v.1 = l.key + 2 * b.2).map (·.2)).getD b.1
  if s.openOps.isEmpty then now
  else
    let later := (s.traceAll s.openOps).map fun t => t.locRead l n
    (now.zip (upFrom 0 n)).map fun b =>
      let vs := b.1 :: (later.map fun r => r.getD b.2 0).filter fun x => x ≠ b.1
      s.oneOf (1200000 + pick * 16 + b.2) b.1 vs

/-! Performing. -/

/-- The failure of one access at memory, as an item of the party; tinfo holds the access's address (R228, R265, R408). DEDUCED: log entry 108. -/
def State.failAccess (s : State) (a : Agent) (i : Instr) (x : Acc) (c : TrapCode) : State :=
  s.due a.p.pid { code := c, tinfo := some x.addr, items := [{ ikind := 1, code := c, lane := x.lane, comp := x.comp, loc := a.addr i, addr := x.addr }] }

def State.accFail (s : State) (a : Agent) (read : Bool) (ls : List (Loc × Nat)) : Option TrapCode :=
  ls.findSome? fun l => s.locFail (s.ctx a.l.ctx).tenant read l.1 l.2

/-- A byte of lane-private memory that something else has written since the lane's latest store: that write, or the lane's own value (R239). -/
def State.privateByte (s : State) (a : Agent) (k : Nat) (cur : Byte) : Byte :=
  let own := fun (x : Past) => match x.writer with | .lane _ f h => f = a.p.fid && h = a.p.hp | _ => false
  let mine := s.past.filter fun x => x.key = k && decide (a.l.since ≤ x.at_)
  match (mine.reverse.takeWhile fun x => !own x).reverse with
  | x :: _ => s.oneOf (40000000 + k) cur [cur, x.old]
  | [] => cur

/-- The bytes of an access, in order. -/
def State.accRead (s : State) (a : Agent) (x : Acc) (ls : List (Loc × Nat)) : List Byte :=
  (ls.foldl (fun (acc : List Byte × Nat) l =>
    let bs := s.touchRead (x.lane * 40 + x.comp * 8 + acc.2) l.1 l.2
    (acc.1 ++ (if x.own then (bs.zip (upFrom 0 bs.length)).map fun b => s.privateByte a (l.1.key + 2 * b.2) b.1 else bs), acc.2 + 1)) ([], 0)).1

/-- Remember what the home of a line holds while its newer bytes stand in an RDC (R241, R277). -/
def State.leaveHome (s : State) (a : Agent) (l : Loc) (n : Nat) : State :=
  match l with
  | .spad _ _ => s
  | .pa pa =>
    if s.isBulk pa then s
    else if s.ownMem pa && s.homeDie pa = dieOf a.f.core then { s with unhomed := s.unhomed.filter fun x => lineOf x.1 ≠ lineOf pa }
    else { s with unhomed := ((upFrom pa n).filter fun b => !s.unhomed.any fun x => x.1 = b).map (fun b => (b, memGet s.mem b)) ++ s.unhomed }

/-- A store's bytes written at its line's point of coherence; the copies of the line go (R241), and proofing captures the store (R416). -/
def State.accWrite (s : State) (a : Agent) (x : Acc) (ls : List (Loc × Nat)) (bs : List Byte) : State :=
  let w : Writer := if x.own then .lane a.p.pid a.p.fid a.p.hp else .party a.p.pid
  (ls.foldl (fun (acc : State × Nat) l =>
    let s := acc.1.leaveHome a l.1 l.2
    let s := match l.1 with | .pa p => s.dropCopies (dieOf a.f.core) p | .spad .. => s
    (s.locWrite l.1 ((bs.drop acc.2).take l.2) w, acc.2 + l.2))
    (s.emit a.p.pid (BitVec.ofNat 64 x.addr :: bs.map (·.setWidth 64)), 0)).1

/-- An atomic at .SYS on a SHARED line of an M1 is performed there, so that this device is left with no copy of the line (R302). DEDUCED:
log entry 21. -/
def State.atHome (s : State) (l : Loc) : State :=
  match l with
  | .spad .. => s
  | .pa pa =>
    if !(s.extentOf pa).any fun e => !e.own && !e.bulk && !e.pids.isEmpty then s
    else { s with shared := s.shared.filter (· ≠ lineOf pa), unhomed := s.unhomed.filter fun x => lineOf x.1 ≠ lineOf pa
                  lines := s.lines.filter fun l => l.addr ≠ lineOf pa }

/-! Accesses in the order of memory (R247 to R252). -/

/-- Whether an access is not plain, the scopes at which it is an acquire and a release, and an atomic's (R248, R251, R252, R253). -/
def ordering : Instr → Bool × Option Nat × Option Nat × Option Nat
  | .ld o | .ldsc o | .ldpv o | .ldk o => (o.ord ≠ .plain, (if o.ord = .acqRel then some (scopeRank o.scope) else none), none, none)
  | .st o | .stsc o | .stpv o => (o.ord ≠ .plain, none, (if o.ord = .acqRel then some (scopeRank o.scope) else none), none)
  | .atom o | .atomsc o | .red o =>
    let k := if o.ord = .ar then some (scopeRank o.scope) else none
    (true, k, k, some (scopeRank o.scope))
  | .signal o => (true, none, some (scopeRank (imScope o.imm)), some (scopeRank (imScope o.imm)))
  | .waitc o => (true, some (scopeRank (imScope o.imm)), none, none)
  | _ => (false, none, none, none)

/-- The rank of a word's scope. -/
def storeScope : Instr → Nat
  | .st o | .stsc o | .stpv o => scopeRank o.scope
  | .atom o | .atomsc o | .red o => scopeRank o.scope
  | .signal o => scopeRank (imScope o.imm)
  | _ => 4

/-- An access that is about to be made: what it depends on is what its word's registers depend on, and for a store what the branches before it
depended on (R248, R249). -/
def State.actOf (s : State) (a : Agent) (i : Instr) (x : Acc) : Act :=
  let (strong, acq, rel, atomic) := ordering i
  let line := a.p.ancestry s.freeCtr
  { id := s.actId, at_ := s.freeCtr, pid := a.p.pid, line := line, fid := a.p.fid, hp := a.p.hp, die := dieOf a.f.core
    lane := x.lane, comp := x.comp, strong := strong, scope := storeScope i, acq := acq, rel := rel, atomic := atomic
    deps := s.ownIds line (s.taintOf a.p (usesOf a.l.record i).reads ++ (if x.need = .r then [] else s.control a.p)) }

def locRuns (ls : List (Loc × Nat)) : List (Nat × Nat) := ls.map fun l => (l.1.key, 2 * l.2)

/-- A load or an atomic reads: what its agent's program order and the order of memory let it find (R250, R251). -/
def State.fetchAcc (s : State) (a : Agent) (i : Instr) (x : Acc) (ls : List (Loc × Nat)) : State × List Byte :=
  let bs := s.accRead a x ls
  if x.own || s.alone then (s, bs) else
  let y := { s.actOf a i x with reads := locRuns ls }
  match s.merges y with
  | some z => (s, s.without (s.acts.filter fun w => w.after.contains z.id && overlap w.writes y.reads) (runKeys y.reads) bs)
  | none =>
    let l := s.missed y
    (s.joinRead y l, s.without l (runKeys y.reads) bs)

/-- A store or an atomic writes; a store may take an earlier place in coherence order than the moment at which it is made (R250). -/
def State.putAcc (s : State) (a : Agent) (i : Instr) (x : Acc) (ls : List (Loc × Nat)) (bs : List Byte) : State :=
  if x.own || s.alone then s.accWrite a x ls bs else
  let y := { s.actOf a i x with writes := locRuns ls }
  let y := if y.atomic.isSome then { y with deps := (s.acts.filter fun z => z.sameWord y && z.lane = y.lane && z.comp = y.comp).map (·.id) ++ y.deps } else y
  let s := (if y.rel.isSome then s.publish y.line else s).absorb y
  let cur := ls.flatMap fun l => s.locRead l.1 l.2
  match s.burial y with
  | [] => (s.accWrite a x ls bs).joinWrite y
  | l => (s.accWrite a x ls (y.showing l cur bs)).bury y l cur bs (.party a.p.pid)

def locLine : Loc → Option Nat
  | .pa a => some (lineOf a)
  | .spad _ _ => none

/-- The declarations of the lines that some accesses reach, once for each (R266). -/
def State.declareLines (s : State) (a : Agent) (nu : Nat) (win : Option Nat) (l1 : Bool) (ls : List (Loc × Nat)) (own : Bool := false) : State :=
  let d : Decl := { s.declOf a.f nu (win.map fun w => (a.p.pid, w)) with
    rc := a.c.rcAt.getD a.f.rc, priv := if own then some (a.p.fid, a.p.hp) else none }
  (linesOf (ls.filterMap fun l => locLine l.1)).foldl (fun s x => s.coreAccess a.f.core d x l1) s

/-- Accesses whose order among lanes is free, because two of them reach one byte (R246). DEDUCED: log entry 14. -/
def State.mixLanes (s : State) (a : Agent) (l : List Acc) : List Acc :=
  let ks := l.map fun x => s.accKeys a x
  if (l.zip ks).all fun x => (l.zip ks).all fun y => (x.1.lane = y.1.lane && x.1.comp = y.1.comp) || !overlap x.2 y.2 then l
  else (l.zip (upFrom 0 l.length)).foldl (fun acc x =>
    let k := Config.freeNat s.freeCtr (1300000 + x.2) % (acc.length + 1)
    acc.take k ++ [x.1] ++ acc.drop k) []

/-- What is done with one access that has reached memory: the new state, and the bytes read. -/
abbrev Doing := State → Acc → List (Loc × Nat) → State × Option (List Byte)

/-- One round of a memory instruction: the state, the accesses done with what they read and where, those that still miss with the
translations to ask for, and those that were refused. -/
structure Round where
  s : State
  done : List (Acc × Option (List Byte)) := []
  locs : List (Loc × Nat) := []
  miss : List Acc := []
  asks : List (Nat × Need) := []
  refused : List Acc := []

/-- The order among the components of one lane's access (R226). -/
inductive Direction where
  | free | shadowsFirst | primaryFirst
deriving DecidableEq, Repr

/-- Whether an access comes before the others of its lane. -/
def Direction.leads (d : Direction) (x : Acc) : Bool :=
  match d with | .free => false | .shadowsFirst => x.comp ≠ 0 | .primaryFirst => x.comp = 0

/-- Perform what translates; what must come after an access of its lane that still misses waits for it (R226, R264). -/
def Round.run (a : Agent) (dir : Direction) (act : Doing) (s : State) (l : List Acc) : Round :=
  l.foldl (fun (r : Round) x =>
    let held := dir ≠ .free && !dir.leads x && r.miss.any fun y => y.lane = x.lane && dir.leads y
    match r.s.resolve a x with
    | .at_ ls =>
      if held then { r with miss := r.miss ++ [x] }
      else let (s, v) := act r.s x ls; { r with s := s, done := r.done ++ [(x, v)], locs := r.locs ++ ls }
    | .miss as => { r with miss := r.miss ++ [x], asks := r.asks ++ as }
    | .refused => { r with refused := r.refused ++ [x] }) { s := s }

def accMask (l : List Acc) : Mask := l.foldl (fun m x => if x.lane < 64 then m ||| laneBit x.lane else m) 0

/-- The refused access of the lowest lane, its primary first. -/
def lowestAcc : List Acc → Option Acc
  | [] => none
  | x :: xs => match lowestAcc xs with
    | none => some x
    | some y => if y.lane < x.lane ∨ (y.lane = x.lane ∧ y.comp < x.comp) then some y else some x

/-- A memory instruction as its family describes it: whether it stores, the lanes that tmask reports where an address fails, its accesses, the rows
that it allocates, the order of its components, how one access is performed, and where the values go. CWB, CINV and IINV are no accesses: they are
neither counted nor touches (R32, R191, R252). -/
structure Plan where
  store : Bool
  lanes : Mask
  formed : Except (TrapCode × Nat) (List Acc)
  alloc : State → List Write := fun _ => []
  /-- the shadows that the allocation unmaps (R234) -/
  gone : State → List Dest := fun _ => []
  dir : Direction := .free
  access : Bool := true
  act : Doing
  land : State → Round → List Dest → State := fun s _ _ => s

/-- The commands of the party under ORD 3 have done their reads before an access of it (R281). -/
def State.sealReads (s : State) (p : Party) : State :=
  { s with ops := s.ops.map fun o =>
      if o.after && o.sealed.isNone && o.unfinished && ownAct (p.ancestry s.freeCtr) o.pid o.issued then { o with sealed := some s.freeCtr } else o }

/-- The rows of a memory instruction's destination. -/
def Plan.allocate (a : Agent) (i : Instr) (pl : Plan) (s : State) : State := (pl.alloc s).foldl (fun s w => s.write a.p.pid 1 (a.word i) w) s

/-- Whether a shadow that a result unmaps belongs to one of some registers. -/
def Dest.within (l : List (BitVec 8)) : Dest → Bool
  | .gone r _ _ _ => l.contains r
  | _ => false

/-- What a round does to the registers before its values are placed, with the shadows that its result leaves outstanding: the word's last reads take
effect with the first access that is performed, before the destination is allocated; an instruction that parks before has its destination allocated
then, and a register that it reads for the last time and also allocates loses later what the new row had from the old one (R66, R234, R264). -/
def Plan.prepare (a : Agent) (i : Instr) (pl : Plan) (r : Round) : State × List Dest :=
  let u := usesOf a.l.record i
  let own := (lastNames u).filter fun n => u.dsts.contains (.v n)
  match a.c.left.isNone, r.done.isEmpty with
  | true, false => let s := r.s.lastReads a.p u; (pl.allocate a i s, pl.gone s)
  | true, true =>
    if r.miss.isEmpty then (r.s, [])
    else
      let solo := own.filter fun n => a.h.readersOf n = [a.p.pid]
      ((pl.allocate a i r.s).onPitch a.p.pid fun c => { c with lost := (pl.gone r.s).filter (fun d => !d.within solo), solo := solo }, [])
  | false, false =>
    if a.c.some_ then (r.s, [])
    else (a.c.solo.foldl (fun s n => s.mapAnew a.p n) (r.s.freeReads a.p ((lastNames u).filter fun n => !own.contains n)), a.c.lost)
  | false, true => (r.s, [])

/-- The end of a round: the word completes, the party parks for what misses, with its unfinished lanes in tmask, or what was refused traps
(R228, R264, R404). -/
def Plan.finish (a : Agent) (i : Instr) (pl : Plan) (r : Round) : State :=
  let refused := a.c.refused ++ r.refused
  let some_ := a.c.some_ || !r.done.isEmpty
  let (s, gone) := pl.prepare a i r
  let s := if r.done.isEmpty then s else s.sealReads a.p
  let s := pl.land s r gone
  if !r.miss.isEmpty then
    let s := s.onPitch a.p.pid fun c => { c with left := some r.miss, refused := refused, some_ := some_, rcAt := some (a.c.rcAt.getD a.f.rc) }
    (a.onParty s fun p => { p with tmask := accMask r.miss }).parkOn a.p.pid a.l.space a.l.ctx (s.granulesOf [] r.asks)
  else match lowestAcc refused with
    | none => s.advance a i
    | some x =>
      if some_ then s.trapAfter a i .accessViolation (some x.addr) (accMask refused)
      else s.trapHere a i .accessViolation (some x.addr) (accMask refused)

/-- A touch that the checking scoreboard finds among some accesses (R191). -/
def State.planTouch (s : State) (a : Agent) (pl : Plan) (l : List Acc) : Option Nat :=
  if a.l.record.chk && pl.access then s.touchedBy a pl.store l else none

/-- The accesses in the order in which they are tried: the lanes' order is free, and so is that of the components where nothing orders them. -/
def State.tried (s : State) (a : Agent) (dir : Direction) (l : List Acc) : List Acc :=
  match dir with
  | .free => s.mixLanes a l
  | d => s.mixLanes a (l.filter d.leads) ++ s.mixLanes a (l.filter fun x => !d.leads x)

/-- A memory instruction: the checks of its first issue, the allocation of its destination and its first round, or the replay of what was left
(R228, R263, R264). DEDUCED: log entry 13. DEDUCED: log entry 17. DEDUCED: log entry 18. -/
def State.perform (s : State) (a : Agent) (i : Instr) (pl : Plan) : Eff :=
  match a.c.left with
  | some l =>
    match s.planTouch a pl l with
    | some t => .other (if a.c.some_ then s.trapAfter a i .pressTouch (some t) (accMask l) else s.trapHere a i .pressTouch (some t) pl.lanes)
    | none => .other (pl.finish a i (Round.run a pl.dir pl.act s l))
  | none =>
    match pl.formed with
    | .error (c, t) => .other (s.trapHere a i c (some t) pl.lanes)
    | .ok l =>
      match s.planTouch a pl l with
      | some t => .other (s.trapHere a i .pressTouch (some t) pl.lanes)
      | none =>
        if a.overcommits (usesOf a.l.record i) (pl.alloc s) then .other (s.trapHere a i .badCairn none pl.lanes)
        else
          let s := if pl.access then s.countMem a.p.fid else s
          .other (pl.finish a i (Round.run a pl.dir pl.act s (s.tried a pl.dir l)))

/-! Accesses that a word makes once, at a virtual address (R268, R283, R366). -/

/-- Where a uniform access leads, or the state in which the word waits or traps. -/
def State.once (s : State) (a : Agent) (i : Instr) (va : Nat) (n : Need) : Except State Loc :=
  match (s.sceneOf a.p.fid).map fun sc => s.findVa sc a.p.park va n with
  | some (.at_ l) => .ok l
  | some .miss => .error (s.parkOn a.p.pid a.l.space a.l.ctx (s.granulesOf [] [(va, n)]))
  | _ => .error (s.trapHere a i .accessViolation (some va) 0)

/-- A record of `n` bytes within a 64 KiB granule read at issue, or its failure at memory. Stores of the party since `stores` come in no order before
the read, and neither do the writes of its home party's operations issued since `engines`: each byte is as before or after any of them, while what
they wrote before that is seen whole (R181, R186, R187, R283). -/
def State.readOnce (s : State) (a : Agent) (i : Instr) (va n stores engines : Nat) : Except State (Except TrapCode (List Byte)) :=
  match s.once a i va .r with
  | .error t => .error t
  | .ok l =>
    match s.locFail (s.ctx a.l.ctx).tenant true l n with
    | some c => .ok (.error c)
    | none =>
      let mine := fun (o : Op) => o.fid = a.p.fid && o.hp = a.p.hp
      let (ready, open_) := s.openOps.partition fun o => mine o && decide (o.issued < engines)
      let t := (s.traceAll ready).getLastD s
      let later := (t.traceAll (open_.filter mine)).map fun u => u.locRead l n
      let loose := (s.ops.filter fun o => mine o && !o.unfinished && decide (engines ≤ o.issued)).map (·.id)
      .ok <| .ok (((if ready.isEmpty then s.recordRead l n else t.locRead l n).zip (upFrom 0 n)).map fun b =>
        let olds := (s.past.filter fun x => x.key = l.key + 2 * b.2 && ((x.own (a.p.ancestry s.freeCtr) && decide (stores ≤ x.at_))
          || (match x.writer with | .op f h id => f = a.p.fid && h = a.p.hp && loose.contains id | _ => false))).map (·.old)
        let news := (later.map fun r => r.getD b.2 0).filter (· ≠ b.1)
        s.oneOf (1400000 + b.2) b.1 (b.1 :: olds ++ news))

end Sys2Proof.Machine
end

