-- ==== Sys2Proof/Machine/Memory.lean ====
section
/-! DEFINITION. Loads, stores, atomics and reductions (R262 to R273), fences (R187, R274), cache instructions (R275 to R280), windows (R258,
R259), and the arrival or failure of what a memory instruction left outstanding (R57, R60, R265). -/
namespace Sys2Proof.Machine

/-! Loads (R267 to R270). -/

/-- One access that only reads: the bytes, or an item where it fails (R265). -/
def readAct (a : Agent) (i : Instr) : Doing := fun s x ls =>
  let s := ls.foldl (fun s l => s.approach a false false l) s
  match s.accFail a true ls with
  | some c => (s.failAccess a i x c, none)
  | none => let (s, bs) := s.fetchAcc a i x ls; (s, some bs)

/-- The rows that a word's long-latency result is to be written into, as its first issue allocates them (R60, R264). -/
def State.allocRows (s : State) (a : Agent) (d : Reg) (n nt : Nat) : List Write :=
  let old := fun (r : Reg) (c : Nat) => match r with
    | .v k => (match (s.home? a.p.fid a.p.hp).bind fun h => h.row? k c with | some x => x.data | none => rowZero)
    | _ => rowZero
  (upFrom 0 n).map fun j => .row (regPlus j d) ((upFrom 0 (nt + 1)).map fun c => (c, old (regPlus j d) c)) a.p.active false

/-- The shadows that a result's destination rows lose: until it arrives a read may still find what they held (R234). -/
def State.lostShadows (s : State) (a : Agent) (d : Reg) (n nt : Nat) : List Dest :=
  match s.home? a.p.fid a.p.hp with
  | none => []
  | some h => (upFrom 0 n).flatMap fun j => (upFrom (nt + 1) (4 - nt)).filterMap fun c => match regPlus j d with
    | .v k => (h.row? k c).map fun x => .gone k c (BitVec.allOnes 64) x.data
    | _ => none

/-- The reads of the party's word that have just been made. -/
def State.readsOf (s : State) (a : Agent) : List Nat := (s.acts.filter fun y => y.pid = a.p.pid && y.at_ = s.freeCtr && !y.reads.isEmpty).map (·.id)

/-- The registers that the values of a round go to, as one outstanding result (R57, R60); an access that only reads may still fail (R265). -/
def State.landLanes (a : Agent) (i : Instr) (late : Option Sz) (d : Reg) (n nt : Nat) (words : List Byte → List W32) (s : State) (r : Round) (gone : List Dest) : State :=
  let got := r.done.filterMap fun x => x.2.map fun b => (x.1, words b)
  if got.isEmpty then s
  else
    let reg := fun (j : Nat) => match regPlus j d with | .v k => k | _ => 0
    let dest := fun (j c : Nat) =>
      let mine := got.filter fun x => x.1.comp = c
      Dest.lanes (reg j) c (accMask (mine.map (·.1))) (rowOf fun l => match mine.find? fun x => x.1.lane = l with | some x => x.2.getD j 0 | none => 0)
    let memory := got.filterMap fun x => match s.resolve a x.1 with | .at_ ((.pa p, _) :: _) => some (x.1.lane, x.1.comp, x.1.addr, p) | _ => none
    s.addLong a i ((upFrom 0 n).flatMap fun j => (upFrom 0 (nt + 1)).map (fun c => dest j c) ++ (if j = 0 then gone else [])) (if late.isSome then memory else [])
      (requestsOf (memory.map (·.2.2.1))) (s.readsOf a) late

/-- The tangent components of a memory instruction's accesses (R225). DEDUCED: log entry 47. -/
def Agent.memTans (a : Agent) (i : Instr) (ok : Bool) (way : Way) : Nat := if ok && way.toff ≠ 0 then a.tans i else 0

def State.loadLanes (s : State) (a : Agent) (i : Instr) (o : MF) (n : Need) (way : Way) (nu : Option Nat) : Eff :=
  let nt := a.memTans i o.sz.tangent way
  let act := a.p.active
  let win := match way with | .window _ k => some k.toNat | _ => none
  s.perform a i {
    store := false
    dir := if o.ord = .acqRel then .primaryFirst else .free
    lanes := act
    formed := a.formAll way n (s.offsets a o.so act (mfOff o)) nt o.sz.bytes
    alloc := fun s => s.allocRows a o.dat o.sz.regs nt
    gone := fun s => s.lostShadows a o.dat o.sz.regs nt
    act := readAct a i
    land := fun s r gone =>
      let s := State.landLanes a i (some o.sz) o.dat o.sz.regs nt (loadWords o.sz) s r gone
      match nu with | some d => s.declareLines a d win true r.locs (n = .rw) | none => s }

def Agent.winWay (a : Agent) (k : BitVec 4) : Way := .window (a.p.win k) k
/-- The tangent offset of a window that only places components: 0 when it is closed (R262). -/
def Agent.toffOf (a : Agent) (k : BitVec 4) : Nat := if (a.p.win k).isOpen then (a.p.win k).toff else 0

def execLd (o : MF) (s : State) : Host.Outcome State Fault Refusal :=
  s.word (.ld o) true fun a => s.loadLanes a (.ld o) o .r (a.winWay o.win) (some o.nu.toNat)

def execLdsc (o : MF) (s : State) : Host.Outcome State Fault Refusal :=
  s.word (.ldsc o) true fun a => s.loadLanes a (.ldsc o) o .r (.scratch (a.toffOf o.win)) none

def execLdpv (o : MF) (s : State) : Host.Outcome State Fault Refusal :=
  s.word (.ldpv o) true fun a => s.loadLanes a (.ldpv o) o .rw (.lane (a.toffOf o.win)) (some o.nu.toNat)

/-- LDK is uniform and executes whatever em holds, so the reuse clock counts it with em all zero too (R26, R32). DEDUCED: log entry 132. -/
def execLdk (o : MF) (s : State) : Host.Outcome State Fault Refusal :=
  s.word (.ldk o) false fun a =>
    let off := (s.srcUniform a o.so (if o.so.reg.isS then 2 else 1) 0 + mfOff o).toNat
    s.perform a (.ldk o) {
      store := false
      lanes := 0
      formed := a.formAll (a.winWay o.win) .r [(255, off)] 0 o.sz.bytes
      act := readAct a (.ldk o)
      land := fun s r _ =>
        let s := match o.dat, r.done with
          | .s d, (x, some b) :: _ => s.addLong a (.ldk o) [.sreg d (ldkValue o.sz b)]
              (match s.resolve a x with | .at_ ((.pa p, _) :: _) => [(255, 0, x.addr, p)] | _ => []) 1 (s.readsOf a) (some o.sz)
          | _, _ => s
        s.declareLines a o.nu.toNat (some o.win.toNat) true r.locs }

/-! IINV's completion (R279, R280, R362). -/

/-- The cores in an IINV's scope instance (R279). -/
def State.iinvCores (s : State) (x : Iinv) : List Nat :=
  match x.scope with
  | .pty | .frm => [x.core]
  | .die => upFrom (16 * dieOf x.core) 16
  | _ => upFrom 0 s.cores

/-- The virtual addresses by which a context's TLB entries reach a physical one. -/
def State.vasOf (s : State) (sp : Space) (pa : Nat) : List Nat :=
  match sp with
  | .ctx c => (s.tlb.filter fun e => e.ctx = c && decide (e.pa ≤ pa ∧ pa < e.pa + e.size)).map fun e => e.page + (pa - e.pa)
  | .task lid => match (s.launch? lid).bind (·.task) with
    | none => []
    | some t => (t.maps.filter fun m => decide (m.pa ≤ pa ∧ pa < m.pa + m.len)).map fun m => m.va + (pa - m.pa)

/-- An IINV ends: the instruction caches drop its lines; a party may have fetched their old words already (R279). -/
def State.finishIinv (s : State) (id : Nat) : State :=
  match s.iinvs.find? fun x => x.id = id with
  | none => s
  | some x =>
    let cores := s.iinvCores x
    let hit := fun (l : ILine) => cores.contains l.core && x.lines.contains l.addr
    let old := s.icache.filter hit
    let keep := fun (p : Party) => match (s.forme? p.fid).bind fun f => (s.launch? f.lid).map fun l => (f.core, l.space) with
      | none => p
      | some (core, sp) =>
        let ws := (old.filter fun l => l.core = core).flatMap fun l => (l.words.zip (upFrom 0 16)).flatMap fun w =>
          (s.vasOf sp (l.addr + 8 * w.2)).map fun va => (va, w.1)
        { p with fetched := (ws.filter fun w => !p.fetched.any fun f => f.1 = w.1) ++ p.fetched }
    { s with icache := s.icache.filter fun l => !hit l, iinvs := s.iinvs.filter fun y => y.id ≠ id, parties := s.parties.map keep }

/-- Whether a party waits in ISYNC for an IINV. -/
def State.isyncCheck (s : State) (pid : Nat) : State :=
  s.onParty pid fun p => if p.wait = .isync && !(s.iinvs.any fun x => x.pids.contains pid) then { p with wait := .none, fetched := [], freshAt := s.freeCtr + 1 } else p

def execIinvComplete (id : Nat) (s : State) : Host.Outcome State Fault Refusal :=
  match s.iinvs.find? fun x => x.id = id with
  | none => .next s
  | some x => .next (x.pids.foldl (fun s p => s.isyncCheck p) (s.finishIinv id))

/-- A party's IINVs within a scope complete before a fence or release there (R274, R280). -/
def State.finishIinvs (s : State) (pid : Nat) (sc : Scope) : State :=
  (s.iinvs.filter fun x => x.pids.contains pid && decide (scopeRank x.scope ≤ scopeRank sc)).foldl (fun s x => s.finishIinv x.id) s

/-! Stores (R271). -/

/-- The low bytes of a data register in a lane, component `comp` (R225, R271). -/
def State.dataRow (s : State) (a : Agent) (x : Src) (n comp : Nat) : List (List W32) :=
  let rows := (upFrom 0 n).map fun j => s.srcT a x 1 j comp
  lanes64.map fun i => rows.map fun r => rowGet r i

def bytesOfWords (z : Nat) (ws : List W32) : List Byte := (ws.flatMap fun w => bytesOfNat 4 w.toNat).take z

/-- The data of s, c and constant registers of more than one word extends with zeros (R262, R271). -/
def State.storeData (s : State) (a : Agent) (x : Src) (regs z nt : Nat) : Nat → Nat → List Byte :=
  let rows := (upFrom 0 (nt + 1)).map fun c => s.dataRow a x regs c
  fun lane comp => bytesOfWords z ((rows.getD comp []).getD lane [])

/-- Every access with the bytes that it stores. -/
def withData (f : Nat → Nat → List Byte) (l : Except (TrapCode × Nat) (List Acc)) : Except (TrapCode × Nat) (List Acc) :=
  match l with
  | .ok l => .ok (l.map fun x => { x with data := f x.lane x.comp })
  | .error e => .error e

/-- One store: its bytes written, or an item where it fails (R265). -/
def storeAct (a : Agent) (i : Instr) : Doing := fun s x ls =>
  let s := ls.foldl (fun s l => s.approach a false true l) s
  match s.accFail a false ls with
  | some c => (s.failAccess a i x c, none)
  | none => (s.putAcc a i x ls x.data, none)

def State.storeLanes (s : State) (a : Agent) (i : Instr) (o : MF) (n : Need) (way : Way) (nu : Option Nat) : Eff :=
  let nt := a.memTans i o.sz.tangent way
  let act := a.p.active
  let win := match way with | .window _ k => some k.toNat | _ => none
  let s := if o.ord = .acqRel then s.finishIinvs a.p.pid o.scope else s
  s.perform a i {
    store := true
    dir := if o.ord = .acqRel then .shadowsFirst else .free
    lanes := act
    formed := withData (s.storeData a (mfData o) o.sz.regs o.sz.bytes nt) (a.formAll way n (s.offsets a o.so act (mfOff o)) nt o.sz.bytes)
    act := storeAct a i
    land := fun s r _ => match nu with | some d => s.declareLines a d win false r.locs (n = .rw) | none => s }

def execSt (o : MF) (s : State) : Host.Outcome State Fault Refusal :=
  s.word (.st o) true fun a => s.storeLanes a (.st o) o .w (a.winWay o.win) (some o.nu.toNat)

def execStsc (o : MF) (s : State) : Host.Outcome State Fault Refusal :=
  s.word (.stsc o) true fun a => s.storeLanes a (.stsc o) o .w (.scratch (a.toffOf o.win)) none

def execStpv (o : MF) (s : State) : Host.Outcome State Fault Refusal :=
  s.word (.stpv o) true fun a => s.storeLanes a (.stpv o) o .rw (.lane (a.toffOf o.win)) (some o.nu.toNat)

/-! Atomics (R272, R273). -/

/-- The value that an atomic leaves, of `z` bytes, and its flags (R272). `op2` is CAS's value and INC's limit. -/
def atomicNew (aop : Aop) (sgn : Bool) (z old op op2 : Nat) : Nat × BitVec 9 :=
  let m := 2 ^ (8 * z)
  let less := fun (x y : Nat) => if sgn then decide (intOf true (8 * z) x < intOf true (8 * z) y) else decide (x < y)
  match aop with
  | .add => ((old + op) % m, 0)
  | .min => (if less op old then op else old, 0)
  | .max => (if less old op then op else old, 0)
  | .and => (Nat.land old op, 0)
  | .or => (Nat.lor old op, 0)
  | .xor => (Nat.xor old op, 0)
  | .xchg => (op, 0)
  | .cas => (if old = op then op2 else old, 0)
  | .fadd => let x := valOf .fp32 old; let y := valOf .fp32 op; floatResult .fp32 .rne [x, y] (x.add false y)
  | .fmin => (minMaxOp .fp32 false).val [old, op]
  | .fmax => (minMaxOp .fp32 true).val [old, op]
  | .inc => (if op2 ≤ old then 0 else (old + 1) % m, 0)

/-- An atomic's operands in a lane: DAT, and what follows it for CAS and INC (R272). -/
def State.atomData (s : State) (a : Agent) (o : MA) (nt : Nat) : Nat → Nat → List Byte :=
  let z := o.sz.bytes
  let n := o.sz.regs
  match o.dat with
  | .s k =>
    let lo := s.storeData a (maData o) n z nt
    let hi := s.storeData a ⟨.s (k + BitVec.ofNat 6 n), 0, false⟩ n z nt
    fun l c => lo l c ++ (if o.aop.two then hi l c else [])
  | .c k =>
    let lo := s.storeData a (maData o) n z nt
    let hi := s.storeData a ⟨.c (k + BitVec.ofNat 3 n), 0, false⟩ n z nt
    fun l c => lo l c ++ (if o.aop.two then hi l c else [])
  | _ => s.storeData a (maData o) (n * (if o.aop.two then 2 else 1)) (z * (if o.aop.two then 2 else 1)) nt

/-- One atomic access: the old bytes, with the new ones written (R273); poison and lost memory fail it (R265). A tangent component sets no flag (R223). -/
def atomAct (a : Agent) (i : Instr) (o : MA) : Doing := fun s x ls =>
  let s := ls.foldl (fun s l => s.approach a (o.scope = .sys) true l) s
  match s.accFail a true ls with
  | some c => (s.failAccess a i x c, none)
  | none =>
    let z := o.sz.bytes
    let (s, old) := s.fetchAcc a i x ls
    let (new, f) := atomicNew o.aop o.sgn z (natOfBytes old) (natOfBytes (x.data.take z)) (natOfBytes (x.data.drop z))
    let s := s.putAcc a i x ls (bytesOfNat z new)
    ((if o.scope = .sys then ls.foldl (fun s l => s.atHome l.1) s else s).setFlagsBy a.p.pid a.p.fid (if x.comp = 0 then f else 0), some old)

def State.atomLanes (s : State) (a : Agent) (i : Instr) (o : MA) (n : Need) (way : Way) (nu : Option Nat) (ret : Bool) : Eff :=
  let nt := a.memTans i (o.aop = .xchg || o.aop = .fadd) way
  let act := a.p.active
  let win := match way with | .window _ k => some k.toNat | _ => none
  let s := if o.ord = .ar then s.finishIinvs a.p.pid o.scope else s
  s.perform a i {
    store := true
    dir := if o.ord = .ar then .shadowsFirst else .free
    lanes := act
    formed := withData (s.atomData a o nt) (a.formAll way n (s.offsets a o.so act 0) nt o.sz.bytes)
    alloc := fun s => if ret then s.allocRows a o.dat o.sz.regs nt else []
    gone := fun s => if ret then s.lostShadows a o.dat o.sz.regs nt else []
    act := atomAct a i o
    land := fun s r gone =>
      let s := if ret then State.landLanes a i none o.dat o.sz.regs nt (fun b => loadWords o.sz b) s r gone else s
      match nu with | some d => s.declareLines a d win false r.locs | none => s }

def execAtom (o : MA) (s : State) : Host.Outcome State Fault Refusal :=
  s.word (.atom o) true fun a => s.atomLanes a (.atom o) o .rw (a.winWay o.win) (some o.nu.toNat) true

def execAtomsc (o : MA) (s : State) : Host.Outcome State Fault Refusal :=
  s.word (.atomsc o) true fun a => s.atomLanes a (.atomsc o) o .rw (.scratch (a.toffOf o.win)) none true

def execRed (o : MA) (s : State) : Host.Outcome State Fault Refusal :=
  s.word (.red o) true fun a => s.atomLanes a (.red o) o .rw (a.winWay o.win) (some o.nu.toNat) false

/-! PREF and REUSE (R275, R276). -/

/-- The lines that a lane of PREF or REUSE reaches; a lane that fails anywhere is dropped. -/
def State.hintLines (s : State) (a : Agent) (o : MF) (n : Need) : List Nat :=
  linesOf ((s.offsets a o.so a.p.active (mfOff o)).flatMap fun x =>
    match a.form (a.winWay o.win) n x.1 0 x.2 o.sz.bytes with
    | .error _ => []
    | .ok y => match s.resolve a y with
      | .at_ ls => ls.flatMap fun l => match l.1 with | .pa p => [p, p + l.2 - 1] | .spad _ _ => []
      | _ => [])

/-- PREF and REUSE count towards the reuse clock where RCRATE says so (R32). -/
def State.countHint (s : State) (a : Agent) : State := if a.l.record.rcrate ≥ 1 then s.countMem a.p.fid else s

def execPref (o : MF) (s : State) : Host.Outcome State Fault Refusal :=
  s.word (.pref o) true fun a =>
    let d := s.declOf a.f o.nu.toNat (some (a.p.pid, o.win.toNat))
    .done ((s.hintLines a o .r).foldl (fun s x => s.coreAccess a.f.core d x (o.sz = .z8)) (s.countHint a))

/-- The line that a cache holds takes a new declaration (R242, R276). -/
def State.redeclare (s : State) (cache line : Nat) (d : Decl) : State :=
  { s.bump with lines := modifyWhere (fun l => l.cache = cache && l.addr = line) (s.declared d) s.lines }

def execReuse (o : MF) (s : State) : Host.Outcome State Fault Refusal :=
  s.word (.reuse o) true fun a =>
    let d := s.declOf a.f o.nu.toNat (some (a.p.pid, o.win.toNat))
    let here := fun (l : Line) => l.cache = a.f.core || 32 ≤ l.cache
    .done ((s.hintLines a o .none).foldl (fun s x =>
      (s.lines.filter fun l => l.addr = x && here l).foldl (fun s y => s.redeclare y.cache x d) s) (s.countHint a))

/-! Fences (R187, R274). -/

/-- FENCE orders the party's accesses by its kinds; under SS it completes the party's IINVs, and later operations write after the party's earlier
stores; under SL they read after them, and under LS they write after its earlier loads (R254, R274). -/
def execFence (o : UF) (s : State) : Host.Outcome State Fault Refusal :=
  s.word (.fence o) false fun a =>
    let sc := imScope o.imm
    let s := s.joinMark a.p fun x => { x with fence := some (scopeRank sc, o.imm.extractLsb' 3 4) }
    let s := if o.imm.getLsbD 6 then s.finishIinvs a.p.pid sc else s
    .done (a.onParty s fun p => { p with
      cmdReady := if o.imm.getLsbD 5 then s.freeCtr else p.cmdReady
      cmdSettled := if o.imm.getLsbD 6 then s.freeCtr else p.cmdSettled
      cmdLoads := if o.imm.getLsbD 4 then s.freeCtr else p.cmdLoads })

/-- OREADY orders the party's earlier accesses before its later press operations (R187). -/
def execOready (o : UF) (s : State) : Host.Outcome State Fault Refusal :=
  s.word (.oready o) false fun a => .done (a.onParty s fun p => { p with opReady := s.freeCtr })

/-! CWB, CINV and IINV (R277 to R280). -/

/-- Write a BULK line's dirty bytes to its expander; the copy stays, clean (R277). -/
def State.cleanBulk (s : State) (line : Nat) : State :=
  match s.bulk.find? fun b => b.addr = line with
  | none => s
  | some b =>
    let s := (upFrom 0 128).foldl (fun s k => if b.mask.getLsbD k then { s with mem := memSet s.mem (line + k) (b.data.getD k 0) } else s) s
    { s with bulk := modifyWhere (fun x => x.addr = line) (fun x => { x with mask := 0 }) s.bulk }

/-- CWB of one line (R277): the dirty bytes of an RDC within the scope reach the line's home. The issuing die's RDC is within every scope (R436, R437).
DEDUCED: log entry 130. -/
def State.writeBack (s : State) (a : Agent) (sc : Scope) (pa : Nat) : State :=
  let line := lineOf pa
  let within := scopeRank sc ≥ 3 || !(s.ownMem pa && s.homeDie pa = dieOf a.f.core)
  let s := if within then { s with unhomed := s.unhomed.filter fun x => lineOf x.1 ≠ line } else s
  if sc = .sys && s.isBulk pa then s.cleanBulk line else s

/-- CINV of one line (R278): after the write-back, copies other than the point of coherence's go: the L1s' and, for a line homed on the other die, an
RDC's. A BULK line leaves every RDC at .SYS. -/
def State.discard (s : State) (a : Agent) (sc : Scope) (pa : Nat) : State :=
  let s := s.writeBack a sc pa
  let at_ := fun (l : Line) => if l.cache < 32 then dieOf l.cache else l.cache % 2
  let copy := fun (l : Line) => decide (l.cache < 32) || (decide (34 ≤ l.cache) && (if s.isBulk pa then sc = .sys else s.ownMem pa))
  let gone := fun (l : Line) => l.addr = lineOf pa && copy l &&
    (match sc with | .pty | .frm => l.cache = a.f.core | .die => at_ l = dieOf a.f.core | _ => true)
  let s := { s with lines := s.lines.filter fun (l : Line) => !gone l }
  if sc = .sys && s.isBulk pa then { s with bulk := s.bulk.filter fun b => b.addr ≠ lineOf pa } else s

/-- A cache instruction on one line; nothing fails it at memory but a lost extent (R277). -/
def lineAct (a : Agent) (i : Instr) (f : State → Nat → State) : Doing := fun s x ls =>
  match s.accFail a false ls with
  | some c => (s.failAccess a i x c, none)
  | none => (ls.foldl (fun s l => match l.1 with | .pa p => f s p | .spad _ _ => s) s, none)

def State.cacheLanes (s : State) (a : Agent) (i : Instr) (o : MF) (f : State → Nat → State) (land : State → Round → State) : Eff :=
  s.perform a i {
    store := false
    access := false
    lanes := a.p.active
    formed := a.formAll (a.winWay o.win) .r (s.offsets a o.so a.p.active (mfOff o)) 0 1
    act := lineAct a i f
    land := fun s r _ => land s r }

def execCwb (o : MF) (s : State) : Host.Outcome State Fault Refusal :=
  s.word (.cwb o) true fun a => s.cacheLanes a (.cwb o) o (fun s p => s.writeBack a o.scope p) fun s _ => s

def execCinv (o : MF) (s : State) : Host.Outcome State Fault Refusal :=
  s.word (.cinv o) true fun a => s.cacheLanes a (.cinv o) o (fun s p => s.discard a o.scope p) fun s _ => s

def execIinv (o : MF) (s : State) : Host.Outcome State Fault Refusal :=
  s.word (.iinv o) true fun a => s.cacheLanes a (.iinv o) o (fun s _ => s) fun s r =>
    let ls := linesOf (r.locs.filterMap fun l => locLine l.1)
    if ls.isEmpty then s
    else { s.bump with iinvs := s.iinvs ++ [{ id := s.nextId, pids := [a.p.pid], core := a.f.core, scope := o.scope, lines := ls }] }

/-! Windows (R258, R259). -/

/-- The access that a window's permissions ask of its page (R257, R258). -/
def permNeed (perm : BitVec 3) : Need :=
  match perm.getLsbD 2 || (perm.getLsbD 0 && perm.getLsbD 1), perm.getLsbD 0 with
  | true, _ => .rw
  | _, true => .r
  | _, _ => .w

/-- The end of the page that holds a translated address. -/
def State.pageEnd (s : State) (sp : Space) (a : Nat) : Nat :=
  match sp with
  | .ctx c => ((s.tlbHit c a).map fun e => e.page + e.size).getD a
  | .task lid =>
    ((((s.launch? lid).bind (·.task)).bind fun t => t.maps.find? fun m => decide (m.va ≤ a ∧ a < m.va + m.len)).map fun m => m.va + m.len).getD a

/-- The window that WOPEN makes, or a trap with its tinfo, or a missing translation (R258). -/
def State.openWindow (s : State) (a : Agent) (vb len toff : Nat) (perm : BitVec 3) : Except (Option (TrapCode × Nat)) Window :=
  let w : Window := { isOpen := true, vb := vb, len := len, perm := perm, toff := toff, fvalid := true }
  if vb ≥ 2 ^ 57 ∨ len = 0 ∨ vb + len > 2 ^ 57 then .error (some (.accessViolation, vb))
  else if toff % 16 ≠ 0 then .error (some (.misaligned, toff))
  else if apertureBase ≤ vb then .ok { w with spad := true, frame := vb - apertureBase, flim := len }
  else if apertureBase < vb + len then .error (some (.accessViolation, vb))
  else match s.translateFor a.l.space a.p.park vb (permNeed perm) with
    | .miss => .error none
    | .refused => .error (some (.accessViolation, vb))
    | .hit pa => .ok { w with frame := pa, flim := min len (s.pageEnd a.l.space vb - vb) }

def execWopen (o : UF) (s : State) : Host.Outcome State Fault Refusal :=
  s.word (.wopen o) false fun a =>
    let k := o.idx.extractLsb' 0 4
    let vb := (s.sVal a o.ua 0).toNat
    let perm := o.imm.extractLsb' 0 3
    match s.openWindow a vb (s.sVal a o.ub 1).toNat (s.sVal a (o.ub + 1) 2).toNat perm with
    | .error none => .other (s.parkOn a.p.pid a.l.space a.l.ctx (s.granulesOf [] [(vb, permNeed perm)]))
    | .error (some (c, t)) => .other (s.trapHere a (.wopen o) c (some t) 0)
    | .ok w =>
      let s := if (a.p.win k).isOpen then s.unpin a.p.pid k.toNat else s
      .done (s.addLong a (.wopen o) [.wreg k w] [])

/-- A window of a party is written (R25). -/
def State.setWindow (s : State) (pid : Nat) (k : BitVec 4) (w : Window) : State :=
  s.onParty pid fun p => { p with w := p.w.set k.toNat w }.mark fun m => { m with w := m.w ||| (1#16 <<< k.toNat) }

def execWclose (o : UF) (s : State) : Host.Outcome State Fault Refusal :=
  s.word (.wclose o) false fun a =>
    let k := o.idx.extractLsb' 0 4
    let w := a.p.win k
    .done (if w.isOpen then (s.setWindow a.p.pid k { w with isOpen := false }).unpin a.p.pid k.toNat else s)

/-! Results that arrive, and accesses that fail late (R57, R59, R60, R265). -/

def execLongLatencyResult (id : Nat) (s : State) : Host.Outcome State Fault Refusal :=
  match s.longs.find? fun x => x.id = id with
  | none => .next s
  | some x =>
    if s.accepting.any fun y => y.id = id then .next s else
    .next (s.arrived x).stir

/-- Lanes whose access failed return nothing: their old values stay (R265). -/
def Dest.without (lane comp : Nat) : Dest → Option Dest
  | .lanes r c m v => some (.lanes r c (if c = comp then m &&& ~~~laneBit lane else m) v)
  | d => if lane = 255 then none else some d

/-- Whether memory fails an access with a code now (R265). -/
def State.failsNow (s : State) (fid pa : Nat) (c : TrapCode) : Bool :=
  match s.sceneOf fid with
  | none => false
  | some sc => s.lost sc.tenant pa = some c || (c = .poison && s.poisoned pa 1)

/-- A load in flight fails at memory: a withdrawn extent, a lost or viral expander, or poison (R265). -/
def execMemoryAccessFail (id lane comp : Nat) (code : TrapCode) (s : State) : Host.Outcome State Fault Refusal :=
  match s.longs.find? fun x => x.id = id with
  | none => .next s
  | some x =>
    match x.accs.find? fun y => y.1 = lane && y.2.1 = comp with
    | none => .next s
    | some y =>
      if !s.failsNow x.fid y.2.2.2 code then .next s
      else
        let cut := fun (z : Long) => { z with dests := z.dests.filterMap (Dest.without lane comp), accs := z.accs.filter fun q => !(q.1 = lane && q.2.1 = comp) }
        let s := { s with longs := modifyWhere (fun z => z.id = id) cut s.longs }
        let it : Item := { ikind := 1, code := code, lane := lane, comp := comp, loc := x.addr, addr := y.2.2.1 }
        .next (match x.owners.head? with
          | some pid => s.due pid { code := code, tinfo := some y.2.2.1, items := [it] }
          | none => s.orphanItems x.fid x.hp [it])

end Sys2Proof.Machine
end

