-- ==== Sys2Proof/Machine/Press.lean ====
section
/-! DEFINITION. Press operations: their checks at issue (R172, R176 to R184, R192 to R196, R200, R229), the bounded queues and the overflow
ring (R174, R348, R349), starting, stepping, failing and ending (R173 to R175, R190, R199 to R201), batches (R188, R189,
R198), and GREAD and GWRITE (R190, R191, R197). -/
namespace Sys2Proof.Machine

/-! Sheet headers (R177 to R181). -/

/-- The check code of a header's 64 bytes (R179). -/
def sheetCheck (bs : List Byte) : W32 :=
  (upFrom 0 14).foldl (fun x k => x ^^^ rotl32 (BitVec.ofNat 32 (packetField (bs.set 0x27 0) (4 * k) 4)) k) 0x9E3779B9

/-- The fields of a header (R177). -/
def Sheet.parse (at_ : Nat) (bs : List Byte) : Sheet :=
  { at_ := at_, body := packetField bs 0 8, xbase := packetField bs 8 8, seed := BitVec.ofNat 64 (packetField bs 0x10 8)
    rows := packetField bs 0x18 2, cols := packetField bs 0x1A 2, pitch := packetField bs 0x1C 4, xpitch := packetField bs 0x20 4
    fmt := packetField bs 0x24 1, slot := packetField bs 0x25 1, swz := packetField bs 0x26 1, stamp := packetField bs 0x27 1
    spr := packetField bs 0x28 1 }

/-- Element formats that a sheet may hold (R177). -/
def sheetFmt (n : Nat) : Bool := decide ((2 ≤ n ∧ n ≤ 6) ∨ (0x10 ≤ n ∧ n ≤ 0x16))

/-- Whether a header's code, reserved fields and ranges are as R177, R178, R179 and R182 ask. DEDUCED: log entry 113. -/
def Sheet.sound (h : Sheet) (bs : List Byte) : Bool :=
  packetField bs 0x38 4 = (sheetCheck bs).toNat && packetField bs 0x29 15 = 0 && packetField bs 0x3C 4 = 0
  && sheetFmt h.fmt && decide (h.slot < 8) && decide (h.swz ≤ 3) && decide (h.spr ≤ 2)
  && decide (0 < h.rows) && decide (0 < h.cols) && h.body % 128 = 0
  && (h.spr ≠ 0 || h.seed = 0) && (h.spr = 0 || h.cols % 4 = 0)
  && h.pitch % (16 * 2 ^ h.swz) = 0 && decide (h.rowBytes ≤ h.pitch)
  && (if h.format.isBq then h.stored % 32 = 0 && h.xbase ≠ 0 && decide (h.stored / 32 ≤ h.xpitch) else h.xbase = 0 && h.xpitch = 0)

/-- What a tangent header shares with its primary's (R229). -/
def Sheet.agrees (h p : Sheet) : Bool :=
  h.rows = p.rows && h.cols = p.cols && h.fmt = p.fmt && h.slot = p.slot && h.spr = p.spr && h.seed = p.seed

/-- A record read at issue: the state in which the word traps or waits, or a failure at memory, or what was read. -/
abbrev Reading (α : Type) := Except State (Except (TrapCode × Nat) α)

/-- Read and check one header (R181). `slot` is the field of the word that names it, if one does; the filler's own destination is not
asked for its stamp (R195). -/
def State.readSheet (s : State) (a : Agent) (i : Instr) (va : Nat) (slot : Option (BitVec 3)) (stamp : Bool) (stores engines : Nat) : Reading Sheet :=
  if va % 64 ≠ 0 then .error (s.trapHere a i .misaligned (some va) 0)
  else match s.readOnce a i va 64 stores engines with
    | .error t => .error t
    | .ok (.error c) => .ok (.error (c, va))
    | .ok (.ok bs) =>
      let s := s.reachVa a.l.space a.p.park va 64
      let h := Sheet.parse va bs
      let named := match slot with
        | none => true
        | some k => h.slot = k.toNat && h.fmt = (a.l.record.slot k).toNat % 256
      if h.sound bs && (!stamp || h.stamp = h.swz) && named then .ok (.ok h)
      else .error (s.trapHere a i .sheetMismatch (some va) 0)

/-- A sheet's header and those of its tangents (R229). -/
def State.readSheets (s : State) (a : Agent) (i : Instr) (va : Nat) (slot : Option (BitVec 3)) (stamp : Bool) (nt : Nat) : Reading (List Sheet) :=
  (upFrom 0 (nt + 1)).foldl (fun acc j =>
    match acc with
    | .ok (.ok l) =>
      match s.readSheet a i ((va + 64 * j) % 2 ^ 64) slot stamp (max a.p.opReady a.p.cmdReady) a.p.opReady with
      | .ok (.ok h) => if j = 0 || h.agrees (l.headD {}) then .ok (.ok (l ++ [h])) else .error (s.trapHere a i .sheetMismatch (some h.at_) 0)
      | .ok (.error e) => .ok (.error e)
      | .error t => .error t
    | x => x) (.ok (.ok []))

/-! The bounded queues and the overflow ring (R348, R349). -/

def queueCap : Nat → Nat
  | 0 => 64 | 1 => 512 | 2 => 64 | 3 => 256 | 4 => 1024 | 5 => 256 | _ => 2 ^ 24

/-- The die of a queue's site: a core for the press queues, else the die itself. -/
def queueDie (q site : Nat) : Nat := if q = 0 then dieOf site else site

def State.partOfForme (s : State) (fid : Nat) : Nat := ((s.forme? fid).map fun f => s.partOf f.lid).getD 0

/-- A launch that waits in the launch queue of a die (R348). -/
def Launch.awaits (l : Launch) : Bool := l.parent.isSome && l.next = 0 && decide (0 < l.block.total) && l.block.status = 0

/-- Bytes of a partition's ring in use on a die (R348). -/
def State.ringUse (s : State) (part die : Nat) : Nat :=
  64 * (s.ops.filter fun o => o.phase = .spilt && queueDie o.queue o.site = die && s.partOfForme o.fid = part).length
  + 64 * (s.launches.filter fun l => l.spilt = some die && s.partOf l.lid = part).length
  + 64 * (s.accepting.filter fun x => x.spilt = some die && s.partOf x.parent = part).length
  + 128 * sumBy (fun h : Home => if ((s.trace h.fid).any fun f => dieOf f.core = die && s.partOf f.lid = part) then sumBy Step.spilt h.steps else 0) s.homes

/-- Whether an entry of `n` bytes may be spilt (R349). DEDUCED: log entry 57. -/
def State.ringRoom (s : State) (part die n : Nat) : Bool :=
  let q := (s.part part).quota die
  decide (s.ringUse part die + n ≤ min q.ringQuota q.ringBytes)

def quotaInfo (q core die : Nat) : Nat := q + core % 16 * 2 ^ 8 + die * 2 ^ 12

/-- Where an entry goes: the queue, the ring, or nowhere (R348, R349). DEDUCED: log entry 51. DEDUCED: log entry 101. -/
def State.queuePlace (s : State) (part q site : Nat) : Option Phase_ :=
  let here := s.ops.filter fun o => o.queue = q && o.site = site && !(s.forme? o.fid).any (·.place = .saved)
  let full := (here.filter fun o => o.phase = .queued).length ≥ queueCap q || here.any fun o => o.phase = .spilt
  if !full then some .queued
  else if s.ringRoom part (queueDie q site) 64 then some .spilt else none

/-- The address from which a party's accesses are ordered before an operation's: OREADY for the press (R186), its own commands and fences for
the engines (R254). -/
def Agent.since (a : Agent) (q : Nat) : Nat := if q = 0 then max a.p.opReady a.p.cmdReady else a.p.cmdReady
def Agent.settledSince (a : Agent) (q : Nat) : Nat := if q = 0 then max a.p.opReady a.p.cmdSettled else a.p.cmdSettled

/-- An operation as it is issued. -/
def Agent.newOp (a : Agent) (s : State) (i : Instr) (q site : Nat) (w : Work) (nu : Nat) : Op :=
  { id := s.nextId, fid := a.p.fid, hp := a.p.hp, word := a.addr i, queue := q, site := site, work := w, pid := a.p.pid
    issued := s.freeCtr, ready := a.since q, settled := a.settledSince q, seq := s.nextId, nu := nu, rc := a.f.rc
    line := a.p.ancestry s.freeCtr
    unseen := if q ≠ 0 then [] else (s.ops.filter fun o => o.fid = a.p.fid && o.hp = a.p.hp && decide (a.p.opReady ≤ o.issued)).map (·.id)
    loads := a.p.cmdLoads, deps := s.control a.p }

/-- The fields of what is issued, as proofing captures them (R416). -/
def Work.fields : Work → List Nat
  | .product p => [p.tile, p.arow, p.brow, p.k0, p.m, p.n, p.kd, if p.zero then 1 else 0] ++ (p.a ++ p.b).map (·.at_)
  | .clear t n => [t, n]
  | .load r | .store r => [r.tile, r.base, r.stride, r.row, r.col, r.rows, r.cols, r.fmt, r.comps]
  | .sheet src dst => (src ++ dst).map (·.at_)
  | .cpy src dst len => [src, dst, len]
  | .cpyx src dst rows rb sp dp xs xp h => [src, dst, rows, rb, sp, dp, xs, xp] ++ h.toList.map (·.at_)
  | .cpyrot src dst ft rows sp dp dim f mode d => [src, dst, ft, rows, sp, dp, dim, f, mode, d.toNat]
  | .fill dst len pat => [dst, len, pat.toNat]
  | .scrub dst len rpt z => [dst, len, rpt, if z then 1 else 0]
  | .seal pkt h _ => [pkt, h.toNat]
  | .ndt pkt _ => [pkt]
  | .void => []
  | .coll g n sub _ _ r sends => [g.id, n, sub.toNat, if r then 1 else 0] ++ sends.flatMap fun x => [x.1, x.2.1, x.2.2]
  | .bind g => [g.id, g.table, g.sbuf, g.rbuf, g.len]

/-- Queue an operation, or trap QUEUE_QUOTA before any effect (R174, R349). The word has not advanced. -/
def State.queueOp (s : State) (a : Agent) (i : Instr) (o : Op) : Except State State :=
  match s.queuePlace (s.partOf a.l.lid) o.queue o.site with
  | none => .error (s.trapHere a i .queueQuota (some (quotaInfo o.queue a.f.core (dieOf a.f.core))) 0)
  | some ph => .ok { (s.emit a.p.pid ((o.queue :: o.work.fields).map (BitVec.ofNat 64))).bump with ops := s.ops ++ [{ o with phase := ph }] }

/-- An operation whose header failed at memory: it ends at once, failed (R199, R411). DEDUCED: log entry 54. -/
def State.voidOp (s : State) (o : Op) (c : TrapCode × Nat) : State :=
  { s.bump with ops := s.ops ++ [{ o with work := .void, phase := .ended, fail := some c }] }

/-- The headers that an operation's word has read. -/
def Work.headers : Work → List Nat
  | .product p => (p.a ++ p.b).map (·.at_)
  | .sheet src dst => (src ++ dst).map (·.at_)
  | .cpyx _ _ _ _ _ _ _ _ h => h.toList.map (·.at_)
  | _ => []

/-- Failing sectors of records read at issue are corrected, or poisoned (R410). -/
def State.reachRead (s : State) (a : Agent) (w : Reading Work) : State :=
  let look := fun (s : State) (va : Nat) => s.reachVa a.l.space a.p.park va 64
  match w with
  | .error _ => s
  | .ok (.error c) => look s c.2
  | .ok (.ok w) => w.headers.foldl look s

/-- Issue a press operation once its headers have been read. DEDUCED: log entry 38. -/
def State.issuePress (s : State) (a : Agent) (i : Instr) (nu : Nat) (w : Reading Work) : Eff :=
  let s := s.reachRead a w
  match w with
  | .error t => .other t
  | .ok (.error c) => .done (s.voidOp (a.newOp s i 0 a.f.core .void nu) c)
  | .ok (.ok w) => match s.queueOp a i (a.newOp s i 0 a.f.core w nu) with
    | .error t => .other t
    | .ok t => .done t

/-- A tile that the forme has not reserved (R176, R229). -/
def Agent.tileBad (a : Agent) (g nt : Nat) : Option Nat :=
  if g + nt ≥ a.l.record.gtiles then some (max g a.l.record.gtiles) else none

/-- Run a press word that names a tile. DESIGN CHOICE: log entry 116. -/
def State.onTile (s : State) (a : Agent) (i : Instr) (g : BitVec 3) (tmask : Mask) (body : Nat → Eff) : Eff :=
  let nt := a.tans i
  match a.tileBad g.toNat nt with
  | some k => .other (s.trapHere a i .accessViolation (some k) tmask)
  | none => body nt

/-! PRESS, PRESSS and PLATEN (R192, R193, R200). -/

/-- The window of UC (R192). -/
structure WindowField where
  arow : Nat
  brow : Nat
  k0   : Nat
  m    : Nat
  n    : Nat
  bad  : Bool
deriving DecidableEq, Repr

/-- The fields of UC; `bad` where a reserved bit is set, or a PLATEN's k0 is no multiple of 32 (R183, R200). DEDUCED: log entry 114. -/
def windowField (uc : W64) (platen : Bool) : WindowField :=
  { arow := (uc.extractLsb' 0 16).toNat, brow := (uc.extractLsb' 16 16).toNat, k0 := (uc.extractLsb' 32 16).toNat
    m := (if platen then (uc.extractLsb' 48 3).toNat else (uc.extractLsb' 48 7).toNat) + 1
    n := (uc.extractLsb' 56 8).toNat + 1
    bad := if platen then (uc.extractLsb' 51 5) ≠ 0 || (uc.extractLsb' 32 5) ≠ 0 else uc.getLsbD 55 }

/-- Whether a window passes the limits of its sheets (R181, R182, R192). -/
def WindowField.over (f : WindowField) (kd : Nat) (sparse : Bool) (ha hb : Sheet) : Bool :=
  f.bad || decide (ha.rows < f.arow + f.m) || decide (hb.rows < f.brow + f.n) || decide (min ha.cols hb.cols < f.k0 + kd)
    || (sparse && (f.k0 % 4 ≠ 0 || kd % 4 ≠ 0))

/-- The product of a window, its headers read and checked. `sa` and `sb` say which side is read as sparse. DEDUCED: log entry 50. DEDUCED: log entry 114. -/
def State.productOf (s : State) (a : Agent) (i : Instr) (o : PF) (nt kd : Nat) (sparseA : Bool) (sparseB : Sheet → Option Bool)
    (platen : Bool) : Reading Product :=
  let uc := s.sVal a o.uc 2
  match s.readSheets a i (s.sVal a o.ua 0).toNat (some o.fa) true nt with
  | .error t => .error t
  | .ok (.error e) => .ok (.error e)
  | .ok (.ok la) =>
    let ha := la.headD {}
    if (ha.spr ≠ 0) ≠ sparseA then .error (s.trapHere a i .sheetMismatch (some ha.at_) 0) else
    match s.readSheets a i (s.sVal a o.ub 1).toNat (some o.fb) true nt with
    | .error t => .error t
    | .ok (.error e) => .ok (.error e)
    | .ok (.ok lb) =>
      let hb := lb.headD {}
      match sparseB hb with
      | none => .error (s.trapHere a i .sheetMismatch (some hb.at_) 0)
      | some sb =>
        let f := windowField uc platen
        if f.over kd (sparseA || sb) ha hb then .error (s.trapHere a i .accessViolation (some uc.toNat) 0)
        else .ok (.ok { tile := o.g.toNat, a := la, b := lb, arow := f.arow, brow := f.brow, k0 := f.k0, m := f.m, n := f.n, kd := kd
                        zero := o.pmod.getLsbD 0, sparseA := sparseA, sparseB := sb })

def asWork {α : Type} (f : α → Work) : Reading α → Reading Work
  | .error t => .error t
  | .ok (.error e) => .ok (.error e)
  | .ok (.ok x) => .ok (.ok (f x))

/-- A dense side's answer to its header's SPR. -/
def denseSide (h : Sheet) : Option Bool := if h.spr = 0 then some false else none
def sparseSide (h : Sheet) : Option Bool := if h.spr = 0 then none else some true

def execPress (o : PF) (s : State) : Host.Outcome State Fault Refusal :=
  s.word (.press o) true fun a => s.onTile a (.press o) o.g 0 fun nt =>
    s.issuePress a (.press o) o.nu.toNat (asWork .product (s.productOf a (.press o) o nt o.kd.toNat false denseSide false))

def execPresss (o : PF) (s : State) : Host.Outcome State Fault Refusal :=
  s.word (.presss o) true fun a => s.onTile a (.presss o) o.g 0 fun nt =>
    let sb := o.pmod.getLsbD 1
    s.issuePress a (.presss o) o.nu.toNat
      (asWork .product (s.productOf a (.presss o) o nt o.kd.toNat (!sb) (if sb then sparseSide else denseSide) false))

/-- The page that holds a virtual address. -/
def State.pageStart (s : State) (sp : Space) (a : Nat) : Nat :=
  match sp with
  | .ctx c => ((s.tlbHit c a).map fun e => e.page).getD (granuleOf a)
  | .task _ => granuleOf a

/-- Where the platen finds B, as far as its pages translate: the stack that homes every byte of the window, or a page that is homed elsewhere; none
where a page does not translate yet, or is refused (R199, R200, R236). -/
def State.stackFor (s : State) (fid die : Nat) (gs : List Granule) (p : Product) : Except Nat (Option Nat) :=
  let k (x : Nat) := storedCol p.sparseB (p.b.headD {}).spr x
  let runs := p.b.flatMap fun h => h.runs p.brow p.n (k p.k0) (k (p.k0 + p.kd))
  match s.sceneOf fid with
  | none => .ok none
  | some sc =>
    let look := (runs.flatMap fun r => granuleAddrs r.1 r.2).map fun va => (va, s.findVa sc gs va .r)
    let known := look.filter fun x => match x.2 with | .at_ _ => true | _ => false
    let stack := fun (x : Nat × Found) => match x.2 with
      | .at_ (.pa pa) => if inFabric pa || !s.ownMem pa || pa / 2 ^ 38 % 2 ≠ die then none else some (pa / 2 ^ 36)
      | _ => none
    match known with
    | [] => .ok (if look.isEmpty then some (4 * die) else none)
    | x :: _ =>
      match known.find? fun y => (stack y).isNone || stack y ≠ stack x with
      | some y => .error (s.pageStart sc.sp y.1)
      | none => .ok (if known.length = look.length then stack x else none)

def execPlaten (o : PF) (s : State) : Host.Outcome State Fault Refusal :=
  s.word (.platen o) true fun a => s.onTile a (.platen o) o.g 0 fun nt =>
    let w : Reading Work := match s.productOf a (.platen o) o nt (32 * o.kd.toNat) false (fun h => some (h.spr ≠ 0)) true with
      | .error t => .error t
      | .ok (.error e) => .ok (.error e)
      | .ok (.ok p) =>
        match s.stackFor a.p.fid (dieOf a.f.core) a.p.park p with
        | .ok (some k) => .ok (.ok (.product { p with platen := some k }))
        | .ok none => .ok (.ok (.product { p with platen := some (4 * dieOf a.f.core), sited := false }))
        | .error page => .error (s.trapHere a (.platen o) .accessViolation (some page) 0)
    s.issuePress a (.platen o) o.nu.toNat w

/-! SHEET, GCLR, GLOAD and GSTORE (R194 to R196). -/

def execSheet (o : PF) (s : State) : Host.Outcome State Fault Refusal :=
  s.word (.sheet o) true fun a =>
    let nt := a.tans (.sheet o)
    let w : Reading Work := match s.readSheets a (.sheet o) (s.sVal a o.ub 1).toNat none true nt with
      | .error t => .error t
      | .ok (.error e) => .ok (.error e)
      | .ok (.ok src) =>
        match s.readSheets a (.sheet o) (s.sVal a o.ua 0).toNat none false nt with
        | .error t => .error t
        | .ok (.error e) => .ok (.error e)
        | .ok (.ok dst) =>
          let x := src.headD {}
          let y := dst.headD {}
          if x.rows = y.rows ∧ x.cols = y.cols ∧ x.fmt = y.fmt ∧ x.spr = y.spr ∧ x.seed = y.seed then .ok (.ok (.sheet src dst))
          else .error (s.trapHere a (.sheet o) .sheetMismatch (some y.at_) 0)
    s.issuePress a (.sheet o) o.nu.toNat w

def execGclr (o : PF) (s : State) : Host.Outcome State Fault Refusal :=
  s.word (.gclr o) true fun a => s.onTile a (.gclr o) o.g 0 fun nt => s.issuePress a (.gclr o) 62 (.ok (.ok (.clear o.g.toNat nt)))

/-- The rectangle of UC and the address and stride of UA and UB, checked (R196). DESIGN CHOICE: log entry 115. -/
def State.rectOf (s : State) (a : Agent) (i : Instr) (o : PF) (nt : Nat) (rm : RmCode) : Except State Rect :=
  let ua := (s.sVal a o.ua 0).toNat
  let ub := (s.sVal a o.ub 1).toNat
  let uc := s.sVal a o.uc 2
  let fs := a.l.record.slot o.fa
  let e := fmtBytes (fs.toNat % 256)
  let r : Rect := { tile := o.g.toNat, base := ua, stride := ub, row := (uc.extractLsb' 0 8).toNat, col := (uc.extractLsb' 8 8).toNat
                    rows := (uc.extractLsb' 16 7).toNat + 1, cols := (uc.extractLsb' 24 8).toNat + 1, fmt := fs.toNat % 256, rm := rm
                    satm := slotSatm fs, comps := nt }
  if uc.getLsbD 23 || (uc.extractLsb' 32 32) ≠ 0 || decide (128 < r.row + r.rows) || decide (256 < r.col + r.cols) then
    .error (s.trapHere a i .accessViolation (some uc.toNat) 0)
  else if ua % e ≠ 0 then .error (s.trapHere a i .misaligned (some ua) 0)
  else if ub % e ≠ 0 then .error (s.trapHere a i .misaligned (some ub) 0)
  else .ok r

def asRect (f : Rect → Work) : Except State Rect → Reading Work
  | .error t => .error t
  | .ok r => .ok (.ok (f r))

def execGload (o : PF) (s : State) : Host.Outcome State Fault Refusal :=
  s.word (.gload o) true fun a => s.onTile a (.gload o) o.g 0 fun nt =>
    s.issuePress a (.gload o) o.nu.toNat (asRect .load (s.rectOf a (.gload o) o nt .rne))

/-- The rounding of PMOD (R184, R77). -/
def pmodRm (m : BitVec 4) (fs : W32) : RmCode :=
  match (m.extractLsb' 0 3).toNat with
  | 1 => .rz | 2 => .rup | 3 => .rdn | 4 => .rna | 7 => slotRnd fs | _ => .rne

def execGstore (o : PF) (s : State) : Host.Outcome State Fault Refusal :=
  s.word (.gstore o) true fun a => s.onTile a (.gstore o) o.g 0 fun nt =>
    s.issuePress a (.gstore o) o.nu.toNat (asRect .store (s.rectOf a (.gstore o) o nt (pmodRm o.pmod (a.l.record.slot o.fa))))

/-! GREAD and GWRITE (R190, R191, R197). -/

/-- The entry that a lane names: row and column (R197). -/
def entryOf (w : W32) : Nat × Nat := ((w.extractLsb' 0 7).toNat, (w.extractLsb' 7 8).toNat)

/-- The first tile that the scoreboard finds touched (R191). DEDUCED: log entry 87. -/
def State.tileTouched (s : State) (a : Agent) (g nt : Nat) : Option Nat :=
  if !a.l.record.chk then none
  else (upFrom g (nt + 1)).find? fun t => s.ops.any fun o => o.fid = a.p.fid && o.tiles.contains t && (o.unfinished || o.hp = a.p.hp)

/-- The values that an entry may be read as (R190). -/
def State.entryValues (s : State) (fid t k : Nat) : List W32 :=
  let now := tileGet (s.galley fid) k
  let later := (s.traceAll (s.openOps.filter fun o => o.fid = fid && o.tiles.contains t)).map fun x => tileGet (x.galley fid) k
  now :: later.filter fun v => v ≠ now

/-- A late result of a word whose destination rows are allocated now (R39, R57). -/
def State.landLate (s : State) (a : Agent) (i : Instr) (alloc : List Write) (dests : List Dest) : Eff :=
  let u := usesOf a.l.record i
  if a.overcommits u alloc then .other (s.trapHere a i .badCairn none a.p.active)
  else
    let s := alloc.foldl (fun s w => s.write a.p.pid 1 (a.word i) w) (s.lastReads a.p u)
    .other ((s.addLong a i dests []).advance a i)

def regV : Reg → BitVec 8 | .v k => k | _ => 0

/-- GREAD, whose source A is read as an integer (R197). DEDUCED: log entry 111. -/
def execGread (o : V2) (s : State) : Host.Outcome State Fault Refusal :=
  s.word (.gread o) true fun a => s.onTile a (.gread o) (o.sub.extractLsb' 0 3) a.p.active fun nt =>
    let g := (o.sub.extractLsb' 0 3).toNat
    match s.tileTouched a g nt with
    | some t => .other (s.trapHere a (.gread o) .pressTouch (some t) a.p.active)
    | none =>
      let x := s.src32 a o.a 0
      let value := fun (j l : Nat) =>
        let (r, c) := entryOf (rowGet x l)
        let vs := if a.f.gpoison.contains (tileKey (g + j) r c) then [] else s.entryValues a.p.fid (g + j) (tileKey (g + j) r c)
        s.oneOf (1500000 + l + 64 * j) 0 vs
      let bad := (maskLanes a.p.active).flatMap fun l => (upFrom 0 (nt + 1)).filterMap fun j =>
        let (r, c) := entryOf (rowGet x l)
        if a.f.gpoison.contains (tileKey (g + j) r c) then
          some ({ ikind := 1, code := .poison, lane := l, comp := j, loc := a.addr (.gread o) } : Item) else none
      let s := if bad.isEmpty then s else s.due a.p.pid { code := .poison, items := bad }
      let dest := fun (j : Nat) => Dest.lanes (regV o.d) j a.p.active (rowOf fun l => if a.p.active.getLsbD l then value j l else 0)
      s.landLate a (.gread o) (s.allocRows a o.d 1 nt) ((upFrom 0 (nt + 1)).map dest ++ s.lostShadows a o.d 1 nt)

/-- GWRITE of one entry; operations in flight on the tile may still take the entry otherwise (R186, R190). -/
def State.pokeEntry (s : State) (fid k : Nat) (v : W32) : State :=
  let old := tileGet (s.galley fid) k
  let note := fun (o : Op) =>
    if o.fid = fid && o.unfinished && (o.tiles.any fun t => decide (tileKey t 0 0 ≤ k ∧ k < tileKey (t + 1) 0 0)) then
      { o with poked := if o.poked.any fun x => x.1 = k then o.poked.map fun x => if x.1 = k then (k, x.2.1, v) else x else o.poked ++ [(k, old, v)] }
    else o
  let s : State := { s with ops := s.ops.map note }
  s.onForme fid fun f => { f with galley := tileSet f.galley k v, gpoison := f.gpoison.filter (· ≠ k) }

/-- GWRITE, whose source A is read as an integer (R197). DEDUCED: log entry 111. -/
def execGwrite (o : V2) (s : State) : Host.Outcome State Fault Refusal :=
  s.word (.gwrite o) true fun a => s.onTile a (.gwrite o) (o.sub.extractLsb' 0 3) a.p.active fun nt =>
    let g := (o.sub.extractLsb' 0 3).toNat
    match s.tileTouched a g nt with
    | some t => .other (s.trapHere a (.gwrite o) .pressTouch (some t) a.p.active)
    | none =>
      let x := s.src32 a o.a 0
      let name := fun (l : Nat) => entryOf (rowGet x l)
      let ls := maskLanes a.p.active
      let wins := ls.filter fun l =>
        let same := ls.filter fun m => name m = name l
        s.oneOf (1600000 + same.headD 0) l same = l
      .done ((upFrom 0 (nt + 1)).foldl (fun s' j =>
        let v := s.srcT a o.b 1 0 j
        wins.foldl (fun (s' : State) l => s'.pokeEntry a.p.fid (tileKey (g + j) (name l).1 (name l).2) (rowGet v l)) s') s)

/-! Batches (R188, R189, R198, R199). -/

/-- BATCH closes the home party's open set (R188). -/
def execBatch (o : UF) (s : State) : Host.Outcome State Fault Refusal :=
  s.word (.batch o) false fun a =>
    let n := a.h.bn + 1
    let mine := fun (x : Op) => x.fid = a.p.fid && x.hp = a.p.hp && x.batch.isNone
    let s := a.onHome s fun h => { h with bn := n }
    let s := { s with ops := modifyWhere mine (fun x => { x with batch := some n.toNat }) s.ops }
    match o.d with
    | .s k => .writes s [.sreg k n]
    | _ => .done s

/-- The batches of a home party that are incomplete. -/
def State.openBatches (s : State) (fid hp : Nat) : List Nat :=
  (s.ops.filter fun o => o.fid = fid && o.hp = hp && o.unfinished).foldl (fun l o =>
    match o.batch with | some b => if l.contains b then l else b :: l | none => l) []

/-- Whether a WAITB may end (R189). -/
def State.batchDone (s : State) (fid hp : Nat) (upto : Option Nat) (atMost : Nat) : Bool :=
  let l := s.openBatches fid hp
  match upto with
  | some n => l.all fun b => decide (n < b)
  | none => decide (l.length ≤ atMost)

/-- The end of a WAITB: its batches are covered, their failures become due to this party and their flags are among those that it sees
(R189, R198, R199). DEDUCED: log entry 55. -/
def State.cover (s : State) (p : Party) (upto : Option Nat) : State :=
  let opened := s.openBatches p.fid p.hp
  let covered := fun (b : Nat) => match upto with | some n => decide (b ≤ n) | none => !opened.contains b
  let mine := s.ops.filter fun o => o.fid = p.fid && o.hp = p.hp && o.batch.any covered
  let fails := mine.filterMap fun o => o.fail.map fun c => ({ code := c.1, items := [o.failItem c.1 c.2] } : Pending)
  let flags := mine.filterMap fun o => if o.flags = 0 then none else some (o.batch.getD 0, o.flags)
  let s := { s.joinCovered p mine with ops := s.ops.filter fun o => !(o.fid = p.fid && o.hp = p.hp && o.batch.any covered) }
  let s := s.onHome p.fid p.hp fun h => { h with batchFlags := h.batchFlags ++ flags }
  let set := (((s.home? p.fid p.hp).map Home.batchFlags).getD []).foldl (fun f x => if covered x.1 then f ||| x.2 else f) 0
  s.onParty p.pid fun p => { p with wait := .none, seen := p.seen ||| set, pending := fails.foldl addPending p.pending }

/-- Let go every party of a home party whose WAITB may end. -/
def State.batchCheck (s : State) (fid hp : Nat) : State :=
  (s.siblings fid hp).foldl (fun s p =>
    match s.party? p.pid with
    | none => s
    | some q => match q.wait with
      | .batch upto n => if s.batchDone fid hp upto n then s.cover q upto else s
      | _ => s) s

def execWaitb (o : UF) (s : State) : Host.Outcome State Fault Refusal :=
  s.word (.waitb o) false fun a =>
    let w := if o.idx = 0 then Wait.batch (some (min (s.sVal a o.ua 0).toNat a.h.bn.toNat)) 0 else .batch none o.imm.toNat
    let s := s.advance a (.waitb o)
    .other ((a.onParty s fun p => { p with wait := w }).batchCheck a.p.fid a.p.hp)

/-! Operations start, step, end and fail (R173 to R175, R199 to R201). -/

/-- What a product still has to read. -/
def Op.rest (o : Op) : Op :=
  match o.work with
  | .product p => { o with work := .product { p with k0 := p.k0 + 32 * o.step, kd := p.kd - 32 * o.step } }
  | _ => o

/-- The next-use declarations of an operation's accesses (R242): by its reads, and by GSTORE's and an engine command's writes. -/
def State.declareOp (s : State) (o : Op) : State :=
  match s.sceneOf o.fid, s.forme? o.fid with
  | some sc, some f =>
    let runs := s.memReads o ++ (match o.work with | .sheet _ _ => [] | _ => s.memWrites o)
    let ph := runs.flatMap fun r => s.physical sc r.1 r.2
    let d : Decl := { s.declOf f o.nu none with rc := o.rc }
    (linesOf (ph.flatMap fun p => (upFrom 0 (p.2 / 128 + 2)).filterMap fun k => if lineOf p.1 + 128 * k < p.1 + p.2 then some (lineOf p.1 + 128 * k) else none)).foldl
      (fun s x => s.cacheAccess (s.homeCache (dieOf f.core) x) d x) s
  | _, _ => s

/-- Ask for what an operation's translations miss; the operation waits, and no party does (R199, R283). -/
def State.opAsk (s : State) (o : Op) : State :=
  match s.sceneOf o.fid with
  | none => s
  | some sc =>
    let gs := s.granulesOf o.wait (s.opMissing o.rest)
    (s.askAll sc.sp gs).onOp o.id fun x => { x with wait := gs }

/-- An operation has ended: its flags reach the forme, and what waits for it goes on (R188, R198). -/
def State.opEnded (s : State) (o : Op) (f : BitVec 9) (fail : Option (TrapCode × Nat)) : State :=
  let s := if fail.isNone then s else s.onForme o.fid fun x => { x with gpoison := x.gpoison.filter fun k => !o.touches.contains k }
  let s := ((s.joinOp o).setFlags o.fid f).onOp o.id fun x => { x with phase := .ended, flags := f, fail := fail, poked := [], snap := [] }
  (s.batchCheck o.fid o.hp).formeCheck o.fid

/-- What an operation reads is checked and corrected (R410). -/
def State.opCorrect (s : State) (o : Op) : State :=
  match s.sceneOf o.fid, o.work with
  | none, _ => s
  | _, .scrub .. => s
  | some sc, _ => ((s.memReads o).flatMap fun r => s.physical sc r.1 r.2).foldl (fun s p => s.correct p.1 p.2) s

/-- The fabric lines that an operation reads and writes are reached (R302, R305). -/
def State.opReach (s : State) (o : Op) : State :=
  match s.sceneOf o.fid with
  | none => s
  | some sc =>
    let s := s.touchRuns ((s.memReads o).flatMap fun r => s.physical sc r.1 r.2) (some o.fid) false
    s.touchRuns ((s.memWrites o).flatMap fun r => s.physical sc r.1 r.2) (some o.fid) true

/-- An operation starts, unless what it reads turns out to be lost (R174, R192). -/
def State.opBegin (s : State) (o : Op) : State :=
  let s := (s.opReach o).opCorrect o
  if (s.opFault o).isSome then s else
  let snap := ((s.opBefore o).galley o.fid).filter fun e => o.entries.contains e.1
  let s := ((s.declareOp o).onOp o.id fun x => { x with phase := .running, step := 0, snap := snap, runAt := s.nextId }).bump
  (s.opZeroed o).stir

def Op.onPair (o : Op) : Bool := o.queue = 0 && (match o.work with | .product p => p.platen.isNone | _ => true)

/-- The stack whose platen an operation is for, once that is known (R200). -/
def Op.stack (o : Op) : Option Nat := match o.work with | .product p => if p.sited then p.platen else none | _ => none

/-- The die whose platens an operation is for while its stack is not known. -/
def Op.unsited (o : Op) : Option Nat := match o.work with | .product p => if p.sited then none else p.platen.map (· / 4) | _ => none

def State.opReady (s : State) (o : Op) : Bool := s.opFree o && (s.opMissing o).isEmpty && (s.opFault o).isNone

/-- Whether an operation goes on: a press operation stops at its group boundary while its forme is saved or halted, and every operation stands
still while the forme is off its core, but for the commands of a halted one (R202, R379). -/
def State.opPlaced (s : State) (o : Op) : Bool :=
  (s.forme? o.fid).any fun f =>
    match f.place, f.leave with
    | .saved, _ => f.haltWall.isSome && o.queue ≠ 0
    | .halted, _ => o.queue ≠ 0
    | .placed, none => true
    | .placed, some x => x.how = .drain || (x.halt && o.queue ≠ 0)

/-- The operation at the head of a core's press queue that is for the press pair; those of formes that are off the core or halted hold none back
(R174, R202). -/
def State.pressHead (s : State) (core : Nat) : Option Op := (s.ops.filter fun o => o.onPair && o.site = core && o.phase = .queued && s.opPlaced o).head?

/-- Whether two operations run on one press pair, or on one platen. -/
def Op.sharesUnit (o e : Op) : Bool := (o.onPair && e.onPair && o.site / 2 = e.site / 2) || (o.stack.isSome && o.stack = e.stack)

/-- Whether a press pair or platen does its operations: while it is retested they wait, and those of a retired one are done by another in service on the
die (R417). DESIGN CHOICE: log entry 129. -/
def State.serves (s : State) (u : UnitId) : Bool :=
  let peers := match u with
    | .pressPair n => (upFrom (n / 8 * 8) 8).map UnitId.pressPair
    | .platen k => (upFrom (k / 4 * 4) 4).map UnitId.platen
    | .core _ => []
  match s.bins.find? fun b => b.unit = u with
  | none => true
  | some b => !b.testing && (b.bin.isSome || peers.any fun v => !s.unitOut v)

/-- A unit takes one operation at a time, and where several have begun on it, after a restore, the one that took it first goes on (R174, R201,
R202). -/
def State.unitTaken (s : State) (o : Op) : Bool :=
  s.ops.any fun e => e.phase = .running && e.sharesUnit o && decide (e.runAt < o.runAt ∨ (e.runAt = o.runAt ∧ e.seq < o.seq)) && s.opPlaced e

/-- The press pair of a spread takes an operation from the heads of its two queues, from each in turn where both are ready (R174). -/
def execPressOpStart (spread : Nat) (s : State) : Host.Outcome State Fault Refusal :=
  if !s.serves (.pressPair spread) || s.ops.any fun o => o.onPair && o.phase = .running && o.site / 2 = spread && s.opPlaced o then .next s
  else
    let heads := [2 * spread, 2 * spread + 1].filterMap fun c => (s.pressHead c).filter s.opFree
    match heads.filter s.opReady with
    | [] => .next (heads.foldl (fun s o => if (s.opMissing o).isEmpty then s else s.opAsk o) s)
    | o :: rest =>
      let o := match rest with | r :: _ => if s.pressTurn.contains o.site then r else o | [] => o
      let s := { s with pressTurn := o.site :: s.pressTurn.filter fun c => c / 2 ≠ spread }
      .next (s.opBegin o)

/-- A PLATEN whose pages were not all translated at issue: it waits for them, comes to the stack that homes them, or fails (R199, R200). -/
def State.sitePlaten (s : State) (o : Op) (die : Nat) : State :=
  if !(s.opMissing o).isEmpty then s.opAsk o
  else match o.work with
    | .product p => match s.stackFor o.fid die o.wait p with
      | .ok (some k) => { s.bump with ops := modifyWhere (fun x => x.id = o.id) (fun x => { x with work := .product { p with platen := some k, sited := true }, arr := s.nextId }) s.ops }
      | .ok none => s
      | .error page => ((s.opSpoil o).opEnded o o.flags (some (.accessViolation, page))).stir
    | _ => s

/-- A fold that stands in a stack's queue: the home party, the step and the location (R324). -/
structure QueuedFold where
  fid : Nat
  hp : Nat
  bind : Nat
  n : Nat
  off : Nat
  arr : Nat
deriving DecidableEq, Repr

/-- The stack of the device that homes a location of a fold; none where the collective engine folds it (R296, R324). -/
def State.foldStack (s : State) (fid va : Nat) : Option Nat :=
  match s.fit, s.sceneOf fid with
  | .f2, some sc => match s.findVa sc [] va .none with
    | .at_ (.pa pa) => if inFabric pa || !s.ownMem pa then none else some (pa / 2 ^ 36)
    | _ => none
  | _, _ => none

/-- Every fold that is queued. -/
def State.queuedFolds (s : State) : List QueuedFold :=
  s.homes.flatMap fun h => h.steps.flatMap fun x => match x.folding, h.groupAt x.bind with
    | some (arr, _), some _ => if idle x.wait then x.toFold.map fun o => ⟨h.fid, h.hp, x.bind, x.n, o, arr⟩ else []
    | _, _ => []

def QueuedFold.addr (q : QueuedFold) (s : State) : Nat := (((s.home? q.fid q.hp).bind fun h => h.groupAt q.bind).map fun g => g.rbuf + q.off).getD 0

/-- The folds in a stack's queue, and those for the collective engine where no stack is named. -/
def State.foldsOn (s : State) (stack : Option Nat) : List QueuedFold := s.queuedFolds.filter fun q => s.foldStack q.fid (q.addr s) = stack

/-- The operations that stand in a stack's queue. -/
def State.platenOps (s : State) (stack : Nat) : List Op := s.ops.filter fun o => o.stack = some stack && o.phase = .queued && s.opPlaced o

/-- Whether an operation waits under R175 while an earlier one of its forme comes later to its stack, whose queue it then does not hold. -/
def State.opParted (s : State) (o : Op) : Bool :=
  !s.opFree o && s.openOps.any fun e => e.fid = o.fid && decide (e.seq < o.seq) && (e.unsited.isSome || e.arr ≠ 0)

/-- A stack's command queue: PLATEN operations and folds in the order of arrival, the first 256; what finds it full waits where it comes from
(R201, R324). DEDUCED: log entry 122. -/
def State.stackQueue (s : State) (stack : Nat) : List (Op ⊕ QueuedFold) :=
  let ops := ((s.platenOps stack).filter fun o => !s.opParted o).map fun (o : Op) => (max o.seq o.arr, (Sum.inl o : Op ⊕ QueuedFold))
  ((sortBy Prod.fst (ops ++ (s.foldsOn (some stack)).map fun (q : QueuedFold) => (q.arr, Sum.inr q))).take 256).map Prod.snd

/-- What a stack's platen takes next. -/
def State.platenHead (s : State) (stack : Nat) : Option (Op ⊕ QueuedFold) := (s.stackQueue stack).head?

/-- Whether an operation stands at the group boundary at which it stops with its forme (R203). -/
def Op.atStop (o : Op) : Bool := o.stopAt.any fun k => decide (k ≤ o.step)

/-- The entries of one row of a product's tile. -/
def State.rowEntries (s : State) (o : Op) (p : Product) (row : Nat) : List W64 :=
  (upFrom 0 p.n).map fun j => (tileGet (s.galley o.fid) (tileKey p.tile row j)).setWidth 64

/-- With PRESS set, one row of one group step of 1 in 2^K press operations is captured, as it was before the step, in `b`, and after it (R416). -/
def State.auditRow (s b : State) (o : Op) : State :=
  match o.work, s.forme? o.fid with
  | .product p, some f =>
    match s.launch? f.lid with
    | none => s
    | some l =>
      let part := ((s.ctx l.ctx).part).getD 0
      if (s.part part).audctl.getLsbD 0 && ({ s with freeCtr := o.id } : State).selects part 2500001 && o.step = Config.freeNat o.id 2500002 % o.steps then
        let row := Config.freeNat o.id 2500003 % p.m
        let unit := match o.stack with | some k => UnitId.platen k | none => .pressPair (o.site / 2)
        (s.auditPut { id := s.freeCtr, unit := unit, ctx := l.ctx, fid := o.fid, hp := o.hp, pid := none, addr := o.word, tag := l.record.tag
                      who := whoOf l.ctx f.core o.hp f.index, inputs := b.rowEntries o p row, returned := [], outputs := s.rowEntries o p row }).2
      else s
  | _, _ => s

/-- One group step of a running operation, or the whole of one that has no groups; after its last step it ends (R173, R175). -/
def execPressGroupStep (op : Nat) (s : State) : Host.Outcome State Fault Refusal :=
  match s.op? op with
  | none => .next s
  | some o =>
    if o.phase ≠ .running ∨ o.queue ≠ 0 ∨ !s.opPlaced o ∨ s.unitTaken o ∨ o.atStop then .next s
    else if !(s.opMissing o.rest).isEmpty then .next (s.opAsk o)
    else if (s.opFault o.rest).isSome then .next s
    else
      let (t, f, n) := (s.opReach o).opStep o o.step
      let f := o.flags ||| f
      let t := t.onOp op fun x => { x with step := o.step + 1, flags := f }
      let t := match s.sceneOf o.fid, o.work with
        | some sc, .product p => t.count sc.ctx (if p.platen.isSome then 0x04 else 0x03) n
        | _, _ => t
      let t := t.auditRow s o
      let t := if o.step + 1 ≥ o.steps then (t.opSettle { o with flags := f }).opEnded o f none else t
      .next t.stir

/-- An operation of a stopped forme that was running is stopped and listed (R29, R203, R401). -/
def State.cancelOp (s : State) (o : Op) : State :=
  let s := (s.opSpoil o).itemRecord o.fid o.hp [o.stopItem]
  ({ s with ops := s.ops.filter fun x => x.id ≠ o.id } : State).formeCheck o.fid

/-- Whether an operation that runs is stopped with its forme: a press operation at its group boundary. -/
def State.opStopped (s : State) (o : Op) (code : TrapCode) : Bool :=
  code = .cancelled && o.phase = .running && (s.forme? o.fid).any (·.stop.isSome) && (o.queue ≠ 0 || o.atStop)

/-- A press operation whose access is refused, poisoned or lost ends, and is reported failed; one of a stopped forme is stopped (R199, R203). -/
def execPressOpFail (op : Nat) (code : TrapCode) (addr : Nat) (s : State) : Host.Outcome State Fault Refusal :=
  match s.op? op with
  | none => .next s
  | some o =>
    if o.queue = 0 ∧ s.opStopped o code then .next (s.cancelOp o).stir
    else if o.queue = 0 ∧ (o.phase = .queued ∨ o.phase = .running) ∧ s.opFree o ∧ s.opPlaced o ∧ s.opFault o.rest = some (code, addr) then
      .next ((s.opSpoil o).opEnded o o.flags (some (code, addr))).stir
    else .next s

/-! The overflow engine (R348). -/

/-- Bytes of collective staging on a die, and those in use: contributions not yet folded (R324, R348). -/
def stagingBytes : Nat := 2 ^ 24
def State.stagedOn (s : State) (die : Nat) : Nat :=
  sumBy (fun h : Home => if (s.trace h.fid).any (fun f => dieOf f.core = die) then
    sumBy (fun x : Step => sumBy (fun c : Contribution => c.elem.length) (x.parts.take (x.parts.length - x.spilt))) h.steps else 0) s.homes

/-- Entries in a die's launch queue: launches that LAUNCH has submitted, accepted or not, that have not begun (R348, R369). -/
def State.launchesOn (s : State) (die : Nat) : Nat :=
  (s.launches.filter fun l => l.sub.any (fun x => x.1 = die) && l.awaits && l.spilt.isNone).length + (s.accepting.filter fun x => x.die = die && x.spilt.isNone).length

/-- Whether the queue has spilt entries. -/
def State.launchSpilt (s : State) (die : Nat) : Bool := (s.launches.any fun l => l.spilt = some die) || s.accepting.any fun x => x.spilt = some die

/-- The earliest submission of a die's launch queue that stands in its ring. -/
def State.spiltLaunch (s : State) (die : Nat) : Option Nat :=
  (((s.launches.filter fun l => l.spilt = some die).filterMap fun l => l.sub.map Prod.snd) ++ (s.accepting.filter fun x => x.spilt = some die).map Accepting.id).min?

/-- The oldest spilt entry of a queue comes back when the queue has room. -/
def execOverflowRefill (queue site : Nat) (s : State) : Host.Outcome State Fault Refusal :=
  if queue = 5 then
    if s.launchesOn site ≥ queueCap 5 then .next s
    else match s.spiltLaunch site with
      | none => .next s
      | some id => .next { s with
          launches := modifyWhere (fun l => l.sub = some (site, id)) (fun l => { l with spilt := none }) s.launches
          accepting := modifyWhere (fun x => x.id = id) (fun x => { x with spilt := none }) s.accepting }
  else if queue = 6 then
    if s.stagedOn site + 16 > stagingBytes then .next s
    else
      let ring := (s.homes.filter fun h => (s.trace h.fid).any fun f => dieOf f.core = site).flatMap fun h => (h.steps.filter fun x => decide (0 < x.spilt)).map fun x => (h, x)
      let oldest := (ring.map fun r => r.2.spiltAt.headD 0).min?
      match ring.find? fun r => some (r.2.spiltAt.headD 0) = oldest with
      | none => .next s
      | some (h, x) => .next (s.onHome h.fid h.hp fun h => { h with
          steps := modifyWhere (fun y => y.bind = x.bind && y.n = x.n) (fun y => { y with spilt := y.spilt - 1, spiltAt := y.spiltAt.drop 1 }) h.steps })
  else
    let here := s.ops.filter fun o => o.queue = queue && o.site = site && !(s.forme? o.fid).any (·.place = .saved)
    if (here.filter fun o => o.phase = .queued).length ≥ queueCap queue then .next s
    else match here.find? fun o => o.phase = .spilt with
      | none => .next s
      | some o => .next (s.onOp o.id fun x => { x with phase := .queued })

end Sys2Proof.Machine
end

