-- ==== Sys2Proof/Machine/Accept.lean ====
section
/-! DEFINITION. Records that the device reads (R31 to R36), accepting and rejecting launches (R30, R35, R369), and cancel (R28, R337, R344,
R368). -/
namespace Sys2Proof.Machine

/-! Reading records. -/

inductive Fetched where
  | ok (bs : List Byte)
  | missing (l : List (Nat × Need))
  | failed (c : TrapCode)
deriving DecidableEq, Repr

/-- Bytes that the device reads at a virtual address, for an agent that waits with `gs`. -/
def State.fetchVa (s : State) (sc : Scene) (gs : List Granule) (va n : Nat) : Fetched :=
  (pieces va n).foldl (fun acc p =>
    match acc, s.findVa sc gs p.1 .r with
    | .failed c, _ => .failed c
    | _, .refused => .failed .accessViolation
    | .missing l, .miss => .missing (l ++ [(p.1, .r)])
    | .missing l, .at_ _ => .missing l
    | .ok _, .miss => .missing [(p.1, .r)]
    | .ok bs, .at_ l => match s.locFail sc.tenant true l p.2.2 with
      | some c => .failed c
      | none => .ok (bs ++ s.recordRead l p.2.2)) (.ok [])

/-- The scene in which the device reads for a context, with no forme. -/
def State.ctxScene (s : State) (c : Nat) : Scene := ⟨.ctx c, 0, 0, (s.ctx c).tenant, c⟩

/-! The launch record (R31 to R36). -/

def bits (n lo w : Nat) : Nat := n / 2 ^ lo % 2 ^ w

/-- Fields of a launch record but its arguments. -/
def LRec.parse (bs : List Byte) : LRec :=
  let f := packetField bs
  let ct := f 0x08 8
  let sh := f 0x20 8
  { entry := f 0 8, prio := bits ct 13 3, rcrate := bits ct 11 2, satarm := bits ct 10 1 = 1, tnum := bits ct 7 3, tmode := bits ct 6 1 = 1
    chk := bits ct 5 1 = 1, gx := f 0x10 4, gy := f 0x14 4, gz := f 0x18 4
    srows := bits sh 47 10, ropes := bits sh 40 7, gtiles := bits sh 36 4, vmax := bits sh 25 11, lanes := bits sh 18 7, parties := bits sh 12 6
    fslot := (upFrom 0 8).map fun k => BitVec.ofNat 32 (f (0x28 + 4 * k) 4)
    coinKey := BitVec.ofNat 64 (f 0x48 8), coinSrc := f 0x50 8, coinLen := f 0x58 8, latbound := f 0x60 4, handler := f 0x68 8
    done := f 0x80 8, tag := BitVec.ofNat 64 (f 0x88 8), privBase := f 0x90 8, privSz := f 0x98 4 }

def recArgs (bs : List Byte) : Nat × Nat := (packetField bs 0x70 8, packetField bs 0x78 2)

/-- A format slot's reserved fields and codes (R34). -/
def slotSound (w : W32) : Bool :=
  let n := w.toNat
  let f := n % 256
  bits n 24 8 = 0 && bits n 8 9 = 0 && decide (bits n 21 3 ≤ 4) && decide (bits n 19 2 ≤ 1) && (f = 0 || (slotFmt w).isSome)
    && bits n 17 2 = (if ((slotFmt w).any Fmt.isBq) then 1 else 0)

/-- The checks of R35 on a record's own fields. -/
def LRec.sound (r : LRec) (bs : List Byte) : Bool :=
  let f := packetField bs
  let ct := f 0x08 8
  let sh := f 0x20 8
  bits ct 16 48 = 0 && bits ct 0 5 = 0 && bits sh 57 7 = 0 && bits sh 0 12 = 0 && f 0x1C 4 = 0 && f 0x64 4 = 0 && f 0x7A 6 = 0 && f 0x9C 100 = 0
  && decide (r.rcrate ≤ 2) && decide (1 ≤ r.gx ∧ 1 ≤ r.gy ∧ 1 ≤ r.gz) && decide (r.srows ≤ 768) && decide (r.ropes ≤ 64) && decide (r.gtiles ≤ 8)
  && decide (1 ≤ r.vmax ∧ r.vmax ≤ 1280) && decide (4 ≤ r.lanes ∧ r.lanes ≤ 64) && r.lanes % 4 = 0 && decide (1 ≤ r.parties ∧ r.parties ≤ 32)
  && (if r.tmode then decide (1 ≤ r.tnum ∧ r.tnum ≤ 4) else r.tnum = 0)
  && r.fslot.all slotSound
  && r.entry % 8 = 0 && r.coinSrc % 4 = 0 && (r.coinSrc = 0) = (r.coinLen = 0) && (recArgs bs).1 % 8 = 0 && decide ((recArgs bs).2 ≤ 48)
  && r.done % 32 = 0 && r.privBase % 2 ^ 16 = 0 && r.privSz % 16 = 0 && decide (r.privSz ≤ 2 ^ 16)

/-- The other core of a spread (R49). -/
def neighbour (core : Nat) : Nat := Nat.xor core 1

/-- The partition's quota on one core, none where it has none there (R376). -/
def State.coreQuota (s : State) (part core : Nat) : Option Quota :=
  let q := (s.part part).quota (dieOf core)
  if q.cores.getLsbD (core % 16) && decide (core < s.cores) then some q else none

/-- Whether one forme fits an empty core of the partition (R35). -/
def State.fitsSome (s : State) (part : Nat) (r : LRec) : Bool :=
  (upFrom 0 s.cores).any fun c =>
    match s.coreQuota part c with
    | none => false
    | some q => decide (r.parties ≤ min q.pslot 128 ∧ r.parties * r.commitment ≤ min q.rows 7936 ∧ r.srows ≤ q.srows ∧ r.gtiles ≤ q.gtiles ∧ r.ropes ≤ q.ropes)
        && (r.gtiles = 0 || (s.coreQuota part (neighbour c)).any fun q => decide (r.gtiles ≤ q.gtiles))

inductive RecordRead where
  | missing (l : List (Nat × Need))
  | misaligned
  | unreadable
  /-- rejected under R35: the block's address and the formes that it counts -/
  | rejected (done total : Nat)
  | ok (r : LRec)
deriving DecidableEq, Repr

def LRec.total (r : LRec) : Nat := r.gx * r.gy * r.gz

/-- The record at an address, and its arguments, are reached as a read reaches them (R410). -/
def State.reachRecord (s : State) (sc : Scene) (gs : List Granule) (va : Nat) : State :=
  let s := s.reachVa sc.sp gs va 256
  match s.fetchVa sc gs va 256 with
  | .ok bs => s.reachVa sc.sp gs (recArgs bs).1 (8 * (recArgs bs).2)
  | _ => s

/-- Read and check a launch record with its arguments, as they stand now (R31, R35). -/
def State.readRecord (s : State) (sc : Scene) (gs : List Granule) (va : Nat) : RecordRead :=
  if va % 256 ≠ 0 then .misaligned
  else match s.fetchVa sc gs va 256 with
    | .missing l => .missing l
    | .failed _ => .unreadable
    | .ok bs =>
      let r := LRec.parse bs
      if !r.sound bs || !s.fitsSome (((s.ctx sc.ctx).part).getD 0) r then .rejected r.done r.total
      else
        let (args, n) := recArgs bs
        match s.fetchVa sc gs args (8 * n) with
        | .missing l => .missing l
        | .failed _ => .rejected r.done r.total
        | .ok as => .ok { r with args := (upFrom 0 n).map fun k => BitVec.ofNat 64 (packetField as (8 * k) 8) }

/-! Accepting and rejecting (R30, R35). -/

/-- The completion block of a record that is rejected, or whose unit is withdrawn before it was accepted: all its children withdrawn (R30, R344). A
misaligned DONE names no block, and no log record is written for it (R339). DESIGN CHOICE: log entry 123. -/
def State.deadBlock (s : State) (c at_ total status pk : Nat) : State :=
  if at_ % 32 ≠ 0 then s
  else
    let b : Block := { addr := some at_, total := total, wdr := total, status := status }
    blockStatus (blockPut (blockClear s c b pk) c b 16 (.add (BitVec.ofNat 64 total)) pk) c b pk

/-- Accept a launch: its block is zeroed, and its formes wait to be placed (R30, R31). -/
def State.acceptLaunch (s : State) (l : Launch) : State :=
  let after := if l.parent.isSome then [] else ((l.queue.bind (s.queue? l.ctx)).map Queue.after).getD []
  let l := { l with lid := s.nextId, since := s.freeCtr, block := { addr := some l.record.done, tag := l.record.tag, total := l.record.total }, after := after }
  let s := blockClear s l.ctx l.block (s.packetOf l)
  { s.bump with launches := s.launches ++ [l] }

/-- A launch that a launch issues with LAUNCH (R369). -/
def Launch.child (p : Launch) (r : LRec) (x : Accepting) : Launch :=
  { lid := 0, ctx := p.ctx, record := r, block := {}, key := p.key, prio := min r.prio p.prio, queue := p.queue, gid := p.gid
    tail := if x.tail then some p.lid else none, parent := some p.lid, spilt := x.spilt, sub := some (x.die, x.id), line := x.line }

/-- A new node of a graph for a launch that joins it (R341). -/
def State.joinGraph (s : State) (gid : Option Nat) (va lid : Nat) : State :=
  match gid with
  | none => s
  | some g => s.onGraph g fun g => { g with nodes := g.nodes ++ [{ record := va, deps := [], lid := some lid }], block := { g.block with total := g.block.total + 1 } }

/-- The result of a LAUNCH becomes known. -/
def State.setResult (s : State) (id : Nat) (v : W64) : State :=
  let put := fun (d : Dest) => match d with | .sreg n _ => .sreg n v | d => d
  { s with longs := modifyWhere (fun x => x.id = id) (fun x => { x with dests := x.dests.map put }) s.longs }

/-- Try to accept a submitted record (R31, R369): accepted, rejected, or still waiting for translations. DEDUCED: log entry 67. -/
def State.acceptTry (s : State) (x : Accepting) : State :=
  match s.launch? x.parent, s.sceneOf x.fid with
  | some p, some sc =>
    let s := s.reachRecord sc x.wait x.addr
    let drop : State := { s with accepting := s.accepting.filter fun y => y.id ≠ x.id }
    match s.readRecord sc x.wait x.addr with
    | .missing l =>
      let gs := s.granulesOf x.wait l
      let s := s.askAll sc.sp gs
      { s with accepting := modifyWhere (fun y => y.id = x.id) (fun y => { y with wait := keeping y.wait gs }) s.accepting }
    | .misaligned | .unreadable => (drop.setResult x.id 4).formeCheck x.fid
    | .rejected done total => ((drop.deadBlock p.ctx done total 4 (s.packetOf p)).setResult x.id 4).formeCheck x.fid
    | .ok r =>
      let lid := s.nextId
      (((drop.acceptLaunch (p.child r x)).joinGraph p.gid x.addr lid).setResult x.id 0).formeCheck x.fid
  | _, _ => { s with accepting := s.accepting.filter fun y => y.id ≠ x.id }

/-! Withdrawing and stopping (R28, R344). -/

/-- Cancel a launch: what has not begun is withdrawn, what has begun is stopped (R28). -/
def State.cancelLaunch (s : State) (lid : Nat) : State :=
  (s.onLaunch lid fun l => { l with cancel := true }).stopLaunch lid .cancelled

/-- Cancel a graph. -/
def State.cancelGraph (s : State) (gid : Nat) : State :=
  let s := s.onGraph gid fun g => { g with cancel := true, nodes := g.nodes.map fun n => if n.status = 0 && n.lid.isNone then { n with status := 2 } else n }
  let s := (s.launches.filter fun l => l.gid = some gid && l.block.status = 0).foldl (fun s l => s.cancelLaunch l.lid) s
  s.graphCheck gid

/-- Cancel a phase of a job: its graphs are cancelled, and its barrier ends it; one that has not begun is withdrawn when its turn comes (R28, R344). -/
def State.cancelPhase (s : State) (jid k : Nat) : State :=
  match s.job? jid with
  | none => s
  | some j =>
    let s := s.onJob jid fun j => { j with phases := j.phases.modify k fun p => { p with cancel := true } }
    let gs := match j.phases[k]? with | some p => [p.compG, p.commG].filterMap id | none => []
    gs.foldl (fun s g => if (s.graph? g).any fun g => g.block.status = 0 then s.cancelGraph g else s) s

/-- Cancel a job: the phase that it is in is cancelled, what PHASE has carried on from an earlier one is stopped, and the later ones are
withdrawn at its barrier. -/
def State.cancelJob (s : State) (jid : Nat) : State :=
  match s.job? jid with
  | none => s
  | some j =>
    let s := (s.onJob jid fun j => { j with cancel := true }).cancelPhase jid j.cur
    let carried := (j.phases.take j.cur).flatMap fun p => [p.compG, p.commG].filterMap id
    carried.foldl (fun s g => if (s.graph? g).any fun g => g.block.status = 0 then s.cancelGraph g else s) s

/-- A cancel by block (R344): the state, and whether the unit was found, neither complete nor cancelled. -/
def State.cancelBlock (s : State) (c at_ : Nat) : State × Bool :=
  let here := fun (b : Block) => b.addr = some at_ && b.status = 0
  match s.launches.find? fun l => l.ctx = c && here l.block && !l.cancel with
  | some l => (s.cancelLaunch l.lid, true)
  | none =>
    match s.graphs.find? fun g => g.ctx = c && here g.block && !g.cancel with
    | some g => (s.cancelGraph g.gid, true)
    | none =>
      match s.jobs.find? fun j => j.ctx = c && here j.block && !j.cancel with
      | some j => (s.cancelJob j.jid, true)
      | none =>
        let open_ := fun (j : Job) (k : Nat) => (j.phases[k]?).any fun p => here p.block && !p.cancel && !p.ended
        match (s.jobs.filter fun j => j.ctx = c && j.block.status = 0).findSome? fun j =>
            ((upFrom 0 j.phases.length).find? fun k => decide (j.cur ≤ k) && open_ j k).map fun k => (j.jid, k) with
        | some (jid, k) => (s.cancelPhase jid k, true)
        | none => (s, false)

/-! Packets (R333, R334, R337). -/

def Packet.kind (p : Packet) : Nat := packetField p.bytes 0 1
def Packet.flags (p : Packet) : Nat := packetField p.bytes 1 1
def Packet.key (p : Packet) : W64 := BitVec.ofNat 64 (packetField p.bytes 8 8)
def Packet.super (p : Packet) : Nat := bits p.flags 1 2
def Packet.barrier (p : Packet) : Bool := p.flags % 2 = 1

def State.onPacket (s : State) (c k idx : Nat) (f : Packet → Packet) : State :=
  s.onQueue c k fun q => { q with packets := modifyWhere (fun p => p.idx = idx) f q.packets }

/-- The fields that the block of a packet withdrawn before its parse needs, each by its offset and length: DONE, and those that count its children
(R344). -/
def namedFields (kind : Nat) : List (Nat × Nat) :=
  match kind with
  | 2 => [(0x80, 8), (0x10, 4), (0x14, 4), (0x18, 4)]
  | 3 => [(0x10, 8), (0x08, 2)]
  | _ => [(0x10, 8), (0x08, 4)]

/-- DONE and the number of children, with whether the counts are in range, of the values of those fields (R344). -/
def withdrawnFields (kind : Nat) (vs : List Nat) : Nat × Nat × Bool :=
  let n := vs.drop 1
  (vs.headD 0, n.foldl (· * ·) 1, n.all fun x => decide (1 ≤ x ∧ x ≤ (match kind with | 2 => 2 ^ 32 - 1 | 3 => 4096 | _ => 65535)))

/-- Some bytes each, read for an agent that waits with `gs`: what misses, what fails, or their values. -/
def State.fetchFields (s : State) (sc : Scene) (gs : List Granule) (va : Nat) (l : List (Nat × Nat)) : List (Nat × Need) × Bool × List Nat :=
  l.foldl (fun acc f => match s.fetchVa sc gs (va + f.1) f.2 with
    | .missing m => (acc.1 ++ m, acc.2.1, acc.2.2)
    | .failed _ => (acc.1, true, acc.2.2)
    | .ok bs => (acc.1, acc.2.1, acc.2.2 ++ [natOfBytes bs])) ([], false, [])

/-- QLOG records a reason for a packet, without counting a rejection (R344). -/
def State.queueReason (s : State) (c k idx reason : Nat) : State :=
  (s.onQueue c k fun q => { q with rejIdx := idx, reason := reason }).queueLog c k idx

/-- The end of a withdrawal before the parse: the block that its record names, and the packet's retirement (R344). -/
def State.finishWithdrawn (s : State) (c k idx : Nat) : State :=
  match (s.queue? c k).bind fun q => q.packets.find? fun p => p.idx = idx with
  | none => s
  | some p =>
    if p.kind < 2 ∨ 4 < p.kind then s.retire c k idx
    else
      let s := (namedFields p.kind).foldl (fun s f => s.reachVa (.ctx c) p.wait (packetField p.bytes 0x10 8 + f.1) f.2) s
      match s.fetchFields (s.ctxScene c) p.wait (packetField p.bytes 0x10 8) (namedFields p.kind) with
      | (_, true, _) => (s.queueReason c k idx 4).retire c k idx
      | (l@(_ :: _), false, _) =>
        let gs := s.granulesOf p.wait l
        (s.askAll (.ctx c) gs).onPacket c k idx fun p => { p with wait := gs }
      | ([], false, vs) =>
        let (done, total, ok) := withdrawnFields p.kind vs
        if !ok ∨ done % 32 ≠ 0 then (s.queueReason c k idx 3).retire c k idx
        else (s.deadBlock c done total 2 idx).retire c k idx

/-- QLOG counts a withdrawn packet (R338). -/
def State.countWithdrawn (s : State) (c k idx : Nat) : State := (s.onQueue c k fun q => { q with supCnt := q.supCnt + 1 }).queueLog c k idx

/-- Whether the work of an accepted packet has begun (R28). -/
def State.begun (s : State) : Unit_ → Bool
  | .launch l => (s.launch? l).any fun l => decide (0 < l.next)
  | .graph g => s.launches.any fun l => l.gid = some g && decide (0 < l.next)
  | .job _ => true

def State.cancelUnit (s : State) : Unit_ → State
  | .launch l => s.cancelLaunch l
  | .graph g => s.cancelGraph g
  | .job j => s.cancelJob j

def State.unitCancelled (s : State) : Unit_ → Bool
  | .launch l => (s.launch? l).any (·.cancel)
  | .graph g => (s.graph? g).any (·.cancel)
  | .job j => (s.job? j).any (·.cancel)

/-- Withdraw one packet, or stop its work where `stop` holds (R337, R344); the answer says whether it was affected. -/
def State.withdrawOne (s : State) (c k : Nat) (p : Packet) (stop : Bool) : State × Bool :=
  match p.state with
  | .fetched | .parsing =>
    if p.kind = 2 || p.kind = 3 || p.kind = 4 || p.kind = 5 then
      (((s.onPacket c k p.idx fun p => { p with state := .withdrawn, wait := [] }).countWithdrawn c k p.idx).finishWithdrawn c k p.idx, true)
    else (s, false)
  | .accepted =>
    match p.work with
    | none => (s, false)
    | some u =>
      if s.unitCancelled u then (s, false)
      else if !s.begun u then ((s.countWithdrawn c k p.idx).cancelUnit u, true)
      else if stop then (s.cancelUnit u, true) else (s, false)
  | _ => (s, false)

/-! The parse order (R332, R336). -/

/-- A packet whose BARRIER, if it has one, is met (R333). -/
def Queue.free (q : Queue) (p : Packet) : Bool := !p.barrier || !q.packets.any fun x => decide (x.idx < p.idx)

def Queue.at_ (q : Queue) (n : Nat) : Option Packet := q.packets.find? fun p => p.idx = n

/-- Move the parse point past what needs no parse, rejecting each bad packet at its turn (R336, R338). -/
def State.queueTurn : Nat → State → Nat → Nat → State
  | 0, s, _, _ => s
  | n + 1, s, c, k =>
    match s.queue? c k with
    | none => s
    | some q =>
      if !q.en || q.fetch ≤ q.parse then s.queueIndex c k
      else
        let next := s.onQueue c k fun q => { q with parse := q.parse + 1 }
        match q.at_ q.parse with
        | none => State.queueTurn n next c k
        | some p =>
          if p.state ≠ .fetched && p.state ≠ .parsing then State.queueTurn n next c k
          else match p.bad with
            | some r => if q.free p then State.queueTurn n (next.reject c k p.idx r) c k else s.queueIndex c k
            | none => s.queueIndex c k

def State.queueGo (s : State) (c k : Nat) : State := State.queueTurn 130 s c k

/-- Act on every packet of a queue below `limit` that carries a key and has not retired, and, where asked, on the launches that their work issued
(R337, R344). DEDUCED: log entry 66. -/
def State.cancelKey (s : State) (c k : Nat) (key : W64) (limit : Option Nat) (stop children : Bool) : State × Nat :=
  match s.queue? c k with
  | none => (s, 0)
  | some q =>
    let hit := q.packets.filter fun p => p.key = key && (match limit with | some n => decide (p.idx < n) | none => true)
    let from_ := fun (l : Launch) => (s.launchPacket s.launches.length l).any fun n => hit.any fun p => p.idx = n
    let kids := if children then s.launches.filter fun l => l.ctx = c && l.queue = some k && l.key = key && l.parent.isSome && l.block.status = 0 && !l.cancel && from_ l else []
    let one := fun (acc : State × Nat) (r : State × Bool) => (r.1, acc.2 + if r.2 then 1 else 0)
    let acc := hit.foldl (fun acc p => one acc (acc.1.withdrawOne c k p stop)) (s, 0)
    let acc := kids.foldl (fun acc l =>
      match acc.1.launch? l.lid with
      | some m => if m.block.status ≠ 0 || m.cancel then (acc.1, acc.2 + 1) else if stop || m.next = 0 then (acc.1.cancelLaunch l.lid, acc.2 + 1) else acc
      | none => (acc.1, acc.2 + 1)) acc
    (acc.1.queueGo c k, acc.2)

end Sys2Proof.Machine
end

