-- ==== Sys2Proof/Machine/Control.lean ====
section
/-! DEFINITION. Control flow (R52, R83, R355 to R360, R330), waits (R361, R362, R367), ropes (R350 to R353, R363, R364), phases (R365), counters
(R366, R367), CANCEL and LAUNCH (R368, R369), TRAP, BKPT and ERET (R405, R406). -/
namespace Sys2Proof.Machine

/-! Transfers (R83, R355). -/

/-- The check of a transfer's target: none where it is a cairn, or the state in which the word traps or waits (R83). The resume point of
BAD_CAIRN is word 0 of the pitch (R404). A target that memory fails to give is found where it is fetched (R400). DEDUCED: log entry 35. DEDUCED: log entry 36. -/
def State.badTarget (s : State) (a : Agent) (i : Instr) (va : Nat) : Option State :=
  if va % 8 ≠ 0 then some (s.trapWord a i 0 .badCairn (some va) a.p.active)
  else match s.fetchWord a.p a.f.core a.l va with
    | .ok w => if isCairn w then none else some (s.trapWord a i 0 .badCairn (some va) a.p.active)
    | .error (.miss x) => some (s.parkOn a.p.pid a.l.space a.l.ctx (s.granulesOf [] [(x, .x)]))
    | .error (.trap c _ _) => if boundaryOnly c then none else some (s.trapHere a i c (some va) a.p.active)
    | .error (.fall _) => some (s.trapWord a i 0 .badCairn (some va) a.p.active)

/-- The party's pitch ends and it stands at a cairn. -/
def State.goTo (s : State) (a : Agent) (i : Instr) (va : Nat) : State :=
  a.onParty (s.advance a i) fun p => { p with pc := va, entry := .block, met := false }

/-- A transfer to a checked target. -/
def State.transfer (s : State) (a : Agent) (i : Instr) (va : Nat) (set : Party → Party) : Eff :=
  match s.badTarget a i va with
  | some t => .other t
  | none => .other (a.onParty (s.goTo a i va) set)

/-- The target of a CD word (R355). -/
def Agent.cdTarget (a : Agent) (i : Instr) (off : BitVec 45) : Nat := (((a.addr i : Int) + 8 * off.toInt) % 2 ^ 64).toNat

def execBra (o : CD) (s : State) : Host.Outcome State Fault Refusal :=
  s.word (.bra o) false fun a => s.transfer a (.bra o) (a.cdTarget (.bra o) o.off) id

def execBrx (o : CX) (s : State) : Host.Outcome State Fault Refusal :=
  s.word (.brx o) false fun a => (s.branched a.p [.s o.ua]).transfer a (.brx o) (s.sVal a o.ua 0).toNat id

/-- A call pushes the word after its block (R357). -/
def State.callTo (s : State) (a : Agent) (i : Instr) (va : Nat) : Eff :=
  if a.p.depth ≥ 255 then .other (s.trapHere a i .accessViolation (some va) a.p.active)
  else s.transfer a i va fun p => { p with calls := a.c.blockEnd :: p.calls }

def execCall (o : CD) (s : State) : Host.Outcome State Fault Refusal :=
  s.word (.call o) false fun a => s.callTo a (.call o) (a.cdTarget (.call o) o.off)

def execCallx (o : CX) (s : State) : Host.Outcome State Fault Refusal :=
  s.word (.callx o) false fun a => (s.branched a.p [.s o.ua]).callTo a (.callx o) (s.sVal a o.ua 0).toNat

/-- The party exits at the end of the pitch (R359). -/
def State.exitWord (s : State) (a : Agent) (i : Instr) : State :=
  let s := s.advance a i
  if (s.party? a.p.pid).isSome then s.exitLanes a.p.pid else s

def execExit (o : UF) (s : State) : Host.Outcome State Fault Refusal :=
  s.word (.exit o) false fun a => .other (s.exitWord a (.exit o))

def execRet (o : UF) (s : State) : Host.Outcome State Fault Refusal :=
  s.word (.ret o) false fun a =>
    match a.p.calls with
    | [] => .other (s.exitWord a (.ret o))
    | r :: rest => s.transfer a (.ret o) r fun p => { p with calls := rest }

/-! BRC (R330, R356). -/

/-- Lanes of the two successors of a per-lane branch. -/
def State.brcTest (s : State) (a : Agent) (o : CD) : Mask :=
  let row := s.src32 a ⟨.c o.cn, 0, false⟩ 0
  let t := maskOf fun i => rowGet row i ≠ 0
  (if o.neg then ~~~t else t) &&& a.p.active

/-- Divide the party, defer one side, or hold the branch (R22, R330). The pitch has closed; the fall-through is where the party stands. DEDUCED: log entry 31. -/
def State.diverge (s : State) (pid : Nat) (taken : Nat) (tl fl : Mask) (rcv : Option Nat) (mayDefer : Bool) : State :=
  match s.party? pid with
  | none => s
  | some p =>
    match s.splitSlot p with
    | some k =>
      ((s.onParty pid fun p => { p with wait := .none }).split pid tl fl taken p.pc .block p.entry ⟨rcv, p.depth⟩ k).1.siblingsChanged p.fid p.hp
    | none =>
      if !mayDefer then s
      else if p.defer.length ≥ 8 then s.onParty pid fun p => { p with wait := .slot taken p.pc tl fl rcv }
      else
        let firstTaken := match lowestLane (tl ||| fl) with | some i => tl.getLsbD i | none => true
        let d : Deferral := { other := if firstTaken then p.pc else taken, entry := if firstTaken then p.entry else .block
                              l1 := if firstTaken then tl else fl, l2 := if firstTaken then fl else tl, rcv := rcv, depth := p.depth, call := p.calls }
        (s.onParty pid fun p => { p with
          em := d.l1, pc := if firstTaken then taken else p.pc, entry := if firstTaken then .block else p.entry, met := false
          defer := d :: p.defer, hist := { sid := 2 * s.nextId } :: p.hist }).bump

/-- The word that a fall-through must find to be a cairn before a party splits (R83). -/
def State.badFall (s : State) (a : Agent) (i : Instr) : Option State := s.badTarget a i a.c.blockEnd

/-- Where several targets of a split are bad, the taken one traps before the fall-through, and that before the reconvergence point. DESIGN
CHOICE: log entry 105. -/
def execBrc (o : CD) (s : State) : Host.Outcome State Fault Refusal :=
  s.word (.brc o) false fun a =>
    let i := Instr.brc o
    let t := s.brcTest a o
    let s := s.branched a.p (regNames 1 (.c o.cn))
    let act := a.p.active
    let va := a.cdTarget i o.off
    match o.bmode with
    | .any => if t ≠ 0 then s.transfer a i va id else .other (s.advance a i)
    | .all => if t = act ∧ a.p.em ≠ 0 ∧ act ≠ 0 then s.transfer a i va id else .other (s.advance a i)
    | .lanes =>
      if t = 0 then .other (s.advance a i)
      else if t = act then s.transfer a i va id
      else
        let rcv : Option State := match a.c.rcv with | some r => s.badTarget a i r | none => none
        match s.badTarget a i va, s.badFall a i, rcv with
        | some x, _, _ => .other x
        | _, some x, _ => .other x
        | _, _, some x => .other x
        | _, _, _ => .other ((s.advance a i).diverge a.p.pid va t (act &&& ~~~t) a.c.rcv true)

/-- A branch, or halves that ended apart, held for a party slot go on when one is free (R330). -/
def execBranchHeldRelease (pid : Nat) (s : State) : Host.Outcome State Fault Refusal :=
  match s.party? pid with
  | none => .next s
  | some p =>
    match p.wait with
    | .slot taken _ tl fl rcv => .next (s.diverge pid taken tl fl rcv false)
    | .apart at_ =>
      match p.defer, s.splitSlot p with
      | d :: ds, some k => .next ((s.onParty pid fun p => { p with wait := .none }).partHalves pid d ds at_ k)
      | _, _ => .next s
    | _ => .next s

/-! Waiting (R23, R360 to R362). -/

/-- A reconvergence wait ends once the siblings have issued 16 pitches since the arrival (R23). DEDUCED: log entry 30. -/
def execReconvergeWaitExpiry (pid : Nat) (s : State) : Host.Outcome State Fault Refusal :=
  match s.party? pid with
  | some p => if !s.running p.fid then .next s else match p.wait with
    | .reconv n => if n < 16 then .next s else .next ((s.onParty pid endReconv).siblingsChanged p.fid p.hp)
    | _ => .next s
  | none => .next s

def execNop (o : UF) (s : State) : Host.Outcome State Fault Refusal := s.word (.nop o) false fun _ => .done s

def execFuse (o : UF) (s : State) : Host.Outcome State Fault Refusal :=
  s.word (.fuse o) false fun a => .other (State.atFuse 10 (s.advance a (.fuse o)) a.p.pid (a.addr (.fuse o)))

/-- The party gives way to those that are ready on its core (R361). -/
def State.giveWay (s : State) (a : Agent) (i : Instr) : State :=
  let s := s.advance a i
  let ready := ((s.onCore a.f.core).filter fun q => q.pid ≠ a.p.pid && (s.partyReady q || (q.pitch.isSome && q.park.isEmpty))).map (·.pid)
  a.onParty s fun p => { p with wait := if ready.isEmpty then .none else .turns ready }

def execYield (o : UF) (s : State) : Host.Outcome State Fault Refusal :=
  s.word (.yield o) false fun a => .other (s.giveWay a (.yield o))

def execSleep (o : UF) (s : State) : Host.Outcome State Fault Refusal :=
  s.word (.sleep o) false fun a =>
    if o.imm = 0 then .other (s.giveWay a (.sleep o))
    else .other ((a.onParty (s.advance a (.sleep o)) fun p => { p with wait := .sleep (s.wall + o.imm.toNat * 10 ^ 6) }).siblingsChanged a.p.fid a.p.hp)

def execSleepExpiry (pid : Nat) (s : State) : Host.Outcome State Fault Refusal :=
  match s.party? pid with
  | some p => if !s.running p.fid then .next s else match p.wait with
    | .sleep t => .next (if t ≤ s.wall then s.onParty pid fun p => { p with wait := .none } else s)
    | _ => .next s
  | none => .next s

def execIsync (o : UF) (s : State) : Host.Outcome State Fault Refusal :=
  s.word (.isync o) false fun a => .other ((a.onParty (s.advance a (.isync o)) fun p => { p with wait := .isync }).isyncCheck a.p.pid)

/-! Ropes (R350 to R353, R363, R364). -/

/-- tinfo of ROPE_TIMEOUT (R353). -/
def ropeInfo (k : Nat) (r : Rope) : Nat := k + r.cnt % 256 * 2 ^ 8 + r.expect * 2 ^ 16 + r.gen % 2 ^ 16 * 2 ^ 24

def State.onRope (s : State) (fid k : Nat) (f : Rope → Rope) : State := s.onForme fid fun x => { x with ropes := x.ropes.modify k f }

/-- A party waits at the rope. -/
def Party.atRope (p : Party) (fid k : Nat) : Bool := p.fid = fid && (match p.wait with | .rope j _ => j = k | _ => false)

/-- The watchdog starts with a generation's first arrival or wait (R353). -/
def State.startWatch (s : State) (fid k : Nat) : State :=
  s.onRope fid k fun r => { r with watch := some (r.watch.getD (0, s.wall)) }

/-- When the watchdog of a placed forme's rope fires. -/
def Rope.deadline (r : Rope) : Option Nat := if r.broken then none else r.watch.map fun w => w.2 + (r.belay * 10 ^ 9 - w.1)

/-- A rope word, with its rope: one that the forme lacks traps, and a broken one too where `live` asks (R353, R354). -/
def State.ropeWord (s : State) (i : Instr) (idx : BitVec 8) (live : Bool) (body : Agent → Rope → Eff) : Host.Outcome State Fault Refusal :=
  s.word i false fun a =>
    match a.f.ropes[idx.toNat]? with
    | none => .other (s.trapHere a i .accessViolation (some idx.toNat) a.p.active)
    | some r => if live && r.broken then .other (s.trapHere a i .ropeTimeout (some (ropeInfo idx.toNat r)) a.p.active) else body a r

def execRopeSet (o : UF) (s : State) : Host.Outcome State Fault Refusal :=
  s.ropeWord (.ropeSet o) o.idx false fun a r =>
    let e := (o.imm.extractLsb' 0 6).toNat
    let b := (o.imm.extractLsb' 8 16).toNat
    let s := s.onRope a.p.fid o.idx.toNat fun r => { r with expect := e, belay := if b = 0 then 10000 else b, broken := false }
    let begun := r.cnt ≠ 0 || !r.arrived.isEmpty || s.parties.any fun p => p.atRope a.p.fid o.idx.toNat
    .done (if r.cnt ≥ e then s.ropeRelease a.p.fid o.idx.toNat
      else if begun then s.onRope a.p.fid o.idx.toNat fun r => { r with watch := some (0, s.wall) }
      else s)

/-- Record an arrival of the party; its home party's arrival may be counted (R351). DEDUCED: log entry 32. -/
def State.ropeArrive (s : State) (a : Agent) (k : Nat) : State :=
  let s := (s.startWatch a.p.fid k).onRope a.p.fid k fun r => { r with arrived := if r.arrived.contains a.p.pid then r.arrived else a.p.pid :: r.arrived }
  let mine := fun (p : Party) => p.fid = a.p.fid && p.hp = a.p.hp
  let note := fun (p : Party) => { p with arrSince := if p.arrSince.contains k then p.arrSince else k :: p.arrSince }
  let s := a.onParty (s.joinArrival a.p 1 (a.p.fid, k)) fun p => { p with arrAt := noteAt p.arrAt k s.freeCtr }
  { s with parties := modifyWhere mine note s.parties }

/-- The generation that a wait is for; none where it is the one in which an arrival will be counted (R352). -/
def State.ropeGen (s : State) (p : Party) (r : Rope) (k : Nat) : Option Nat :=
  if p.arrSince.contains k then
    (if (s.siblings p.fid p.hp).any fun q => r.arrived.contains q.pid then none
     else match r.counted.find? fun x => x.1 = p.hp with | some x => x.2 | none => some r.gen)
  else some r.gen

/-- A party begins its wait, which ends at once where its generation has gone (R352). -/
def State.ropeWait (s : State) (a : Agent) (k : Nat) : State :=
  match s.party? a.p.pid, (s.forme? a.p.fid).bind fun f => f.ropes[k]? with
  | some p, some r =>
    let g := s.ropeGen p r k
    let log := ((s.forme? p.fid).map Forme.keyLog).getD []
    if g.any fun g => decide (g < r.gen) then
      let x := r.freed.find? fun x => some x.gen = g
      a.onParty (s.joinPassing [p] 1 (p.fid, k) fun y => x.any fun x => ownAct x.joined y.pid y.at_) fun p => { (match x with | some x => p.passed k x log s.freeCtr | none => p) with arrSince := p.arrSince.filter (· ≠ k) }
    else (a.onParty (s.startWatch a.p.fid k) fun p => { p with wait := .rope k g }).siblingsChanged a.p.fid a.p.hp
  | _, _ => s

def execRopeArv (o : UF) (s : State) : Host.Outcome State Fault Refusal :=
  s.ropeWord (.ropeArv o) o.idx true fun a _ =>
    .done (((s.finishIinvs a.p.pid .frm).ropeArrive a o.idx.toNat).ropeCount a.p.fid a.p.hp o.idx.toNat)

def execRopeWait (o : UF) (s : State) : Host.Outcome State Fault Refusal :=
  s.ropeWord (.ropeWait o) o.idx true fun a _ => .other ((s.advance a (.ropeWait o)).ropeWait a o.idx.toNat)

/-- The wait begins before the arrival is counted, so that a party whose own arrival releases the rope is released by it (R46, R364). -/
def execRopeSync (o : UF) (s : State) : Host.Outcome State Fault Refusal :=
  s.ropeWord (.ropeSync o) o.idx true fun a _ =>
    let s := ((s.finishIinvs a.p.pid .frm).advance a (.ropeSync o)).ropeArrive a o.idx.toNat
    let s := a.onParty s fun p => { p with wait := .rope o.idx.toNat none }
    .other ((s.ropeCount a.p.fid a.p.hp o.idx.toNat).siblingsChanged a.p.fid a.p.hp)

/-- The watchdog of a generation that has begun and has not been released fires (R353). -/
def execBelayWatchdogFire (fid rope : Nat) (s : State) : Host.Outcome State Fault Refusal :=
  match (s.forme? fid).bind fun f => (f.ropes[rope]?).map fun r => (f, r) with
  | none => .next s
  | some (f, r) =>
    let waits := fun (p : Party) => p.atRope fid rope
    if f.place ≠ .placed || !r.deadline.any (fun t => decide (t ≤ s.wall)) then .next s
    else
      let x : Pending := { code := .ropeTimeout, tinfo := some (ropeInfo rope r) }
      let s := s.onRope fid rope fun r => { r with broken := true, watch := none }
      .next { s with parties := modifyWhere waits (fun p => { p with wait := .none, pending := addPending p.pending { x with inside := p.hnd } }) s.parties }

/-! Phases (R365). -/

def State.jobOf (s : State) (l : Launch) : Option Nat := (l.gid.bind s.graph?).bind (·.jid)

def execPhase (o : UF) (s : State) : Host.Outcome State Fault Refusal :=
  s.word (.phase o) false fun a =>
    let s := s.finishIinvs a.p.pid .dev
    match s.jobOf a.l with
    | some j => .other (a.onParty ((s.joinArrival a.p 3 (j, 64)).advance a (.phase o)) fun p => { p with wait := .phase })
    | none => .other (a.onParty ((s.joinMark a.p fun x => { x with acq := some 3, rel := some 3 }).advance a (.phase o)) fun p => p.ordered s.freeCtr)

/-! Counters (R366, R367). -/

/-- A uniform access at a place that has been found. -/
def accAt (va n : Nat) (need : Need) (l : Loc) : Acc :=
  { lane := 255, comp := 0, addr := va, need := need, parts := match l with | .pa p => [.frame p n] | .spad _ o => [.spad o n] }

def execSignal (o : UF) (s : State) : Host.Outcome State Fault Refusal :=
  let i := Instr.signal o
  s.word i false fun a =>
    let va := (s.sVal a o.ua 0).toNat
    let v := (s.sVal a o.ub 1).toNat
    if va % 8 ≠ 0 then .other (s.trapHere a i .misaligned (some va) 0)
    else match s.once a i va .rw with
      | .error t => .other t
      | .ok l =>
        let x := accAt va 8 .rw l
        match (if a.l.record.chk then s.touchedBy a true [x] else none) with
        | some t => .other (s.trapHere a i .pressTouch (some t) 0)
        | none =>
          let s := ((s.finishIinvs a.p.pid (imScope o.imm)).sealReads a.p).approach a (imScope o.imm = .sys) true (l, 8)
          match s.accFail a (o.idx ≠ 1) [(l, 8)] with
          | some c => .done (s.failAccess a i x c)
          | none =>
            let (s, bs) := s.fetchAcc a i x [(l, 8)]
            let old := natOfBytes bs
            let new := match o.idx.toNat with | 0 => (old + v) % 2 ^ 64 | 1 => v | _ => max old v
            let t := s.putAcc a i x [(l, 8)] (bytesOfNat 8 new)
            .done (a.onParty (if imScope o.imm = .sys then t.atHome l else t) fun p => { p with signalled := noteAt p.signalled l.key s.freeCtr })

/-- The comparisons of R335. -/
def compare (cmp : Nat) (x y : W64) : Bool :=
  match cmp with
  | 0 => x = y
  | 1 => x ≠ y
  | 2 => y.toNat ≤ x.toNat
  | 3 => x.toNat < y.toNat
  | 4 => y.toInt ≤ x.toInt
  | _ => x.toInt < y.toInt

/-- The read that satisfies a WAITC is an acquire, after the values that satisfied it (R253, R367). -/
def State.joinCounter (s : State) (a : Agent) (l : Loc) (scope : Nat) : State :=
  if s.alone then s
  else s.joinRead { id := s.actId, at_ := s.freeCtr, pid := a.p.pid, line := a.p.ancestry s.freeCtr, fid := a.p.fid, hp := a.p.hp, die := dieOf a.f.core
                    reads := [(l.key, 16)], strong := true, acq := some scope } []

/-- One read of a counter that a party waits for: its end by a failure, whose trap has the counter's address in tinfo, by its condition, or not (R367).
The party has closed its pitch. DEDUCED: log entry 108. -/
def State.counterRead (s : State) (a : Agent) (i : Nat) (w : Wait) : State :=
  match w with
  | .counter base idx va cmp sc th _ =>
    let w := Wait.counter base idx va cmp sc th s.freeCtr
    let again := fun (c : TrapCode) (s : State) =>
      (a.onParty s fun p => { p with wait := .none, park := [], pc := base, entry := .inside, skip := idx }).due a.p.pid
        { code := c, tinfo := some va, items := [{ ikind := 1, code := c, loc := i, addr := va }] }
    match (s.sceneOf a.p.fid).map fun sc => s.findVa sc a.p.park va .r with
    | some (.at_ l) =>
      let s := (s.sealReads a.p).approach a false false (l, 8)
      match s.accFail a true [(l, 8)] with
      | some c => again c s
      | none =>
        let bs := s.accRead a (accAt va 8 .r l) [(l, 8)]
        if compare cmp (BitVec.ofNat 64 (natOfBytes bs)) th then
          a.onParty (s.joinCounter a l sc) fun p => { p.ordered (notedAt p.signalled l.key) with wait := .none, park := [] }
        else a.onParty s fun p => { p with wait := w, park := [] }
    | some .miss =>
      let gs := s.granulesOf [] [(va, .r)]
      (a.onParty (s.askAll a.l.space gs) fun p => { p with wait := w, park := gs }).siblingsChanged a.p.fid a.p.hp
    | _ => again .accessViolation s
  | _ => s

def execWaitc (o : UF) (s : State) : Host.Outcome State Fault Refusal :=
  let i := Instr.waitc o
  s.word i false fun a =>
    let va := (s.sVal a o.ua 0).toNat
    if va % 8 ≠ 0 then .other (s.trapHere a i .misaligned (some va) 0)
    else match s.once a i va .r with
      | .error t => .other t
      | .ok l =>
        match (if a.l.record.chk then s.touchedBy a false [accAt va 8 .r l] else none) with
        | some t => .other (s.trapHere a i .pressTouch (some t) 0)
        | none => .other ((s.advance a i).counterRead a (a.addr i) (.counter a.c.base a.c.idx va o.idx.toNat (scopeRank (imScope o.imm)) (s.sVal a o.ub 1) 0))

/-- A waiting party reads its counter again (R367). DEDUCED: log entry 68. -/
def execWaitcPoll (pid : Nat) (s : State) : Host.Outcome State Fault Refusal :=
  match s.party? pid with
  | none => .next s
  | some p =>
    match p.wait, s.forme? p.fid, s.home? p.fid p.hp with
    | .counter base idx va cmp sc th seen, some f, some h =>
      match s.launch? f.lid with
      | none => .next s
      | some l =>
        if !s.running p.fid ∨ (p.park.any fun g => g.verdict = .waiting) then .next s
        else
          let c : Pitch := { base := base, words := [], awaits := [], after := p.pc, last := false }
          .next ((s.counterRead ⟨p, f, h, l, c⟩ (base + 8 * idx) (.counter base idx va cmp sc th seen)).stir)
    | _, _, _ => .next s

/-! CANCEL and LAUNCH (R368, R369). -/

def execCancel (o : UF) (s : State) : Host.Outcome State Fault Refusal :=
  let i := Instr.cancel o
  s.word i false fun a =>
    let t := s.sVal a o.ua 0
    let s := (s.finishIinvs a.p.pid .dev).joinLaunch a.p
    let (s', n) : State × Nat :=
      if o.idx = 0 then let (s', f) := s.cancelBlock a.l.ctx t.toNat; (s', if f then 1 else 0)
      else match a.l.queue with
        | some k => if t = 0 then (s, 0) else s.cancelKey a.l.ctx k t none (o.imm.getLsbD 0) true
        | none => (s, 0)
    match o.d with
    | .s d => .done (s'.addLong a i [.sreg d (BitVec.ofNat 64 n)] [])
    | _ => .done s'

/-- Where a launch that is submitted waits (R348, R349). -/
def State.admitLaunch (s : State) (part die : Nat) : Option (Option Nat) :=
  if s.launchesOn die < queueCap 5 && !s.launchSpilt die then some none
  else if s.ringRoom part die 64 then some (some die) else none

def execLaunch (o : UF) (s : State) : Host.Outcome State Fault Refusal :=
  let i := Instr.launch o
  s.word i true fun a =>
    let die := dieOf a.f.core
    match s.admitLaunch (s.partOf a.l.lid) die with
    | none => .other (s.trapHere a i .queueQuota (some (quotaInfo 5 a.f.core die)) 0)
    | some sp =>
      let s := (s.finishIinvs a.p.pid .dev).joinLaunch a.p
      let id := s.nextId
      let s := match o.d with | .s d => s.addLong a i [.sreg d 0] [] | _ => s.bump
      let x : Accepting := { id := id, pid := a.p.pid, fid := a.p.fid, parent := a.l.lid, addr := (s.sVal a o.ua 0).toNat, tail := o.idx = 1, die := die, spilt := sp, line := a.p.ancestry s.freeCtr }
      .done (({ s.emit a.p.pid [s.sVal a o.ua 0, o.idx.setWidth 64] with accepting := s.accepting ++ [x] } : State).acceptTry x)

/-! TRAP, BKPT and ERET (R405, R406). -/

def execTrap (o : UF) (s : State) : Host.Outcome State Fault Refusal :=
  s.word (.trap o) false fun a => .other (s.trapAfter a (.trap o) .software (some o.imm.toNat) a.p.em)

def execBkpt (o : UF) (s : State) : Host.Outcome State Fault Refusal :=
  s.word (.bkpt o) false fun a => .other (s.trapAfter a (.bkpt o) .breakpoint (some o.imm.toNat) a.p.em)

/-- ERET goes back to the frame's resume point, or to the block at tpc once MOVS has written it (R406). -/
def execEret (o : UF) (s : State) : Host.Outcome State Fault Refusal :=
  let i := Instr.eret o
  s.word i false fun a =>
    match (if a.p.tpcSet then s.badTarget a i a.p.tpc.toNat else none) with
    | some t => .other t
    | none => .other ((s.advance a i).returnTrap a.p.pid)

end Sys2Proof.Machine
end

