-- ==== Sys2Proof/Machine/Engines.lean ====
section
/-! DEFINITION. Engine commands: XOP's checks at issue (R281 to R283), item identifiers (R282), and their start, end and failure (R284 to R292). -/
namespace Sys2Proof.Machine

/-! Issue. -/

/-- The next SEQ of an engine on a die (R282). -/
def State.seqOf (s : State) (q die : Nat) : Nat := storeGet 0 (2 * q + die) s.seqs

/-- The item identifier of the next command (R282). -/
def State.itemId (s : State) (q core : Nat) : W64 :=
  BitVec.ofNat 64 (q * 2 ^ 56 + (if s.fit = .m1 then 2 ^ 55 else 0) + dieOf core * 2 ^ 54 + core % 16 * 2 ^ 50 + s.seqOf q (dieOf core))

def State.nextSeq (s : State) (q die : Nat) : State := { s with seqs := storeSet 0 (2 * q + die) ((s.seqOf q die + 1) % 2 ^ 48) s.seqs }

/-- The first byte of some runs that lies in some places, by its virtual address. -/
def State.firstIn (s : State) (sc : Scene) (runs places : List (Nat × Nat)) : Option Nat :=
  (runs.flatMap fun r => pieces r.1 r.2).findSome? fun p =>
    match s.placed sc [(p.1, p.2.2)] with
    | [(k, n)] =>
      let starts := places.filterMap fun q => if overlap [(k, n)] [q] then some (max k q.1) else none
      match starts with
      | [] => none
      | x :: xs => some (p.1 + (xs.foldl min x - k) / 2)
    | _ => none

/-- Whether a command writes what an operation of another home party of the forme still reads (R191). -/
def State.cmdTouches (s : State) (a : Agent) (o : Op) : Option Nat :=
  if !a.l.record.chk then none
  else match s.sceneOf a.p.fid with
    | none => none
    | some sc => s.firstIn sc (s.memWrites o) (s.opPlaces a.p.fid false fun e => e.hp ≠ a.p.hp)

/-- XOP's ordering: a release orders all that came before (R254, R281). -/
def xopReady (o : XF) (now since : Nat) : Nat := match o.ord with | .acqRel | .ar => now + 1 | _ => since

/-- Queue a command whose fields have been checked, or one whose descriptor failed at memory (R281, R285). -/
def State.sendCmd (s : State) (a : Agent) (i : Instr) (o : XF) (q : Nat) (w : Except (TrapCode × Nat) Work) : Eff :=
  let die := dieOf a.f.core
  let s := s.sealReads a.p
  let op : Op := { a.newOp s i q die .void o.nu.toNat with ready := xopReady o s.freeCtr a.p.cmdReady, settled := xopReady o s.freeCtr a.p.cmdSettled, after := o.ord = .ar, ident := s.itemId q a.f.core, scope := o.scope }
  let sent : Except State State := match w with
    | .error c => .ok (s.voidOp op c)
    | .ok w =>
      let op := { op with work := w }
      match s.cmdTouches a op with
      | some t => .error (s.trapHere a i .pressTouch (some t) 0)
      | none => s.queueOp a i op
  match sent with
  | .error t => .other t
  | .ok t =>
    let t := if o.ord = .plain then t else (t.finishIinvs a.p.pid o.scope).publish (a.p.ancestry s.freeCtr)
    let t := t.nextSeq q die
    let t := if a.l.record.rcrate = 2 then t.countMem a.p.fid else t
    match o.rply with
    | some d => .done (t.addLong a i [.sreg d op.ident] [])
    | none => .done t

/-- Bytes of a descriptor that must be zero. -/
def zeroFrom (bs : List Byte) (off n : Nat) : Bool := packetField bs off n = 0

/-- A command with a descriptor: alignment, translation, fields (R283). `mk` answers the command, or nothing where a field is bad. -/
def State.xop (s : State) (i : Instr) (o : XF) (q : Nat) (mk : Agent → (Nat → Nat → Nat) → List Byte → Nat → Option (Reading Work)) :
    Host.Outcome State Fault Refusal :=
  s.word i true fun a =>
    let va := (s.sVal a o.xa 0).toNat
    let xb := (s.sVal a o.xb 1).toNat
    if va % 64 ≠ 0 then .other (s.trapHere a i .misaligned (some va) 0)
    else
      let s := s.reachVa a.l.space a.p.park va 64
      match s.readOnce a i va 64 (s.freeCtr + 1) 0 with
      | .error t => .other t
      | .ok (.error c) => s.sendCmd a i o q (.error (c, va))
      | .ok (.ok bs) =>
        match mk a (packetField bs) bs xb with
        | none => .other (s.trapHere a i .accessViolation (some va) 0)
        | some (.error t) => .other t
        | some (.ok w) => s.sendCmd a i o q w

def good (b : Bool) (w : Work) : Option (Reading Work) := if b then some (.ok (.ok w)) else none

def execCpy (o : XF) (s : State) : Host.Outcome State Fault Refusal :=
  s.xop (.cpy o) o 1 fun _ f bs xb => good (zeroFrom bs 0x10 48 && decide (xb ≤ 2 ^ 40)) (.cpy (f 0 8) (f 8 8) xb)

def execCpyx (o : XF) (s : State) : Host.Outcome State Fault Refusal :=
  s.xop (.cpyx o) o 1 fun a f bs xb =>
    let rows := f 0x10 4
    let rb := f 0x14 4
    let w := fun (h : Option Sheet) => Work.cpyx (f 0 8) (f 8 8) rows rb (f 0x18 4) (f 0x1C 4) (f 0x20 8) (f 0x28 4) h
    if !(zeroFrom bs 0x2C 20 && decide (1 ≤ rows ∧ rows ≤ 65535 ∧ 1 ≤ rb ∧ rb ≤ 2 ^ 20)) then none
    else if xb = 0 then good (f 0x20 8 = 0) (w none)
    else if f 8 8 ≠ 0 ∨ f 0x1C 4 ≠ 0 then none
    else match s.readSheet a (.cpyx o) xb none false (s.freeCtr + 1) 0 with
      | .error t => some (.error t)
      | .ok (.error c) => some (.ok (.error c))
      | .ok (.ok h) =>
        if !h.format.isBq && f 0x20 8 ≠ 0 then none
        else if rows > h.rows ∨ rb ≠ h.rowBytes then some (.error (s.trapHere a (.cpyx o) .sheetMismatch (some xb) 0))
        else some (.ok (.ok (w (some h))))

def execCpyrot (o : XF) (s : State) : Host.Outcome State Fault Refusal :=
  s.xop (.cpyrot o) o 1 fun _ f bs xb =>
    let fmt := f 0x26 1
    let e := fmtBytes fmt
    let dim := f 0x24 2
    good (zeroFrom bs 0x28 24 && decide (1 ≤ fmt ∧ fmt ≤ 3) && decide (f 0x27 1 ≤ 1) && decide (2 ≤ dim ∧ dim ≤ 4096) && dim % 2 = 0
        && decide (1 ≤ f 0x18 4 ∧ f 0x18 4 ≤ 2 ^ 20) && f 0 8 % e = 0 && f 8 8 % e = 0 && f 0x10 8 % 4 = 0)
      (.cpyrot (f 0 8) (f 8 8) (f 0x10 8) (f 0x18 4) (f 0x1C 4) (f 0x20 4) dim fmt (f 0x27 1) (BitVec.ofNat 32 xb))

def execFill (o : XF) (s : State) : Host.Outcome State Fault Refusal :=
  s.xop (.fill o) o 1 fun _ f bs xb => good (zeroFrom bs 0x10 48 && decide (f 8 8 ≤ 2 ^ 40)) (.fill (f 0 8) (f 8 8) (BitVec.ofNat 64 xb))

def execScrub (o : XF) (s : State) : Host.Outcome State Fault Refusal :=
  s.xop (.scrub o) o 2 fun _ f bs xb =>
    good (zeroFrom bs 0x18 40 && f 0 8 % 128 = 0 && f 8 8 % 128 = 0 && decide (f 8 8 ≤ 2 ^ 40) && f 0x10 8 % 32 = 0 && decide (xb ≤ 1))
      (.scrub (f 0 8) (f 8 8) (f 0x10 8) (xb = 1))

/-- A command on a task packet, which is read at issue: only its alignment and its translation are checked then. One that cannot be read fails the
command when it runs (R283, R291). DEDUCED: log entry 57. -/
def State.packetOp (s : State) (i : Instr) (o : XF) (ok : Nat → Bool) (w : Nat → Nat → List Byte → Work) : Host.Outcome State Fault Refusal :=
  s.word i true fun a =>
    let va := (s.sVal a o.xa 0).toNat
    let xb := (s.sVal a o.xb 1).toNat
    if va % 256 ≠ 0 then .other (s.trapHere a i .misaligned (some va) 0)
    else
      let s := s.reachVa a.l.space a.p.park va 256
      match s.readOnce a i va 256 (s.freeCtr + 1) 0 with
      | .error t => .other t
      | .ok r => if ok xb then s.sendCmd a i o 3 (.ok (w va xb (match r with | .ok bs => bs | .error _ => []))) else .other (s.trapHere a i .accessViolation (some va) 0)

def execSeal (o : XF) (s : State) : Host.Outcome State Fault Refusal :=
  s.packetOp (.seal o) o (fun _ => true) fun va xb bs => .seal va (BitVec.ofNat 64 xb) bs

def execNdt (o : XF) (s : State) : Host.Outcome State Fault Refusal := s.packetOp (.ndt o) o (· = 0) fun va _ bs => .ndt va bs

/-! Running. -/

/-- A command's failure, with those that are the security engine's own: no open session, or, once the number has been chosen, a packet that could not
be read or written (R291); a target that is lost (R292). -/
def State.cmdFault (s : State) (o : Op) : Option (TrapCode × Nat) :=
  match o.work with
  | .seal pkt h read =>
    if !(s.sessions.any fun x => x.handle = h) then some (.taskTagFail, pkt)
    else if o.phase = .queued then none
    else (s.opFault o).or (if read.isEmpty then some (.poison, pkt) else none)
  | .ndt pkt sent =>
    let tgt := BitVec.ofNat 12 (packetField sent 2 2)
    if o.phase = .queued then (if sent.isEmpty then some ((s.opFault o).getD (.poison, pkt)) else none)
    else if s.lostPeers.contains tgt then some (.expanderLost, pkt)
    else if s.viralPeers.contains tgt then some (.viral, pkt) else none
  | _ => s.opFault o

/-- Copy, scrub and security commands, which start and end by themselves. -/
def Op.isCommand (o : Op) : Bool := o.queue = 1 || o.queue = 2 || o.queue = 3

/-- What a command does when it starts: SEAL takes its session's next number (R291), NDT sends its packet (R317). -/
def State.cmdBegin (s : State) (o : Op) : State :=
  match o.work, s.sceneOf o.fid with
  | .seal _ h _, _ =>
    match s.sessions.find? fun x => x.handle = h with
    | none => s
    | some x =>
      let s := s.onOp o.id fun y => { y with step := x.next }
      { s with sessions := modifyWhere (fun y => y.handle = h) (fun y => { y with next := y.next + 1 }) s.sessions }
  | .ndt pkt read, some sc =>
    let pk := s.packetNow o sc pkt read
    (s.onOp o.id fun y => { y with work := .ndt pkt pk }).send (.ndt (BitVec.ofNat 12 (packetField pk 2 2)) pk)
  | _, _ => s

/-- An engine starts a command that nothing holds back (R284). -/
def execEngineCmdStart (op : Nat) (s : State) : Host.Outcome State Fault Refusal :=
  match s.op? op with
  | none => .next s
  | some o =>
    if !o.isCommand ∨ o.phase ≠ .queued ∨ !s.opPlaced o ∨ !s.opFree o then .next s
    else if !(s.opMissing o).isEmpty then .next (s.opAsk o)
    else if (s.cmdFault o).isSome then .next s
    else
      let t := match o.work with | .seal .. => ((s.declareOp o).onOp o.id fun x => { x with phase := .running, step := 0 }).stir | _ => s.opBegin o
      .next (if (t.op? op).any fun x => x.phase = .running then t.cmdBegin o else t)

/-- A command comes to its end, all its bytes written (R285 to R291). An NDT ends by its completion message. -/
def execEngineCmdEnd (op : Nat) (s : State) : Host.Outcome State Fault Refusal :=
  match s.op? op with
  | none => .next s
  | some o =>
    let ndt := match o.work with | .ndt .. => true | _ => false
    if !o.isCommand ∨ o.phase ≠ .running ∨ ndt = true ∨ !s.opPlaced o then .next s
    else if !(s.opMissing o).isEmpty then .next (s.opAsk o)
    else if (s.cmdFault o).isSome then .next s
    else
      let (t, f, _) := (s.opReach o).opStep o 0
      let t := match s.sceneOf o.fid with | some sc => t.count sc.ctx 0x0E (sumBy (fun r : Nat × Nat => r.2) (s.memWrites o)) | none => t
      .next (t.opEnded o f none).stir

/-- A task's result region after a failure: each byte old, or one that the task would have written (R285, R319). -/
def State.spoilResult (s : State) (o : Op) : State :=
  match s.resultRegion o with
  | none => s
  | some (a, n) => (upFrom a n).foldl (fun s k =>
      if Config.freeBit s.freeCtr (1800000 + k) then ((s.dropRuns (s.moved k) 1).writePaN (s.moved k) [Config.freeByte s.freeCtr k] (.op o.fid o.hp o.id)) else s) s

/-- A command fails: its destination bytes are each old or new, and it is one failed item; one of a stopped forme is stopped (R29, R285). -/
def execEngineCmdFail (op : Nat) (code : TrapCode) (addr : Nat) (s : State) : Host.Outcome State Fault Refusal :=
  match s.op? op with
  | none => .next s
  | some o =>
    if o.isCommand ∧ s.opStopped o code then .next ((s.spoilResult o).cancelOp o).stir
    else if o.isCommand ∧ (o.phase = .queued ∨ o.phase = .running) ∧ s.opFree o ∧ s.opPlaced o ∧ s.cmdFault o = some (code, addr) then
      let t := if o.phase = .running then s.spoilResult o else s
      .next ((t.opSpoil o).opEnded o o.flags (some (code, addr))).stir
    else .next s

/-- A byte of a task's result is written, at the new home once its page has moved (R311); one that has been touched since the issue keeps either value (R254, R292). -/
def State.resultByte (s : State) (o : Op) (pa : Nat) (b : Byte) : State :=
  let pa := s.moved pa
  let touched := s.past.any fun y => y.key = memKey pa && o.touchedIn y
  if touched && Config.freeBit s.freeCtr (1810000 + pa) then s else (s.dropRuns pa 1).writePaN pa [b] (.op o.fid o.hp o.id)

/-- The M1's answer to an NDT: its result has been written, or it failed (R292, R318, R319). A packet that was rejected has run no task (R317), and
nothing comes from a target that is lost (R415). -/
def execNdtCompletionMessage (op : Nat) (failure : Option TrapCode) (result : List (Nat × Byte)) (s : State) : Host.Outcome State Fault Refusal :=
  match s.op? op with
  | none => .next s
  | some o =>
    match o.work with
    | .ndt pkt _ =>
      if o.phase ≠ .running ∨ (s.cmdFault o).isSome then .next s
      else match failure with
        | some c => .next ((if c = .taskTagFail then s else s.spoilResult o).opEnded o 0 (some (c, pkt))).stir
        | none =>
          let t := match s.resultRegion o with
            | some (a, n) => (result.filter fun (c : Nat × Byte) => decide (c.1 < n)).foldl (fun (s : State) (c : Nat × Byte) => s.resultByte o (a + c.1) c.2) s
            | none => s
          .next (t.opEnded o 0 none).stir
    | _ => .next s

end Sys2Proof.Machine
end

