-- ==== Sys2Proof/Machine/Collectives.lean ====
section
/-! DEFINITION. Collective steps (R293 to R297, R320 to R325): binding a group, issuing a step, its flits and markers, the folds with
their order signature, failures, and the links that carry flits. -/
namespace Sys2Proof.Machine

/-! Binding (R293, R294). -/

def Group.parse (bs : List Byte) (bind : Nat) (a : Agent) : Group :=
  let f := packetField bs
  { id := f 0 8, bind := bind, table := f 0x08 8, sbuf := f 0x10 8, rbuf := f 0x18 8, len := f 0x20 8, nrank := f 0x28 2, myrank := f 0x2A 2
    key := a.p.key.getD a.f.key, src := a.l.record.coinSrc, srcLen := a.l.record.coinLen, base := a.h.seq.headD 0 }

def Group.sound (g : Group) (bs : List Byte) : Bool :=
  g.id ≠ 0 && g.sbuf % 128 = 0 && g.rbuf % 128 = 0 && g.len % 128 = 0 && decide (g.len ≤ 2 ^ 36) && decide (1 ≤ g.nrank ∧ g.nrank ≤ 4096)
    && decide (g.myrank < g.nrank) && zeroFrom bs 0x2C 20

/-- The home party's binds and steps that have not completed locally. -/
def State.openSteps (s : State) (fid hp : Nat) : List Op := s.ops.filter fun o => o.fid = fid && o.hp = hp && o.queue = 4 && o.unfinished

/-- CSIG.BIND: the step counter restarts at once; what CSIG reads follows when every earlier step has completed locally (R294). -/
def execCsigBind (o : UF) (s : State) : Host.Outcome State Fault Refusal :=
  let i := Instr.csigBind o
  s.word i false fun a =>
    let va := (s.sVal a o.ua 0).toNat
    let op := a.newOp s i 4 (dieOf a.f.core) .void 62
    if va % 64 ≠ 0 then .other (s.trapHere a i .misaligned (some va) 0)
    else
      let s := s.reachVa a.l.space a.p.park va 64
      match s.readOnce a i va 64 (s.freeCtr + 1) 0 with
      | .error t => .other t
      | .ok (.error c) => .done (s.voidOp op (c, va))
      | .ok (.ok bs) =>
        let g := Group.parse bs (a.h.groups.length + 1) a
        if !g.sound bs then .other (s.trapHere a i .accessViolation (some va) 0)
        else
          let put := fun (now : Bool) (s : State) => a.onHome s fun h => { h with groups := g :: h.groups, stepNo := 0, bound := if now then g.bind else h.bound }
          if (s.openSteps a.p.fid a.p.hp).isEmpty then .done (put true s)
          else match s.queueOp a i { op with work := .bind g } with
            | .error t => .other t
            | .ok t => .done (put false t)

/-! Steps. -/

/-- Change a step of a home party, which comes to be known by its first contribution, marker or issue. -/
def Home.onStep (h : Home) (bind n : Nat) (f : Step → Step) : Home :=
  if (h.step? bind n).isSome then { h with steps := modifyWhere (fun x => x.bind = bind && x.n = n) f h.steps }
  else { h with steps := h.steps ++ [f { bind := bind, n := n }] }

def State.onStep (s : State) (fid hp bind n : Nat) (f : Step → Step) : State := s.onHome fid hp fun h => h.onStep bind n f
def State.step? (s : State) (fid hp bind n : Nat) : Option Step := (s.home? fid hp).bind fun h => h.step? bind n

/-- Whether an operation is a step of a bind. -/
def isStep (bind n : Nat) (o : Op) : Bool := match o.work with | .coll g k .. => g.bind = bind && k = n | _ => false

/-- A failed step is one item of its home party (R297, R349, R401). -/
def stepItem (n : Nat) (c : TrapCode × Nat) (batch : Nat) : Item := { ikind := 4, code := c.1, loc := n, addr := c.2, batch := batch }

/-- The RBUF locations of a failed step hold undefined values (R297). -/
def State.spoilStep (s : State) (fid : Nat) (g : Group) (x : Step) : State :=
  match s.sceneOf fid with
  | none => s
  | some sc =>
    let s := (x.offs.filter fun o => !x.before.any fun b => b.1 = o).foldl (fun s off =>
      let vs := s.foldValues sc g x off
      s.writeRun sc (g.rbuf + off) (s.oneOf (1960000 + off) [] vs)) s
    x.before.foldl (fun s b => if Config.freeBit s.freeCtr (1970000 + b.1) then s.writeRun sc (g.rbuf + b.1) b.2 else s) s

/-- What is kept for the steps of a forme that has ended goes with the last of them (R27, R297). -/
def State.ghostCheck (s : State) (fid : Nat) : State :=
  if (s.forme? fid).isSome then s
  else
    let s := { s with homes := s.homes.filter fun h => h.fid ≠ fid || h.awaitsSteps }
    if s.homes.any fun h => h.fid = fid then s else { s with ghosts := s.ghosts.filter fun g => g.fid ≠ fid }

/-- A step fails at a rank (R297): it is reported where the step's own WAITB is, or at a boundary, or with the step when it is issued. -/
def State.stepFail (s : State) (fid hp bind n : Nat) (c : TrapCode × Nat) : State :=
  match s.home? fid hp with
  | none => s
  | some h =>
    match h.groupAt bind with
    | none => s
    | some g =>
      let x := (h.step? bind n).getD { bind := bind, n := n }
      if x.failed.isSome then s
      else
        let s := s.spoilStep fid g x
        let s := s.onStep fid hp bind n fun x => { x with failed := some c, parts := [], spilt := 0, spiltAt := [], wait := [], before := [], folding := none, toFold := [], nodes := [] }
        if s.ops.any fun o => o.fid = fid && o.hp = hp && isStep bind n o then
          { s with ops := modifyWhere (fun o => o.fid = fid && o.hp = hp && isStep bind n o) (fun o => { o with fail := some (o.fail.getD c) }) s.ops }
        else if x.issued then (s.itemToHome fid hp (stepItem n c 0)).ghostCheck fid
        else s

/-- What an access of a fold meets: its failure, or the translations to wait for. -/
def State.foldCheck (s : State) (sc : Scene) (gs : List Granule) (runs : List (Nat × Nat)) (n : Need) : Option (TrapCode × Nat) × List (Nat × Need) :=
  let ps := runs.flatMap fun r => pieces r.1 r.2
  (ps.findSome? fun p => match s.findVa sc gs p.1 n with
    | .refused => some (TrapCode.accessViolation, p.1)
    | .miss => none
    | .at_ l => (s.locFail sc.tenant (n ≠ .w) l p.2.2).map fun c => (c, p.1),
   ps.filterMap fun p => match s.findVa sc gs p.1 n with | .miss => some (p.1, n) | _ => none)

/-- Whether anything but a fold has written to a location since its fold was queued (R297). -/
def State.foldTouched (s : State) (sc : Scene) (x : Step) (va n : Nat) : Bool :=
  x.folding.any fun t => (upFrom 0 n).any fun j =>
    s.past.any fun y => y.key = (s.keyed sc (va + j)).1 && decide (t.2 < y.at_) && y.writer ≠ .other

/-- A step whose locations are all folded has been received; its signature takes their nodes in ascending order of location (R296, R322). -/
def State.foldsOver (s : State) (fid hp bind n : Nat) : State :=
  match s.step? fid hp bind n with
  | none => s
  | some x =>
    if x.received || x.folding.isNone || !x.toFold.isEmpty then s
    else
      let sig := (sortBy (fun (r : Nat × List FoldNode) => r.1) x.nodes).foldl (fun h r => r.2.foldl (signStep (collSize x.sub x.ty) r.1) h) signStart
      ((s.onStep fid hp bind n fun x => { x with received := true, signature := sig, parts := [], spilt := 0, spiltAt := [], wait := [], folding := none, nodes := [] }).ghostCheck fid).stir

/-- Fold one location of a step, once what it touches is translated; a location that is written to meanwhile holds an undefined value
(R296, R297). -/
def State.foldOne (s : State) (fid hp bind n off : Nat) : State :=
  match s.home? fid hp, s.sceneOf fid with
  | some h, some sc =>
    match h.groupAt bind, h.step? bind n with
    | some g, some x =>
      if !x.toFold.contains off || x.failed.isSome then s
      else
        let z := collSize x.sub x.ty
        let loc := (g.rbuf + off, z)
        let run := (x.coinRun g off).map fun r => (g.src + 4 * r.1, 4 * r.2)
        let s := s.touchRuns (s.physical sc loc.1 loc.2) (some fid) true
        let s := s.touchRuns (run.flatMap fun r => s.physical sc r.1 r.2) (some fid) false
        let s := (loc :: run).foldl (fun s r => (s.physical sc r.1 r.2).foldl (fun s p => s.correct p.1 p.2) s) s
        let (bad, miss) := s.foldCheck sc x.wait [loc] (if x.sub = 0 then .w else .rw)
        let (badC, missC) := s.foldCheck sc x.wait run .r
        if (x.coinRun g off).any fun r => decide (g.srcLen < r.1 + r.2) then s.stepFail fid hp bind n (.collFail, 0)
        else match bad, badC with
          | some c, _ => s.stepFail fid hp bind n c
          | none, some c => s.stepFail fid hp bind n c
          | none, none =>
            if !(miss ++ missC).isEmpty then
              let gs := s.granulesOf x.wait (miss ++ missC)
              (s.askAll sc.sp gs).onStep fid hp bind n fun x => { x with wait := keeping x.wait gs }
            else
              let old := s.runRead sc loc.1 z
              let (v, ns) := s.foldAt sc g x off
              let v := if s.foldTouched sc x loc.1 z then (upFrom 0 z).map fun j => Config.freeByte s.freeCtr (loc.1 + j) else v
              let s := s.writeRun sc loc.1 v
              (s.onStep fid hp bind n fun x => { x with toFold := x.toFold.filter (· ≠ off), before := x.before ++ [(off, old)], nodes := x.nodes ++ [(off, ns)] }).foldsOver fid hp bind n
    | _, _ => s
  | _, _ => s

/-- Once a step's markers are all in, its folds are queued, for a stack's platen or for the collective engine (R296, R324). DESIGN CHOICE: log
entry 60. DESIGN CHOICE: log entry 60. -/
def State.foldStep (s : State) (fid hp bind n : Nat) : State :=
  match (s.home? fid hp).bind fun h => h.groupAt bind, s.step? fid hp bind n with
  | some g, some x =>
    if x.received || x.failed.isSome || !x.issued || decide (x.marks.length < g.nrank) then s
    else
      let s := if x.folding.isSome then s else
        (s.onStep fid hp bind n fun x => { x with folding := some (s.nextId, s.freeCtr), toFold := x.offs }).bump
      s.foldsOver fid hp bind n
  | _, _ => s

/-- A stack's platen takes what comes next in its queue: a fold, which it does at once, or an operation that can start. A PLATEN whose stack is not
known yet, and a fold of the collective engine, stand in no stack's queue: they are looked at first (R199, R201, R296, R324). -/
def execPlatenOpStart (stack : Nat) (s : State) : Host.Outcome State Fault Refusal :=
  let fold := fun (q : QueuedFold) => (s.foldOne q.fid q.hp q.bind q.n q.off).stir
  match s.ops.find? (fun o => o.unsited = some (stack / 4) && o.phase = .queued && s.opPlaced o && idle o.wait), s.foldsOn none with
  | some o, _ => .next (s.sitePlaten o (stack / 4))
  | none, q :: _ => .next (fold q)
  | none, [] =>
    if !s.serves (.platen stack) || s.ops.any fun o => o.stack = some stack && o.phase = .running && s.opPlaced o then .next s
    else match s.platenHead stack with
      | none => .next s
      | some (.inr q) => .next (fold q)
      | some (.inl o) =>
        if s.opReady o then .next (s.opBegin o)
        else if s.opFree o && !(s.opMissing o).isEmpty then .next (s.opAsk o)
        else .next s

/-! COLL (R295). -/

/-- An operand of each lane, whole for an s register. DEDUCED: log entry 62. -/
def State.laneWide (s : State) (a : Agent) (x : Src) (slot : Nat) : List W64 :=
  s.srcLanes a x (match x.reg with | .s _ => 2 | _ => 1) slot

/-- A lane's fault at issue (R295). -/
def collFault (g : Group) (z peer off : Nat) : Option (TrapCode × Option Nat) :=
  if peer = 0xFFFF then none
  else if peer ≥ g.nrank then some (.accessViolation, some peer)
  else if off % z ≠ 0 then some (.misaligned, none)
  else if off + z > g.len then some (.accessViolation, none)
  else none

def stepKind (x : Step) : BitVec 4 × OpTy × Bool := (x.sub, x.ty, x.routed)

def execColl (o : V2) (s : State) : Host.Outcome State Fault Refusal :=
  let i := Instr.coll o
  s.word i true fun a =>
    match a.h.groups.head? with
    | none => .other (s.trapHere a i .accessViolation (some 0) a.p.active)
    | some g =>
      let z := collSize o.sub o.ty
      let peers := s.laneWide a o.a 0
      let offs := s.laneWide a o.b 1
      let lanes := (maskLanes a.p.active).map fun l => (l, (laneGet offs l).toNat, (laneGet peers l).toNat)
      match lanes.findSome? fun x => collFault g z x.2.2 x.2.1 with
      | some (c, t) => .other (s.trapHere a i c t a.p.active)
      | none =>
        let n := a.h.stepNo + 1
        let routed := o.x.getLsbD 0
        let sends := lanes.filter fun x => x.2.2 ≠ 0xFFFF
        let op := { a.newOp s i 4 (dieOf a.f.core) (.coll g n o.sub o.ty o.rm routed sends) 62 with ready := s.freeCtr + 1 }
        match s.queueOp a i op with
        | .error t => .other t
        | .ok t =>
          let t := t.finishIinvs a.p.pid .sys
          let t := a.onHome t fun h => { h with stepNo := n }
          let t := t.onStep a.p.fid a.p.hp g.bind n fun x => { x with issued := true, sub := o.sub, ty := o.ty, rm := o.rm, routed := routed }
          let t := match t.step? a.p.fid a.p.hp g.bind n with
            | some x => match x.failed with
              | some c => t.onOp op.id fun y => { y with fail := some c }
              | none => if x.kinds.any fun k => k ≠ stepKind x then t.stepFail a.p.fid a.p.hp g.bind n (.collFail, 0) else t
            | none => t
          match o.d with
          | .s d => .done (t.addLong a i [.sreg d (BitVec.ofNat 64 n)] [])
          | _ => .done t

/-! Sending and receiving (R296, R297, R324). -/

/-- The home party of this device that is a rank of a group by its latest bind of it. DESIGN CHOICE: log entry 59. -/
def State.rankHome (s : State) (gid rank : Nat) : Option (Home × Group) :=
  s.homes.findSome? fun h => (h.groups.find? fun g => g.id = gid).bind fun g => if g.myrank = rank then some (h, g) else none

/-- The port that a flit leaves by; its route is a free choice. DESIGN CHOICE: log entry 61. -/
def State.portFor (s : State) (k : Nat) : Option Nat :=
  let up := (upFrom 0 s.ports.length).filter fun p => (s.ports[p]?).any (·.up)
  up[Config.freeNat s.freeCtr (1980000 + k) % up.length]?

/-- Flits of a step for one rank, delivered on the device itself or held for a link; a rank on a device that is lost or viral fails the step (R413,
R415). -/
def State.sendRank (s : State) (o : Op) (g : Group) (n r : Nat) (entry : Nat) (flit : Option Flit) : State :=
  let own := if r = g.myrank then some (o.fid, o.hp, g.bind)
    else if entry % 2 ^ 12 = s.pid.toNat then (s.rankHome g.id r).map fun x => (x.1.fid, x.1.hp, x.2.bind) else none
  match own with
  | some (fid, hp, b) =>
    { s with inbox := s.inbox ++ (match flit with | some f => [.collFlitReceive fid hp b f] | none => []) ++ [.collMarkerArrival fid hp b n g.myrank] }
  | none =>
    let pid := BitVec.ofNat 12 entry
    if s.lostPeers.contains pid then s.stepFail o.fid o.hp g.bind n (.expanderLost, 0)
    else if s.viralPeers.contains pid then s.stepFail o.fid o.hp g.bind n (.viral, 0)
    else
    let s := match flit with | some f => s.send (.flit (BitVec.ofNat 64 entry) g.id f) | none => s
    let s := s.send (.marker (BitVec.ofNat 64 entry) g.id n g.myrank)
    match s.portFor r with
    | some p => { s with ports := s.ports.modify p fun x => { x with retry := x.retry ++ [(o.fid, o.hp, g.bind, n)] } }
    | none => s.stepFail o.fid o.hp g.bind n (.collFail, 0)

/-- The steps that wait for a rank on a device fail once that is lost or viral (R413, R415). -/
def State.failSteps (s : State) (pid : BitVec 12) (c : TrapCode) : State :=
  let hit := s.homes.flatMap fun h => (h.steps.filter fun x => x.peers.contains pid && !x.received && x.failed.isNone).map fun x => (h.fid, h.hp, x.bind, x.n)
  hit.foldl (fun s x => s.stepFail x.1 x.2.1 x.2.2.1 x.2.2.2 (c, 0)) s

/-- Read the send buffer and the rank table, and send the step's flits and markers to every rank (R296). -/
def State.sendStep (s : State) (o : Op) : State :=
  match o.work, s.sceneOf o.fid with
  | .coll g n sub ty rm routed sends, some sc =>
    let z := collSize sub ty
    let parts := sends.map fun x => (x.2.2, ({ rank := g.myrank, lane := x.1, off := x.2.1, elem := s.opRead o sc (g.sbuf + x.2.1) z (g.sbuf + x.2.1) z } : Contribution))
    let table := s.opRead o sc g.table 8 g.table (8 * g.nrank)
    let entries := (upFrom 0 g.nrank).map fun r => packetField table (8 * r) 8
    let away := ((upFrom 0 g.nrank).zip entries).filter fun e => e.1 ≠ g.myrank && decide (e.2 % 2 ^ 12 ≠ s.pid.toNat)
    let s := s.onStep o.fid o.hp g.bind n fun x => { x with peers := away.map fun e => BitVec.ofNat 12 e.2 }
    (upFrom 0 g.nrank).foldl (fun s r =>
      let mine := (parts.filter fun p => p.1 = r).map (·.2)
      s.sendRank o g n r (entries.getD r 0) (if mine.isEmpty then none else some { step := n, sub := sub, ty := ty, rm := rm, routed := routed, parts := mine })) s
  | _, _ => s

/-- A step, or a bind that an earlier step held, completes locally (R294, R297). -/
def execCollLocalComplete (op : Nat) (s : State) : Host.Outcome State Fault Refusal :=
  match s.op? op with
  | none => .next s
  | some o =>
    if o.queue ≠ 4 ∨ o.phase ≠ .queued ∨ !s.opPlaced o ∨ ((s.openSteps o.fid o.hp).any fun e => decide (e.seq < o.seq)) = true then .next s
    else match o.work with
      | .bind g => .next (((s.onHome o.fid o.hp fun h => { h with bound := g.bind }).opEnded o 0 none).stir)
      | .coll g n .. =>
        if !s.opFree o then .next s
        else if !(s.opMissing o).isEmpty then .next (s.opAsk o)
        else
          let s := s.opCorrect o
          if (s.opFault o).isSome then .next s
          else
            let s := ((s.declareOp o).sendStep o).onStep o.fid o.hp g.bind n fun x => { x with closed := true, markedAt := some s.wall }
            .next ((s.opEnded o 0 ((s.op? op).bind (·.fail))).stir)
      | _ => .next s

/-- A rank stages a flit of contributions (R296, R324): a full staging area spills to the partition's ring, and a full ring fails the step (R349). -/
def execCollFlitReceive (fid hp bind : Nat) (flit : Flit) (s : State) : Host.Outcome State Fault Refusal :=
  match s.home? fid hp, s.trace fid with
  | some h, some f =>
    let x := (h.step? bind flit.step).getD { bind := bind, n := flit.step }
    if (h.groupAt bind).isNone || x.received || x.folding.isSome || x.failed.isSome then .next s
    else
      let k := (flit.sub, flit.ty, flit.routed)
      let die := dieOf f.core
      let bytes := sumBy (fun c : Contribution => c.elem.length) flit.parts
      let spill := decide (s.stagedOn die + bytes > stagingBytes) || s.homes.any fun h => (s.trace h.fid).any (fun f => dieOf f.core = die) && h.steps.any fun x => decide (0 < x.spilt)
      let n := flit.parts.length
      if spill && !s.ringRoom (s.partOf f.lid) die (128 * n) then .next (s.stepFail fid hp bind flit.step (.queueQuota, 0)).stir
      else
        let t := s.bump.onStep fid hp bind flit.step fun x => { x with
          parts := x.parts ++ flit.parts, spilt := x.spilt + (if spill then n else 0)
          spiltAt := x.spiltAt ++ (if spill then List.replicate n s.nextId else []), kinds := if x.kinds.contains k then x.kinds else x.kinds ++ [k] }
        .next (if x.issued && k ≠ stepKind x then t.stepFail fid hp bind flit.step (.collFail, 0) else t).stir
  | _, _ => .next s

/-- A rank's end-of-step marker; with the last of them the step's locations are folded. A marker that comes twice fails the step (R296, R297). -/
def execCollMarkerArrival (fid hp bind step rank : Nat) (s : State) : Host.Outcome State Fault Refusal :=
  match s.home? fid hp with
  | none => .next s
  | some h =>
    match h.groupAt bind with
    | none => .next s
    | some g =>
      let x := (h.step? bind step).getD { bind := bind, n := step }
      if rank ≥ g.nrank ∨ x.failed.isSome then .next s
      else if x.marks.contains rank then .next (s.stepFail fid hp bind step (.collFail, 0)).stir
      else .next ((s.onStep fid hp bind step fun x => { x with marks := x.marks ++ [rank] }).foldStep fid hp bind step).stir

/-- A step is found failed at a rank: what its own operation reads is refused or lost, or its flits are lost (R297). -/
def execCollStepFail (fid hp bind step : Nat) (s : State) : Host.Outcome State Fault Refusal :=
  match s.ops.find? fun o => o.fid = fid && o.hp = hp && isStep bind step o && o.phase = .queued with
  | some o =>
    match s.opFault o with
    | some c => .next (((s.stepFail fid hp bind step c).opEnded o 0 (some c)).stir)
    | none => .next (s.stepFail fid hp bind step (.collFail, 0)).stir
  | none => if (s.step? fid hp bind step).isSome then .next (s.stepFail fid hp bind step (.collFail, 0)).stir else .next s

/-- A rank for whose step not every marker has come within 100 ms of its own fails the step (R325). -/
def execCollMarkerTimeout (fid hp bind step : Nat) (s : State) : Host.Outcome State Fault Refusal :=
  match s.step? fid hp bind step with
  | none => .next s
  | some x => if x.closed && !x.received && x.folding.isNone && x.failed.isNone && x.markedAt.any fun t => decide (t + 10 ^ 14 ≤ s.wall) then .next (s.stepFail fid hp bind step (.collFail, 0)).stir else .next s

/-! CSIG.SIG and CSIG.STAT (R294). -/

/-- The step of the present bind that a word names, with its status bits. -/
def Home.stepStatus (h : Home) (n : Nat) : W64 :=
  let latest := ((h.steps.filter fun x => x.bind = h.bound && x.issued).map (·.n)).foldl max 0
  let old : Nat := if n + 1024 ≤ latest then 8 else 0
  match h.step? h.bound n with
  | none => BitVec.ofNat 64 old
  | some x => BitVec.ofNat 64 ((if x.closed then 1 else 0) + (if x.received then 2 else 0) + (if x.failed.isSome then 4 else 0) + old)

def Home.stepSignature (h : Home) (n : Nat) : W64 :=
  match h.step? h.bound n with
  | some x => if x.received then x.signature else 0
  | none => 0

/-- A read of a step; one whose answer satisfies `acq` is an acquire (R294). -/
def State.csigRead (s : State) (i : Instr) (o : UF) (f : Home → Nat → W64) (acq : W64 → Bool) : Host.Outcome State Fault Refusal :=
  s.word i false fun a =>
    match o.d with
    | .s d => .done ((if acq (f a.h (s.sVal a o.ua 0).toNat) then s.joinReceived a.p else s).addLong a i [.sreg d (f a.h (s.sVal a o.ua 0).toNat)] [])
    | _ => .done s

def execCsigSig (o : UF) (s : State) : Host.Outcome State Fault Refusal := s.csigRead (.csigSig o) o Home.stepSignature fun _ => false
def execCsigStat (o : UF) (s : State) : Host.Outcome State Fault Refusal := s.csigRead (.csigStat o) o Home.stepStatus fun v => v.getLsbD 1

/-! Links (R298, R325). -/

/-- Link-level retry replays the retry buffer: its flits arrive, or the link keeps failing and retrains. -/
def execFlitRetry (port : Nat) (s : State) : Host.Outcome State Fault Refusal :=
  match s.ports[port]? with
  | none => .next s
  | some p =>
    if !p.up || p.retraining then .next s
    else if Config.freeBit s.freeCtr 1990000 then .next ({ s with ports := s.ports.modify port fun p => { p with retry := [] } } : State).stir
    else .next ({ s with ports := s.ports.modify port fun p => { p with retraining := true, retrainAt := s.wall } } : State).stir

/-- Retraining completes in time, at the width that the link could keep; the retry buffer is replayed with nothing lost. -/
def execRetrainingComplete (port width : Nat) (s : State) : Host.Outcome State Fault Refusal :=
  match s.ports[port]? with
  | none => .next s
  | some p =>
    if !p.retraining || !(width = 16 || width = 8 || width = 4) || decide (p.width < width) || decide (p.retrainAt + 10 ^ 13 < s.wall) then .next s
    else .next { s with ports := s.ports.modify port fun p => { p with retraining := false, width := width, retry := [] } }

/-- Retraining does not complete in time: the port goes down, and each step with a flit in its retry buffer fails. -/
def execLinkRetrainTimeout (port : Nat) (s : State) : Host.Outcome State Fault Refusal :=
  match s.ports[port]? with
  | none => .next s
  | some p =>
    if !p.retraining || decide (s.wall < p.retrainAt + 10 ^ 13) then .next s
    else
      let t := { s with ports := s.ports.modify port fun p => { p with up := false, retraining := false, retry := [] } }
      .next (p.retry.foldl (fun t x => t.stepFail x.1 x.2.1 x.2.2.1 x.2.2.2 (.collFail, 0)) t).stir

end Sys2Proof.Machine
end

