-- ==== Sys2Proof/Machine/Packets.lean ====
section
/-! DEFINITION. Queues and their packets (R331 to R339), graphs (R340, R341), phases and jobs (R342, R343). -/
namespace Sys2Proof.Machine

/-! Parsing (R336). -/

/-- The packet of a kind whose turn it is to be parsed. -/
def State.turnOf (s : State) (c k kind : Nat) : Option (Queue × Packet) :=
  match s.queue? c k with
  | none => none
  | some q => match q.at_ q.parse with
    | none => none
    | some p => if q.en && p.kind = kind && p.bad.isNone && (p.state = .fetched || p.state = .parsing) && q.free p then some (q, p) else none

/-- A packet's parse ends: it is accepted with its work, or has retired. -/
def State.parsed (s : State) (c k idx : Nat) (work : Option Unit_) : State :=
  let s := s.onPacket c k idx fun p => { p with state := .accepted, work := work, wait := [] }
  (s.onQueue c k fun q => { q with parse := q.parse + 1 }).queueGo c k

/-- A packet's parse waits for translations. -/
def State.parseWaits (s : State) (c k : Nat) (p : Packet) (l : List (Nat × Need)) : State :=
  let gs := s.granulesOf p.wait l
  (s.askAll (.ctx c) gs).onPacket c k p.idx fun p => { p with state := .parsing, wait := keeping p.wait gs }

/-- A packet is rejected at its parse. -/
def State.parseRejects (s : State) (c k idx reason : Nat) : State :=
  ((s.onQueue c k fun q => { q with parse := q.parse + 1 }).reject c k idx reason).queueGo c k

/-! Fetching (R332 to R338, R344). -/

/-- The entries of a fence packet (R335): address, comparison, threshold. -/
def fenceEntry (bs : List Byte) (j : Nat) : Nat × Nat × W64 :=
  let w := packetField bs (0x40 + 16 * j) 8
  (bits w 0 57, bits w 61 3, BitVec.ofNat 64 (packetField bs (0x48 + 16 * j) 8))

/-- Why a packet fails the checks on its own header and fields, by R338's reasons. DEDUCED: log entry 63. -/
def packetBad (bs : List Byte) : Option Nat :=
  let f := packetField bs
  let kind := f 0 1
  let fl := f 1 1
  let clear : Bool := zeroFrom bs 2 6 && decide (fl / 8 = 0) && decide (bits fl 1 2 ≠ 3) &&
    (match kind with
     | 1 => zeroFrom bs 0x10 240
     | 2 | 3 | 4 => zeroFrom bs 0x18 232
     | 5 => zeroFrom bs 0x11 47 && (upFrom 0 12).all fun j =>
        if j < f 0x10 1 then bits (f (0x40 + 16 * j) 8) 57 4 = 0 else zeroFrom bs (0x40 + 16 * j) 16
     | 6 => zeroFrom bs 0x21 223
     | _ => zeroFrom bs 0x19 231 && decide (f 0x18 1 < 4))
  let inRange : Bool :=
    match kind with
    | 2 => f 0x10 8 % 256 = 0
    | 3 | 4 => f 0x10 8 % 64 = 0
    | 5 => decide (1 ≤ f 0x10 1 ∧ f 0x10 1 ≤ 12) && (upFrom 0 (f 0x10 1)).all fun j => decide ((fenceEntry bs j).2.1 ≤ 5) && (fenceEntry bs j).1 % 8 = 0
    | 6 => f 0x10 8 % 8 = 0 && decide (f 0x20 1 ≤ 2)
    | _ => true
  if kind = 0 ∨ 7 < kind then some 1 else if !clear then some 2 else if !inRange then some 3 else none

/-- A CANCEL packet takes effect (R344). -/
def State.cancelPacket (s : State) (c k : Nat) (p : Packet) : State :=
  let target := packetField p.bytes 0x10 8
  let mode := packetField p.bytes 0x18 1
  let s := if mode % 2 = 0 then (s.cancelBlock c target).1
    else if target = 0 then s else (s.cancelKey c k (BitVec.ofNat 64 target) none (mode / 2 = 1) true).1
  s.retire c k p.idx

/-- What a packet does when it is fetched (R336, R337). -/
def State.onFetch (s : State) (c k : Nat) (p : Packet) : State :=
  if p.bad.isSome then s
  else
    let s := if p.super ≠ 0 ∧ p.key ≠ 0 then (s.cancelKey c k p.key (some p.idx) (p.super = 2) (p.super = 2)).1 else s
    if p.kind = 7 then s.cancelPacket c k p else s

/-- A queue fetches its next packet. -/
def execPacketFetch (ctx slot : Nat) (s : State) : Host.Outcome State Fault Refusal :=
  match s.queue? ctx slot with
  | none => .next s
  | some q =>
    if !q.en || q.fetch ≥ min q.db (q.parse + 64) then .next s
    else
      let va := q.ring + 256 * (q.fetch % 2 ^ q.logn)
      let s := s.reachVa (.ctx ctx) q.wait va 256
      let took := fun (p : Packet) =>
        let s := s.onQueue ctx slot fun q => { q with fetch := q.fetch + 1, packets := q.packets ++ [p], wait := [] }
        Host.Outcome.next (((s.onFetch ctx slot p).queueGo ctx slot).stir)
      match s.fetchVa (s.ctxScene ctx) q.wait va 256 with
      | .missing l => .next ((s.askAll (.ctx ctx) (s.granulesOf q.wait l)).onQueue ctx slot fun q => { q with wait := s.granulesOf q.wait l })
      | .failed _ => took { idx := q.fetch, bytes := List.replicate 256 0, bad := some 4 }
      | .ok bs => took { idx := q.fetch, bytes := bs, bad := packetBad bs }

/-- A write of a doorbell (R332, R383). -/
def execDb (ctx slot : Nat) (value : W64) (s : State) : Host.Outcome State Fault Refusal :=
  match s.queue? ctx slot with
  | none => .next s
  | some q =>
    if !q.en || !s.dvsec.ready then .next s
    else if value.toNat < q.db ∨ q.readIndex + 2 ^ q.logn < value.toNat then
      .next ((s.onQueue ctx slot fun q => { q with reason := 7 }).queueLog ctx slot 0)
    else .next (s.onQueue ctx slot fun q => { q with db := value.toNat })

/-! NOP, SIGNAL and FENCE packets (R334 to R336). -/

def State.ended (s : State) (c k idx : Nat) : State :=
  ((s.retire c k idx).onQueue c k fun q => { q with parse := q.parse + 1 }).queueGo c k

def execPacketNop (ctx slot : Nat) (s : State) : Host.Outcome State Fault Refusal :=
  match s.turnOf ctx slot 1 with
  | some (_, p) => .next (s.ended ctx slot p.idx)
  | none => .next s

/-- A SIGNAL packet updates its counter atomically (R336, R339). -/
def execPacketSignal (ctx slot : Nat) (s : State) : Host.Outcome State Fault Refusal :=
  match s.turnOf ctx slot 6 with
  | none => .next s
  | some (_, p) =>
    let va := packetField p.bytes 0x10 8
    let v := BitVec.ofNat 64 (packetField p.bytes 0x18 8)
    let what : StatusKind := match packetField p.bytes 0x20 1 with | 0 => .add v | 1 => .bytes (bytesOfNat 8 v.toNat) | _ => .max v
    let t := s.statusPut { ctx := ctx, space := .ctx ctx, addr := va, what := what, group := va + 1, packet := p.idx }
    .next (t.ended ctx slot p.idx).stir

/-- What is parsed after a fence that passes comes after the writes of its counters' values (R253, R335). -/
def State.fencePassed (s : State) (c k : Nat) (p : Packet) : State :=
  let ws := (upFrom 0 (packetField p.bytes 0x10 1)).flatMap fun j => match s.findVa (s.ctxScene c) p.wait (fenceEntry p.bytes j).1 .r with
    | .at_ (.pa pa) => s.writersOf pa 8
    | _ => []
  s.onQueue c k fun q => { q with after := q.after ++ ws.filter fun w => !q.after.contains w }

/-- Read the counters of a fence that have not been seen to hold; it passes, waits or is rejected (R335). -/
def State.fenceRead (s : State) (c k : Nat) (p : Packet) : State :=
  let js := (upFrom 0 (packetField p.bytes 0x10 1)).filter fun j => !p.latched.contains j
  let s := js.foldl (fun s j => s.reachVa (.ctx c) p.wait (fenceEntry p.bytes j).1 8) s
  let look := fun (j : Nat) => (j, s.fetchVa (s.ctxScene c) p.wait (fenceEntry p.bytes j).1 8)
  let seen := js.map look
  if seen.any fun x => match x.2 with | .failed _ => true | _ => false then s.parseRejects c k p.idx 4
  else
    let now := (seen.filter fun x => match x.2 with
      | .ok bs => compare (fenceEntry p.bytes x.1).2.1 (BitVec.ofNat 64 (natOfBytes bs)) (fenceEntry p.bytes x.1).2.2
      | _ => false).map (·.1)
    let latched := p.latched ++ now
    if latched.length = packetField p.bytes 0x10 1 then (s.fencePassed c k p).ended c k p.idx
    else
      let miss := seen.flatMap fun x => match x.2 with | .missing l => l | _ => []
      (s.parseWaits c k p miss).onPacket c k p.idx fun p => { p with latched := latched, seen := s.freeCtr }

def execPacketFence (ctx slot : Nat) (s : State) : Host.Outcome State Fault Refusal :=
  match s.turnOf ctx slot 5 with
  | some (_, p) => if p.state = .fetched then .next (s.fenceRead ctx slot p).stir else .next s
  | none => .next s

def execFencePacketPoll (ctx slot : Nat) (s : State) : Host.Outcome State Fault Refusal :=
  match s.turnOf ctx slot 5 with
  | some (_, p) => if p.state = .parsing then .next (s.fenceRead ctx slot p).stir else .next s
  | none => .next s

/-! LAUNCH packets (R336). -/

def execPacketLaunch (ctx slot : Nat) (s : State) : Host.Outcome State Fault Refusal :=
  match s.turnOf ctx slot 2 with
  | none => .next s
  | some (q, p) =>
    let s := s.reachRecord (s.ctxScene ctx) p.wait (packetField p.bytes 0x10 8)
    match s.readRecord (s.ctxScene ctx) p.wait (packetField p.bytes 0x10 8) with
    | .missing l => .next (s.parseWaits ctx slot p l)
    | .misaligned => .next (s.parseRejects ctx slot p.idx 3).stir
    | .unreadable => .next (s.parseRejects ctx slot p.idx 4).stir
    | .rejected done total => .next ((s.deadBlock ctx done total 4 p.idx).parseRejects ctx slot p.idx 5).stir
    | .ok r =>
      let lid := s.nextId
      let t := s.acceptLaunch { lid := lid, ctx := ctx, record := r, block := {}, key := p.key, prio := min r.prio q.prio, queue := some slot, packet := some p.idx }
      .next (t.parsed ctx slot p.idx (some (.launch lid))).stir

/-! Graphs (R340, R341). -/

inductive GraphRead where
  | missing (l : List (Nat × Need))
  | unreadable
  /-- malformed or with nodes that cannot be read: its block, its node count, and R338's reason -/
  | bad (done total reason : Nat)
  | ok (done : Nat) (nodes : List (Nat × List Nat))
deriving DecidableEq, Repr

/-- A node entry: its record, its dependences, and whether it is well formed (R340). -/
def graphNode (bs : List Byte) (k : Nat) : (Nat × List Nat) × Bool :=
  let f := packetField bs
  let n := f 8 2
  let dep := fun (j : Nat) => f (0x10 + 2 * j) 2
  let deps := (upFrom 0 (min n 4)).map dep
  ((f 0 8, deps), decide (n ≤ 4) && zeroFrom bs 0x0A 6 && zeroFrom bs 0x18 8 && deps.all (fun d => decide (d < k))
    && (upFrom 0 4).all fun j => decide (j < n) || dep j = 0)

/-- The record of a graph and its nodes are reached as a read reaches them (R410). -/
def State.reachGraph (s : State) (sc : Scene) (gs : List Granule) (va : Nat) : State :=
  let s := s.reachVa sc.sp gs va 64
  match s.fetchVa sc gs va 64 with
  | .ok bs => s.reachVa sc.sp gs (packetField bs 0 8) (32 * packetField bs 8 2)
  | _ => s

def State.readGraph (s : State) (sc : Scene) (gs : List Granule) (va : Nat) : GraphRead :=
  if va % 64 ≠ 0 then .unreadable
  else match s.fetchVa sc gs va 64 with
    | .missing l => .missing l
    | .failed _ => .unreadable
    | .ok bs =>
      let f := packetField bs
      let n := f 8 2
      if !(zeroFrom bs 0x0A 6 && zeroFrom bs 0x18 40 && f 0 8 % 32 = 0 && f 0x10 8 % 32 = 0 && decide (1 ≤ n ∧ n ≤ 4096)) then .bad (f 0x10 8) n 6
      else match s.fetchVa sc gs (f 0 8) (32 * n) with
        | .missing l => .missing l
        | .failed _ => .bad (f 0x10 8) n 4
        | .ok ns =>
          let nodes := (upFrom 0 n).map fun k => graphNode ((ns.drop (32 * k)).take 32) k
          if nodes.all (·.2) then .ok (f 0x10 8) (nodes.map (·.1)) else .bad (f 0x10 8) n 6

/-- Accept a graph: its block is zeroed, and its nodes wait to become ready (R341). -/
def State.openGraph (s : State) (g : Graph) (done : Nat) (nodes : List (Nat × List Nat)) : State :=
  let b : Block := { addr := some done, total := nodes.length }
  let g := { g with gid := s.nextId, block := b, nodes := nodes.map fun n => { record := n.1, deps := n.2 } }
  let s := blockClear s g.ctx b ((s.graphPacket g).getD 0)
  { s.bump with graphs := s.graphs ++ [g] }

def execPacketGraph (ctx slot : Nat) (s : State) : Host.Outcome State Fault Refusal :=
  match s.turnOf ctx slot 3 with
  | none => .next s
  | some (q, p) =>
    let s := s.reachGraph (s.ctxScene ctx) p.wait (packetField p.bytes 0x10 8)
    match s.readGraph (s.ctxScene ctx) p.wait (packetField p.bytes 0x10 8) with
    | .missing l => .next (s.parseWaits ctx slot p l)
    | .unreadable => .next (s.parseRejects ctx slot p.idx 4).stir
    | .bad done total r => .next ((s.deadBlock ctx done total 4 p.idx).parseRejects ctx slot p.idx r).stir
    | .ok done nodes =>
      let gid := s.nextId
      let t := s.openGraph { gid := gid, ctx := ctx, block := {}, nodes := [], key := p.key, prio := q.prio, queue := some slot, packet := some p.idx } done nodes
      .next (t.parsed ctx slot p.idx (some (.graph gid))).stir

/-- A node whose dependences have all completed, and that has not been accepted. -/
def Graph.ready (g : Graph) (k : Nat) : Bool :=
  match g.nodes[k]? with
  | none => false
  | some n => n.status = 0 && n.lid.isNone && n.deps.all fun d => (g.nodes[d]?).any fun x => x.status = 1

def State.onNode (s : State) (gid k : Nat) (f : Node → Node) : State := s.onGraph gid fun g => { g with nodes := g.nodes.modify k f }

/-- A ready node is accepted, in ascending order; an empty node completes, and a bad record's node ends rejected (R341). -/
def execGraphNodeReady (gid node : Nat) (s : State) : Host.Outcome State Fault Refusal :=
  match s.graph? gid with
  | none => .next s
  | some g =>
    match g.nodes[node]? with
    | none => .next s
    | some n =>
      if !g.ready node || g.block.status ≠ 0 || (upFrom 0 node).any g.ready then .next s
      else if n.record = 0 then .next ((s.onNode gid node fun n => { n with status := 1 }).graphCheck gid)
      else
      let s := s.reachRecord (s.ctxScene g.ctx) n.wait n.record
      match s.readRecord (s.ctxScene g.ctx) n.wait n.record with
        | .missing l =>
          let gs := s.granulesOf n.wait l
          .next ((s.askAll (.ctx g.ctx) gs).onNode gid node fun n => { n with wait := keeping n.wait gs })
        | .misaligned | .unreadable => .next ((s.onNode gid node fun n => { n with status := 4 }).graphCheck gid).stir
        | .rejected done total => .next (((s.deadBlock g.ctx done total 4 ((s.graphPacket g).getD 0)).onNode gid node fun n => { n with status := 4 }).graphCheck gid).stir
        | .ok r =>
          let lid := s.nextId
          let t := s.acceptLaunch { lid := lid, ctx := g.ctx, record := r, block := {}, key := g.key, prio := min r.prio g.prio, queue := g.queue, gid := some gid }
          .next (t.onNode gid node fun n => { n with lid := some lid, wait := [] }).stir

/-! Phases and jobs (R342, R343). -/

def State.onPhase (s : State) (jid k : Nat) (f : Phase → Phase) : State := s.onJob jid fun j => { j with phases := j.phases.modify k f }

/-- The children of a phase: its graphs (R341, R342). -/
def Phase.children (p : Phase) : Nat := if p.comm = 0 then 1 else 2

/-- Try to begin one of a phase's graphs; none where its record's translation is missing. -/
def State.phaseGraph (s : State) (j : Job) (p : Phase) (va : Nat) (own : Nat → Phase → Phase) : State :=
  let s := s.reachGraph (s.ctxScene j.ctx) p.wait va
  match s.readGraph (s.ctxScene j.ctx) p.wait va with
  | .missing l =>
    let gs := s.granulesOf p.wait l
    (s.askAll (.ctx j.ctx) gs).onPhase j.jid j.cur fun p => { p with wait := keeping p.wait gs }
  | .unreadable => s.onPhase j.jid j.cur fun p => { own 0 p with rejected := p.rejected + 1, wait := [] }
  | .bad done total _ => (s.deadBlock j.ctx done total 4 (j.packet.getD 0)).onPhase j.jid j.cur fun p => { own 0 p with rejected := p.rejected + 1, wait := [] }
  | .ok done nodes =>
    let gid := s.nextId
    let s := s.openGraph { gid := gid, ctx := j.ctx, block := {}, nodes := [], key := j.key, prio := j.prio, queue := j.queue, jid := some j.jid } done nodes
    s.onPhase j.jid j.cur fun p => { own gid p with wait := [] }

def someGid (gid : Nat) : Option Nat := if gid = 0 then none else some gid

/-- The computation step of the job's current phase begins; in one that has been cancelled it is withdrawn (R28, R343). -/
def State.phaseComp (s : State) (jid : Nat) : State :=
  match s.job? jid with
  | none => s
  | some j =>
    match j.phases[j.cur]? with
    | none => s
    | some p =>
      if p.compBegun || j.block.status ≠ 0 then s
      else if p.cancel || j.cancel then s.onPhase jid j.cur fun p => { p with compBegun := true, commBegun := true, wait := [] }
      else s.phaseGraph j p p.comp fun gid p => { p with compG := someGid gid, compBegun := true }

/-- A phase begins: its block is zeroed. -/
def State.phaseBegin (s : State) (jid : Nat) : State :=
  match s.job? jid with
  | none => s
  | some j =>
    match j.phases[j.cur]? with
    | none => s
    | some p =>
      let b := { p.block with total := p.children }
      ((blockClear s j.ctx b (j.packet.getD 0)).onPhase jid j.cur fun p => { p with block := b }).phaseComp jid

/-- A phase entry, and whether it is well formed (R342). -/
def phaseEntry (bs : List Byte) : Phase × Bool :=
  let f := packetField bs
  ({ comp := f 0 8, comm := f 8 8, block := { addr := some (f 0x10 8) } }, f 0 8 ≠ 0 && zeroFrom bs 0x18 8 && f 0x10 8 % 32 = 0)

def execPacketJob (ctx slot : Nat) (s : State) : Host.Outcome State Fault Refusal :=
  match s.turnOf ctx slot 4 with
  | none => .next s
  | some (q, p) =>
    let sc := s.ctxScene ctx
    let s := s.reachVa (.ctx ctx) p.wait (packetField p.bytes 0x10 8) 64
    match s.fetchVa sc p.wait (packetField p.bytes 0x10 8) 64 with
    | .missing l => .next (s.parseWaits ctx slot p l)
    | .failed _ => .next (s.parseRejects ctx slot p.idx 4).stir
    | .ok bs =>
      let f := packetField bs
      let n := f 8 4
      let dead := fun (reason : Nat) => Host.Outcome.next ((s.deadBlock ctx (f 0x10 8) n 4 p.idx).parseRejects ctx slot p.idx reason).stir
      if !(zeroFrom bs 0x0C 4 && zeroFrom bs 0x18 40 && f 0 8 % 32 = 0 && f 0x10 8 % 32 = 0 && decide (1 ≤ n ∧ n ≤ 65535)) then dead 6
      else
        let s := s.reachVa (.ctx ctx) p.wait (f 0 8) (32 * n)
        match s.fetchVa sc p.wait (f 0 8) (32 * n) with
        | .missing l => .next (s.parseWaits ctx slot p l)
        | .failed _ => dead 4
        | .ok ps =>
          let phases := (upFrom 0 n).map fun k => phaseEntry ((ps.drop (32 * k)).take 32)
          if !(phases.all (·.2)) then dead 6
          else
            let jid := s.nextId
            let b : Block := { addr := some (f 0x10 8), total := n }
            let j : Job := { jid := jid, ctx := ctx, block := b, phases := phases.map (·.1), key := p.key, prio := q.prio, queue := some slot, packet := some p.idx }
            let t := blockClear s ctx b p.idx
            let t : State := { t.bump with jobs := t.jobs ++ [j] }
            .next ((t.phaseBegin jid).parsed ctx slot p.idx (some (.job jid))).stir

/-- A launch that has ended, or is quiescent: every live party waits at PHASE, and no operation is in flight (R343). DEDUCED: log entry 65. -/
def State.launchQuiet (s : State) (l : Launch) : Bool :=
  l.block.status ≠ 0 || l.tail.isSome ||
  (l.next = l.block.total && !(s.accepting.any fun x => x.parent = l.lid) &&
    (s.formes.filter fun f => f.lid = l.lid).all fun f =>
      (s.parties.filter fun p => p.fid = f.fid).all (fun p => p.wait = .phase && p.pitch.isNone) && !s.ops.any fun o => o.fid = f.fid && o.unfinished)

/-- Every launch of a graph has ended or is quiescent. -/
def State.graphQuiet (s : State) (gid : Nat) : Bool :=
  match s.graph? gid with
  | none => true
  | some g => g.block.status ≠ 0 || (g.nodes.zip (upFrom 0 g.nodes.length)).all fun n =>
      n.1.status ≠ 0 || (match n.1.lid.bind s.launch? with | some l => s.launchQuiet l | none => !g.ready n.2)

def State.graphsQuiet (s : State) (gs : List (Option Nat)) : Bool := (gs.filterMap id).all s.graphQuiet

/-- The communication step of a job's current phase begins (R343). -/
def execPhaseCommStep (jid : Nat) (s : State) : Host.Outcome State Fault Refusal :=
  match s.job? jid with
  | none => .next s
  | some j =>
    match j.phases[j.cur]? with
    | none => .next s
    | some p =>
      if j.block.status ≠ 0 || p.commBegun || p.ended then .next s
      else if !p.compBegun then .next (s.phaseComp jid).stir
      else if !s.graphsQuiet [p.compG] then .next s
      else if p.comm = 0 || p.cancel || j.cancel then .next (s.onPhase jid j.cur fun p => { p with commBegun := true })
      else .next (s.phaseGraph j p p.comm fun gid p => { p with commG := someGid gid, commBegun := true }).stir

/-- The parties of a job that wait at PHASE. -/
def State.phaseWaiters (s : State) (jid : Nat) : List Party :=
  s.parties.filter fun p => p.wait = .phase && (match (s.forme? p.fid).bind fun f => s.launch? f.lid with | some l => s.jobOf l = some jid | none => false)

/-- How a phase ended: its block with the graphs counted, one that has only quiescent launches left among the completed ones; one that was cancelled
is reported so (R28, R341). DEDUCED: log entry 65. -/
def State.phaseBlock (s : State) (j : Job) (p : Phase) : Block :=
  let gs := ([p.compG, p.commG].filterMap id).filterMap s.graph?
  let done := (gs.filter fun g => g.block.status ≤ 1).length
  let stop := gs.length - done
  let wdr := p.children - gs.length
  let cancelled := p.cancel || j.cancel
  { p.block with done := done, stop := stop, wdr := wdr
                 status := if cancelled then 2 else if done = p.children then 1 else if gs.any fun g => g.block.status = 2 then 2 else 3 }

/-- Every store, atomic, engine command and collective step of a job's parties has been performed or reported failed, those of carried launches
among them (R253, R343). -/
def State.jobQuiet (s : State) (jid : Nat) : Bool :=
  let mine := fun (fid : Nat) => ((s.trace fid).bind fun g => s.launch? g.lid).any fun l => s.jobOf l = some jid
  !(s.ops.any fun o => o.queue ≠ 0 && o.unfinished && mine o.fid) && !(s.parties.any fun p => !p.park.isEmpty && p.pitch.isSome && mine p.fid)
    && !(s.homes.any fun h => h.awaitsSteps && mine h.fid)

/-- The graphs of a job's earlier phases that have ended other than complete since their barriers: launches that PHASE carried on (R343). -/
def State.carriedBad (s : State) (j : Job) : List Graph :=
  (((j.phases.take j.cur).flatMap fun p => [p.compG, p.commG].filterMap id).filterMap s.graph?).filter fun g => decide (2 ≤ g.block.status)

/-- A job's block counts some phases, from where it is on. -/
def State.countPhases (s : State) (jid which n : Nat) : State :=
  match s.job? jid with
  | none => s
  | some j =>
    let s := s.onJob jid fun j => { j with block := j.block.bump which n }
    if n = 0 then s else blockPut s j.ctx j.block (8 * which) (.add (BitVec.ofNat 64 n)) (j.packet.getD 0)

/-- The phase barrier completes (R343): the phase's block is written, and the job goes on to its next phase, or to its end. -/
def execPhaseBarrier (jid : Nat) (s : State) : Host.Outcome State Fault Refusal :=
  match s.job? jid with
  | none => .next s
  | some j =>
    match j.phases[j.cur]? with
    | none => .next s
    | some p =>
      if j.block.status ≠ 0 || !p.commBegun || p.ended || !s.graphsQuiet [p.compG, p.commG] || !s.jobQuiet jid then .next s
      else
        let b := s.phaseBlock j p
        let put := fun (s : State) (off n : Nat) => if n = 0 then s else blockPut s j.ctx b off (.add (BitVec.ofNat 64 n)) (j.packet.getD 0)
        let t := blockStatus (put (put (put s 0 b.done) 8 b.stop) 16 b.wdr) j.ctx b (j.packet.getD 0)
        let t := t.onPhase jid j.cur fun p => { p with block := b, ended := true }
        let waiters := t.phaseWaiters jid
        let rest := j.phases.length - (j.cur + 1)
        let never := p.cancel && p.compG.isNone && p.rejected = 0
        let t := t.countPhases jid (if b.status = 1 then 0 else if never then 2 else 1) 1
        let bad := s.carriedBad j
        if b.status ≠ 1 || !bad.isEmpty then
          let t := t.onJob jid fun j => { j with cancel := j.cancel || b.status = 2 || bad.any (fun g => g.block.status = 2), failed := true }
          let lids := waiters.filterMap fun p => (s.forme? p.fid).map (·.lid)
          let t := lids.foldl (fun t l => if (t.launch? l).any fun l => l.block.status = 0 then t.cancelLaunch l else t) t
          .next ((t.countPhases jid 2 rest).jobCheck jid).stir
        else if rest = 0 then
          let t := waiters.foldl (fun t p => (t.onParty p.pid fun p => { p with wait := .none }).exitLanes p.pid) t
          .next (t.jobCheck jid).stir
        else
          let t := waiters.foldl (fun t p => t.onParty p.pid fun p => { p.ordered s.freeCtr with wait := .none }) (t.joinPassing waiters 3 (jid, 64) fun _ => true)
          .next ((t.onJob jid fun j => { j with cur := j.cur + 1 }).phaseBegin jid).stir

end Sys2Proof.Machine
end

