-- ==== Sys2Proof/Machine/Placement.lean ====
section
/-! DEFINITION. Placing formes (R27, R36, R37, R345), pre-emption (R202, R346, R347), slices, halting in place and the bivouac (R378 to
R382). -/
namespace Sys2Proof.Machine

/-! Claims (R27, R48, R49, R376). -/

structure Claim where
  slots : Nat := 0
  rows  : Nat := 0
  srows : Nat := 0
  ropes : Nat := 0
  tiles : Nat := 0
deriving DecidableEq, Repr

def Claim.add (a b : Claim) : Claim :=
  { slots := a.slots + b.slots, rows := a.rows + b.rows, srows := a.srows + b.srows, ropes := a.ropes + b.ropes, tiles := a.tiles + b.tiles }

def Claim.within (c : Claim) (q : Quota) : Bool :=
  decide (c.slots ≤ min q.pslot 128 ∧ c.rows ≤ min q.rows 7936 ∧ c.srows ≤ q.srows ∧ c.ropes ≤ q.ropes ∧ c.tiles ≤ q.gtiles)

/-- What a forme claims on its own core, with `live` live parties (R27). -/
def LRec.claim (r : LRec) (live : Nat) : Claim :=
  { slots := max r.parties live, rows := r.parties * r.commitment, srows := r.srows, ropes := r.ropes, tiles := r.gtiles }

def State.liveParties (s : State) (fid : Nat) : Nat := (s.parties.filter fun p => p.fid = fid).length

/-- What a forme claims on its own core, but for the units that have moved (R27, R380). -/
def State.claimOf (s : State) (f : Forme) (r : LRec) : Claim :=
  let n := f.moved.from_.getD r.parties
  let c := ({ r with parties := n } : LRec).claim (s.parties.filter fun p => p.fid = f.fid && f.stays p.hp).length
  if f.moved.rest then { c with srows := 0, ropes := 0, tiles := 0 } else c

/-- What a partition's formes hold on a core, but for some of them: their own claims, and their mirror tiles from the neighbour (R49). -/
def State.held (s : State) (part core : Nat) (gone : Forme → Bool) : Claim :=
  s.formes.foldl (fun c f =>
    match s.launch? f.lid with
    | none => c
    | some l =>
      if f.place = .saved || s.partOf f.lid ≠ part || gone f then c
      else if f.core = core then c.add (s.claimOf f l.record)
      else if f.core = neighbour core && !f.moved.rest then c.add { tiles := l.record.gtiles }
      else c) {}

/-- Whether a forme of a record fits a core and, for its tiles, the core's neighbour, once some formes are gone (R345). -/
def State.fitsOn (s : State) (part core : Nat) (r : LRec) (live : Nat) (gone : Forme → Bool) : Bool :=
  !s.unitOut (.core core) &&
  (match s.coreQuota part core with
   | none => false
   | some q => ((s.held part core gone).add (r.claim live)).within q) &&
  (r.gtiles = 0 || (!s.unitOut (.pressPair (core / 2)) &&
    (match s.coreQuota part (neighbour core) with
     | none => false
     | some q => decide ((s.held part (neighbour core) gone).tiles + r.gtiles ≤ q.gtiles))))

/-! What waits to be placed (R345, R378). -/

/-- The saved forme of a launch that is placed next, or else its next new one. -/
def State.savedOf (s : State) (lid : Nat) : Option Forme :=
  (s.formes.filter fun f => f.lid = lid && f.place = .saved && f.stop.isNone).foldl (fun m f =>
    match m with | some g => if f.index < g.index then some f else some g | none => some f) none

def State.pendingForme (s : State) (l : Launch) : Bool :=
  (s.savedOf l.lid).isSome || (l.tail.isNone && l.spilt.isNone && l.block.status = 0 && decide (l.next < l.block.total))

/-- The live parties that a launch's next forme brings. -/
def State.nextLive (s : State) (l : Launch) : Nat := match s.savedOf l.lid with | some f => s.liveParties f.fid | none => 0

/-- The context whose formes a partition places (R378). -/
def State.places (s : State) (part c : Nat) : Bool := (s.part part).running = some c && !(s.part part).halting

/-- Halted formes of other contexts, whose state may be moved to the bivouac or the save area (R380). -/
def State.movable (s : State) (part : Nat) (f : Forme) : Bool :=
  f.place = .halted && s.partOf f.lid = part && (match s.launch? f.lid with | some l => (s.part part).running ≠ some l.ctx | none => false)

def State.fitsCore (s : State) (part core : Nat) (l : Launch) : Bool := s.fitsOn part core l.record (s.nextLive l) (s.movable part)
def State.fitsAny (s : State) (part : Nat) (l : Launch) : Bool := (upFrom 0 s.cores).any fun c => s.fitsCore part c l

/-- Whether a launch's head has been held for some time, in femtoseconds (R345). -/
def State.waited (s : State) (l : Launch) (n : Nat) : Bool := l.heldAt.any fun t => decide (t + n ≤ s.wall)

/-- A launch's head that fits no core is held from the moment that is seen (R345). -/
def State.noteHeld (s : State) : State :=
  let note := fun (l : Launch) =>
    let part := s.partOf l.lid
    { l with heldAt := if s.pendingForme l && s.places part l.ctx && !s.fitsAny part l then some (l.heldAt.getD s.wall) else none }
  { s with launches := s.launches.map note }

/-- Whether another launch's forme comes before, or holds back, a launch's next forme (R345). -/
def State.heldBack (s : State) (part : Nat) (l : Launch) : Bool :=
  s.launches.any fun m =>
    m.lid ≠ l.lid && s.partOf m.lid = part && s.places part m.ctx && s.pendingForme m &&
    ((m.prio = l.prio && decide (m.lid < l.lid)) || (decide (l.prio < m.prio) && (m.heldLong || s.waited m (10 ^ 12) || s.fitsAny part m)))

/-! Moving halted state (R380). -/

/-- Of some halted formes of other contexts, the one that halted longest ago. -/
def State.longestHalted (s : State) (part : Nat) (has : Forme → LRec → Bool) : Option (Forme × LRec) :=
  (s.formes.filterMap fun f => (s.launch? f.lid).bind fun l => if s.movable part f && has f l.record then some (f, l.record) else none).foldl
    (fun m x => match m with | some y => if x.1.haltedAt < y.1.haltedAt then some x else some y | none => some x) none

/-- Bytes of a halted home party's rows and its parties' state, and of a halted forme's scratchpad rows, tiles with their mirror tiles and operations'
records (R380). -/
def State.rowBytes (s : State) (fid hp : Nat) : Nat :=
  256 * sumBy Home.footprint (s.homes.filter fun h => h.fid = fid && h.hp = hp) + 512 * (s.parties.filter fun p => p.fid = fid && p.hp = hp).length
def State.restBytes (s : State) (fid : Nat) (r : LRec) : Nat :=
  4096 * r.srows + 2 ^ 18 * r.gtiles + 64 * (s.ops.filter fun o => o.fid = fid && o.unfinished).length

/-- A unit of `n` bytes moves to the bivouac of its forme's die, which formes of every partition share first come first served, or to the save area
where it does not fit there (R380, R381). -/
def State.storeUnit (s : State) (f : Forme) (n : Nat) (m : Moved) : State :=
  let used := sumBy (fun g : Forme => if dieOf g.core = dieOf f.core then g.moved.bivouac else 0) s.formes
  let fits := decide (used + n ≤ s.dvsec.bivsz * 2 ^ 24)
  s.onForme f.fid fun g => { g with moved := { m with bivouac := m.bivouac + (if fits then n else 0), area := m.area + (if fits then 0 else n) } }

/-- The next unit that moves for a claim that a core has no room for: a home party's rows, of the highest number, where party slots or rows are short, and a
forme's scratchpad, tiles and ropes where one of those is short. -/
def State.moveUnit (s : State) (part core : Nat) (l : Launch) : Option State :=
  let r := l.record
  let q := (s.coreQuota part core).getD {}
  let c := (s.held part core fun _ => false).add (r.claim (s.nextLive l))
  let n := (s.held part (neighbour core) fun _ => false).tiles + r.gtiles
  let m := ((s.coreQuota part (neighbour core)).getD {}).gtiles
  let tiles := decide (0 < r.gtiles) && (decide (q.gtiles < c.tiles) || decide (m < n))
  if decide (min q.pslot 128 < c.slots) || decide (min q.rows 7936 < c.rows) then
    (s.longestHalted part fun f r => f.core = core && decide (0 < f.moved.from_.getD r.parties)).map fun x =>
      let hp := x.1.moved.from_.getD x.2.parties - 1
      s.storeUnit x.1 (s.rowBytes x.1.fid hp) { x.1.moved with from_ := some hp }
  else
    (s.longestHalted part fun f r => !f.moved.rest && ((f.core = core && ((decide (q.srows < c.srows) && decide (0 < r.srows)) || (decide (q.ropes < c.ropes) && decide (0 < r.ropes))))
      || ((f.core = core || f.core = neighbour core) && tiles && decide (0 < r.gtiles)))).map fun x =>
      s.storeUnit x.1 (s.restBytes x.1.fid x.2) { x.1.moved with rest := true }

/-- Move units of halted formes, one after another, until a claim fits. DESIGN CHOICE: log entry 117. -/
def State.moveHalted (s : State) (part core : Nat) (l : Launch) : Nat → State
  | 0 => s
  | n + 1 =>
    if s.fitsOn part core l.record (s.nextLive l) (fun _ => false) then s
    else match s.moveUnit part core l with
      | none => s
      | some s => s.moveHalted part core l n

/-! Placing (R27, R37). -/

/-- A party as its launch begins it (R20, R37). -/
def newParty (r : LRec) (fid pid hp slot now : Nat) : Party :=
  { pid := pid, fid := fid, hp := hp, slot := slot, lanes := maskLow r.lanes, em := maskLow r.lanes
    s := (r.args ++ List.replicate 64 0).take 64, pc := r.entry, lastIssue := now }

/-- Slots of a core that no live party has. -/
def State.openSlots (s : State) (core : Nat) : List Nat :=
  let used := (s.onCore core).map (·.slot)
  (upFrom 0 128).filter fun k => !used.contains k

/-- The next forme of a launch begins its life on a core. DESIGN CHOICE: log entry 43. -/
def State.placeNew (s : State) (l : Launch) (core : Nat) : State :=
  let r := l.record
  let fid := s.nextId
  let slots := s.openSlots core
  let f : Forme := { fid := fid, lid := l.lid, index := l.next, core := core, flags := if r.satarm then 0x100 else 0, key := r.coinKey
                     ropes := List.replicate r.ropes { expect := r.parties }, placedAt := fid }
  let hps := upFrom 0 r.parties
  let s := s.onLaunch l.lid fun l => { l with next := l.next + 1, heldLong := false, heldAt := none }
  let ps := hps.map fun h => { newParty r fid (fid + 1 + h) h (slots.getD h 0) fid with notReady := s.clk, freshAt := s.freeCtr }
  let s : State := { s with
      formes := s.formes ++ [f]
      homes := s.homes ++ hps.map fun h => { fid := fid, hp := h, lanes := r.lanes }
      parties := s.parties ++ ps
      nextId := fid + 1 + r.parties }
  (ps.foldl (fun s p => s.joinBegin l.line l.after p) s).trimL1 core

/-- The ropes' watchdogs stand still while the forme is off its core or halted (R353). -/
def Forme.holdWatches (f : Forme) (now : Nat) : Forme := { f with ropes := f.ropes.map fun r => { r with watch := r.watch.map fun w => (w.1 + (now - w.2), now) } }

/-- They count on from there. -/
def Forme.goWatches (f : Forme) (now : Nat) : Forme := { f with ropes := f.ropes.map fun r => { r with watch := r.watch.map fun w => (w.1, now) } }

/-- A forme that was halted runs again: its sleeping parties' deadlines have stood still (R361, R379). -/
def State.wakeAfter (s : State) (f : Forme) : State :=
  match f.haltWall with
  | none => s
  | some t =>
    let late := fun (p : Party) => match p.wait with | .sleep d => { p with wait := .sleep (d + (s.wall - t)) } | _ => p
    { s.onForme f.fid (fun f => { f with haltWall := none }) with parties := modifyWhere (fun p => p.fid = f.fid) late s.parties }

/-- A forme's press operations come to a core's press queue again, those that find no room spilt; one that had started takes its unit again when that is
free (R174, R202, R348). -/
def State.rejoin (s : State) (fid core : Nat) : State :=
  let mine := fun (o : Op) => o.fid = fid && o.queue = 0
  let there := s.ops.filter fun o => !mine o && o.queue = 0 && o.site = core && !(s.forme? o.fid).any (·.place = .saved)
  let room := if there.any fun o => o.phase = .spilt then 0 else queueCap 0 - (there.filter fun o => o.phase = .queued).length
  let put := fun (acc : List Op × Nat) (o : Op) =>
    match o.phase with
    | .queued | .spilt => (acc.1 ++ [{ o with site := core, phase := (if acc.2 = 0 then .spilt else .queued) }], acc.2 - 1)
    | .running => (acc.1 ++ [{ o with site := core, runAt := s.nextId }], acc.2)
    | .ended => (acc.1 ++ [{ o with site := core }], acc.2)
  { s with ops := s.ops.filter (fun o => !mine o) ++ ((s.ops.filter mine).foldl put ([], room)).1 }

/-- A saved forme comes back on a core, with the slots that are free there, and its press operations with it (R27, R202, R382). -/
def State.restore (s : State) (f : Forme) (core : Nat) : State :=
  let slots := s.openSlots core
  let mine := (s.parties.filter fun p => p.fid = f.fid).map (·.pid)
  let s := (s.wakeAfter f).onLaunch f.lid fun l => { l with heldLong := false, heldAt := none }
  let s := s.onForme f.fid fun f => { f.goWatches s.wall with place := .placed, core := core, placedAt := s.nextId, moved := {} }
  ({ (s.rejoin f.fid core).bump with
      parties := s.parties.map fun (p : Party) => if p.fid = f.fid then { p with slot := slots.getD (mine.findIdx fun k => k = p.pid) p.slot } else p } : State).trimL1 core

def execFormePlace (lid core : Nat) (s : State) : Host.Outcome State Fault Refusal :=
  match s.launch? lid with
  | none => .next s
  | some l =>
    let part := s.partOf lid
    if s.dvsec.viral || !s.pendingForme l || !s.places part l.ctx || !s.fitsCore part core l || s.heldBack part l then .next s
    else
      let s := s.moveHalted part core l (s.formes.length + s.homes.length)
      match s.savedOf lid with
      | some f => .next (s.restore f core).stir
      | none => .next (s.placeNew l core).stir

/-- A forme that fits no core has waited 1 ms (R345). -/
def execPlacementHoldExpiry (lid : Nat) (s : State) : Host.Outcome State Fault Refusal :=
  match s.launch? lid with
  | none => .next s
  | some l =>
    let part := s.partOf lid
    if s.pendingForme l && s.places part l.ctx && !s.fitsAny part l && s.waited l (10 ^ 12) then .next (s.onLaunch lid fun l => { l with heldLong := true }) else .next s

/-! Pre-emption (R346, R347). -/

/-- K indices that the press pair consumes in a clock (R173). -/
def pressDepth (a b : Fmt) : Nat := if max a.width b.width ≤ 4 then 16 else if max a.width b.width ≤ 8 then 8 else 4

/-- The time of group step `k` of an operation, in femtoseconds: the depth of a sparse product counts stored elements (R173, R201). -/
def State.stepTime (s : State) (o : Op) (k : Nat) : Nat :=
  match o.work with
  | .product p =>
    let fmt := fun (l : List Sheet) => ((l.head?).map Sheet.format).getD .fp16
    let d := pressDepth (fmt p.a) (fmt p.b)
    let spr := fun (l : List Sheet) => ((l.head?).map Sheet.spr).getD 0
    let n := storedCol (p.sparseA || p.sparseB) (if p.sparseA then spr p.a else spr p.b) (min 32 (p.kd - 32 * k))
    if p.platen.isSome then Config.platenStep o.id else (n + d - 1) / d * s.fsPerClk
  | _ => Config.engineTime o.queue (sumBy (fun r : Nat × Nat => r.2) (s.memReads o ++ s.memWrites o))

/-- The press operations and engine commands of a forme that have not ended. -/
def State.pressWork (s : State) (fid : Nat) : List Op := s.ops.filter fun o => o.fid = fid && o.unfinished && o.queue ≠ 4

/-- T_drain: until they have all ended (R347). -/
def State.drainTime (s : State) (fid : Nat) : Nat :=
  sumBy (fun o : Op => sumBy (fun k => if o.step ≤ k then s.stepTime o k else 0) (upFrom 0 o.steps)) (s.pressWork fid)

/-- T_regs: to write the parties' state and their register rows to the bivouac (R347). -/
def State.regsTime (s : State) (fid : Nat) : Nat :=
  Config.writeTime (256 * sumBy Home.footprint (s.homes.filter fun h => h.fid = fid) + 512 * (s.parties.filter fun p => p.fid = fid).length)

/-- T_stop: the longest group step still to finish, and the writing of the tiles, the mirror tiles and the operations' records (R347). -/
def State.stopTime (s : State) (fid : Nat) : Nat :=
  let running := (s.pressWork fid).filter fun o => o.queue = 0 && o.phase = .running
  let tiles := (((s.forme? fid).bind fun f => s.launch? f.lid).map fun l => l.record.gtiles).getD 0
  (running.map fun o => s.stepTime o o.step).foldl max 0 + Config.writeTime (2 * tiles * 2 ^ 17 + 64 * (s.pressWork fid).length)

/-- T_flush: the same group step, 1 µs for each engine command that runs, and the writing of the items of the unfinished operations (R347). -/
def State.flushTime (s : State) (fid : Nat) : Nat :=
  let running := (s.pressWork fid).filter fun o => o.phase = .running
  ((running.filter fun o => o.queue = 0).map fun o => s.stepTime o o.step).foldl max 0 + 10 ^ 9 * (running.filter fun o => o.queue ≠ 0).length
    + Config.writeTime (32 * (s.pressWork fid).length)

/-- What a method is estimated to take (R347, R379). -/
def State.leaveTime (s : State) (fid : Nat) (how : Method) (halt : Bool) : Nat :=
  (match how with | .drain => s.drainTime fid | .save => s.stopTime fid | .flush => s.flushTime fid) + if halt then 0 else s.regsTime fid

/-- The method for a bound, in microseconds: drain where it is 0 or the forme drains within it, else save where that is within it, and else flush,
which never comes at a slice's end, where T_regs counts 0 (R347, R379). DESIGN CHOICE: log entry 69. -/
def State.chooseMethod (s : State) (fid bound : Nat) (halt : Bool) : Method :=
  let regs := if halt then 0 else s.regsTime fid
  let b := bound * 10 ^ 9
  if bound = 0 || decide (s.drainTime fid + regs ≤ b) then .drain
  else if halt || decide (s.stopTime fid + regs ≤ b) then .save
  else .flush

/-- The code of an operation that a flush drops. R202 makes it a failed item, R400 lets no CANCELLED be delivered, and no rule names another: it is one
of those that R400 has a batch deliver. DESIGN CHOICE: log entry 70. -/
def State.flushCode (s : State) (o : Op) : TrapCode :=
  if o.queue = 4 then .collFail else s.oneOf (2010000 + o.id) .accessViolation [.accessViolation, .poison, .viral, .expanderLost, .extentGone]

/-- Report a forme's unfinished operations as failed items: a flush (R202). -/
def State.flushOps (s : State) (fid : Nat) : State :=
  (s.ops.filter fun o => o.fid = fid && o.unfinished).foldl (fun s o =>
    let c := s.flushCode o
    let s := s.opSpoil o
    let s := match o.work with
      | .coll g n .. => s.stepFail o.fid o.hp g.bind n (c, 0)
      | _ => s
    s.opEnded o o.flags (some (c, 0))) s

/-- Ask a forme to leave its core, no later than the method's estimate and 2 µs from now (R346, R347). -/
def State.preempt (s : State) (fid : Nat) (how : Method) (halt : Bool) : State :=
  match s.forme? fid with
  | none => s
  | some f =>
    if f.place ≠ .placed || f.leave.isSome then s
    else (s.onForme fid fun f => { f with leave := some ⟨how, halt, s.wall + s.leaveTime fid how halt + 2 * 10 ^ 9⟩ }).stir

/-- The victims of a held forme, in their order: lower priority first, then the latest placed (R346). -/
def State.victims (s : State) (part : Nat) (l : Launch) : List Forme :=
  let pr := fun (f : Forme) => ((s.launch? f.lid).map Launch.prio).getD 0
  let low := s.formes.filter fun f => f.place = .placed && f.leave.isNone && s.partOf f.lid = part && decide (pr f < l.prio)
  sortBy pr (sortBy (fun f : Forme => s.nextId - f.placedAt) low)

/-- The shortest run of victims whose going, with that of the formes that are leaving already, lets a forme fit on some core. -/
def State.enough (s : State) (part : Nat) (l : Launch) (vs : List Forme) : Option (List Forme) :=
  (upFrom 0 (vs.length + 1)).findSome? fun n =>
    let gone := fun (f : Forme) => s.movable part f || f.leave.any (fun x => !x.halt) || (vs.take n).any fun v => v.fid = f.fid
    if (upFrom 0 s.cores).any fun c => s.fitsOn part c l.record (s.nextLive l) gone then some (vs.take n) else none

/-- A held forme that has waited past its LATBOUND requests pre-emption (R345, R346). -/
def execLatboundExpiry (lid : Nat) (s : State) : Host.Outcome State Fault Refusal :=
  match s.launch? lid with
  | none => .next s
  | some l =>
    let part := s.partOf lid
    if l.record.latbound = 0 || !s.pendingForme l || !s.places part l.ctx || s.fitsAny part l || !s.waited l (l.record.latbound * 10 ^ 9 + 1) then .next s
    else match s.enough part l (s.victims part l) with
      | none => .next s
      | some vs => .next (vs.foldl (fun s f => s.preempt f.fid (s.chooseMethod f.fid l.record.latbound false) false) s)

/-- A party as it is saved: its windows lose their frames (R379), and a reconvergence count restarts (R347). -/
def Party.saved (p : Party) : Party :=
  { p with w := p.w.map fun x => { x with fvalid := false }, wait := match p.wait with | .reconv _ => .reconv 0 | w => w }

/-- A result that is still outstanding when its party is saved: a window's frame is not valid (R379, R382). -/
def Dest.unframed : Dest → Dest
  | .wreg n v => .wreg n { v with fvalid := false }
  | d => d

/-- Whether a forme on its way off its core has come to rest: parties at pitch boundaries or parked, and for a drain no press operation
or engine command left (R202, R347). -/
def State.atRest (s : State) (f : Forme) (x : Leave) : Bool :=
  (s.parties.filter fun p => p.fid = f.fid).all (fun p => p.pitch.isNone || !p.park.isEmpty) &&
  (x.how ≠ .drain || !s.ops.any fun o => o.fid = f.fid && o.unfinished && o.queue ≠ 4)

/-- PREEMPT ends when no forme that it named is still leaving (R374). -/
def State.preemptCheck (s : State) : State :=
  if s.mailbox.cmd = 7 && !s.formes.any fun f => f.leave.any fun x => !x.halt then
    { s with mailbox := { s.mailbox with cmd := 0, done := true, result := 0 } }.send (.mailboxDone 0)
  else s

/-- A pre-empted forme leaves its core, or comes to its halt in place (R347, R379). -/
def execFormeLeaveCore (fid : Nat) (s : State) : Host.Outcome State Fault Refusal :=
  match s.forme? fid with
  | none => .next s.preemptCheck
  | some f =>
    match f.leave with
    | none => .next s.preemptCheck
    | some x =>
      if !s.atRest f x then .next s
      else
        let s := if x.how = .flush then s.flushOps fid else s
        let s := { s with parties := s.parties.map fun (p : Party) => if p.fid = fid then p.saved else p
                          longs := modifyWhere (fun (x : Long) => x.fid = fid) (fun x => { x with dests := x.dests.map Dest.unframed }) s.longs }
        let s := s.onForme fid fun f =>
          { f.holdWatches s.wall with leave := none, place := if x.halt then .halted else .saved, haltedAt := s.nextId, haltWall := if x.halt then some s.wall else none }
        .next ((s.bump.preemptCheck).formeCheck fid).stir

/-! Slices (R378, R379, R382). -/

/-- Whether a context has work (R378). -/
def State.hasWork (s : State) (part c : Nat) : Bool :=
  (s.ctx c).part = some part &&
  ((s.queues.any fun q => q.ctx = c && !q.packets.isEmpty)
    || (s.launches.any fun l => l.ctx = c && s.pendingForme l)
    || s.formes.any fun f => f.place ≠ .placed && (match s.launch? f.lid with | some l => l.ctx = c | none => false))

/-- The formes of a partition's context that are on their cores and not halted. -/
def State.onCores (s : State) (c : Nat) : List Forme :=
  s.formes.filter fun f => f.place = .placed && (match s.launch? f.lid with | some l => l.ctx = c | none => false)

/-- The next context after `c`, in ascending order around the end, that has work (R378). -/
def State.nextCtx (s : State) (part : Nat) (c : Option Nat) : Option Nat :=
  let first := match c with | some c => c + 1 | none => 0
  (upFrom 0 64).findSome? fun k =>
    let n := (first + k) % 64
    if c ≠ some n && s.hasWork part n then some n else none

/-- When the running slice of a context ends; never with a slice length of 0 (R378). -/
def State.sliceDue (s : State) (part c : Nat) : Option Nat :=
  if (s.ctx c).slice = 0 then none else some ((s.part part).sliceAt + (s.ctx c).slice * 10 ^ 9)

def State.sliceOver (s : State) (part c : Nat) : Bool := (s.sliceDue part c).any fun t => decide (t ≤ s.wall)

/-- The running context's slice ends, when its time is over or its work: its formes halt in place if another context has work, and otherwise the slice
renews (R378, R379). DEDUCED: log entry 71. -/
def execSliceEnd (part : Nat) (s : State) : Host.Outcome State Fault Refusal :=
  let p := s.part part
  match p.running with
  | none => .next s
  | some c =>
    let busy := s.hasWork part c || !(s.onCores c).isEmpty
    let past_ := s.sliceOver part c
    if p.halting || (busy && !past_) then .next s
    else if (s.nextCtx part (some c)).isNone then .next (if past_ then s.onPart part fun p => { p with sliceAt := s.wall } else s)
    else
      let bound := let b := (s.ctx c).haltBound; if b = 0 then 40 else b
      let fs := s.onCores c
      let s := fs.foldl (fun s f => s.preempt f.fid (s.chooseMethod f.fid bound true) true) s
      let s := if fs.isEmpty then s else s.count c 0x11 1
      .next (s.onPart part fun p => { p with halting := true })

/-- The next context with work begins its slice once the outgoing one has halted: its formes that lie wholly on their cores go on there, and the others are
to be restored (R378, R382). -/
def execSliceStart (part : Nat) (s : State) : Host.Outcome State Fault Refusal :=
  let p := s.part part
  let idle := match p.running with | none => true | some c => p.halting && (s.onCores c).isEmpty
  if !idle then .next s
  else match (match s.nextCtx part p.running with | some n => some n | none => p.running) with
    | none => .next s
    | some n =>
      let back := fun (f : Forme) => f.place = .halted && (match s.launch? f.lid with | some l => l.ctx = n | none => false)
      let mine := fun (f : Forme) => back f && f.moved = {}
      let s := { s with ops := modifyWhere (fun (o : Op) => decide (o.phase = Phase_.running) && s.formes.any fun f => mine f && f.fid = o.fid) (fun o => { o with runAt := s.nextId }) s.ops
                        formes := modifyWhere mine (fun f => { f.goWatches s.wall with place := .placed }) ((s.formes.filter mine).foldl State.wakeAfter s).formes
                        parties := ((s.formes.filter mine).foldl State.wakeAfter s).parties }
      let s := { s with formes := modifyWhere (fun f => back f && f.moved ≠ ({} : Moved)) (fun f => { f with place := .saved }) s.formes }
      .next (s.onPart part fun p => { p with running := some n, halting := false, sliceAt := s.wall }).stir

end Sys2Proof.Machine
end

