-- ==== Sys2Proof/Machine/Isolation.lean ====
section
/-! DEFINITION. Queue slots (R383, R397), walks, page requests and invalidations (R384 to R392), and the device's plain registers (R12). -/
namespace Sys2Proof.Machine

/-! What waits for a translation goes on (R264, R390). -/

/-- Walks that have ended, each with what became of it. -/
abbrev Settled := List (Walk × Verdict)

def settleOne (d : Settled) (g : Granule) : Granule :=
  match d.find? fun x => x.1.granule = g.addr && x.1.need = g.need && x.1.parking = g.parking with
  | some x => if g.verdict = .waiting then { g with verdict := x.2 } else g
  | none => g

def settleGs (d : Settled) (gs : List Granule) : List Granule := gs.map (settleOne d)


/-- The context in whose address space a forme runs; a task has its own (R318). -/
def State.spaceCtx (s : State) (fid : Nat) : Option Nat :=
  match (s.trace fid).bind fun g => s.launch? g.lid with
  | some l => if l.task.isSome then none else some l.ctx
  | none => none

/-- Every agent of a context learns what became of its walks. -/
def State.settleAll (s : State) (c : Nat) (d : Settled) : State :=
  let own := fun (fid : Nat) => s.spaceCtx fid = some c
  { s with
    parties := modifyWhere (fun p => own p.fid) (fun (p : Party) => { p with park := settleGs d p.park }) s.parties
    ops := modifyWhere (fun o => own o.fid) (fun (o : Op) => { o with wait := settleGs d o.wait }) s.ops
    homes := modifyWhere (fun h => own h.fid) (fun (h : Home) => { h with steps := h.steps.map fun x => { x with wait := settleGs d x.wait } }) s.homes
    accepting := modifyWhere (fun x => own x.fid) (fun (x : Accepting) => { x with wait := settleGs d x.wait }) s.accepting
    graphs := modifyWhere (fun g => g.ctx = c) (fun (g : Graph) => { g with nodes := g.nodes.map fun n => { n with wait := settleGs d n.wait } }) s.graphs
    jobs := modifyWhere (fun j => j.ctx = c) (fun (j : Job) => { j with phases := j.phases.map fun p => { p with wait := settleGs d p.wait } }) s.jobs
    queues := modifyWhere (fun q => q.ctx = c) (fun (q : Queue) =>
      { q with wait := settleGs d q.wait, packets := q.packets.map fun p => { p with wait := settleGs d p.wait } }) s.queues
    status := modifyWhere (fun w => w.ctx = c) (fun (w : StatusWrite) => { w with wait := settleGs d w.wait }) s.status
    mailbox := if c = 0 then { s.mailbox with wait := settleGs d s.mailbox.wait } else s.mailbox }

/-- Status writes, acceptances and withdrawals that waited go on by themselves. -/
def State.goOn (s : State) (c : Nat) : State :=
  let s := s.statusDrain
  let s := (s.accepting.filter fun x => s.spaceCtx x.fid = some c && idle x.wait).foldl (fun s x => s.acceptTry x) s
  let gone := (s.queues.filter fun q => q.ctx = c).flatMap fun q => (q.packets.filter fun p => p.state = .withdrawn && idle p.wait).map fun p => (q.slot, p.idx)
  gone.foldl (fun s x => s.finishWithdrawn c x.1 x.2) s

/-- Walks end, and what waited for them goes on. -/
def State.endWalks (s : State) (c : Nat) (d : Settled) : State :=
  let s := { s with walks := s.walks.filter fun w => !d.any fun x => x.1 = w }
  ((s.settleAll c d).goOn c).stir

/-! Translation completions (R384, R385, R390, R391). -/

def ctxWalks (s : State) (c va : Nat) : List Walk := s.walks.filter fun w => w.ctx = c && w.granule = granuleOf va

/-- The page size that a completion's size is used as (R384). -/
def pageSize (n : Nat) : Nat := if 2 ^ 30 ≤ n then 2 ^ 30 else if 2 ^ 21 ≤ n then 2 ^ 21 else 2 ^ 16

/-- The whole of a translated page may be used by a tenant (R384). DEDUCED: log entry 75. -/
def State.pageAllowed (s : State) (tenant : W32) (pa size : Nat) : Bool :=
  (upFrom 0 (size / 2 ^ 16)).all fun k => !s.refusedPa tenant (s.moved (pa + k * 2 ^ 16))

/-- The walks of a context that an installed page has ended. -/
def State.walksDone (s : State) (c : Nat) : Settled :=
  (s.walks.filter fun w => w.ctx = c).filterMap fun w =>
    match s.translate (.ctx c) w.granule w.need with
    | .hit _ => some (w, .ready)
    | .refused => some (w, .refused)
    | .miss => none

def State.onWalks (s : State) (ws : List Walk) (f : Walk → Walk) : State := { s with walks := modifyWhere (fun w => ws.contains w) f s.walks }

def execTranslationCompletion (ctx va : Nat) (r : AtsReply) (s : State) : Host.Outcome State Fault Refusal :=
  let ws := (ctxWalks s ctx va).filter fun w => !w.asked || w.again
  let (base, n) : Nat × Nat := match r with | .page _ size .. => (va / pageSize size * pageSize size, pageSize size) | _ => (va / 2 ^ 16 * 2 ^ 16, 2 ^ 16)
  if ws.isEmpty then .next s
  else if ws.any fun w => w.stale.any fun x => decide (base < x.1 + x.2 ∧ x.1 < base + n) then
    .next (ws.foldl (fun s w => s.send (.translate ctx w.granule w.need)) (s.onWalks ws fun w => { w with stale := [] }))
  else
    let s := s.onWalks ws fun w => { w with again := false, stale := [] }
    let ws := ws.map fun w => { w with again := false, stale := [] }
    let refuse := Host.Outcome.next (s.endWalks ctx (ws.map fun w => (w, .refused)))
    match r with
    | .refused => refuse
    | .none =>
      let ws := ws.filter fun w => !w.asked
      let late := ws.filter fun w => w.tries ≥ 4 || (s.ctx ctx).priOff
      let ask := ws.filter fun w => !late.contains w
      let s := ask.foldl (fun s w => s.send (.pageRequest ctx w.granule w.need)) (s.onWalks ask fun w => { w with asked := true })
      .next (if late.isEmpty then s else s.endWalks ctx (late.map fun w => (w, .refused)))
    | .page pa size r w x =>
      if size < 2 ^ 16 then refuse
      else
        let n := pageSize size
        let page := va / n * n
        let at_ := pa / n * n
        if !s.pageAllowed (s.ctx ctx).tenant at_ n then refuse
        else
          let keep := s.tlb.filter fun e => !(e.ctx = ctx && decide (e.page < page + n ∧ page < e.page + e.size))
          let s := { s with tlb := { ctx := ctx, page := page, size := n, pa := at_, r := r, w := w, x := x } :: keep }
          .next (s.endWalks ctx (s.walksDone ctx))

/-- The host's answer to a page request: after Success every lane of the parking that has no translation yet is walked again (R390). DEDUCED: log
entry 76. -/
def execPageRequestResponse (ctx va : Nat) (r : PriReply) (s : State) : Host.Outcome State Fault Refusal :=
  let ws := (ctxWalks s ctx va).filter (·.asked)
  if ws.isEmpty then .next s
  else match r with
    | .success =>
      let s := s.onWalks ws fun w => { w with asked := false, tries := w.tries + 1, stale := [] }
      let others := s.walks.filter fun w => w.ctx = ctx && w.asked && !w.again && ws.any fun x => x.parking = w.parking
      let s := s.onWalks others fun w => { w with again := true, stale := [] }
      .next ((ws ++ others).foldl (fun s w => s.send (.translate ctx w.granule w.need)) s).stir
    | .invalidRequest => .next (s.endWalks ctx (ws.map fun w => (w, .refused)))
    | .responseFailure =>
      let s := s.onCtx ctx fun c => { c with priOff := true }
      .next (s.endWalks ctx ((s.walks.filter fun w => w.ctx = ctx && w.asked).map fun w => (w, .refused)))

/-- System software lets a function send page requests again (R390). -/
def execPageRequestInterfaceEnable (ctx : Nat) (s : State) : Host.Outcome State Fault Refusal := .next (s.onCtx ctx fun c => { c with priOff := false })

/-- Whether a window's frame lies over some virtual bytes (R391). -/
def Window.overVa (w : Window) (a n : Nat) : Bool := w.isOpen && !w.spad && w.fvalid && decide (w.vb < a + n ∧ a < w.vb + w.flim)

def Party.dropFrames (p : Party) (bad : Window → Bool) : Party := { p with w := p.w.map fun x => if bad x then { x with fvalid := false } else x }

/-- Windows of some formes lose their frames, those that WOPEN has yet to deliver among them (R261, R388, R391). -/
def State.dropFrames (s : State) (mine : Nat → Bool) (bad : Window → Bool) : State :=
  let dest := fun (d : Dest) => match d with | .wreg n w => .wreg n (if bad w then { w with fvalid := false } else w) | d => d
  { s with parties := modifyWhere (fun p => mine p.fid) (fun (p : Party) => p.dropFrames bad) s.parties
           longs := modifyWhere (fun x => mine x.fid) (fun (x : Long) => { x with dests := x.dests.map dest }) s.longs }

/-- One context's part of an invalidation (R391). -/
def State.invalidate (s : State) (c a n : Nat) : State :=
  let hit := fun (e : TlbEntry) => e.ctx = c && decide (e.page < a + n ∧ a < e.page + e.size)
  let mine := fun (p : Party) => s.spaceCtx p.fid = some c
  let any := s.tlb.any hit || s.parties.any fun p => mine p && p.w.any fun w => w.overVa a n
  let s := { s.dropFrames (fun fid => s.spaceCtx fid = some c) (fun w => w.overVa a n) with
                    tlb := s.tlb.filter fun e => !hit e
                    walks := s.walks.map fun w => if w.ctx = c && (!w.asked || w.again) then { w with stale := (a, n) :: w.stale } else w }
  if any then s.count c 0x10 1 else s

/-- An ATS invalidation. Accesses already translated have been performed, or their operations translate again (R391, R392). DEDUCED: log entry 77. -/
def execAtsInvalidation (pasid : BitVec 20) (base size : Nat) (s : State) : Host.Outcome State Fault Refusal :=
  let cs := (upFrom 0 64).filter fun c => (s.ctx c).pasid = pasid && (s.ctx c).part.isSome
  .next ((cs.foldl (fun s c => s.invalidate c base size) s).send (.invalidated pasid base size)).stir

/-! Queue slots (R331, R383, R397). -/

/-- The slots that a function has (R383). -/
def slotOk (c k : Nat) : Bool := (c = 0 && decide (k < 64)) || (decide (1 ≤ c ∧ c < 64) && decide (k < 8))

/-- A slot comes to be listed: one that is not holds its reset values. -/
def State.slot (s : State) (c k : Nat) : State :=
  if (s.queue? c k).isSome then s else { s with queues := s.queues ++ [{ ctx := c, slot := k }] }

/-- The commands of the mailbox by their codes (R374, R375). -/
def mbCommand (code : Nat) : Option Instr :=
  [Instr.partSet, .ctxBind, .ctxUnbind, .fassign, .frelease, .hmove, .preempt, .killq, .standset, .signerSet, .tmplReg, .tmplDrop, .taskctx, .sessOpen, .sessClose][code - 1]?.filter
    fun _ => code ≠ 0

/-- A write of MBCMD starts the command that its low byte names, the reserved bits left zero (R12), is ignored while one runs, and ends with RESULT 1
where the byte names none (R373). -/
def State.mbUnknown (s : State) (v : W64) : State :=
  if !s.mailbox.done then s
  else match mbCommand (v.toNat % 256) with
  | some i => { s with inbox := i :: s.inbox }
  | none => { s with mailbox := { s.mailbox with result := if s.dvsec.ready then 1 else 3 } }.send (.mailboxDone (if s.dvsec.ready then 1 else 3))

/-- Registers that only store their defined fields (R12, R373, R383, R416, R420). -/
def execRegisterWrite (r : BarReg) (value : W64) (s : State) : Host.Outcome State Fault Refusal :=
  match r with
  | .mbArg k => .next { s with mailbox := { s.mailbox with args := setNth s.mailbox.args k.val value } }
  | .qdesc c k => .next (if slotOk c k then (s.slot c k).onQueue c k fun q => { q with qdesc := value } else s)
  | .mbCmd => .next (s.mbUnknown value)
  | .audctl p => .next (s.onPart p.val fun x => { x with audctl := value &&& 0x9F01 })
  | .config => .next { s with dvsec := { s.dvsec with config := value.setWidth 32 &&& (match s.fit with | .f2 => 0x0000000F | .m1 => 0x000FF00F) } }

/-- A descriptor's fields are in range (R331). -/
def descSound (bs : List Byte) : Bool :=
  let f := packetField bs
  f 0 8 % 256 = 0 && decide (4 ≤ f 8 1 ∧ f 8 1 ≤ 16) && decide (f 9 1 ≤ 7) && zeroFrom bs 0x0A 6 && f 0x10 8 % 8 = 0 && f 0x18 8 % 8 = 0
    && f 0x20 8 % 64 = 0 && zeroFrom bs 0x28 24

/-- EN is written with 1 (R383): the descriptor is read, and the queue is enabled or refused. DEDUCED: log entry 72. -/
def execQctlEnable (ctx slot : Nat) (s : State) : Host.Outcome State Fault Refusal :=
  if !slotOk ctx slot || (ctx ≠ 0 && !s.vfEnable) then .next s
  else
    let s := s.slot ctx slot
    match s.queue? ctx slot with
    | none => .next s
    | some q =>
      if q.en || q.killing then .next s
      else
        let s := s.reachVa (.ctx ctx) (if q.opening then q.wait else []) q.qdesc.toNat 64
        let refuse := Host.Outcome.next ((s.onQueue ctx slot fun q => { q with refused := true, opening := false, killed := false, wait := [] }).stir)
        if q.qdesc.toNat % 64 ≠ 0 || (s.ctx ctx).part.isNone then refuse
        else match s.fetchVa (s.ctxScene ctx) (if q.opening then q.wait else []) q.qdesc.toNat 64 with
          | .missing l => .next ((s.askAll (.ctx ctx) (s.granulesOf q.wait l)).onQueue ctx slot fun q => { q with opening := true, killed := false, wait := s.granulesOf q.wait l })
          | .failed _ => refuse
          | .ok bs =>
            if !descSound bs then refuse
            else
              let f := packetField bs
              .next ((s.onQueue ctx slot fun q => { q with
                en := true, killed := false, refused := false, opening := false, wait := [], db := 0, parse := 0, fetch := 0, rdidx := 0
                ring := f 0 8, logn := f 8 1, prio := f 9 1, rdAddr := f 0x10 8, doneAddr := f 0x18 8, logAddr := f 0x20 8
                rejIdx := 0, reason := 0, rejCnt := 0, supCnt := 0 }).stir)

/-- The 256 bits of a window as R386 lays them out, each field cut to its width. -/
def Window.bytes (w : Window) : List Byte :=
  bytesOfNat 32 (bits w.toff 4 60 * 2 ^ 196 + w.perm.toNat * 2 ^ 193 + (if w.fvalid then 2 ^ 192 else 0) + bits w.flim 0 31 * 2 ^ 161 + bits w.frame 0 45 * 2 ^ 116
    + bits (w.len - 1) 0 57 * 2 ^ 59 + bits w.vb 0 57 * 4 + (if w.spad then 2 else 0) + (if w.isOpen then 1 else 0))

/-- The saved-context record of a party that a kill stops, in the PF's log (R407, R408). DEDUCED: log entry 74. -/
def State.savedRecord (s : State) (l : Launch) (f : Forme) (p : Party) : State :=
  s.logWrite 0 { kind := 0x85, code := 0, tag := l.record.tag, who := whoOf l.ctx f.core p.hp f.index, clk := s.clk, raw := p.w.map Window.bytes }

/-- A launch is killed (R397): with formes that have begun it ends with STATUS 3 and the code of CANCELLED, else with STATUS 2. -/
def State.killLaunch (s : State) (lid : Nat) : State :=
  match s.launch? lid with
  | none => s
  | some l =>
    if l.block.status ≠ 0 then s
    else
      let fs := s.formes.filter fun f => f.lid = lid && f.begun
      let s := fs.foldl (fun s f => (s.parties.filter fun p => p.fid = f.fid).foldl (fun s p => s.savedRecord l f p) s) s
      let s := if fs.isEmpty then s else (s.onLaunch lid fun l => { l with failed := true }).firstTrap lid (trapNum .cancelled)
      s.cancelLaunch lid

/-- Whether anything of a queue's work is left (R397). -/
def State.queueBusy (s : State) (c k : Nat) : Bool :=
  (s.queue? c k).any (fun q => !q.packets.isEmpty) || (s.launches.any fun l => l.ctx = c && l.queue = some k && l.block.status = 0)
    || (s.graphs.any fun g => g.ctx = c && g.queue = some k && g.block.status = 0) || s.jobs.any fun j => j.ctx = c && j.queue = some k && j.block.status = 0

/-- A kill completes: KILLED becomes 1, and KILLQ ends (R397). -/
def State.killCheck (s : State) (c k : Nat) : State :=
  if (s.queue? c k).any fun q => q.killing && !s.queueBusy c k then
    let s := s.onQueue c k fun q => { q with killing := false, killed := true }
    let m := s.mailbox
    if m.cmd = 8 && !m.done && m.run.headD 0 = BitVec.ofNat 64 (c + k * 2 ^ 8) then
      { s with mailbox := { m with cmd := 0, done := true, result := 0 } }.send (.mailboxDone 0)
    else s
  else s

/-- The steps of a queue-level kill (R397). -/
def State.startKill (s : State) (c k : Nat) : State :=
  let s := (s.slot c k).onQueue c k fun q => { q with en := false, opening := false, wait := [], killing := true }
  match s.queue? c k with
  | none => s
  | some q =>
    let s := q.packets.foldl (fun s p =>
      let s := if p.state = .withdrawn then s else s.countWithdrawn c k p.idx
      if p.state = .fetched || p.state = .parsing then
        (s.onPacket c k p.idx fun p => { p with state := .withdrawn, wait := [] }).finishWithdrawn c k p.idx
      else s) s
    let s := (s.launches.filter fun l => l.ctx = c && l.queue = some k && l.block.status = 0).foldl (fun s l => s.killLaunch l.lid) s
    let s := (s.graphs.filter fun g => g.ctx = c && g.queue = some k && g.block.status = 0).foldl (fun s g => s.cancelGraph g.gid) s
    (s.jobs.filter fun j => j.ctx = c && j.queue = some k && j.block.status = 0).foldl (fun s j => s.cancelJob j.jid) s

/-- A kill is started where none is under way, and brought to its end where nothing is left. -/
def State.killStep (s : State) (c k : Nat) : State :=
  if !slotOk c k then s
  else ((if (s.queue? c k).any (·.killing) then s else s.startKill c k).killCheck c k).stir

/-- EN is written with 0 (R383). -/
def execQctlDisable (ctx slot : Nat) (s : State) : Host.Outcome State Fault Refusal := .next (s.killStep ctx slot)

/-- KILL is written with 1 (R383, R397). -/
def execQctlKill (ctx slot : Nat) (s : State) : Host.Outcome State Fault Refusal := .next (s.killStep ctx slot)

/-! VF Enable (R398). -/

/-- A near-data session closes on this device, and its peer is told (R314). -/
def State.closeSession (s : State) (h : W64) : State :=
  match s.sessions.find? fun x => x.handle = h with
  | none => s
  | some x => { s with sessions := s.sessions.filter fun y => y.handle ≠ h }.send (.sessClosed x.peer h)

/-- What a context's end takes with it: its near-data sessions and the naming of its task context (R314). -/
def State.contextEnds (s : State) (c : Nat) : State :=
  let s := (s.sessions.filter fun x => x.ctx = some c).foldl (fun s x => s.closeSession x.handle) s
  let lost := s.taskCtxs.filter fun t => t.2 = c
  let s := if s.fit = .m1 then (s.sessions.filter fun x => lost.any fun t => t.1 = x.tenant).foldl (fun s x => s.closeSession x.handle) s else s
  { s with taskCtxs := s.taskCtxs.filter fun t => t.2 ≠ c, tlb := s.tlb.filter fun e => e.ctx ≠ c }

/-- The waiting status writes of some contexts go: each of a queue is reported as dropped, and records that waited go to the PF's log (R339, R398,
R399). DEDUCED: log entry 78. -/
def State.dropStatus (s : State) (gone : Nat → Bool) : State :=
  let drop := fun (s : State) (w : StatusWrite) => match w.what with
    | .record r => s.logWrite 0 r
    | _ => if w.group = logGroup then s else s.dropWrite w .cancelled
  (s.status.filter fun w => gone w.ctx).foldl drop { s with status := s.status.filter fun w => !gone w.ctx }

/-- One VF context is halted and its work removed (R398). -/
def State.removeVf (s : State) (c : Nat) : State :=
  let s := (s.queues.filter fun q => q.ctx = c).foldl (fun s q => if q.killing then s else s.startKill c q.slot) s
  let mine := s.launches.filter fun l => l.ctx = c
  let s := mine.foldl (fun s l => s.killLaunch l.lid) s
  let fids := (s.formes.filter fun f => mine.any fun l => l.lid = f.lid).map (·.fid)
  let s := s.dropStatus (· = c)
  let s := { s with walks := s.walks.filter fun w => w.ctx ≠ c
                    lines := s.lines.map fun (l : Line) => if l.owner.any fids.contains then { l with pinned := none, cls := 0 } else l }
  ((s.contextEnds c).onCtx c fun x => { x with counters := List.replicate 23 0 })

/-- VF Enable is cleared: failed items go to the PF's log (R398). DEDUCED: log entry 78. -/
def execVfEnableClear (s : State) : Host.Outcome State Fault Refusal :=
  if !s.vfEnable then .next s
  else .next ((upFrom 1 63).foldl (fun (s : State) c => s.removeVf c) { s with vfEnable := false }).stir

/-- VF Enable is set again: every VF context is unbound, with no queue enabled (R398). -/
def execVfEnableSet (s : State) : Host.Outcome State Fault Refusal :=
  let vf := fun (lid : Nat) => (s.launch? lid).any fun l => l.ctx ≠ 0
  if s.vfEnable || s.formes.any fun f => vf f.lid then .next s
  else
    let s := s.dropStatus (· ≠ 0)
    .next { s with
    vfEnable := true
    ctxs := s.ctx 0 :: List.replicate 63 {}
    queues := s.queues.filter fun q => q.ctx = 0
    launches := s.launches.filter fun l => l.ctx = 0
    graphs := s.graphs.filter fun g => g.ctx = 0
    jobs := s.jobs.filter fun j => j.ctx = 0
    walks := s.walks.filter fun w => w.ctx = 0
    tlb := s.tlb.filter fun e => e.ctx = 0
    parts := s.parts.map fun (p : Part) => if p.running = some 0 then p else { p with running := none, halting := false } }

end Sys2Proof.Machine
end

