-- ==== Sys2Proof/Machine/Mailbox.lean ====
section
/-! DEFINITION. The management mailbox (R373 to R377, R387, R388) and the session handshake (R314, R375). -/
namespace Sys2Proof.Machine

/-! Commands (R373). -/

/-- An argument of the command in progress, as it found it, or of the next one. -/
def State.mbArg (s : State) (k : Nat) : Nat := ((if s.mailbox.done then s.mailbox.args else s.mailbox.run).getD k 0).toNat

/-- A command ends: RESULT and DONE, and the mailbox's interrupt. -/
def State.mbEnd (s : State) (r : Nat) : State :=
  { s with mailbox := { s.mailbox with cmd := 0, done := true, result := r, wait := [], session := none } }.send (.mailboxDone r)

/-- A write of MBCMD, or the going on of the command that it started: ignored while another runs, RESULT 3 before READY, RESULT 1 for
a nonzero argument that the command does not use (R373, R418). A
command keeps the arguments that it found; `body` is told whether it has just started. DEDUCED: log entry 79. -/
def State.mb (s : State) (code used : Nat) (body : State → Bool → State) : Host.Outcome State Fault Refusal :=
  let first := s.mailbox.done
  if !first && (s.mailbox.cmd ≠ code || s.mailbox.wait.isEmpty || !idle s.mailbox.wait) then .next s
  else
    let s := if first then { s with mailbox := { s.mailbox with cmd := code, done := false, result := 0, wait := [], run := s.mailbox.args } } else s
    if !s.dvsec.ready then .next (s.mbEnd 3)
    else if (s.mailbox.run.drop used).any fun v => v ≠ 0 then .next (s.mbEnd 1)
    else .next (body s first).stir

/-- A command that has its answer at once: none is RESULT 0. -/
def State.mbNow (s : State) (r : Except Nat State) : State :=
  match r with
  | .error n => s.mbEnd n
  | .ok t => t.mbEnd 0

/-- A VF's context while VF Enable is 0 (R374). -/
def State.vfOff (s : State) (c : Nat) : Bool := c ≠ 0 && !s.vfEnable

/-! Partitions (R374, R376, R377). -/

def quotaOf (q p : Nat) : Quota :=
  { cores := BitVec.ofNat 16 (bits q 48 16), pslot := bits q 40 8, rows := bits q 27 13, srows := bits q 17 10, gtiles := bits q 13 4
    ropes := bits q 6 7, rdcpin := 128 * bits p 32 16, l2pin := 128 * bits p 16 16, l1pin := bits p 0 16 }

def quotaSound (q p : Nat) : Bool :=
  bits q 0 6 = 0 && bits p 48 16 = 0 && decide (bits q 40 8 ≤ 128 ∧ bits q 27 13 ≤ 7936 ∧ bits q 17 10 ≤ 768 ∧ bits q 13 4 ≤ 8 ∧ bits q 6 7 ≤ 64
    ∧ bits p 0 16 ≤ 4096)

/-- The 64 KiB frames of a range. -/
def framesOf (a n : Nat) : List Nat := if n = 0 then [] else upFrom (a / 2 ^ 16) ((a + n - 1) / 2 ^ 16 + 1 - a / 2 ^ 16)

/-- A range of own memory whose frames are FREE or the device's: PART_SET answers RESULT 1 for a ring or a save area that holds a tenant's frames.
DESIGN CHOICE: log entry 136. -/
def State.deviceRange (s : State) (a n : Nat) : Bool :=
  n = 0 || (s.ownMem (a + n - 1) && (framesOf a n).all fun f => match s.frameOwner (f * 2 ^ 16) with | some (some _) => false | _ => true)

def State.setFrames (s : State) (fs : List Nat) (o : Option (Option W32)) : State :=
  let rest := s.frames.filter fun x => !fs.contains x.1
  { s with frames := match o with | none => rest | some o => fs.map (fun f => (f, o)) ++ rest }

/-- What the partitions but one hold of a core, by a field of their quotas. -/
def State.sumCore (s : State) (but die core : Nat) (f : Quota → Nat) : Nat :=
  sumBy (fun p => let q := (s.part p).quota die; if p ≠ but && q.cores.getLsbD core then f q else 0) (upFrom 0 16)

def State.sumDie (s : State) (but die : Nat) (f : Quota → Nat) : Nat :=
  sumBy (fun p => if p ≠ but then f ((s.part p).quota die) else 0) (upFrom 0 16)

/-- A quota that would pass a core's resources, or half of a cache's lines (R376, R377). -/
def State.overQuota (s : State) (part die : Nat) (q : Quota) : Bool :=
  let above := fun (f : Quota → Nat) (lim : Nat) => (upFrom 0 16).any fun c => q.cores.getLsbD c && decide (lim < s.sumCore part die c f + f q)
  above Quota.pslot 128 || above Quota.rows 7936 || above Quota.srows 768 || above Quota.gtiles 8 || above Quota.ropes 64 || above Quota.l1pin 4096
    || decide (8192 * 128 < s.sumDie part die Quota.l2pin + q.l2pin) || decide (2048 * 128 < s.sumDie part die Quota.rdcpin + q.rdcpin)

/-- A quota below what the partition's formes hold on a core (R376). -/
def State.shrinks (s : State) (part die : Nat) (q : Quota) : Bool :=
  (upFrom 0 16).any fun c =>
    let held := s.held part (16 * die + c) (fun _ => false)
    held ≠ {} && !(q.cores.getLsbD c && held.within q)

def execPartSet (s : State) : Host.Outcome State Fault Refusal :=
  s.mb 1 8 fun s _ => s.mbNow <|
    let a := s.mbArg
    let part := bits (a 0) 0 4
    let die := bits (a 0) 8 1
    if bits (a 0) 4 4 ≠ 0 ∨ a 0 / 2 ^ 9 ≠ 0 ∨ die ≥ s.fit.dies ∨ !quotaSound (a 1) (a 2) ∨ a 3 % 2 ^ 16 ≠ 0 ∨ a 4 % 2 ^ 16 ≠ 0 ∨ a 4 < a 5
        ∨ a 6 % 2 ^ 16 ≠ 0 ∨ !s.deviceRange (a 3) (a 4) ∨ !s.deviceRange (a 6) (a 7) then .error 1
    else
      let q := { quotaOf (a 1) (a 2) with ring := a 3, ringBytes := a 4, ringQuota := a 5, save := a 6, saveBytes := a 7 }
      if s.overQuota part die q then .error 2
      else if s.shrinks part die q then .error 3
      else
        let s := s.setFrames (framesOf (a 3) (a 4) ++ framesOf (a 6) (a 7)) (some none)
        .ok (s.onPart part fun p =>
          let p := if p.set then p else { p with set := true, sigma := 16, hits := 0, records := 0 }
          if die = 0 then { p with quota0 := q } else { p with quota1 := q })

/-! Contexts (R374, R407). -/

/-- A context with an enabled queue, a kill under way, or a forme, placed or not (R374). -/
def State.ctxBusy (s : State) (c : Nat) : Bool :=
  (s.queues.any fun q => q.ctx = c && (q.en || q.killing || q.opening)) || (s.formes.any fun f => (s.launch? f.lid).any fun l => l.ctx = c)
    || s.launches.any fun l => l.ctx = c && l.block.status = 0

/-- Records that waited for the bind are written to the log (R407). -/
def State.writeHeld (s : State) (c : Nat) : State :=
  let held := (s.ctx c).held
  held.foldl (fun s r => s.logWrite c r) (s.onCtx c fun x => { x with held := [] })

def execCtxBind (s : State) : Host.Outcome State Fault Refusal :=
  s.mb 2 7 fun s _ => s.mbNow <|
    let a := s.mbArg
    let c := bits (a 0) 0 6
    if bits (a 0) 6 2 ≠ 0 ∨ a 0 / 2 ^ 12 ≠ 0 ∨ 2 ^ 32 ≤ a 1 ∨ 2 ^ 20 ≤ a 2 ∨ 2 ^ 20 < a 3 ∨ 65535 < a 4 ∨ a 5 % 4096 ≠ 0 ∨ a 6 % 4096 ≠ 0 ∨ a 6 < 8192 then .error 1
    else if s.vfOff c then .error 4
    else if s.ctxBusy c then .error 3
    else
      let s := ({ s with walks := s.walks.filter fun w => w.ctx ≠ c, status := s.status.filter fun w => w.ctx ≠ c } : State)
      let s := { s with parts := modifyWhere (fun (p : Part) => p.running = some c) (fun p => { p with running := none, halting := false }) s.parts }
      let s := (s.contextEnds c).onCtx c fun x =>
        { x with part := some (bits (a 0) 8 4), tenant := BitVec.ofNat 32 (a 1), pasid := BitVec.ofNat 20 (a 2), slice := a 3, haltBound := a 4
                 logBase := a 5, logBytes := a 6, log := { x.log with widx := 0, recs := 0 }, counters := List.replicate 23 0 }
      .ok (s.writeHeld c)

def execCtxUnbind (s : State) : Host.Outcome State Fault Refusal :=
  s.mb 3 1 fun s _ => s.mbNow <|
    let c := s.mbArg 0
    if 64 ≤ c then .error 1
    else if s.vfOff c then .error 4
    else if s.ctxBusy c then .error 3
    else
      let s := s.contextEnds c
      let s := { s with parts := s.parts.map fun (p : Part) => if p.running = some c then { p with running := none, halting := false } else p
                        walks := s.walks.filter fun w => w.ctx ≠ c, status := s.status.filter fun w => w.ctx ≠ c }
      .ok (s.onCtx c fun x => { x with part := none, tenant := 0, pasid := 0, slice := 0, haltBound := 0, logBase := 0, logBytes := 0, log := {}, held := [] })

/-! Frames (R387, R388). -/

/-- The frames that ARG0 and ARG1 name, none where they are out of range. -/
def State.frameArgs (s : State) : Option (List Nat) :=
  let base := s.mbArg 0
  let n := s.mbArg 1
  if base % 2 ^ 16 ≠ 0 ∨ n = 0 ∨ !s.ownMem (base + n * 2 ^ 16 - 1) then none else some (upFrom (base / 2 ^ 16) n)

def execFassign (s : State) : Host.Outcome State Fault Refusal :=
  s.mb 4 3 fun s _ => s.mbNow <|
    match s.frameArgs with
    | none => .error 1
    | some fs =>
      if 2 ^ 32 ≤ s.mbArg 2 then .error 1
      else if fs.any fun f => (s.frameOwner (f * 2 ^ 16)).isSome then .error 3
      else .ok (s.setFrames fs (some (some (BitVec.ofNat 32 (s.mbArg 2)))))

/-- A switched move in parts, the one that meets a range, where the move's page begins at `at_`, changed or taken out by `set`. -/
def Move.parted (m : Move) (at_ base n : Nat) (set : Move → Option Move) : List Move :=
  let lo := min m.size (base - at_)
  let hi := min m.size (base + n - at_)
  let part := fun (x y : Nat) => { m with old := m.old + x, new := m.new + x, size := y - x }
  if !m.switched || decide (hi ≤ lo) then [m]
  else ([some (part 0 lo), set (part lo hi), some (part hi m.size)].filterMap id).filter fun m => m.size ≠ 0

/-- Whether bytes, or those that requests to them are forwarded to, meet a range (R310). -/
def leadsTo (l : List Move) : Nat → Nat → Nat → Nat → Nat → Bool
  | 0, a, len, pa, n => decide (a < pa + n ∧ pa < a + len)
  | k + 1, a, len, pa, n => decide (a < pa + n ∧ pa < a + len) || l.any fun m =>
      let lo := max a m.old
      let hi := min (a + len) (m.old + m.size)
      m.switched && decide (lo < hi) && leadsTo l k (m.new + (lo - m.old)) (hi - lo) pa n

/-- Every translation to some physical bytes is removed, one to a moved page by where its requests go (R388); that counts for
each context that loses one (R396). -/
def State.dropTranslations (s : State) (pa n : Nat) : State :=
  let overlaps := fun (a len : Nat) => leadsTo s.moves s.moves.length a len pa n
  let bad := fun (w : Window) => w.isOpen && !w.spad && w.fvalid && overlaps w.frame w.flim
  let loses := fun (c : Nat) => (s.tlb.any fun e => e.ctx = c && overlaps e.pa e.size) || s.parties.any fun p => s.spaceCtx p.fid = some c && p.w.any bad
  ((upFrom 0 64).filter loses).foldl (fun s c => s.count c 0x10 1)
    { s.dropFrames (fun _ => true) bad with tlb := s.tlb.filter fun e => !overlaps e.pa e.size }

/-- Zeros with valid CRC over some bytes, and no copy of their lines (R388, R389). -/
def State.eraseRange (s : State) (pa n : Nat) : State :=
  let inside := fun (a : Nat) => decide (pa ≤ a ∧ a < pa + n)
  { s with mem := s.mem.filter fun c => !inside c.1
           past := s.past.filter fun (x : Past) => !(x.key % 2 = 0 && inside (x.key / 2))
           poison := s.poison.filter fun x => !inside (32 * x)
           failing := s.failing.filter fun x => !inside (32 * x)
           unhomed := s.unhomed.filter fun x => !inside x.1
           lines := s.lines.filter fun (l : Line) => !inside l.addr
           bulk := s.bulk.filter fun b => !inside b.addr
           shared := s.shared.filter fun a => !inside a
           icache := s.icache.filter fun (l : ILine) => !inside l.addr }

def execFrelease (s : State) : Host.Outcome State Fault Refusal :=
  s.mb 5 2 fun s _ => s.mbNow <|
    match s.frameArgs with
    | none => .error 1
    | some fs =>
      let base := s.mbArg 0
      let n := s.mbArg 1 * 2 ^ 16
      match s.frameOwner base with
      | some (some t) =>
        if fs.any fun f => s.frameOwner (f * 2 ^ 16) ≠ some (some t) then .error 4
        else if s.moves.any fun m => !m.switched && (decide (m.old < base + n ∧ base < m.old + m.size) || decide (m.new < base + n ∧ base < m.new + m.size)) then .error 3
        else
          let s := (s.dropTranslations base n).eraseRange base n
          let s := { s with moves := (s.moves.flatMap fun (m : Move) => m.parted m.old base n fun _ => none).flatMap fun (m : Move) => m.parted m.new base n fun _ => none }
          .ok (s.setFrames fs none)
      | _ => .error 4

/-! Pre-emption, kill and standing (R374, R394, R397). -/

def execPreempt (s : State) : Host.Outcome State Fault Refusal :=
  s.mb 7 3 fun s _ =>
    let c := s.mbArg 0
    let tag := s.mbArg 1
    if 64 ≤ c then s.mbEnd 1
    else if s.vfOff c then s.mbEnd 4
    else
      let named := s.formes.filter fun f => f.place = .placed && (s.launch? f.lid).any fun l => l.ctx = c && (tag = 0 || l.record.tag.toNat = tag)
      (named.foldl (fun s f => s.preempt f.fid (s.chooseMethod f.fid (s.mbArg 2) false) false) s).preemptCheck

def execKillq (s : State) : Host.Outcome State Fault Refusal :=
  s.mb 8 1 fun s _ =>
    let c := bits (s.mbArg 0) 0 6
    let k := bits (s.mbArg 0) 8 6
    if bits (s.mbArg 0) 6 2 ≠ 0 ∨ s.mbArg 0 / 2 ^ 14 ≠ 0 ∨ !slotOk c k then s.mbEnd 1
    else if s.vfOff c then s.mbEnd 4
    else s.killStep c k

def execStandset (s : State) : Host.Outcome State Fault Refusal :=
  s.mb 9 2 fun s _ => s.mbNow <|
    if 16 ≤ s.mbArg 0 ∨ 16 < s.mbArg 1 then .error 1
    else .ok (s.onPart (s.mbArg 0) fun p => { p with sigma := s.mbArg 1, hits := 0, records := 0 })

/-! Templates (R315, R375). -/

inductive Buffer where
  | wait (s : State)
  | bad
  | ok (s : State) (bs : List Byte)

/-- A buffer of a command, read in context 0's space (R375). -/
def State.mbRead (s : State) (va n : Nat) : Buffer :=
  let s := s.reachVa (.ctx 0) s.mailbox.wait va n
  match s.fetchVa (s.ctxScene 0) s.mailbox.wait va n with
  | .missing l =>
    let gs := s.granulesOf s.mailbox.wait l
    .wait { s.askAll (.ctx 0) gs with mailbox := { s.mailbox with wait := keeping s.mailbox.wait gs } }
  | .failed _ => .bad
  | .ok bs => .ok s bs

/-- Several buffers; the command waits for the first that misses. -/
def State.mbReads (s : State) (l : List (Nat × Nat)) (body : State → List (List Byte) → State) : State :=
  match l with
  | [] => body s []
  | (va, n) :: l => match s.mbRead va n with
    | .wait t => t
    | .bad => s.mbEnd 1
    | .ok s bs => s.mbReads l fun s rest => body s (bs :: rest)

/-- Whether a buffer can be written. -/
def State.mbWritable (s : State) (va n : Nat) (body : State) : State :=
  match s.translateRange (.ctx 0) s.mailbox.wait va n .w with
  | .ok => body
  | .refused _ => s.mbEnd 1
  | .missing l =>
    let gs := s.granulesOf s.mailbox.wait l
    { s.askAll (.ctx 0) gs with mailbox := { s.mailbox with wait := keeping s.mailbox.wait gs } }

def State.signer? (s : State) (t : W32) : Option (List Byte) := (s.signers.find? fun x => x.1 = t).map (·.2)

def execSignerSet (s : State) : Host.Outcome State Fault Refusal :=
  s.mb 0x0A 2 fun s _ =>
    let t := BitVec.ofNat 32 (s.mbArg 0)
    let rest := s.signers.filter fun x => x.1 ≠ t
    if s.fit ≠ .m1 ∨ 2 ^ 32 ≤ s.mbArg 0 then s.mbEnd 1
    else if s.mbArg 1 = 0 then ({ s with signers := rest } : State).mbEnd 0
    else s.mbReads [(s.mbArg 1, 1952)] fun s bs => ({ s with signers := (t, bs.headD []) :: rest } : State).mbEnd 0

/-- An image keeps the rules of a template: a launch record, then code, with the record's addresses as offsets or 0 (R315). -/
def imageSound (im : List Byte) : Bool :=
  let r := LRec.parse im
  decide (r.entry < im.length ∧ r.handler < im.length) && (recArgs im).1 = 0 && r.done = 0 && r.coinSrc = 0 && r.privBase = 0

def execTmplReg (s : State) : Host.Outcome State Fault Refusal :=
  s.mb 0x0B 5 fun s _ =>
    let t := BitVec.ofNat 32 (s.mbArg 0)
    let n := s.mbArg 2
    if s.fit ≠ .m1 ∨ 2 ^ 32 ≤ s.mbArg 0 ∨ n < 256 ∨ 2 ^ 20 < n ∨ n % 8 ≠ 0 then s.mbEnd 1
    else match s.signer? t with
      | none => s.mbEnd 4
      | some key =>
        s.mbReads [(s.mbArg 1, n), (s.mbArg 3, 3309)] fun s bs =>
          let im := bs.headD []
          let digest := Config.shake256 im 32
          let known := s.templates.any fun x => x.digest = digest
          if !Config.mlDsaVerify key im (bs.getD 1 []) then s.mbEnd 6
          else if !imageSound im then s.mbEnd 1
          else if !known && decide (256 ≤ s.templates.length) then s.mbEnd 2
          else s.mbWritable (s.mbArg 4) 32 <|
            let add := fun (x : Template) => { x with tenants := if x.tenants.contains t then x.tenants else t :: x.tenants }
            let s := { s with templates := if known then modifyWhere (fun x => x.digest = digest) add s.templates else s.templates ++ [({ digest := digest, image := im, tenants := [t] } : Template)] }
            (s.pokeVa (.ctx 0) (s.mbArg 4) digest).mbEnd 0

def execTmplDrop (s : State) : Host.Outcome State Fault Refusal :=
  s.mb 0x0C 2 fun s _ =>
    let t := BitVec.ofNat 32 (s.mbArg 0)
    if s.fit ≠ .m1 ∨ 2 ^ 32 ≤ s.mbArg 0 then s.mbEnd 1
    else s.mbReads [(s.mbArg 1, 32)] fun s bs =>
      let here := fun (x : Template) => x.digest = bs.headD [] && x.tenants.contains t
      if !s.templates.any here then s.mbEnd 4
      else
        let l := modifyWhere here (fun x => { x with tenants := x.tenants.filter (· ≠ t) }) s.templates
        ({ s with templates := l.filter fun x => !x.tenants.isEmpty } : State).mbEnd 0

def execTaskctx (s : State) : Host.Outcome State Fault Refusal :=
  s.mb 0x0D 2 fun s _ => s.mbNow <|
    let t := BitVec.ofNat 32 (s.mbArg 0)
    let c := bits (s.mbArg 1) 0 6
    let rest := s.taskCtxs.filter fun x => x.1 ≠ t
    if s.fit ≠ .m1 ∨ 2 ^ 32 ≤ s.mbArg 0 ∨ bits (s.mbArg 1) 6 2 ≠ 0 ∨ s.mbArg 1 / 2 ^ 9 ≠ 0 then .error 1
    else if bits (s.mbArg 1) 8 1 = 0 then .ok { s with taskCtxs := rest }
    else if s.vfOff c then .error 4
    else if (s.ctx c).part.isNone ∨ (s.ctx c).tenant ≠ t then .error 1
    else .ok { s with taskCtxs := (t, c) :: rest }

/-! Sessions (R314, R375). -/

/-- What a session request says, as its signature and the key derivation take it. -/
def requestText (r : SessReq) : List Byte :=
  bytesOfNat 2 r.pid.toNat ++ bytesOfNat 4 r.tenant.toNat ++ (r.regions.flatMap fun x => bytesOfNat 8 (x.2.1 + x.1 * 2 ^ 48) ++ bytesOfNat 8 x.2.2) ++ r.cert ++ r.key

def answerText (req : SessReq) (a : SessAns) : List Byte := requestText req ++ bytesOfNat 1 a.refused ++ bytesOfNat 8 a.handle.toNat ++ a.cert ++ a.encaps

/-- The session key (R375). -/
def sessionKey (req : SessReq) (a : SessAns) : List Byte := Config.shake256 (Config.mlKemShared a.encaps req.key ++ answerText req a) 32

/-- A region entry: PID, base and length, with whether it is well formed; nothing for an unused one. -/
def regionEntry (bs : List Byte) : Option ((Nat × Nat × Nat) × Bool) :=
  let w := packetField bs 0 8
  let n := packetField bs 8 8
  if w = 0 ∧ n = 0 then none
  else some ((bits w 48 12, bits w 0 48, n), bits w 60 4 = 0 && decide (1 ≤ n ∧ n ≤ 2 ^ 40))

/-- A result region of an F2: its own PID, and frames of the tenant. -/
def State.regionOk (s : State) (tenant : W32) (r : Nat × Nat × Nat) : Bool :=
  r.1 = s.pid.toNat && s.ownMem (r.2.1 + r.2.2 - 1) && (framesOf r.2.1 r.2.2).all fun f => s.frameOwner (f * 2 ^ 16) = some (some tenant)

def execSessOpen (s : State) : Host.Outcome State Fault Refusal :=
  s.mb 0x0E 3 fun s _ =>
    let c := s.mbArg 0
    let m1 := s.mbArg 1
    if s.mailbox.session.isSome then s
    else if s.fit ≠ .f2 ∨ 64 ≤ c ∨ 2 ^ 12 ≤ m1 ∨ s.mbArg 2 % 64 ≠ 0 then s.mbEnd 1
    else if s.vfOff c || (s.ctx c).part.isNone then s.mbEnd 4
    else s.mbReads [(s.mbArg 2, 64)] fun s bs =>
      let t := (s.ctx c).tenant
      let es := (upFrom 0 4).filterMap fun k => regionEntry (((bs.headD []).drop (16 * k)).take 16)
      if es.isEmpty ∨ !es.all fun e => e.2 && s.regionOk t e.1 then s.mbEnd 1
      else if 1024 ≤ s.sessions.length then s.mbEnd 2
      else
        let r : SessReq := { pid := s.pid, tenant := t, regions := es.map (·.1), key := Config.mlKemPublic s.nextId, cert := Config.deviceCertificate, sig := [] }
        let r := { r with sig := Config.mlDsaSign (requestText r) }
        ({ s.bump with mailbox := { s.mailbox with session := some r, askedAt := s.wall } } : State).send (.sessRequest (BitVec.ofNat 12 m1) r)

/-- A handle that no open session has; the spec gives no value. DEDUCED: log entry 80. -/
def State.freshHandle (s : State) : W64 :=
  let n := Config.freeNat s.freeCtr 2100000
  (((upFrom 0 (s.sessions.length + 1)).map fun k => BitVec.ofNat 64 (n + k)).find? fun h => !s.sessions.any fun x => x.handle = h).getD 0

/-- The M1's Jalqueris checks a request and answers it (R375). -/
def State.answerRequest (s : State) (r : SessReq) : State :=
  let answer := fun (s : State) (a : SessAns) => s.send (.sessAnswer r.pid { a with sig := Config.mlDsaSign (answerText r a) })
  let no := fun (n : Nat) => answer s { refused := n, handle := 0, cert := Config.deviceCertificate, encaps := [], sig := [] }
  if s.fit ≠ .m1 ∨ !s.dvsec.ready then s
  else if !(Config.certifiedKey r.cert).any fun k => Config.mlDsaVerify k (requestText r) r.sig then no 6
  else if !s.extents.any fun e => e.own && e.tenant = r.tenant && e.pids.contains r.pid then no 6
  else if 4096 ≤ s.sessions.length then no 2
  else
    let a : SessAns := { refused := 0, handle := s.freshHandle, cert := Config.deviceCertificate, encaps := Config.mlKemEncaps r.key s.nextId, sig := [] }
    let x : Session := { handle := a.handle, peer := r.pid, tenant := r.tenant, key := sessionKey r a, regions := r.regions }
    (answer { s.bump with sessions := s.sessions ++ [x] } a).stir

/-- A request, or the other device's notice that it has closed a session, which closes it here too (R314, R375). -/
def execSessRequest (c : SessCall) (s : State) : Host.Outcome State Fault Refusal :=
  match c with
  | .request r => .next (s.answerRequest r)
  | .closed peer h => .next ({ s with sessions := s.sessions.filter fun x => !(x.peer = peer && x.handle = h) } : State).stir

/-- The F2 checks the answer, installs the session and completes SESS_OPEN; one that comes after 100 ms is too late (R375). -/
def execSessAnswer (r : SessAns) (s : State) : Host.Outcome State Fault Refusal :=
  match s.mailbox.session with
  | none => .next s
  | some q =>
    if s.mailbox.askedAt + 10 ^ 14 ≤ s.wall then .next s
    else if !(Config.certifiedKey r.cert).any fun k => Config.mlDsaVerify k (answerText q r) r.sig then .next (s.mbEnd 6)
    else if r.refused ≠ 0 then .next (s.mbEnd (if r.refused = 2 then 2 else 6))
    else
      let x : Session := { handle := r.handle, peer := BitVec.ofNat 12 (s.mbArg 1), tenant := q.tenant, key := sessionKey q r, regions := q.regions, ctx := some (s.mbArg 0) }
      let s := { s with sessions := s.sessions ++ [x], mailbox := { s.mailbox with args := setNth s.mailbox.args 0 r.handle } }
      .next (s.mbEnd 0).stir

/-- No answer within 100 ms (R375). -/
def execSessOpenTimeout (s : State) : Host.Outcome State Fault Refusal :=
  if s.mailbox.session.isSome && decide (s.mailbox.askedAt + 10 ^ 14 ≤ s.wall) then .next (s.mbEnd 5) else .next s

/-- SESS_CLOSE closes a session here, and tells the other device (R314, R375). -/
def execSessClose (s : State) : Host.Outcome State Fault Refusal :=
  s.mb 0x0F 1 fun s _ => s.mbNow <|
    let h := BitVec.ofNat 64 (s.mbArg 0)
    if s.sessions.any fun x => x.handle = h then .ok (s.closeSession h) else .error 4

/-- Jalqueris answers an SPDM request on a port (R300). DESIGN CHOICE: log entry 97. -/
def execSpdmRequest (port : Nat) (kind : SpdmKind) (s : State) : Host.Outcome State Fault Refusal :=
  match s.ports[port]? with
  | none => .next s
  | some p =>
    if !p.up then .next s
    else .next (s.send (.spdm port (match kind with
      | .certificates => Config.deviceCertificate
      | .measurements => Config.measurement s.firmware s.dvsec.config ++ Config.mlDsaSign (Config.measurement s.firmware s.dvsec.config)
      | .ideKeys => Config.mlDsaSign (Config.mlKemPublic s.nextId) ++ Config.mlKemPublic s.nextId))).bump

end Sys2Proof.Machine
end

