-- ==== Sys2Proof/Machine/Fabric.lean ====
section
/-! DEFINITION. The fabric: extents (R301 to R303), requests and back-invalidation (R299, R304, R305, R307), home moves (R308 to R310), the
dense tier (R312, R313), and near-data task packets at the M1 (R316 to R319). -/
namespace Sys2Proof.Machine

/-! Extents (R301, R303, R389). -/

def extentSize : Nat := 2 ^ 29

/-- The lines of some bytes that this device holds newer than their home, each with its owner forme. -/
def State.dirtyLines (s : State) (inside : Nat → Bool) : List (Nat × Option Nat) :=
  let owner := fun (a : Nat) => ((s.lines.find? fun (l : Line) => l.addr = a && decide (34 ≤ l.cache)).bind (·.owner))
  ((s.bulk.filter fun b => inside b.addr && b.mask ≠ 0).map fun b => (b.addr, (owner b.addr).or b.owner))
    ++ (linesOf ((s.unhomed.filter fun x => inside x.1).map (·.1))).map fun a => (a, owner a)

/-- A holder discards the lines of lost memory: each dirty one is a failed item (R303, R413, R415). -/
def State.dropLost (s : State) (base n : Nat) (c : TrapCode) : State :=
  let dirty := s.dirtyLines fun a => decide (base ≤ a ∧ a < base + n)
  dirty.foldl (fun s x => s.itemToOwner x.2 { ikind := 5, code := c, addr := x.1 }) (s.eraseRange base n)

/-- A page of this device's own memory. -/
def State.isHome (s : State) (a : Nat) : Bool := if fabricBase ≤ a then (s.extentOf a).any (·.own) else s.ownMem a

/-- A home move ends before its switch: the new copy is discarded (R308, R310). -/
def State.abortMove (s : State) (old : Nat) : State :=
  match s.moves.find? fun m => m.old = old && !m.switched with
  | none => s
  | some m =>
    let s : State := { s with moves := s.moves.filter fun x => !(x.old = old && !x.switched) }
    let s := if s.isHome m.new then s.eraseRange m.new m.size else s
    let s := if m.taken then s else s.send (.homeMove 3 m.old m.new)
    if s.mailbox.cmd = 6 && !s.mailbox.done && s.mbArg 0 = old then s.mbEnd 5 else s

def State.abortMoves (s : State) (base n : Nat) : State :=
  (s.moves.filter fun m => !m.switched && (decide (m.old < base + n ∧ base < m.old + m.size) || decide (m.new < base + n ∧ base < m.new + m.size))).foldl
    (fun s m => s.abortMove m.old) s

/-- The base of an extent that can be added: on an M1 anywhere in its extent space of 32 TiB, of which its own cores reach what lies in the fabric
window; on an F2 in the window (R236, R312). -/
def State.extentBase (s : State) (a : Nat) : Bool :=
  a % extentSize = 0 && (match s.fit with | .m1 => decide (fabricBase ≤ a ∧ a < fabricBase + 2 ^ 45) | .f2 => inWindow a)

/-- The fabric manager adds an extent. On an M1 it grants it to `pids`; on an F2 the first of them is the M1 that holds it, and with none it maps host
memory, which the F2 caches through CXL.cache (R298, R299, R301). DEDUCED: log entry 82. -/
def execExtentAdd (base : Nat) (tag : BitVec 128) (pids : List (BitVec 12)) (s : State) : Host.Outcome State Fault Refusal :=
  let t := tag.toNat
  let sound := bits t 64 64 = 0 && bits t 3 13 = 0 && decide (bits t 0 2 ≤ 1)
  let e : Extent := { base := base, tenant := BitVec.ofNat 32 (bits t 32 32), gen := bits t 16 16, resid := bits t 2 1 = 1, bulk := bits t 0 2 = 1
                      pids := pids, own := s.fit = .m1 }
  let free := s.extentBase base && (s.extentOf base).isNone
  match s.fit with
  | .m1 => if !sound || !free || decide (65536 ≤ s.extents.length) then .next (s.send (.extentRefused base)) else .next { s with extents := s.extents ++ [e] }
  | .f2 => if !sound || !free || (pids.isEmpty && e.bulk) then .next s else .next { s with extents := s.extents ++ [e] }

/-- An M1 withdraws an extent: holders are told, and the range reads 0 from then on (R303, R389). -/
def State.withdrawExtent (s : State) (e : Extent) : State :=
  let inside := fun (a : Nat) => decide (e.base ≤ a ∧ a < e.base + extentSize)
  let s := s.abortMoves e.base extentSize
  let lostNew := fun (m : Move) => m.parted m.new e.base extentSize fun m => some { m with gone := true }
  let s := { s with extents := s.extents.filter fun x => x.base ≠ e.base, moves := (s.moves.flatMap lostNew).flatMap fun (m : Move) => m.parted m.old e.base extentSize fun _ => none }
  let s := if e.bulk then e.pids.foldl (fun s p => s.send (.extentGone p e.base)) s
    else (s.snoops.filter fun x => inside x.line).foldl (fun s x => (if x.broad then e.pids else x.holders).foldl (fun s p => s.send (.snoop p x.line true)) s) s
  { s.eraseRange e.base extentSize with snoops := s.snoops.filter (fun x => !inside x.line), resident := s.resident.filter fun a => !inside a }

/-- What this device does when an extent is gone, whichever side it is on. -/
def State.loseExtent (s : State) (base : Nat) (c : TrapCode) : State :=
  match s.extents.find? fun e => e.base = base with
  | none => s
  | some e =>
    if e.own then s.withdrawExtent e
    else
      let s := { s with extents := s.extents.filter fun x => x.base ≠ base }
      let s := if s.extents.any fun x => x.pids.head? = e.pids.head? then s else { s with lostPeers := s.lostPeers.filter fun p => some p ≠ e.pids.head? }
      (s.abortMoves base extentSize).dropLost base extentSize c

def execExtentRelease (base : Nat) (s : State) : Host.Outcome State Fault Refusal := .next (s.loseExtent base .extentGone).stir

/-- The M1 tells a holder that an extent is gone (R303). -/
def execExtentGoneNotice (base : Nat) (s : State) : Host.Outcome State Fault Refusal :=
  if (s.extents.any fun e => e.base = base && !e.own) then .next (s.loseExtent base .extentGone).stir else .next s

/-! Requests to an M1's extents (R302, R304, R305, R307). -/

/-- Sectors of a write are poisoned, at both copies of a page that moves (R309). -/
def State.addPoison (s : State) (a n : Nat) : State :=
  let secs := sectorsOf a n ++ (match s.mirror a with | some b => sectorsOf b n | none => [])
  { s with poison := s.poison ++ secs.filter fun x => !s.poison.contains x }

/-- The dirty bytes that a holder gave back to a snoop, with the poison that came along (R305, R411). -/
def State.giveBack (s : State) (line : Nat) (l : List (Nat × Byte)) (bad : List Nat) : State :=
  let s := (l.filter fun (x : Nat × Byte) => decide (x.1 < 128)).foldl (fun (s : State) x => s.writePaN (line + x.1) [x.2]) s
  bad.foldl (fun s k => if k < 4 then s.addPoison (line + 32 * k) 32 else s) s

/-- The set of the snoop filter that a line falls into, of 2 Mi with 16 ways each (R304). -/
def snoopSet (line : Nat) : Nat := Config.cacheSet 64 line % 2 ^ 21

/-- Room in the filter for a line's entry: where its set is full, an entry is given up, its holders invalidated first (R304). DESIGN CHOICE: log entry 81. -/
def State.snoopRoom (s : State) (line : Nat) : State :=
  let there := s.snoops.filter fun x => snoopSet x.line = snoopSet line
  if (s.snoops.any fun x => x.line = line) || there.length < 16 then s
  else match there[Config.freeNat s.freeCtr 2300000 % there.length]? with
    | none => s
    | some x =>
      let all := ((s.extentOf x.line).map (·.pids)).getD []
      let s := (if x.broad then all else x.holders).foldl (fun (s : State) p => s.send (.snoop p x.line true)) s
      let s := if x.excl then s.renewLine x.line else s
      { s with snoops := s.snoops.filter fun y => y.line ≠ x.line }

/-- The snoops that a request to a SHARED line needs, and what the filter then holds (R304, R305). DESIGN CHOICE: log entry 81. -/
def State.snoopFor (s : State) (e : Extent) (r : CxlReq) (line : Nat) : State :=
  let x := (s.snoops.find? fun x => x.line = line).getD { line := line, holders := [] }
  let others := (if x.broad then e.pids else x.holders).filter (· ≠ r.pid)
  let ask := fun (s : State) (inv : Bool) => others.foldl (fun s p => s.send (.snoop p line inv)) s
  let put := fun (s : State) (y : Snoop) =>
    let rest := s.snoops.filter fun z => z.line ≠ line
    if y.holders.isEmpty && !y.broad then { s with snoops := rest } else { s.snoopRoom line with snoops := y :: (s.snoopRoom line).snoops.filter fun z => z.line ≠ line }
  let owned := x.excl && !others.isEmpty
  match r.kind with
  | .readShared =>
    let s := if owned then (ask s false).giveBack line r.back r.backBad else s
    let full := !x.holders.contains r.pid && decide (4 ≤ x.holders.length)
    put s { x with excl := x.excl && others.isEmpty, broad := x.broad || full
                   holders := if x.holders.contains r.pid || full then x.holders else x.holders ++ [r.pid] }
  | .readOwned =>
    let s := (ask s true).giveBack line (if owned then r.back else []) (if owned then r.backBad else [])
    put s { line := line, holders := [r.pid], excl := true }
  | _ =>
    let s := (ask s true).giveBack line (if owned then r.back else []) (if owned then r.backBad else [])
    put s { line := line, holders := if x.broad then e.pids.filter (· = r.pid) else x.holders.filter (· = r.pid), excl := x.excl && others.isEmpty }

/-- A request performed at the memory, and the reply; its line stands in the home's L2 (R240, R243). -/
def State.serve (s : State) (r : CxlReq) (line : Nat) : State :=
  let s := (s.bringIn line).cacheAccess (s.homeCache (s.homeDie line) line) {} line
  let s := match r.kind with | .write .. | .atomic .. => s.dropCopies (s.homeDie line) line | _ => s
  let reply := fun (s : State) (a : Nat) (bs : List Byte) (c : Option TrapCode) => s.send (.cxlReply r.pid a bs c)
  match r.kind with
  | .readShared | .readOwned =>
    let s := s.correct line 128
    reply s line (s.readPaN line 128) (if s.poisoned line 128 then some .poison else none)
  | .write off data bad =>
    if 128 < off + data.length then s
    else
      let s := s.writePaN (line + off) data
      let s := if bad then s.addPoison (line + off) data.length else s
      reply s (line + off) [] none
  | .atomic off aop sgn wide op cmp =>
    let z := if wide then 8 else 4
    let a := line + off
    if 128 < off + z then s
    else
      let s := s.correct a z
      if s.poisoned a z then reply s a [] (some .poison)
      else
        let old := s.readPaN a z
        let (new, _) := atomicNew aop sgn z (natOfBytes old) op.toNat cmp.toNat
        reply (s.writePaN a (bytesOfNat z new)) a old none

/-- An M1 serves a request to a line of its extents (R301, R305, R310); an F2 serves one that the old home of a page forwards to it (R310). -/
def execCxlMemRequest (r : CxlReq) (s : State) : Host.Outcome State Fault Refusal :=
  let here := fun (m : Move) => m.taken && m.switched && decide (m.new ≤ s.moved r.addr ∧ s.moved r.addr < m.new + m.size)
  if !s.dvsec.ready || s.dvsec.viral then .next s
  else if s.fit ≠ .m1 then
    if s.ownMem (s.moved r.addr) && s.moves.any here then .next (s.serve r (lineOf (s.moved r.addr))).stir else .next s
  else match s.extentOf r.addr with
    | none => .next (s.send (.cxlReply r.pid r.addr [] (some .extentGone)))
    | some e =>
      if e.tenant ≠ r.tenant || !e.pids.contains r.pid then .next (s.send (.cxlReply r.pid r.addr [] (some .extentGone)))
      else
        let a := s.moved r.addr
        if a ≠ r.addr && !(s.extentOf a).any (·.own) then .next (s.send (.forward { r with addr := a }))
        else
          let line := lineOf a
          let e := (s.extentOf a).getD e
          let s := if e.bulk then s else s.snoopFor e r line
          .next (s.serve r line).stir

/-! Back-invalidation at the F2 (R305). -/

/-- The byte that a snoop is answered with: where the task of an NDT under ORD 3 reads it, as it stood before its party's later accesses (R281, R430). -/
def State.snoopByte (s : State) (pa : Nat) : Byte :=
  let since := (s.openOps.filter fun o => (s.taskRuns o false).any fun r => decide (r.1 ≤ pa ∧ pa < r.1 + r.2)).filterMap (·.sealed)
  match s.past.find? fun x => x.key = memKey pa && since.any fun t => decide (t ≤ x.at_) with
  | some x => x.old
  | none => s.readPa pa

/-- A snoop of a line that this device may hold: the L1 copies and the sibling RDC's go, its dirty bytes go back, and an invalidation takes the last copy
too (R305). -/
def State.answerSnoop (s : State) (addr : Nat) (inv : Bool) : State :=
  let line := lineOf addr
  let held := (s.lines.find? fun (l : Line) => l.addr = line && decide (34 ≤ l.cache)).map (·.cache)
  let s := { s with lines := s.lines.filter fun (l : Line) => l.addr ≠ line || held = some l.cache }
  let mine : List (Nat × Byte) := (s.unhomed.filter fun x => lineOf x.1 = line).map fun x => (x.1, s.snoopByte x.1)
  let dirty := mine.map fun (x : Nat × Byte) => (x.1 - line, x.2)
  let bad := (upFrom 0 4).filter fun k => s.poison.contains (line / 32 + k) && dirty.any fun (x : Nat × Byte) => decide (x.1 / 32 = k)
  let later := mine.filter fun (x : Nat × Byte) => x.2 ≠ s.readPa x.1
  let s := { s with unhomed := (s.unhomed.filter fun (x : Nat × Byte) => lineOf x.1 ≠ line) ++ later }.send (.snoopResponse line dirty bad)
  if inv then { s with shared := s.shared.filter (· ≠ line), lines := s.lines.filter fun (l : Line) => l.addr ≠ line } else s

/-- BISnpInv; where the line's extent is withdrawn, nothing is written back, and dirty bytes are a failed item (R303, R305). -/
def execBisnpinv (x : InvLine) (s : State) : Host.Outcome State Fault Refusal :=
  if s.fit ≠ .f2 then .next s
  else if x.gone then .next ((s.dropLost (lineOf x.addr) 128 .extentGone).send (.snoopResponse (lineOf x.addr) [] [])).stir
  else .next (s.answerSnoop x.addr true).stir

def execBisnpdata (addr : Nat) (s : State) : Host.Outcome State Fault Refusal :=
  if s.fit = .f2 then .next (s.answerSnoop addr false).stir else .next s

/-- A request crosses a snoop: the snoop takes effect, and the request is made anew. -/
def execBiconflict (addr : Nat) (data : Bool) (s : State) : Host.Outcome State Fault Refusal :=
  if s.fit = .f2 then .next ((s.send (.conflict (lineOf addr))).answerSnoop addr (!data)).stir else .next s

/-- Where physical bytes stand, page by page, once pages have moved (R310). -/
def State.movedRuns (s : State) (a n : Nat) : List (Nat × Nat) := (pieces a n).map fun p => (s.moved p.1, p.2.2)

/-- Bytes written at some runs, one after another. -/
def State.writeRuns (s : State) : List (Nat × Nat) → List Byte → State
  | [], _ => s
  | r :: l, bs => (s.writePaN r.1 (bs.take r.2)).writeRuns l (bs.drop r.2)

/-- A host's uncached access to an F2's HBM4E (R240, R299). -/
def execHostUioAccess (a : HostAccess) (s : State) : Host.Outcome State Fault Refusal :=
  let near := fun (s : State) (l : List (Nat × Nat)) => (runLines l).foldl (fun s x => s.cacheAccess (s.homeCache (s.homeDie x) x) {} x) s
  let okAt := fun (at_ n : Nat) => s.fit = .f2 && s.dvsec.ready && decide (0 < n) && s.ownMem (at_ + n - 1)
  match a with
  | .read at_ n =>
    if okAt at_ n = false then .next s
    else
      let l := s.movedRuns at_ n
      let t := l.foldl (fun s r => s.correct r.1 r.2) (near s l)
      .next (t.send (.hostReply (l.flatMap fun r => t.readPaN r.1 r.2))).stir
  | .write at_ data =>
    if okAt at_ data.length = false then .next s
    else
      let l := s.movedRuns at_ data.length
      let t := (runLines l).foldl (fun s x => s.dropCopies (s.homeDie x) x) (near s l)
      .next (t.writeRuns l data).stir

/-! Home moves (R308 to R310). -/

/-- Memory of a tenant at an address of this device, or in an extent that it knows. -/
def State.tenantHolds (s : State) (t : W32) (a n : Nat) : Bool :=
  if fabricBase ≤ a then (upFrom (a / extentSize) ((a + n - 1) / extentSize + 1 - a / extentSize)).all fun k =>
      match s.extents.find? fun e => e.base = k * extentSize with | some e => e.tenant = t | none => false
  else s.ownMem (a + n - 1) && (framesOf a n).all fun f => s.frameOwner (f * 2 ^ 16) = some (some t)

def moveSize : Nat → Nat | 0 => 2 ^ 16 | 1 => 2 ^ 21 | _ => 2 ^ 30

/-- The mailbox asks for a home move; its result comes with HMSWITCH or HMABORT (R374). -/
def execHmove (s : State) : Host.Outcome State Fault Refusal :=
  s.mb 6 4 fun s first =>
    if !first then s
    else
      let a := s.mbArg
      let n := moveSize (a 2)
      let t := BitVec.ofNat 32 (a 3)
      let meets := fun (m : Move) (x : Nat) => decide (m.old < x + n ∧ x < m.old + m.size) || decide (m.new < x + n ∧ x < m.new + m.size)
      if 2 < a 2 ∨ 2 ^ 32 ≤ a 3 ∨ a 0 % n ≠ 0 ∨ a 1 % n ≠ 0 ∨ a 0 = a 1 ∨ !s.isHome (a 0) ∨ !s.tenantHolds t (a 0) n
          ∨ !(s.tenantHolds t (a 1) n || (s.fit = .m1 && decide (fabricBase ≤ a 1) && (s.extentOf (a 1)).isNone)) then s.mbEnd 1
      else if s.moves.any fun m => !m.switched && (meets m (a 0) || meets m (a 1)) then s.mbEnd 3
      else s

/-- The old home opens the window that HMOVE asked for; a new home that another device opens it to checks that the page's tenant holds the new page,
and refuses a page that it does not (R308). DEDUCED: log entry 83. -/
def execHmopen (old new sizeCode : Nat) (tenant : W32) (s : State) : Host.Outcome State Fault Refusal :=
  let m := s.mailbox
  if m.cmd = 6 && !m.done && s.mbArg 0 = old && s.mbArg 1 = new && s.mbArg 2 = sizeCode && s.mbArg 3 = tenant.toNat
      && !(s.moves.any fun x => x.old = old && !x.switched) then
    .next (({ s with moves := s.moves ++ [{ old := old, new := new, size := moveSize sizeCode }] } : State).send (.homeMove 1 old new) |>.stir)
  else if s.isHome old || !s.isHome new then .next s
  else
    let n := moveSize sizeCode
    let meets := fun (x : Move) => !x.switched && decide (x.new < new + n ∧ new < x.new + x.size)
    if s.tenantHolds tenant new n && new % n = 0 && !s.moves.any meets then
      .next ({ s with moves := s.moves ++ [{ old := old, new := new, size := n, taken := true }] } : State).stir
    else .next (s.send (.homeMove 3 old new))

/-- One line copied from the old to the new copy, its poison with it. -/
def State.copyLine (s : State) (m : Move) (line : Nat) : State :=
  let s := s.correct (m.old + line) 128
  let bs := memGetN s.mem (m.old + line) 128
  let secs := upFrom 0 4
  let bad := secs.filter fun k => s.poison.contains ((m.old + line) / 32 + k)
  let here := fun (x : Nat) => secs.any fun k => x = (m.new + line) / 32 + k
  ({ s with mem := memSetN s.mem (m.new + line) bs
            poison := s.poison.filter (fun x => !here x) ++ bad.map fun k => (m.new + line) / 32 + k
            moves := modifyWhere (fun x => x.old = m.old && !x.switched) (fun x => { x with valid := if x.valid.contains line then x.valid else line :: x.valid }) s.moves
    } : State).sendHome (m.new + line) bs

/-- What the old home sends to the new one: a line copy, or a write that reaches both copies, with its poison; 128 bytes make their line valid (R309). -/
def State.takeLine (s : State) (m : Move) (at_ : Nat) (bs : List Byte) (bad : List Nat) : State :=
  if m.size < at_ + bs.length ∨ 128 < at_ % 128 + bs.length then s
  else
    let s := s.writePaN (m.new + at_) bs
    let secs := (sectorsOf (m.new + at_) bs.length).filter fun x => bad.contains (x - (m.new + at_) / 32) && !s.poison.contains x
    let whole := at_ % 128 = 0 && bs.length = 128
    let note := fun (x : Move) => { x with valid := if whole && !x.valid.contains at_ then at_ :: x.valid else x.valid }
    { s with poison := s.poison ++ secs, moves := modifyWhere (fun x => x.old = m.old && x.taken && !x.switched) note s.moves }

/-- The unswitched move of a page that this device takes over, or gives away. -/
def State.moveOf (s : State) (old : Nat) (taken : Bool) : Option Move := s.moves.find? fun m => m.old = old && !m.switched && m.taken = taken

/-- The old home copies one line, named by its place in the page, to the new copy; or this device, the new home, receives what the old one sends
(R308, R309). -/
def execLineCopy (old : Nat) (x : LineStep) (s : State) : Host.Outcome State Fault Refusal :=
  match x with
  | .sent at_ bs bad => match s.moveOf old true with
    | none => .next s
    | some m => .next (s.takeLine m at_ bs bad).stir
  | .copy line => match s.moveOf old false with
    | none => .next s
    | some m => if line % 128 = 0 && decide (line < m.size) && !s.dvsec.viral then .next (s.copyLine m line).stir else .next s

/-- The new home becomes the point of coherence once every line is valid there (R310). -/
def execHmswitch (old : Nat) (s : State) : Host.Outcome State Fault Refusal :=
  match s.moves.find? fun m => m.old = old && !m.switched with
  | none => .next s
  | some m =>
    if m.valid.length < m.size / 128 || s.dvsec.viral then .next s
    else
      let held := s.snoops.filter fun x => decide (m.old ≤ x.line ∧ x.line < m.old + m.size)
      let pids := ((s.extentOf m.old).map (·.pids)).getD []
      let s := held.foldl (fun s x =>
        let s := (if x.broad then pids else x.holders).foldl (fun s p => s.send (.snoop p x.line true)) s
        if x.excl then (s.renewLine x.line).copyLine m (x.line - m.old) else s) s
      let done := fun (x : Move) => x.old = m.old && !x.switched
      let back := fun (x : Move) => x.switched && x.old = m.new && x.new = m.old
      let s := { s with snoops := s.snoops.filter fun x => !decide (m.old ≤ x.line ∧ x.line < m.old + m.size)
                        unhomed := s.unhomed.filter fun x => !decide (m.old ≤ x.1 ∧ x.1 < m.old + m.size)
                        moves := (s.moves.filter fun x => !back x).map fun x => if done x then { x with switched := true, valid := [] } else x }
      let s := if m.taken then s else s.send (.homeMove 2 m.old m.new)
      .next (if s.mailbox.cmd = 6 && !s.mailbox.done && s.mbArg 0 = old then s.mbEnd 0 else s).stir

/-- The move is aborted, and the new copy discarded (R310). -/
def execHmabort (old : Nat) (s : State) : Host.Outcome State Fault Refusal := .next (s.abortMove old).stir

/-! The dense tier (R312, R313). -/

/-- A page comes into LPDDR; sectors that NAND could not give back are poisoned (R312, R313). DEDUCED: log entry 84. -/
def execPageBringIn (page : Nat) (lost : List Nat) (s : State) : Host.Outcome State Fault Refusal :=
  if s.fit ≠ .m1 || page % 2 ^ 16 ≠ 0 || !(s.extentOf page).any (·.own) || s.resident.contains page then .next s
  else
    let bad := ((lost.filter fun k => decide (k < 2048)).map fun k => page / 32 + k).filter fun x => !s.poison.contains x
    .next ({ s.bringIn page with poison := s.poison ++ bad } : State).stir

/-! Near-data task packets (R316 to R319). -/

/-- A task packet's argument: base, length and attributes (R316). -/
def taskArg (pk : List Byte) (i : Nat) : Nat × Nat × Nat :=
  let f := packetField pk
  (f (0x48 + 16 * i) 8, f (0x50 + 16 * i) 4, f (0x54 + 16 * i) 4)

/-- A range in extents of a tenant on this M1, by its address in the extent space. -/
def State.inExtents (s : State) (t : W32) (x n : Nat) : Bool :=
  let a := fabricBase + x
  decide (0 < n) && (upFrom (a / extentSize) ((a + n - 1) / extentSize + 1 - a / extentSize)).all fun k =>
    s.extents.any fun e => e.base = k * extentSize && e.own && e.tenant = t

/-- The first check of R317 that a packet fails, or its session, template and task context. -/
def State.packetCheck (s : State) (pk : List Byte) : Except Nat (Session × Template × Nat) :=
  let f := packetField pk
  if bits (f 2 2) 0 12 ≠ s.pid.toNat ∨ f 0 1 ≠ 1 then .error 1
  else match s.sessions.find? fun x => x.handle.toNat = f 0x28 8 with
    | none => .error 2
    | some x =>
      let seq := f 0x30 8
      if packetTag x.key pk ≠ pk.drop 0xE0 then .error 3
      else if seq < 1 ∨ seq + 1024 ≤ x.high ∨ x.seen.contains seq then .error 4
      else match s.templates.find? fun t => t.digest = (pk.drop 8).take 32 && t.tenants.contains x.tenant with
        | none => .error 5
        | some t =>
          let n := f 1 1
          let used := (upFrom 0 8).all fun i => let a := taskArg pk i; if i < n then a.2.2 / 4 = 0 else a = (0, 0, 0)
          let rdst := f 0x38 8
          let rlen := f 0x40 4
          if bits (f 2 2) 12 4 ≠ 0 ∨ f 4 4 ≠ 0 ∨ bits rdst 60 4 ≠ 0 ∨ f 0x44 4 ≠ 0 ∨ 8 < n ∨ !used then .error 6
          else if !(upFrom 0 n).all fun i => let a := taskArg pk i; a.2.2 % 4 ≠ 0 && s.inExtents x.tenant a.1 a.2.1 then .error 7
          else if !decide (1 ≤ rlen ∧ rlen ≤ 2 ^ 20) || !x.regions.any fun r =>
              r.1 = bits rdst 48 12 && decide (r.2.1 ≤ bits rdst 0 48 ∧ bits rdst 0 48 + rlen ≤ r.2.1 + r.2.2) then .error 8
          else match s.taskCtxs.find? fun y => y.1 = x.tenant with
            | none => .error 9
            | some c => .ok (x, t, c.2)

/-- The address space of a task (R318). -/
def taskMaps (pk : List Byte) (image lid : Nat) : List TaskMap :=
  let at_ := taskPa lid
  let arg := fun (i : Nat) =>
    let a := taskArg pk i
    ({ va := (i + 1) * 2 ^ 40, len := a.2.1, pa := fabricBase + a.1, r := a.2.2 % 2 = 1, w := a.2.2 / 2 % 2 = 1, x := false } : TaskMap)
  (upFrom 0 (packetField pk 1 1)).map arg ++
    [{ va := 9 * 2 ^ 40, len := packetField pk 0x40 4, pa := at_ + taskResultAt, r := false, w := true, x := false },
     { va := 10 * 2 ^ 40, len := image, pa := at_, r := true, w := false, x := true },
     { va := 11 * 2 ^ 40, len := 256, pa := at_ + taskPacketAt, r := true, w := false, x := false }]

/-- An accepted task becomes a launch in the task context, from the template's record (R318, R319). -/
def State.startTask (s : State) (src : BitVec 12) (pk : List Byte) (t : Template) (c : Nat) : State :=
  let seq := packetField pk 0x30 8
  let lid := s.nextId
  let r := LRec.parse t.image
  let code := 10 * 2 ^ 40
  let r := { r with entry := code + r.entry, handler := if r.handler = 0 then 0 else code + r.handler, args := [BitVec.ofNat 64 (11 * 2 ^ 40)] }
  if !(LRec.parse t.image).sound (t.image.take 256) || !s.fitsSome (((s.ctx c).part).getD 0) r then s.send (.ndtDone src seq (some .accessViolation) [])
  else
    let task : Task := { maps := taskMaps pk t.image.length lid, src := src, op := seq }
    let l : Launch := { lid := lid, ctx := c, record := r, block := { total := r.total }, prio := r.prio, task := some task, since := s.freeCtr }
    { s.bump with mem := memSetN (memSetN s.mem (taskPa lid) t.image) (taskPa lid + taskPacketAt) (pk.take 256), launches := s.launches ++ [l] }

/-- The M1 receives a task packet (R317). -/
def execNdtPacketReceive (src : BitVec 12) (packet : List Byte) (s : State) : Host.Outcome State Fault Refusal :=
  if s.fit ≠ .m1 || !s.dvsec.ready || s.dvsec.viral || packet.length ≠ 256 then .next s
  else
    let seq := packetField packet 0x30 8
    match s.packetCheck packet with
    | .error k =>
      let s := s.send (.ndtDone src seq (some .taskTagFail) [])
      if k ≠ 3 then .next s.stir
      else
        let h := BitVec.ofNat 64 (packetField packet 0x28 8)
        let s := { s with sessions := modifyWhere (fun x => x.handle = h) (fun x => { x with badTags := x.badTags + 1 }) s.sessions }
        .next (if s.sessions.any fun x => x.handle = h && decide (16 ≤ x.badTags) then s.closeSession h else s).stir
    | .ok (x, t, c) =>
      let high := max x.high seq
      let note := fun (y : Session) => { y with high := high, seen := seq :: y.seen.filter fun n => decide (high < n + 1024) }
      .next (({ s with sessions := modifyWhere (fun y => y.handle = x.handle) note s.sessions } : State).startTask src packet t c).stir

end Sys2Proof.Machine
end

