-- ==== Sys2Proof/Machine/Recovery.lean ====
section
/-! DEFINITION. Storage errors (R410, R412), viral state and lost expanders (R413 to R415), proofing (R416, R417), the clock (R18) and start-up
(R418 to R420). -/
namespace Sys2Proof.Machine

/-! Storage errors (R410, R412). -/

def addNew (l : List Nat) (n : List Nat) : List Nat := l ++ n.filter fun x => !l.contains x

/-- Whether a cached line is dirty. A line of the device's own memory may be, and nothing else shows it. -/
def State.lineDirty (s : State) (line : Nat) : Bool :=
  (s.unhomed.any fun x => lineOf x.1 = line) || (s.bulk.any fun b => b.addr = line && b.mask ≠ 0)
    || (s.ownMem line && Config.freeBit s.freeCtr (2200000 + line))

/-- An error strikes a stored element; `worse` says that it is more than one bit (R412). DEDUCED: log entry 86. -/
def execSoftError (site : ErrSite) (worse : Bool) (s : State) : Host.Outcome State Fault Refusal :=
  match site with
  | .discardable => .next s
  | .dram a =>
    if !(s.ownMem a || (s.extentOf a).any (·.own)) then .next s
    else if worse then .next { s with poison := addNew s.poison [sectorOf a] }
    else .next { s with failing := addNew s.failing [sectorOf a] }
  | .misplaced a other =>
    let bs := s.readPaN (sectorOf a * 32) 32
    if (s.ownMem a || (s.extentOf a).any (·.own)) && decide (sectorCrc bs (sectorOf other) ≠ sectorCrc bs (sectorOf a)) then .next { s with failing := addNew s.failing [sectorOf a] }
    else .next s
  | .cacheLine a =>
    if worse && s.lineDirty (lineOf a) then .next ({ s with poison := addNew s.poison (sectorsOf (lineOf a) 128) } : State).stir else .next s.stir
  | .scratchpad fid off =>
    if worse then .next (s.onForme fid fun f => if off < 768 * 4096 then { f with spoison := addNew f.spoison [sectorOf off] } else f) else .next s
  | .row fid hp reg comp lane =>
    let here := (s.home? fid hp).any fun h => (h.row? reg comp).isSome && decide (lane < h.lanes)
    if !worse || !here then .next s
    else
      let s := s.onHome fid hp fun h =>
        { h with rows := modifyWhere (fun (x : VRow) => x.reg = reg && x.comp = comp) (fun x => { x with data := x.data.set lane 0 }) h.rows }
      let it : Item := { ikind := 6, code := .poison, lane := lane, comp := comp, loc := reg.toNat }
      match (s.siblings fid hp).find? fun p => (p.lanes &&& ~~~p.exited).getLsbD lane with
      | some p => .next (s.due p.pid { code := .poison, items := [it] })
      | none => .next (s.itemToHome fid hp it)
  | .tile fid tile row col =>
    if worse && decide (tile < 8 ∧ row < 128 ∧ col < 256) then .next (s.onForme fid fun f => { f with gpoison := addNew f.gpoison [tileKey tile row col] }) else .next s

/-! Viral state and lost expanders (R413 to R415). -/

/-- The extents that a peer holds. -/
def State.extentsAt (s : State) (peer : BitVec 12) : List Extent := s.extents.filter fun e => !e.own && e.pids.head? = some peer

def execViralReceived (peer : BitVec 12) (s : State) : Host.Outcome State Fault Refusal :=
  if s.viralPeers.contains peer then .next s
  else .next (((s.extentsAt peer).foldl (fun (s : State) e => s.dropLost e.base extentSize .viral) { s with viralPeers := peer :: s.viralPeers }).failSteps peer .viral).stir

/-- The fabric manager resets the link to a viral peer (R413). -/
def execLinkReset (peer : BitVec 12) (s : State) : Host.Outcome State Fault Refusal := .next { s with viralPeers := s.viralPeers.filter (· ≠ peer) }

/-- The device enters its own viral state (R414). DEDUCED: log entry 88. -/
def execDeviceViral (s : State) : Host.Outcome State Fault Refusal :=
  if s.dvsec.viral then .next s
  else
    let s := (upFrom 0 s.ports.length).foldl (fun s p => s.send (.viral p)) s
    let s := (s.launches.filter fun l => l.block.status = 0).foldl (fun s l => s.failLaunch l.lid .viral) s
    let s := s.logWrite 0 { kind := 0x84, code := trapNum .viral, clk := s.clk }
    .next { s with dvsec := { s.dvsec with viral := true } }.stir

/-- An M1 is lost to this device: what an F2 reaches there is gone, and an open home move to or from it ends (R310, R415). -/
def execExpanderLost (pid : BitVec 12) (s : State) : Host.Outcome State Fault Refusal :=
  if s.lostPeers.contains pid then .next s
  else if s.fit = .m1 then
    let away := fun (a : Nat) => !s.isHome a && decide (fabricBase ≤ a) && Config.pidOf a = pid
    .next ((s.moves.filter fun m => !m.switched && (away m.new || (m.taken && away m.old))).foldl (fun (s : State) m => s.abortMove m.old) { s with lostPeers := pid :: s.lostPeers }).stir
  else .next (((s.extentsAt pid).foldl (fun (s : State) e => (s.abortMoves e.base extentSize).dropLost e.base extentSize .expanderLost) { s with lostPeers := pid :: s.lostPeers }).failSteps pid .expanderLost).stir

/-! Proofing (R416, R417). -/

def State.binOf (s : State) (u : UnitId) : Option Nat := match s.bins.find? fun b => b.unit = u with | some b => b.bin | none => some 0

/-- The highest arithmetic clock of a bin, in MHz (R417). -/
def binClock (n : Nat) : Nat := if n ≤ 1 then 1800 else if n = 2 then 1600 else 1400

/-- The highest arithmetic clock that the bins of the cores and press pairs in service leave. -/
def State.clockCap (s : State) : Nat :=
  (s.bins.filter fun b => match b.unit with | .platen _ => false | _ => true).foldl (fun m b => match b.bin with | some n => min m (binClock n) | none => m) 1800

/-- A unit's bin is set; the arithmetic clock then steps down to what the bin allows (R18, R417). -/
def State.setBin (s : State) (b : UnitBin) : State := { s with bins := b :: s.bins.filter fun x => x.unit ≠ b.unit }

def isCore : UnitId → Bool | .core _ => true | _ => false

/-- The core that a unit's record names: the first of a press pair's spread, and none of a platen's (R408). -/
def unitCore : UnitId → Nat
  | .core n => n
  | .pressPair n => 2 * n
  | .platen k => 16 * (k / 4)

/-- A unit moves one bin further, or retires from the last; the PF's log records it (R417). -/
def State.nextBin (s : State) (u : UnitId) : State :=
  let s := s.logWrite 0 { kind := 0x83, code := 0, who := whoOf 0 (unitCore u) 0 0, clk := s.clk }
  match s.binOf u with
  | none => s
  | some b =>
    if b < 3 then s.setBin { unit := u, bin := some (b + 1), testing := true }
    else
      let s := s.setBin { unit := u, bin := none, testing := false }
      if isCore u then { s with dvsec := { s.dvsec with retcore := s.dvsec.retcore + 1 } } else s

/-- A suspect unit leaves service for its retest: the formes that use it are pre-empted with a bound of 0 (R417). -/
def State.suspect (s : State) (u : UnitId) : State :=
  if s.unitOut u then s
  else
    let works := fun (f : Forme) (mine : Op → Bool) => s.ops.any fun o => o.fid = f.fid && o.unfinished && mine o
    let on := fun (f : Forme) => match u with
      | .core n => f.core = n
      | .pressPair n => f.core / 2 = n && (((s.launch? f.lid).any fun l => decide (0 < l.record.gtiles)) || works f fun o => o.onPair)
      | .platen k => works f fun o => o.stack = some k
    let fs := s.formes.filter fun f => f.place = .placed && on f
    (fs.foldl (fun s f => s.preempt f.fid (s.chooseMethod f.fid 0 false) false) s).nextBin u

/-- The signature of the unit that did the work (R416). -/
def Audit.signature (x : Audit) : W64 := Config.auditSignature x.outputs

/-- The spread of a unit; a platen is of none. -/
def spreadOf : UnitId → Option Nat
  | .core n => some (n / 2)
  | .pressPair n => some n
  | .platen _ => none

/-- Whether a capture can be replayed on two units: each of another spread of the same die, cores for a pitch and press pairs for a row (R416, R417). -/
def Audit.replays (x : Audit) (u1 u2 : UnitId) : Bool :=
  isCore u1 = isCore x.unit && isCore u2 = isCore x.unit && unitDie u1 = unitDie x.unit && unitDie u2 = unitDie x.unit
    && (spreadOf u1).isSome && (spreadOf u2).isSome && spreadOf u1 ≠ spreadOf u2 && spreadOf u1 ≠ spreadOf x.unit && spreadOf u2 ≠ spreadOf x.unit

/-- The units that a mismatch makes suspect (R417). -/
def suspectsOf (x : Audit) (r : AuditReport) : List UnitId :=
  if x.signature = r.sig1 then [] else if r.sig1 = r.sig2 then [x.unit] else if x.signature = r.sig2 then [r.unit1] else [x.unit, r.unit1]

/-- The replays of a capture end. On a mismatch the audited party takes AUDIT_MISMATCH, or the context's log has the record (R416, R417). DESIGN CHOICE: log
entry 89. DESIGN CHOICE: log entry 89. -/
def execAuditReplayDone (r : AuditReport) (s : State) : Host.Outcome State Fault Refusal :=
  match s.audits.find? fun x => x.id = r.id with
  | none => .next s
  | some x =>
    if !x.replays r.unit1 r.unit2 then .next s
    else
      let s := { s with audits := s.audits.filter fun y => y.id ≠ x.id }
      if x.signature = r.sig1 then .next s
      else
        let s := s.count x.ctx 0x16 1
        let it : Item := { ikind := 7, code := .auditMismatch, loc := x.addr, batch := r.sig1.toNat }
        let target := match x.pid with
          | some pid => s.parties.filter fun p => p.pid = pid && p.fid = x.fid
          | none => s.siblings x.fid x.hp
        let s := match target with
          | p :: ps => s.due (lowestNumbered p ps).pid { code := .auditMismatch, items := [it] }
          | [] => s.logWrite x.ctx { kind := 0x82, code := trapNum .auditMismatch, tag := x.tag, who := x.who, clk := s.clk, items := [it] }
        .next ((suspectsOf x r).foldl (fun (s : State) u => s.suspect u) s).stir

/-- The retest of a suspect unit ends (R417). -/
def execUnitRetest (u : UnitId) (pass : Bool) (s : State) : Host.Outcome State Fault Refusal :=
  match s.bins.find? fun b => b.unit = u with
  | none => .next s
  | some b => if !b.testing then .next s else if pass then .next (s.setBin { b with testing := false }) else .next (s.nextBin u).stir

/-! The clock (R18). -/

/-- The arithmetic clock steps by 100 MHz between 900 MHz and the highest that the bins allow; no value depends on it (R18). DEDUCED: log entry 100. -/
def execThermalClockStep (raise : Bool) (s : State) : Host.Outcome State Fault Refusal :=
  .next { s with clockMHz := if raise then (if s.clockMHz < s.clockCap then min s.clockCap (s.clockMHz + 100) else s.clockMHz) else max 900 (s.clockMHz - 100) }

/-! Start-up (R418 to R420). -/

/-- The units of a fit. -/
def Fit.units (f : Fit) : List UnitId :=
  (upFrom 0 (16 * f.dies)).map .core ++ (upFrom 0 (8 * f.dies)).map .pressPair ++ (match f with | .f2 => (upFrom 0 8).map .platen | .m1 => [])

/-- CONFIG at power-on (R420). -/
def Fit.config : Fit → W32
  | .f2 => 0x00000004
  | .m1 => 0x00060004

/-- A power-good or conventional reset: the fit and the PID stay, CONFIG at a conventional reset alone, everything else is as reset leaves it (R420). -/
def State.restart (s : State) (powerOn : Bool) : State :=
  { State.reset with fit := s.fit, pid := s.pid, freeCtr := s.freeCtr + 1, nextId := s.nextId, out := s.out, inbox := s.inbox
                     dvsec := { State.reset.dvsec with config := if powerOn then s.fit.config else s.dvsec.config }, ports := List.replicate (4 * s.fit.dies) {} }

/-- Start-up stops at a step with FAILED set. -/
def State.startFails (s : State) (stage : Nat) : State := { s with dvsec := { s.dvsec with stage := stage, fcode := stage, failed := true } }

/-- The five steps of start-up (R418). Memory reads zero after step 4, as it does where nothing is listed. DEDUCED: log entry 90. -/
def execStartUp (r : StartReport) (s : State) : Host.Outcome State Fault Refusal :=
  let s := s.restart r.powerOn
  if !Config.mlDsaVerify Config.yunaistKey r.firmware r.signature then .next (s.startFails 1)
  else
    let bin := fun (u : UnitId) => match r.bins.find? fun b => b.1 = u with | some b => b.2.bind fun n => if n ≤ 3 then some n else none | none => some 0
    let bins := s.fit.units.map fun u => ({ unit := u, bin := bin u } : UnitBin)
    let dead := (bins.filter fun b => isCore b.unit && b.bin.isNone).length
    let s := { s with bins := bins, firmware := r.firmware, dvsec := { s.dvsec with retcore := dead } }
    let s := { s with clockMHz := min s.clockMHz s.clockCap }
    if !r.phyOk then .next (s.startFails 3)
    else if !r.memOk then .next (s.startFails 4)
    else
      let pc := bits s.dvsec.config.toNat 12 8
      let pc := match s.fit with | .m1 => if 1 ≤ pc ∧ pc ≤ 127 then pc else 96 | .f2 => 0
      .next { s with frames := (Config.startFrames.filter fun f => s.ownMem (f * 2 ^ 16)).map (·, none), dvsec := { s.dvsec with stage := 5, ready := true, memActive := s.fit = .m1, pcache := pc, bivsz := min 8 (bits s.dvsec.config.toNat 0 4) } }

end Sys2Proof.Machine
end

