-- ==== Sys2Proof/Machine/Schedule.lean ====
section
/-! DEFINITION. What the device does by itself: the events that its state allows, each in its turn (R16, R328, R329). Which of several
possible events comes first is timing; every one of them comes up as `turn` advances. -/
namespace Sys2Proof.Machine

/-- The watchdogs that run, with the times at which they fire (R353). -/
def State.watches (s : State) : List (Instr × Nat) :=
  s.formes.flatMap fun f => if f.place ≠ .placed then [] else
    (upFrom 0 f.ropes.length).filterMap fun k => ((f.ropes[k]?).bind Rope.deadline).map fun t => (Instr.belayWatchdogFire f.fid k, t)

/-- The parties that sleep, with the times at which they may wake (R361). -/
def State.sleeps (s : State) : List (Instr × Nat) :=
  s.parties.filterMap fun p => if !s.running p.fid then none else match p.wait with | .sleep t => some (Instr.sleepExpiry p.pid, t) | _ => none

/-- What else comes at a time of its own: the ends of slices (R378), of holds and latency bounds (R345), of waits for markers (R325) and of retraining,
and of the wait for a session's answer (R375). -/
def State.deadlines (s : State) : List (Instr × Nat) :=
  ((upFrom 0 16).filterMap fun p =>
    let x := s.part p
    if x.halting then none else (x.running.bind fun c => s.sliceDue p c).map fun t => (Instr.sliceEnd p, t))
  ++ (s.launches.flatMap fun l => match l.heldAt with
    | none => []
    | some t => (if l.heldLong then [] else [(Instr.placementHoldExpiry l.lid, t + 10 ^ 12)])
        ++ (if l.record.latbound = 0 || ((s.enough (s.partOf l.lid) l (s.victims (s.partOf l.lid) l)).getD []).isEmpty then [] else [(Instr.latboundExpiry l.lid, t + l.record.latbound * 10 ^ 9 + 1)]))
  ++ (s.homes.flatMap fun h => h.steps.filterMap fun x =>
    if x.received || x.failed.isSome || x.folding.isSome then none else x.markedAt.map fun t => (Instr.collMarkerTimeout h.fid h.hp x.bind x.n, t + 10 ^ 14))
  ++ ((upFrom 0 s.ports.length).filterMap fun k => (s.ports[k]?).bind fun p => if p.retraining then some (Instr.linkRetrainTimeout k, p.retrainAt + 10 ^ 13) else none)
  ++ (if s.mailbox.session.isSome then [(Instr.sessOpenTimeout, s.mailbox.askedAt + 10 ^ 14)] else [])

/-- Those of some timed events that are due. -/
def State.dueOf (s : State) (l : List (Instr × Nat)) : List Instr := (l.filter fun x => decide (x.2 ≤ s.wall)).map (·.1)

/-- Clocks to the earliest time at which something is due. -/
def State.untilDue (s : State) : Option Nat :=
  ((s.watches ++ s.sleeps ++ s.deadlines).map fun x => (x.2 - s.wall + s.fsPerClk - 1) / s.fsPerClk).foldl (fun m n => match m with | none => some n | some k => some (min k n)) none

/-- Results and boundary traps that are due, and parties that can issue or be let go. -/
def State.partyEvents (s : State) : List Instr :=
  let t := s.arrivals.turnsCheck
  let traps := t.parties.filter fun p => p.pitch.isNone && p.wait = .none && idle p.park && s.running p.fid && (p.trap.isSome || p.takeable.isSome)
  let cores := (upFrom 0 s.cores).filter fun c => decide ((t.issuing c).length < 4) && (t.onCore c).any t.partyReady
  let held := s.parties.filter fun p => match p.wait with
    | .slot .. | .apart _ => s.running p.fid && ((s.forme? p.fid).any fun f => (s.slotFor f).isSome)
    | _ => false
  (s.longs.filter fun x => !s.accepting.any fun y => y.id = x.id).map (fun x => Instr.longLatencyResult x.id)
    ++ traps.map (fun p => Instr.boundaryTrap p.pid) ++ cores.map Instr.pitchIssue ++ held.map (fun p => Instr.branchHeldRelease p.pid)
    ++ (t.parties.filter fun p => p.promotes.any (fun n => decide (n ≤ s.clk)) && t.partyReady p).map (fun p => Instr.priorityPromotion p.pid)
    ++ s.dueOf (s.sleeps ++ s.deadlines) ++ s.iinvs.map fun x => Instr.iinvComplete x.id

/-- What one operation can do next. -/
def State.opEvent (s : State) (o : Op) : Option Instr :=
  if s.opStopped o .cancelled then some (if o.queue = 0 then .pressOpFail o.id .cancelled 0 else .engineCmdFail o.id .cancelled 0)
  else if !idle o.wait || !s.opPlaced o then none
  else match o.phase with
    | .spilt => some (.overflowRefill o.queue o.site)
    | .ended => none
    | _ =>
      if !s.opFree o then none
      else if o.queue = 4 then
        match o.work with
        | .coll g n .. => some (if (s.opMissing o).isEmpty && (s.opFault o).isSome then .collStepFail o.fid o.hp g.bind n else .collLocalComplete o.id)
        | _ => some (.collLocalComplete o.id)
      else if o.queue = 0 then
        match s.opFault o.rest with
        | some (c, a) => some (.pressOpFail o.id c a)
        | none =>
          if o.phase = .running then some (.pressGroupStep o.id)
          else match o.work with
            | .product p => some (match p.platen, o.unsited with
              | some k, none => .platenOpStart k
              | _, some die => .platenOpStart (4 * die)
              | none, none => .pressOpStart (o.site / 2))
            | _ => some (.pressOpStart (o.site / 2))
      else match s.cmdFault o, o.work, o.phase with
        | some (c, a), _, _ => some (.engineCmdFail o.id c a)
        | none, .ndt .., .running => none
        | none, _, .running => some (.engineCmdEnd o.id)
        | none, _, _ => some (.engineCmdStart o.id)

/-- Entries that can come back from an overflow ring (R348). -/
def State.ringEvents (s : State) : List Instr :=
  (upFrom 0 s.fit.dies).flatMap fun d =>
    (if s.launchSpilt d then [Instr.overflowRefill 5 d] else [])
      ++ if s.homes.any fun h => (s.trace h.fid).any (fun f => dieOf f.core = d) && h.steps.any fun x => decide (0 < x.spilt) then [Instr.overflowRefill 6 d] else []

/-- The stacks whose queues hold folds, and one for the folds that no queue holds (R324). -/
def State.foldEvents (s : State) : List Instr :=
  let ks := (upFrom 0 8).filter fun k => !(s.foldsOn (some k)).isEmpty
  (ks ++ (if ks.isEmpty && !(s.foldsOn none).isEmpty then [0] else [])).map Instr.platenOpStart

/-- What one queue can do next. -/
def State.queueEvents (s : State) (q : Queue) : List Instr :=
  let fetch := if q.en && decide (q.fetch < min q.db (q.parse + 64)) && idle q.wait then [Instr.packetFetch q.ctx q.slot] else []
  let parse := match q.at_ q.parse with
    | none => []
    | some p =>
      if !q.en || p.bad.isSome || !idle p.wait || !q.free p || !(p.state = .fetched || p.state = .parsing) then []
      else match p.kind with
        | 1 => [Instr.packetNop q.ctx q.slot]
        | 2 => [.packetLaunch q.ctx q.slot]
        | 3 => [.packetGraph q.ctx q.slot]
        | 4 => [.packetJob q.ctx q.slot]
        | 5 => if p.state = .fetched then [.packetFence q.ctx q.slot] else []
        | 6 => [.packetSignal q.ctx q.slot]
        | _ => []
  fetch ++ parse ++ (if q.opening && idle q.wait then [.qctlEnable q.ctx q.slot] else [])
    ++ if q.killing && !s.queueBusy q.ctx q.slot then [.qctlKill q.ctx q.slot] else []

/-- Graphs and jobs that can go on. -/
def State.workEvents (s : State) : List Instr :=
  (s.graphs.flatMap fun g => if g.block.status ≠ 0 then [] else
    ((upFrom 0 g.nodes.length).find? fun k => g.ready k && (g.nodes[k]?).any fun n => idle n.wait).toList.map fun k => Instr.graphNodeReady g.gid k)
  ++ s.jobs.flatMap fun j =>
    match j.phases[j.cur]? with
    | none => []
    | some p =>
      if j.block.status ≠ 0 || p.ended || !idle p.wait then []
      else if !p.commBegun then (if !p.compBegun || s.graphsQuiet [p.compG] then [Instr.phaseCommStep j.jid] else [])
      else if s.graphsQuiet [p.compG, p.commG] && s.jobQuiet j.jid then [Instr.phaseBarrier j.jid] else []

/-- Formes that can be placed or leave, and slices that can begin or have nothing left to do. -/
def State.placeEvents (s : State) : List Instr :=
  (s.launches.filterMap fun l =>
    let part := s.partOf l.lid
    if s.dvsec.viral || !s.pendingForme l || !s.places part l.ctx || s.heldBack part l then none
    else ((upFrom 0 s.cores).find? fun c => s.fitsCore part c l).map fun c => Instr.formePlace l.lid c)
  ++ (s.formes.filterMap fun f => match f.leave with | some x => if s.atRest f x then some (Instr.formeLeaveCore f.fid) else none | none => none)
  ++ (upFrom 0 16).flatMap fun p =>
    let x := s.part p
    match x.running with
    | none => if (s.nextCtx p none).isSome then [Instr.sliceStart p] else []
    | some c =>
      if x.halting then (if (s.onCores c).isEmpty then [Instr.sliceStart p] else [])
      else if !s.hasWork p c && (s.onCores c).isEmpty && (s.nextCtx p (some c)).isSome then [Instr.sliceEnd p] else []

/-- A mailbox command that waited for a buffer goes on, and a home move takes its next step. -/
def State.mailEvents (s : State) : List Instr :=
  let m := s.mailbox
  let back := if m.done || m.wait.isEmpty || !idle m.wait then [] else
    match m.cmd with
    | 0x0A => [Instr.signerSet] | 0x0B => [.tmplReg] | 0x0C => [.tmplDrop] | 0x0E => [.sessOpen] | _ => []
  let opens := if m.cmd = 6 && !m.done && !(s.moves.any fun x => x.old = s.mbArg 0 && !x.switched) then
    [Instr.hmopen (s.mbArg 0) (s.mbArg 1) (s.mbArg 2) (BitVec.ofNat 32 (s.mbArg 3))] else []
  back ++ opens ++ (s.moves.filter fun x => !x.switched && !x.taken).map fun x =>
    match ((upFrom 0 (x.size / 128)).map (128 * ·)).find? fun k => !x.valid.contains k with
    | some k => Instr.lineCopy x.old (.copy k)
    | none => .hmswitch x.old

/-- Everything that the device can do next, but for what its clocks bring. -/
def State.events (s : State) : List Instr :=
  s.partyEvents ++ s.ops.filterMap s.opEvent ++ s.foldEvents ++ s.ringEvents ++ s.queues.flatMap s.queueEvents ++ s.workEvents ++ s.placeEvents ++ s.mailEvents
    ++ if s.clockCap < s.clockMHz then [.thermalClockStep false] else []

/-- The replays of a capture on units in service: each gives the signature of the outputs, which the inputs and the returned values fix (R102, R416). A
replay that differs comes from a unit that fails, and arrives from outside. DESIGN CHOICE: log entry 89. -/
def State.replayOf (s : State) (x : Audit) : Option Instr :=
  let d := unitDie x.unit
  let units := (if isCore x.unit then (upFrom (16 * d) 16).map UnitId.core else (upFrom (8 * d) 8).map UnitId.pressPair).filter fun u => !s.unitOut u
  let pairs := units.flatMap fun u => units.map fun v => (u, v)
  (pairs.find? fun y => x.replays y.1 y.2).map fun y => Instr.auditReplayDone { id := x.id, unit1 := y.1, unit2 := y.2, sig1 := x.signature, sig2 := x.signature }

/-- What the passing of time brings where nothing else is to be done. DESIGN CHOICE: log entry 10. -/
def State.timers (s : State) : List Instr :=
  (s.parties.filterMap fun p => if !s.running p.fid then none else match p.wait with
    | .counter .. => if idle p.park then some (.waitcPoll p.pid) else none
    | _ => none)
  ++ (s.queues.filterMap fun q => match q.at_ q.parse with
    | some p => if q.en && p.kind = 5 && p.state = .parsing && idle p.wait && q.free p && p.bad.isNone then some (.fencePacketPoll q.ctx q.slot) else none
    | none => none)
  ++ ((upFrom 0 s.ports.length).filterMap fun k => (s.ports[k]?).bind fun p =>
    if p.retraining then some (Instr.retrainingComplete k p.width) else if p.up && !p.retry.isEmpty then some (Instr.flitRetry k) else none)
  ++ s.audits.filterMap s.replayOf

/-- Whether the line of a counter has been written since a step (R335, R367). -/
def State.lineWritten (s : State) (sc : Scene) (va seen : Nat) : Bool :=
  match s.findVa sc [] va .none with
  | .at_ l =>
    let k := l.key - l.key % 256
    s.past.any fun x => decide (seen ≤ x.at_ ∧ k ≤ x.key ∧ x.key < k + 256) && x.key % 2 = l.key % 2
  | _ => false

/-- The waits that end or read again because of what has happened: 16 pitches of the siblings (R23), or a write to a counter's line
(R335, R367). -/
def State.roused (s : State) : Option Instr :=
  (s.parties.findSome? fun p => if !s.running p.fid then none else match p.wait with
    | .reconv n => if 16 ≤ n then some (Instr.reconvergeWaitExpiry p.pid) else none
    | .counter _ _ va _ _ _ seen =>
      if idle p.park && (s.sceneOf p.fid).any fun sc => s.lineWritten sc va seen then some (.waitcPoll p.pid) else none
    | _ => none).or
  (s.queues.findSome? fun q => match q.at_ q.parse with
    | some p =>
      if q.en && p.kind = 5 && p.state = .parsing && idle p.wait && q.free p && p.bad.isNone
          && (upFrom 0 (packetField p.bytes 0x10 1)).any (fun j => !p.latched.contains j && s.lineWritten (s.ctxScene q.ctx) (fenceEntry p.bytes j).1 p.seen)
      then some (.fencePacketPoll q.ctx q.slot) else none
    | none => none)

/-- What must come before anything else: a watchdog that fires (R353), a wait that is roused, a forme at rest that leaves its core (R347), and the ticks of reuse clocks (R32) and
standings (R394). DESIGN CHOICE: log entry 4. -/
def State.ticks (s : State) : Option Instr :=
  match ((s.dueOf s.watches).head?.or s.roused).or (s.formes.findSome? fun f => f.leave.bind fun x => if s.atRest f x then some (.formeLeaveCore f.fid) else none) with
  | some i => some i
  | none => match s.formes.find? fun f => decide (32 * (f.rc + 1) ≤ f.counted) with
  | some f => some (.reuseClockTick f.fid)
  | none => ((upFrom 0 16).find? fun p => decide (4096 ≤ (s.part p).records)).map Instr.standingUpdate

/-- The next word of the party that issues, decoded (R51). -/
def State.nextWord (s : State) : Option (Except Fault Instr) :=
  match s.issue.bind s.party? with
  | none => none
  | some p => p.pitch.map fun c => match decode (c.words.drop c.idx) with
    | .ok (i, _) => .ok i
    | .error _ => .error .broken

/-- A device that runs one party of one launch of the PF's context, in the middle of a pitch of the given words (R31, R51). -/
def State.running1 (s : State) (words : List W64) : State :=
  let n := s.nextId
  let r : LRec := { lanes := 64, vmax := 64, parties := 1 }
  let base := 2 ^ 16
  let after := base + 8 * words.length + 8
  let c : Pitch := { base := base, words := words, awaits := [], after := after, last := true, blockEnd := after }
  let l : Launch := { lid := n, ctx := 0, record := r, block := { total := 1 }, next := 1 }
  let f : Forme := { fid := n, lid := n, index := 0, core := 0, begun := true, flags := 0, key := 0, ropes := [], placedAt := n }
  let p : Party := { newParty r n n 0 0 n with pc := base, entry := .inside, met := true, cairn := base - 8, pitch := some c }
  { s with dvsec := { s.dvsec with ready := true }
           ctxs := s.ctxs.modify 0 fun x => { x with part := some 0 }
           parts := s.parts.modify 0 fun x => { x with running := some 0, halting := false }
           launches := l :: s.launches, formes := f :: s.formes, homes := { fid := n, hp := 0, lanes := 64 } :: s.homes, parties := p :: s.parties
           nextId := n + 1, inbox := [], issue := some n }

/-- The words of one instruction: two where the first is a prefix (R76). -/
def oneInstr (ws : List W64) : List W64 := match ws with | w :: _ => if opOf w = opDual then ws else [w] | [] => []

/-- One of some events, by the turn. -/
def pickOf (n : Nat) (l : List Instr) : Option Instr := l[n % l.length]?

/-- The first event of some lists in their order. -/
def firstOf (n : Nat) (ls : List (List Instr)) : Option Instr := ls.findSome? (pickOf n)

/-- Time passes where there is nothing to do: to the next time at which something is due, or a little where something polls. -/
def State.idle (s : State) : State :=
  match s.untilDue, s.timers.isEmpty with
  | some n, true => s.pass (max 1 n)
  | some n, false => s.pass (max 1 (min 180 n))
  | none, true => s.pass 1
  | none, false => s.pass 180

/-- Since when each party has been ready, and each launch's head has been held, is noted as it comes up (R329, R345). -/
def State.noted (s : State) : State :=
  let t := s.arrivals.turnsCheck
  let ready := (t.parties.filter t.partyReady).map (·.pid)
  let note := fun (p : Party) => p.seenReady (ready.contains p.pid) s.clk
  ({ s with parties := s.parties.map note } : State).noteHeld

/-- What the device does next by itself, and the state in which it does so. Polls and waits come when there is nothing else to do, and
every so often however much there is. -/
def State.onward (s : State) : Option Instr × State :=
  let s := s.noted
  let t := { s with turn := s.turn + 1 }
  match (if s.turn % 64 = 63 then firstOf (s.turn / 64) [s.timers, s.events] else pickOf s.turn s.events) with
  | some i => (some i, t)
  | none => (pickOf s.turn s.timers, t.idle)

end Sys2Proof.Machine
end

