-- ==== Sys2Proof/Machine/Dispatch.lean ====
section
/-! DEFINITION. One arm for each instruction: a call of its meaning. -/
namespace Sys2Proof.Machine

def exec (i : Instr) (s : State) : Host.Outcome State Fault Refusal :=
  match i with
  | .pitchIssue core => Sys2Proof.Machine.execPitchIssue core s
  | .priorityPromotion pid => Sys2Proof.Machine.execPriorityPromotion pid s
  | .nop o => Sys2Proof.Machine.execNop o s
  | .bra o => Sys2Proof.Machine.execBra o s
  | .brc o => Sys2Proof.Machine.execBrc o s
  | .branchHeldRelease pid => Sys2Proof.Machine.execBranchHeldRelease pid s
  | .brx o => Sys2Proof.Machine.execBrx o s
  | .call o => Sys2Proof.Machine.execCall o s
  | .callx o => Sys2Proof.Machine.execCallx o s
  | .ret o => Sys2Proof.Machine.execRet o s
  | .exit o => Sys2Proof.Machine.execExit o s
  | .reconvergeWaitExpiry pid => Sys2Proof.Machine.execReconvergeWaitExpiry pid s
  | .fuse o => Sys2Proof.Machine.execFuse o s
  | .yield o => Sys2Proof.Machine.execYield o s
  | .sleep o => Sys2Proof.Machine.execSleep o s
  | .sleepExpiry pid => Sys2Proof.Machine.execSleepExpiry pid s
  | .isync o => Sys2Proof.Machine.execIsync o s
  | .ropeSet o => Sys2Proof.Machine.execRopeSet o s
  | .ropeArv o => Sys2Proof.Machine.execRopeArv o s
  | .ropeWait o => Sys2Proof.Machine.execRopeWait o s
  | .ropeSync o => Sys2Proof.Machine.execRopeSync o s
  | .belayWatchdogFire fid rope => Sys2Proof.Machine.execBelayWatchdogFire fid rope s
  | .phase o => Sys2Proof.Machine.execPhase o s
  | .signal o => Sys2Proof.Machine.execSignal o s
  | .waitc o => Sys2Proof.Machine.execWaitc o s
  | .waitcPoll pid => Sys2Proof.Machine.execWaitcPoll pid s
  | .cancel o => Sys2Proof.Machine.execCancel o s
  | .launch o => Sys2Proof.Machine.execLaunch o s
  | .trap o => Sys2Proof.Machine.execTrap o s
  | .bkpt o => Sys2Proof.Machine.execBkpt o s
  | .eret o => Sys2Proof.Machine.execEret o s
  | .boundaryTrap pid => Sys2Proof.Machine.execBoundaryTrap pid s
  | .movs o => Sys2Proof.Machine.execMovs o s
  | .movsw o => Sys2Proof.Machine.execMovsw o s
  | .ctrr o => Sys2Proof.Machine.execCtrr o s
  | .iadd o => Sys2Proof.Machine.execIadd o s
  | .isub o => Sys2Proof.Machine.execIsub o s
  | .imul o => Sys2Proof.Machine.execImul o s
  | .imulh o => Sys2Proof.Machine.execImulh o s
  | .imad o => Sys2Proof.Machine.execImad o s
  | .imadw o => Sys2Proof.Machine.execImadw o s
  | .ineg o => Sys2Proof.Machine.execIneg o s
  | .iabs o => Sys2Proof.Machine.execIabs o s
  | .imin o => Sys2Proof.Machine.execImin o s
  | .imax o => Sys2Proof.Machine.execImax o s
  | .iclamp o => Sys2Proof.Machine.execIclamp o s
  | .lea o => Sys2Proof.Machine.execLea o s
  | .and o => Sys2Proof.Machine.execAnd o s
  | .or o => Sys2Proof.Machine.execOr o s
  | .xor o => Sys2Proof.Machine.execXor o s
  | .andn o => Sys2Proof.Machine.execAndn o s
  | .orn o => Sys2Proof.Machine.execOrn o s
  | .not o => Sys2Proof.Machine.execNot o s
  | .bmix o => Sys2Proof.Machine.execBmix o s
  | .shl o => Sys2Proof.Machine.execShl o s
  | .shr o => Sys2Proof.Machine.execShr o s
  | .sar o => Sys2Proof.Machine.execSar o s
  | .rol o => Sys2Proof.Machine.execRol o s
  | .fshl o => Sys2Proof.Machine.execFshl o s
  | .bfx o => Sys2Proof.Machine.execBfx o s
  | .bfi o => Sys2Proof.Machine.execBfi o s
  | .popc o => Sys2Proof.Machine.execPopc o s
  | .clz o => Sys2Proof.Machine.execClz o s
  | .ctz o => Sys2Proof.Machine.execCtz o s
  | .brev o => Sys2Proof.Machine.execBrev o s
  | .icmp o => Sys2Proof.Machine.execIcmp o s
  | .sel o => Sys2Proof.Machine.execSel o s
  | .clop o => Sys2Proof.Machine.execClop o s
  | .cvote o => Sys2Proof.Machine.execCvote o s
  | .mov o => Sys2Proof.Machine.execMov o s
  | .movi o => Sys2Proof.Machine.execMovi o s
  | .movhi o => Sys2Proof.Machine.execMovhi o s
  | .movx o => Sys2Proof.Machine.execMovx o s
  | .movxw o => Sys2Proof.Machine.execMovxw o s
  | .lperm o => Sys2Proof.Machine.execLperm o s
  | .fadd o => Sys2Proof.Machine.execFadd o s
  | .fsub o => Sys2Proof.Machine.execFsub o s
  | .fmul o => Sys2Proof.Machine.execFmul o s
  | .ffma ty e o => Sys2Proof.Machine.execFfma ty e o s
  | .fdot2 bf e o => Sys2Proof.Machine.execFdot2 bf e o s
  | .fdot4 e5 e o => Sys2Proof.Machine.execFdot4 e5 e o s
  | .fmin o => Sys2Proof.Machine.execFmin o s
  | .fmax o => Sys2Proof.Machine.execFmax o s
  | .fcmp o => Sys2Proof.Machine.execFcmp o s
  | .fclass o => Sys2Proof.Machine.execFclass o s
  | .frnd o => Sys2Proof.Machine.execFrnd o s
  | .fscale o => Sys2Proof.Machine.execFscale o s
  | .fexpn o => Sys2Proof.Machine.execFexpn o s
  | .frcps o => Sys2Proof.Machine.execFrcps o s
  | .frsqs o => Sys2Proof.Machine.execFrsqs o s
  | .fex2 o => Sys2Proof.Machine.execFex2 o s
  | .flg2 o => Sys2Proof.Machine.execFlg2 o s
  | .fsin o => Sys2Proof.Machine.execFsin o s
  | .fcos o => Sys2Proof.Machine.execFcos o s
  | .cvt o => Sys2Proof.Machine.execCvt o s
  | .pack2 o => Sys2Proof.Machine.execPack2 o s
  | .pack4 o => Sys2Proof.Machine.execPack4 o s
  | .xpnd o => Sys2Proof.Machine.execXpnd o s
  | .qblk o => Sys2Proof.Machine.execQblk o s
  | .dqblk o => Sys2Proof.Machine.execDqblk o s
  | .sheet o => Sys2Proof.Machine.execSheet o s
  | .press o => Sys2Proof.Machine.execPress o s
  | .presss o => Sys2Proof.Machine.execPresss o s
  | .gclr o => Sys2Proof.Machine.execGclr o s
  | .gload o => Sys2Proof.Machine.execGload o s
  | .gstore o => Sys2Proof.Machine.execGstore o s
  | .platen o => Sys2Proof.Machine.execPlaten o s
  | .gread o => Sys2Proof.Machine.execGread o s
  | .gwrite o => Sys2Proof.Machine.execGwrite o s
  | .oready o => Sys2Proof.Machine.execOready o s
  | .batch o => Sys2Proof.Machine.execBatch o s
  | .waitb o => Sys2Proof.Machine.execWaitb o s
  | .overflowRefill queue site => Sys2Proof.Machine.execOverflowRefill queue site s
  | .pressOpStart spread => Sys2Proof.Machine.execPressOpStart spread s
  | .pressGroupStep op => Sys2Proof.Machine.execPressGroupStep op s
  | .pressOpFail op code addr => Sys2Proof.Machine.execPressOpFail op code addr s
  | .platenOpStart stack => Sys2Proof.Machine.execPlatenOpStart stack s
  | .coink o => Sys2Proof.Machine.execCoink o s
  | .coin o => Sys2Proof.Machine.execCoin o s
  | .coinr o => Sys2Proof.Machine.execCoinr o s
  | .draw o => Sys2Proof.Machine.execDraw o s
  | .drawa o => Sys2Proof.Machine.execDrawa o s
  | .dmerge o => Sys2Proof.Machine.execDmerge o s
  | .dshift o => Sys2Proof.Machine.execDshift o s
  | .tget o => Sys2Proof.Machine.execTget o s
  | .tset o => Sys2Proof.Machine.execTset o s
  | .tclr o => Sys2Proof.Machine.execTclr o s
  | .ld o => Sys2Proof.Machine.execLd o s
  | .ldk o => Sys2Proof.Machine.execLdk o s
  | .ldsc o => Sys2Proof.Machine.execLdsc o s
  | .stsc o => Sys2Proof.Machine.execStsc o s
  | .ldpv o => Sys2Proof.Machine.execLdpv o s
  | .stpv o => Sys2Proof.Machine.execStpv o s
  | .st o => Sys2Proof.Machine.execSt o s
  | .atom o => Sys2Proof.Machine.execAtom o s
  | .atomsc o => Sys2Proof.Machine.execAtomsc o s
  | .red o => Sys2Proof.Machine.execRed o s
  | .pref o => Sys2Proof.Machine.execPref o s
  | .reuse o => Sys2Proof.Machine.execReuse o s
  | .fence o => Sys2Proof.Machine.execFence o s
  | .cwb o => Sys2Proof.Machine.execCwb o s
  | .cinv o => Sys2Proof.Machine.execCinv o s
  | .iinv o => Sys2Proof.Machine.execIinv o s
  | .wopen o => Sys2Proof.Machine.execWopen o s
  | .wclose o => Sys2Proof.Machine.execWclose o s
  | .pageRequestResponse ctx va r => Sys2Proof.Machine.execPageRequestResponse ctx va r s
  | .longLatencyResult id => Sys2Proof.Machine.execLongLatencyResult id s
  | .memoryAccessFail id lane comp code => Sys2Proof.Machine.execMemoryAccessFail id lane comp code s
  | .reuseClockTick fid => Sys2Proof.Machine.execReuseClockTick fid s
  | .standingUpdate part => Sys2Proof.Machine.execStandingUpdate part s
  | .cpy o => Sys2Proof.Machine.execCpy o s
  | .cpyx o => Sys2Proof.Machine.execCpyx o s
  | .cpyrot o => Sys2Proof.Machine.execCpyrot o s
  | .fill o => Sys2Proof.Machine.execFill o s
  | .scrub o => Sys2Proof.Machine.execScrub o s
  | .seal o => Sys2Proof.Machine.execSeal o s
  | .ndt o => Sys2Proof.Machine.execNdt o s
  | .engineCmdStart op => Sys2Proof.Machine.execEngineCmdStart op s
  | .engineCmdEnd op => Sys2Proof.Machine.execEngineCmdEnd op s
  | .engineCmdFail op code addr => Sys2Proof.Machine.execEngineCmdFail op code addr s
  | .ndtCompletionMessage op failure result => Sys2Proof.Machine.execNdtCompletionMessage op failure result s
  | .coll o => Sys2Proof.Machine.execColl o s
  | .csigBind o => Sys2Proof.Machine.execCsigBind o s
  | .csigSig o => Sys2Proof.Machine.execCsigSig o s
  | .csigStat o => Sys2Proof.Machine.execCsigStat o s
  | .collFlitReceive fid hp bind flit => Sys2Proof.Machine.execCollFlitReceive fid hp bind flit s
  | .collMarkerArrival fid hp bind step rank => Sys2Proof.Machine.execCollMarkerArrival fid hp bind step rank s
  | .collLocalComplete op => Sys2Proof.Machine.execCollLocalComplete op s
  | .collStepFail fid hp bind step => Sys2Proof.Machine.execCollStepFail fid hp bind step s
  | .collMarkerTimeout fid hp bind step => Sys2Proof.Machine.execCollMarkerTimeout fid hp bind step s
  | .flitRetry port => Sys2Proof.Machine.execFlitRetry port s
  | .linkRetrainTimeout port => Sys2Proof.Machine.execLinkRetrainTimeout port s
  | .formePlace lid core => Sys2Proof.Machine.execFormePlace lid core s
  | .placementHoldExpiry lid => Sys2Proof.Machine.execPlacementHoldExpiry lid s
  | .latboundExpiry lid => Sys2Proof.Machine.execLatboundExpiry lid s
  | .formeLeaveCore fid => Sys2Proof.Machine.execFormeLeaveCore fid s
  | .sliceEnd part => Sys2Proof.Machine.execSliceEnd part s
  | .sliceStart part => Sys2Proof.Machine.execSliceStart part s
  | .db ctx slot value => Sys2Proof.Machine.execDb ctx slot value s
  | .packetFetch ctx slot => Sys2Proof.Machine.execPacketFetch ctx slot s
  | .packetNop ctx slot => Sys2Proof.Machine.execPacketNop ctx slot s
  | .packetLaunch ctx slot => Sys2Proof.Machine.execPacketLaunch ctx slot s
  | .packetGraph ctx slot => Sys2Proof.Machine.execPacketGraph ctx slot s
  | .packetJob ctx slot => Sys2Proof.Machine.execPacketJob ctx slot s
  | .packetFence ctx slot => Sys2Proof.Machine.execPacketFence ctx slot s
  | .fencePacketPoll ctx slot => Sys2Proof.Machine.execFencePacketPoll ctx slot s
  | .packetSignal ctx slot => Sys2Proof.Machine.execPacketSignal ctx slot s
  | .graphNodeReady gid node => Sys2Proof.Machine.execGraphNodeReady gid node s
  | .phaseCommStep jid => Sys2Proof.Machine.execPhaseCommStep jid s
  | .phaseBarrier jid => Sys2Proof.Machine.execPhaseBarrier jid s
  | .qctlEnable ctx slot => Sys2Proof.Machine.execQctlEnable ctx slot s
  | .qctlDisable ctx slot => Sys2Proof.Machine.execQctlDisable ctx slot s
  | .qctlKill ctx slot => Sys2Proof.Machine.execQctlKill ctx slot s
  | .registerWrite r value => Sys2Proof.Machine.execRegisterWrite r value s
  | .partSet => Sys2Proof.Machine.execPartSet s
  | .ctxBind => Sys2Proof.Machine.execCtxBind s
  | .ctxUnbind => Sys2Proof.Machine.execCtxUnbind s
  | .fassign => Sys2Proof.Machine.execFassign s
  | .frelease => Sys2Proof.Machine.execFrelease s
  | .hmove => Sys2Proof.Machine.execHmove s
  | .preempt => Sys2Proof.Machine.execPreempt s
  | .killq => Sys2Proof.Machine.execKillq s
  | .standset => Sys2Proof.Machine.execStandset s
  | .signerSet => Sys2Proof.Machine.execSignerSet s
  | .tmplReg => Sys2Proof.Machine.execTmplReg s
  | .tmplDrop => Sys2Proof.Machine.execTmplDrop s
  | .taskctx => Sys2Proof.Machine.execTaskctx s
  | .sessOpen => Sys2Proof.Machine.execSessOpen s
  | .sessRequest c => Sys2Proof.Machine.execSessRequest c s
  | .sessAnswer r => Sys2Proof.Machine.execSessAnswer r s
  | .sessOpenTimeout => Sys2Proof.Machine.execSessOpenTimeout s
  | .sessClose => Sys2Proof.Machine.execSessClose s
  | .spdmRequest port kind => Sys2Proof.Machine.execSpdmRequest port kind s
  | .hmopen old new sizeCode tenant => Sys2Proof.Machine.execHmopen old new sizeCode tenant s
  | .lineCopy old x => Sys2Proof.Machine.execLineCopy old x s
  | .hmswitch old => Sys2Proof.Machine.execHmswitch old s
  | .hmabort old => Sys2Proof.Machine.execHmabort old s
  | .cxlMemRequest r => Sys2Proof.Machine.execCxlMemRequest r s
  | .bisnpinv x => Sys2Proof.Machine.execBisnpinv x s
  | .bisnpdata addr => Sys2Proof.Machine.execBisnpdata addr s
  | .biconflict addr data => Sys2Proof.Machine.execBiconflict addr data s
  | .extentAdd base tag pids => Sys2Proof.Machine.execExtentAdd base tag pids s
  | .extentRelease base => Sys2Proof.Machine.execExtentRelease base s
  | .extentGoneNotice base => Sys2Proof.Machine.execExtentGoneNotice base s
  | .ndtPacketReceive src packet => Sys2Proof.Machine.execNdtPacketReceive src packet s
  | .pageBringIn page lost => Sys2Proof.Machine.execPageBringIn page lost s
  | .atsInvalidation pasid base size => Sys2Proof.Machine.execAtsInvalidation pasid base size s
  | .softError site worse => Sys2Proof.Machine.execSoftError site worse s
  | .viralReceived peer => Sys2Proof.Machine.execViralReceived peer s
  | .deviceViral => Sys2Proof.Machine.execDeviceViral s
  | .expanderLost pid => Sys2Proof.Machine.execExpanderLost pid s
  | .vfEnableClear => Sys2Proof.Machine.execVfEnableClear s
  | .thermalClockStep raise => Sys2Proof.Machine.execThermalClockStep raise s
  | .auditReplayDone r => Sys2Proof.Machine.execAuditReplayDone r s
  | .unitRetest u pass => Sys2Proof.Machine.execUnitRetest u pass s
  | .startUp r => Sys2Proof.Machine.execStartUp r s
  | .translationCompletion ctx va r => Sys2Proof.Machine.execTranslationCompletion ctx va r s
  | .iinvComplete id => Sys2Proof.Machine.execIinvComplete id s
  | .pageRequestInterfaceEnable ctx => Sys2Proof.Machine.execPageRequestInterfaceEnable ctx s
  | .vfEnableSet => Sys2Proof.Machine.execVfEnableSet s
  | .linkReset peer => Sys2Proof.Machine.execLinkReset peer s
  | .retrainingComplete port width => Sys2Proof.Machine.execRetrainingComplete port width s
  | .hostUioAccess a => Sys2Proof.Machine.execHostUioAccess a s

end Sys2Proof.Machine
end

