-- ==== Sys2Proof/Machine/Step.lean ====
section
/-! DEFINITION. One step of the machine: what has arrived from outside, a clock that is due, the next word of the party that issues, or
what the device does by itself; where there is nothing to do, time passes. -/
namespace Sys2Proof.Machine

def step (s : State) : Host.Outcome State Fault Refusal :=
  match s.inbox with
  | i :: rest => exec i { s with inbox := rest }
  | [] =>
    match s.ticks with
    | some i => exec i s
    | none =>
      match s.nextWord with
      | some (.ok i) => exec i s
      | some (.error f) => .fault f
      | none =>
        match s.onward with
        | (some i, t) => exec i t
        | (none, t) => .next t

/-- The state with one instruction as the pitch of a party that issues (log entry 3). -/
def State.withFetchWord (s : State) (nbits w : Nat) : State := s.running1 (oneInstr (Sys2Proof.tableWords nbits w))

end Sys2Proof.Machine
end

