-- ==== Sys2Proof/Safety.lean ====
section
/-! DEFINITION. What counts as a safe run, and the terms in which the statements are put: when a word passes its checks, what has become of
its party afterwards, what a destination holds, and what is left alone. -/
namespace Sys2Proof

/-- One step that answers a next state. -/
def Steps (s t : Machine.State) : Prop := Machine.step s = .next t

/-- A state reached from another by some steps. -/
inductive Reaches (s : Machine.State) : Machine.State → Prop where
  | refl : Reaches s s
  | step {t u : Machine.State} : Reaches s t → Steps t u → Reaches s u

/-- A state from which the machine goes on whatever its party does: no step stops with a fault or a refusal. -/
def Safe (s : Machine.State) : Prop := ∀ t, Reaches s t → ∃ u, Steps t u

namespace Machine

/-- What a home party's register holds in one lane; a register without a row reads 0 (R39, R41). -/
def Home.lane (h : Home) (n : BitVec 8) (comp k : Nat) : W32 := match h.row? n comp with | some x => rowGet x.data k | none => 0

/-- What a v register of a home party holds in one lane. -/
def State.vLane (s : State) (fid hp : Nat) (n : BitVec 8) (comp k : Nat) : W32 := match s.home? fid hp with | some h => h.lane n comp k | none => 0

/-- What a temporary of the current pitch holds in one lane (R65). -/
def Pitch.lane (c : Pitch) (n : BitVec 3) (comp k : Nat) : W32 :=
  match c.temps.find? fun t => t.reg = n && t.comp = comp with | some t => rowGet t.data k | none => 0

/-- A word of the issuing party passes the checks that every word shares: a lane is active where it needs one (R26), the temporaries that it
reads are written (R42), and where reads are checked none comes too early (R61). -/
structure Passes (s : State) (a : Agent) (i : Instr) (perLane : Bool) : Prop where
  agent : s.agent = .ok a
  active : perLane = true → a.p.active ≠ 0
  temps : a.unset (usesOf a.l.record i) = false
  early : a.l.record.chk = true → s.tooEarly a (usesOf a.l.record i) = none

/-- The party has gone on past the word: to the next word of its pitch, or to the place after the pitch (R51). -/
def State.wentOn (t : State) (a : Agent) (i : Instr) : Prop :=
  ∃ q, t.party? a.p.pid = some q ∧
    (if a.c.idx + wordsTaken i < a.c.words.length then ∃ c, q.pitch = some c ∧ c.idx = a.c.idx + wordsTaken i ∧ c.words = a.c.words
      else q.pitch = none ∧ q.pc = a.c.after ∧ q.awaits = a.c.awaits)

/-- A destination of `n` registers holds the lanes' results, with `nt` tangent components (R136, R137, R222): a v or t register in each
lane of `m`, an s register once, a c register one bit for each lane of `m`. A temporary lasts to the end of its pitch. -/
def State.Held (t : State) (a : Agent) (d : Reg) (n : Nat) (sext : Bool) (nt : Nat) (m : Mask) (rs : List LaneRes) : Prop :=
  match d with
  | .v r => ∀ j < n, ∀ k < 64, m.getLsbD k = true →
      t.vLane a.p.fid a.p.hp (r + BitVec.ofNat 8 j) 0 k = (rs.getD k {}).words.getD j 0 ∧
      ∀ c, 0 < c → t.vLane a.p.fid a.p.hp (r + BitVec.ofNat 8 j) c k = if c ≤ nt then ((rs.getD k {}).tans.getD (c - 1) []).getD j 0 else 0
  | .t r => ∀ q c, t.party? a.p.pid = some q → q.pitch = some c → ∀ j < n, ∀ k < 64, m.getLsbD k = true →
      c.lane (r + BitVec.ofNat 3 j) 0 k = (rs.getD k {}).words.getD j 0 ∧
      ∀ x, 0 < x → c.lane (r + BitVec.ofNat 3 j) x k = if x ≤ nt then ((rs.getD k {}).tans.getD (x - 1) []).getD j 0 else 0
  | .s r => ∃ q, t.party? a.p.pid = some q ∧ q.sreg r = uniformResult n sext (rs.headD {})
  | .c r => r ≠ 7 → ∃ q, t.party? a.p.pid = some q ∧ ∀ k < 64, m.getLsbD k = true → (q.creg r).getLsbD k = decide ((rs.getD k {}).words.headD 0 ≠ 0)
  | .imm _ => True

/-- Registers that a word writes or frees by its last reads (R66). -/
def touched (r : LRec) (i : Instr) : List Name := (usesOf r i).dsts ++ (lastNames (usesOf r i)).map Name.v

/-- What a word that only writes registers leaves alone: all memory, every other party, the party's registers and special registers but for
its destination, every v register but for its destination and those that it frees, and every piece of the machine that is neither time nor
the forme's flags. -/
structure Kept (s t : State) (a : Agent) (i : Instr) : Prop where
  mem : t.mem = s.mem
  bulk : t.bulk = s.bulk
  poison : t.poison = s.poison
  scratch : ∀ f, (t.forme? f).map (·.scratch) = (s.forme? f).map (·.scratch)
  galley : ∀ f, (t.forme? f).map (·.galley) = (s.forme? f).map (·.galley)
  others : ∀ j, j ≠ a.p.pid → t.party? j = s.party? j
  self : ∃ q, t.party? a.p.pid = some q ∧ q.em = a.p.em ∧ q.pick = a.p.pick ∧ q.w = a.p.w ∧ q.calls = a.p.calls ∧ q.lanes = a.p.lanes ∧
    q.exited = a.p.exited ∧ q.stack = a.p.stack ∧ q.hnd = a.p.hnd ∧ q.tstat = a.p.tstat ∧ q.tpc = a.p.tpc ∧ q.tinfo = a.p.tinfo ∧
    q.titems = a.p.titems ∧ q.tmask = a.p.tmask ∧ q.frame = a.p.frame ∧ q.pending = a.p.pending ∧
    (∀ n, Name.s n ∉ touched a.l.record i → q.sreg n = a.p.sreg n) ∧ (∀ n, Name.c n ∉ touched a.l.record i → q.creg n = a.p.creg n)
  rows : ∀ n, Name.v n ∉ touched a.l.record i → ∀ c k, k < 64 → t.vLane a.p.fid a.p.hp n c k = a.h.lane n c k
  homes : ∀ f h, ¬ (f = a.p.fid ∧ h = a.p.hp) → t.home? f h = s.home? f h
  rest : t.launches = s.launches ∧ t.ops = s.ops ∧ t.queues = s.queues ∧ t.status = s.status ∧ t.graphs = s.graphs ∧ t.jobs = s.jobs ∧
    t.parts = s.parts ∧ t.mailbox = s.mailbox ∧ t.tlb = s.tlb ∧ t.out = s.out ∧ t.dvsec = s.dvsec

/-- The forme's flags after a word are those before it and those given. -/
def State.flagsAre (t : State) (a : Agent) (fl : BitVec 9) : Prop := ∃ f, t.forme? a.p.fid = some f ∧ f.flags = a.f.flags ||| fl

/-- The party goes on at its forme's next boundary, and its register files are whole (part of the invariant `State.Files`). -/
structure Agent.whole (a : Agent) : Prop where
  going : a.p.stopped = false
  sregs : a.p.s.length = 64
  cregs : a.p.c.length = 7

/-- A word that writes one destination, passing its checks, completes: the destination holds the results `rs` in the lanes of `m`, the flags
`fl` are set, and everything else is kept (R39, R45, R136). -/
def Finishes (s : State) (a : Agent) (i : Instr) (perLane : Bool) (d : Reg) (n : Nat) (sext : Bool) (nt : Nat) (m : Mask) (rs : List LaneRes) (fl : BitVec 9) : Prop :=
  Passes s a i perLane → a.whole → a.overcommits (usesOf a.l.record i) (resultWrites d n sext nt m rs) = false →
  ∃ t, exec i s = .next t ∧ t.wentOn a i ∧ t.Held a d n sext nt m rs ∧ t.flagsAre a fl ∧ Kept s t a i

/-- The lanes that a lane-wise word acts in: the active ones, or one where its destination is an s register (R136). -/
def Agent.lanesFor (a : Agent) (d : Reg) : Mask := if d.isS then 1#64 else a.p.active

/-- A word computes each active lane by itself: it finishes with the results `f` of the lanes and the flags that they set (R136, R137). -/
def Computes (s : State) (a : Agent) (i : Instr) (d : Reg) (n : Nat) (sext : Bool) (nt : Nat) (f : Nat → LaneRes) : Prop :=
  Finishes s a i (!d.isS) d n sext nt (a.lanesFor d) (laneResults (a.lanesFor d) f) (flagsOf (laneResults (a.lanesFor d) f))

/-! Operands as R136 names them: what a source supplies to a lane, through its class and pattern (R62 to R65). `slot` is 0 for A, 1 for B
and 2 for C. -/

/-- The value of one or two registers. -/
def State.opVal (s : State) (a : Agent) (x : Src) (n slot k : Nat) : W64 := laneGet (s.srcLanes a x n slot) k
/-- The value read as its integer type (R105). -/
def State.opInt (s : State) (a : Agent) (t : OpTy) (x : Src) (slot k : Nat) : Int := tyVal t (s.opVal a x t.regs slot k)
/-- A 32-bit value. -/
def State.op32 (s : State) (a : Agent) (x : Src) (slot k : Nat) : W32 := rowGet (s.src32 a x slot) k
/-- A 32-bit value read as an integer of a signedness. -/
def State.ext32 (s : State) (a : Agent) (signed : Bool) (x : Src) (slot k : Nat) : Int := intOf signed 32 (s.op32 a x slot k).toNat
/-- The registers of a source, the primary's (component 0) or a tangent's. -/
def State.opRegs (s : State) (a : Agent) (x : Src) (n slot comp k : Nat) : List W32 :=
  (upFrom 0 n).map fun j => rowGet (if comp = 0 then s.srcRow a x j 0 (8 * slot) else s.srcT a x slot j comp) k

/-- Value `j` of a pair source in a lane: a pair of v or t registers, or two s registers with one 32-bit value each (R167). -/
def State.opPair (s : State) (a : Agent) (x : Src) (slot j k : Nat) : W32 :=
  match x.reg with
  | .s n => rowGet (s.sRow a (n + BitVec.ofNat 6 j) (8 * slot + j) false) k
  | _ => rowGet (s.srcRow a x j 0 (8 * slot)) k

/-- A copy of a source's registers, with its tangents (R223). -/
def State.copyOf (s : State) (a : Agent) (x : Src) (n slot nt k : Nat) : LaneRes :=
  { words := s.opRegs a x n slot 0 k, tans := (upFrom 1 nt).map fun c => s.opRegs a x n slot c k }

/-- The value of an element of a 32-bit register (R110). -/
def elemVal (f : Fmt) (w : W32) (e : Nat) : XR := valOf f (elemOf f w e)

/-- A packed result: each element of the register with the flags that it sets (R110, R138). -/
def perElement (f : Fmt) (g : Nat → Nat × BitVec 9) (tans : List (List W32)) : LaneRes :=
  { words := [packElems f.width ((upFrom 0 (elemCount f)).map fun e => (g e).1)]
    flags := ((upFrom 0 (elemCount f)).map g).foldl (fun x r => x ||| r.2) 0
    tans := tans }

/-! Words that write no register. -/

/-- The machine but for its parties, what their home parties keep beside their rows, caches, counters and time is as before. -/
structure Spared (s t : State) : Prop where
  mem : t.mem = s.mem
  bulk : t.bulk = s.bulk
  poison : t.poison = s.poison
  scratch : ∀ f, (t.forme? f).map (·.scratch) = (s.forme? f).map (·.scratch)
  galley : ∀ f, (t.forme? f).map (·.galley) = (s.forme? f).map (·.galley)
  flags : ∀ f, (t.forme? f).map (·.flags) = (s.forme? f).map (·.flags)
  rows : ∀ f h, (t.home? f h).map (·.rows) = (s.home? f h).map (·.rows)
  rest : t.launches = s.launches ∧ t.ops = s.ops ∧ t.queues = s.queues ∧ t.status = s.status ∧ t.graphs = s.graphs ∧ t.jobs = s.jobs ∧
    t.parts = s.parts ∧ t.mailbox = s.mailbox ∧ t.tlb = s.tlb ∧ t.out = s.out ∧ t.dvsec = s.dvsec

/-- Two parties with the same registers, lanes, exec mask, trap state and boundary traps due. -/
structure Party.SameRegs (p q : Party) : Prop where
  regs : q.s = p.s ∧ q.c = p.c ∧ q.w = p.w ∧ q.pick = p.pick
  lanes : q.lanes = p.lanes ∧ q.exited = p.exited
  em : q.em = p.em
  traps : q.tstat = p.tstat ∧ q.tpc = p.tpc ∧ q.tinfo = p.tinfo ∧ q.titems = p.titems ∧ q.tmask = p.tmask
  due : q.pending = p.pending

/-- The word is the last of its pitch (R52), and its party goes on afterwards. -/
def Agent.ends (a : Agent) (i : Instr) : Prop := a.p.stopped = false ∧ a.c.idx + wordsTaken i = a.c.words.length

/-- An address at which the party finds a cairn (R83). -/
def State.cairnAt (s : State) (a : Agent) (va : Nat) : Prop := va % 8 = 0 ∧ ∃ w, s.fetchWord a.p a.f.core a.l va = .ok w ∧ isCairn w = true

/-- The party stands at the block at `va`, with a call stack. -/
def State.Jumped (t : State) (a : Agent) (va : Nat) (calls : List Nat) : Prop :=
  ∃ q, t.party? a.p.pid = some q ∧ q.pitch = none ∧ q.pc = va ∧ q.entry = .block ∧ q.met = false ∧ q.awaits = a.c.awaits ∧ q.wait = a.p.wait ∧
    q.calls = calls ∧ q.hnd = a.p.hnd ∧ q.stack = a.p.stack ∧ q.defer = a.p.defer ∧ a.p.SameRegs q

/-- The party has left its pitch for the word after it (R51, R53). -/
def State.FellThrough (t : State) (a : Agent) (w : Wait) : Prop :=
  ∃ q, t.party? a.p.pid = some q ∧ q.pitch = none ∧ q.pc = a.c.after ∧ q.entry = (if a.c.last then .fall else .inside) ∧ q.awaits = a.c.awaits ∧
    q.wait = w ∧ q.calls = a.p.calls ∧ q.hnd = a.p.hnd ∧ q.stack = a.p.stack ∧ q.defer = a.p.defer ∧ a.p.SameRegs q

/-- Every other party is as before. -/
def State.othersKept (s t : State) (a : Agent) : Prop := ∀ j, j ≠ a.p.pid → t.party? j = s.party? j

/-- Parties of other home parties are as before, but for the instruction words that they may have fetched (R279). -/
def State.strangersKept (s t : State) (a : Agent) : Prop :=
  ∀ j p, s.party? j = some p → ¬ (p.fid = a.p.fid ∧ p.hp = a.p.hp) → ∃ q, t.party? j = some q ∧ { q with fetched := p.fetched } = p

/-- Parties of other formes are as before, but for the instruction words that they may have fetched. -/
def State.foreignersKept (s t : State) (a : Agent) : Prop :=
  ∀ j p, s.party? j = some p → p.fid ≠ a.p.fid → ∃ q, t.party? j = some q ∧ { q with fetched := p.fetched } = p

/-- A transfer to a cairn completes: the party stands there, and nothing else changes. -/
def Jumps (s : State) (a : Agent) (i : Instr) (va : Nat) (calls : List Nat) : Prop :=
  s.cairnAt a va → ∃ t, exec i s = .next t ∧ t.Jumped a va calls ∧ s.othersKept t a ∧ Spared s t

/-- A word that ends its pitch completes, its party standing after the pitch or waiting there. -/
def Falls (s : State) (a : Agent) (i : Instr) (w : Wait) : Prop :=
  ∃ t, exec i s = .next t ∧ t.FellThrough a w ∧ s.strangersKept t a ∧ Spared s t

/-- A word that completes in its pitch, keeping its party's registers: the state `t`. -/
structure Completes (s t : State) (a : Agent) (i : Instr) : Prop where
  on : t.wentOn a i
  self : ∃ q, t.party? a.p.pid = some q ∧ a.p.SameRegs q ∧ q.hnd = a.p.hnd ∧ q.calls = a.p.calls

/-- The word takes a precise trap before it has any effect (R403, R404). -/
def TrapsHere (s : State) (a : Agent) (i : Instr) (code : TrapCode) (tinfo : Option Nat) (m : Mask) : Prop :=
  exec i s = .next ((s.trapHere a i code tinfo m).counted a i)

/-! Bytes of memory and of scratchpads. -/

def Loc.plus : Loc → Nat → Loc
  | .pa a, k => .pa (a + k)
  | .spad f o, k => .spad f (o + k)

def State.byteAt (s : State) (l : Loc) : Byte := (s.locRead l 1).headD 0

/-- A run of bytes that is no fabric line, moves to no new home, is lost with no withdrawn one, and holds no poison: an access there fails at
nothing. -/
def State.plainAt (s : State) (l : Loc) (n : Nat) : Prop :=
  match l with
  | .pa a => inFabric a = false ∧ s.isBulk a = false ∧ s.poisoned a n = false ∧ (∀ m ∈ s.moves, m.gone = false) ∧ ∀ k < n, s.bulkLine (a + k) = none ∧ s.mirror (a + k) = none
  | .spad _ _ => s.locPoisoned l n = false

/-- No operation is unfinished, no fold is under way, no sector fails its check, and the device is not viral. -/
structure State.Quiet (s : State) : Prop where
  ops : s.openOps = []
  folds : ∀ h ∈ s.homes, ∀ x ∈ h.steps, x.toFold = []
  sectors : s.failing = []
  viral : s.dvsec.viral = false

/-- No other agent's write is among the accesses whose order is open, and no read has missed one: the party's accesses find and leave what memory
holds (R250). -/
def State.undisputed (s : State) (a : Agent) : Prop :=
  ∀ w ∈ s.acts, w.at_ < s.freeCtr ∧ (w.writes = [] ∨ (ownAct (a.p.ancestry s.freeCtr) w.pid w.at_ = true ∧
    ∀ n ∈ w.after, n < s.actId ∧ ∀ z ∈ s.acts, z.id = n → z.reads = []))

/-- The words of the supplied stream stand in plain memory (R134, R210). -/
def State.streamPlain (s : State) (a : Agent) : Prop :=
  a.l.record.coinSrc = 0 ∨ (s.failing = [] ∧
    ∀ va pa, s.translateFor a.l.space a.p.park va .r = .hit pa → s.plainAt (.pa pa) 4)

/-- Memory, scratchpads and galleys are in their canonical form: strictly rising keys, and no entry that equals what an unlisted key reads as. -/
def State.Canonical (s : State) : Prop :=
  Memory.wf s.mem = true ∧ ∀ f ∈ s.formes, Memory.wf f.scratch = true ∧ storeWf (0 : W32) f.galley = true

/-- The bytes of a run after a store, and every byte outside the stored runs as before. -/
def State.storedOnly (s t : State) (runs : List (Loc × Nat)) : Prop :=
  ∀ m, (∀ x ∈ runs, ∀ k < x.2, x.1.plus k ≠ m) → t.byteAt m = s.byteAt m

/-! Draws and tangents. -/

/-- A computed tangent as it is written, by the primary result `d` and the source tangents that its formula reads (R223). -/
def tangentOf (f : Fmt) (d : XR) (reads : List XR) (t : XR) : Nat :=
  if d.isNan then canonNan f
  else if reads.all XR.isZero then 0
  else
    let b := (place f true .rne t).1
    if (valOf f b).isZero then 0 else b

/-- The tangent of a converted element, from the value and the tangent of its source: 0 where the primary was clamped (R117, R223). -/
def convTan (f : Fmt) (satm : Bool) (rm : RmCode) (x t : XR) : Nat :=
  let r := place f satm rm x
  let d := valOf f r.1
  if d.isNan = false ∧ x.isNan = false ∧ r.2.getLsbD 0 = true then 0 else tangentOf f d [t] t

/-- Element `j` of tangent component `c` of a source in a lane. -/
def State.elemTan (s : State) (a : Agent) (f : Fmt) (x : Src) (slot c k j : Nat) : XR := elemVal f (rowGet (s.srcT a x slot 0 c) k) j

/-- A quad holds triples, word 0 with `nt` tangent components and the other words with none (R204, R230). -/
def State.HeldTriples (t : State) (a : Agent) (d : Reg) (nt : Nat) (m : Mask) (ts : List Triple) : Prop :=
  match d with
  | .v r => ∀ k < 64, m.getLsbD k = true →
      let x := ts.getD k {m := 0, w := 0, x := 0}
      t.vLane a.p.fid a.p.hp r 0 k = x.m ∧ t.vLane a.p.fid a.p.hp (r + 1) 0 k = x.w ∧ t.vLane a.p.fid a.p.hp (r + 2) 0 k = x.x ∧
      t.vLane a.p.fid a.p.hp (r + 3) 0 k = 0 ∧
      ∀ c, 0 < c → t.vLane a.p.fid a.p.hp r c k = (if c ≤ nt then x.z.getD (c - 1) 0 else 0) ∧
        ∀ j, 0 < j → j < 4 → t.vLane a.p.fid a.p.hp (r + BitVec.ofNat 8 j) c k = 0
  | .t r => ∀ q c, t.party? a.p.pid = some q → q.pitch = some c → ∀ k < 64, m.getLsbD k = true →
      let x := ts.getD k {m := 0, w := 0, x := 0}
      c.lane r 0 k = x.m ∧ c.lane (r + 1) 0 k = x.w ∧ c.lane (r + 2) 0 k = x.x ∧ c.lane (r + 3) 0 k = 0 ∧
      ∀ y, 0 < y → c.lane r y k = (if y ≤ nt then x.z.getD (y - 1) 0 else 0) ∧ ∀ j, 0 < j → j < 4 → c.lane (r + BitVec.ofNat 3 j) y k = 0
  | _ => True

/-- A draw word, passing its checks, completes with triples in its quad and these flags, and everything else is kept. -/
def FinishesQuad (s : State) (a : Agent) (i : Instr) (d : Reg) (nt : Nat) (m : Mask) (ts : List Triple) (fl : BitVec 9) : Prop :=
  Passes s a i true → a.whole → a.overcommits (usesOf a.l.record i) (quadWrites d nt m ts) = false →
  ∃ t, exec i s = .next t ∧ t.wentOn a i ∧ t.HeldTriples a d nt m ts ∧ t.flagsAre a fl ∧ Kept s t a i

/-- The flags that the active lanes' triples set. -/
def tripleFlags (m : Mask) (f : Nat → Triple × BitVec 9) : BitVec 9 := (maskLanes m).foldl (fun x i => x ||| (f i).2) 0

/-- The triple of a quad source in a lane, with `nt` tangents. -/
def State.tripleIn (s : State) (a : Agent) (x : Src) (slot nt k : Nat) : Triple :=
  { m := rowGet (s.srcRow a x 0 0 (8 * slot)) k, w := rowGet (s.srcRow a x 1 0 (8 * slot)) k, x := rowGet (s.srcRow a x 2 0 (8 * slot)) k
    z := (upFrom 1 nt).map fun c => rowGet (s.srcT a x slot 0 c) k }

/-- Sequence numbers of the lanes after a word. -/
def State.seqsAre (t : State) (a : Agent) (f : Nat → W64) : Prop := ∃ h, t.home? a.p.fid a.p.hp = some h ∧ ∀ k < 64, h.seqOf k = f k

/-! Words that issue operations, and words that reach memory. -/

/-- A word issues one asynchronous operation, on a queue of its core or die, and completes; nothing else changes but for its party's place,
and the result that it may have outstanding. `ops` are the operations there before. -/
def Issues (s : State) (a : Agent) (i : Instr) (queue site : Nat) (w : Work) (ops : List Op := s.ops) : Prop :=
  ∃ t o, exec i s = .next t ∧ Completes s t a i ∧ s.strangersKept t a ∧ t.ops = ops ++ [o] ∧ Spared { s with ops := t.ops } t ∧
    o.work = w ∧ o.queue = queue ∧ o.site = site ∧ o.fid = a.p.fid ∧ o.hp = a.p.hp ∧ o.pid = a.p.pid ∧ o.word = a.addr i ∧ o.batch = none ∧
    o.fail = none ∧ (o.phase = .queued ∨ o.phase = .spilt)

/-- The places that an access reaches, in the order of its bytes. -/
def State.cellsAt (s : State) (a : Agent) (x : Acc) : List Loc :=
  match s.resolve a x with | .at_ ls => ls.flatMap fun y => (upFrom 0 y.2).map y.1.plus | _ => []

/-- A memory word at its first issue, whose accesses `l` all reach plain memory or the scratchpad. -/
structure Reaches1 (s : State) (a : Agent) (l : List Acc) : Prop where
  going : a.p.stopped = false
  fresh : a.c.left = none ∧ a.c.refused = [] ∧ a.c.some_ = false
  quiet : s.Quiet
  undisputed : s.undisputed a
  plain : ∀ x ∈ l, ∃ ls, s.resolve a x = .at_ ls ∧ ∀ y ∈ ls, s.plainAt y.1 y.2
  /-- the core has room for the word's requests (R48) -/
  room : sumBy Long.reqs s.longs + l.length ≤ 8192
  /-- nothing but the lane has written what it reads of its private memory (R239) -/
  lane : ∀ x ∈ l, x.own = true → ∀ y ∈ s.past, a.l.since ≤ y.at_ → (∃ z ∈ s.cellsAt a x, y.key = z.key) → ∃ pid, y.writer = .lane pid a.p.fid a.p.hp

/-- The bytes that an access finds. -/
def State.found (s : State) (a : Agent) (x : Acc) : List Byte := (s.cellsAt a x).map s.byteAt

/-- What some accesses store, byte by byte. -/
def State.cells (s : State) (a : Agent) (l : List Acc) : List (Loc × Byte) := l.flatMap fun x => (s.cellsAt a x).zip x.data

/-- A place that only one byte of some accesses is for. -/
def onlyOnce (l : List Loc) (m : Loc) : Prop := (l.filter fun x => x = m).length = 1

/-- What a word that reads memory leaves alone: every byte, and every v register that is neither its destination nor freed by its last reads. -/
structure KeptByRead (s t : State) (a : Agent) (i : Instr) : Prop where
  mem : t.mem = s.mem
  bulk : t.bulk = s.bulk
  scratch : ∀ f, (t.forme? f).map (·.scratch) = (s.forme? f).map (·.scratch)
  galley : ∀ f, (t.forme? f).map (·.galley) = (s.forme? f).map (·.galley)
  flags : ∀ f, (t.forme? f).map (·.flags) = (s.forme? f).map (·.flags)
  rows : ∀ n, Name.v n ∉ touched a.l.record i → ∀ c k, k < 64 → t.vLane a.p.fid a.p.hp n c k = a.h.lane n c k
  homes : ∀ f h, ¬ (f = a.p.fid ∧ h = a.p.hp) → t.home? f h = s.home? f h
  others : s.strangersKept t a

/-- A late result of a word holds, for register `j` and component `c` of its destination, what each access found. -/
def Lands (s t : State) (a : Agent) (d : Reg) (n nt : Nat) (words : List Byte → List W32) (l : List Acc) : Prop :=
  ∃ r ∈ t.longs, r.owners = [a.p.pid] ∧ ∀ j < n, ∀ c ≤ nt, ∃ m row, Dest.lanes (regV (regPlus j d)) c m row ∈ r.dests ∧
    ∀ x ∈ l, x.comp = c → m.getLsbD x.lane = true ∧ rowGet row x.lane = (words (s.found a x)).getD j 0

/-- A load completes with what each lane's access finds outstanding for its destination, and memory is as before. -/
def LoadsBy (s : State) (a : Agent) (i : Instr) (o : MF) (n : Need) (way : Way) : Prop :=
  let nt := a.memTans i o.sz.tangent way
  ∀ l, a.formAll way n (s.offsets a o.so a.p.active (mfOff o)) nt o.sz.bytes = .ok l → Passes s a i true → Reaches1 s a l →
    a.overcommits (usesOf a.l.record i) (s.allocRows a o.dat o.sz.regs nt) = false →
    ∃ t, exec i s = .next t ∧ Completes s t a i ∧ Lands s t a o.dat o.sz.regs nt (loadWords o.sz) l ∧ KeptByRead s t a i

/-- A store completes: a place for which one lane alone has a byte holds it, and every place outside is as before. -/
def StoresBy (s : State) (a : Agent) (i : Instr) (o : MF) (n : Need) (way : Way) : Prop :=
  let nt := a.memTans i o.sz.tangent way
  ∀ l, withData (s.storeData a (mfData o) o.sz.regs o.sz.bytes nt) (a.formAll way n (s.offsets a o.so a.p.active (mfOff o)) nt o.sz.bytes) = .ok l →
    Passes s a i true → Reaches1 s a l → s.Canonical →
    ∃ t, exec i s = .next t ∧ Completes s t a i ∧ s.strangersKept t a ∧
      (∀ x ∈ s.cells a l, onlyOnce ((s.cells a l).map (·.1)) x.1 → t.byteAt x.1 = x.2) ∧
      (∀ m, (∀ x ∈ s.cells a l, x.1 ≠ m) → t.byteAt m = s.byteAt m)

/-- An atomic completes: an access that no other touches finds the old value and leaves the new one. -/
def AtomicBy (s : State) (a : Agent) (i : Instr) (o : MA) (way : Way) (ret : Bool) : Prop :=
  let z := o.sz.bytes
  let nt := a.memTans i (o.aop = .xchg || o.aop = .fadd) way
  ∀ l, withData (s.atomData a o nt) (a.formAll way .rw (s.offsets a o.so a.p.active 0) nt z) = .ok l → Passes s a i true → Reaches1 s a l → s.Canonical →
    a.overcommits (usesOf a.l.record i) (if ret then s.allocRows a o.dat o.sz.regs nt else []) = false →
    (∀ x ∈ l, ∀ m ∈ s.cellsAt a x, onlyOnce (l.flatMap (s.cellsAt a)) m) →
    ∃ t, exec i s = .next t ∧ Completes s t a i ∧ s.strangersKept t a ∧ (ret = true → Lands s t a o.dat o.sz.regs nt (loadWords o.sz) l) ∧
      (∀ x ∈ l, ∀ y ∈ (s.cellsAt a x).zip (bytesOfNat z (atomicNew o.aop o.sgn z (natOfBytes (s.found a x)) (natOfBytes (x.data.take z)) (natOfBytes (x.data.drop z))).1),
        t.byteAt y.1 = y.2) ∧
      (∀ m, (∀ x ∈ l, m ∉ s.cellsAt a x) → t.byteAt m = s.byteAt m)

/-- A cache instruction completes, with no byte of memory changed. -/
def LinesBy (s : State) (a : Agent) (i : Instr) (o : MF) (P : State → List Acc → Prop) : Prop :=
  ∀ l, a.formAll (a.winWay o.win) .r (s.offsets a o.so a.p.active (mfOff o)) 0 1 = .ok l → Passes s a i true → Reaches1 s a l →
    ∃ t, exec i s = .next t ∧ Completes s t a i ∧ KeptByRead s t a i ∧ P t l

/-- The line of memory that an access reaches. -/
def State.lineAt (s : State) (a : Agent) (x : Acc) (line : Nat) : Prop := ∃ p n, s.resolve a x = .at_ [(.pa p, n)] ∧ line = lineOf p

/-- An engine command whose descriptor has been read completes: the command is queued, and its reply names it. -/
def Sends (s : State) (a : Agent) (i : Instr) (o : XF) (queue : Nat) (w : Work) : Prop :=
  a.p.stopped = false → (a.l.record.chk = true → s.openOps = []) → (s.queuePlace (s.partOf a.l.lid) queue (dieOf a.f.core)).isSome = true →
  Issues s a i queue (dieOf a.f.core) w (s.sealReads a.p).ops ∧
  ∀ t d, exec i s = .next t → o.rply = some d → ∃ r ∈ t.longs, r.owners = [a.p.pid] ∧ r.dests = [.sreg d (s.itemId queue a.f.core)]

/-! Events: what the device does by itself, and what reaches it from outside. -/

/-- An event happens, and what it leaves is so. -/
def Does (s : State) (i : Instr) (P : State → Prop) : Prop := ∃ t, exec i s = .next t ∧ P t

/-- Every party but one is as before. -/
def State.allBut (s t : State) (pid : Nat) : Prop := ∀ j, j ≠ pid → t.party? j = s.party? j

/-- A party has entered its handler for a trap, and would go back to `r` (R403, R404). -/
def State.Handling (t : State) (pid : Nat) (l : Launch) (code : TrapCode) (r : Resume) (m : Mask) : Prop :=
  ∃ q, t.party? pid = some q ∧ q.hnd = true ∧ q.pc = l.record.handler ∧ q.entry = .block ∧ q.skip = 0 ∧ q.pitch = none ∧ q.wait = .none ∧ q.frame = some r ∧
    q.tpc = BitVec.ofNat 64 r.cairn ∧ q.tpcSet = false ∧ q.tmask = m ∧ q.tstat.extractLsb' 0 8 = BitVec.ofNat 8 (trapNum code)

/-- An operation has ended, with its failure where it has one; what is left of it says so (R188, R199). -/
def State.opOver (t : State) (op : Nat) (fail : Option (TrapCode × Nat)) : Prop := ∀ x ∈ t.ops, x.id = op → x.phase = .ended ∧ x.fail = fail

/-- A step of a collective, as its home party keeps it. -/
def State.stepIs (t : State) (fid hp bind n : Nat) (P : Step → Prop) : Prop := ∃ y, t.step? fid hp bind n = some y ∧ P y

/-- A granule for which parties wait is refused to each of them, once (R264, R390). -/
def State.refusedTo (s t : State) (ctx va : Nat) (ws : List Walk) : Prop :=
  ∀ pid p, s.party? pid = some p → s.spaceCtx p.fid = some ctx →
    ∃ q, t.party? pid = some q ∧ ∀ g ∈ q.park, g.addr = granuleOf va → (∃ w ∈ ws, w.need = g.need ∧ w.parking = g.parking) → g.verdict ≠ .waiting

/-- The mailbox is free, the device is ready, and the arguments from `used` on are 0 (R373). -/
structure State.mbFree (s : State) (used : Nat) : Prop where
  done : s.mailbox.done = true
  ready : s.dvsec.ready = true
  args : ∀ v ∈ s.mailbox.args.drop used, v = 0

/-- A mailbox command ends with a RESULT, and what it leaves is so (R373). -/
def Answers (s : State) (i : Instr) (r : Nat) (P : State → Prop) : Prop :=
  Does s i (fun t => t.mailbox.done = true ∧ t.mailbox.cmd = 0 ∧ t.mailbox.result = r ∧ Msg.mailboxDone r ∈ t.out ∧ P t)

/-- Bytes of memory that a write of some data leaves, and every other byte as before. -/
def State.memWritten (s t : State) (a : Nat) (bs : List Byte) : Prop :=
  ∀ x, memGet t.mem x = if a ≤ x ∧ x < a + bs.length then bs.getD (x - a) 0 else memGet s.mem x

/-- The mailbox's commands with their codes and the arguments that they use (R373, R374). -/
def mailboxCommands : List (Instr × Nat × Nat) :=
  [(.partSet, 1, 8), (.ctxBind, 2, 7), (.ctxUnbind, 3, 1), (.fassign, 4, 3), (.frelease, 5, 2), (.hmove, 6, 4), (.preempt, 7, 3), (.killq, 8, 1), (.standset, 9, 2),
   (.signerSet, 10, 2), (.tmplReg, 11, 5), (.tmplDrop, 12, 2), (.taskctx, 13, 2), (.sessOpen, 14, 3), (.sessClose, 15, 1)]

/-! Invariants. -/

/-- Every party has 64 s registers, 16 window registers and 7 c registers, every home party 64 sequence numbers, and every context its 23
counters; the device has 64 contexts, 16 partitions and 4 CXL ports to a die (R1, R37, R38, R209, R257, R298, R372, R396). -/
structure State.Files (s : State) : Prop where
  parties : ∀ p ∈ s.parties, p.s.length = 64 ∧ p.w.length = 16 ∧ p.c.length = 7
  homes : ∀ h ∈ s.homes, h.seq.length = 64
  ctxs : s.ctxs.length = 64 ∧ ∀ c ∈ s.ctxs, c.counters.length = 23
  parts : s.parts.length = 16
  ports : s.ports.length = 4 * s.fit.dies

/-! Words of which a check turns the issue into a trap. -/

/-- The log of a party's context can take a trap's record now: no record waits before it, and RIDX can be read (R403, R407; that a trap waits for
them is the model's reading, log entry 127). -/
def State.logReads (s : State) (p : Party) (l : Launch) : Prop :=
  let c := s.logCtx l.ctx
  (s.ctx c).part.isSome = true → s.logClear c = true ∧ (s.logRidx c p.park).isSome = true

/-- The word enters its party's handler before any effect, and is itself the resume point (R403, R404). -/
def EntersHere (s : State) (a : Agent) (i : Instr) (code : TrapCode) (info : Option Nat) : Prop :=
  a.p.stopped = false → a.l.record.handler ≠ 0 → a.p.hnd = false → a.c.idx < a.c.words.length → s.logReads a.p a.l →
  ∃ t q, exec i s = .next t ∧ t.Handling a.p.pid a.l code { cairn := a.p.cairn, pc := a.c.base, entry := .inside, word := a.c.idx } a.p.active ∧
    t.party? a.p.pid = some q ∧ q.tstat = BitVec.ofNat 64 (a.word i * 2 ^ 8 + trapNum code) ∧ (∀ n, info = some n → q.tinfo = BitVec.ofNat 64 n) ∧
    q.titems = 0 ∧ q.frameTemps = a.c.temps ∧ q.s = a.p.s ∧ q.c = a.p.c ∧ q.w = a.p.w ∧ q.em = a.p.em ∧ q.pick = a.p.pick ∧ q.calls = a.p.calls ∧
    q.lanes = a.p.lanes ∧ q.pending = a.p.pending ∧ ∀ n c k, t.vLane a.p.fid a.p.hp n c k = a.h.lane n c k

/-- The instruction words, each with whether it is withheld where no lane is active (R26): first those that act in each lane by itself, unless their
destination is an s register. -/
def laneWords (o : V2) (p : V3) (y : FmaTy) (e : Bool) : List (Instr × Bool) :=
  List.flatten [
    [(.imulh o, !o.d.isS), (.ineg o, !o.d.isS), (.iabs o, !o.d.isS), (.imin o, !o.d.isS), (.imax o, !o.d.isS), (.lea o, !o.d.isS), (.iadd o, !o.d.isS), (.isub o, !o.d.isS), (.imul o, !o.d.isS), (.and o, !o.d.isS)],
    [(.or o, !o.d.isS), (.xor o, !o.d.isS), (.andn o, !o.d.isS), (.orn o, !o.d.isS), (.not o, !o.d.isS), (.shl o, !o.d.isS), (.shr o, !o.d.isS), (.sar o, !o.d.isS), (.rol o, !o.d.isS), (.popc o, !o.d.isS)],
    [(.clz o, !o.d.isS), (.ctz o, !o.d.isS), (.brev o, !o.d.isS), (.icmp o, !o.d.isS), (.clop o, !o.d.isS), (.mov o, !o.d.isS), (.lperm o, !o.d.isS), (.fadd o, !o.d.isS), (.fsub o, !o.d.isS), (.fmul o, !o.d.isS)],
    [(.fmin o, !o.d.isS), (.fmax o, !o.d.isS), (.fcmp o, !o.d.isS), (.fclass o, !o.d.isS), (.frnd o, !o.d.isS), (.fscale o, !o.d.isS), (.fexpn o, !o.d.isS), (.frcps o, !o.d.isS), (.frsqs o, !o.d.isS), (.fex2 o, !o.d.isS)],
    [(.flg2 o, !o.d.isS), (.fsin o, !o.d.isS), (.fcos o, !o.d.isS), (.cvt o, !o.d.isS), (.pack2 o, !o.d.isS), (.pack4 o, !o.d.isS), (.xpnd o, !o.d.isS), (.qblk o, !o.d.isS), (.dqblk o, !o.d.isS), (.imad p, !p.d.isS)],
    [(.imadw p, !p.d.isS), (.iclamp p, !p.d.isS), (.bmix p, !p.d.isS), (.fshl p, !p.d.isS), (.bfx p, !p.d.isS), (.bfi p, !p.d.isS), (.sel p, !p.d.isS), (.ffma y e p, !p.d.isS), (.fdot2 e e p, !p.d.isS), (.fdot4 e e p, !p.d.isS)]]

/-- The words that act in each active lane, or through an elected one. -/
def activeWords (o : V2) (p : V3) (g : PF) (m : MF) (k : MA) (x : XF) (u : UF) : List (Instr × Bool) :=
  List.flatten [
    [(.cvote o, true), (.movx o, true), (.movxw o, true), (.coin o, true), (.coinr o, true), (.draw o, true), (.drawa o, true), (.dshift o, true), (.tget o, true), (.tset o, true)],
    [(.tclr o, true), (.gread o, true), (.gwrite o, true), (.coll o, true), (.dmerge p, true), (.sheet g, true), (.press g, true), (.presss g, true), (.gclr g, true), (.gload g, true)],
    [(.gstore g, true), (.platen g, true), (.ld m, true), (.ldsc m, true), (.ldpv m, true), (.st m, true), (.stsc m, true), (.stpv m, true), (.pref m, true), (.reuse m, true)],
    [(.cwb m, true), (.cinv m, true), (.iinv m, true), (.atom k, true), (.atomsc k, true), (.red k, true), (.cpy x, true), (.cpyx x, true), (.cpyrot x, true), (.fill x, true)],
    [(.scrub x, true), (.seal x, true), (.ndt x, true), (.launch u, true)]]

/-- The words that act for their party whatever its lanes, and those of the other formats that act in each lane. -/
def partyWords (c : CD) (t : CX) (u : UF) (w : VW) (m : MF) : List (Instr × Bool) :=
  List.flatten [
    [(.nop u, false), (.ret u, false), (.exit u, false), (.fuse u, false), (.yield u, false), (.sleep u, false), (.isync u, false), (.ropeSet u, false), (.ropeArv u, false), (.ropeWait u, false)],
    [(.ropeSync u, false), (.phase u, false), (.signal u, false), (.waitc u, false), (.cancel u, false), (.trap u, false), (.bkpt u, false), (.eret u, false), (.movs u, false), (.ctrr u, false)],
    [(.oready u, false), (.batch u, false), (.waitb u, false), (.coink u, false), (.fence u, false), (.wopen u, false), (.wclose u, false), (.csigBind u, false), (.csigSig u, false), (.csigStat u, false)],
    [(.bra c, false), (.brc c, false), (.call c, false), (.brx t, false), (.callx t, false), (.movhi w, false), (.ldk m, false), (.movi w, !w.d.isS), (.movsw u, !u.d.isS)]]

end Machine
end Sys2Proof
end

