-- ==== Sys2Proof/Certificates/Slice0/Obligations.lean ====
section
/-! DEFINITION. The statements. -/
open Sys2Proof Sys2Proof.Machine

/-! Integer words (R136 to R153). -/

/-- R141: each active lane gets the exact integer of the table, wrapped to the type. -/
def Obligations.IntegerArithmetic : Prop := ∀ (s : State) (a : Agent) (o : V2) (p : V3),
  (let A := s.opInt a o.ty o.a 0; let B := s.opInt a o.ty o.b 1; let n := o.ty.regs; let g := o.ty.signed; let w := tyBits o.ty
   Computes s a (.iadd o) o.d n g 0 (fun k => tyRes o.ty (A k + B k)) ∧
   Computes s a (.isub o) o.d n g 0 (fun k => tyRes o.ty (A k - B k)) ∧
   Computes s a (.imul o) o.d n g 0 (fun k => tyRes o.ty (A k * B k)) ∧
   Computes s a (.imulh o) o.d n g 0 (fun k => tyRes o.ty ((A k * B k) / 2 ^ w)) ∧
   Computes s a (.ineg o) o.d n g 0 (fun k => tyRes o.ty (-A k)) ∧
   Computes s a (.iabs o) o.d n g 0 (fun k => tyRes o.ty (if A k < 0 then -A k else A k)) ∧
   Computes s a (.imin o) o.d n g 0 (fun k => tyRes o.ty (if A k ≤ B k then A k else B k)) ∧
   Computes s a (.imax o) o.d n g 0 (fun k => tyRes o.ty (if A k ≤ B k then B k else A k)) ∧
   Computes s a (.lea o) o.d n g 0 (fun k => tyRes o.ty (A k + s.ext32 a g o.b 1 k * 2 ^ o.sub.toNat))) ∧
  (let g := !p.m.getLsbD 0; let A := s.ext32 a g p.a 0; let B := s.ext32 a g p.b 1; let C := s.ext32 a g p.c 2
   Computes s a (.imad p) p.d 1 g 0 (fun k => res32 (BitVec.ofInt 32 (A k * B k + C k))) ∧
   Computes s a (.imadw p) p.d 2 g 0 (fun k => resN 2 (BitVec.ofInt 64 (A k * B k + (s.opVal a p.c 2 2 k).toNat))) ∧
   Computes s a (.iclamp p) p.d 1 g 0 (fun k => res32 (BitVec.ofInt 32 (let m := if A k ≤ B k then B k else A k; if m ≤ C k then m else C k))))

/-- R142 and R143: bitwise logic, and shifts with a rule of their own for a count of the width or more. That FSHL's and BMIX's results are zero-extended
in an s register is the model's reading (log entry 112). -/
def Obligations.LogicAndShifts : Prop := ∀ (s : State) (a : Agent) (o : V2) (p : V3),
  (let n := o.ty.regs; let g := o.ty.signed; let w := tyBits o.ty
   let A := s.opVal a o.a n 0; let B := s.opVal a o.b n 1; let cnt := fun k => (s.op32 a o.b 1 k).toNat
   Computes s a (.and o) o.d n g 0 (fun k => resN n (A k &&& B k)) ∧
   Computes s a (.or o) o.d n g 0 (fun k => resN n (A k ||| B k)) ∧
   Computes s a (.xor o) o.d n g 0 (fun k => resN n (A k ^^^ B k)) ∧
   Computes s a (.andn o) o.d n g 0 (fun k => resN n (A k &&& ~~~B k)) ∧
   Computes s a (.orn o) o.d n g 0 (fun k => resN n (A k ||| ~~~B k)) ∧
   Computes s a (.not o) o.d n g 0 (fun k => resN n (~~~A k)) ∧
   Computes s a (.shl o) o.d n g 0 (fun k => tyRes o.ty (if w ≤ cnt k then 0 else (A k).toNat * 2 ^ cnt k)) ∧
   Computes s a (.shr o) o.d n g 0 (fun k => tyRes o.ty (if w ≤ cnt k then 0 else (A k).toNat / 2 ^ cnt k)) ∧
   Computes s a (.sar o) o.d n g 0 (fun k => let x := intOf true w (A k).toNat
     tyRes o.ty (if w ≤ cnt k then (if x < 0 then -1 else 0) else x / 2 ^ cnt k)) ∧
   (o.ty.isWord = true → Computes s a (.rol o) o.d n g 0 (fun k => resN n (if w = 64 then (A k).rotateLeft (cnt k) else (((A k).setWidth 32).rotateLeft (cnt k)).setWidth 64)))) ∧
  (let A := s.op32 a p.a 0; let B := s.op32 a p.b 1; let C := s.op32 a p.c 2
   Computes s a (.fshl p) p.d 1 false 0 (fun k => res32 (((A k ++ B k) <<< ((C k).toNat % 32)).extractLsb' 32 32)) ∧
   (∃ f : W32 → W32 → W32 → W32,
      (∀ x y z j, j < 32 → (f x y z).getLsbD j = (p.c.pat ++ p.b.pat).getLsbD ((if x.getLsbD j then 1 else 0) + (if y.getLsbD j then 2 else 0) + (if z.getLsbD j then 4 else 0))) ∧
      Computes s a (.bmix p) p.d 1 false 0 (fun k => res32 (f (A k) (s.op32 a { p.b with pat := 0 } 1 k) (s.op32 a { p.c with pat := 0 } 2 k)))))

/-- R144 and R145: bit fields taken and put bit by bit, and bits counted and reversed. That BFI's result is zero-extended in an s register is the
model's reading (log entry 112). -/
def Obligations.BitFields : Prop := ∀ (s : State) (a : Agent) (o : V2) (p : V3),
  (let A := s.op32 a p.a 0; let B := s.op32 a p.b 1; let C := s.op32 a p.c 2; let signed := p.m.getLsbD 0
   (∃ f : W32 → W32 → W32 → W32,
     (∀ x y z, let pos := y.toNat % 256; let len := min (z.toNat % 256) 32
       let bit := fun (k : Nat) => if k < 32 then x.getLsbD k else signed && x.getLsbD 31
       ∀ j < 32, (f x y z).getLsbD j = (decide (0 < len) && (if j < len then bit (pos + j) else signed && bit (pos + len - 1)))) ∧
     Computes s a (.bfx p) p.d 1 signed 0 (fun k => res32 (f (A k) (B k) (C k)))) ∧
   (∃ f : W32 → W32 → W32 → W32,
     (∀ x y z, let pos := z.toNat % 256; let len := z.toNat / 256 % 256
       ∀ j < 32, (f x y z).getLsbD j = if pos ≤ j ∧ j < pos + len then y.getLsbD (j - pos) else x.getLsbD j) ∧
     Computes s a (.bfi p) p.d 1 false 0 (fun k => res32 (f (A k) (B k) (C k))))) ∧
  (let n := o.ty.regs; let g := o.ty.signed; let w := tyBits o.ty; let A := s.opVal a o.a n 0
   o.ty.isWord = true →
   (∃ f : W64 → Nat, (∀ x, f x = ((List.range w).filter fun j => x.getLsbD j).length) ∧
     Computes s a (.popc o) o.d 1 g 0 (fun k => res32 (BitVec.ofNat 32 (f (A k))))) ∧
   (∃ f : W64 → Nat, (∀ x, f x ≤ w ∧ (∀ j, w - f x ≤ j → j < w → x.getLsbD j = false) ∧ (f x < w → x.getLsbD (w - 1 - f x) = true)) ∧
     Computes s a (.clz o) o.d 1 g 0 (fun k => res32 (BitVec.ofNat 32 (f (A k))))) ∧
   (∃ f : W64 → Nat, (∀ x, f x ≤ w ∧ (∀ j < f x, x.getLsbD j = false) ∧ (f x < w → x.getLsbD (f x) = true)) ∧
     Computes s a (.ctz o) o.d 1 g 0 (fun k => res32 (BitVec.ofNat 32 (f (A k))))) ∧
   (∃ f : W64 → W64, (∀ x, ∀ j < w, (f x).getLsbD j = x.getLsbD (w - 1 - j)) ∧
     Computes s a (.brev o) o.d n g 0 (fun k => resN n (f (A k)))))

/-- R146 to R149: compares, selection, lane conditions and votes. -/
def Obligations.ComparesAndVotes : Prop := ∀ (s : State) (a : Agent) (o : V2) (p : V3),
  (let A := s.opInt a o.ty o.a 0; let B := s.opInt a o.ty o.b 1
   let cond := fun k => match o.sub.toNat with
     | 0 => decide (A k = B k) | 1 => decide (A k ≠ B k) | 2 => decide (A k < B k) | 3 => decide (A k ≤ B k) | 4 => decide (B k < A k)
     | _ => decide (B k ≤ A k)
   Computes s a (.icmp o) o.d 1 false 0 (fun k => res32 (if cond k then 1 else 0))) ∧
  (let n := if p.m.getLsbD 0 then 2 else 1; let nt := a.tansTo (.sel p) p.d
   Computes s a (.sel p) p.d n false nt (fun k => if s.op32 a p.c 2 k ≠ 0 then s.copyOf a p.a n 0 nt k else s.copyOf a p.b n 1 nt k)) ∧
  (let A := fun k => decide (s.op32 a o.a 0 k ≠ 0); let B := fun k => decide (s.op32 a o.b 1 k ≠ 0)
   Computes s a (.clop o) o.d 1 false 0 (fun k => res32 (if (match o.sub.toNat with
     | 0 => A k && B k | 1 => A k || B k | 2 => A k != B k | 3 => A k && !B k | 4 => A k || !B k | 5 => !A k | _ => A k) then 1 else 0))) ∧
  (let A := s.opVal a o.a o.ty.regs 0; let act := fun k => decide (k < 64) && a.p.active.getLsbD k
   ∃ v : W64,
     (o.sub.toNat < 3 → v = 0 ∨ v = 1) ∧
     (o.sub = 0 → (v = 1 ↔ ∀ k, act k = true → A k ≠ 0)) ∧
     (o.sub = 1 → (v = 1 ↔ ∃ k, act k = true ∧ A k ≠ 0)) ∧
     (o.sub = 2 → (v = 1 ↔ ∀ k j, act k = true → act j = true → A k = A j)) ∧
     (o.sub = 3 → ∀ k < 64, v.getLsbD k = (act k && decide (A k ≠ 0))) ∧
     (match o.d with
      | .s n => Finishes s a (.cvote o) true (.s n) 2 false 0 1 [resN 2 v] 0
      | d => Finishes s a (.cvote o) true d 1 false 0 a.p.active (lanes64.map fun _ => res32 (wLow v)) 0))

/-- R150 to R153: moves, immediates, the register whose number each lane gives, and the lane that each lane chooses. -/
def Obligations.Moves : Prop := ∀ (s : State) (a : Agent) (o : V2) (w : VW),
  (let nt := a.tansTo (.mov o) o.d; Computes s a (.mov o) o.d o.ty.regs o.ty.signed nt (fun k => s.copyOf a o.a o.ty.regs 0 nt k)) ∧
  Computes s a (.movi w) w.d 1 false 0 (fun _ => res32 w.imm) ∧
  (∀ n, w.d = .s n → Finishes s a (.movhi w) false (.s n) 2 false 0 1 [{ words := [wLow (a.p.sreg n), w.imm] }] 0) ∧
  ((a.l.record.chk = true → ∀ n, s.longsOf a.p.pid (.v n) = []) → Finishes s a (.movx o) true o.d 1 false 0 a.p.active
    (laneResults a.p.active fun k =>
      let n := (s.op32 a o.a 0 k).toNat
      res32 (if n ≤ 255 then rowGet (s.vRow a (BitVec.ofNat 8 n) 0 (64 + n)) k else 0)) 0) ∧
  (let nt := a.tansTo (.lperm o) o.d; let n := o.ty.regs
   Computes s a (.lperm o) o.d n o.ty.signed nt (fun k =>
     let j := (s.op32 a o.b 1 k).toNat
     if j < a.h.lanes then s.copyOf a o.a n 0 nt j
     else { words := (upFrom 0 n).map fun _ => 0, tans := (upFrom 1 nt).map fun _ => (upFrom 0 n).map fun _ => 0 })) ∧
  (let i := Instr.movxw o
   let named := fun k => (s.op32 a o.a 0 k).toNat
   Passes s a i true → a.whole → a.overcommits (usesOf a.l.record i) (s.movxwWrites a o) = false →
   ∃ t q, exec i s = .next t ∧ t.wentOn a i ∧ t.party? a.p.pid = some q ∧ q.s = a.p.s ∧ q.c = a.p.c ∧ q.w = a.p.w ∧ q.em = a.p.em ∧ t.mem = s.mem ∧ s.othersKept t a ∧
     ∀ n k, k < 64 →
       (a.p.active.getLsbD k = true → named k = n.toNat → t.vLane a.p.fid a.p.hp n 0 k = s.op32 a o.b 1 k) ∧
       (n ∉ lastNames (usesOf a.l.record i) → (a.p.active.getLsbD k = false ∨ named k ≠ n.toNat) → t.vLane a.p.fid a.p.hp n 0 k = a.h.lane n 0 k))

/-- R43 to R45, R47 and R154 to R156: MOVS, MOVSW and CTRR complete in every form. MOVS reads and writes the special registers, MOVSW writes lane
numbers, and CTRR leaves a counter as a late result. Which flags of other parties a read or write of flags meets is free (log entry 39), and the
counters are those of log entries 12 and 40. -/
def Obligations.SpecialRegisters : Prop := ∀ (s : State) (a : Agent) (o : UF),
  (Passes s a (.movs o) false → a.whole → ∃ t, exec (.movs o) s = .next t ∧ t.wentOn a (.movs o) ∧ t.mem = s.mem ∧ s.homes.length = t.homes.length) ∧
  (Passes s a (.movsw o) (!o.d.isS) → a.whole →
    a.overcommits (usesOf a.l.record (.movsw o)) (resultWrites o.d 1 false 0 (a.lanesFor o.d) (laneResults (a.lanesFor o.d) fun k => res32 (BitVec.ofNat 32 k))) = false →
    ∃ t, exec (.movsw o) s = .next t ∧ t.wentOn a (.movsw o) ∧ t.mem = s.mem) ∧
  (Passes s a (.ctrr o) false → a.whole → ∃ t, exec (.ctrr o) s = .next t ∧ t.wentOn a (.ctrr o) ∧ t.mem = s.mem) ∧
  (∀ n, o.imm = 0 → o.d = .s n → ∃ v : W64,
    (o.idx = 0x00 → v = a.p.em) ∧
    (o.idx = 0x01 → v.getLsbD 1 = a.p.udiv ∧ v.getLsbD 3 = a.p.fused ∧ v.getLsbD 10 = a.p.hnd ∧ v.getLsbD 11 = a.l.record.chk ∧ v.getLsbD 12 = a.l.record.tmode) ∧
    (o.idx = 0x01 → a.p.calls.length < 256 → (s.siblings a.p.fid a.p.hp).length < 32 → a.l.record.tnum < 8 →
      v.extractLsb' 32 8 = BitVec.ofNat 8 a.p.calls.length ∧ v.extractLsb' 24 5 = BitVec.ofNat 5 (s.siblings a.p.fid a.p.hp).length ∧ v.extractLsb' 13 3 = BitVec.ofNat 3 a.l.record.tnum) ∧
    (o.idx = 0x04 → ∀ k < 64, (v.getLsbD k = true → a.f.flags.getLsbD k = true) ∧ ((a.p.seen ||| 0x100#9).getLsbD k = true → v.getLsbD k = a.f.flags.getLsbD k)) ∧
    (o.idx = 0x0A → a.f.core < 32 → v.extractLsb' 0 4 = BitVec.ofNat 4 a.f.core ∧ v.getLsbD 4 = decide (16 ≤ a.f.core) ∧ v.getLsbD 5 = decide (s.fit = .m1) ∧ v.toNat < 64) ∧
    (o.idx = 0x02 → v = BitVec.ofNat 64 a.f.rc) ∧ (o.idx = 0x03 → v = a.p.pick.setWidth 64) ∧
    (o.idx = 0x06 → v = BitVec.ofNat 64 (a.p.hp % 32)) ∧
    (o.idx = 0x07 → v = BitVec.ofNat 64 (a.f.index % a.l.record.gx)) ∧
    (o.idx = 0x08 → v = BitVec.ofNat 64 (a.f.index / a.l.record.gx % a.l.record.gy)) ∧
    (o.idx = 0x09 → v = BitVec.ofNat 64 (a.f.index / a.l.record.gx / a.l.record.gy)) ∧
    (o.idx = 0x0B → v = BitVec.ofNat 64 s.clk) ∧
    (o.idx = 0x20 → v = a.p.tstat) ∧ (o.idx = 0x21 → v = a.p.tpc) ∧ (o.idx = 0x22 → v = a.p.tinfo) ∧ (o.idx = 0x23 → v = a.p.titems) ∧
    (o.idx = 0x24 → v = a.p.tmask) ∧ (o.idx = 0x25 → v = BitVec.ofNat 64 a.l.record.handler) ∧
    (∀ k, k < 8 → o.idx = 0x10 + BitVec.ofNat 8 k → v = (a.l.record.slot (BitVec.ofNat 3 k)).setWidth 64) ∧
    Finishes s a (.movs o) false (.s n) 2 false 0 1 [resN 2 v] 0) ∧
  (o.imm = 1 → Passes s a (.movs o) false → a.whole → let v := s.sVal a o.ua 0
    ∃ t q, exec (.movs o) s = .next t ∧ t.wentOn a (.movs o) ∧ t.party? a.p.pid = some q ∧
      q.em = (if o.idx = 0x00 then v &&& a.p.lanes &&& ~~~a.p.exited else a.p.em) ∧
      q.udiv = (if o.idx = 0x01 then v.getLsbD 1 else a.p.udiv) ∧
      q.pick = (if o.idx = 0x03 then v.setWidth 6 else a.p.pick) ∧
      q.tpc = (if o.idx = 0x21 ∧ a.p.hnd = true then v else a.p.tpc) ∧
      (∃ f, t.forme? a.p.fid = some f ∧ (o.idx ≠ 0x04 → f.flags = a.f.flags) ∧ (o.idx = 0x04 → ∀ k < 9,
        (((v.setWidth 9 &&& 0x13F#9).getLsbD k = true → f.flags.getLsbD k = true) ∧
         (f.flags.getLsbD k = true → (v.setWidth 9 &&& 0x13F#9).getLsbD k = true ∨ (k < 6 ∧ a.f.flags.getLsbD k = true ∧ a.p.seen.getLsbD k = false))))) ∧
      q.s = a.p.s ∧ q.c = a.p.c ∧ q.w = a.p.w ∧ q.hnd = a.p.hnd ∧ q.fused = a.p.fused ∧ q.calls = a.p.calls ∧ t.mem = s.mem) ∧
  Computes s a (.movsw o) o.d 1 false 0 (fun k => res32 (BitVec.ofNat 32 k)) ∧
  (∀ n, o.d = .s n → Passes s a (.ctrr o) false → a.whole →
    ∃ t x v, exec (.ctrr o) s = .next t ∧ t.wentOn a (.ctrr o) ∧ x ∈ t.longs ∧ x.owners = [a.p.pid] ∧ x.dests = [.sreg n v] ∧
      (o.idx ≠ 0x02 → o.idx ≠ 0x14 → v = (s.ctx a.l.ctx).counters.getD o.idx.toNat 0) ∧
      (o.idx = 0x02 → v = (s.ctx a.l.ctx).counters.getD 2 0 + BitVec.ofNat 64 (s.waitClocks a.l.ctx)) ∧
      (o.idx = 0x14 → ∀ k, (s.ctx a.l.ctx).part = some k → v = BitVec.ofNat 64 (s.part k).sigma) ∧
      t.mem = s.mem ∧ (∀ q, t.party? a.p.pid = some q → q.s = a.p.s))

/-! Floating-point words and conversions (R157 to R171). The tangents are the subject of `TangentArithmetic`. -/

/-- R158 and R159: the exact value is rounded once and placed, element by element; a dot product is summed exactly in FP32. -/
def Obligations.FloatArithmetic : Prop := ∀ (s : State) (a : Agent) (o : V2) (p : V3) (ty : FmaTy) (e : Bool),
  (let f := tyFmt o.ty; let A := s.op32 a o.a 0; let B := s.op32 a o.b 1
   (∃ tans : Nat → List (List W32), Computes s a (.fadd o) o.d 1 false (a.tansTo (.fadd o) o.d) (fun k => perElement f (fun j =>
      let x := elemVal f (A k) j; let y := elemVal f (B k) j; floatResult f o.rm [x, y] (x.add (o.rm == .rdn) y)) (tans k))) ∧
   (∃ tans : Nat → List (List W32), Computes s a (.fsub o) o.d 1 false (a.tansTo (.fsub o) o.d) (fun k => perElement f (fun j =>
      let x := elemVal f (A k) j; let y := elemVal f (B k) j; floatResult f o.rm [x, y] (x.add (o.rm == .rdn) y.neg)) (tans k))) ∧
   (∃ tans : Nat → List (List W32), Computes s a (.fmul o) o.d 1 false (a.tansTo (.fmul o) o.d) (fun k => perElement f (fun j =>
      let x := elemVal f (A k) j; let y := elemVal f (B k) j; floatResult f o.rm [x, y] (x.mul y)) (tans k)))) ∧
  (let rm := mxRm e p.m; let A := s.op32 a p.a 0; let B := s.op32 a p.b 1; let C := s.op32 a p.c 2
   (let f := fmaFmt ty
    ∃ tans : Nat → List (List W32), Computes s a (.ffma ty e p) p.d 1 false (a.tansTo (.ffma ty e p) p.d) (fun k => perElement f (fun j =>
      let x := elemVal f (A k) j; let y := elemVal f (B k) j; let z := elemVal f (C k) j
      floatResult f rm [x, y, z] ((x.mul y).add (rm == .rdn) z)) (tans k))) ∧
   (∀ bf, let f := if bf then Fmt.bf16 else Fmt.fp16
    ∃ tans : Nat → List (List W32), Computes s a (.fdot2 bf e p) p.d 1 false (a.tansTo (.fdot2 bf e p) p.d) (fun k =>
      let x := elemVal f (A k); let y := elemVal f (B k); let z := val32 (C k)
      let r := floatResult .fp32 rm [z, x 0, y 0, x 1, y 1] ((z.add (rm == .rdn) ((x 0).mul (y 0))).add (rm == .rdn) ((x 1).mul (y 1)))
      { words := [BitVec.ofNat 32 r.1], flags := r.2, tans := tans k })) ∧
   (∀ e5, let f := if e5 then Fmt.e5m2 else Fmt.e4m3
    ∃ tans : Nat → List (List W32), Computes s a (.fdot4 e5 e p) p.d 1 false (a.tansTo (.fdot4 e5 e p) p.d) (fun k =>
      let x := elemVal f (A k); let y := elemVal f (B k); let z := val32 (C k)
      let r := floatResult .fp32 rm [z, x 0, y 0, x 1, y 1, x 2, y 2, x 3, y 3]
        ((((z.add (rm == .rdn) ((x 0).mul (y 0))).add (rm == .rdn) ((x 1).mul (y 1))).add (rm == .rdn) ((x 2).mul (y 2))).add (rm == .rdn) ((x 3).mul (y 3)))
      { words := [BitVec.ofNat 32 r.1], flags := r.2, tans := tans k })))

/-- R160 to R163: minimum and maximum, comparison, class, rounding to an integer, scaling and exponents. That FEXPN is sign-extended in an
s register is the model's reading (log entry 25). -/
def Obligations.FloatOther : Prop := ∀ (s : State) (a : Agent) (o : V2),
  let f := tyFmt o.ty; let A := s.op32 a o.a 0; let B := s.op32 a o.b 1
  let below := fun (x y : XR) => x.lt y || (x.isZero && y.isZero && x.sign && !y.sign)
  let pick := fun (takeB : XR → XR → Bool) k j =>
    let x := elemVal f (A k) j; let y := elemVal f (B k) j
    ((if x.isNan && y.isNan then canonNan f else if x.isNan || (!y.isNan && takeB x y) then elemOf f (B k) j else elemOf f (A k) j), (0 : BitVec 9))
  (∃ tans : Nat → List (List W32), Computes s a (.fmin o) o.d 1 false (a.tansTo (.fmin o) o.d) (fun k => perElement f (pick (fun x y => below y x) k) (tans k))) ∧
  (∃ tans : Nat → List (List W32), Computes s a (.fmax o) o.d 1 false (a.tansTo (.fmax o) o.d) (fun k => perElement f (pick below k) (tans k))) ∧
  (let x := fun k => val32 (A k); let y := fun k => val32 (B k)
   let ord := fun k => !(x k).isNan && !(y k).isNan
   let eq := fun k => ord k && !(x k).lt (y k) && !(y k).lt (x k)
   Computes s a (.fcmp o) o.d 1 false 0 (fun k => res32 (if (match o.sub.toNat with
     | 0 => eq k | 1 => (x k).lt (y k) | 2 => (x k).lt (y k) || eq k | 3 => (y k).lt (x k) | 4 => (y k).lt (x k) || eq k | 5 => ord k
     | 8 => !eq k | 9 => !((y k).lt (x k) || eq k) | 10 => !(y k).lt (x k) | 11 => !((x k).lt (y k) || eq k) | 12 => !(x k).lt (y k) | _ => !ord k) then 1 else 0))) ∧
  (∃ c : W32 → Nat, (∀ w, c w = 8 ↔ (val32 w).isNan) ∧ (∀ w, c w = 0 ↔ w = 0xFF800000) ∧ (∀ w, c w = 7 ↔ w = 0x7F800000) ∧ (∀ w, c w = 3 ↔ w = 0x80000000) ∧
     (∀ w, c w = 4 ↔ w = 0) ∧ (∀ w, c w = 1 ↔ 0x80800000 ≤ w.toNat ∧ w.toNat < 0xFF800000) ∧ (∀ w, c w = 2 ↔ 0x80000000 < w.toNat ∧ w.toNat < 0x80800000) ∧
     (∀ w, c w = 5 ↔ 0 < w.toNat ∧ w.toNat < 0x00800000) ∧ (∀ w, c w = 6 ↔ 0x00800000 ≤ w.toNat ∧ w.toNat < 0x7F800000) ∧
     Computes s a (.fclass o) o.d 1 false 0 (fun k => res32 (BitVec.ofNat 32 (2 ^ c (A k))))) ∧
  (∃ tans : Nat → List (List W32), Computes s a (.frnd o) o.d 1 false (a.tansTo (.frnd o) o.d) (fun k => perElement f (fun j =>
     let w := elemOf f (A k) j
     match elemVal f (A k) j with
     | .nan => (canonNan f, 0)
     | .inf _ => (w, 0)
     | .fin q => if q.isZero then (w, 0) else (f.layout.encode (q.roundAt o.rm 0), if q.inexactAt 0 then flagInx else 0)) (tans k))) ∧
  (∃ tans : Nat → List (List W32), Computes s a (.fscale o) o.d 1 false (a.tansTo (.fscale o) o.d) (fun k => perElement f (fun j =>
     let w := elemOf f (A k) j
     match elemVal f (A k) j with
     | .nan => (canonNan f, 0)
     | .inf _ => (w, 0)
     | .fin q => if q.isZero then (w, 0) else place f true o.rm (.fin (q.scale (s.ext32 a true o.b 1 k)))) (tans k))) ∧
  Computes s a (.fexpn o) o.d 1 true 0 (fun k => res32 (match val32 (A k) with
     | .fin q => if q.isZero then 0x80000000 else BitVec.ofInt 32 q.log2
     | _ => 0x7FFFFFFF))

/-- R164 and R165: seeds and functions of one FP32 value. -/
def Obligations.FloatFunctions : Prop := ∀ (s : State) (a : Agent) (o : V2),
  let A := fun k => val32 (s.op32 a o.a 0 k)
  let fun1 := fun (f : XR → Nat × BitVec 9) (tans : Nat → List (List W32)) (k : Nat) =>
    ({ words := [BitVec.ofNat 32 (f (A k)).1], flags := (f (A k)).2, tans := tans k } : LaneRes)
  (∃ tans : Nat → List (List W32), Computes s a (.frcps o) o.d 1 false (a.tansTo (.frcps o) o.d) (fun1 rcpSeed tans)) ∧
  (∃ tans : Nat → List (List W32), Computes s a (.frsqs o) o.d 1 false (a.tansTo (.frsqs o) o.d) (fun1 rsqSeed tans)) ∧
  (∃ tans : Nat → List (List W32), Computes s a (.fex2 o) o.d 1 false (a.tansTo (.fex2 o) o.d) (fun1 ex2Exact tans)) ∧
  (∃ tans : Nat → List (List W32), Computes s a (.flg2 o) o.d 1 false (a.tansTo (.flg2 o) o.d) (fun1 lg2Exact tans)) ∧
  (∃ tans : Nat → List (List W32), Computes s a (.fsin o) o.d 1 false (a.tansTo (.fsin o) o.d) (fun1 sinExact tans)) ∧
  (∃ tans : Nat → List (List W32), Computes s a (.fcos o) o.d 1 false (a.tansTo (.fcos o) o.d) (fun1 cosExact tans))

/-- R166 to R171: conversion into a slot's format, packing, expanding, and block quantisation. The value of QBLK and DQBLK in an s register is
free (log entry 27). -/
def Obligations.Conversions : Prop := ∀ (s : State) (a : Agent) (o : V2) (f : Fmt),
  let w := a.l.record.slot o.fs; let rm := rmWith o.rm w; let satm := slotSatm w
  let blockFlags := fun (fl : BitVec 9) => if fl &&& (flagSat ||| flagOvf) = 0 then 0 else fl
  slotFmt w = some f →
  (f.isBq = false → ∃ tans : Nat → List (List W32), Finishes s a (.cvt o) (!o.d.isS) o.d (cvtRegs w) (f.isInt && f.signed) (if cvtEligible a.l.record o then a.tansTo (.cvt o) o.d else 0) (a.lanesFor o.d)
     (laneResults (a.lanesFor o.d) fun k =>
       let g := tyFmt o.ty
       let r := place f satm rm (valOf g ((s.opVal a o.a o.ty.regs 0 k).toNat / 2 ^ (g.width * o.sub.toNat) % 2 ^ g.width))
       let v := if f.isFloat then BitVec.ofNat 64 r.1 else if f.signed then BitVec.ofInt 64 (intOf true f.width r.1) else BitVec.ofNat 64 r.1
       { words := if f.width = 64 then [wLow v, wHigh v] else [wLow v], flags := r.2, tans := tans k })
     (flagsOf (laneResults (a.lanesFor o.d) fun k =>
       let g := tyFmt o.ty
       { flags := (place f satm rm (valOf g ((s.opVal a o.a o.ty.regs 0 k).toNat / 2 ^ (g.width * o.sub.toNat) % 2 ^ g.width))).2 }))) ∧
  ((f = .fp16 ∨ f = .bf16) → ∃ tans : Nat → List (List W32), Computes s a (.pack2 o) o.d 1 false (a.tansTo (.pack2 o) o.d) (fun k =>
     let x := place f satm rm (val32 (s.op32 a o.a 0 k)); let y := place f satm rm (val32 (s.op32 a o.b 1 k))
     { words := [BitVec.ofNat 32 (x.1 + 2 ^ 16 * y.1)], flags := x.2 ||| y.2, tans := tans k })) ∧
  ((f = .e4m3 ∨ f = .e5m2 ∨ f = .e2m1) → ∃ tans : Nat → List (List W32), Computes s a (.pack4 o) o.d 1 false (a.tansTo (.pack4 o) o.d) (fun k =>
     let x := fun (j : Nat) => place f satm rm (val32 (s.opPair a (if j < 2 then o.a else o.b) (j / 2) (j % 2) k))
     let base := if f = .e2m1 then 16 * (o.x.toNat % 2) else 0
     { words := [BitVec.ofNat 32 (((x 0).1 + (x 1).1 * 2 ^ f.width + (x 2).1 * 2 ^ (2 * f.width) + (x 3).1 * 2 ^ (3 * f.width)) * 2 ^ base)]
       flags := (x 0).2 ||| (x 1).2 ||| (x 2).2 ||| (x 3).2, tans := tans k })) ∧
  ((f = .fp16 ∨ f = .bf16 ∨ f = .e4m3 ∨ f = .e5m2 ∨ f = .e2m1) → ∃ tans : Nat → List (List W32),
     let wide := fun (k j : Nat) => BitVec.ofNat 32 (place .fp32 true .rne (elemVal f (s.op32 a o.a 0 k) (j + if f = .e2m1 then 4 * o.x.toNat else 0))).1
     (o.d.isS = false → Finishes s a (.xpnd o) true o.d (xpndRegs w) false (a.tansTo (.xpnd o) o.d) a.p.active
       (laneResults a.p.active fun k => { words := (upFrom 0 (xpndRegs w)).map (wide k), tans := tans k }) 0) ∧
     (∀ r, o.d = .s r → Passes s a (.xpnd o) false → a.whole → a.overcommits (usesOf a.l.record (.xpnd o)) [] = false →
       ∃ t q, exec (.xpnd o) s = .next t ∧ t.wentOn a (.xpnd o) ∧ t.party? a.p.pid = some q ∧ Kept s t a (.xpnd o) ∧
         ∀ j < xpndRegs w, q.sreg (r + BitVec.ofNat 6 j) = (wide 0 j).setWidth 64)) ∧
  (∀ b, f = .bq b → o.d.isS = false →
    (let r := fun (j : Nat) => bqEncode b rm ((upFrom (32 * j) 32).map fun l => if a.p.active.getLsbD l then val32 (s.op32 a o.a 0 l) else .fin (.zero false))
     let fl := fun (j : Nat) => if (upFrom (32 * j) 32).any (fun l => a.p.active.getLsbD l) = true then (r j).2.2 else 0
     ∃ words : Nat → W32, Finishes s a (.qblk o) true o.d 1 false 0
       (maskOf fun i => a.p.lanes.getLsbD i && ((upFrom (32 * (i / 32)) 32).any fun l => a.p.active.getLsbD l)) (lanes64.map fun k => res32 (words k)) (fl 0 ||| fl 1) ∧
       ∀ j < 2, (∀ i < b, words (32 * j + i) = BitVec.ofNat 32 (bqArea b (r j).2.1 / 2 ^ (32 * i))) ∧ (∀ i, b ≤ i → i < 31 → words (32 * j + i) = 0) ∧
         (b < 31 → words (32 * j + 31) = BitVec.ofNat 32 (r j).1)) ∧
    Finishes s a (.dqblk o) true o.d 1 false 0 a.p.active
      (laneResults a.p.active fun i =>
        let at_ := fun l => if 32 * (i / 32) + l < a.h.lanes then (s.op32 a o.a 0 (32 * (i / 32) + l)).toNat else 0
        let area := (upFrom 0 b).foldl (fun v l => v + at_ l * 2 ^ (32 * l)) 0
        let r := place .fp32 satm .rne (bqValue b (at_ 31 % 256) (bqField b (i % 32) area))
        { words := [BitVec.ofNat 32 r.1], flags := blockFlags r.2 })
      (flagsOf (laneResults a.p.active fun i =>
        let at_ := fun l => if 32 * (i / 32) + l < a.h.lanes then (s.op32 a o.a 0 (32 * (i / 32) + l)).toNat else 0
        let area := (upFrom 0 b).foldl (fun v l => v + at_ l * 2 ^ (32 * l)) 0
        { flags := blockFlags (place .fp32 satm .rne (bqValue b (at_ 31 % 256) (bqField b (i % 32) area))).2 }))) ∧
  (∀ b n, f = .bq b → o.d = .s n → ∃ x fl, Finishes s a (.qblk o) false (.s n) 1 false 0 1 [res32 x] fl) ∧
  (∀ b n, f = .bq b → o.d = .s n → ∃ x fl, Finishes s a (.dqblk o) false (.s n) 1 false 0 1 [res32 x] fl)

/-! Control flow, waits, ropes, counters and traps (R350 to R369, R403 to R406). -/

/-- R355, R357 and R358: a transfer goes to its target where that is a cairn, a call pushes the word after its block, and a return pops. -/
def Obligations.Transfers : Prop := ∀ (s : State) (a : Agent) (o : CD) (x : CX) (u : UF),
  let target := (((a.c.base + 8 * a.c.idx : Nat) + 8 * o.off.toInt) % 2 ^ 64).toNat
  let named := (s.sVal a x.ua 0).toNat
  (Passes s a (.bra o) false → a.ends (.bra o) → Jumps s a (.bra o) target a.p.calls) ∧
  (Passes s a (.brx x) false → a.ends (.brx x) → Jumps s a (.brx x) named a.p.calls) ∧
  (Passes s a (.call o) false → a.ends (.call o) → a.p.calls.length < 255 → Jumps s a (.call o) target (a.c.blockEnd :: a.p.calls)) ∧
  (Passes s a (.callx x) false → a.ends (.callx x) → a.p.calls.length < 255 → Jumps s a (.callx x) named (a.c.blockEnd :: a.p.calls)) ∧
  (∀ r rest, a.p.calls = r :: rest → Passes s a (.ret u) false → a.ends (.ret u) → Jumps s a (.ret u) r rest)

/-- R83 and R357: a transfer whose target is misaligned or no cairn traps BAD_CAIRN with word 0 of the pitch as its resume point; one whose translation
is refused, and a call with 255 return addresses, trap ACCESS_VIOLATION. The target as tinfo is the model's reading (log entries 35 and 36). -/
def Obligations.TransferTraps : Prop := ∀ (s : State) (a : Agent) (o : CD) (x : CX) (u : UF),
  let target := (((a.c.base + 8 * a.c.idx : Nat) + 8 * o.off.toInt) % 2 ^ 64).toNat
  let named := (s.sVal a x.ua 0).toNat
  let b := s.branched a.p [.s x.ua]
  let traps := fun (i : Instr) (b : State) (va : Nat) => Passes s a i false →
    ((va % 8 ≠ 0 ∨ ∃ w, b.fetchWord a.p a.f.core a.l va = .ok w ∧ isCairn w = false) →
      exec i s = .next ((b.trapWord a i 0 .badCairn (some va) a.p.active).counted a i)) ∧
    (va % 8 = 0 → b.translateFor a.l.space a.p.park va .x = .refused → exec i s = .next ((b.trapHere a i .accessViolation (some va) a.p.active).counted a i))
  traps (.bra o) s target ∧ traps (.brx x) b named ∧ (∀ r rest, a.p.calls = r :: rest → traps (.ret u) s r) ∧
  (a.p.calls.length < 255 → traps (.call o) s target ∧ traps (.callx x) b named) ∧
  (255 ≤ a.p.calls.length →
    (Passes s a (.call o) false → TrapsHere s a (.call o) .accessViolation (some target) a.p.active) ∧
    (Passes s a (.callx x) false → exec (.callx x) s = .next ((b.trapHere a (.callx x) .accessViolation (some named) a.p.active).counted a (.callx x))))

/-- R356: BRC by its mode; where the lanes disagree the party splits, each successor with its own active lanes (R22), or without a slot defers one side,
the side of the lowest active lane going first, or waits where eight are deferred (R330). -/
def Obligations.Branch : Prop := ∀ (s : State) (a : Agent) (o : CD) (t : Mask),
  let i := Instr.brc o
  let act := a.p.active
  let target := (((a.c.base + 8 * a.c.idx : Nat) + 8 * o.off.toInt) % 2 ^ 64).toNat
  Passes s a i false → a.ends i →
  (∀ k < 64, t.getLsbD k = (act.getLsbD k && (decide (s.op32 a ⟨.c o.cn, 0, false⟩ 0 k ≠ 0) != o.neg))) →
  (t = 0 → Falls s a i a.p.wait) ∧
  (t = act → act ≠ 0 → Jumps s a i target a.p.calls) ∧
  (o.bmode = .any → t ≠ 0 → Jumps s a i target a.p.calls) ∧
  (o.bmode = .all → t ≠ act → Falls s a i a.p.wait) ∧
  (o.bmode = .lanes → t ≠ 0 → t ≠ act → s.cairnAt a target → s.cairnAt a a.c.blockEnd → (∀ r, a.c.rcv = some r → s.cairnAt a r) →
    (∀ n, s.splitSlot a.p = some n → ∃ u p q, exec i s = .next u ∧ p ∈ u.parties ∧ q ∈ u.parties ∧ (p.pid = a.p.pid ∨ q.pid = a.p.pid) ∧
      p.em = t ∧ p.pc = target ∧ p.entry = .block ∧ q.em = act &&& ~~~t ∧ q.pc = a.c.after ∧
      p.lanes ||| q.lanes = a.p.lanes ∧ p.lanes &&& q.lanes = 0 ∧ p.stack = (⟨a.c.rcv, a.p.calls.length⟩ :: a.p.stack).take 16 ∧ q.stack = p.stack ∧
      p.s = a.p.s ∧ q.s = a.p.s ∧ p.w = a.p.w ∧ q.w = a.p.w ∧ p.calls = a.p.calls ∧ q.calls = a.p.calls ∧ u.mem = s.mem) ∧
    (s.splitSlot a.p = none → a.p.defer.length < 8 → ∃ u q d, exec i s = .next u ∧ u.party? a.p.pid = some q ∧ q.defer = d :: a.p.defer ∧
      q.em = d.l1 ∧ d.first = none ∧ d.rcv = a.c.rcv ∧
      (∀ k < 64, act.getLsbD k = true → (∀ j < k, act.getLsbD j = false) →
        if t.getLsbD k = true then q.pc = target ∧ d.l1 = t ∧ d.l2 = act &&& ~~~t ∧ d.other = a.c.after
        else q.pc = a.c.after ∧ d.l1 = act &&& ~~~t ∧ d.l2 = t ∧ d.other = target) ∧
      q.lanes = a.p.lanes ∧ q.s = a.p.s ∧ Spared s u) ∧
    (s.splitSlot a.p = none → 8 ≤ a.p.defer.length → ∃ u q, exec i s = .next u ∧ u.party? a.p.pid = some q ∧ q.wait = .slot target a.c.after t (act &&& ~~~t) a.c.rcv ∧
      q.pitch = none ∧ q.em = a.p.em ∧ q.defer = a.p.defer ∧ q.lanes = a.p.lanes ∧ q.s = a.p.s ∧ Spared s u))

/-- R359 to R362: NOP, EXIT, FUSE, YIELD, SLEEP and ISYNC, EXIT and FUSE under a deferred branch too (R330). A party that gives way waits for those of
its core that are ready, until each has issued a pitch or is ready no longer. That a lone party at a FUSE keeps its stack is the model's reading (log
entry 131). -/
def Obligations.Waiting : Prop := ∀ (s : State) (a : Agent) (o : UF),
  (Passes s a (.nop o) false → a.p.stopped = false → ∃ t, exec (.nop o) s = .next t ∧ Completes s t a (.nop o) ∧ s.othersKept t a ∧ Spared s t) ∧
  (∀ i, (i = .exit o ∨ (i = .ret o ∧ a.p.calls = [])) → Passes s a i false → a.ends i →
    (a.p.defer = [] → ∃ t, exec i s = .next t ∧ t.party? a.p.pid = none) ∧
    (∀ d ds, a.p.defer = d :: ds → d.first = none → ∃ t q, exec i s = .next t ∧ t.party? a.p.pid = some q ∧ q.pitch = none ∧ q.pc = d.other ∧
      q.exited = a.p.exited ||| a.p.active ∧ q.em = d.l2 &&& a.p.lanes &&& ~~~(a.p.exited ||| a.p.active) ∧ q.calls = d.call ∧
      (∃ e, q.defer = e :: ds ∧ e.first = some .exited ∧ e.l1 = d.l1 ∧ e.l2 = d.l2) ∧ Spared s t) ∧
    (∀ d, a.p.defer = [d] →
      let alone := d.l1 &&& a.p.lanes &&& ~~~(a.p.exited ||| a.p.active)
      (d.first = some .exited → ∃ t, exec i s = .next t ∧ t.party? a.p.pid = none) ∧
      (∀ va, d.first = some (.reconv va) → (∀ e, a.p.stack.head? = some e → e.point ≠ some va) → ∃ t q, exec i s = .next t ∧ t.party? a.p.pid = some q ∧
        q.pitch = none ∧ q.pc = va ∧ q.em = alone ∧ q.calls = d.call ∧ q.defer = [] ∧ Spared s t) ∧
      (∀ va r, d.first = some (.fuse va) → d.resume = some r → s.others a.p = [] → ∃ t q, exec i s = .next t ∧ t.party? a.p.pid = some q ∧
        q.pitch = none ∧ q.pc = r.pc ∧ q.em = alone ∧ q.calls = d.call ∧ q.defer = [] ∧ Spared s t))) ∧
  (let i := Instr.fuse o; let here := a.c.base + 8 * a.c.idx
   Passes s a i false → a.ends i → ∀ d ds, a.p.defer = d :: ds →
    (d.first = none → ∃ t q, exec i s = .next t ∧ t.party? a.p.pid = some q ∧ q.pitch = none ∧ q.pc = d.other ∧ q.em = d.l2 &&& a.p.lanes &&& ~~~a.p.exited ∧
      q.calls = d.call ∧ q.wait = .none ∧ (∃ e, q.defer = e :: ds ∧ e.first = some (.fuse here) ∧ e.l1 = d.l1 ∧ e.l2 = d.l2) ∧ Spared s t) ∧
    (d.first = some (.fuse here) → ds = [] → s.others a.p = [] → ∃ t q, exec i s = .next t ∧ t.party? a.p.pid = some q ∧ q.pitch = none ∧ q.pc = a.c.after ∧
      q.em = (d.l1 ||| d.l2) &&& a.p.lanes &&& ~~~a.p.exited ∧ q.wait = a.p.wait ∧ q.defer = [] ∧ Spared s t) ∧
    ((∃ va, d.first = some (.reconv va) ∨ (va ≠ here ∧ d.first = some (.fuse va))) → s.splitSlot a.p = none → Falls s a i (.apart (some here)))) ∧
  (let i := Instr.fuse o; let here := a.c.base + 8 * a.c.idx
   Passes s a i false → a.ends i → a.p.defer = [] →
    (s.others a.p = [] → Falls s a i a.p.wait) ∧
    ((∃ q ∈ s.others a.p, ∀ va, q.wait ≠ .fuse va) → Falls s a i (.fuse here)) ∧
    (let gang := s.parties.filter fun x => (s.siblings a.p.fid a.p.hp).any fun y => y.pid = x.pid
     s.others a.p ≠ [] → (∀ q ∈ s.others a.p, q.wait = .fuse here) → ∃ t q, exec i s = .next t ∧ q ∈ t.parties ∧ q.wait = .none ∧
      (∀ x ∈ t.siblings a.p.fid a.p.hp, x = q) ∧ (∀ k < 64, q.lanes.getLsbD k = gang.any fun x => x.lanes.getLsbD k) ∧
      (∀ k < 64, q.em.getLsbD k = gang.any fun x => x.em.getLsbD k) ∧ Spared s t)) ∧
  (∀ i, (i = .yield o ∨ (i = .sleep o ∧ o.imm = 0)) → Passes s a i false → a.ends i →
    let u := s.advance a i
    let first := fun (j : Nat) => j ≠ a.p.pid ∧ ∃ x ∈ u.onCore a.f.core, x.pid = j ∧ (u.partyReady x = true ∨ (x.pitch.isSome = true ∧ x.park = []))
    ∃ w, Falls s a i w ∧ ((w = .none ∧ ∀ j, ¬ first j) ∨ ∃ l, w = .turns l ∧ l ≠ [] ∧ ∀ j, j ∈ l ↔ first j)) ∧
  (∀ (p q : Party) (l : List Nat), q.wait = .turns l → s.partyReady q = false ∧
    ∀ j, s.party? j = some q →
      (∃ x, (s.pitchSeen p).party? j = some x ∧ x.wait = (if l.filter (· ≠ p.pid) = [] then .none else .turns (l.filter (· ≠ p.pid)))) ∧
      (∃ x r, s.turnsCheck.party? j = some x ∧ x.wait = (if r = [] then .none else .turns r) ∧ ∀ k, k ∈ r ↔ k ∈ l ∧ ∃ y, s.party? k = some y ∧ s.partyReady y = true)) ∧
  (o.imm ≠ 0 → Passes s a (.sleep o) false → a.ends (.sleep o) → Falls s a (.sleep o) (.sleep (s.wall + o.imm.toNat * 10 ^ 6))) ∧
  (let i := Instr.isync o
   Passes s a i false → a.ends i →
    ((s.iinvs.any fun x => x.pids.contains a.p.pid) = true → Falls s a i .isync) ∧
    ((s.iinvs.any fun x => x.pids.contains a.p.pid) = false → Falls s a i .none ∧ ∀ t q, exec i s = .next t → t.party? a.p.pid = some q → q.fetched = []))

/-- R350 to R353, R363 and R364: ropes. A home party arrives once each live party of it has; a counted arrival that reaches EXPECT releases the
generation and lets its waiters go. -/
def Obligations.Ropes : Prop := ∀ (s : State) (a : Agent) (o : UF) (r : Rope),
  let k := o.idx.toNat
  let rope := fun (t : State) (x : Rope) => ∃ f, t.forme? a.p.fid = some f ∧ f.ropes[k]? = some x
  let whole := (s.siblings a.p.fid a.p.hp).all fun q => q.pid = a.p.pid || r.arrived.contains q.pid
  let freed := fun (t : State) => ∀ q, q ∈ s.parties → q.fid = a.p.fid → q.pid ≠ a.p.pid → q.wait = .rope k (some r.gen) → ∃ p ∈ t.parties, p.pid = q.pid ∧ p.wait = .none
  a.f.ropes[k]? = some r → a.p.stopped = false → a.p.wait = .none →
  (Passes s a (.ropeSet o) false → ∃ t x, exec (.ropeSet o) s = .next t ∧ Completes s t a (.ropeSet o) ∧ s.foreignersKept t a ∧ Spared s t ∧ rope t x ∧
    x.expect = (o.imm.extractLsb' 0 6).toNat ∧ x.belay = (if o.imm.extractLsb' 8 16 = 0 then 10000 else (o.imm.extractLsb' 8 16).toNat) ∧ x.broken = false ∧
    (r.cnt < x.expect → x.cnt = r.cnt ∧ x.gen = r.gen) ∧ (x.expect ≤ r.cnt → x.cnt = 0 ∧ x.gen = r.gen + 1 ∧ freed t)) ∧
  (r.broken = false →
    (Passes s a (.ropeArv o) false → ∃ t x, exec (.ropeArv o) s = .next t ∧ Completes s t a (.ropeArv o) ∧ s.foreignersKept t a ∧ Spared s t ∧ rope t x ∧ x.expect = r.expect ∧
      (whole = false → x.cnt = r.cnt ∧ x.gen = r.gen ∧ a.p.pid ∈ x.arrived ∧ x.watch.isSome = true) ∧
      (whole = true → r.cnt + 1 < r.expect → x.cnt = r.cnt + 1 ∧ x.gen = r.gen ∧ ∀ q ∈ s.siblings a.p.fid a.p.hp, q.pid ∉ x.arrived) ∧
      (whole = true → r.expect ≤ r.cnt + 1 → x.cnt = 0 ∧ x.gen = r.gen + 1 ∧ freed t)) ∧
    (Passes s a (.ropeSync o) false → a.ends (.ropeSync o) →
      (whole = false → Falls s a (.ropeSync o) (.rope k none)) ∧
      (whole = true → r.cnt + 1 < r.expect → Falls s a (.ropeSync o) (.rope k (some r.gen))) ∧
      (whole = true → r.expect ≤ r.cnt + 1 → ∃ t q x, exec (.ropeSync o) s = .next t ∧ t.party? a.p.pid = some q ∧ q.pitch = none ∧ q.pc = a.c.after ∧
        q.wait = .none ∧ rope t x ∧ x.cnt = 0 ∧ x.gen = r.gen + 1 ∧ freed t ∧ s.foreignersKept t a ∧ Spared s t)) ∧
    (Passes s a (.ropeWait o) false → a.ends (.ropeWait o) → a.p.arrSince.contains k = false → Falls s a (.ropeWait o) (.rope k (some r.gen)))) ∧
  (r.broken = true → ∀ i, (i = .ropeArv o ∨ i = .ropeWait o ∨ i = .ropeSync o) → Passes s a i false →
    TrapsHere s a i .ropeTimeout (some (k + r.cnt % 256 * 2 ^ 8 + r.expect * 2 ^ 16 + r.gen % 2 ^ 16 * 2 ^ 24)) a.p.active)

/-- R365 to R367: PHASE, SIGNAL and WAITC. -/
def Obligations.PhasesAndCounters : Prop := ∀ (s : State) (a : Agent) (o : UF) (l : Loc),
  (Passes s a (.phase o) false → a.ends (.phase o) →
    ((s.jobOf a.l).isSome = true → Falls s a (.phase o) .phase) ∧ (s.jobOf a.l = none → Falls s a (.phase o) a.p.wait)) ∧
  (let va := (s.sVal a o.ua 0).toNat; let v := s.sVal a o.ub 1; let old := BitVec.ofNat 64 (natOfBytes (s.locRead l 8))
   va % 8 = 0 → s.Quiet → s.undisputed a → s.plainAt l 8 →
    (s.Canonical → Passes s a (.signal o) false → a.p.stopped = false → s.once a (.signal o) va .rw = .ok l →
      let new := match o.idx.toNat with | 0 => old + v | 1 => v | _ => if old.toNat ≤ v.toNat then v else old
      ∃ t, exec (.signal o) s = .next t ∧ Completes s t a (.signal o) ∧ s.strangersKept t a ∧ s.storedOnly t [(l, 8)] ∧
        ∀ k < 8, t.byteAt (l.plus k) = new.extractLsb' (8 * k) 8) ∧
    (Passes s a (.waitc o) false → a.ends (.waitc o) → s.once a (.waitc o) va .r = .ok l →
      let holds := match o.idx.toNat with
        | 0 => old = v | 1 => old ≠ v | 2 => v.toNat ≤ old.toNat | 3 => old.toNat < v.toNat | 4 => v.toInt ≤ old.toInt | _ => old.toInt < v.toInt
      (holds → Falls s a (.waitc o) .none) ∧
      (¬ holds → ∃ n, Falls s a (.waitc o) (.counter a.c.base a.c.idx va o.idx.toNat (scopeRank (imScope o.imm)) v n))))

/-- R344, R368 and R369: CANCEL by block answers whether it found its target, CANCEL by key how many packets and launches it affected, and LAUNCH submits
a record whose acceptance makes a child launch. -/
def Obligations.CancelAndLaunch : Prop := ∀ (s : State) (a : Agent) (o : UF) (d : BitVec 6),
  o.d = .s d →
  (let c := (s.finishIinvs a.p.pid .dev).joinLaunch a.p
   let va := (s.sVal a o.ua 0).toNat
   o.idx = 0 → Passes s a (.cancel o) false → (∃ q, (c.cancelBlock a.l.ctx va).1.party? a.p.pid = some q ∧ q.stopped = false ∧ q.pitch = some a.c) →
    ∃ t x n, exec (.cancel o) s = .next t ∧ t.wentOn a (.cancel o) ∧ x ∈ t.longs ∧ x.owners = [a.p.pid] ∧ x.dests = [.sreg d n] ∧ (n = 0 ∨ n = 1) ∧
      ((∃ l ∈ s.launches, l.ctx = a.l.ctx ∧ l.block.addr = some va ∧ l.block.status = 0 ∧ l.cancel = false) → n = 1)) ∧
  (let c := (s.finishIinvs a.p.pid .dev).joinLaunch a.p
   let key := s.sVal a o.ua 0
   let counts := fun (P : Nat → Prop) => ∃ t x n, exec (.cancel o) s = .next t ∧ t.wentOn a (.cancel o) ∧ x ∈ t.longs ∧ x.owners = [a.p.pid] ∧ x.dests = [.sreg d (BitVec.ofNat 64 n)] ∧ P n
   o.idx = 1 → Passes s a (.cancel o) false →
    (a.l.queue = none ∨ key = 0 → a.p.stopped = false → counts fun n => n = 0) ∧
    (∀ k r, a.l.queue = some k → key ≠ 0 → c.queue? a.l.ctx k = some r →
      (∃ q, (c.cancelKey a.l.ctx k key none (o.imm.getLsbD 0) true).1.party? a.p.pid = some q ∧ q.stopped = false ∧ q.pitch = some a.c) →
      let hits := r.packets.filter fun p => p.key = key
      let kids := c.launches.filter fun l => l.ctx = a.l.ctx && l.queue = some k && l.key = key && l.parent.isSome && l.block.status = 0 && !l.cancel
      counts fun n => n ≤ hits.length + kids.length ∧ (hits = [] → n = 0) ∧
        (kids = [] → (∀ p ∈ hits, (p.state = .fetched ∨ p.state = .parsing) ∧ 2 ≤ p.kind ∧ p.kind ≤ 5) → n = hits.length))) ∧
  (let va := (s.sVal a o.ua 0).toNat
   ∀ sc r sp, s.failing = [] → Passes s a (.launch o) true → a.p.stopped = false → s.admitLaunch (s.partOf a.l.lid) (dieOf a.f.core) = some sp → s.sceneOf a.p.fid = some sc →
    s.readRecord sc [] va = .ok r →
    ∃ t x l, exec (.launch o) s = .next t ∧ t.wentOn a (.launch o) ∧ x ∈ t.longs ∧ x.owners = [a.p.pid] ∧ x.dests = [.sreg d 0] ∧
      l ∈ t.launches ∧ l.record = r ∧ l.ctx = a.l.ctx ∧ l.parent = some a.l.lid ∧ l.key = a.l.key ∧ l.prio = min r.prio a.l.prio ∧ l.gid = a.l.gid ∧
      l.tail = (if o.idx = 1 then some a.l.lid else none) ∧ l.next = 0 ∧ l.block.addr = some r.done ∧ l.block.total = r.gx * r.gy * r.gz)

/-- R403 to R406: TRAP and BKPT enter the handler with the next word as their resume point, and ERET returns. -/
def Obligations.TrapsAndReturns : Prop := ∀ (s : State) (a : Agent) (o : UF),
  (∀ i n, (i = .trap o ∧ n = 0x20) ∨ (i = .bkpt o ∧ n = 0x21) → Passes s a i false → a.p.stopped = false → a.l.record.handler ≠ 0 → a.p.hnd = false → s.logReads a.p a.l →
    ∃ t q, exec i s = .next t ∧ t.party? a.p.pid = some q ∧ q.hnd = true ∧ q.pc = a.l.record.handler ∧ q.entry = .block ∧ q.pitch = none ∧
      q.tstat = BitVec.ofNat 64 (a.c.idx * 2 ^ 8 + n) ∧ q.tinfo = o.imm.setWidth 64 ∧ q.titems = 0 ∧ q.tmask = a.p.em ∧
      (if a.c.idx + 1 < a.c.words.length then
        q.frame = some { cairn := a.p.cairn, pc := a.c.base, entry := .inside, word := a.c.idx + 1 } ∧ q.frameTemps = a.c.temps ∧ q.tpc = BitVec.ofNat 64 a.p.cairn
      else ∃ r, q.frame = some r ∧ r.pc = a.c.after ∧ r.word = 0 ∧ q.frameTemps = [] ∧ q.awaits = a.c.awaits) ∧
      q.s = a.p.s ∧ q.c = a.p.c ∧ q.w = a.p.w ∧ q.em = a.p.em ∧ q.pick = a.p.pick ∧ q.calls = a.p.calls ∧ q.lanes = a.p.lanes ∧ q.pending = a.p.pending) ∧
  (let i := Instr.eret o
   Passes s a i false → a.ends i →
    (∀ r, a.p.tpcSet = false → a.p.frame = some r → ∃ t q, exec i s = .next t ∧ t.party? a.p.pid = some q ∧ q.hnd = false ∧ q.pc = r.pc ∧ q.entry = r.entry ∧
      q.skip = r.word ∧ q.cairn = r.cairn ∧ q.kept = a.p.frameTemps ∧ q.frame = none ∧ q.pitch = none ∧ a.p.SameRegs q ∧ s.othersKept t a ∧ Spared s t) ∧
    (a.p.tpcSet = true → s.cairnAt a a.p.tpc.toNat → ∃ t q, exec i s = .next t ∧ t.party? a.p.pid = some q ∧ q.hnd = false ∧ q.pc = a.p.tpc.toNat ∧
      q.entry = .block ∧ q.skip = 0 ∧ q.kept = [] ∧ q.frame = none ∧ q.pitch = none ∧ a.p.SameRegs q ∧ s.othersKept t a ∧ Spared s t))

/-! Tangents and draws (R204 to R234). -/

/-- R223 and R224: each tangent is computed exactly from the primary operands and result and the source tangents, and placed once; where a conversion
clamps the primary it is 0. -/
def Obligations.TangentArithmetic : Prop := ∀ (s : State) (a : Agent) (o : V2) (p : V3) (ty : FmaTy) (e : Bool),
  let packed := fun (i : Instr) (d : Reg) (f : Fmt) (tan : Nat → Nat → Nat → Nat) =>
    ∃ words : Nat → List W32, ∃ fl : Nat → BitVec 9, Computes s a i d 1 false (a.tansTo i d) (fun k =>
      { words := words k, flags := fl k, tans := (upFrom 1 (a.tansTo i d)).map fun c => [packElems f.width ((upFrom 0 (elemCount f)).map fun j => tan c k j)] })
  (let f := tyFmt o.ty; let x := fun k j => elemVal f (s.op32 a o.a 0 k) j; let y := fun k j => elemVal f (s.op32 a o.b 1 k) j
   let dx := s.elemTan a f o.a 0; let dy := s.elemTan a f o.b 1
   packed (.fadd o) o.d f (fun c k j => tangentOf f (valOf f (floatResult f o.rm [x k j, y k j] ((x k j).add (o.rm == .rdn) (y k j))).1)
     [dx c k j, dy c k j] ((dx c k j).add false (dy c k j))) ∧
   packed (.fsub o) o.d f (fun c k j => tangentOf f (valOf f (floatResult f o.rm [x k j, y k j] ((x k j).add (o.rm == .rdn) (y k j).neg)).1)
     [dx c k j, dy c k j] ((dx c k j).add false (dy c k j).neg)) ∧
   packed (.fmul o) o.d f (fun c k j => tangentOf f (valOf f (floatResult f o.rm [x k j, y k j] ((x k j).mul (y k j))).1)
     [dx c k j, dy c k j] (((dx c k j).mul (y k j)).add false ((x k j).mul (dy c k j))))) ∧
  (let f := fmaFmt ty; let rm := mxRm e p.m
   let x := fun k j => elemVal f (s.op32 a p.a 0 k) j; let y := fun k j => elemVal f (s.op32 a p.b 1 k) j; let z := fun k j => elemVal f (s.op32 a p.c 2 k) j
   let dx := s.elemTan a f p.a 0; let dy := s.elemTan a f p.b 1; let dz := s.elemTan a f p.c 2
   packed (.ffma ty e p) p.d f (fun c k j => tangentOf f (valOf f (floatResult f rm [x k j, y k j, z k j] (((x k j).mul (y k j)).add (rm == .rdn) (z k j))).1)
     [dx c k j, dy c k j, dz c k j] ((((dx c k j).mul (y k j)).add false ((x k j).mul (dy c k j))).add false (dz c k j)))) ∧
  (let x := fun k => val32 (s.op32 a o.a 0 k)
   let d1 := s.elemTan a .fp32 o.a 0
   let half : XR := .fin ⟨true, 1, 1, -1⟩
   packed (.frcps o) o.d .fp32 (fun c k j => let d := valOf .fp32 (rcpSeed (x k)).1; tangentOf .fp32 d [d1 c k j] ((d.mul d).mul (d1 c k j)).neg) ∧
   packed (.frsqs o) o.d .fp32 (fun c k j => let d := valOf .fp32 (rsqSeed (x k)).1; tangentOf .fp32 d [d1 c k j] ((half.mul ((d.mul d).mul d)).mul (d1 c k j))) ∧
   packed (.fex2 o) o.d .fp32 (fun c k j => let d := valOf .fp32 (ex2Exact (x k)).1; tangentOf .fp32 d [d1 c k j] ((ln2.mul d).mul (d1 c k j))) ∧
   packed (.flg2 o) o.d .fp32 (fun c k j => let d := valOf .fp32 (lg2Exact (x k)).1; tangentOf .fp32 d [d1 c k j] ((d1 c k j).div (ln2.mul (x k)))) ∧
   packed (.fsin o) o.d .fp32 (fun c k j => let d := valOf .fp32 (sinExact (x k)).1; tangentOf .fp32 d [d1 c k j] ((valOf .fp32 (cosExact (x k)).1).mul (d1 c k j))) ∧
   packed (.fcos o) o.d .fp32 (fun c k j => let d := valOf .fp32 (cosExact (x k)).1; tangentOf .fp32 d [d1 c k j] ((valOf .fp32 (sinExact (x k)).1).mul (d1 c k j)).neg)) ∧
  (let f := tyFmt o.ty; let x := fun k j => elemVal f (s.op32 a o.a 0 k) j; let y := fun k j => elemVal f (s.op32 a o.b 1 k) j
   let dx := s.elemTan a f o.a 0; let dy := s.elemTan a f o.b 1
   let below := fun (x y : XR) => x.lt y || (x.isZero && y.isZero && x.sign && !y.sign)
   let second := fun (takeB : XR → XR → Bool) k j => (x k j).isNan || (!(y k j).isNan && takeB (x k j) (y k j))
   let chosen := fun (takeB : XR → XR → Bool) c k j =>
     let t := if second takeB k j then dy c k j else dx c k j
     tangentOf f (if second takeB k j then y k j else x k j) [t] t
   packed (.fmin o) o.d f (chosen fun x y => below y x) ∧
   packed (.fmax o) o.d f (chosen below) ∧
   packed (.frnd o) o.d f (fun _ k j =>
     let d := match x k j with | .fin q => if q.isZero then x k j else valOf f (f.layout.encode (q.roundAt o.rm 0)) | v => v
     tangentOf f d [] (.fin (.zero false))) ∧
   packed (.fscale o) o.d f (fun c k j =>
     let n := s.ext32 a true o.b 1 k
     let d := match x k j with | .fin q => if q.isZero then x k j else valOf f (place f true o.rm (.fin (q.scale n))).1 | v => v
     tangentOf f d [dx c k j] (match dx c k j with | .fin q => .fin (q.scale n) | v => v))) ∧
  (let rm := mxRm e p.m
   let z := fun k => val32 (s.op32 a p.c 2 k); let dz := fun c k => s.elemTan a .fp32 p.c 2 c k 0
   let dot := fun (i : Instr) (f : Fmt) (n : Nat) =>
     let x := fun k j => elemVal f (s.op32 a p.a 0 k) j; let y := fun k j => elemVal f (s.op32 a p.b 1 k) j
     let dx := s.elemTan a f p.a 0; let dy := s.elemTan a f p.b 1
     packed i p.d .fp32 (fun c k _ =>
       let value := (upFrom 0 n).foldl (fun v j => v.add (rm == .rdn) ((x k j).mul (y k j))) (z k)
       let d := valOf .fp32 (floatResult .fp32 rm (z k :: (upFrom 0 n).flatMap fun j => [x k j, y k j]) value).1
       tangentOf .fp32 d (dz c k :: (upFrom 0 n).flatMap fun j => [dx c k j, dy c k j])
         ((upFrom 0 n).foldl (fun v j => v.add false (((dx c k j).mul (y k j)).add false ((x k j).mul (dy c k j)))) (dz c k)))
   (∀ bf, dot (.fdot2 bf e p) (if bf then .bf16 else .fp16) 2) ∧ (∀ e5, dot (.fdot4 e5 e p) (if e5 then .e5m2 else .e4m3) 4)) ∧
  (let w := a.l.record.slot o.fs; let rm := rmWith o.rm w; let satm := slotSatm w
   ∀ f, slotFmt w = some f →
   (f.isFloat = true → o.ty.isInt = false →
     let g := tyFmt o.ty
     let elem := fun (v : Nat) => valOf g (v / 2 ^ (g.width * o.sub.toNat) % 2 ^ g.width)
     packed (.cvt o) o.d .fp32 (fun c k _ => convTan f satm rm (elem (s.opVal a o.a o.ty.regs 0 k).toNat) (elem (rowGet (s.srcT a o.a 0 0 c) k).toNat))) ∧
   ((f = .fp16 ∨ f = .bf16) → packed (.pack2 o) o.d f (fun c k j =>
     let x := if j = 0 then o.a else o.b
     convTan f satm rm (val32 (s.op32 a x j k)) (s.elemTan a .fp32 x j c k 0))) ∧
   ((f = .e4m3 ∨ f = .e5m2 ∨ f = .e2m1) →
     let tan := fun (c k j : Nat) =>
       let x := if j < 2 then o.a else o.b
       convTan f satm rm (val32 (s.opPair a x (j / 2) (j % 2) k)) (if x.reg.isS then .fin (.zero false) else val32 (rowGet (s.srcT a x (j / 2) (j % 2) c) k))
     let base := if f = .e2m1 then 16 * (o.x.toNat % 2) else 0
     ∃ words : Nat → List W32, ∃ fl : Nat → BitVec 9, Computes s a (.pack4 o) o.d 1 false (a.tansTo (.pack4 o) o.d) (fun k =>
       { words := words k, flags := fl k, tans := (upFrom 1 (a.tansTo (.pack4 o) o.d)).map fun c => [BitVec.ofNat 32 ((tan c k 0 + tan c k 1 * 2 ^ f.width + tan c k 2 * 2 ^ (2 * f.width) + tan c k 3 * 2 ^ (3 * f.width)) * 2 ^ base)] })) ∧
   ((f = .fp16 ∨ f = .bf16 ∨ f = .e4m3 ∨ f = .e5m2 ∨ f = .e2m1) → o.d.isS = false →
     let at_ := fun (j : Nat) => j + if f = .e2m1 then 4 * o.x.toNat else 0
     let tan := fun (k c j : Nat) =>
       let t := s.elemTan a f o.a 0 c k (at_ j)
       BitVec.ofNat 32 (tangentOf .fp32 (elemVal f (s.op32 a o.a 0 k) (at_ j)) [t] t)
     ∃ words : Nat → List W32, Finishes s a (.xpnd o) true o.d (xpndRegs w) false (a.tansTo (.xpnd o) o.d) a.p.active
       (laneResults a.p.active fun k => { words := words k, tans := (upFrom 1 (a.tansTo (.xpnd o) o.d)).map fun c => (upFrom 0 (xpndRegs w)).map (tan k c) }) 0))

/-- R231 to R234: TGET reads a shadow into a register, TSET writes one shadow in the active lanes and leaves the primary and the other
shadows, and TCLR zeroes the shadows that it names. -/
def Obligations.TangentMoves : Prop := ∀ (s : State) (a : Agent) (o : V2),
  let n := o.ty.regs
  Finishes s a (.tget o) true o.d n false 0 a.p.active (lanes64.map fun k => { words := s.opRegs a o.a n 0 o.sub.toNat k }) 0 ∧
  (let i := Instr.tset o
   Passes s a i true → a.whole →
   a.overcommits (usesOf a.l.record i) ((upFrom 0 n).map fun j => .row (regPlus j o.d) [(o.sub.toNat, s.srcRow a o.a j 0 0)] a.p.active true) = false →
   ∃ t, exec i s = .next t ∧ t.wentOn a i ∧ Kept s t a i ∧
     (∀ r, o.d = .v r → ∀ j < n, ∀ k < 64,
       (a.p.active.getLsbD k = true → t.vLane a.p.fid a.p.hp (r + BitVec.ofNat 8 j) o.sub.toNat k = (s.opRegs a o.a n 0 0 k).getD j 0) ∧
       ∀ c, (r + BitVec.ofNat 8 j) ∉ lastNames (usesOf a.l.record i) → (c ≠ o.sub.toNat ∨ a.p.active.getLsbD k = false) →
         t.vLane a.p.fid a.p.hp (r + BitVec.ofNat 8 j) c k = a.h.lane (r + BitVec.ofNat 8 j) c k) ∧
     (∀ r, o.d = .t r → ∀ q x, t.party? a.p.pid = some q → q.pitch = some x → ∀ j < n, ∀ k < 64, ∀ c,
       x.lane (r + BitVec.ofNat 3 j) c k =
         if c = o.sub.toNat ∧ a.p.active.getLsbD k = true then (s.opRegs a o.a n 0 0 k).getD j 0 else a.c.lane (r + BitVec.ofNat 3 j) c k)) ∧
  (let i := Instr.tclr o
   Passes s a i true → a.whole → a.overcommits (usesOf a.l.record i) (a.clearWrites o) = false →
   ∃ t, exec i s = .next t ∧ t.wentOn a i ∧ Kept s t a i ∧
     (∀ r, o.d = .v r → ∀ j < n, ∀ k < 64, ∀ c,
       (a.p.active.getLsbD k = true → 0 < c → c ≤ 4 → o.sub.getLsbD (c - 1) = true → t.vLane a.p.fid a.p.hp (r + BitVec.ofNat 8 j) c k = 0) ∧
       ((c = 0 ∨ 4 < c ∨ o.sub.getLsbD (c - 1) = false ∨ (k < a.h.lanes ∧ a.p.active.getLsbD k = false)) →
         t.vLane a.p.fid a.p.hp (r + BitVec.ofNat 8 j) c k = a.h.lane (r + BitVec.ofNat 8 j) c k)) ∧
     ∀ r, o.d = .t r → ∀ q x, t.party? a.p.pid = some q → q.pitch = some x → ∀ j < n, ∀ k < 64, ∀ c,
       x.lane (r + BitVec.ofNat 3 j) c k =
         if a.p.active.getLsbD k = true ∧ 0 < c ∧ c ≤ 4 ∧ o.sub.getLsbD (c - 1) = true then 0 else a.c.lane (r + BitVec.ofNat 3 j) c k)

/-- R132, R209 to R211, R215 and R216: coins of the keyed and of the supplied stream, by each lane's sequence number; COINK sets the key and
the numbers. -/
def Obligations.Coins : Prop := ∀ (s : State) (a : Agent) (o : V2) (u : UF),
  let ls := maskLanes a.p.active
  let lane := fun (ws : List W32) (k : Nat) => ((ls.zip ws).find? fun x => x.1 = k).elim 0 (·.2)
  (∀ i at_, a.l.record.coinSrc = 0 → a.p.rivals = [] → ∃ u, s.coins a i at_ = .ok (at_.map fun x =>
    let lr := a.f.index % 2 ^ 53
    coinKeyed (a.p.key.getD a.l.record.coinKey) (wLow x.2) (wHigh x.2)
      (BitVec.ofNat 32 (x.1 % 64 + a.p.hp % 32 * 2 ^ 6 + lr / 2 ^ 32 * 2 ^ 11)) (BitVec.ofNat 32 lr), u)) ∧
  (∀ i k n pa, a.l.record.coinSrc ≠ 0 → n.toNat < a.l.record.coinLen → s.translate a.l.space ((a.l.record.coinSrc + 4 * n.toNat) % 2 ^ 64) .r = .hit pa →
    s.lost (s.ctx a.l.ctx).tenant pa = none → s.plainAt (.pa pa) 4 → s.failing = [] → (∀ x ∈ s.past, a.l.since ≤ x.at_ → x.key < memKey pa ∨ memKey (pa + 4) ≤ x.key) →
    ∃ u, s.coins a i [(k, n)] = .ok ([BitVec.ofNat 32 (natOfBytes (s.readPaN pa 4))], u)) ∧
  (∀ ws u, s.streamPlain a → s.coins a (.coin o) (ls.map fun l => (l, a.h.seqOf l)) = .ok (ws, u) →
    Finishes s a (.coin o) true o.d 1 false 0 a.p.active (lanes64.map fun k => res32 (lane ws k)) 0 ∧
    (a.h.seq.length = 64 → Passes s a (.coin o) true → a.whole →
      a.overcommits (usesOf a.l.record (.coin o)) (resultWrites o.d 1 false 0 a.p.active (lanes64.map fun k => res32 (lane ws k))) = false →
      ∀ t, exec (.coin o) s = .next t → t.seqsAre a fun k => if a.p.active.getLsbD k then a.h.seqOf k + 1 else a.h.seqOf k)) ∧
  (∀ ws u, s.streamPlain a → s.coins a (.coinr o) (ls.map fun l => (l, s.opVal a o.a 2 0 l)) = .ok (ws, u) →
    Finishes s a (.coinr o) true o.d 1 false 0 a.p.active (lanes64.map fun k => res32 (lane ws k)) 0) ∧
  (let i := Instr.coink u
   Passes s a i false → a.p.stopped = false → ∃ t q f, exec i s = .next t ∧ t.wentOn a i ∧ t.party? a.p.pid = some q ∧ a.p.SameRegs q ∧ Spared s t ∧
     t.forme? a.p.fid = some f ∧
     (u.imm.getLsbD 0 = true → f.key = s.sVal a u.ua 0 ∧ q.key = some (s.sVal a u.ua 0)) ∧ (u.imm.getLsbD 0 = false → f.key = a.f.key ∧ q.key = a.p.key) ∧
     (u.imm.getLsbD 1 = true → t.seqsAre a fun k => if a.p.lanes.getLsbD k then s.sVal a u.ub 1 + (u.imm.extractLsb' 2 8).setWidth 64 * BitVec.ofNat 64 k else a.h.seqOf k) ∧
     (u.imm.getLsbD 1 = false → t.seqsAre a a.h.seqOf))

/-- R206 to R208: a leaf's mass and weight and its flags, at a finite and at an infinite tau; the rows of a merge; and rebasing. -/
def Obligations.DrawOperations : Prop :=
  let nan : Triple := { m := 0x7FC00000, w := 0x7FC00000, x := 0xFFFFFFFE }
  let none_ : Triple := { m := 0xFF800000, w := 0, x := 0xFFFFFFFF }
  let scale := fun (mi m : XR) =>
    if mi.lt m = false ∧ m.lt mi = false then (XR.fin (.ofInt 1), (0 : BitVec 9))
    else let d := roundTo .rne .fp32 (mi.add false m.neg); let b := ex2Exact d.1; (valOf .fp32 b.1, d.2 ||| b.2)
  (∀ (l tau x : W32), (val32 l).isNan = true ∨ (val32 tau).isNan = true → leaf l tau x [] [] = (nan, 0)) ∧
  (∀ (l tau x : W32), (val32 l).isNan = false → (val32 tau).isNan = false → (val32 tau).isInf = false →
    let r := floatResult .fp32 .rne [val32 tau, val32 l] ((val32 tau).mul (val32 l))
    let y := BitVec.ofNat 32 r.1
    leaf l tau x [] [] = (if (val32 y).isNan then nan else if val32 y = .inf true then none_ else { m := y, w := 0x3F800000, x := x }, r.2)) ∧
  (∀ (l x : W32), (val32 l).isNan = false →
    leaf l 0x7F800000 x [] [] = (if val32 l = .inf true then none_ else { m := l, w := 0x7F800000, x := x }, 0) ∧
    leaf l 0xFF800000 x [] [] = (if val32 l = .inf false then none_ else { m := l ^^^ 0x80000000, w := 0x7F800000, x := x }, 0)) ∧
  (∀ (t u : Triple) (c : W32), t.z = [] → u.z = [] →
    (t.kind = .nan ∨ u.kind = .nan → dmerge t u c = (nan,
      if (val32 t.w).isNan = true ∨ (val32 t.m).isNan = true ∨ (val32 u.w).isNan = true ∨ (val32 u.m).isNan = true then 0 else flagInv)) ∧
    (t.kind = .weighted → u.kind = .weighted →
      let p := val32 t.m; let q := val32 u.m
      let m := if p.lt q = true ∨ (p.isZero = true ∧ q.isZero = true ∧ p.sign = true ∧ q.sign = false) then u.m else t.m
      let s1 := scale p (val32 m); let s2 := scale q (val32 m)
      let a1 := place .fp32 false .rne ((val32 t.w).mul s1.1); let a2 := place .fp32 false .rne ((val32 u.w).mul s2.1)
      let sum := (valOf .fp32 a1.1).add false (valOf .fp32 a2.1)
      let w := place .fp32 false .rne sum
      dmerge t u c = (Triple.written { m := m, w := BitVec.ofNat 32 w.1, x := if (XR.mul (.fin (u01 c)) sum).lt (valOf .fp32 a2.1) = true then u.x else t.x },
        s1.2 ||| s2.2 ||| a1.2 ||| a2.2 ||| w.2)) ∧
    (t.kind = .zero → u.kind ≠ .nan → (dmerge t u c).1 = u.written) ∧
    (t.kind ≠ .nan → t.kind ≠ .zero → u.kind = .zero → (dmerge t u c).1 = t) ∧
    (t.kind = .greedy → u.kind = .weighted → (dmerge t u c).1 = t) ∧
    (t.kind = .weighted → u.kind = .greedy → (dmerge t u c).1 = u) ∧
    (t.kind = .greedy → u.kind = .greedy →
      (dmerge t u c).1 = if (val32 t.m).lt (val32 u.m) = true ∨ ((val32 u.m).lt (val32 t.m) = false ∧ u.x.toNat < t.x.toNat) then u else t)) ∧
  (∀ (t : Triple) (b : W32), t.z = [] → ((t.kind = .nan ∨ (val32 b).isNan = true) → rebase t b = (nan, 0)) ∧
    ((val32 b).isNan = false → t.kind = .greedy → rebase t b = (t, 0)) ∧
    ((val32 b).isNan = false → t.kind = .zero → rebase t b = (none_, 0)) ∧
    ((val32 b).isNan = false → t.kind = .weighted →
      let sc := scale (val32 t.m) (val32 b)
      let w := place .fp32 false .rne ((val32 t.w).mul sc.1)
      rebase t b = (Triple.written { m := b, w := BitVec.ofNat 32 w.1, x := t.x }, sc.2 ||| w.2)))

/-- R212, R217 to R220: draws of a leaf in each lane, of the whole party through the tree with its 63 coins, merges and rebases. -/
def Obligations.Draws : Prop := ∀ (s : State) (a : Agent) (o : V2) (p : V3),
  let act := a.p.active
  let leafOf := fun (nt k : Nat) => leaf (s.op32 a o.a 0 k) (s.op32 a o.b 1 k) (BitVec.ofNat 32 k)
    ((upFrom 1 nt).map fun c => rowGet (s.srcT a o.a 0 0 c) k) ((upFrom 1 nt).map fun c => rowGet (s.srcT a o.b 1 0 c) k)
  let masked := fun (nt : Nat) (f : Nat → Triple) => lanes64.map fun k => if act.getLsbD k then f k else zeroTriple nt
  (let nt := a.tansTo (.draw o) o.d
   FinishesQuad s a (.draw o) o.d nt act (masked nt fun k => (leafOf nt k).1) (tripleFlags act (leafOf nt))) ∧
  (let nt := a.tansTo (.drawa o) o.d
   ∀ l ws u, lowestLane act = some l → s.streamPlain a → s.coins a (.drawa o) ((upFrom 0 63).map fun k => (l, a.h.seqOf l + BitVec.ofNat 64 k)) = .ok (ws, u) →
    let ts := masked nt fun k => if o.sub = 0 then s.tripleIn a o.a 0 nt k else (leafOf nt k).1
    let r := drawTree ts (if o.sub = 0 then 0 else tripleFlags act (leafOf nt)) ws
    FinishesQuad s a (.drawa o) o.d nt act (List.replicate 64 r.1.written) r.2 ∧
    (a.h.seq.length = 64 → Passes s a (.drawa o) true → a.whole → a.overcommits (usesOf a.l.record (.drawa o)) (quadWrites o.d nt act (List.replicate 64 r.1.written)) = false →
      ∀ t, exec (.drawa o) s = .next t → t.seqsAre a fun k => if k = l then a.h.seqOf k + 63 else a.h.seqOf k)) ∧
  (let nt := a.tansTo (.dmerge p) p.d
   let with_ := fun (coin : Nat → W32) =>
     let f := fun k => dmerge (s.tripleIn a p.a 0 nt k) (s.tripleIn a p.b 1 nt k) (coin k)
     FinishesQuad s a (.dmerge p) p.d nt act (masked nt fun k => (f k).1) (tripleFlags act f)
   (p.m.getLsbD 0 = false → with_ (s.op32 a p.c 2)) ∧
   (∀ ws u, p.m.getLsbD 0 = true → s.streamPlain a → s.coins a (.dmerge p) ((maskLanes act).map fun l => (l, a.h.seqOf l)) = .ok (ws, u) →
     with_ fun k => (((maskLanes act).zip ws).find? fun x => x.1 = k).elim 0 (·.2))) ∧
  (let nt := a.tansTo (.dshift o) o.d
   let f := fun k => rebase (s.tripleIn a o.a 0 nt k) (s.op32 a o.b 1 k)
   FinishesQuad s a (.dshift o) o.d nt act (masked nt fun k => (f k).1) (tripleFlags act f))

/-! Press words (R172 to R200). -/

/-- R181 to R184, R192 to R196 and R200: a press word whose headers, window or rectangle are sound queues its operation, with the fields that
the word and its registers give; a tile that the forme has not reserved, and a full queue, trap. That the tile is checked before the headers and the
window is the model's choice (log entry 116), and that tmask of these traps is 0 its reading (log entry 38). -/
def Obligations.PressWords : Prop := ∀ (s : State) (a : Agent) (o : PF),
  let free := (s.queuePlace (s.partOf a.l.lid) 0 a.f.core).isSome = true
  let uc := s.sVal a o.uc 2
  let ready := fun (i : Instr) => Passes s a i true ∧ a.p.stopped = false ∧ free ∧ a.tileBad o.g.toNat (a.tans i) = none
  let sheets := fun (l : List Sheet) (k : BitVec 3) (nt : Nat) => l.length = nt + 1 ∧
    ∀ h ∈ l, h.stamp = h.swz ∧ h.swz ≤ 3 ∧ h.slot = k.toNat ∧ h.fmt = (a.l.record.slot k).toNat % 256 ∧ 0 < h.rows ∧ 0 < h.cols ∧ h.body % 128 = 0 ∧ h.agrees (l.headD {}) = true
  let window := fun (p : Product) (kd nt : Nat) => p.tile = o.g.toNat ∧ p.kd = kd ∧ p.zero = o.pmod.getLsbD 0 ∧ sheets p.a o.fa nt ∧ sheets p.b o.fb nt ∧
    p.arow = (uc.extractLsb' 0 16).toNat ∧ p.brow = (uc.extractLsb' 16 16).toNat ∧ p.k0 = (uc.extractLsb' 32 16).toNat ∧ p.n = (uc.extractLsb' 56 8).toNat + 1 ∧
    p.arow + p.m ≤ (p.a.headD {}).rows ∧ p.brow + p.n ≤ (p.b.headD {}).rows ∧ p.k0 + p.kd ≤ min (p.a.headD {}).cols (p.b.headD {}).cols ∧
    ((p.sparseA || p.sparseB) = true → p.k0 % 4 = 0 ∧ p.kd % 4 = 0)
  (let i := Instr.press o
   ready i → s.failing = [] → ∀ p, s.productOf a i o (a.tans i) o.kd.toNat false denseSide false = .ok (.ok p) →
     Issues s a i 0 a.f.core (.product p) ∧ window p o.kd.toNat (a.tans i) ∧ p.m = (uc.extractLsb' 48 7).toNat + 1 ∧ p.sparseA = false ∧ p.sparseB = false ∧ p.platen = none) ∧
  (let i := Instr.presss o
   let sb := o.pmod.getLsbD 1
   ready i → s.failing = [] → ∀ p, s.productOf a i o (a.tans i) o.kd.toNat (!sb) (if sb then sparseSide else denseSide) false = .ok (.ok p) →
     Issues s a i 0 a.f.core (.product p) ∧ window p o.kd.toNat (a.tans i) ∧ p.m = (uc.extractLsb' 48 7).toNat + 1 ∧ p.sparseA = !sb ∧ p.sparseB = sb ∧ p.platen = none) ∧
  (let i := Instr.platen o
   ready i → s.failing = [] → ∀ p k, s.productOf a i o (a.tans i) (32 * o.kd.toNat) false (fun h => some (h.spr ≠ 0)) true = .ok (.ok p) →
     s.stackFor a.p.fid (dieOf a.f.core) a.p.park p = .ok (some k) →
     Issues s a i 0 a.f.core (.product { p with platen := some k }) ∧ window p (32 * o.kd.toNat) (a.tans i) ∧ p.m = (uc.extractLsb' 48 3).toNat + 1 ∧ p.k0 % 32 = 0) ∧
  (let i := Instr.gclr o
   ready i → Issues s a i 0 a.f.core (.clear o.g.toNat (a.tans i))) ∧
  (∀ i rm f, (i = .gload o ∧ rm = .rne ∧ f = Work.load) ∨ (i = .gstore o ∧ rm = pmodRm o.pmod (a.l.record.slot o.fa) ∧ f = Work.store) →
   ready i → ∀ r, s.rectOf a i o (a.tans i) rm = .ok r →
     Issues s a i 0 a.f.core (f r) ∧ r.tile = o.g.toNat ∧ r.base = (s.sVal a o.ua 0).toNat ∧ r.stride = (s.sVal a o.ub 1).toNat ∧ r.rm = rm ∧
     r.row = (uc.extractLsb' 0 8).toNat ∧ r.col = (uc.extractLsb' 8 8).toNat ∧ r.rows = (uc.extractLsb' 16 7).toNat + 1 ∧ r.cols = (uc.extractLsb' 24 8).toNat + 1 ∧
     r.row + r.rows ≤ 128 ∧ r.col + r.cols ≤ 256 ∧ r.comps = a.tans i ∧ r.base % fmtBytes r.fmt = 0 ∧ r.stride % fmtBytes r.fmt = 0) ∧
  (let i := Instr.sheet o
   let nt := a.tans i
   Passes s a i true → a.p.stopped = false → free → s.failing = [] → ∀ src dst,
     s.readSheets a i (s.sVal a o.ub 1).toNat none true nt = .ok (.ok src) → s.readSheets a i (s.sVal a o.ua 0).toNat none false nt = .ok (.ok dst) →
     (let x := src.headD {}; let y := dst.headD {}
      (x.rows = y.rows ∧ x.cols = y.cols ∧ x.fmt = y.fmt ∧ x.spr = y.spr ∧ x.seed = y.seed → Issues s a i 0 a.f.core (.sheet src dst)) ∧
      (¬ (x.rows = y.rows ∧ x.cols = y.cols ∧ x.fmt = y.fmt ∧ x.spr = y.spr ∧ x.seed = y.seed) → TrapsHere s a i .sheetMismatch (some y.at_) 0))) ∧
  (∀ i ∈ [Instr.press o, .presss o, .platen o, .gclr o, .gload o, .gstore o], ∀ k, Passes s a i true → a.tileBad o.g.toNat (a.tans i) = some k →
     TrapsHere s a i .accessViolation (some k) 0) ∧
  (let i := Instr.gclr o
   Passes s a i true → a.tileBad o.g.toNat (a.tans i) = none → ¬ free → TrapsHere s a i .queueQuota (some (a.f.core % 16 * 2 ^ 8 + a.f.core / 16 * 2 ^ 12)) 0)

/-- R187, R190 and R197: GREAD returns the entry that each lane names where no operation is in flight, and GWRITE writes it; OREADY marks the
place from which later operations see the party's accesses. That tmask of GREAD's and GWRITE's traps is the active lanes is the model's reading (log
entry 38). -/
def Obligations.GalleyWords : Prop := ∀ (s : State) (a : Agent) (o : V2) (u : UF),
  let g := (o.sub.extractLsb' 0 3).toNat
  let named := fun k => entryOf (s.op32 a o.a 0 k)
  let key := fun (j k : Nat) => tileKey (g + j) (named k).1 (named k).2
  (let i := Instr.gread o
   let nt := a.tans i
   Passes s a i true → a.p.stopped = false → a.tileBad g nt = none → s.tileTouched a g nt = none → s.openOps = [] → a.f.gpoison = [] →
   a.overcommits (usesOf a.l.record i) (s.allocRows a o.d 1 nt) = false →
   ∃ t x, exec i s = .next t ∧ Completes s t a i ∧ KeptByRead s t a i ∧ x ∈ t.longs ∧ x.owners = [a.p.pid] ∧ ∀ j ≤ nt, ∃ m row,
     Dest.lanes (regV o.d) j m row ∈ x.dests ∧ ∀ k < 64, a.p.active.getLsbD k = true → m.getLsbD k = true ∧ rowGet row k = tileGet a.f.galley (key j k)) ∧
  (let i := Instr.gwrite o
   let nt := a.tans i
   Passes s a i true → a.p.stopped = false → a.tileBad g nt = none → s.tileTouched a g nt = none → s.Canonical →
   ∃ t f, exec i s = .next t ∧ Completes s t a i ∧ s.strangersKept t a ∧ t.mem = s.mem ∧ t.forme? a.p.fid = some f ∧ f.scratch = a.f.scratch ∧ f.flags = a.f.flags ∧
     (∀ k < 64, a.p.active.getLsbD k = true → (∀ m < 64, a.p.active.getLsbD m = true → named m = named k → m = k) →
       ∀ j ≤ nt, tileGet f.galley (key j k) = rowGet (s.srcT a o.b 1 0 j) k) ∧
     (∀ e, (∀ k < 64, a.p.active.getLsbD k = true → ∀ j ≤ nt, e ≠ key j k) → tileGet f.galley e = tileGet a.f.galley e)) ∧
  (∀ i t, i = .gread o ∨ i = .gwrite o → Passes s a i true → a.tileBad g (a.tans i) = none → s.tileTouched a g (a.tans i) = some t →
     TrapsHere s a i .pressTouch (some t) a.p.active) ∧
  (let i := Instr.oready u
   Passes s a i false → a.p.stopped = false → ∃ t q, exec i s = .next t ∧ Completes s t a i ∧ s.othersKept t a ∧ Spared s t ∧ t.party? a.p.pid = some q ∧ q.opReady = s.freeCtr)

/-- R188, R189 and R199: BATCH closes the open set under the next number, and WAITB holds its party until the batches that it covers are
complete, when their failures become due. That WAITB's number is taken once, at its issue, is the model's reading (log entry 55). -/
def Obligations.Batches : Prop := ∀ (s : State) (a : Agent) (o : UF),
  let mine := fun (x : Op) => x.fid = a.p.fid ∧ x.hp = a.p.hp
  (let i := Instr.batch o
   Passes s a i false → a.whole → ∃ t h q, exec i s = .next t ∧ t.wentOn a i ∧ s.othersKept t a ∧ t.mem = s.mem ∧ t.home? a.p.fid a.p.hp = some h ∧ h.bn = a.h.bn + 1 ∧
     h.rows = a.h.rows ∧ t.party? a.p.pid = some q ∧ (∀ n, o.d = .s n → q.sreg n = a.h.bn + 1) ∧ (∀ n, o.d ≠ .s n → q.sreg n = a.p.sreg n) ∧
     (∀ x ∈ s.ops, mine x → x.batch = none → { x with batch := some (a.h.bn + 1).toNat } ∈ t.ops) ∧
     (∀ x ∈ s.ops, ¬ (mine x ∧ x.batch = none) → x ∈ t.ops) ∧ t.ops.length = s.ops.length) ∧
  (let i := Instr.waitb o
   let n := min (s.sVal a o.ua 0).toNat a.h.bn.toNat
   let upto := if o.idx = 0 then some n else none
   let most := if o.idx = 0 then 0 else o.imm.toNat
   let covered := fun b => if o.idx = 0 then b ≤ n else b ∉ s.openBatches a.p.fid a.p.hp
   Passes s a i false → a.ends i → (∀ q ∈ s.others a.p, ∀ u k, q.wait ≠ .batch u k) →
     (s.batchDone a.p.fid a.p.hp upto most = false → Falls s a i (.batch upto most)) ∧
     (s.batchDone a.p.fid a.p.hp upto most = true → ∃ t q, exec i s = .next t ∧ t.party? a.p.pid = some q ∧ q.pitch = none ∧ q.pc = a.c.after ∧ q.wait = .none ∧
       q.s = a.p.s ∧ q.c = a.p.c ∧ t.mem = s.mem ∧ s.strangersKept t a ∧
       (∀ x ∈ s.ops, ∀ b c, mine x → x.batch = some b → covered b → x ∉ t.ops ∧ (x.fail = some c → ∃ y ∈ q.pending, y.code = c.1 ∧ x.failItem c.1 c.2 ∈ y.items)) ∧
       (∀ x ∈ s.ops, ¬ (mine x ∧ ∃ b, x.batch = some b ∧ covered b) → x ∈ t.ops))) ∧
  (∀ fid hp u k, s.batchDone fid hp (some u) k = true ↔ ∀ x ∈ s.ops, x.fid = fid → x.hp = hp → x.unfinished = true → ∀ b, x.batch = some b → u < b)

/-! Memory words (R238, R260 to R280). -/

/-- R267 to R270: what loads find, and R260, R261 and R263: which addresses they may form. -/
def Obligations.Loads : Prop := ∀ (s : State) (a : Agent) (o : MF),
  LoadsBy s a (.ld o) o .r (a.winWay o.win) ∧ LoadsBy s a (.ldsc o) o .r (.scratch (a.toffOf o.win)) ∧ LoadsBy s a (.ldpv o) o .rw (.lane (a.toffOf o.win)) ∧
  (∀ l d, let i := Instr.ldk o
    let off := (s.srcUniform a o.so (if o.so.reg.isS then 2 else 1) 0 + o.off.signExtend 64).toNat
    o.dat = .s d → a.formAll (a.winWay o.win) .r [(255, off)] 0 o.sz.bytes = .ok l → Passes s a i false → Reaches1 s a l →
    ∃ t x r, exec i s = .next t ∧ Completes s t a i ∧ KeptByRead s t a i ∧ l = [x] ∧ r ∈ t.longs ∧ r.owners = [a.p.pid] ∧ r.dests = [.sreg d (ldkValue o.sz (s.found a x))]) ∧
  (∀ bs, loadWords .z8 bs = [BitVec.ofNat 32 (natOfBytes bs)] ∧ loadWords .z16 bs = [BitVec.ofNat 32 (natOfBytes bs)] ∧ loadWords .w32 bs = [BitVec.ofNat 32 (natOfBytes bs)] ∧
    loadWords .x8 bs = [(BitVec.ofNat 8 (natOfBytes bs)).signExtend 32] ∧ loadWords .x16 bs = [(BitVec.ofNat 16 (natOfBytes bs)).signExtend 32]) ∧
  (∀ b0 b1 b2 b3 b4 b5 b6 b7 : Byte, loadWords .w64 [b0, b1, b2, b3, b4, b5, b6, b7] = [b3 ++ b2 ++ b1 ++ b0, b7 ++ b6 ++ b5 ++ b4])

/-- R271: what stores leave in memory, the scratchpad and lane-private memory. -/
def Obligations.Stores : Prop := ∀ (s : State) (a : Agent) (o : MF),
  StoresBy s a (.st o) o .w (a.winWay o.win) ∧ StoresBy s a (.stsc o) o .w (.scratch (a.toffOf o.win)) ∧ StoresBy s a (.stpv o) o .rw (.lane (a.toffOf o.win))

/-- R272 and R273: atomics return the old value and leave the new one, which is given for each of the twelve operations; RED returns nothing. -/
def Obligations.Atomics : Prop := ∀ (s : State) (a : Agent) (o : MA),
  AtomicBy s a (.atom o) o (a.winWay o.win) true ∧ AtomicBy s a (.atomsc o) o (.scratch (a.toffOf o.win)) true ∧ AtomicBy s a (.red o) o (a.winWay o.win) false ∧
  (∀ (g : Bool) (z old x y : Nat), let m := 2 ^ (8 * z)
    let v := fun (n : Nat) => if g ∧ m ≤ 2 * n then (n : Int) - m else n
    old < m → x < m → y < m → 0 < z →
    (atomicNew .add g z old x y).1 = (old + x) % m ∧ (atomicNew .xchg g z old x y).1 = x ∧ (atomicNew .cas g z old x y).1 = (if old = x then y else old) ∧
    (atomicNew .inc g z old x y).1 = (if y ≤ old then 0 else old + 1) ∧
    (atomicNew .min g z old x y).1 = (if v x < v old then x else old) ∧ (atomicNew .max g z old x y).1 = (if v old < v x then x else old) ∧
    (∀ k, (atomicNew .and g z old x y).1.testBit k = (old.testBit k && x.testBit k) ∧ (atomicNew .or g z old x y).1.testBit k = (old.testBit k || x.testBit k) ∧
      (atomicNew .xor g z old x y).1.testBit k = (old.testBit k != x.testBit k))) ∧
  (∀ (g : Bool) (old x y : Nat), old < 2 ^ 32 → x < 2 ^ 32 →
    let v := valOf .fp32 old; let w := valOf .fp32 x
    let below := fun (p q : XR) => p.lt q || (p.isZero && q.isZero && p.sign && !q.sign)
    let pick := fun (takeB : Bool) => if v.isNan && w.isNan then 0x7FC00000 else if v.isNan || (!w.isNan && takeB) then x else old
    atomicNew .fadd g 4 old x y = floatResult .fp32 .rne [v, w] (v.add false w) ∧
    atomicNew .fmin g 4 old x y = (pick (below w v), 0) ∧ atomicNew .fmax g 4 old x y = (pick (below v w), 0))

/-- R238, R260, R261, R263, R269 and R270: the checks of an access in their order, the address that it forms, and the trap of the lowest
failing lane; lane-private bytes of different lanes never coincide. -/
def Obligations.AddressChecks : Prop :=
  (∀ (w : Window) (k : BitVec 4) (srows : Nat) (n : Need) (lane comp off z : Nat),
    let r := formWindow w k srows n lane comp off z
    (w.isOpen = false → r = .error (.accessViolation, k.toNat)) ∧
    (w.isOpen = true → w.len < off + z → r = .error (.accessViolation, (w.vb + off) % 2 ^ 64)) ∧
    (w.isOpen = true → off + z ≤ w.len → (w.vb + off) % z ≠ 0 → r = .error (.misaligned, w.vb + off)) ∧
    (w.isOpen = true → off + z ≤ w.len → (w.vb + off) % z = 0 →
      (n = .r ∧ w.perm.getLsbD 0 = false) ∨ (n = .w ∧ w.perm.getLsbD 1 = false) ∨ (n = .rw ∧ w.perm.getLsbD 2 = false) → r = .error (.accessViolation, w.vb + off)) ∧
    (w.isOpen = true → off + z ≤ w.len → (w.vb + off) % z = 0 → permHas n w.perm = true → w.spad = false →
      ∃ x, r = .ok x ∧ x.lane = lane ∧ x.comp = comp ∧ x.addr = w.vb + off ∧ x.need = n ∧
        x.parts = [if w.fvalid = true ∧ off + z ≤ w.flim then .frame (w.frame + off) z else .va (w.vb + off) z]) ∧
    (w.isOpen = true → off + z ≤ w.len → (w.vb + off) % z = 0 → permHas n w.perm = true → w.spad = true →
      (srows * 4096 < w.frame + off + z → r = .error (.accessViolation, w.vb + off)) ∧
      (w.frame + off + z ≤ srows * 4096 → ∃ x, r = .ok x ∧ x.lane = lane ∧ x.parts = [.spad (w.frame + off) z]))) ∧
  (∀ (r : LRec) (f hp f' hp' l l' o o' : Nat), l < 64 → l' < 64 → o < r.privSz → o' < r.privSz → r.privSz % 4 = 0 → hp < r.parties → hp' < r.parties →
    (laneAddress r f hp l o = laneAddress r f' hp' l' o' ↔ f = f' ∧ hp = hp' ∧ l = l' ∧ o = o')) ∧
  (∀ (s : State) (a : Agent) (o : MF) (m : MA) (c : TrapCode) (t : Nat), a.c.left = none →
    let offs := s.offsets a o.so a.p.active (mfOff o)
    let offsA := s.offsets a m.so a.p.active 0
    let traps := fun (i : Instr) (b : State) (lanes : Mask) => exec i s = .next ((b.trapHere a i c (some t) lanes).counted a i)
    (∀ i w n, (i = .ld o ∧ w = a.winWay o.win ∧ n = .r) ∨ (i = .ldsc o ∧ w = .scratch (a.toffOf o.win) ∧ n = .r) ∨ (i = .ldpv o ∧ w = .lane (a.toffOf o.win) ∧ n = .rw) →
      Passes s a i true → a.formAll w n offs (a.memTans i o.sz.tangent w) o.sz.bytes = .error (c, t) → traps i s a.p.active) ∧
    (∀ i w n, (i = .st o ∧ w = a.winWay o.win ∧ n = .w) ∨ (i = .stsc o ∧ w = .scratch (a.toffOf o.win) ∧ n = .w) ∨ (i = .stpv o ∧ w = .lane (a.toffOf o.win) ∧ n = .rw) →
      Passes s a i true → a.formAll w n offs (a.memTans i o.sz.tangent w) o.sz.bytes = .error (c, t) →
      traps i (if o.ord = .acqRel then s.finishIinvs a.p.pid o.scope else s) a.p.active) ∧
    (∀ i w, (i = .atom m ∧ w = a.winWay m.win) ∨ (i = .atomsc m ∧ w = .scratch (a.toffOf m.win)) ∨ (i = .red m ∧ w = a.winWay m.win) → Passes s a i true →
      a.formAll w .rw offsA (a.memTans i (m.aop = .xchg || m.aop = .fadd) w) m.sz.bytes = .error (c, t) →
      traps i (if m.ord = .ar then s.finishIinvs a.p.pid m.scope else s) a.p.active) ∧
    (∀ i ∈ [Instr.cwb o, .cinv o, .iinv o], Passes s a i true → a.formAll (a.winWay o.win) .r offs 0 1 = .error (c, t) → traps i s a.p.active) ∧
    (Passes s a (.ldk o) false →
      a.formAll (a.winWay o.win) .r [(255, (s.srcUniform a o.so (if o.so.reg.isS then 2 else 1) 0 + o.off.signExtend 64).toNat)] 0 o.sz.bytes = .error (c, t) →
      traps (.ldk o) s 0))

/-- R274 to R280: hints and fences complete without a change to memory; CWB sends a line's newer bytes home, CINV drops the line from the
core's own cache, and IINV is outstanding with the lines that it names. -/
def Obligations.CacheWords : Prop := ∀ (s : State) (a : Agent) (o : MF) (u : UF),
  (∀ i, i = .pref o ∨ i = .reuse o → Passes s a i true → a.p.stopped = false → ∃ t, exec i s = .next t ∧ Completes s t a i ∧ KeptByRead s t a i) ∧
  (let i := Instr.reuse o
   Passes s a i true → a.p.stopped = false → ∃ t, exec i s = .next t ∧ ∀ x ∈ s.lines, x.addr ∈ s.hintLines a o .none → x.cache = a.f.core →
     ∃ y ∈ t.lines, y.cache = x.cache ∧ y.addr = x.addr ∧ y.owner = some a.f.fid ∧
       (o.nu.toNat ≠ 63 → y = s.declared (s.declOf a.f o.nu.toNat (some (a.p.pid, o.win.toNat))) x)) ∧
  (let i := Instr.fence u
   let sc := (u.imm.extractLsb' 0 3).toNat
   Passes s a i false → a.p.stopped = false → ∃ t q, exec i s = .next t ∧ Completes s t a i ∧ s.strangersKept t a ∧ Spared s t ∧ t.party? a.p.pid = some q ∧
     (u.imm.getLsbD 5 = true → q.cmdReady = s.freeCtr) ∧ (u.imm.getLsbD 5 = false → q.cmdReady = a.p.cmdReady) ∧
     (u.imm.getLsbD 4 = true → q.cmdLoads = s.freeCtr) ∧ (u.imm.getLsbD 4 = false → q.cmdLoads = a.p.cmdLoads) ∧
     (u.imm.getLsbD 6 = true → q.cmdSettled = s.freeCtr) ∧ (u.imm.getLsbD 6 = false → q.cmdSettled = a.p.cmdSettled) ∧
     (u.imm.getLsbD 6 = true → ∀ x ∈ t.iinvs, a.p.pid ∈ x.pids → min sc 4 < scopeRank x.scope)) ∧
  LinesBy s a (.cwb o) o (fun t l => ∀ x ∈ l, ∀ p n, s.resolve a x = .at_ [(.pa p, n)] → 3 ≤ scopeRank o.scope ∨ s.ownMem p = false ∨ s.homeDie p ≠ dieOf a.f.core →
    ∀ y ∈ t.unhomed, lineOf y.1 ≠ lineOf p) ∧
  LinesBy s a (.cinv o) o (fun t l => a.f.core < 32 → ∀ x ∈ l, ∀ line, s.lineAt a x line → ∀ y ∈ t.lines, y.addr = line → y.cache ≠ a.f.core) ∧
  LinesBy s a (.iinv o) o (fun t l => (∃ x ∈ l, ∃ line, s.lineAt a x line) → ∃ y ∈ t.iinvs, a.p.pid ∈ y.pids ∧ y.core = a.f.core ∧ y.scope = o.scope ∧
    ∀ x ∈ l, ∀ line, s.lineAt a x line → line ∈ y.lines)

/-- R257 to R259: WOPEN makes a window over a range of virtual addresses, as a late result, and WCLOSE closes one. -/
def Obligations.Windows : Prop := ∀ (s : State) (a : Agent) (o : UF),
  let k := o.idx.extractLsb' 0 4
  (let i := Instr.wopen o
   let vb := (s.sVal a o.ua 0).toNat; let len := (s.sVal a o.ub 1).toNat; let toff := (s.sVal a (o.ub + 1) 2).toNat; let perm := o.imm.extractLsb' 0 3
   Passes s a i false → a.p.stopped = false →
   (∀ w, s.openWindow a vb len toff perm = .ok w → ∃ t x, exec i s = .next t ∧ Completes s t a i ∧ Spared s t ∧ x ∈ t.longs ∧ x.owners = [a.p.pid] ∧ x.dests = [.wreg k w] ∧
     w.isOpen = true ∧ w.vb = vb ∧ w.len = len ∧ w.perm = perm ∧ w.toff = toff ∧ w.fvalid = true ∧ vb < 2 ^ 57 ∧ 0 < len ∧ vb + len ≤ 2 ^ 57 ∧ toff % 16 = 0) ∧
   (2 ^ 57 ≤ vb ∨ len = 0 ∨ 2 ^ 57 < vb + len → TrapsHere s a i .accessViolation (some vb) 0) ∧
   (vb < 2 ^ 57 → len ≠ 0 → vb + len ≤ 2 ^ 57 → toff % 16 ≠ 0 → TrapsHere s a i .misaligned (some toff) 0) ∧
   (vb < 2 ^ 57 → len ≠ 0 → vb + len ≤ 2 ^ 57 → toff % 16 = 0 → 0x1FFFFFFFFC00000 ≤ vb → ∃ w, s.openWindow a vb len toff perm = .ok w ∧ w.spad = true ∧ w.frame = vb - 0x1FFFFFFFFC00000)) ∧
  (let i := Instr.wclose o
   Passes s a i false → a.p.stopped = false → ∃ t q, exec i s = .next t ∧ t.wentOn a i ∧ s.othersKept t a ∧ Spared s t ∧ t.party? a.p.pid = some q ∧ (q.win k).isOpen = false ∧
     (∀ j, j ≠ k → q.win j = a.p.win j) ∧ q.s = a.p.s ∧ q.c = a.p.c ∧ q.em = a.p.em)

/-! Engine commands and collective words (R281 to R297). -/

/-- R281 to R292: a command whose descriptor passes its checks is queued with the descriptor's fields, and its reply is the item identifier. -/
def Obligations.EngineWords : Prop := ∀ (s : State) (a : Agent) (o : XF),
  let va := (s.sVal a o.xa 0).toNat
  let xb := (s.sVal a o.xb 1).toNat
  (∀ bs, va % 64 = 0 → s.failing = [] → let f := packetField bs
    let reads := fun (i : Instr) => Passes s a i true ∧ s.readOnce a i va 64 (s.freeCtr + 1) 0 = .ok (.ok bs)
    (reads (.cpy o) → f 0x10 48 = 0 → xb ≤ 2 ^ 40 → Sends s a (.cpy o) o 1 (.cpy (f 0 8) (f 8 8) xb)) ∧
    (reads (.cpyx o) → xb = 0 → f 0x2C 20 = 0 → f 0x20 8 = 0 → 1 ≤ f 0x10 4 → f 0x10 4 ≤ 65535 → 1 ≤ f 0x14 4 → f 0x14 4 ≤ 2 ^ 20 →
      Sends s a (.cpyx o) o 1 (.cpyx (f 0 8) (f 8 8) (f 0x10 4) (f 0x14 4) (f 0x18 4) (f 0x1C 4) 0 (f 0x28 4) none)) ∧
    (∀ h, reads (.cpyx o) → xb ≠ 0 → f 0x2C 20 = 0 → f 8 8 = 0 → f 0x1C 4 = 0 → 1 ≤ f 0x10 4 → f 0x10 4 ≤ 65535 → 1 ≤ f 0x14 4 → f 0x14 4 ≤ 2 ^ 20 →
      s.readSheet a (.cpyx o) xb none false (s.freeCtr + 1) 0 = .ok (.ok h) → (h.format.isBq = false → f 0x20 8 = 0) → f 0x10 4 ≤ h.rows → f 0x14 4 = h.rowBytes →
      Sends s a (.cpyx o) o 1 (.cpyx (f 0 8) 0 (f 0x10 4) (f 0x14 4) (f 0x18 4) 0 (f 0x20 8) (f 0x28 4) (some h))) ∧
    (reads (.cpyrot o) → f 0x28 24 = 0 → 1 ≤ f 0x26 1 → f 0x26 1 ≤ 3 → f 0x27 1 ≤ 1 → 2 ≤ f 0x24 2 → f 0x24 2 ≤ 4096 → f 0x24 2 % 2 = 0 → 1 ≤ f 0x18 4 → f 0x18 4 ≤ 2 ^ 20 →
      f 0 8 % (if f 0x26 1 = 1 then 4 else 2) = 0 → f 8 8 % (if f 0x26 1 = 1 then 4 else 2) = 0 → f 0x10 8 % 4 = 0 →
      Sends s a (.cpyrot o) o 1 (.cpyrot (f 0 8) (f 8 8) (f 0x10 8) (f 0x18 4) (f 0x1C 4) (f 0x20 4) (f 0x24 2) (f 0x26 1) (f 0x27 1) (BitVec.ofNat 32 xb))) ∧
    (reads (.fill o) → f 0x10 48 = 0 → f 8 8 ≤ 2 ^ 40 → Sends s a (.fill o) o 1 (.fill (f 0 8) (f 8 8) (s.sVal a o.xb 1))) ∧
    (reads (.scrub o) → f 0x18 40 = 0 → f 0 8 % 128 = 0 → f 8 8 % 128 = 0 → f 8 8 ≤ 2 ^ 40 → f 0x10 8 % 32 = 0 → xb ≤ 1 →
      Sends s a (.scrub o) o 2 (.scrub (f 0 8) (f 8 8) (f 0x10 8) (xb = 1)))) ∧
  (∀ i r, va % 256 = 0 → s.failing = [] → let bs := match r with | .ok bs => bs | .error _ => []
    Passes s a i true → s.readOnce a i va 256 (s.freeCtr + 1) 0 = .ok r →
    (i = .seal o → Sends s a i o 3 (.seal va (s.sVal a o.xb 1) bs)) ∧ (i = .ndt o → xb = 0 → Sends s a i o 3 (.ndt va bs))) ∧
  (∀ i ∈ [Instr.cpy o, .cpyx o, .cpyrot o, .fill o, .scrub o], Passes s a i true → va % 64 ≠ 0 → TrapsHere s a i .misaligned (some va) 0) ∧
  (∀ i ∈ [Instr.seal o, .ndt o], Passes s a i true → va % 256 ≠ 0 → TrapsHere s a i .misaligned (some va) 0) ∧
  (∀ q core, q < 256 → core < 32 → s.seqOf q (core / 16) < 2 ^ 48 →
    let x := s.itemId q core
    x.extractLsb' 56 8 = BitVec.ofNat 8 q ∧ x.getLsbD 55 = decide (s.fit = .m1) ∧ x.getLsbD 54 = decide (16 ≤ core) ∧ x.extractLsb' 50 4 = BitVec.ofNat 4 core ∧
    x.extractLsb' 48 2 = 0 ∧ x.extractLsb' 0 48 = BitVec.ofNat 48 (s.seqOf q (core / 16)))

/-- R293 to R295: COLL issues the next step of the bound group, CSIG.BIND binds a group and starts its steps anew, CSIG.SIG and CSIG.STAT
return what they read of a step. That they name a step of the bind in force is the model's reading (log entry 62). -/
def Obligations.CollectiveWords : Prop := ∀ (s : State) (a : Agent) (o : V2) (u : UF) (g : Group),
  let die := a.f.core / 16
  let free := (s.queuePlace (s.partOf a.l.lid) 4 die).isSome = true
  (let i := Instr.coll o
   let n := a.h.stepNo + 1
   let off := fun k => (s.opVal a o.b (if o.b.reg.isS then 2 else 1) 1 k).toNat
   let peer := fun k => (s.opVal a o.a (if o.a.reg.isS then 2 else 1) 0 k).toNat
   let z := collSize o.sub o.ty
   Passes s a i true → a.p.stopped = false → free → a.h.groups.head? = some g → a.h.step? g.bind n = none →
   (∀ k < 64, a.p.active.getLsbD k = true → peer k = 0xFFFF ∨ (peer k < g.nrank ∧ off k % z = 0 ∧ off k + z ≤ g.len)) →
   ∃ t op h x, exec i s = .next t ∧ Completes s t a i ∧ s.strangersKept t a ∧ t.mem = s.mem ∧ t.ops = s.ops ++ [op] ∧ op.queue = 4 ∧ op.site = die ∧ op.batch = none ∧ op.fail = none ∧
     op.work = .coll g n o.sub o.ty o.rm (o.x.getLsbD 0) (((maskLanes a.p.active).filter fun k => peer k ≠ 0xFFFF).map fun k => (k, off k, peer k)) ∧
     t.home? a.p.fid a.p.hp = some h ∧ h.stepNo = n ∧ h.groups = a.h.groups ∧ h.step? g.bind n = some x ∧ x.issued = true ∧ x.sub = o.sub ∧ x.ty = o.ty ∧ x.parts = [] ∧
     ∀ d, o.d = .s d → ∃ r ∈ t.longs, r.owners = [a.p.pid] ∧ r.dests = [.sreg d (BitVec.ofNat 64 n)]) ∧
  (let i := Instr.coll o
   Passes s a i true → a.h.groups = [] → TrapsHere s a i .accessViolation (some 0) a.p.active) ∧
  (let i := Instr.csigBind u
   let va := (s.sVal a u.ua 0).toNat
   ∀ bs, let x := Group.parse bs (a.h.groups.length + 1) a
   Passes s a i false → a.p.stopped = false → s.failing = [] → va % 64 = 0 → s.readOnce a i va 64 (s.freeCtr + 1) 0 = .ok (.ok bs) → x.sound bs = true →
   (s.openSteps a.p.fid a.p.hp = [] → ∃ t h, exec i s = .next t ∧ Completes s t a i ∧ s.othersKept t a ∧ Spared s t ∧ t.home? a.p.fid a.p.hp = some h ∧
     h.groups = x :: a.h.groups ∧ h.bound = x.bind ∧ h.stepNo = 0 ∧ h.steps = a.h.steps) ∧
   (s.openSteps a.p.fid a.p.hp ≠ [] → free → Issues s a i 4 die (.bind x)) ∧
   x.id = packetField bs 0 8 ∧ x.id ≠ 0 ∧ x.table = packetField bs 8 8 ∧ x.sbuf = packetField bs 0x10 8 ∧ x.rbuf = packetField bs 0x18 8 ∧ x.len = packetField bs 0x20 8 ∧
   x.nrank = packetField bs 0x28 2 ∧ x.myrank = packetField bs 0x2A 2 ∧ x.myrank < x.nrank ∧ x.nrank ≤ 4096) ∧
  (∀ i f, (i = .csigSig u ∧ f = a.h.stepSignature) ∨ (i = .csigStat u ∧ f = a.h.stepStatus) → ∀ d, u.d = .s d → Passes s a i false → a.p.stopped = false →
   ∃ t r, exec i s = .next t ∧ Completes s t a i ∧ s.othersKept t a ∧ Spared s t ∧ r ∈ t.longs ∧ r.owners = [a.p.pid] ∧ r.dests = [.sreg d (f (s.sVal a u.ua 0).toNat)])

/-! Parties' events (R23, R51 to R57, R328 to R330, R353, R361, R367, R402 to R404). -/

/-- R51 to R57, R81, R82, R328, R329 and R402 to R404: the best ready party takes a free issue slot with a pitch of at most 24 words, or the
trap of its decoding; a boundary trap is taken before the next pitch, the first in R402's order. That a held branch without a slot is left as it is is
the model's choice (log entry 5), and that a trap waits until the log can take its record its reading (log entry 127). -/
def Obligations.IssueEvents : Prop := ∀ (s : State) (core pid : Nat) (p : Party) (f : Forme) (h : Home) (l : Launch),
  (let t := s.arrivals.turnsCheck.noteReady core
   (t.issuing core).length < 4 → t.bestOf ((t.onCore core).filter t.partyReady) = some p → p.pitch = none → t.party? p.pid = some p →
   t.forme? p.fid = some f → t.home? p.fid p.hp = some h → t.launch? f.lid = some l →
   (∀ fr is, t.nextPitch p h f.core l = .ok (fr, is) → p.skip < fr.words.length →
     Does s (.pitchIssue core) (fun u => ∃ q c, u.party? p.pid = some q ∧ q.pitch = some c ∧ c.base = fr.base ∧ c.words = fr.words ∧ c.after = fr.after ∧ c.idx = p.skip ∧
       c.clk = 0 ∧ c.recent = [] ∧ c.temps = p.kept ∧ c.awaits = anchorList fr.anchor ∧ q.awaits = [] ∧ q.cairn = fr.cairn ∧ p.SameRegs q ∧ u.issue = some p.pid ∧ u.mem = t.mem) ∧
     fr.words.length ≤ 24 ∧ (∀ w ∈ fr.words, isCairn w = false ∧ isAnchor w = false) ∧ isAnchor fr.anchor = true ∧
     (endsInTransfer is = false → fr.after = fr.base + 8 * fr.words.length + 8) ∧ (endsInTransfer is = true → fr.after = fr.blockEnd ∧ fr.last = true)) ∧
   (∀ c ta k, t.nextPitch p h f.core l = .error (.trap c ta k) → boundaryOnly c = false → l.record.handler ≠ 0 → p.hnd = false → p.stopped = false → t.logReads p l →
     Does s (.pitchIssue core) (fun u => u.Handling p.pid l c p.here p.active ∧ ∃ q, u.party? p.pid = some q ∧ q.tinfo = BitVec.ofNat 64 ta ∧ q.tstat = BitVec.ofNat 64 (k * 2 ^ 8 + trapNum c)))) ∧
  (∀ ps, s.bestOf ps = some p → p ∈ ps ∧ ∀ q ∈ ps, s.priority q ≤ s.priority p ∧
     (s.priority q = s.priority p → p.lastIssue ≤ q.lastIssue ∧ (p.lastIssue = q.lastIssue → p.slot ≤ q.slot))) ∧
  (∀ n, s.party? pid = some p → s.partyReady p = true → p.promoted = false → p.readySince = some n → n + 4000 ≤ s.clk → s.priority p = 7 ∧
   Does s (.priorityPromotion pid) (fun t => t.party? pid = some { p with promoted := true } ∧ t.priority { p with promoted := true } = 7 ∧ s.allBut t pid ∧ t.mem = s.mem)) ∧
  (let t := s.arrivals
   ∀ x, t.party? pid = some p → p.pitch = none → p.wait = .none → idle p.park = true → p.trap = none → t.running p.fid = true → p.takeable = some x → t.forme? p.fid = some f →
   t.launch? f.lid = some l → l.record.handler ≠ 0 → p.hnd = false → p.stopped = false → t.logReads p l →
   Does s (.boundaryTrap pid) (fun u => u.Handling pid l x.code p.here 0 ∧ ∃ q, u.party? pid = some q ∧ q.pending = p.pending.filter (fun y => y.code ≠ x.code) ∧
     (∀ n, x.tinfo = some n → q.tinfo = BitVec.ofNat 64 n) ∧ q.s = p.s ∧ q.c = p.c ∧ q.em = p.em) ∧
   x ∈ p.pending ∧ ∀ y ∈ p.pending, trapRank x.code ≤ trapRank y.code) ∧
  (∀ tk fall tl fl rcv, s.party? pid = some p → p.wait = .slot tk fall tl fl rcv →
   (s.splitSlot p = none → exec (.branchHeldRelease pid) s = .next s) ∧
   (∀ k, s.splitSlot p = some k → tl ||| fl = p.active → tl &&& fl = 0 → Does s (.branchHeldRelease pid) (fun t => ∃ a ∈ t.parties, ∃ b ∈ t.parties,
     a.em = tl ∧ a.pc = tk ∧ b.em = fl ∧ b.pc = p.pc ∧ a.wait = .none ∧ b.wait = .none ∧ a.s = p.s ∧ b.s = p.s ∧
     a.lanes &&& b.lanes = 0 ∧ a.lanes ||| b.lanes = p.lanes ∧ tl &&& a.lanes = tl ∧ fl &&& b.lanes = fl ∧ (a.slot = k ∨ b.slot = k))))

/-- R23, R353, R361 and R367: what ends a wait. That an event whose condition does not hold leaves the state as it is is the model's choice (log entry
5). -/
def Obligations.WaitEvents : Prop := ∀ (s : State) (pid : Nat) (p : Party) (f : Forme) (h : Home) (l : Launch),
  (∀ n, s.party? pid = some p → s.running p.fid = true → p.wait = .reconv n →
   (n < 16 → exec (.reconvergeWaitExpiry pid) s = .next s) ∧
   (16 ≤ n → Does s (.reconvergeWaitExpiry pid) (fun t => ∃ q, t.party? pid = some q ∧ q.wait = .none ∧ q.fused = false ∧ q.stack = p.stack.tail ∧ p.SameRegs q ∧ t.mem = s.mem))) ∧
  (∀ d, s.party? pid = some p → s.running p.fid = true → p.wait = .sleep d →
   (d ≤ s.wall → Does s (.sleepExpiry pid) (fun t => t.party? pid = some { p with wait := .none } ∧ s.allBut t pid ∧ t.mem = s.mem)) ∧
   (s.wall < d → exec (.sleepExpiry pid) s = .next s)) ∧
  (∀ fid k r d, s.forme? fid = some f → f.ropes[k]? = some r → f.place = .placed → r.deadline = some d → d ≤ s.wall →
   Does s (.belayWatchdogFire fid k) (fun t => (∃ g, t.forme? fid = some g ∧ g.ropes[k]? = some { r with broken := true, watch := none } ∧ ∀ j, j ≠ k → g.ropes[j]? = f.ropes[j]?) ∧
     (∀ j x, s.party? j = some x → x.fid = fid → (∃ g, x.wait = .rope k g) → ∃ q, t.party? j = some q ∧ q.wait = .none ∧ x.SameRegs { q with pending := x.pending } ∧ (∃ y ∈ q.pending, y.code = .ropeTimeout) ∧
       (x.pending = [] → q.pending = [{ code := .ropeTimeout, tinfo := some (k + r.cnt % 256 * 2 ^ 8 + r.expect * 2 ^ 16 + r.gen % 2 ^ 16 * 2 ^ 24), inside := x.hnd }])) ∧
     (∀ j x, s.party? j = some x → ¬ (x.fid = fid ∧ ∃ g, x.wait = .rope k g) → t.party? j = some x))) ∧
  (∀ base idx va cmp sp th seen sc lc, s.party? pid = some p → p.wait = .counter base idx va cmp sp th seen → s.forme? p.fid = some f → s.home? p.fid p.hp = some h →
   s.launch? f.lid = some l → s.running p.fid = true → (∀ g ∈ p.park, g.verdict ≠ .waiting) → s.sceneOf p.fid = some sc → s.findVa sc p.park va .r = .at_ lc → s.Quiet → s.plainAt lc 8 →
   let x := BitVec.ofNat 64 (natOfBytes (s.locRead lc 8))
   let holds := match cmp with | 0 => x = th | 1 => x ≠ th | 2 => th.toNat ≤ x.toNat | 3 => x.toNat < th.toNat | 4 => th.toInt ≤ x.toInt | _ => x.toInt < th.toInt
   Does s (.waitcPoll pid) (fun t => (∃ q, t.party? pid = some q ∧ p.SameRegs q ∧ q.park = [] ∧ (holds → q.wait = .none) ∧ (¬ holds → ∃ n, q.wait = .counter base idx va cmp sp th n)) ∧ t.mem = s.mem))

/-! Operations' events (R172 to R203, R281 to R297, R320 to R325, R348). -/

/-- R173 to R175, R192, R193, R199, R201 and R348: operations of the press and the platen start, go on step by step, end or fail, and spilt ones
come back. That an operation that waits for a later-sited one does not hold a stack's queue is the model's reading (log entry 122), and which unit
serves while one is retested its choice (log entry 129). -/
def Obligations.PressEvents : Prop := ∀ (s : State) (o : Op) (n : Nat),
  let starts := fun (i : Instr) (u : State) => s.op? o.id = some o → ((u.opReach o).opCorrect o).opFault o = none →
    Does s i (fun t => ∃ x, t.op? o.id = some x ∧ x.phase = .running ∧ x.step = 0 ∧ x.work = o.work ∧
      (∀ p, o.work = .product p → p.zero = true → ∀ k ∈ o.entries, tileGet (t.galley o.fid) k = 0) ∧ (∀ k, k ∉ o.entries → tileGet (t.galley o.fid) k = tileGet (s.galley o.fid) k))
  let turned := { s with pressTurn := o.site :: s.pressTurn.filter fun c => c / 2 ≠ n }
  (let idle := ∀ x ∈ s.ops, x.onPair = true → x.site / 2 = n → s.opPlaced x = true → x.phase ≠ .running
   s.serves (.pressPair n) = true →
   (idle → s.pressHead (2 * n) = some o → s.pressHead (2 * n + 1) = none → s.opPlaced o = true → s.opReady o = true → starts (.pressOpStart n) turned) ∧
   (∀ a b, idle → s.pressHead (2 * n) = some a → s.pressHead (2 * n + 1) = some b → s.opPlaced a = true → s.opReady a = true → s.opPlaced b = true → s.opReady b = true →
     o = (if 2 * n ∈ s.pressTurn then b else a) → starts (.pressOpStart n) turned)) ∧
  (s.serves (.platen n) = true → (∀ x ∈ s.ops, x.unsited = none) → s.foldsOn none = [] → (∀ x ∈ s.ops, x.stack = some n → s.opPlaced x = true → x.phase ≠ .running) → s.platenHead n = some (.inl o) → s.opReady o = true →
    starts (.platenOpStart n) s ∧ o ∈ s.platenOps n ∧ (∀ x ∈ s.platenOps n, s.opParted x = false → max o.seq o.arr ≤ max x.seq x.arr) ∧ ∀ q ∈ s.foldsOn (some n), max o.seq o.arr ≤ q.arr) ∧
  (s.op? o.id = some o → o.phase = .running → o.queue = 0 → s.opPlaced o = true → s.unitTaken o = false → o.atStop = false → s.opMissing o.rest = [] → s.opFault o.rest = none →
    let r := (s.opReach o).opStep o o.step
    (o.step + 1 < o.steps → Does s (.pressGroupStep o.id) (fun t => ∃ x, t.op? o.id = some x ∧ x.phase = .running ∧ x.step = o.step + 1 ∧ x.flags = o.flags ||| r.2.1 ∧
      t.galley o.fid = r.1.galley o.fid)) ∧
    (o.steps ≤ o.step + 1 → Does s (.pressGroupStep o.id) (fun t => t.opOver o.id none ∧
      ∀ f g, s.forme? o.fid = some f → t.forme? o.fid = some g → g.flags = f.flags ||| (o.flags ||| r.2.1)))) ∧
  (∀ c a, s.op? o.id = some o → o.queue = 0 → o.phase = .queued ∨ o.phase = .running → s.opFree o = true → s.opPlaced o = true → s.opStopped o c = false → s.opFault o.rest = some (c, a) → s.Canonical →
    Does s (.pressOpFail o.id c a) (fun t => t.opOver o.id (some (c, a)) ∧ ∀ g, t.forme? o.fid = some g → ∀ k, k ∉ o.entries → tileGet g.galley k = tileGet (s.galley o.fid) k)) ∧
  (let here := s.ops.filter fun x => x.queue = o.queue && x.site = n && !(s.forme? x.fid).any (·.place = .saved)
   o.queue < 5 → (here.filter fun x => x.phase = .queued).length < queueCap o.queue → here.find? (fun x => x.phase = .spilt) = some o → s.op? o.id = some o →
    Does s (.overflowRefill o.queue n) (fun t => t.op? o.id = some { o with phase := .queued } ∧ ∀ j, j ≠ o.id → t.op? j = s.op? j)) ∧
  (∀ id, s.launchesOn n < 256 → s.spiltLaunch n = some id →
    Does s (.overflowRefill 5 n) (fun t => (∀ j l, s.launch? j = some l → t.launch? j = some (if l.sub = some (n, id) then { l with spilt := none } else l)) ∧
      (∀ x ∈ s.accepting, (if x.id = id then { x with spilt := none } else x) ∈ t.accepting) ∧ t.ops = s.ops ∧ t.mem = s.mem))

/-- R284 to R292: engine commands start, end and fail; what FILL and CPY leave; the M1's answer ends an NDT. -/
def Obligations.EngineEvents : Prop := ∀ (s : State) (o : Op),
  (s.op? o.id = some o → o.isCommand = true → o.phase = .queued → s.opPlaced o = true → s.opFree o = true → s.opMissing o = [] → s.cmdFault o = none →
    ((∀ pkt h pk, o.work ≠ .seal pkt h pk) → ((s.opReach o).opCorrect o).opFault o = none) →
    Does s (.engineCmdStart o.id) (fun t => ∃ x, t.op? o.id = some x ∧ x.phase = .running ∧
      (∀ pkt h pk y, o.work = .seal pkt h pk → s.sessions.find? (fun z => z.handle = h) = some y → x.step = y.next ∧ t.sessions.find? (fun z => z.handle = h) = some { y with next := y.next + 1 }) ∧
      (∀ pkt l, o.work = .ndt pkt l → (s.sceneOf o.fid).isSome = true → ∃ pk, x.work = .ndt pkt pk ∧ Msg.ndt (BitVec.ofNat 12 (packetField pk 2 2)) pk ∈ t.out))) ∧
  (s.op? o.id = some o → o.isCommand = true → o.phase = .running → (∀ pkt l, o.work ≠ .ndt pkt l) → s.opPlaced o = true → s.opMissing o = [] → s.cmdFault o = none →
    Does s (.engineCmdEnd o.id) (fun t => t.opOver o.id none)) ∧
  (∀ c a, s.op? o.id = some o → o.isCommand = true → o.phase = .queued ∨ o.phase = .running → s.opFree o = true → s.opPlaced o = true → s.opStopped o c = false → s.cmdFault o = some (c, a) →
    Does s (.engineCmdFail o.id c a) (fun t => t.opOver o.id (some (c, a)))) ∧
  (∀ pkt l r, s.op? o.id = some o → o.work = .ndt pkt l → o.phase = .running → s.cmdFault o = none →
    Does s (.ndtCompletionMessage o.id none r) (fun t => t.opOver o.id none) ∧
    ∀ c, Does s (.ndtCompletionMessage o.id (some c) r) (fun t => t.opOver o.id (some (c, pkt)))) ∧
  (∀ sc dst pa len, s.sceneOf o.fid = some sc → 0 < len → granuleOf (dst + len - 1) = granuleOf dst → s.findVa sc [] dst .none = .at_ (.pa pa) → s.plainAt (.pa pa) len →
    s.past = [] → s.dvsec.viral = false → s.Canonical →
    (∀ pat, o.work = .fill dst len pat → ∀ k < len, (s.opStep o 0).1.byteAt (.pa (pa + k)) = pat.extractLsb' (8 * ((dst + k) % 8)) 8) ∧
    (∀ src ps, o.work = .cpy src dst len → granuleOf (src + len - 1) = granuleOf src → s.findVa sc [] src .none = .at_ (.pa ps) → (src + len ≤ dst ∨ dst + len ≤ src) →
      ∀ k < len, (s.opStep o 0).1.byteAt (.pa (pa + k)) = s.byteAt (.pa (ps + k))) ∧
    ((∃ pat, o.work = .fill dst len pat) ∨ (∃ src, o.work = .cpy src dst len) → s.storedOnly (s.opStep o 0).1 [(.pa pa, len)]))

/-- R294, R296, R297, R324 and R325: contributions and markers of a step come in, the step completes locally, or it fails at the rank. -/
def Obligations.CollectiveEvents : Prop := ∀ (s : State) (fid hp bind n : Nat) (h : Home) (g : Group),
  let x := (h.step? bind n).getD { bind := bind, n := n }
  let failed := fun (i : Instr) (c : TrapCode × Nat) => Does s i (fun t => t.stepIs fid hp bind n fun y => y.failed = some c)
  (∀ f, s.forme? fid = some f → s.home? fid hp = some h → h.groupAt bind = some g → x.failed = none →
    (∀ flit, flit.step = n → x.received = false → x.folding = none → s.stagedOn (dieOf f.core) + sumBy (fun c : Contribution => c.elem.length) flit.parts ≤ 2 ^ 24 →
      (∀ k ∈ s.homes, ∀ y ∈ k.steps, y.spilt = 0) → (x.issued = true → (flit.sub, flit.ty, flit.routed) = (x.sub, x.ty, x.routed)) →
      Does s (.collFlitReceive fid hp bind flit) (fun t => (t.stepIs fid hp bind n fun y => y.parts = x.parts ++ flit.parts ∧ y.marks = x.marks ∧ y.failed = none) ∧ t.mem = s.mem)) ∧
    (∀ rank, rank < g.nrank → rank ∉ x.marks →
      Does s (.collMarkerArrival fid hp bind n rank) (fun t => t.stepIs fid hp bind n fun y => y.marks = x.marks ++ [rank] ∧ (x.marks.length + 1 < g.nrank → y = { x with marks := x.marks ++ [rank] }))) ∧
    (∀ rank, rank < g.nrank → rank ∈ x.marks → failed (.collMarkerArrival fid hp bind n rank) (.collFail, 0)) ∧
    ((s.ops.find? fun o => o.fid = fid && o.hp = hp && isStep bind n o && o.phase = .queued) = none → (h.step? bind n).isSome = true → failed (.collStepFail fid hp bind n) (.collFail, 0)) ∧
    (∀ m, (h.step? bind n).isSome = true → x.closed = true → x.received = false → x.folding = none → x.markedAt = some m → m + 10 ^ 14 ≤ s.wall → failed (.collMarkerTimeout fid hp bind n) (.collFail, 0))) ∧
  (∀ o, s.op? o.id = some o → o.queue = 4 → o.phase = .queued → s.opPlaced o = true → (∀ e ∈ s.openSteps o.fid o.hp, o.seq ≤ e.seq) → (s.home? o.fid o.hp).isSome = true →
    (∃ p ∈ s.parties, p.fid = o.fid) →
    (∀ g, o.work = .bind g → Does s (.collLocalComplete o.id) (fun t => t.opOver o.id none ∧ ∃ k, t.home? o.fid o.hp = some k ∧ k.bound = g.bind)) ∧
    (∀ g k sub ty rm rt sends, o.work = .coll g k sub ty rm rt sends → s.opFree o = true → s.opMissing o = [] → (s.opCorrect o).opFault o = none →
      Does s (.collLocalComplete o.id) (fun t => (∀ y ∈ t.ops, y.id = o.id → y.phase = .ended) ∧ t.stepIs o.fid o.hp g.bind k fun y => y.closed = true))) ∧
  (∀ k p, s.ports[k]? = some p →
    (p.up = true → p.retraining = false → Does s (.flitRetry k) (fun t => t.mem = s.mem ∧ ∃ q, t.ports[k]? = some q ∧ q.up = true ∧ q.width = p.width ∧
      ((q.retraining = false ∧ q.retry = []) ∨ (q.retraining = true ∧ q.retry = p.retry)))) ∧
    (∀ w, p.retraining = true → (w = 16 ∨ w = 8 ∨ w = 4) → w ≤ p.width → s.wall ≤ p.retrainAt + 10 ^ 13 → Does s (.retrainingComplete k w) (fun t => t.mem = s.mem ∧
      t.ports[k]? = some { p with retraining := false, width := w, retry := [] })) ∧
    (p.retraining = true → p.retrainAt + 10 ^ 13 ≤ s.wall → Does s (.linkRetrainTimeout k) (fun t => t.ports[k]? = some { p with up := false, retraining := false, retry := [] } ∧
      ∀ r ∈ p.retry, ∀ k, (s.forme? r.1).isSome = true → s.home? r.1 r.2.1 = some k → (k.groupAt r.2.2.1).isSome = true → t.stepIs r.1 r.2.1 r.2.2.1 r.2.2.2 fun y => y.failed.isSome = true)))

/-- R192, R193 and R320 to R322: exact reductions. A group step forms every entry of the rectangle from its own row pair and leaves the other
entries alone; a group without an infinity or a NaN adds the truncated products' sum to the entry, rounded once. A canonical fold takes the
starting value, then the contributions in ascending rank and lane, with one node each, and the signature begins at its constant. -/
def Obligations.ExactReductions : Prop :=
  (∀ (tile m n : Nat) (rows : Nat → Nat → List (Option XR) × List (Option XR)) (g : Tile), storeWf (0 : W32) g = true → m ≤ 128 → n ≤ 256 →
  (∀ i j, i < m → j < n →
    let r := rowProducts (rows i j).1 (rows i j).2
    tileGet (groupOn tile m n rows g).1 (tileKey tile i j) = (pressGroup (tileGet g (tileKey tile i j)) r.1 r.2).1) ∧
  (∀ k, (∀ i j, i < m → j < n → k ≠ tileKey tile i j) → tileGet (groupOn tile m n rows g).1 k = tileGet g k) ∧
  (∀ acc qs e, (∀ q ∈ qs, q.isZero = false) → qs ≠ [] → (∀ q ∈ qs, q.log2 ≤ e) → (∃ q ∈ qs, q.log2 = e) →
    let sum := qs.foldl (fun x q => x.add false (truncAt q (e - 47))) (.zero false)
    (pressGroup acc (qs.map XR.fin) false).1 = if sum.isZero then acc else BitVec.ofNat 32 (place .fp32 true .rne ((val32 acc).add false (.fin sum))).1)) ∧
  (∀ (start : List Byte) (cs : List Contribution) (f : List Byte → List Byte → W32 → List Byte) (coin : Nat → FoldNode → W32) (j : Nat),
  let r := (foldChain start cs).eval f coin j
  (sortBy contribId cs).Perm cs ∧ (sortBy contribId cs).Pairwise (fun a b => contribId a ≤ contribId b) ∧ r.2.2.length = cs.length ∧
  ((∀ c d w, f c d w = f c d 0) → r.1 = (sortBy contribId cs).foldl (fun acc c => f acc c.elem 0) start) ∧
  r.2.2.map (·.2) = (sortBy contribId cs).map contribId ∧
  r.2.1 = cs.foldl (fun m c => min m (contribId c)) 0x40000 ∧
  signStart = 0x6A09E667F3BCC908)

/-! Memory's and translation's events (R57 to R60, R264, R265, R279, R384 to R394). -/

/-- R32, R59, R60, R265, R279 and R394: results arrive or fail, IINVs complete, reuse clocks and standings tick. -/
def Obligations.MemoryEvents : Prop := ∀ (s : State) (id : Nat) (x : Long) (p : Party),
  (s.longs.find? (fun y => y.id = id) = some x → (∀ y ∈ s.accepting, y.id ≠ id) →
    Does s (.longLatencyResult id) (fun t => t.mem = s.mem ∧ (∀ y ∈ t.longs, y.id ≠ id) ∧
      (∀ n v pid, (∀ y ∈ s.acts, y.id ∉ x.loads) → x.dests = [.sreg n v] → x.owners = [pid] → s.party? pid = some p → t.party? pid = some { p with s := p.s.set n.toNat v } ∧ s.allBut t pid) ∧
      (∀ n w pid, x.dests = [.wreg n w] → x.owners = [pid] → s.party? pid = some p → t.party? pid = some { p with w := p.w.set n.toNat w } ∧ s.allBut t pid) ∧
      (∀ r c m row, (∀ y ∈ s.acts, y.id ∉ x.loads) → x.dests = [.lanes r c m row] → ((s.home? x.fid x.hp).bind fun h => h.row? r c).isSome = true →
        (∀ k < 64, t.vLane x.fid x.hp r c k = if m.getLsbD k then rowGet row k else s.vLane x.fid x.hp r c k) ∧
        ∀ r' c', ¬ (r' = r ∧ c' = c) → ∀ k < 64, t.vLane x.fid x.hp r' c' k = s.vLane x.fid x.hp r' c' k))) ∧
  (∀ lane comp code va pa pid l, s.longs.find? (fun y => y.id = id) = some x → x.accs.find? (fun y => y.1 = lane && y.2.1 = comp) = some (lane, comp, va, pa) → s.failsNow x.fid pa code = true →
    x.owners = pid :: l → s.party? pid = some p →
    Does s (.memoryAccessFail id lane comp code) (fun t => t.mem = s.mem ∧ (∃ q z, t.party? pid = some q ∧ z ∈ q.pending ∧ z.code = code ∧
      { ikind := 1, code := code, lane := lane, comp := comp, loc := x.addr, addr := va } ∈ z.items) ∧
      ∀ y ∈ t.longs, y.id = id → ∀ r m row, Dest.lanes r comp m row ∈ y.dests → m.getLsbD lane = false)) ∧
  (∀ i, s.iinvs.find? (fun y => y.id = id) = some i → Does s (.iinvComplete id) (fun t => t.mem = s.mem ∧ (∀ y ∈ t.iinvs, y.id ≠ id) ∧
    (∀ l ∈ t.icache, l.core ∈ s.iinvCores i → l.addr ∉ i.lines) ∧
    ∀ pid ∈ i.pids, s.party? pid = some p → p.wait = .isync → (∀ y ∈ s.iinvs, pid ∈ y.pids → y.id = id) → ∃ q, t.party? pid = some q ∧ q.wait = .none)) ∧
  (∀ fid f, s.forme? fid = some f → 32 * (f.rc + 1) ≤ f.counted → Does s (.reuseClockTick fid) (fun t => t.mem = s.mem ∧ t.forme? fid = some { f with rc := f.rc + 1 } ∧
    (∀ j, j ≠ fid → t.forme? j = s.forme? j) ∧ ∀ l ∈ t.lines, l.record = true → l.owner = some fid → ((f.rc + 1 : Nat) : Int) ≤ l.due)) ∧
  (∀ k, k < s.parts.length → 4096 ≤ (s.part k).records → Does s (.standingUpdate k) (fun t => (t.part k).hits = 0 ∧ (t.part k).records = 0 ∧
    (t.part k).sigma = (let h := min 16 ((s.part k).hits / 256); let g := (s.part k).sigma; if g < h then g + 1 else if h < g then g - 1 else g) ∧ ∀ j, j ≠ k → t.part j = s.part j))

/-- R384, R385, R390 and R391: what answers a walk, and what an invalidation takes away. That each parking has a walk of its own for a granule, with a
count of its own, is the model's reading (log entry 76). -/
def Obligations.TranslationEvents : Prop := ∀ (s : State) (ctx va : Nat),
  let mine := fun (w : Walk) => w.ctx = ctx ∧ w.granule = granuleOf va
  (let ws := s.walks.filter fun w => w.ctx = ctx && w.granule = granuleOf va && (!w.asked || w.again)
   ws ≠ [] → (∀ w ∈ ws, w.stale = []) →
   (∀ pa size r w x, 2 ^ 16 ≤ size → let n := if 2 ^ 30 ≤ size then 2 ^ 30 else if 2 ^ 21 ≤ size then 2 ^ 21 else 2 ^ 16
     s.pageAllowed (s.ctx ctx).tenant (pa / n * n) n = true →
     Does s (.translationCompletion ctx va (.page pa size r w x)) (fun t => (∀ a, va / n * n ≤ a → a < va / n * n + n → t.tlbHit ctx a = some ⟨ctx, va / n * n, n, pa / n * n, r, w, x⟩) ∧
       ∀ a, a < va / n * n ∨ va / n * n + n ≤ a → ∀ e, t.tlbHit ctx a = some e → e ∈ s.tlb)) ∧
   ((s.ctx ctx).priOff = false → (∀ w ∈ ws, w.tries < 4) → Does s (.translationCompletion ctx va .none) (fun t => ∀ w ∈ ws, { w with asked := true, again := false, stale := [] } ∈ t.walks ∧
     (w.asked = false → Msg.pageRequest ctx w.granule w.need ∈ t.out))) ∧
   Does s (.translationCompletion ctx va .refused) (fun t => s.refusedTo t ctx va ws)) ∧
  (let ws := s.walks.filter fun w => w.ctx = ctx && w.granule = granuleOf va && w.asked
   ws ≠ [] →
   Does s (.pageRequestResponse ctx va .success) (fun t => (∀ w ∈ ws, { w with asked := false, tries := w.tries + 1, stale := [] } ∈ t.walks ∧ Msg.translate ctx w.granule w.need ∈ t.out) ∧
     ∀ w ∈ s.walks, w.ctx = ctx → w.granule ≠ granuleOf va → w.asked = true → w.again = false → (∃ x ∈ ws, x.parking = w.parking) →
       { w with again := true, stale := [] } ∈ t.walks ∧ Msg.translate ctx w.granule w.need ∈ t.out) ∧
   Does s (.pageRequestResponse ctx va .invalidRequest) (fun t => (∀ w ∈ t.walks, mine w → w.asked = false) ∧ s.refusedTo t ctx va ws) ∧
   (ctx < s.ctxs.length → Does s (.pageRequestResponse ctx va .responseFailure) (fun t => (t.ctx ctx).priOff = true ∧ (∀ w ∈ t.walks, w.ctx = ctx → w.asked = false) ∧ s.refusedTo t ctx va ws))) ∧
  (ctx < s.ctxs.length → Does s (.pageRequestInterfaceEnable ctx) (fun t => t.ctx ctx = { s.ctx ctx with priOff := false } ∧ (∀ j, j ≠ ctx → t.ctx j = s.ctx j) ∧ t.mem = s.mem)) ∧
  (∀ pasid base size, Does s (.atsInvalidation pasid base size) (fun t => t.mem = s.mem ∧ Msg.invalidated pasid base size ∈ t.out ∧
    (∀ c < 64, (s.ctx c).pasid = pasid → (s.ctx c).part.isSome = true →
      (∀ e ∈ t.tlb, e.ctx = c → ¬ (e.page < base + size ∧ base < e.page + e.size)) ∧ ∀ q ∈ t.parties, t.spaceCtx q.fid = some c → ∀ w ∈ q.w, w.overVa base size = false) ∧
    ∀ e ∈ s.tlb, (¬ (e.page < base + size ∧ base < e.page + e.size) ∨ (s.ctx e.ctx).pasid ≠ pasid ∨ (s.ctx e.ctx).part = none) → e ∈ t.tlb))

/-! Placement, queues and their work (R27 to R49, R331 to R347, R378 to R383, R397). -/

/-- R27, R37, R345 to R347 and R378 to R382: formes are placed, held, pre-empted and moved off their cores, and slices follow one another. That a slice
ends for a context that has become idle is the model's reading (log entry 71). -/
def Obligations.PlacementEvents : Prop := ∀ (s : State) (lid core fid part c : Nat) (l : Launch) (f : Forme),
  let k := s.partOf lid
  (s.launch? lid = some l → s.pendingForme l = true → s.places k l.ctx = true →
    (s.dvsec.viral = false → s.fitsCore k core l = true → s.fitsOn k core l.record (s.nextLive l) (fun _ => false) = true → s.heldBack k l = false →
      (s.savedOf lid = none → Does s (.formePlace lid core) (fun t => t.launch? lid = some { l with next := l.next + 1, heldLong := false, heldAt := none } ∧
        (∃ g ∈ t.formes, g.fid = s.nextId ∧ g.lid = lid ∧ g.index = l.next ∧ g.core = core ∧ g.place = .placed ∧ g.begun = false ∧ g.galley = [] ∧ g.key = l.record.coinKey ∧
          g.flags = (if l.record.satarm then 0x100 else 0) ∧ g.ropes = List.replicate l.record.ropes { expect := l.record.parties }) ∧
        (∀ h < l.record.parties, ∃ p ∈ t.parties, p.fid = s.nextId ∧ p.hp = h ∧ p.pc = l.record.entry ∧ p.lanes = maskLow l.record.lanes ∧ p.em = maskLow l.record.lanes ∧
          (∀ j < 64, p.s.getD j 0 = l.record.args.getD j 0) ∧ p.c = List.replicate 7 0 ∧ p.calls = [] ∧ p.hnd = false ∧ p.pitch = none ∧ p.entry = .block) ∧
        t.mem = s.mem)) ∧
      (s.savedOf lid = some f → s.forme? f.fid = some f → Does s (.formePlace lid core) (fun t => t.mem = s.mem ∧ ∃ g, t.forme? f.fid = some g ∧ g.place = .placed ∧ g.core = core ∧
        g.galley = f.galley ∧ g.scratch = f.scratch ∧ g.flags = f.flags ∧ g.index = f.index))) ∧
    (∀ n, s.fitsAny k l = false → l.heldAt = some n → n + 10 ^ 12 ≤ s.wall → Does s (.placementHoldExpiry lid) (fun t => t.launch? lid = some { l with heldLong := true } ∧ t.mem = s.mem)) ∧
    (∀ vs n, l.record.latbound ≠ 0 → s.fitsAny k l = false → l.heldAt = some n → n + l.record.latbound * 10 ^ 9 < s.wall → s.enough k l (s.victims k l) = some vs →
      Does s (.latboundExpiry lid) (fun t => t.mem = s.mem ∧ ∀ v ∈ vs, v.place = .placed ∧ (∀ m, s.launch? v.lid = some m → m.prio < l.prio) ∧
        ∀ g, t.forme? v.fid = some g → g.leave.isSome = true ∨ g.place ≠ .placed))) ∧
  (∀ x, s.forme? fid = some f → f.leave = some x → s.atRest f x = true → x.how ≠ .flush → (∃ p ∈ s.parties, p.fid = fid) →
    Does s (.formeLeaveCore fid) (fun t => t.mem = s.mem ∧ (∃ g, t.forme? fid = some g ∧ g.leave = none ∧ g.place = (if x.halt then .halted else .saved) ∧
      g.galley = f.galley ∧ g.scratch = f.scratch ∧ g.flags = f.flags) ∧
      ∀ j p, s.party? j = some p → t.party? j = some (if p.fid = fid then p.saved else p))) ∧
  (part < s.parts.length → (s.part part).running = some c →
    ((s.part part).halting = false → ((s.ctx c).slice ≠ 0 ∧ (s.part part).sliceAt + (s.ctx c).slice * 10 ^ 9 ≤ s.wall) ∨ (s.hasWork part c = false ∧ s.onCores c = []) →
      (s.nextCtx part (some c)).isSome = true → Does s (.sliceEnd part) (fun t => (t.part part).halting = true ∧ t.mem = s.mem ∧
      ∀ v ∈ s.onCores c, ∀ g, t.forme? v.fid = some g → g.leave.isSome = true ∨ g.place ≠ .placed)) ∧
    (∀ n, (s.part part).halting = true → s.onCores c = [] → s.nextCtx part (some c) = some n →
      Does s (.sliceStart part) (fun t => (t.part part).running = some n ∧ (t.part part).halting = false ∧ (t.part part).sliceAt = s.wall ∧ t.mem = s.mem ∧
        ∀ j g m, s.forme? j = some g → g.place = .halted → s.launch? g.lid = some m → m.ctx = n → ∃ g', t.forme? j = some g' ∧ g'.place = (if g.moved = {} then .placed else .saved) ∧ g'.galley = g.galley)))

/-- R332 to R339: doorbells, and the packets of a queue as they are fetched, parsed and retired. -/
def Obligations.QueueEvents : Prop := ∀ (s : State) (ctx slot : Nat) (q : Queue) (p : Packet) (bs : List Byte),
  let sc := s.ctxScene ctx
  let gone := fun (i : Instr) => Does s i (fun t => ∃ q', t.queue? ctx slot = some q' ∧ ∀ x ∈ q'.packets, x.idx ≠ p.idx)
  let accepted := fun (t : State) (u : Unit_) => ∃ q' x, t.queue? ctx slot = some q' ∧ x ∈ q'.packets ∧ x.idx = p.idx ∧ x.state = .accepted ∧ x.work = some u
  (∀ v : W64, s.queue? ctx slot = some q → q.en = true → s.dvsec.ready = true →
    (q.db ≤ v.toNat → v.toNat ≤ q.readIndex + 2 ^ q.logn → Does s (.db ctx slot v) (fun t => t.queue? ctx slot = some { q with db := v.toNat })) ∧
    (v.toNat < q.db ∨ q.readIndex + 2 ^ q.logn < v.toNat → Does s (.db ctx slot v) (fun t => t.queue? ctx slot = some { q with reason := 7 }))) ∧
  (s.failing = [] → s.queue? ctx slot = some q → q.en = true → q.fetch < q.db → q.fetch < q.parse + 64 → (∀ x ∈ q.packets, x.idx < q.fetch) →
    (s.fetchVa sc q.wait (q.ring + 256 * (q.fetch % 2 ^ q.logn)) 256 = .ok bs →
      Does s (.packetFetch ctx slot) (fun t => ∃ q', t.queue? ctx slot = some q' ∧ q'.fetch = q.fetch + 1 ∧
        (packetBad bs = none → packetField bs 0 1 ≠ 7 → packetField bs 1 1 / 2 % 4 = 0 → ∃ x ∈ q'.packets, x.idx = q.fetch ∧ x.bytes = bs ∧ x.bad = none ∧ x.state = .fetched))) ∧
    (∀ m, s.fetchVa sc q.wait (q.ring + 256 * (q.fetch % 2 ^ q.logn)) 256 = .missing m →
      Does s (.packetFetch ctx slot) (fun t => t.queue? ctx slot = some { q with wait := s.granulesOf q.wait m }))) ∧
  (s.turnOf ctx slot 1 = some (q, p) → gone (.packetNop ctx slot)) ∧
  (s.turnOf ctx slot 6 = some (q, p) → gone (.packetSignal ctx slot)) ∧
  (∀ w pa, s.plainAt (.pa pa) 8 → s.dvsec.viral = false → s.Canonical →
    let old := s.readNat pa 8; let now := (s.statusAt w pa).readNat pa 8
    (∀ v, w.what = .add v → now = (old + v.toNat) % 2 ^ 64) ∧ (∀ v, w.what = .max v → now = max old v.toNat) ∧ (∀ v : W64, w.what = .bytes (bytesOfNat 8 v.toNat) → now = v.toNat)) ∧
  (s.failing = [] → ∀ i st, (i = .packetFence ctx slot ∧ st = .fetched) ∨ (i = .fencePacketPoll ctx slot ∧ st = .parsing) → s.turnOf ctx slot 5 = some (q, p) → p.state = st →
    p.latched.Nodup → (∀ j ∈ p.latched, j < packetField p.bytes 0x10 1) →
    let n := packetField p.bytes 0x10 1
    let read := fun (j : Nat) => s.fetchVa sc p.wait (fenceEntry p.bytes j).1 8
    let holds := fun (j : Nat) => j ∈ p.latched ∨ ∃ b, read j = .ok b ∧ compare (fenceEntry p.bytes j).2.1 (BitVec.ofNat 64 (natOfBytes b)) (fenceEntry p.bytes j).2.2 = true
    ((∀ j < n, holds j) → gone i) ∧
    ((∃ j < n, j ∉ p.latched ∧ ∃ c, read j = .failed c) → gone i) ∧
    ((∀ j < n, j ∉ p.latched → ∃ b, read j = .ok b) → (∃ j < n, ¬ holds j) →
      Does s i (fun t => ∃ q' x, t.queue? ctx slot = some q' ∧ x ∈ q'.packets ∧ x.idx = p.idx ∧ x.state = .parsing ∧ ∀ j < n, j ∈ x.latched ↔ holds j))) ∧
  (s.failing = [] → s.turnOf ctx slot 2 = some (q, p) → let r := s.readRecord sc p.wait (packetField p.bytes 0x10 8)
    (∀ x, r = .ok x → Does s (.packetLaunch ctx slot) (fun t => accepted t (.launch s.nextId) ∧ ∃ l ∈ t.launches, l.lid = s.nextId ∧ l.record = x ∧ l.ctx = ctx ∧ l.key = p.key ∧
      l.prio = min x.prio q.prio ∧ l.queue = some slot ∧ l.packet = some p.idx ∧ l.next = 0 ∧ l.block.addr = some x.done ∧ l.block.total = x.gx * x.gy * x.gz)) ∧
    (r = .misaligned ∨ r = .unreadable ∨ (∃ d n, r = .rejected d n) → gone (.packetLaunch ctx slot))) ∧
  (s.failing = [] → s.turnOf ctx slot 3 = some (q, p) → let r := s.readGraph sc p.wait (packetField p.bytes 0x10 8)
    (∀ d ns, r = .ok d ns → Does s (.packetGraph ctx slot) (fun t => accepted t (.graph s.nextId) ∧ ∃ g ∈ t.graphs, g.gid = s.nextId ∧ g.ctx = ctx ∧ g.key = p.key ∧ g.prio = q.prio ∧
      g.block.addr = some d ∧ g.block.total = ns.length ∧ g.nodes = ns.map fun n => { record := n.1, deps := n.2 })) ∧
    (r = .unreadable ∨ (∃ d n k, r = .bad d n k) → gone (.packetGraph ctx slot))) ∧
  (s.failing = [] → s.turnOf ctx slot 4 = some (q, p) → s.fetchVa sc p.wait (packetField p.bytes 0x10 8) 64 = .ok bs →
    let f := packetField bs
    ∀ ps, f 0x0C 4 = 0 → zeroFrom bs 0x18 40 = true → f 0 8 % 32 = 0 → f 0x10 8 % 32 = 0 → 1 ≤ f 8 4 → f 8 4 ≤ 65535 → s.fetchVa sc p.wait (f 0 8) (32 * f 8 4) = .ok ps →
    (∀ k < f 8 4, (phaseEntry ((ps.drop (32 * k)).take 32)).2 = true) →
    Does s (.packetJob ctx slot) (fun t => accepted t (.job s.nextId) ∧ ∃ j ∈ t.jobs, j.jid = s.nextId ∧ j.ctx = ctx ∧ j.key = p.key ∧ j.prio = q.prio ∧ j.cur = 0 ∧
      j.phases.length = f 8 4 ∧ j.block.addr = some (f 0x10 8) ∧ j.block.total = f 8 4))

/-- R340 to R343: a ready node is accepted or completes, a phase's communication begins, and its barrier ends it. -/
def Obligations.GraphsAndJobs : Prop := ∀ (s : State) (gid k jid : Nat) (g : Graph) (n : Node) (j : Job) (p : Phase),
  (s.failing = [] → s.graph? gid = some g → g.nodes[k]? = some n → g.ready k = true → g.block.status = 0 → (∀ i < k, g.ready i = false) →
    let sc := s.ctxScene g.ctx
    let node := fun (P : State → Node → Prop) => Does s (.graphNodeReady gid k) (fun t => ∃ g' n', t.graph? gid = some g' ∧ g'.nodes[k]? = some n' ∧ P t n')
    (n.record = 0 → node (fun _ n' => n'.status = 1)) ∧
    (∀ r, n.record ≠ 0 → s.readRecord sc n.wait n.record = .ok r → node (fun t n' => n'.lid = some s.nextId ∧ n'.status = 0 ∧ ∃ l ∈ t.launches, l.lid = s.nextId ∧ l.record = r ∧
      l.gid = some gid ∧ l.ctx = g.ctx ∧ l.key = g.key ∧ l.prio = min r.prio g.prio ∧ l.next = 0)) ∧
    (n.record ≠ 0 → (let r := s.readRecord sc n.wait n.record; r = .misaligned ∨ r = .unreadable ∨ ∃ d m, r = .rejected d m) → node (fun _ n' => n'.status = 4))) ∧
  (s.failing = [] → s.job? jid = some j → j.phases[j.cur]? = some p → j.block.status = 0 → p.ended = false →
    (p.commBegun = false → p.compBegun = true → s.graphsQuiet [p.compG] = true →
      (p.comm = 0 ∨ p.cancel = true ∨ j.cancel = true → Does s (.phaseCommStep jid) (fun t => t.mem = s.mem ∧ ∃ j', t.job? jid = some j' ∧ j'.phases[j.cur]? = some { p with commBegun := true })) ∧
      (∀ d ns, p.comm ≠ 0 → p.cancel = false → j.cancel = false → 0 < s.nextId → s.readGraph (s.ctxScene j.ctx) p.wait p.comm = .ok d ns →
        Does s (.phaseCommStep jid) (fun t => ∃ j' p', t.job? jid = some j' ∧ j'.phases[j.cur]? = some p' ∧ p'.commBegun = true ∧ p'.commG = some s.nextId ∧
          ∃ g ∈ t.graphs, g.gid = s.nextId ∧ g.jid = some jid ∧ g.nodes = ns.map fun n => { record := n.1, deps := n.2 }))) ∧
    (p.commBegun = true → s.graphsQuiet [p.compG, p.commG] = true → s.jobQuiet jid = true →
      let b := s.phaseBlock j p
      let rest := j.phases.length - (j.cur + 1)
      let never := p.cancel = true ∧ p.compG = none ∧ p.rejected = 0
      (b.status = 1 → s.carriedBad j = [] → rest ≠ 0 → Does s (.phaseBarrier jid) (fun t => (∃ j', t.job? jid = some j' ∧ j'.cur = j.cur + 1 ∧ j'.block.done = j.block.done + 1) ∧
        ∀ x ∈ s.phaseWaiters jid, ∀ pid, s.party? pid = some x → ∃ y, t.party? pid = some y ∧ y.wait = .none)) ∧
      (b.status = 1 → s.carriedBad j = [] → j.failed = false → rest = 0 → j.block.stop = 0 → j.block.wdr = 0 → j.block.done + 1 = j.block.total →
        Does s (.phaseBarrier jid) (fun t => ∃ j', t.job? jid = some j' ∧ j'.block.status = 1 ∧ j'.block.done = j.block.total)) ∧
      (b.status ≠ 1 ∨ s.carriedBad j ≠ [] → Does s (.phaseBarrier jid) (fun t => ∃ j', t.job? jid = some j' ∧ j'.block.done = j.block.done + (if b.status = 1 then 1 else 0) ∧
        j'.block.stop = j.block.stop + (if b.status ≠ 1 ∧ ¬ never then 1 else 0) ∧ j'.block.wdr = j.block.wdr + rest + (if b.status ≠ 1 ∧ never then 1 else 0)))))

/-- R12, R331, R383 and R397: a queue slot is enabled by its descriptor, disabled and killed, and plain registers keep their fields. That QCTL is ignored
while a kill is under way, and that a disable or kill of a queue that is not enabled ends at once, is the model's reading (log entry 72). -/
def Obligations.QueueControl : Prop := ∀ (s : State) (ctx slot : Nat) (q : Queue) (bs : List Byte),
  (s.failing = [] → s.queue? ctx slot = some q → slotOk ctx slot = true → (ctx = 0 ∨ s.vfEnable = true) → q.en = false → q.killing = false → q.qdesc.toNat % 64 = 0 → (s.ctx ctx).part.isSome = true →
    s.fetchVa (s.ctxScene ctx) (if q.opening then q.wait else []) q.qdesc.toNat 64 = .ok bs →
    let f := packetField bs
    (descSound bs = true → Does s (.qctlEnable ctx slot) (fun t => t.mem = s.mem ∧ ∃ q', t.queue? ctx slot = some q' ∧ q'.en = true ∧ q'.killed = false ∧ q'.refused = false ∧
      q'.db = 0 ∧ q'.parse = 0 ∧ q'.fetch = 0 ∧ q'.rdidx = 0 ∧ q'.ring = f 0 8 ∧ q'.logn = f 8 1 ∧ q'.prio = f 9 1 ∧ q'.rdAddr = f 0x10 8 ∧ q'.doneAddr = f 0x18 8 ∧ q'.logAddr = f 0x20 8) ∧
      4 ≤ f 8 1 ∧ f 8 1 ≤ 16 ∧ f 0 8 % 256 = 0) ∧
    (descSound bs = false → Does s (.qctlEnable ctx slot) (fun t => t.mem = s.mem ∧ ∃ q', t.queue? ctx slot = some q' ∧ q'.en = false ∧ q'.refused = true))) ∧
  (∀ i, i = .qctlDisable ctx slot ∨ i = .qctlKill ctx slot → slotOk ctx slot = true → (∀ x, s.queue? ctx slot = some x → x.killing = false) →
    Does s i (fun t => ∃ q', t.queue? ctx slot = some q' ∧ q'.en = false ∧ (q'.killing = true ∨ q'.killed = true) ∧ ∀ x ∈ q'.packets, x.state ≠ .fetched ∧ x.state ≠ .parsing) ∧
    (s.queue? ctx slot = some q → s.queueBusy ctx slot = false →
      Does s i (fun t => t.queue? ctx slot = some { q with en := false, opening := false, wait := [], killing := false, killed := true } ∧ t.mem = s.mem))) ∧
  (∀ v : W64,
    (∀ k, Does s (.registerWrite (.mbArg k) v) (fun t => t.mailbox = { s.mailbox with args := s.mailbox.args.set k.val v } ∧ t.mem = s.mem)) ∧
    (slotOk ctx slot = true → Does s (.registerWrite (.qdesc ctx slot) v) (fun t => t.mem = s.mem ∧ ∃ q', t.queue? ctx slot = some q' ∧ q'.qdesc = v)) ∧
    (∀ k, k.val < s.parts.length → Does s (.registerWrite (.audctl k) v) (fun t => t.part k.val = { s.part k.val with audctl := v &&& 0x9F01 } ∧ t.mem = s.mem)) ∧
    Does s (.registerWrite .config v) (fun t => t.mem = s.mem ∧ t.dvsec.config = v.setWidth 32 &&& (if s.fit = .f2 then 0x0000000F else 0x000FF00F)))

/-! The mailbox (R314, R315, R373 to R377, R387, R388, R394, R397). -/

/-- R373: a command is ignored while another runs, ends with RESULT 3 before READY, and with RESULT 1 where it is none or an argument that it does
not use is not 0. -/
def Obligations.MailboxRules : Prop := ∀ (s : State),
  (∀ v : W64, s.mailbox.done = false → exec (.registerWrite .mbCmd v) s = .next s) ∧
  (∀ (v : W64) (x : Instr × Nat × Nat), x ∈ mailboxCommands → v.toNat % 256 = x.2.1 → s.mailbox.done = true →
    exec (.registerWrite .mbCmd v) s = .next { s with inbox := x.1 :: s.inbox }) ∧
  (∀ v : W64, v.toNat % 256 = 0 ∨ 15 < v.toNat % 256 →
    (s.mailbox.done = true → ∀ r, r = (if s.dvsec.ready = true then 1 else 3) →
      Does s (.registerWrite .mbCmd v) (fun t => t.mailbox = { s.mailbox with result := r } ∧ Msg.mailboxDone r ∈ t.out ∧ t.mem = s.mem))) ∧
  ∀ x ∈ mailboxCommands,
  (s.mailbox.done = false → s.mailbox.cmd ≠ x.2.1 ∨ s.mailbox.wait = [] → exec x.1 s = .next s) ∧
  (s.mailbox.done = true → s.dvsec.ready = false → Answers s x.1 3 (fun t => t.mem = s.mem ∧ t.parts = s.parts ∧ t.ctxs = s.ctxs ∧ t.frames = s.frames)) ∧
  (s.mailbox.done = true → s.dvsec.ready = true → (∃ v ∈ s.mailbox.args.drop x.2.2, v ≠ 0) →
    Answers s x.1 1 (fun t => t.mem = s.mem ∧ t.parts = s.parts ∧ t.ctxs = s.ctxs ∧ t.frames = s.frames))

/-- R374, R376, R377, R387, R388, R394 and R397: partitions, contexts, frames, pre-emption, kills and standings are set through the mailbox. That a
command keeps the arguments that it found is the model's reading (log entry 79). -/
def Obligations.MailboxPartitions : Prop := ∀ (s : State),
  let a := s.mbArg
  (let part := bits (a 0) 0 4; let die := bits (a 0) 8 1
   let q := { quotaOf (a 1) (a 2) with ring := a 3, ringBytes := a 4, ringQuota := a 5, save := a 6, saveBytes := a 7 }
   s.mbFree 8 → a 0 = part + 2 ^ 8 * die → die < s.fit.dies → quotaSound (a 1) (a 2) = true → a 3 % 2 ^ 16 = 0 → a 4 % 2 ^ 16 = 0 → a 5 ≤ a 4 → a 6 % 2 ^ 16 = 0 →
   s.deviceRange (a 3) (a 4) = true → s.deviceRange (a 6) (a 7) = true →
   (s.overQuota part die q = true → Answers s .partSet 2 (fun t => t.parts = s.parts)) ∧
   (s.overQuota part die q = false → s.shrinks part die q = true → Answers s .partSet 3 (fun t => t.parts = s.parts)) ∧
   (s.overQuota part die q = false → s.shrinks part die q = false → part < s.parts.length →
     Answers s .partSet 0 (fun t => t.mem = s.mem ∧ (t.part part).set = true ∧ (t.part part).quota die = q ∧ (∀ j, j ≠ part → t.part j = s.part j) ∧
       ∀ f ∈ framesOf (a 3) (a 4) ++ framesOf (a 6) (a 7), t.frameOwner (f * 2 ^ 16) = some none))) ∧
  (let c := bits (a 0) 0 6; let p := bits (a 0) 8 4
   s.mbFree 7 → a 0 = c + 2 ^ 8 * p → a 1 < 2 ^ 32 → a 2 < 2 ^ 20 → a 3 ≤ 2 ^ 20 → a 4 ≤ 65535 → a 5 % 4096 = 0 → a 6 % 4096 = 0 → 8192 ≤ a 6 → s.vfOff c = false →
   (s.ctxBusy c = true → Answers s .ctxBind 3 (fun t => t.ctxs = s.ctxs)) ∧
   (s.ctxBusy c = false → c < s.ctxs.length → Answers s .ctxBind 0 (fun t => (t.ctx c).part = some p ∧ (t.ctx c).tenant = BitVec.ofNat 32 (a 1) ∧ (t.ctx c).pasid = BitVec.ofNat 20 (a 2) ∧
     (t.ctx c).slice = a 3 ∧ (t.ctx c).haltBound = a 4 ∧ (t.ctx c).logBase = a 5 ∧ (t.ctx c).logBytes = a 6 ∧ (t.ctx c).counters = List.replicate 23 0))) ∧
  (let c := a 0
   s.mbFree 1 → c < 64 → s.vfOff c = false →
   (s.ctxBusy c = true → Answers s .ctxUnbind 3 (fun t => t.ctxs = s.ctxs)) ∧
   (s.ctxBusy c = false → c < s.ctxs.length → Answers s .ctxUnbind 0 (fun t => (t.ctx c).part = none ∧ (t.ctx c).tenant = 0 ∧ t.mem = s.mem ∧ (∀ e ∈ t.tlb, e.ctx ≠ c) ∧
     ∀ p ∈ t.parts, p.running ≠ some c))) ∧
  (let base := a 0; let n := a 1
   base % 2 ^ 16 = 0 → 0 < n → s.ownMem (base + n * 2 ^ 16 - 1) = true →
   (s.mbFree 3 → a 2 < 2 ^ 32 →
     ((∀ k < n, s.frameOwner (base + k * 2 ^ 16) = none) → Answers s .fassign 0 (fun t => t.mem = s.mem ∧ ∀ k < n, t.frameOwner (base + k * 2 ^ 16) = some (some (BitVec.ofNat 32 (a 2))))) ∧
     ((∃ k < n, s.frameOwner (base + k * 2 ^ 16) ≠ none) → Answers s .fassign 3 (fun t => t.frames = s.frames))) ∧
   (s.mbFree 2 →
     (∀ w, (∀ k < n, s.frameOwner (base + k * 2 ^ 16) = some (some w)) → (∀ m ∈ s.moves, m.switched = true) →
       Answers s .frelease 0 (fun t => (∀ k < n, t.frameOwner (base + k * 2 ^ 16) = none) ∧
         (∀ x, memGet t.mem x = if base ≤ x ∧ x < base + n * 2 ^ 16 then 0 else memGet s.mem x) ∧ ∀ e ∈ t.tlb, ¬ (e.pa < base + n * 2 ^ 16 ∧ base < e.pa + e.size))) ∧
     ((∀ w, s.frameOwner base ≠ some (some w)) → Answers s .frelease 4 (fun t => t.frames = s.frames ∧ t.mem = s.mem)))) ∧
  (s.mbFree 3 → a 0 < 64 → s.vfOff (a 0) = false →
   let named := fun (f : Forme) => f.place = .placed ∧ ∃ l, s.launch? f.lid = some l ∧ l.ctx = a 0 ∧ (a 1 = 0 ∨ l.record.tag.toNat = a 1)
   Does s .preempt (fun t => t.mem = s.mem ∧ ∀ f ∈ s.formes, named f → ∀ g, t.forme? f.fid = some g → g.leave.isSome = true ∨ g.place ≠ .placed) ∧
   ((∀ f ∈ s.formes, ¬ named f ∧ f.leave = none) → Answers s .preempt 0 (fun t => t.formes = s.formes))) ∧
  (∀ c k, s.mbFree 1 → a 0 = c + 2 ^ 8 * k → c < 64 → k < 64 → slotOk c k = true → s.vfOff c = false → (∀ x, s.queue? c k = some x → x.killing = false) →
   Does s .killq (fun t => ∃ q, t.queue? c k = some q ∧ q.en = false ∧ (q.killing = true ∨ q.killed = true)) ∧
   (s.queueBusy c k = false → Answers s .killq 0 (fun t => ∃ q, t.queue? c k = some q ∧ q.killed = true))) ∧
  (s.mbFree 2 → a 0 < 16 → a 1 ≤ 16 → a 0 < s.parts.length → Answers s .standset 0 (fun t => t.part (a 0) = { s.part (a 0) with sigma := a 1, hits := 0, records := 0 } ∧ t.mem = s.mem))

/-- R300, R314, R315 and R375: signers, templates, task contexts, and the handshake of a session on both sides. That a handle is any value that no open
session has is the model's reading (log entry 80). -/
def Obligations.MailboxSessions : Prop := ∀ (s : State),
  let a := s.mbArg
  let T := BitVec.ofNat 32 (a 0)
  let read := fun (va n : Nat) => s.fetchVa (s.ctxScene 0) [] va n
  (s.failing = [] → s.fit = .m1 → a 0 < 2 ^ 32 →
    (s.mbFree 2 →
      (a 1 = 0 → Answers s .signerSet 0 (fun t => t.signer? T = none ∧ ∀ x, x ≠ T → t.signer? x = s.signer? x)) ∧
      (∀ bs, a 1 ≠ 0 → read (a 1) 1952 = .ok bs → Answers s .signerSet 0 (fun t => t.signer? T = some bs ∧ ∀ x, x ≠ T → t.signer? x = s.signer? x)) ∧
      (∀ d, read (a 1) 32 = .ok d →
        ((∃ x ∈ s.templates, x.digest = d ∧ T ∈ x.tenants) → Answers s .tmplDrop 0 (fun t => ∀ x ∈ t.templates, x.digest = d → T ∉ x.tenants)) ∧
        ((∀ x ∈ s.templates, x.digest = d → T ∉ x.tenants) → Answers s .tmplDrop 4 (fun t => t.templates = s.templates))) ∧
      (let c := bits (a 1) 0 6
       (a 1 = c → Answers s .taskctx 0 (fun t => ∀ x ∈ t.taskCtxs, x.1 ≠ T)) ∧
       (a 1 = c + 2 ^ 8 → s.vfOff c = false → (s.ctx c).part.isSome = true → (s.ctx c).tenant = T → Answers s .taskctx 0 (fun t => t.taskCtxs.find? (fun y => y.1 = T) = some (T, c))))) ∧
    (let n := a 2
     s.mbFree 5 → 256 ≤ n → n ≤ 2 ^ 20 → n % 8 = 0 →
     (s.signer? T = none → Answers s .tmplReg 4 (fun t => t.templates = s.templates)) ∧
     (∀ key im sg, s.signer? T = some key → read (a 1) n = .ok im → read (a 3) 3309 = .ok sg →
       (Config.mlDsaVerify key im sg = false → Answers s .tmplReg 6 (fun t => t.templates = s.templates)) ∧
       (Config.mlDsaVerify key im sg = true → imageSound im = true → s.templates.length < 256 → s.translateRange (.ctx 0) [] (a 4) 32 .w = .ok →
         Answers s .tmplReg 0 (fun t => ∃ x ∈ t.templates, x.digest = Config.shake256 im 32 ∧ T ∈ x.tenants ∧ (x.image = im ∨ x.digest ∈ s.templates.map (·.digest))))))) ∧
  (s.failing = [] → s.fit = .f2 → s.mbFree 3 → a 0 < 64 → a 1 < 2 ^ 12 → a 2 % 64 = 0 → s.vfOff (a 0) = false → (s.ctx (a 0)).part.isSome = true → s.mailbox.session = none → s.sessions.length < 1024 →
    ∀ bs, read (a 2) 64 = .ok bs →
    let es := (upFrom 0 4).filterMap fun k => regionEntry ((bs.drop (16 * k)).take 16)
    es ≠ [] → (∀ e ∈ es, e.2 = true ∧ s.regionOk (s.ctx (a 0)).tenant e.1 = true) →
    Does s .sessOpen (fun t => ∃ r, t.mailbox.session = some r ∧ t.mailbox.done = false ∧ t.mailbox.cmd = 14 ∧ r.pid = s.pid ∧ r.tenant = (s.ctx (a 0)).tenant ∧ r.regions = es.map (·.1) ∧
      Msg.sessRequest (BitVec.ofNat 12 (a 1)) r ∈ t.out)) ∧
  (∀ r : SessReq, s.fit = .m1 → s.dvsec.ready = true →
    let vouched := ∃ k, Config.certifiedKey r.cert = some k ∧ Config.mlDsaVerify k (requestText r) r.sig = true
    (¬ vouched → Does s (.sessRequest (.request r)) (fun t => t.sessions = s.sessions ∧ ∃ x, Msg.sessAnswer r.pid x ∈ t.out ∧ x.refused = 6)) ∧
    (vouched → (∃ e ∈ s.extents, e.own = true ∧ e.tenant = r.tenant ∧ r.pid ∈ e.pids) → s.sessions.length < 4096 →
      Does s (.sessRequest (.request r)) (fun t => ∃ x y, t.sessions = s.sessions ++ [y] ∧ y.peer = r.pid ∧ y.tenant = r.tenant ∧ y.regions = r.regions ∧ y.next = 1 ∧ y.seen = [] ∧
        (∀ z ∈ s.sessions, z.handle ≠ y.handle) ∧ Msg.sessAnswer r.pid x ∈ t.out ∧ x.refused = 0 ∧ x.handle = y.handle ∧ y.key = sessionKey r x))) ∧
  (∀ (r : SessAns) q, s.mailbox.session = some q →
    let vouched := ∃ k, Config.certifiedKey r.cert = some k ∧ Config.mlDsaVerify k (answerText q r) r.sig = true
    let late := s.mailbox.askedAt + 10 ^ 14 ≤ s.wall
    (late → exec (.sessAnswer r) s = .next s ∧ Answers s .sessOpenTimeout 5 (fun t => t.mailbox.session = none ∧ t.sessions = s.sessions)) ∧
    (¬ late → exec .sessOpenTimeout s = .next s) ∧
    (¬ late → ¬ vouched → Answers s (.sessAnswer r) 6 (fun t => t.sessions = s.sessions)) ∧
    (¬ late → vouched → r.refused ≠ 0 → Answers s (.sessAnswer r) (if r.refused = 2 then 2 else 6) (fun t => t.sessions = s.sessions)) ∧
    (¬ late → vouched → r.refused = 0 → s.mailbox.args.length = 8 → Answers s (.sessAnswer r) 0 (fun t => t.mailbox.args.getD 0 0 = r.handle ∧
      ∃ y, t.sessions = s.sessions ++ [y] ∧ y.handle = r.handle ∧ y.tenant = q.tenant ∧ y.regions = q.regions ∧ y.key = sessionKey q r))) ∧
  (s.mbFree 1 → let h := BitVec.ofNat 64 (a 0)
    (∀ x, s.sessions.find? (fun y => y.handle = h) = some x → Answers s .sessClose 0 (fun t => (∀ y ∈ t.sessions, y.handle ≠ h) ∧ Msg.sessClosed x.peer h ∈ t.out)) ∧
    ((∀ y ∈ s.sessions, y.handle ≠ h) → Answers s .sessClose 4 (fun t => t.sessions = s.sessions))) ∧
  (∀ peer h, Does s (.sessRequest (.closed peer h)) (fun t => t.mem = s.mem ∧ t.mailbox = s.mailbox ∧ ∀ y, y ∈ t.sessions ↔ y ∈ s.sessions ∧ ¬ (y.peer = peer ∧ y.handle = h))) ∧
  (∀ k p kind, s.ports[k]? = some p → p.up = true → Does s (.spdmRequest k kind) (fun t => t.mem = s.mem ∧ ∃ rep, Msg.spdm k rep ∈ t.out ∧ (kind = .certificates → rep = Config.deviceCertificate)))

/-! The fabric (R298 to R319, R410 to R420). -/

/-- R308 to R310 and R374: a home move opens its window, copies its lines, and ends by its switch or by an abort. -/
def Obligations.HomeMoves : Prop := ∀ (s : State) (old new : Nat) (tenant : W32) (code : Nat) (m : Move),
  let asked := s.mailbox.cmd = 6 ∧ s.mailbox.done = false ∧ s.mbArg 0 = old
  (let n := moveSize code
   s.mbFree 4 → s.mbArg 0 = old → s.mbArg 1 = new → s.mbArg 2 = code → s.mbArg 3 = tenant.toNat → code ≤ 2 → old % n = 0 → new % n = 0 → old ≠ new → s.isHome old = true →
   s.tenantHolds tenant old n = true → s.tenantHolds tenant new n = true → (∀ x ∈ s.moves, x.switched = true) →
   Does s .hmove (fun t => t.mailbox.cmd = 6 ∧ t.mailbox.done = false ∧ t.mailbox.args = s.mailbox.args ∧ t.moves = s.moves ∧ t.mem = s.mem)) ∧
  (asked → s.mbArg 1 = new → s.mbArg 2 = code → s.mbArg 3 = tenant.toNat → (∀ x ∈ s.moves, x.old = old → x.switched = true) →
   Does s (.hmopen old new code tenant) (fun t => t.mem = s.mem ∧ Msg.homeMove 1 old new ∈ t.out ∧
     t.moves = s.moves ++ [{ old := old, new := new, size := if code = 0 then 2 ^ 16 else if code = 1 then 2 ^ 21 else 2 ^ 30 }])) ∧
  (s.isHome old = false → s.isHome new = true → ¬ (s.mailbox.cmd = 6 ∧ s.mailbox.done = false) → (∀ x ∈ s.moves, x.switched = true) →
    (s.tenantHolds tenant new (moveSize code) = true → new % moveSize code = 0 →
      Does s (.hmopen old new code tenant) (fun t => t.mem = s.mem ∧ t.moves = s.moves ++ [{ old := old, new := new, size := moveSize code, taken := true }])) ∧
    (s.tenantHolds tenant new (moveSize code) = false → Does s (.hmopen old new code tenant) (fun t => t.mem = s.mem ∧ t.moves = s.moves ∧ Msg.homeMove 3 old new ∈ t.out))) ∧
  (s.moves.find? (fun x => x.old = old && !x.switched) = some m → s.dvsec.viral = false →
    (∀ line, s.failing = [] → m.taken = false → s.moveOf old false = some m →
      line % 128 = 0 → line < m.size → s.Canonical → Does s (.lineCopy old (.copy line)) (fun t => s.memWritten t (m.new + line) (memGetN s.mem (old + line) 128) ∧
      ∃ y ∈ t.moves, y.old = old ∧ y.new = m.new ∧ y.switched = false ∧ line ∈ y.valid ∧ ∀ x ∈ m.valid, x ∈ y.valid)) ∧
    (∀ line bs bad, s.moveOf old true = some m → line % 128 = 0 → line < m.size → m.size % 128 = 0 → bs.length = 128 → s.bulk = [] →
      (∀ k < 128, s.mirror (m.new + line + k) = none) → s.Canonical → Does s (.lineCopy old (.sent line bs bad)) (fun t => s.memWritten t (m.new + line) bs ∧
        ∃ y ∈ t.moves, y.old = old ∧ y.new = m.new ∧ y.taken = true ∧ line ∈ y.valid)) ∧
    (m.size / 128 ≤ m.valid.length → Does s (.hmswitch old) (fun t => (∃ y ∈ t.moves, y.old = old ∧ y.new = m.new ∧ y.size = m.size ∧ y.switched = true) ∧
      (∀ y ∈ t.moves, y.old = old → y.switched = true) ∧ (m.taken = false → Msg.homeMove 2 old m.new ∈ t.out) ∧ (asked → t.mailbox.done = true ∧ t.mailbox.result = 0)))) ∧
  (s.moves.find? (fun x => x.old = old && !x.switched) = some m →
    Does s (.hmabort old) (fun t => (∀ y, y ∈ t.moves ↔ y ∈ s.moves ∧ (y.old = old → y.switched = true)) ∧ (m.taken = false → Msg.homeMove 3 old m.new ∈ t.out) ∧
      (∀ x, memGet t.mem x = if s.isHome m.new = true ∧ m.new ≤ x ∧ x < m.new + m.size then 0 else memGet s.mem x) ∧ (asked → t.mailbox.done = true ∧ t.mailbox.result = 5)))

/-- R299, R301 to R305, R312, R313 and R316 to R318: extents, requests to them, snoops, pages of the dense tier and task packets. -/
def Obligations.FabricEvents : Prop := ∀ (s : State) (base addr : Nat),
  (∀ (tag : BitVec 128) pids, let t := tag.toNat
    let good := t / 2 ^ 64 = 0 ∧ t / 2 ^ 3 % 2 ^ 13 = 0 ∧ t % 4 ≤ 1 ∧ base % 2 ^ 29 = 0 ∧ s.extentOf base = none ∧
      (if s.fit = .m1 then fabricBase ≤ base ∧ base < fabricBase + 2 ^ 45 else inWindow base = true ∧ (pids = [] → t % 2 = 0))
    let e : Extent := { base := base, tenant := tag.extractLsb' 32 32, gen := t / 2 ^ 16 % 2 ^ 16, resid := tag.getLsbD 2, bulk := tag.getLsbD 0, pids := pids, own := s.fit = .m1 }
    (good → (s.fit = .m1 → s.extents.length < 65536) → Does s (.extentAdd base tag pids) (fun t => t.extents = s.extents ++ [e] ∧ t.mem = s.mem)) ∧
    (¬ good → Does s (.extentAdd base tag pids) (fun t => t.extents = s.extents ∧ t.mem = s.mem ∧ (s.fit = .m1 → Msg.extentRefused base ∈ t.out)))) ∧
  (∀ i e, i = .extentRelease base ∨ (i = .extentGoneNotice base ∧ e.own = false) → s.extents.find? (fun x => x.base = base) = some e → Does s i (fun t => (∀ x ∈ t.extents, x.base ≠ base) ∧
    (e.own = true → ∀ x, base ≤ x → x < base + 2 ^ 29 → memGet t.mem x = 0))) ∧
  (∀ r : CxlReq, s.fit = .m1 → s.dvsec.ready = true → s.dvsec.viral = false →
    (s.extentOf r.addr = none ∨ (∃ e, s.extentOf r.addr = some e ∧ (e.tenant ≠ r.tenant ∨ r.pid ∉ e.pids)) →
      Does s (.cxlMemRequest r) (fun t => t.mem = s.mem ∧ Msg.cxlReply r.pid r.addr [] (some .extentGone) ∈ t.out)) ∧
    (∀ e, s.extentOf r.addr = some e → e.tenant = r.tenant → r.pid ∈ e.pids → e.own = true → s.moved r.addr = r.addr → s.mirror (lineOf r.addr) = none → s.failing = [] → s.bulk = [] → s.Canonical →
      let line := lineOf r.addr
      (s.snoops.find? (fun x => x.line = line) = none → (s.snoops.filter fun x => snoopSet x.line = snoopSet line).length < 16 →
        (r.kind = .readShared ∨ r.kind = .readOwned → s.poisoned line 128 = false → Does s (.cxlMemRequest r) (fun t => t.mem = s.mem ∧ Msg.cxlReply r.pid line (memGetN s.mem line 128) none ∈ t.out ∧
          (e.bulk = false → ∃ y ∈ t.snoops, y.line = line ∧ y.holders = [r.pid] ∧ y.excl = decide (r.kind = .readOwned))))) ∧
      (∀ off data bad, r.kind = .write off data bad → off + data.length ≤ 128 → s.snoops.find? (fun x => x.line = line) = none → (∀ k < 128, s.mirror (line + k) = none) →
        Does s (.cxlMemRequest r) (fun t => s.memWritten t (line + off) data ∧ Msg.cxlReply r.pid (line + off) [] none ∈ t.out)))) ∧
  (s.fit = .f2 → let line := lineOf addr
    let given := fun (t : State) => (∀ x ∈ t.unhomed, lineOf x.1 = line → x.2 ≠ s.readPa x.1 ∧ ∃ y ∈ s.unhomed, y.1 = x.1) ∧ ∃ d bad, Msg.snoopResponse line d bad ∈ t.out
    Does s (.bisnpinv ⟨addr, false⟩) (fun t => t.mem = s.mem ∧ line ∉ t.shared ∧ (∀ l ∈ t.lines, l.addr ≠ line) ∧ given t) ∧
    ((∀ x ∈ s.unhomed, lineOf x.1 ≠ line) → (∀ b ∈ s.bulk, b.addr ≠ line) → Does s (.bisnpinv ⟨addr, true⟩) (fun t => line ∉ t.shared ∧ (∀ l ∈ t.lines, l.addr ≠ line) ∧ (∀ x ∈ t.unhomed, lineOf x.1 ≠ line) ∧ Msg.snoopResponse line [] [] ∈ t.out)) ∧
    Does s (.bisnpdata addr) (fun t => t.mem = s.mem ∧ t.shared = s.shared ∧ (∀ l ∈ t.lines, l ∈ s.lines ∧ (l.addr = line → 34 ≤ l.cache)) ∧ (∀ l ∈ s.lines, l.addr ≠ line → l ∈ t.lines) ∧ given t) ∧
    (∀ data, Does s (.biconflict addr data) (fun t => t.mem = s.mem ∧ Msg.conflict line ∈ t.out ∧ (data = false → line ∉ t.shared) ∧ given t))) ∧
  (s.fit = .f2 → s.dvsec.ready = true →
    (∀ n, 0 < n → s.ownMem (addr + n - 1) = true → s.failing = [] → Does s (.hostUioAccess (.read addr n)) (fun t => t.mem = s.mem ∧
      Msg.hostReply ((s.movedRuns addr n).flatMap fun r => s.readPaN r.1 r.2) ∈ t.out ∧ (s.moves = [] → Msg.hostReply (s.readPaN addr n) ∈ t.out))) ∧
    (∀ bs, bs ≠ [] → s.ownMem (addr + bs.length - 1) = true → s.dvsec.viral = false → s.bulk = [] → s.moves = [] → s.Canonical → Does s (.hostUioAccess (.write addr bs)) (fun t => s.memWritten t addr bs))) ∧
  (∀ e lost, s.fit = .m1 → base % 2 ^ 16 = 0 → s.extentOf base = some e → e.own = true → base ∉ s.resident →
    Does s (.pageBringIn base lost) (fun t => t.mem = s.mem ∧ t.resident.head? = some base ∧ (∀ k ∈ lost, k < 2048 → base / 32 + k ∈ t.poison) ∧ ∀ x ∈ s.poison, x ∈ t.poison)) ∧
  (∀ src pk, s.fit = .m1 → s.dvsec.ready = true → s.dvsec.viral = false → pk.length = 256 → let seq := packetField pk 0x30 8
    (∀ k, s.packetCheck pk = .error k → Does s (.ndtPacketReceive src pk) (fun t => t.launches = s.launches ∧ t.mem = s.mem ∧ Msg.ndtDone src seq (some .taskTagFail) [] ∈ t.out ∧
      (k ≠ 3 → t.sessions = s.sessions))) ∧
    (∀ x tm c, s.packetCheck pk = .ok (x, tm, c) → Does s (.ndtPacketReceive src pk) (fun t => (∀ y ∈ t.sessions, y.handle = x.handle → seq ∈ y.seen ∧ seq ≤ y.high) ∧
      ((∃ l ∈ t.launches, l.lid = s.nextId ∧ l.ctx = c ∧ ∃ k, l.task = some k ∧ k.src = src ∧ k.op = seq) ∨ (t.launches = s.launches ∧ Msg.ndtDone src seq (some .accessViolation) [] ∈ t.out))) ∧
      1 ≤ seq ∧ x.high < seq + 1024 ∧ seq ∉ x.seen))

/-- R410 to R417: storage errors, viral state, lost expanders and proofing. What an error leaves of a sector is the model's reading (log entry 86), as is
which units a mismatch is charged to (log entry 89). -/
def Obligations.RecoveryEvents : Prop := ∀ (s : State) (a fid : Nat) (peer : BitVec 12),
  (exec (.softError .discardable true) s = .next s ∧ exec (.softError .discardable false) s = .next s) ∧
  (s.ownMem a = true ∨ (∃ e, s.extentOf a = some e ∧ e.own = true) →
    Does s (.softError (.dram a) true) (fun t => t.mem = s.mem ∧ a / 32 ∈ t.poison ∧ ∀ x ∈ s.poison, x ∈ t.poison) ∧
    Does s (.softError (.dram a) false) (fun t => t.mem = s.mem ∧ a / 32 ∈ t.failing ∧ t.poison = s.poison)) ∧
  (∀ f off, s.forme? fid = some f → off < 768 * 4096 → Does s (.softError (.scratchpad fid off) true) (fun t => ∃ g, t.forme? fid = some g ∧ off / 32 ∈ g.spoison ∧ g.scratch = f.scratch)) ∧
  (∀ f g r c, s.forme? fid = some f → g < 8 → r < 128 → c < 256 → Does s (.softError (.tile fid g r c) true) (fun t => ∃ k, t.forme? fid = some k ∧ tileKey g r c ∈ k.gpoison ∧ k.galley = f.galley)) ∧
  (peer ∉ s.viralPeers → Does s (.viralReceived peer) (fun t => t.viralPeers = peer :: s.viralPeers ∧ t.extents = s.extents)) ∧
  Does s (.linkReset peer) (fun t => peer ∉ t.viralPeers ∧ (∀ x, x ≠ peer → (x ∈ t.viralPeers ↔ x ∈ s.viralPeers)) ∧ t.mem = s.mem) ∧
  (s.dvsec.viral = false → Does s .deviceViral (fun t => t.dvsec.viral = true ∧ (∀ k < s.ports.length, Msg.viral k ∈ t.out) ∧
    ∀ l ∈ s.launches, l.block.status = 0 → ∀ m, t.launch? l.lid = some m → m.failed = true)) ∧
  (s.fit = .f2 → peer ∉ s.lostPeers → Does s (.expanderLost peer) (fun t => t.lostPeers = peer :: s.lostPeers ∧ t.extents = s.extents)) ∧
  (s.fit = .m1 → peer ∉ s.lostPeers → Does s (.expanderLost peer) (fun t => t.lostPeers = peer :: s.lostPeers ∧ t.extents = s.extents ∧
    ∀ m ∈ t.moves, m ∈ s.moves ∧ (m.switched = false → s.isHome m.new = false → fabricBase ≤ m.new → Config.pidOf m.new ≠ peer))) ∧
  (∀ (r : AuditReport) x, s.audits.find? (fun y => y.id = r.id) = some x → x.replays r.unit1 r.unit2 = true →
    (x.signature = r.sig1 → Does s (.auditReplayDone r) (fun t => t.mem = s.mem ∧ t.parties = s.parties ∧ t.bins = s.bins ∧ ∀ y ∈ t.audits, y.id ≠ r.id)) ∧
    (x.signature ≠ r.sig1 → r.sig1 = r.sig2 → s.unitOut x.unit = false → Does s (.auditReplayDone r) (fun t => t.unitOut x.unit = true ∧ (∀ y ∈ t.audits, y.id ≠ r.id) ∧
      ∀ pid p, x.pid = some pid → s.party? pid = some p → p.fid = x.fid → ∃ q, t.party? pid = some q ∧ ∃ y ∈ q.pending, y.code = .auditMismatch)) ∧
    (x.signature ≠ r.sig1 → x.signature = r.sig2 → s.unitOut r.unit1 = false → Does s (.auditReplayDone r) (fun t => t.unitOut r.unit1 = true)) ∧
    (x.signature ≠ r.sig1 → r.sig1 ≠ r.sig2 → x.signature ≠ r.sig2 → s.unitOut x.unit = false → s.unitOut r.unit1 = false →
      Does s (.auditReplayDone r) (fun t => t.unitOut x.unit = true ∧ t.unitOut r.unit1 = true))) ∧
  (∀ u b, s.bins.find? (fun x => x.unit = u) = some b → b.testing = true →
    Does s (.unitRetest u true) (fun t => t.bins.find? (fun x => x.unit = u) = some { b with testing := false } ∧ t.mem = s.mem) ∧
    Does s (.unitRetest u false) (fun t => ∀ n, b.bin = some n → t.bins.find? (fun x => x.unit = u) = some (if n < 3 then { unit := u, bin := some (n + 1), testing := true } else { unit := u, bin := none })))

/-- R18, R398, R418 to R420: start-up and its failures, the clock's steps of 100 MHz, and VF Enable. The clock between steps is the model's choice (log
entry 100). -/
def Obligations.StartUpAndClocks : Prop := ∀ (s : State) (r : StartReport),
  let vouched := Config.mlDsaVerify Config.yunaistKey r.firmware r.signature
  let fails := fun (k : Nat) => Does s (.startUp r) (fun t => t.dvsec.failed = true ∧ t.dvsec.fcode = k ∧ t.dvsec.stage = k ∧ t.dvsec.ready = false ∧ t.parties = [])
  (vouched = false → fails 1) ∧ (vouched = true → r.phyOk = false → fails 3) ∧ (vouched = true → r.phyOk = true → r.memOk = false → fails 4) ∧
  (let config := if r.powerOn then s.fit.config else s.dvsec.config
   vouched = true → r.phyOk = true → r.memOk = true → Does s (.startUp r) (fun t => t.dvsec.ready = true ∧ t.dvsec.failed = false ∧ t.dvsec.stage = 5 ∧ t.dvsec.config = config ∧
    t.dvsec.memActive = decide (s.fit = .m1) ∧ (∀ x, memGet t.mem x = 0) ∧ t.poison = [] ∧ t.parties = [] ∧ t.fit = s.fit ∧ t.pid = s.pid ∧ t.dvsec.bivsz = min 8 (config.toNat % 16) ∧
    t.dvsec.pcache = (if s.fit = .m1 then (let n := config.toNat / 2 ^ 12 % 2 ^ 8; if 1 ≤ n ∧ n ≤ 127 then n else 96) else 0))) ∧
  (∀ up, 900 ≤ s.clockMHz → s.clockMHz ≤ 1800 → Does s (.thermalClockStep up) (fun t => 900 ≤ t.clockMHz ∧ t.clockMHz ≤ 1800 ∧
    t.clockMHz = (if up then (if s.clockMHz < s.clockCap then min s.clockCap (s.clockMHz + 100) else s.clockMHz) else max 900 (s.clockMHz - 100)) ∧ t.mem = s.mem ∧ t.parties = s.parties ∧ t.homes = s.homes)) ∧
  (s.vfEnable = true → (∀ q ∈ s.queues, q.killing = false) → Does s .vfEnableClear (fun t => t.vfEnable = false ∧ (∀ e ∈ t.tlb, e.ctx = 0 ∨ 64 ≤ e.ctx) ∧
    ∀ q ∈ t.queues, 1 ≤ q.ctx → q.ctx < 64 → q.en = false)) ∧
  (s.vfEnable = false → (∀ f ∈ s.formes, ∀ l, s.launch? f.lid = some l → l.ctx = 0) → Does s .vfEnableSet (fun t => t.vfEnable = true ∧
    ((∀ w ∈ s.status, w.ctx = 0) → t.mem = s.mem ∧ t.ctx 0 = s.ctx 0) ∧ (∀ w ∈ t.status, w.ctx = 0) ∧
    (∀ k, 1 ≤ k → (t.ctx k).part = none) ∧ ∀ q ∈ t.queues, q.ctx = 0))

/-! The machine as a whole. -/

/-- R26, R39, R42, R45, R61, R66 and R404: where no lane is active a word has no effect but its last reads; a word that reads an unwritten temporary,
that reads a register too early under checking, or whose writes outgrow the commitment takes its trap before it has any effect; PREF and REUSE never do
(R263). That tinfo names the first such register where several come too early is the model's reading (log entry 49). -/
def Obligations.SharedChecks : Prop := ∀ (s : State) (a : Agent) (o : V2) (p : V3) (y : FmaTy) (e : Bool) (g : PF) (m : MF) (k : MA) (x : XF) (u : UF) (c : CD) (z : CX) (w : VW),
  s.agent = .ok a →
  (∀ r ∈ laneWords o p y e ++ activeWords o p g m k x u ++ partyWords c z u w m,
    let i := r.1
    let uses := usesOf a.l.record i
    (r.2 = true → a.p.active = 0 → a.p.stopped = false → ∃ t q, exec i s = .next t ∧ t.wentOn a i ∧ t.party? a.p.pid = some q ∧ a.p.SameRegs q ∧ t.mem = s.mem ∧ t.ops = s.ops ∧
      (∀ f, (t.forme? f).map (·.flags) = (s.forme? f).map (·.flags)) ∧
      ∀ n, n ∉ lastNames uses → ∀ j b, b < 64 → t.vLane a.p.fid a.p.hp n j b = a.h.lane n j b) ∧
    let checked := (∀ h, i ≠ .pref h ∧ i ≠ .reuse h) ∧ (r.2 = true → a.p.active ≠ 0)
    (checked → a.unset uses = true → EntersHere s a i .tempUnset none) ∧
    (checked → a.unset uses = false → a.l.record.chk = true → ∀ n, s.tooEarly a uses = some n → EntersHere s a i .stallShort (some n))) ∧
  (∀ i f, (i = .iadd o ∧ f = fun (v w : Int) => v + w) ∨ (i = .isub o ∧ f = fun v w => v - w) ∨ (i = .imul o ∧ f = fun v w => v * w) → Passes s a i (!o.d.isS) →
    a.overcommits (usesOf a.l.record i) (resultWrites o.d o.ty.regs o.ty.signed 0 (a.lanesFor o.d)
      (laneResults (a.lanesFor o.d) fun k => tyRes o.ty (f (s.opInt a o.ty o.a 0 k) (s.opInt a o.ty o.b 1 k)))) = true → EntersHere s a i .badCairn none)

/-- R62 to R81: words written out from the encodings decode to their instructions, and words that are none are refused by name. -/
def Obligations.DecodeWords : Prop :=
  let v (n : BitVec 8) : Src := ⟨.v n, 0, false⟩
  let u : UF := { stall := 0, d := .v 0, ua := 0, ub := 0, idx := 0, imm := 0 }
  decode [0x2000200001010000] = .ok (.iadd { stall := 0, dual := none, d := .v 2, a := v 0, b := ⟨.v 1, 0, true⟩, sub := 0, ty := .i32, rm := .rne, fs := 0, x := 0 }, []) ∧
  decode [0x2260500083040000] = .ok (.imul { stall := 3, dual := none, d := .v 5, a := v 0, b := ⟨.imm 3, 0, false⟩, sub := 0, ty := .i32, rm := .rne, fs := 0, x := 0 }, []) ∧
  decode [0x600030200200000D] = .ok (.ffma .f32 false { stall := 0, dual := none, d := .v 3, a := v 2, b := ⟨.v 2, 0, true⟩, c := ⟨.v 0, 0, true⟩, m := 1 }, []) ∧
  decode [0xF018000000000000, 0x5200200001010800] =
    .ok (.fmul { stall := 0, dual := some 3, d := .v 2, a := v 0, b := ⟨.v 1, 0, true⟩, sub := 0, ty := .f32, rm := .rne, fs := 0, x := 0 }, []) ∧
  decode [0x4312800000000001] = .ok (.movi { stall := 0, d := .s 40, imm := 1 }, []) ∧
  decode [0x03069FFFFFFFFFF4] = .ok (.brc { stall := 0, cn := 1, neg := true, bmode := .any, off := 0x1FFFFFFFFFF4 }, []) ∧
  decode [0x0401000000000000] = .ok (.brx { stall := 0, ua := 2 }, []) ∧
  decode [0x100000000301F404] = .ok (.ropeSet { u with idx := 3, imm := 0x1F404 }, []) ∧
  decode [0x1C0005C000000001] = .ok (.movs { u with ua := 23, imm := 1 }, []) ∧
  decode [0xA000400002D81000] = .ok (.ld { stall := 0, dual := none, dat := .v 4, so := v 0, lrd := false, win := 1, nu := 27, scope := .pty, ord := .plain, sz := .w32, off := 0 }, []) ∧
  decode [0xA100102006039040] = .ok (.st { stall := 0, dual := none, dat := .v 1, so := v 2, lrd := false, win := 3, nu := 0, scope := .dev, ord := .acqRel, sz := .w32, off := 64 }, []) ∧
  decode [0xA700408005F3DB80] = .ok (.atom { stall := 0, dual := none, dat := .v 4, so := v 8, lrd := false, win := 2, nu := 62, scope := .dev, ord := .ar, sz := .w64, aop := .cas, sgn := false }, []) ∧
  decode [0x810041462463E000] = .ok (.press { stall := 0, dual := none, g := 0, ua := 4, ub := 5, uc := 6, fa := 1, fb := 1, kd := 24, nu := 62, pmod := 0 }, []) ∧
  decode [0x9400402004061800] = .ok (.drawa { stall := 0, dual := none, d := .v 4, a := ⟨.v 2, 0, true⟩, b := ⟨.s 4, 0, false⟩, sub := 1, ty := .f32, rm := .rne, fs := 0, x := 0 }, []) ∧
  decode [0xB500000B0EFA4000] = .ok (.ndt { stall := 0, rply := none, xa := 0, xb := 11, nu := 62, scope := .sys, ord := .acqRel }, []) ∧
  decode [0xFE00400800000000] = .error .framingWord ∧ decode [0xFF20800000000000] = .error .framingWord ∧ decode [0] = .error .unassignedOpcode ∧
  decode [0xF000000000000000, 0x2000200001010000] = .error .illegalForm ∧ decode [0xF000000000000000] = .error .badDual ∧ decode [0x0801000000000000] = .error .illegalForm

/-- R62 to R81: decoding the words of a well-formed instruction gives it back, whatever follows it in memory. -/
def Obligations.DecodeEncode : Prop := ∀ (i : Instr) (ws : List W64), i.wf = true → encode i ≠ [] → decode (encode i ++ ws) = .ok (i, ws)

/-- R51: a step takes what came from outside first, then what is due, then the word that decodes at the issuing party's place in its pitch, then what the
device does by itself; time passes where there is nothing to do (the order is the model's: log entry 4). -/
def Obligations.StepRunsDecoded : Prop := ∀ (s : State),
  (∀ i rest, s.inbox = i :: rest → step s = exec i { s with inbox := rest }) ∧
  (∀ i, s.inbox = [] → s.ticks = some i → step s = exec i s) ∧
  (∀ pid p c i rest, s.inbox = [] → s.ticks = none → s.issue = some pid → s.party? pid = some p → p.pitch = some c → decode (c.words.drop c.idx) = .ok (i, rest) →
    step s = exec i s ∧ i.wf = true ∧ ∀ a, s.agent = .ok a → a.p = p ∧ a.c = c) ∧
  (∀ i t, s.inbox = [] → s.ticks = none → s.nextWord = none → s.onward = (some i, t) → step s = exec i t) ∧
  (∀ t, s.inbox = [] → s.ticks = none → s.nextWord = none → s.onward = (none, t) → step s = .next t ∧ s.clk ≤ t.clk ∧ ((∀ p ∈ t.parties, p.readySince = none) → s.clk < t.clk) ∧ t.mem = s.mem) ∧
  (∀ nbits w i, decodeTableWord nbits w = some i → step (State.reset.withFetchWord nbits w) = exec i (State.reset.withFetchWord nbits w))

/-- R373, R374, R378, R383, R396, R418 to R420: what reset leaves, and that it meets the invariants. The clock, the fit, the PID and the empty memory are the model's
choice (log entries 1 and 2). -/
def Obligations.Reset : Prop :=
  let s := State.reset
  (s.dvsec.retcore = 0 ∧ s.dvsec.fcode = 0 ∧ s.dvsec.stage = 0 ∧ s.dvsec.viral = false ∧ s.dvsec.failed = false ∧ s.dvsec.ready = false) ∧
  (s.dvsec.pcache = 96 ∧ s.dvsec.bivsz = 4 ∧ s.dvsec.config = 4) ∧
  (s.mailbox.done = true ∧ s.mailbox.result = 0 ∧ ∀ k, s.mbArg k = 0) ∧
  (∀ c slot, s.queue? c slot = none) ∧ (∀ k < 16, (s.part k).sigma = 16 ∧ (s.part k).audctl = 0 ∧ (s.part k).set = false) ∧ (∀ k < 64, (s.ctx k).part = none) ∧
  s.vfEnable = false ∧ s.parties = [] ∧ s.formes = [] ∧ s.launches = [] ∧ s.issue = none ∧ (∀ x, memGet s.mem x = 0) ∧ s.Canonical ∧ s.Files

/-- Every step keeps memory, scratchpads and galleys in their canonical form. -/
def Obligations.CanonicalKept : Prop := ∀ (s t : State), s.Canonical → step s = .next t → t.Canonical

/-- R37, R38, R209, R257, R298, R372 and R396: every step keeps the register files whole. -/
def Obligations.FilesKept : Prop := ∀ (s t : State), s.Files → step s = .next t → t.Files
end

