-- ==== Sys2Proof/Laws/State.lean ====
section
/-! SUPPORT. What each field of the state is after each of the plain updates of Ops: one lemma per field per update. -/
namespace Sys2Proof.Machine

@[simp] theorem State.onParty_fit (s : State) (pid : Nat) (f : Party → Party) : (s.onParty pid f).fit = s.fit := rfl
@[simp] theorem State.onParty_pid (s : State) (pid : Nat) (f : Party → Party) : (s.onParty pid f).pid = s.pid := rfl
@[simp] theorem State.onParty_dvsec (s : State) (pid : Nat) (f : Party → Party) : (s.onParty pid f).dvsec = s.dvsec := rfl
@[simp] theorem State.onParty_clk (s : State) (pid : Nat) (f : Party → Party) : (s.onParty pid f).clk = s.clk := rfl
@[simp] theorem State.onParty_wall (s : State) (pid : Nat) (f : Party → Party) : (s.onParty pid f).wall = s.wall := rfl
@[simp] theorem State.onParty_clockMHz (s : State) (pid : Nat) (f : Party → Party) : (s.onParty pid f).clockMHz = s.clockMHz := rfl
@[simp] theorem State.onParty_nextId (s : State) (pid : Nat) (f : Party → Party) : (s.onParty pid f).nextId = s.nextId := rfl
@[simp] theorem State.onParty_freeCtr (s : State) (pid : Nat) (f : Party → Party) : (s.onParty pid f).freeCtr = s.freeCtr := rfl
@[simp] theorem State.onParty_issue (s : State) (pid : Nat) (f : Party → Party) : (s.onParty pid f).issue = s.issue := rfl
@[simp] theorem State.onParty_turn (s : State) (pid : Nat) (f : Party → Party) : (s.onParty pid f).turn = s.turn := rfl
@[simp] theorem State.onParty_inbox (s : State) (pid : Nat) (f : Party → Party) : (s.onParty pid f).inbox = s.inbox := rfl
@[simp] theorem State.onParty_out (s : State) (pid : Nat) (f : Party → Party) : (s.onParty pid f).out = s.out := rfl
@[simp] theorem State.onParty_parties (s : State) (pid : Nat) (f : Party → Party) : (s.onParty pid f).parties = modifyWhere (fun p => p.pid = pid) f s.parties := rfl
@[simp] theorem State.onParty_homes (s : State) (pid : Nat) (f : Party → Party) : (s.onParty pid f).homes = s.homes := rfl
@[simp] theorem State.onParty_formes (s : State) (pid : Nat) (f : Party → Party) : (s.onParty pid f).formes = s.formes := rfl
@[simp] theorem State.onParty_ghosts (s : State) (pid : Nat) (f : Party → Party) : (s.onParty pid f).ghosts = s.ghosts := rfl
@[simp] theorem State.onParty_launches (s : State) (pid : Nat) (f : Party → Party) : (s.onParty pid f).launches = s.launches := rfl
@[simp] theorem State.onParty_accepting (s : State) (pid : Nat) (f : Party → Party) : (s.onParty pid f).accepting = s.accepting := rfl
@[simp] theorem State.onParty_graphs (s : State) (pid : Nat) (f : Party → Party) : (s.onParty pid f).graphs = s.graphs := rfl
@[simp] theorem State.onParty_jobs (s : State) (pid : Nat) (f : Party → Party) : (s.onParty pid f).jobs = s.jobs := rfl
@[simp] theorem State.onParty_ops (s : State) (pid : Nat) (f : Party → Party) : (s.onParty pid f).ops = s.ops := rfl
@[simp] theorem State.onParty_longs (s : State) (pid : Nat) (f : Party → Party) : (s.onParty pid f).longs = s.longs := rfl
@[simp] theorem State.onParty_pressTurn (s : State) (pid : Nat) (f : Party → Party) : (s.onParty pid f).pressTurn = s.pressTurn := rfl
@[simp] theorem State.onParty_seqs (s : State) (pid : Nat) (f : Party → Party) : (s.onParty pid f).seqs = s.seqs := rfl
@[simp] theorem State.onParty_ctxs (s : State) (pid : Nat) (f : Party → Party) : (s.onParty pid f).ctxs = s.ctxs := rfl
@[simp] theorem State.onParty_parts (s : State) (pid : Nat) (f : Party → Party) : (s.onParty pid f).parts = s.parts := rfl
@[simp] theorem State.onParty_queues (s : State) (pid : Nat) (f : Party → Party) : (s.onParty pid f).queues = s.queues := rfl
@[simp] theorem State.onParty_status (s : State) (pid : Nat) (f : Party → Party) : (s.onParty pid f).status = s.status := rfl
@[simp] theorem State.onParty_mailbox (s : State) (pid : Nat) (f : Party → Party) : (s.onParty pid f).mailbox = s.mailbox := rfl
@[simp] theorem State.onParty_vfEnable (s : State) (pid : Nat) (f : Party → Party) : (s.onParty pid f).vfEnable = s.vfEnable := rfl
@[simp] theorem State.onParty_mem (s : State) (pid : Nat) (f : Party → Party) : (s.onParty pid f).mem = s.mem := rfl
@[simp] theorem State.onParty_past (s : State) (pid : Nat) (f : Party → Party) : (s.onParty pid f).past = s.past := rfl
@[simp] theorem State.onParty_poison (s : State) (pid : Nat) (f : Party → Party) : (s.onParty pid f).poison = s.poison := rfl
@[simp] theorem State.onParty_unhomed (s : State) (pid : Nat) (f : Party → Party) : (s.onParty pid f).unhomed = s.unhomed := rfl
@[simp] theorem State.onParty_failing (s : State) (pid : Nat) (f : Party → Party) : (s.onParty pid f).failing = s.failing := rfl
@[simp] theorem State.onParty_frames (s : State) (pid : Nat) (f : Party → Party) : (s.onParty pid f).frames = s.frames := rfl
@[simp] theorem State.onParty_tlb (s : State) (pid : Nat) (f : Party → Party) : (s.onParty pid f).tlb = s.tlb := rfl
@[simp] theorem State.onParty_walks (s : State) (pid : Nat) (f : Party → Party) : (s.onParty pid f).walks = s.walks := rfl
@[simp] theorem State.onParty_lines (s : State) (pid : Nat) (f : Party → Party) : (s.onParty pid f).lines = s.lines := rfl
@[simp] theorem State.onParty_fills (s : State) (pid : Nat) (f : Party → Party) : (s.onParty pid f).fills = s.fills := rfl
@[simp] theorem State.onParty_bulk (s : State) (pid : Nat) (f : Party → Party) : (s.onParty pid f).bulk = s.bulk := rfl
@[simp] theorem State.onParty_icache (s : State) (pid : Nat) (f : Party → Party) : (s.onParty pid f).icache = s.icache := rfl
@[simp] theorem State.onParty_iinvs (s : State) (pid : Nat) (f : Party → Party) : (s.onParty pid f).iinvs = s.iinvs := rfl
@[simp] theorem State.onParty_extents (s : State) (pid : Nat) (f : Party → Party) : (s.onParty pid f).extents = s.extents := rfl
@[simp] theorem State.onParty_snoops (s : State) (pid : Nat) (f : Party → Party) : (s.onParty pid f).snoops = s.snoops := rfl
@[simp] theorem State.onParty_moves (s : State) (pid : Nat) (f : Party → Party) : (s.onParty pid f).moves = s.moves := rfl
@[simp] theorem State.onParty_shared (s : State) (pid : Nat) (f : Party → Party) : (s.onParty pid f).shared = s.shared := rfl
@[simp] theorem State.onParty_resident (s : State) (pid : Nat) (f : Party → Party) : (s.onParty pid f).resident = s.resident := rfl
@[simp] theorem State.onParty_sessions (s : State) (pid : Nat) (f : Party → Party) : (s.onParty pid f).sessions = s.sessions := rfl
@[simp] theorem State.onParty_templates (s : State) (pid : Nat) (f : Party → Party) : (s.onParty pid f).templates = s.templates := rfl
@[simp] theorem State.onParty_signers (s : State) (pid : Nat) (f : Party → Party) : (s.onParty pid f).signers = s.signers := rfl
@[simp] theorem State.onParty_taskCtxs (s : State) (pid : Nat) (f : Party → Party) : (s.onParty pid f).taskCtxs = s.taskCtxs := rfl
@[simp] theorem State.onParty_viralPeers (s : State) (pid : Nat) (f : Party → Party) : (s.onParty pid f).viralPeers = s.viralPeers := rfl
@[simp] theorem State.onParty_lostPeers (s : State) (pid : Nat) (f : Party → Party) : (s.onParty pid f).lostPeers = s.lostPeers := rfl
@[simp] theorem State.onParty_ports (s : State) (pid : Nat) (f : Party → Party) : (s.onParty pid f).ports = s.ports := rfl
@[simp] theorem State.onParty_bins (s : State) (pid : Nat) (f : Party → Party) : (s.onParty pid f).bins = s.bins := rfl
@[simp] theorem State.onParty_corrections (s : State) (pid : Nat) (f : Party → Party) : (s.onParty pid f).corrections = s.corrections := rfl
@[simp] theorem State.onParty_firmware (s : State) (pid : Nat) (f : Party → Party) : (s.onParty pid f).firmware = s.firmware := rfl
@[simp] theorem State.onParty_captures (s : State) (pid : Nat) (f : Party → Party) : (s.onParty pid f).captures = s.captures := rfl
@[simp] theorem State.onParty_outputs (s : State) (pid : Nat) (f : Party → Party) : (s.onParty pid f).outputs = s.outputs := rfl
@[simp] theorem State.onParty_audits (s : State) (pid : Nat) (f : Party → Party) : (s.onParty pid f).audits = s.audits := rfl
@[simp] theorem State.onParty_acts (s : State) (pid : Nat) (f : Party → Party) : (s.onParty pid f).acts = s.acts := rfl
@[simp] theorem State.onParty_actId (s : State) (pid : Nat) (f : Party → Party) : (s.onParty pid f).actId = s.actId := rfl
@[simp] theorem State.onParty_taints (s : State) (pid : Nat) (f : Party → Party) : (s.onParty pid f).taints = s.taints := rfl

@[simp] theorem State.onForme_fit (s : State) (fid : Nat) (f : Forme → Forme) : (s.onForme fid f).fit = s.fit := rfl
@[simp] theorem State.onForme_pid (s : State) (fid : Nat) (f : Forme → Forme) : (s.onForme fid f).pid = s.pid := rfl
@[simp] theorem State.onForme_dvsec (s : State) (fid : Nat) (f : Forme → Forme) : (s.onForme fid f).dvsec = s.dvsec := rfl
@[simp] theorem State.onForme_clk (s : State) (fid : Nat) (f : Forme → Forme) : (s.onForme fid f).clk = s.clk := rfl
@[simp] theorem State.onForme_wall (s : State) (fid : Nat) (f : Forme → Forme) : (s.onForme fid f).wall = s.wall := rfl
@[simp] theorem State.onForme_clockMHz (s : State) (fid : Nat) (f : Forme → Forme) : (s.onForme fid f).clockMHz = s.clockMHz := rfl
@[simp] theorem State.onForme_nextId (s : State) (fid : Nat) (f : Forme → Forme) : (s.onForme fid f).nextId = s.nextId := rfl
@[simp] theorem State.onForme_freeCtr (s : State) (fid : Nat) (f : Forme → Forme) : (s.onForme fid f).freeCtr = s.freeCtr := rfl
@[simp] theorem State.onForme_issue (s : State) (fid : Nat) (f : Forme → Forme) : (s.onForme fid f).issue = s.issue := rfl
@[simp] theorem State.onForme_turn (s : State) (fid : Nat) (f : Forme → Forme) : (s.onForme fid f).turn = s.turn := rfl
@[simp] theorem State.onForme_inbox (s : State) (fid : Nat) (f : Forme → Forme) : (s.onForme fid f).inbox = s.inbox := rfl
@[simp] theorem State.onForme_out (s : State) (fid : Nat) (f : Forme → Forme) : (s.onForme fid f).out = s.out := rfl
@[simp] theorem State.onForme_parties (s : State) (fid : Nat) (f : Forme → Forme) : (s.onForme fid f).parties = s.parties := rfl
@[simp] theorem State.onForme_homes (s : State) (fid : Nat) (f : Forme → Forme) : (s.onForme fid f).homes = s.homes := rfl
@[simp] theorem State.onForme_formes (s : State) (fid : Nat) (f : Forme → Forme) : (s.onForme fid f).formes = modifyWhere (fun x => x.fid = fid) f s.formes := rfl
@[simp] theorem State.onForme_ghosts (s : State) (fid : Nat) (f : Forme → Forme) : (s.onForme fid f).ghosts = s.ghosts := rfl
@[simp] theorem State.onForme_launches (s : State) (fid : Nat) (f : Forme → Forme) : (s.onForme fid f).launches = s.launches := rfl
@[simp] theorem State.onForme_accepting (s : State) (fid : Nat) (f : Forme → Forme) : (s.onForme fid f).accepting = s.accepting := rfl
@[simp] theorem State.onForme_graphs (s : State) (fid : Nat) (f : Forme → Forme) : (s.onForme fid f).graphs = s.graphs := rfl
@[simp] theorem State.onForme_jobs (s : State) (fid : Nat) (f : Forme → Forme) : (s.onForme fid f).jobs = s.jobs := rfl
@[simp] theorem State.onForme_ops (s : State) (fid : Nat) (f : Forme → Forme) : (s.onForme fid f).ops = s.ops := rfl
@[simp] theorem State.onForme_longs (s : State) (fid : Nat) (f : Forme → Forme) : (s.onForme fid f).longs = s.longs := rfl
@[simp] theorem State.onForme_pressTurn (s : State) (fid : Nat) (f : Forme → Forme) : (s.onForme fid f).pressTurn = s.pressTurn := rfl
@[simp] theorem State.onForme_seqs (s : State) (fid : Nat) (f : Forme → Forme) : (s.onForme fid f).seqs = s.seqs := rfl
@[simp] theorem State.onForme_ctxs (s : State) (fid : Nat) (f : Forme → Forme) : (s.onForme fid f).ctxs = s.ctxs := rfl
@[simp] theorem State.onForme_parts (s : State) (fid : Nat) (f : Forme → Forme) : (s.onForme fid f).parts = s.parts := rfl
@[simp] theorem State.onForme_queues (s : State) (fid : Nat) (f : Forme → Forme) : (s.onForme fid f).queues = s.queues := rfl
@[simp] theorem State.onForme_status (s : State) (fid : Nat) (f : Forme → Forme) : (s.onForme fid f).status = s.status := rfl
@[simp] theorem State.onForme_mailbox (s : State) (fid : Nat) (f : Forme → Forme) : (s.onForme fid f).mailbox = s.mailbox := rfl
@[simp] theorem State.onForme_vfEnable (s : State) (fid : Nat) (f : Forme → Forme) : (s.onForme fid f).vfEnable = s.vfEnable := rfl
@[simp] theorem State.onForme_mem (s : State) (fid : Nat) (f : Forme → Forme) : (s.onForme fid f).mem = s.mem := rfl
@[simp] theorem State.onForme_past (s : State) (fid : Nat) (f : Forme → Forme) : (s.onForme fid f).past = s.past := rfl
@[simp] theorem State.onForme_poison (s : State) (fid : Nat) (f : Forme → Forme) : (s.onForme fid f).poison = s.poison := rfl
@[simp] theorem State.onForme_unhomed (s : State) (fid : Nat) (f : Forme → Forme) : (s.onForme fid f).unhomed = s.unhomed := rfl
@[simp] theorem State.onForme_failing (s : State) (fid : Nat) (f : Forme → Forme) : (s.onForme fid f).failing = s.failing := rfl
@[simp] theorem State.onForme_frames (s : State) (fid : Nat) (f : Forme → Forme) : (s.onForme fid f).frames = s.frames := rfl
@[simp] theorem State.onForme_tlb (s : State) (fid : Nat) (f : Forme → Forme) : (s.onForme fid f).tlb = s.tlb := rfl
@[simp] theorem State.onForme_walks (s : State) (fid : Nat) (f : Forme → Forme) : (s.onForme fid f).walks = s.walks := rfl
@[simp] theorem State.onForme_lines (s : State) (fid : Nat) (f : Forme → Forme) : (s.onForme fid f).lines = s.lines := rfl
@[simp] theorem State.onForme_fills (s : State) (fid : Nat) (f : Forme → Forme) : (s.onForme fid f).fills = s.fills := rfl
@[simp] theorem State.onForme_bulk (s : State) (fid : Nat) (f : Forme → Forme) : (s.onForme fid f).bulk = s.bulk := rfl
@[simp] theorem State.onForme_icache (s : State) (fid : Nat) (f : Forme → Forme) : (s.onForme fid f).icache = s.icache := rfl
@[simp] theorem State.onForme_iinvs (s : State) (fid : Nat) (f : Forme → Forme) : (s.onForme fid f).iinvs = s.iinvs := rfl
@[simp] theorem State.onForme_extents (s : State) (fid : Nat) (f : Forme → Forme) : (s.onForme fid f).extents = s.extents := rfl
@[simp] theorem State.onForme_snoops (s : State) (fid : Nat) (f : Forme → Forme) : (s.onForme fid f).snoops = s.snoops := rfl
@[simp] theorem State.onForme_moves (s : State) (fid : Nat) (f : Forme → Forme) : (s.onForme fid f).moves = s.moves := rfl
@[simp] theorem State.onForme_shared (s : State) (fid : Nat) (f : Forme → Forme) : (s.onForme fid f).shared = s.shared := rfl
@[simp] theorem State.onForme_resident (s : State) (fid : Nat) (f : Forme → Forme) : (s.onForme fid f).resident = s.resident := rfl
@[simp] theorem State.onForme_sessions (s : State) (fid : Nat) (f : Forme → Forme) : (s.onForme fid f).sessions = s.sessions := rfl
@[simp] theorem State.onForme_templates (s : State) (fid : Nat) (f : Forme → Forme) : (s.onForme fid f).templates = s.templates := rfl
@[simp] theorem State.onForme_signers (s : State) (fid : Nat) (f : Forme → Forme) : (s.onForme fid f).signers = s.signers := rfl
@[simp] theorem State.onForme_taskCtxs (s : State) (fid : Nat) (f : Forme → Forme) : (s.onForme fid f).taskCtxs = s.taskCtxs := rfl
@[simp] theorem State.onForme_viralPeers (s : State) (fid : Nat) (f : Forme → Forme) : (s.onForme fid f).viralPeers = s.viralPeers := rfl
@[simp] theorem State.onForme_lostPeers (s : State) (fid : Nat) (f : Forme → Forme) : (s.onForme fid f).lostPeers = s.lostPeers := rfl
@[simp] theorem State.onForme_ports (s : State) (fid : Nat) (f : Forme → Forme) : (s.onForme fid f).ports = s.ports := rfl
@[simp] theorem State.onForme_bins (s : State) (fid : Nat) (f : Forme → Forme) : (s.onForme fid f).bins = s.bins := rfl
@[simp] theorem State.onForme_corrections (s : State) (fid : Nat) (f : Forme → Forme) : (s.onForme fid f).corrections = s.corrections := rfl
@[simp] theorem State.onForme_firmware (s : State) (fid : Nat) (f : Forme → Forme) : (s.onForme fid f).firmware = s.firmware := rfl
@[simp] theorem State.onForme_captures (s : State) (fid : Nat) (f : Forme → Forme) : (s.onForme fid f).captures = s.captures := rfl
@[simp] theorem State.onForme_outputs (s : State) (fid : Nat) (f : Forme → Forme) : (s.onForme fid f).outputs = s.outputs := rfl
@[simp] theorem State.onForme_audits (s : State) (fid : Nat) (f : Forme → Forme) : (s.onForme fid f).audits = s.audits := rfl
@[simp] theorem State.onForme_acts (s : State) (fid : Nat) (f : Forme → Forme) : (s.onForme fid f).acts = s.acts := rfl
@[simp] theorem State.onForme_actId (s : State) (fid : Nat) (f : Forme → Forme) : (s.onForme fid f).actId = s.actId := rfl
@[simp] theorem State.onForme_taints (s : State) (fid : Nat) (f : Forme → Forme) : (s.onForme fid f).taints = s.taints := rfl

@[simp] theorem State.onHome_fit (s : State) (fid hp : Nat) (f : Home → Home) : (s.onHome fid hp f).fit = s.fit := rfl
@[simp] theorem State.onHome_pid (s : State) (fid hp : Nat) (f : Home → Home) : (s.onHome fid hp f).pid = s.pid := rfl
@[simp] theorem State.onHome_dvsec (s : State) (fid hp : Nat) (f : Home → Home) : (s.onHome fid hp f).dvsec = s.dvsec := rfl
@[simp] theorem State.onHome_clk (s : State) (fid hp : Nat) (f : Home → Home) : (s.onHome fid hp f).clk = s.clk := rfl
@[simp] theorem State.onHome_wall (s : State) (fid hp : Nat) (f : Home → Home) : (s.onHome fid hp f).wall = s.wall := rfl
@[simp] theorem State.onHome_clockMHz (s : State) (fid hp : Nat) (f : Home → Home) : (s.onHome fid hp f).clockMHz = s.clockMHz := rfl
@[simp] theorem State.onHome_nextId (s : State) (fid hp : Nat) (f : Home → Home) : (s.onHome fid hp f).nextId = s.nextId := rfl
@[simp] theorem State.onHome_freeCtr (s : State) (fid hp : Nat) (f : Home → Home) : (s.onHome fid hp f).freeCtr = s.freeCtr := rfl
@[simp] theorem State.onHome_issue (s : State) (fid hp : Nat) (f : Home → Home) : (s.onHome fid hp f).issue = s.issue := rfl
@[simp] theorem State.onHome_turn (s : State) (fid hp : Nat) (f : Home → Home) : (s.onHome fid hp f).turn = s.turn := rfl
@[simp] theorem State.onHome_inbox (s : State) (fid hp : Nat) (f : Home → Home) : (s.onHome fid hp f).inbox = s.inbox := rfl
@[simp] theorem State.onHome_out (s : State) (fid hp : Nat) (f : Home → Home) : (s.onHome fid hp f).out = s.out := rfl
@[simp] theorem State.onHome_parties (s : State) (fid hp : Nat) (f : Home → Home) : (s.onHome fid hp f).parties = s.parties := rfl
@[simp] theorem State.onHome_homes (s : State) (fid hp : Nat) (f : Home → Home) : (s.onHome fid hp f).homes = modifyWhere (fun h => h.fid = fid && h.hp = hp) f s.homes := rfl
@[simp] theorem State.onHome_formes (s : State) (fid hp : Nat) (f : Home → Home) : (s.onHome fid hp f).formes = s.formes := rfl
@[simp] theorem State.onHome_ghosts (s : State) (fid hp : Nat) (f : Home → Home) : (s.onHome fid hp f).ghosts = s.ghosts := rfl
@[simp] theorem State.onHome_launches (s : State) (fid hp : Nat) (f : Home → Home) : (s.onHome fid hp f).launches = s.launches := rfl
@[simp] theorem State.onHome_accepting (s : State) (fid hp : Nat) (f : Home → Home) : (s.onHome fid hp f).accepting = s.accepting := rfl
@[simp] theorem State.onHome_graphs (s : State) (fid hp : Nat) (f : Home → Home) : (s.onHome fid hp f).graphs = s.graphs := rfl
@[simp] theorem State.onHome_jobs (s : State) (fid hp : Nat) (f : Home → Home) : (s.onHome fid hp f).jobs = s.jobs := rfl
@[simp] theorem State.onHome_ops (s : State) (fid hp : Nat) (f : Home → Home) : (s.onHome fid hp f).ops = s.ops := rfl
@[simp] theorem State.onHome_longs (s : State) (fid hp : Nat) (f : Home → Home) : (s.onHome fid hp f).longs = s.longs := rfl
@[simp] theorem State.onHome_pressTurn (s : State) (fid hp : Nat) (f : Home → Home) : (s.onHome fid hp f).pressTurn = s.pressTurn := rfl
@[simp] theorem State.onHome_seqs (s : State) (fid hp : Nat) (f : Home → Home) : (s.onHome fid hp f).seqs = s.seqs := rfl
@[simp] theorem State.onHome_ctxs (s : State) (fid hp : Nat) (f : Home → Home) : (s.onHome fid hp f).ctxs = s.ctxs := rfl
@[simp] theorem State.onHome_parts (s : State) (fid hp : Nat) (f : Home → Home) : (s.onHome fid hp f).parts = s.parts := rfl
@[simp] theorem State.onHome_queues (s : State) (fid hp : Nat) (f : Home → Home) : (s.onHome fid hp f).queues = s.queues := rfl
@[simp] theorem State.onHome_status (s : State) (fid hp : Nat) (f : Home → Home) : (s.onHome fid hp f).status = s.status := rfl
@[simp] theorem State.onHome_mailbox (s : State) (fid hp : Nat) (f : Home → Home) : (s.onHome fid hp f).mailbox = s.mailbox := rfl
@[simp] theorem State.onHome_vfEnable (s : State) (fid hp : Nat) (f : Home → Home) : (s.onHome fid hp f).vfEnable = s.vfEnable := rfl
@[simp] theorem State.onHome_mem (s : State) (fid hp : Nat) (f : Home → Home) : (s.onHome fid hp f).mem = s.mem := rfl
@[simp] theorem State.onHome_past (s : State) (fid hp : Nat) (f : Home → Home) : (s.onHome fid hp f).past = s.past := rfl
@[simp] theorem State.onHome_poison (s : State) (fid hp : Nat) (f : Home → Home) : (s.onHome fid hp f).poison = s.poison := rfl
@[simp] theorem State.onHome_unhomed (s : State) (fid hp : Nat) (f : Home → Home) : (s.onHome fid hp f).unhomed = s.unhomed := rfl
@[simp] theorem State.onHome_failing (s : State) (fid hp : Nat) (f : Home → Home) : (s.onHome fid hp f).failing = s.failing := rfl
@[simp] theorem State.onHome_frames (s : State) (fid hp : Nat) (f : Home → Home) : (s.onHome fid hp f).frames = s.frames := rfl
@[simp] theorem State.onHome_tlb (s : State) (fid hp : Nat) (f : Home → Home) : (s.onHome fid hp f).tlb = s.tlb := rfl
@[simp] theorem State.onHome_walks (s : State) (fid hp : Nat) (f : Home → Home) : (s.onHome fid hp f).walks = s.walks := rfl
@[simp] theorem State.onHome_lines (s : State) (fid hp : Nat) (f : Home → Home) : (s.onHome fid hp f).lines = s.lines := rfl
@[simp] theorem State.onHome_fills (s : State) (fid hp : Nat) (f : Home → Home) : (s.onHome fid hp f).fills = s.fills := rfl
@[simp] theorem State.onHome_bulk (s : State) (fid hp : Nat) (f : Home → Home) : (s.onHome fid hp f).bulk = s.bulk := rfl
@[simp] theorem State.onHome_icache (s : State) (fid hp : Nat) (f : Home → Home) : (s.onHome fid hp f).icache = s.icache := rfl
@[simp] theorem State.onHome_iinvs (s : State) (fid hp : Nat) (f : Home → Home) : (s.onHome fid hp f).iinvs = s.iinvs := rfl
@[simp] theorem State.onHome_extents (s : State) (fid hp : Nat) (f : Home → Home) : (s.onHome fid hp f).extents = s.extents := rfl
@[simp] theorem State.onHome_snoops (s : State) (fid hp : Nat) (f : Home → Home) : (s.onHome fid hp f).snoops = s.snoops := rfl
@[simp] theorem State.onHome_moves (s : State) (fid hp : Nat) (f : Home → Home) : (s.onHome fid hp f).moves = s.moves := rfl
@[simp] theorem State.onHome_shared (s : State) (fid hp : Nat) (f : Home → Home) : (s.onHome fid hp f).shared = s.shared := rfl
@[simp] theorem State.onHome_resident (s : State) (fid hp : Nat) (f : Home → Home) : (s.onHome fid hp f).resident = s.resident := rfl
@[simp] theorem State.onHome_sessions (s : State) (fid hp : Nat) (f : Home → Home) : (s.onHome fid hp f).sessions = s.sessions := rfl
@[simp] theorem State.onHome_templates (s : State) (fid hp : Nat) (f : Home → Home) : (s.onHome fid hp f).templates = s.templates := rfl
@[simp] theorem State.onHome_signers (s : State) (fid hp : Nat) (f : Home → Home) : (s.onHome fid hp f).signers = s.signers := rfl
@[simp] theorem State.onHome_taskCtxs (s : State) (fid hp : Nat) (f : Home → Home) : (s.onHome fid hp f).taskCtxs = s.taskCtxs := rfl
@[simp] theorem State.onHome_viralPeers (s : State) (fid hp : Nat) (f : Home → Home) : (s.onHome fid hp f).viralPeers = s.viralPeers := rfl
@[simp] theorem State.onHome_lostPeers (s : State) (fid hp : Nat) (f : Home → Home) : (s.onHome fid hp f).lostPeers = s.lostPeers := rfl
@[simp] theorem State.onHome_ports (s : State) (fid hp : Nat) (f : Home → Home) : (s.onHome fid hp f).ports = s.ports := rfl
@[simp] theorem State.onHome_bins (s : State) (fid hp : Nat) (f : Home → Home) : (s.onHome fid hp f).bins = s.bins := rfl
@[simp] theorem State.onHome_corrections (s : State) (fid hp : Nat) (f : Home → Home) : (s.onHome fid hp f).corrections = s.corrections := rfl
@[simp] theorem State.onHome_firmware (s : State) (fid hp : Nat) (f : Home → Home) : (s.onHome fid hp f).firmware = s.firmware := rfl
@[simp] theorem State.onHome_captures (s : State) (fid hp : Nat) (f : Home → Home) : (s.onHome fid hp f).captures = s.captures := rfl
@[simp] theorem State.onHome_outputs (s : State) (fid hp : Nat) (f : Home → Home) : (s.onHome fid hp f).outputs = s.outputs := rfl
@[simp] theorem State.onHome_audits (s : State) (fid hp : Nat) (f : Home → Home) : (s.onHome fid hp f).audits = s.audits := rfl
@[simp] theorem State.onHome_acts (s : State) (fid hp : Nat) (f : Home → Home) : (s.onHome fid hp f).acts = s.acts := rfl
@[simp] theorem State.onHome_actId (s : State) (fid hp : Nat) (f : Home → Home) : (s.onHome fid hp f).actId = s.actId := rfl
@[simp] theorem State.onHome_taints (s : State) (fid hp : Nat) (f : Home → Home) : (s.onHome fid hp f).taints = s.taints := rfl

@[simp] theorem State.onLaunch_fit (s : State) (lid : Nat) (f : Launch → Launch) : (s.onLaunch lid f).fit = s.fit := rfl
@[simp] theorem State.onLaunch_pid (s : State) (lid : Nat) (f : Launch → Launch) : (s.onLaunch lid f).pid = s.pid := rfl
@[simp] theorem State.onLaunch_dvsec (s : State) (lid : Nat) (f : Launch → Launch) : (s.onLaunch lid f).dvsec = s.dvsec := rfl
@[simp] theorem State.onLaunch_clk (s : State) (lid : Nat) (f : Launch → Launch) : (s.onLaunch lid f).clk = s.clk := rfl
@[simp] theorem State.onLaunch_wall (s : State) (lid : Nat) (f : Launch → Launch) : (s.onLaunch lid f).wall = s.wall := rfl
@[simp] theorem State.onLaunch_clockMHz (s : State) (lid : Nat) (f : Launch → Launch) : (s.onLaunch lid f).clockMHz = s.clockMHz := rfl
@[simp] theorem State.onLaunch_nextId (s : State) (lid : Nat) (f : Launch → Launch) : (s.onLaunch lid f).nextId = s.nextId := rfl
@[simp] theorem State.onLaunch_freeCtr (s : State) (lid : Nat) (f : Launch → Launch) : (s.onLaunch lid f).freeCtr = s.freeCtr := rfl
@[simp] theorem State.onLaunch_issue (s : State) (lid : Nat) (f : Launch → Launch) : (s.onLaunch lid f).issue = s.issue := rfl
@[simp] theorem State.onLaunch_turn (s : State) (lid : Nat) (f : Launch → Launch) : (s.onLaunch lid f).turn = s.turn := rfl
@[simp] theorem State.onLaunch_inbox (s : State) (lid : Nat) (f : Launch → Launch) : (s.onLaunch lid f).inbox = s.inbox := rfl
@[simp] theorem State.onLaunch_out (s : State) (lid : Nat) (f : Launch → Launch) : (s.onLaunch lid f).out = s.out := rfl
@[simp] theorem State.onLaunch_parties (s : State) (lid : Nat) (f : Launch → Launch) : (s.onLaunch lid f).parties = s.parties := rfl
@[simp] theorem State.onLaunch_homes (s : State) (lid : Nat) (f : Launch → Launch) : (s.onLaunch lid f).homes = s.homes := rfl
@[simp] theorem State.onLaunch_formes (s : State) (lid : Nat) (f : Launch → Launch) : (s.onLaunch lid f).formes = s.formes := rfl
@[simp] theorem State.onLaunch_ghosts (s : State) (lid : Nat) (f : Launch → Launch) : (s.onLaunch lid f).ghosts = s.ghosts := rfl
@[simp] theorem State.onLaunch_launches (s : State) (lid : Nat) (f : Launch → Launch) : (s.onLaunch lid f).launches = modifyWhere (fun l => l.lid = lid) f s.launches := rfl
@[simp] theorem State.onLaunch_accepting (s : State) (lid : Nat) (f : Launch → Launch) : (s.onLaunch lid f).accepting = s.accepting := rfl
@[simp] theorem State.onLaunch_graphs (s : State) (lid : Nat) (f : Launch → Launch) : (s.onLaunch lid f).graphs = s.graphs := rfl
@[simp] theorem State.onLaunch_jobs (s : State) (lid : Nat) (f : Launch → Launch) : (s.onLaunch lid f).jobs = s.jobs := rfl
@[simp] theorem State.onLaunch_ops (s : State) (lid : Nat) (f : Launch → Launch) : (s.onLaunch lid f).ops = s.ops := rfl
@[simp] theorem State.onLaunch_longs (s : State) (lid : Nat) (f : Launch → Launch) : (s.onLaunch lid f).longs = s.longs := rfl
@[simp] theorem State.onLaunch_pressTurn (s : State) (lid : Nat) (f : Launch → Launch) : (s.onLaunch lid f).pressTurn = s.pressTurn := rfl
@[simp] theorem State.onLaunch_seqs (s : State) (lid : Nat) (f : Launch → Launch) : (s.onLaunch lid f).seqs = s.seqs := rfl
@[simp] theorem State.onLaunch_ctxs (s : State) (lid : Nat) (f : Launch → Launch) : (s.onLaunch lid f).ctxs = s.ctxs := rfl
@[simp] theorem State.onLaunch_parts (s : State) (lid : Nat) (f : Launch → Launch) : (s.onLaunch lid f).parts = s.parts := rfl
@[simp] theorem State.onLaunch_queues (s : State) (lid : Nat) (f : Launch → Launch) : (s.onLaunch lid f).queues = s.queues := rfl
@[simp] theorem State.onLaunch_status (s : State) (lid : Nat) (f : Launch → Launch) : (s.onLaunch lid f).status = s.status := rfl
@[simp] theorem State.onLaunch_mailbox (s : State) (lid : Nat) (f : Launch → Launch) : (s.onLaunch lid f).mailbox = s.mailbox := rfl
@[simp] theorem State.onLaunch_vfEnable (s : State) (lid : Nat) (f : Launch → Launch) : (s.onLaunch lid f).vfEnable = s.vfEnable := rfl
@[simp] theorem State.onLaunch_mem (s : State) (lid : Nat) (f : Launch → Launch) : (s.onLaunch lid f).mem = s.mem := rfl
@[simp] theorem State.onLaunch_past (s : State) (lid : Nat) (f : Launch → Launch) : (s.onLaunch lid f).past = s.past := rfl
@[simp] theorem State.onLaunch_poison (s : State) (lid : Nat) (f : Launch → Launch) : (s.onLaunch lid f).poison = s.poison := rfl
@[simp] theorem State.onLaunch_unhomed (s : State) (lid : Nat) (f : Launch → Launch) : (s.onLaunch lid f).unhomed = s.unhomed := rfl
@[simp] theorem State.onLaunch_failing (s : State) (lid : Nat) (f : Launch → Launch) : (s.onLaunch lid f).failing = s.failing := rfl
@[simp] theorem State.onLaunch_frames (s : State) (lid : Nat) (f : Launch → Launch) : (s.onLaunch lid f).frames = s.frames := rfl
@[simp] theorem State.onLaunch_tlb (s : State) (lid : Nat) (f : Launch → Launch) : (s.onLaunch lid f).tlb = s.tlb := rfl
@[simp] theorem State.onLaunch_walks (s : State) (lid : Nat) (f : Launch → Launch) : (s.onLaunch lid f).walks = s.walks := rfl
@[simp] theorem State.onLaunch_lines (s : State) (lid : Nat) (f : Launch → Launch) : (s.onLaunch lid f).lines = s.lines := rfl
@[simp] theorem State.onLaunch_fills (s : State) (lid : Nat) (f : Launch → Launch) : (s.onLaunch lid f).fills = s.fills := rfl
@[simp] theorem State.onLaunch_bulk (s : State) (lid : Nat) (f : Launch → Launch) : (s.onLaunch lid f).bulk = s.bulk := rfl
@[simp] theorem State.onLaunch_icache (s : State) (lid : Nat) (f : Launch → Launch) : (s.onLaunch lid f).icache = s.icache := rfl
@[simp] theorem State.onLaunch_iinvs (s : State) (lid : Nat) (f : Launch → Launch) : (s.onLaunch lid f).iinvs = s.iinvs := rfl
@[simp] theorem State.onLaunch_extents (s : State) (lid : Nat) (f : Launch → Launch) : (s.onLaunch lid f).extents = s.extents := rfl
@[simp] theorem State.onLaunch_snoops (s : State) (lid : Nat) (f : Launch → Launch) : (s.onLaunch lid f).snoops = s.snoops := rfl
@[simp] theorem State.onLaunch_moves (s : State) (lid : Nat) (f : Launch → Launch) : (s.onLaunch lid f).moves = s.moves := rfl
@[simp] theorem State.onLaunch_shared (s : State) (lid : Nat) (f : Launch → Launch) : (s.onLaunch lid f).shared = s.shared := rfl
@[simp] theorem State.onLaunch_resident (s : State) (lid : Nat) (f : Launch → Launch) : (s.onLaunch lid f).resident = s.resident := rfl
@[simp] theorem State.onLaunch_sessions (s : State) (lid : Nat) (f : Launch → Launch) : (s.onLaunch lid f).sessions = s.sessions := rfl
@[simp] theorem State.onLaunch_templates (s : State) (lid : Nat) (f : Launch → Launch) : (s.onLaunch lid f).templates = s.templates := rfl
@[simp] theorem State.onLaunch_signers (s : State) (lid : Nat) (f : Launch → Launch) : (s.onLaunch lid f).signers = s.signers := rfl
@[simp] theorem State.onLaunch_taskCtxs (s : State) (lid : Nat) (f : Launch → Launch) : (s.onLaunch lid f).taskCtxs = s.taskCtxs := rfl
@[simp] theorem State.onLaunch_viralPeers (s : State) (lid : Nat) (f : Launch → Launch) : (s.onLaunch lid f).viralPeers = s.viralPeers := rfl
@[simp] theorem State.onLaunch_lostPeers (s : State) (lid : Nat) (f : Launch → Launch) : (s.onLaunch lid f).lostPeers = s.lostPeers := rfl
@[simp] theorem State.onLaunch_ports (s : State) (lid : Nat) (f : Launch → Launch) : (s.onLaunch lid f).ports = s.ports := rfl
@[simp] theorem State.onLaunch_bins (s : State) (lid : Nat) (f : Launch → Launch) : (s.onLaunch lid f).bins = s.bins := rfl
@[simp] theorem State.onLaunch_corrections (s : State) (lid : Nat) (f : Launch → Launch) : (s.onLaunch lid f).corrections = s.corrections := rfl
@[simp] theorem State.onLaunch_firmware (s : State) (lid : Nat) (f : Launch → Launch) : (s.onLaunch lid f).firmware = s.firmware := rfl
@[simp] theorem State.onLaunch_captures (s : State) (lid : Nat) (f : Launch → Launch) : (s.onLaunch lid f).captures = s.captures := rfl
@[simp] theorem State.onLaunch_outputs (s : State) (lid : Nat) (f : Launch → Launch) : (s.onLaunch lid f).outputs = s.outputs := rfl
@[simp] theorem State.onLaunch_audits (s : State) (lid : Nat) (f : Launch → Launch) : (s.onLaunch lid f).audits = s.audits := rfl
@[simp] theorem State.onLaunch_acts (s : State) (lid : Nat) (f : Launch → Launch) : (s.onLaunch lid f).acts = s.acts := rfl
@[simp] theorem State.onLaunch_actId (s : State) (lid : Nat) (f : Launch → Launch) : (s.onLaunch lid f).actId = s.actId := rfl
@[simp] theorem State.onLaunch_taints (s : State) (lid : Nat) (f : Launch → Launch) : (s.onLaunch lid f).taints = s.taints := rfl

@[simp] theorem State.onGraph_fit (s : State) (gid : Nat) (f : Graph → Graph) : (s.onGraph gid f).fit = s.fit := rfl
@[simp] theorem State.onGraph_pid (s : State) (gid : Nat) (f : Graph → Graph) : (s.onGraph gid f).pid = s.pid := rfl
@[simp] theorem State.onGraph_dvsec (s : State) (gid : Nat) (f : Graph → Graph) : (s.onGraph gid f).dvsec = s.dvsec := rfl
@[simp] theorem State.onGraph_clk (s : State) (gid : Nat) (f : Graph → Graph) : (s.onGraph gid f).clk = s.clk := rfl
@[simp] theorem State.onGraph_wall (s : State) (gid : Nat) (f : Graph → Graph) : (s.onGraph gid f).wall = s.wall := rfl
@[simp] theorem State.onGraph_clockMHz (s : State) (gid : Nat) (f : Graph → Graph) : (s.onGraph gid f).clockMHz = s.clockMHz := rfl
@[simp] theorem State.onGraph_nextId (s : State) (gid : Nat) (f : Graph → Graph) : (s.onGraph gid f).nextId = s.nextId := rfl
@[simp] theorem State.onGraph_freeCtr (s : State) (gid : Nat) (f : Graph → Graph) : (s.onGraph gid f).freeCtr = s.freeCtr := rfl
@[simp] theorem State.onGraph_issue (s : State) (gid : Nat) (f : Graph → Graph) : (s.onGraph gid f).issue = s.issue := rfl
@[simp] theorem State.onGraph_turn (s : State) (gid : Nat) (f : Graph → Graph) : (s.onGraph gid f).turn = s.turn := rfl
@[simp] theorem State.onGraph_inbox (s : State) (gid : Nat) (f : Graph → Graph) : (s.onGraph gid f).inbox = s.inbox := rfl
@[simp] theorem State.onGraph_out (s : State) (gid : Nat) (f : Graph → Graph) : (s.onGraph gid f).out = s.out := rfl
@[simp] theorem State.onGraph_parties (s : State) (gid : Nat) (f : Graph → Graph) : (s.onGraph gid f).parties = s.parties := rfl
@[simp] theorem State.onGraph_homes (s : State) (gid : Nat) (f : Graph → Graph) : (s.onGraph gid f).homes = s.homes := rfl
@[simp] theorem State.onGraph_formes (s : State) (gid : Nat) (f : Graph → Graph) : (s.onGraph gid f).formes = s.formes := rfl
@[simp] theorem State.onGraph_ghosts (s : State) (gid : Nat) (f : Graph → Graph) : (s.onGraph gid f).ghosts = s.ghosts := rfl
@[simp] theorem State.onGraph_launches (s : State) (gid : Nat) (f : Graph → Graph) : (s.onGraph gid f).launches = s.launches := rfl
@[simp] theorem State.onGraph_accepting (s : State) (gid : Nat) (f : Graph → Graph) : (s.onGraph gid f).accepting = s.accepting := rfl
@[simp] theorem State.onGraph_graphs (s : State) (gid : Nat) (f : Graph → Graph) : (s.onGraph gid f).graphs = modifyWhere (fun g => g.gid = gid) f s.graphs := rfl
@[simp] theorem State.onGraph_jobs (s : State) (gid : Nat) (f : Graph → Graph) : (s.onGraph gid f).jobs = s.jobs := rfl
@[simp] theorem State.onGraph_ops (s : State) (gid : Nat) (f : Graph → Graph) : (s.onGraph gid f).ops = s.ops := rfl
@[simp] theorem State.onGraph_longs (s : State) (gid : Nat) (f : Graph → Graph) : (s.onGraph gid f).longs = s.longs := rfl
@[simp] theorem State.onGraph_pressTurn (s : State) (gid : Nat) (f : Graph → Graph) : (s.onGraph gid f).pressTurn = s.pressTurn := rfl
@[simp] theorem State.onGraph_seqs (s : State) (gid : Nat) (f : Graph → Graph) : (s.onGraph gid f).seqs = s.seqs := rfl
@[simp] theorem State.onGraph_ctxs (s : State) (gid : Nat) (f : Graph → Graph) : (s.onGraph gid f).ctxs = s.ctxs := rfl
@[simp] theorem State.onGraph_parts (s : State) (gid : Nat) (f : Graph → Graph) : (s.onGraph gid f).parts = s.parts := rfl
@[simp] theorem State.onGraph_queues (s : State) (gid : Nat) (f : Graph → Graph) : (s.onGraph gid f).queues = s.queues := rfl
@[simp] theorem State.onGraph_status (s : State) (gid : Nat) (f : Graph → Graph) : (s.onGraph gid f).status = s.status := rfl
@[simp] theorem State.onGraph_mailbox (s : State) (gid : Nat) (f : Graph → Graph) : (s.onGraph gid f).mailbox = s.mailbox := rfl
@[simp] theorem State.onGraph_vfEnable (s : State) (gid : Nat) (f : Graph → Graph) : (s.onGraph gid f).vfEnable = s.vfEnable := rfl
@[simp] theorem State.onGraph_mem (s : State) (gid : Nat) (f : Graph → Graph) : (s.onGraph gid f).mem = s.mem := rfl
@[simp] theorem State.onGraph_past (s : State) (gid : Nat) (f : Graph → Graph) : (s.onGraph gid f).past = s.past := rfl
@[simp] theorem State.onGraph_poison (s : State) (gid : Nat) (f : Graph → Graph) : (s.onGraph gid f).poison = s.poison := rfl
@[simp] theorem State.onGraph_unhomed (s : State) (gid : Nat) (f : Graph → Graph) : (s.onGraph gid f).unhomed = s.unhomed := rfl
@[simp] theorem State.onGraph_failing (s : State) (gid : Nat) (f : Graph → Graph) : (s.onGraph gid f).failing = s.failing := rfl
@[simp] theorem State.onGraph_frames (s : State) (gid : Nat) (f : Graph → Graph) : (s.onGraph gid f).frames = s.frames := rfl
@[simp] theorem State.onGraph_tlb (s : State) (gid : Nat) (f : Graph → Graph) : (s.onGraph gid f).tlb = s.tlb := rfl
@[simp] theorem State.onGraph_walks (s : State) (gid : Nat) (f : Graph → Graph) : (s.onGraph gid f).walks = s.walks := rfl
@[simp] theorem State.onGraph_lines (s : State) (gid : Nat) (f : Graph → Graph) : (s.onGraph gid f).lines = s.lines := rfl
@[simp] theorem State.onGraph_fills (s : State) (gid : Nat) (f : Graph → Graph) : (s.onGraph gid f).fills = s.fills := rfl
@[simp] theorem State.onGraph_bulk (s : State) (gid : Nat) (f : Graph → Graph) : (s.onGraph gid f).bulk = s.bulk := rfl
@[simp] theorem State.onGraph_icache (s : State) (gid : Nat) (f : Graph → Graph) : (s.onGraph gid f).icache = s.icache := rfl
@[simp] theorem State.onGraph_iinvs (s : State) (gid : Nat) (f : Graph → Graph) : (s.onGraph gid f).iinvs = s.iinvs := rfl
@[simp] theorem State.onGraph_extents (s : State) (gid : Nat) (f : Graph → Graph) : (s.onGraph gid f).extents = s.extents := rfl
@[simp] theorem State.onGraph_snoops (s : State) (gid : Nat) (f : Graph → Graph) : (s.onGraph gid f).snoops = s.snoops := rfl
@[simp] theorem State.onGraph_moves (s : State) (gid : Nat) (f : Graph → Graph) : (s.onGraph gid f).moves = s.moves := rfl
@[simp] theorem State.onGraph_shared (s : State) (gid : Nat) (f : Graph → Graph) : (s.onGraph gid f).shared = s.shared := rfl
@[simp] theorem State.onGraph_resident (s : State) (gid : Nat) (f : Graph → Graph) : (s.onGraph gid f).resident = s.resident := rfl
@[simp] theorem State.onGraph_sessions (s : State) (gid : Nat) (f : Graph → Graph) : (s.onGraph gid f).sessions = s.sessions := rfl
@[simp] theorem State.onGraph_templates (s : State) (gid : Nat) (f : Graph → Graph) : (s.onGraph gid f).templates = s.templates := rfl
@[simp] theorem State.onGraph_signers (s : State) (gid : Nat) (f : Graph → Graph) : (s.onGraph gid f).signers = s.signers := rfl
@[simp] theorem State.onGraph_taskCtxs (s : State) (gid : Nat) (f : Graph → Graph) : (s.onGraph gid f).taskCtxs = s.taskCtxs := rfl
@[simp] theorem State.onGraph_viralPeers (s : State) (gid : Nat) (f : Graph → Graph) : (s.onGraph gid f).viralPeers = s.viralPeers := rfl
@[simp] theorem State.onGraph_lostPeers (s : State) (gid : Nat) (f : Graph → Graph) : (s.onGraph gid f).lostPeers = s.lostPeers := rfl
@[simp] theorem State.onGraph_ports (s : State) (gid : Nat) (f : Graph → Graph) : (s.onGraph gid f).ports = s.ports := rfl
@[simp] theorem State.onGraph_bins (s : State) (gid : Nat) (f : Graph → Graph) : (s.onGraph gid f).bins = s.bins := rfl
@[simp] theorem State.onGraph_corrections (s : State) (gid : Nat) (f : Graph → Graph) : (s.onGraph gid f).corrections = s.corrections := rfl
@[simp] theorem State.onGraph_firmware (s : State) (gid : Nat) (f : Graph → Graph) : (s.onGraph gid f).firmware = s.firmware := rfl
@[simp] theorem State.onGraph_captures (s : State) (gid : Nat) (f : Graph → Graph) : (s.onGraph gid f).captures = s.captures := rfl
@[simp] theorem State.onGraph_outputs (s : State) (gid : Nat) (f : Graph → Graph) : (s.onGraph gid f).outputs = s.outputs := rfl
@[simp] theorem State.onGraph_audits (s : State) (gid : Nat) (f : Graph → Graph) : (s.onGraph gid f).audits = s.audits := rfl
@[simp] theorem State.onGraph_acts (s : State) (gid : Nat) (f : Graph → Graph) : (s.onGraph gid f).acts = s.acts := rfl
@[simp] theorem State.onGraph_actId (s : State) (gid : Nat) (f : Graph → Graph) : (s.onGraph gid f).actId = s.actId := rfl
@[simp] theorem State.onGraph_taints (s : State) (gid : Nat) (f : Graph → Graph) : (s.onGraph gid f).taints = s.taints := rfl

@[simp] theorem State.onJob_fit (s : State) (jid : Nat) (f : Job → Job) : (s.onJob jid f).fit = s.fit := rfl
@[simp] theorem State.onJob_pid (s : State) (jid : Nat) (f : Job → Job) : (s.onJob jid f).pid = s.pid := rfl
@[simp] theorem State.onJob_dvsec (s : State) (jid : Nat) (f : Job → Job) : (s.onJob jid f).dvsec = s.dvsec := rfl
@[simp] theorem State.onJob_clk (s : State) (jid : Nat) (f : Job → Job) : (s.onJob jid f).clk = s.clk := rfl
@[simp] theorem State.onJob_wall (s : State) (jid : Nat) (f : Job → Job) : (s.onJob jid f).wall = s.wall := rfl
@[simp] theorem State.onJob_clockMHz (s : State) (jid : Nat) (f : Job → Job) : (s.onJob jid f).clockMHz = s.clockMHz := rfl
@[simp] theorem State.onJob_nextId (s : State) (jid : Nat) (f : Job → Job) : (s.onJob jid f).nextId = s.nextId := rfl
@[simp] theorem State.onJob_freeCtr (s : State) (jid : Nat) (f : Job → Job) : (s.onJob jid f).freeCtr = s.freeCtr := rfl
@[simp] theorem State.onJob_issue (s : State) (jid : Nat) (f : Job → Job) : (s.onJob jid f).issue = s.issue := rfl
@[simp] theorem State.onJob_turn (s : State) (jid : Nat) (f : Job → Job) : (s.onJob jid f).turn = s.turn := rfl
@[simp] theorem State.onJob_inbox (s : State) (jid : Nat) (f : Job → Job) : (s.onJob jid f).inbox = s.inbox := rfl
@[simp] theorem State.onJob_out (s : State) (jid : Nat) (f : Job → Job) : (s.onJob jid f).out = s.out := rfl
@[simp] theorem State.onJob_parties (s : State) (jid : Nat) (f : Job → Job) : (s.onJob jid f).parties = s.parties := rfl
@[simp] theorem State.onJob_homes (s : State) (jid : Nat) (f : Job → Job) : (s.onJob jid f).homes = s.homes := rfl
@[simp] theorem State.onJob_formes (s : State) (jid : Nat) (f : Job → Job) : (s.onJob jid f).formes = s.formes := rfl
@[simp] theorem State.onJob_ghosts (s : State) (jid : Nat) (f : Job → Job) : (s.onJob jid f).ghosts = s.ghosts := rfl
@[simp] theorem State.onJob_launches (s : State) (jid : Nat) (f : Job → Job) : (s.onJob jid f).launches = s.launches := rfl
@[simp] theorem State.onJob_accepting (s : State) (jid : Nat) (f : Job → Job) : (s.onJob jid f).accepting = s.accepting := rfl
@[simp] theorem State.onJob_graphs (s : State) (jid : Nat) (f : Job → Job) : (s.onJob jid f).graphs = s.graphs := rfl
@[simp] theorem State.onJob_jobs (s : State) (jid : Nat) (f : Job → Job) : (s.onJob jid f).jobs = modifyWhere (fun j => j.jid = jid) f s.jobs := rfl
@[simp] theorem State.onJob_ops (s : State) (jid : Nat) (f : Job → Job) : (s.onJob jid f).ops = s.ops := rfl
@[simp] theorem State.onJob_longs (s : State) (jid : Nat) (f : Job → Job) : (s.onJob jid f).longs = s.longs := rfl
@[simp] theorem State.onJob_pressTurn (s : State) (jid : Nat) (f : Job → Job) : (s.onJob jid f).pressTurn = s.pressTurn := rfl
@[simp] theorem State.onJob_seqs (s : State) (jid : Nat) (f : Job → Job) : (s.onJob jid f).seqs = s.seqs := rfl
@[simp] theorem State.onJob_ctxs (s : State) (jid : Nat) (f : Job → Job) : (s.onJob jid f).ctxs = s.ctxs := rfl
@[simp] theorem State.onJob_parts (s : State) (jid : Nat) (f : Job → Job) : (s.onJob jid f).parts = s.parts := rfl
@[simp] theorem State.onJob_queues (s : State) (jid : Nat) (f : Job → Job) : (s.onJob jid f).queues = s.queues := rfl
@[simp] theorem State.onJob_status (s : State) (jid : Nat) (f : Job → Job) : (s.onJob jid f).status = s.status := rfl
@[simp] theorem State.onJob_mailbox (s : State) (jid : Nat) (f : Job → Job) : (s.onJob jid f).mailbox = s.mailbox := rfl
@[simp] theorem State.onJob_vfEnable (s : State) (jid : Nat) (f : Job → Job) : (s.onJob jid f).vfEnable = s.vfEnable := rfl
@[simp] theorem State.onJob_mem (s : State) (jid : Nat) (f : Job → Job) : (s.onJob jid f).mem = s.mem := rfl
@[simp] theorem State.onJob_past (s : State) (jid : Nat) (f : Job → Job) : (s.onJob jid f).past = s.past := rfl
@[simp] theorem State.onJob_poison (s : State) (jid : Nat) (f : Job → Job) : (s.onJob jid f).poison = s.poison := rfl
@[simp] theorem State.onJob_unhomed (s : State) (jid : Nat) (f : Job → Job) : (s.onJob jid f).unhomed = s.unhomed := rfl
@[simp] theorem State.onJob_failing (s : State) (jid : Nat) (f : Job → Job) : (s.onJob jid f).failing = s.failing := rfl
@[simp] theorem State.onJob_frames (s : State) (jid : Nat) (f : Job → Job) : (s.onJob jid f).frames = s.frames := rfl
@[simp] theorem State.onJob_tlb (s : State) (jid : Nat) (f : Job → Job) : (s.onJob jid f).tlb = s.tlb := rfl
@[simp] theorem State.onJob_walks (s : State) (jid : Nat) (f : Job → Job) : (s.onJob jid f).walks = s.walks := rfl
@[simp] theorem State.onJob_lines (s : State) (jid : Nat) (f : Job → Job) : (s.onJob jid f).lines = s.lines := rfl
@[simp] theorem State.onJob_fills (s : State) (jid : Nat) (f : Job → Job) : (s.onJob jid f).fills = s.fills := rfl
@[simp] theorem State.onJob_bulk (s : State) (jid : Nat) (f : Job → Job) : (s.onJob jid f).bulk = s.bulk := rfl
@[simp] theorem State.onJob_icache (s : State) (jid : Nat) (f : Job → Job) : (s.onJob jid f).icache = s.icache := rfl
@[simp] theorem State.onJob_iinvs (s : State) (jid : Nat) (f : Job → Job) : (s.onJob jid f).iinvs = s.iinvs := rfl
@[simp] theorem State.onJob_extents (s : State) (jid : Nat) (f : Job → Job) : (s.onJob jid f).extents = s.extents := rfl
@[simp] theorem State.onJob_snoops (s : State) (jid : Nat) (f : Job → Job) : (s.onJob jid f).snoops = s.snoops := rfl
@[simp] theorem State.onJob_moves (s : State) (jid : Nat) (f : Job → Job) : (s.onJob jid f).moves = s.moves := rfl
@[simp] theorem State.onJob_shared (s : State) (jid : Nat) (f : Job → Job) : (s.onJob jid f).shared = s.shared := rfl
@[simp] theorem State.onJob_resident (s : State) (jid : Nat) (f : Job → Job) : (s.onJob jid f).resident = s.resident := rfl
@[simp] theorem State.onJob_sessions (s : State) (jid : Nat) (f : Job → Job) : (s.onJob jid f).sessions = s.sessions := rfl
@[simp] theorem State.onJob_templates (s : State) (jid : Nat) (f : Job → Job) : (s.onJob jid f).templates = s.templates := rfl
@[simp] theorem State.onJob_signers (s : State) (jid : Nat) (f : Job → Job) : (s.onJob jid f).signers = s.signers := rfl
@[simp] theorem State.onJob_taskCtxs (s : State) (jid : Nat) (f : Job → Job) : (s.onJob jid f).taskCtxs = s.taskCtxs := rfl
@[simp] theorem State.onJob_viralPeers (s : State) (jid : Nat) (f : Job → Job) : (s.onJob jid f).viralPeers = s.viralPeers := rfl
@[simp] theorem State.onJob_lostPeers (s : State) (jid : Nat) (f : Job → Job) : (s.onJob jid f).lostPeers = s.lostPeers := rfl
@[simp] theorem State.onJob_ports (s : State) (jid : Nat) (f : Job → Job) : (s.onJob jid f).ports = s.ports := rfl
@[simp] theorem State.onJob_bins (s : State) (jid : Nat) (f : Job → Job) : (s.onJob jid f).bins = s.bins := rfl
@[simp] theorem State.onJob_corrections (s : State) (jid : Nat) (f : Job → Job) : (s.onJob jid f).corrections = s.corrections := rfl
@[simp] theorem State.onJob_firmware (s : State) (jid : Nat) (f : Job → Job) : (s.onJob jid f).firmware = s.firmware := rfl
@[simp] theorem State.onJob_captures (s : State) (jid : Nat) (f : Job → Job) : (s.onJob jid f).captures = s.captures := rfl
@[simp] theorem State.onJob_outputs (s : State) (jid : Nat) (f : Job → Job) : (s.onJob jid f).outputs = s.outputs := rfl
@[simp] theorem State.onJob_audits (s : State) (jid : Nat) (f : Job → Job) : (s.onJob jid f).audits = s.audits := rfl
@[simp] theorem State.onJob_acts (s : State) (jid : Nat) (f : Job → Job) : (s.onJob jid f).acts = s.acts := rfl
@[simp] theorem State.onJob_actId (s : State) (jid : Nat) (f : Job → Job) : (s.onJob jid f).actId = s.actId := rfl
@[simp] theorem State.onJob_taints (s : State) (jid : Nat) (f : Job → Job) : (s.onJob jid f).taints = s.taints := rfl

@[simp] theorem State.onOp_fit (s : State) (id : Nat) (f : Op → Op) : (s.onOp id f).fit = s.fit := rfl
@[simp] theorem State.onOp_pid (s : State) (id : Nat) (f : Op → Op) : (s.onOp id f).pid = s.pid := rfl
@[simp] theorem State.onOp_dvsec (s : State) (id : Nat) (f : Op → Op) : (s.onOp id f).dvsec = s.dvsec := rfl
@[simp] theorem State.onOp_clk (s : State) (id : Nat) (f : Op → Op) : (s.onOp id f).clk = s.clk := rfl
@[simp] theorem State.onOp_wall (s : State) (id : Nat) (f : Op → Op) : (s.onOp id f).wall = s.wall := rfl
@[simp] theorem State.onOp_clockMHz (s : State) (id : Nat) (f : Op → Op) : (s.onOp id f).clockMHz = s.clockMHz := rfl
@[simp] theorem State.onOp_nextId (s : State) (id : Nat) (f : Op → Op) : (s.onOp id f).nextId = s.nextId := rfl
@[simp] theorem State.onOp_freeCtr (s : State) (id : Nat) (f : Op → Op) : (s.onOp id f).freeCtr = s.freeCtr := rfl
@[simp] theorem State.onOp_issue (s : State) (id : Nat) (f : Op → Op) : (s.onOp id f).issue = s.issue := rfl
@[simp] theorem State.onOp_turn (s : State) (id : Nat) (f : Op → Op) : (s.onOp id f).turn = s.turn := rfl
@[simp] theorem State.onOp_inbox (s : State) (id : Nat) (f : Op → Op) : (s.onOp id f).inbox = s.inbox := rfl
@[simp] theorem State.onOp_out (s : State) (id : Nat) (f : Op → Op) : (s.onOp id f).out = s.out := rfl
@[simp] theorem State.onOp_parties (s : State) (id : Nat) (f : Op → Op) : (s.onOp id f).parties = s.parties := rfl
@[simp] theorem State.onOp_homes (s : State) (id : Nat) (f : Op → Op) : (s.onOp id f).homes = s.homes := rfl
@[simp] theorem State.onOp_formes (s : State) (id : Nat) (f : Op → Op) : (s.onOp id f).formes = s.formes := rfl
@[simp] theorem State.onOp_ghosts (s : State) (id : Nat) (f : Op → Op) : (s.onOp id f).ghosts = s.ghosts := rfl
@[simp] theorem State.onOp_launches (s : State) (id : Nat) (f : Op → Op) : (s.onOp id f).launches = s.launches := rfl
@[simp] theorem State.onOp_accepting (s : State) (id : Nat) (f : Op → Op) : (s.onOp id f).accepting = s.accepting := rfl
@[simp] theorem State.onOp_graphs (s : State) (id : Nat) (f : Op → Op) : (s.onOp id f).graphs = s.graphs := rfl
@[simp] theorem State.onOp_jobs (s : State) (id : Nat) (f : Op → Op) : (s.onOp id f).jobs = s.jobs := rfl
@[simp] theorem State.onOp_ops (s : State) (id : Nat) (f : Op → Op) : (s.onOp id f).ops = modifyWhere (fun o => o.id = id) f s.ops := rfl
@[simp] theorem State.onOp_longs (s : State) (id : Nat) (f : Op → Op) : (s.onOp id f).longs = s.longs := rfl
@[simp] theorem State.onOp_pressTurn (s : State) (id : Nat) (f : Op → Op) : (s.onOp id f).pressTurn = s.pressTurn := rfl
@[simp] theorem State.onOp_seqs (s : State) (id : Nat) (f : Op → Op) : (s.onOp id f).seqs = s.seqs := rfl
@[simp] theorem State.onOp_ctxs (s : State) (id : Nat) (f : Op → Op) : (s.onOp id f).ctxs = s.ctxs := rfl
@[simp] theorem State.onOp_parts (s : State) (id : Nat) (f : Op → Op) : (s.onOp id f).parts = s.parts := rfl
@[simp] theorem State.onOp_queues (s : State) (id : Nat) (f : Op → Op) : (s.onOp id f).queues = s.queues := rfl
@[simp] theorem State.onOp_status (s : State) (id : Nat) (f : Op → Op) : (s.onOp id f).status = s.status := rfl
@[simp] theorem State.onOp_mailbox (s : State) (id : Nat) (f : Op → Op) : (s.onOp id f).mailbox = s.mailbox := rfl
@[simp] theorem State.onOp_vfEnable (s : State) (id : Nat) (f : Op → Op) : (s.onOp id f).vfEnable = s.vfEnable := rfl
@[simp] theorem State.onOp_mem (s : State) (id : Nat) (f : Op → Op) : (s.onOp id f).mem = s.mem := rfl
@[simp] theorem State.onOp_past (s : State) (id : Nat) (f : Op → Op) : (s.onOp id f).past = s.past := rfl
@[simp] theorem State.onOp_poison (s : State) (id : Nat) (f : Op → Op) : (s.onOp id f).poison = s.poison := rfl
@[simp] theorem State.onOp_unhomed (s : State) (id : Nat) (f : Op → Op) : (s.onOp id f).unhomed = s.unhomed := rfl
@[simp] theorem State.onOp_failing (s : State) (id : Nat) (f : Op → Op) : (s.onOp id f).failing = s.failing := rfl
@[simp] theorem State.onOp_frames (s : State) (id : Nat) (f : Op → Op) : (s.onOp id f).frames = s.frames := rfl
@[simp] theorem State.onOp_tlb (s : State) (id : Nat) (f : Op → Op) : (s.onOp id f).tlb = s.tlb := rfl
@[simp] theorem State.onOp_walks (s : State) (id : Nat) (f : Op → Op) : (s.onOp id f).walks = s.walks := rfl
@[simp] theorem State.onOp_lines (s : State) (id : Nat) (f : Op → Op) : (s.onOp id f).lines = s.lines := rfl
@[simp] theorem State.onOp_fills (s : State) (id : Nat) (f : Op → Op) : (s.onOp id f).fills = s.fills := rfl
@[simp] theorem State.onOp_bulk (s : State) (id : Nat) (f : Op → Op) : (s.onOp id f).bulk = s.bulk := rfl
@[simp] theorem State.onOp_icache (s : State) (id : Nat) (f : Op → Op) : (s.onOp id f).icache = s.icache := rfl
@[simp] theorem State.onOp_iinvs (s : State) (id : Nat) (f : Op → Op) : (s.onOp id f).iinvs = s.iinvs := rfl
@[simp] theorem State.onOp_extents (s : State) (id : Nat) (f : Op → Op) : (s.onOp id f).extents = s.extents := rfl
@[simp] theorem State.onOp_snoops (s : State) (id : Nat) (f : Op → Op) : (s.onOp id f).snoops = s.snoops := rfl
@[simp] theorem State.onOp_moves (s : State) (id : Nat) (f : Op → Op) : (s.onOp id f).moves = s.moves := rfl
@[simp] theorem State.onOp_shared (s : State) (id : Nat) (f : Op → Op) : (s.onOp id f).shared = s.shared := rfl
@[simp] theorem State.onOp_resident (s : State) (id : Nat) (f : Op → Op) : (s.onOp id f).resident = s.resident := rfl
@[simp] theorem State.onOp_sessions (s : State) (id : Nat) (f : Op → Op) : (s.onOp id f).sessions = s.sessions := rfl
@[simp] theorem State.onOp_templates (s : State) (id : Nat) (f : Op → Op) : (s.onOp id f).templates = s.templates := rfl
@[simp] theorem State.onOp_signers (s : State) (id : Nat) (f : Op → Op) : (s.onOp id f).signers = s.signers := rfl
@[simp] theorem State.onOp_taskCtxs (s : State) (id : Nat) (f : Op → Op) : (s.onOp id f).taskCtxs = s.taskCtxs := rfl
@[simp] theorem State.onOp_viralPeers (s : State) (id : Nat) (f : Op → Op) : (s.onOp id f).viralPeers = s.viralPeers := rfl
@[simp] theorem State.onOp_lostPeers (s : State) (id : Nat) (f : Op → Op) : (s.onOp id f).lostPeers = s.lostPeers := rfl
@[simp] theorem State.onOp_ports (s : State) (id : Nat) (f : Op → Op) : (s.onOp id f).ports = s.ports := rfl
@[simp] theorem State.onOp_bins (s : State) (id : Nat) (f : Op → Op) : (s.onOp id f).bins = s.bins := rfl
@[simp] theorem State.onOp_corrections (s : State) (id : Nat) (f : Op → Op) : (s.onOp id f).corrections = s.corrections := rfl
@[simp] theorem State.onOp_firmware (s : State) (id : Nat) (f : Op → Op) : (s.onOp id f).firmware = s.firmware := rfl
@[simp] theorem State.onOp_captures (s : State) (id : Nat) (f : Op → Op) : (s.onOp id f).captures = s.captures := rfl
@[simp] theorem State.onOp_outputs (s : State) (id : Nat) (f : Op → Op) : (s.onOp id f).outputs = s.outputs := rfl
@[simp] theorem State.onOp_audits (s : State) (id : Nat) (f : Op → Op) : (s.onOp id f).audits = s.audits := rfl
@[simp] theorem State.onOp_acts (s : State) (id : Nat) (f : Op → Op) : (s.onOp id f).acts = s.acts := rfl
@[simp] theorem State.onOp_actId (s : State) (id : Nat) (f : Op → Op) : (s.onOp id f).actId = s.actId := rfl
@[simp] theorem State.onOp_taints (s : State) (id : Nat) (f : Op → Op) : (s.onOp id f).taints = s.taints := rfl

@[simp] theorem State.onQueue_fit (s : State) (c q : Nat) (f : Queue → Queue) : (s.onQueue c q f).fit = s.fit := rfl
@[simp] theorem State.onQueue_pid (s : State) (c q : Nat) (f : Queue → Queue) : (s.onQueue c q f).pid = s.pid := rfl
@[simp] theorem State.onQueue_dvsec (s : State) (c q : Nat) (f : Queue → Queue) : (s.onQueue c q f).dvsec = s.dvsec := rfl
@[simp] theorem State.onQueue_clk (s : State) (c q : Nat) (f : Queue → Queue) : (s.onQueue c q f).clk = s.clk := rfl
@[simp] theorem State.onQueue_wall (s : State) (c q : Nat) (f : Queue → Queue) : (s.onQueue c q f).wall = s.wall := rfl
@[simp] theorem State.onQueue_clockMHz (s : State) (c q : Nat) (f : Queue → Queue) : (s.onQueue c q f).clockMHz = s.clockMHz := rfl
@[simp] theorem State.onQueue_nextId (s : State) (c q : Nat) (f : Queue → Queue) : (s.onQueue c q f).nextId = s.nextId := rfl
@[simp] theorem State.onQueue_freeCtr (s : State) (c q : Nat) (f : Queue → Queue) : (s.onQueue c q f).freeCtr = s.freeCtr := rfl
@[simp] theorem State.onQueue_issue (s : State) (c q : Nat) (f : Queue → Queue) : (s.onQueue c q f).issue = s.issue := rfl
@[simp] theorem State.onQueue_turn (s : State) (c q : Nat) (f : Queue → Queue) : (s.onQueue c q f).turn = s.turn := rfl
@[simp] theorem State.onQueue_inbox (s : State) (c q : Nat) (f : Queue → Queue) : (s.onQueue c q f).inbox = s.inbox := rfl
@[simp] theorem State.onQueue_out (s : State) (c q : Nat) (f : Queue → Queue) : (s.onQueue c q f).out = s.out := rfl
@[simp] theorem State.onQueue_parties (s : State) (c q : Nat) (f : Queue → Queue) : (s.onQueue c q f).parties = s.parties := rfl
@[simp] theorem State.onQueue_homes (s : State) (c q : Nat) (f : Queue → Queue) : (s.onQueue c q f).homes = s.homes := rfl
@[simp] theorem State.onQueue_formes (s : State) (c q : Nat) (f : Queue → Queue) : (s.onQueue c q f).formes = s.formes := rfl
@[simp] theorem State.onQueue_ghosts (s : State) (c q : Nat) (f : Queue → Queue) : (s.onQueue c q f).ghosts = s.ghosts := rfl
@[simp] theorem State.onQueue_launches (s : State) (c q : Nat) (f : Queue → Queue) : (s.onQueue c q f).launches = s.launches := rfl
@[simp] theorem State.onQueue_accepting (s : State) (c q : Nat) (f : Queue → Queue) : (s.onQueue c q f).accepting = s.accepting := rfl
@[simp] theorem State.onQueue_graphs (s : State) (c q : Nat) (f : Queue → Queue) : (s.onQueue c q f).graphs = s.graphs := rfl
@[simp] theorem State.onQueue_jobs (s : State) (c q : Nat) (f : Queue → Queue) : (s.onQueue c q f).jobs = s.jobs := rfl
@[simp] theorem State.onQueue_ops (s : State) (c q : Nat) (f : Queue → Queue) : (s.onQueue c q f).ops = s.ops := rfl
@[simp] theorem State.onQueue_longs (s : State) (c q : Nat) (f : Queue → Queue) : (s.onQueue c q f).longs = s.longs := rfl
@[simp] theorem State.onQueue_pressTurn (s : State) (c q : Nat) (f : Queue → Queue) : (s.onQueue c q f).pressTurn = s.pressTurn := rfl
@[simp] theorem State.onQueue_seqs (s : State) (c q : Nat) (f : Queue → Queue) : (s.onQueue c q f).seqs = s.seqs := rfl
@[simp] theorem State.onQueue_ctxs (s : State) (c q : Nat) (f : Queue → Queue) : (s.onQueue c q f).ctxs = s.ctxs := rfl
@[simp] theorem State.onQueue_parts (s : State) (c q : Nat) (f : Queue → Queue) : (s.onQueue c q f).parts = s.parts := rfl
@[simp] theorem State.onQueue_queues (s : State) (c q : Nat) (f : Queue → Queue) : (s.onQueue c q f).queues = modifyWhere (fun x => x.ctx = c && x.slot = q) f s.queues := rfl
@[simp] theorem State.onQueue_status (s : State) (c q : Nat) (f : Queue → Queue) : (s.onQueue c q f).status = s.status := rfl
@[simp] theorem State.onQueue_mailbox (s : State) (c q : Nat) (f : Queue → Queue) : (s.onQueue c q f).mailbox = s.mailbox := rfl
@[simp] theorem State.onQueue_vfEnable (s : State) (c q : Nat) (f : Queue → Queue) : (s.onQueue c q f).vfEnable = s.vfEnable := rfl
@[simp] theorem State.onQueue_mem (s : State) (c q : Nat) (f : Queue → Queue) : (s.onQueue c q f).mem = s.mem := rfl
@[simp] theorem State.onQueue_past (s : State) (c q : Nat) (f : Queue → Queue) : (s.onQueue c q f).past = s.past := rfl
@[simp] theorem State.onQueue_poison (s : State) (c q : Nat) (f : Queue → Queue) : (s.onQueue c q f).poison = s.poison := rfl
@[simp] theorem State.onQueue_unhomed (s : State) (c q : Nat) (f : Queue → Queue) : (s.onQueue c q f).unhomed = s.unhomed := rfl
@[simp] theorem State.onQueue_failing (s : State) (c q : Nat) (f : Queue → Queue) : (s.onQueue c q f).failing = s.failing := rfl
@[simp] theorem State.onQueue_frames (s : State) (c q : Nat) (f : Queue → Queue) : (s.onQueue c q f).frames = s.frames := rfl
@[simp] theorem State.onQueue_tlb (s : State) (c q : Nat) (f : Queue → Queue) : (s.onQueue c q f).tlb = s.tlb := rfl
@[simp] theorem State.onQueue_walks (s : State) (c q : Nat) (f : Queue → Queue) : (s.onQueue c q f).walks = s.walks := rfl
@[simp] theorem State.onQueue_lines (s : State) (c q : Nat) (f : Queue → Queue) : (s.onQueue c q f).lines = s.lines := rfl
@[simp] theorem State.onQueue_fills (s : State) (c q : Nat) (f : Queue → Queue) : (s.onQueue c q f).fills = s.fills := rfl
@[simp] theorem State.onQueue_bulk (s : State) (c q : Nat) (f : Queue → Queue) : (s.onQueue c q f).bulk = s.bulk := rfl
@[simp] theorem State.onQueue_icache (s : State) (c q : Nat) (f : Queue → Queue) : (s.onQueue c q f).icache = s.icache := rfl
@[simp] theorem State.onQueue_iinvs (s : State) (c q : Nat) (f : Queue → Queue) : (s.onQueue c q f).iinvs = s.iinvs := rfl
@[simp] theorem State.onQueue_extents (s : State) (c q : Nat) (f : Queue → Queue) : (s.onQueue c q f).extents = s.extents := rfl
@[simp] theorem State.onQueue_snoops (s : State) (c q : Nat) (f : Queue → Queue) : (s.onQueue c q f).snoops = s.snoops := rfl
@[simp] theorem State.onQueue_moves (s : State) (c q : Nat) (f : Queue → Queue) : (s.onQueue c q f).moves = s.moves := rfl
@[simp] theorem State.onQueue_shared (s : State) (c q : Nat) (f : Queue → Queue) : (s.onQueue c q f).shared = s.shared := rfl
@[simp] theorem State.onQueue_resident (s : State) (c q : Nat) (f : Queue → Queue) : (s.onQueue c q f).resident = s.resident := rfl
@[simp] theorem State.onQueue_sessions (s : State) (c q : Nat) (f : Queue → Queue) : (s.onQueue c q f).sessions = s.sessions := rfl
@[simp] theorem State.onQueue_templates (s : State) (c q : Nat) (f : Queue → Queue) : (s.onQueue c q f).templates = s.templates := rfl
@[simp] theorem State.onQueue_signers (s : State) (c q : Nat) (f : Queue → Queue) : (s.onQueue c q f).signers = s.signers := rfl
@[simp] theorem State.onQueue_taskCtxs (s : State) (c q : Nat) (f : Queue → Queue) : (s.onQueue c q f).taskCtxs = s.taskCtxs := rfl
@[simp] theorem State.onQueue_viralPeers (s : State) (c q : Nat) (f : Queue → Queue) : (s.onQueue c q f).viralPeers = s.viralPeers := rfl
@[simp] theorem State.onQueue_lostPeers (s : State) (c q : Nat) (f : Queue → Queue) : (s.onQueue c q f).lostPeers = s.lostPeers := rfl
@[simp] theorem State.onQueue_ports (s : State) (c q : Nat) (f : Queue → Queue) : (s.onQueue c q f).ports = s.ports := rfl
@[simp] theorem State.onQueue_bins (s : State) (c q : Nat) (f : Queue → Queue) : (s.onQueue c q f).bins = s.bins := rfl
@[simp] theorem State.onQueue_corrections (s : State) (c q : Nat) (f : Queue → Queue) : (s.onQueue c q f).corrections = s.corrections := rfl
@[simp] theorem State.onQueue_firmware (s : State) (c q : Nat) (f : Queue → Queue) : (s.onQueue c q f).firmware = s.firmware := rfl
@[simp] theorem State.onQueue_captures (s : State) (c q : Nat) (f : Queue → Queue) : (s.onQueue c q f).captures = s.captures := rfl
@[simp] theorem State.onQueue_outputs (s : State) (c q : Nat) (f : Queue → Queue) : (s.onQueue c q f).outputs = s.outputs := rfl
@[simp] theorem State.onQueue_audits (s : State) (c q : Nat) (f : Queue → Queue) : (s.onQueue c q f).audits = s.audits := rfl
@[simp] theorem State.onQueue_acts (s : State) (c q : Nat) (f : Queue → Queue) : (s.onQueue c q f).acts = s.acts := rfl
@[simp] theorem State.onQueue_actId (s : State) (c q : Nat) (f : Queue → Queue) : (s.onQueue c q f).actId = s.actId := rfl
@[simp] theorem State.onQueue_taints (s : State) (c q : Nat) (f : Queue → Queue) : (s.onQueue c q f).taints = s.taints := rfl

@[simp] theorem State.onCtx_fit (s : State) (n : Nat) (f : Ctx → Ctx) : (s.onCtx n f).fit = s.fit := rfl
@[simp] theorem State.onCtx_pid (s : State) (n : Nat) (f : Ctx → Ctx) : (s.onCtx n f).pid = s.pid := rfl
@[simp] theorem State.onCtx_dvsec (s : State) (n : Nat) (f : Ctx → Ctx) : (s.onCtx n f).dvsec = s.dvsec := rfl
@[simp] theorem State.onCtx_clk (s : State) (n : Nat) (f : Ctx → Ctx) : (s.onCtx n f).clk = s.clk := rfl
@[simp] theorem State.onCtx_wall (s : State) (n : Nat) (f : Ctx → Ctx) : (s.onCtx n f).wall = s.wall := rfl
@[simp] theorem State.onCtx_clockMHz (s : State) (n : Nat) (f : Ctx → Ctx) : (s.onCtx n f).clockMHz = s.clockMHz := rfl
@[simp] theorem State.onCtx_nextId (s : State) (n : Nat) (f : Ctx → Ctx) : (s.onCtx n f).nextId = s.nextId := rfl
@[simp] theorem State.onCtx_freeCtr (s : State) (n : Nat) (f : Ctx → Ctx) : (s.onCtx n f).freeCtr = s.freeCtr := rfl
@[simp] theorem State.onCtx_issue (s : State) (n : Nat) (f : Ctx → Ctx) : (s.onCtx n f).issue = s.issue := rfl
@[simp] theorem State.onCtx_turn (s : State) (n : Nat) (f : Ctx → Ctx) : (s.onCtx n f).turn = s.turn := rfl
@[simp] theorem State.onCtx_inbox (s : State) (n : Nat) (f : Ctx → Ctx) : (s.onCtx n f).inbox = s.inbox := rfl
@[simp] theorem State.onCtx_out (s : State) (n : Nat) (f : Ctx → Ctx) : (s.onCtx n f).out = s.out := rfl
@[simp] theorem State.onCtx_parties (s : State) (n : Nat) (f : Ctx → Ctx) : (s.onCtx n f).parties = s.parties := rfl
@[simp] theorem State.onCtx_homes (s : State) (n : Nat) (f : Ctx → Ctx) : (s.onCtx n f).homes = s.homes := rfl
@[simp] theorem State.onCtx_formes (s : State) (n : Nat) (f : Ctx → Ctx) : (s.onCtx n f).formes = s.formes := rfl
@[simp] theorem State.onCtx_ghosts (s : State) (n : Nat) (f : Ctx → Ctx) : (s.onCtx n f).ghosts = s.ghosts := rfl
@[simp] theorem State.onCtx_launches (s : State) (n : Nat) (f : Ctx → Ctx) : (s.onCtx n f).launches = s.launches := rfl
@[simp] theorem State.onCtx_accepting (s : State) (n : Nat) (f : Ctx → Ctx) : (s.onCtx n f).accepting = s.accepting := rfl
@[simp] theorem State.onCtx_graphs (s : State) (n : Nat) (f : Ctx → Ctx) : (s.onCtx n f).graphs = s.graphs := rfl
@[simp] theorem State.onCtx_jobs (s : State) (n : Nat) (f : Ctx → Ctx) : (s.onCtx n f).jobs = s.jobs := rfl
@[simp] theorem State.onCtx_ops (s : State) (n : Nat) (f : Ctx → Ctx) : (s.onCtx n f).ops = s.ops := rfl
@[simp] theorem State.onCtx_longs (s : State) (n : Nat) (f : Ctx → Ctx) : (s.onCtx n f).longs = s.longs := rfl
@[simp] theorem State.onCtx_pressTurn (s : State) (n : Nat) (f : Ctx → Ctx) : (s.onCtx n f).pressTurn = s.pressTurn := rfl
@[simp] theorem State.onCtx_seqs (s : State) (n : Nat) (f : Ctx → Ctx) : (s.onCtx n f).seqs = s.seqs := rfl
@[simp] theorem State.onCtx_ctxs (s : State) (n : Nat) (f : Ctx → Ctx) : (s.onCtx n f).ctxs = s.ctxs.modify n f := rfl
@[simp] theorem State.onCtx_parts (s : State) (n : Nat) (f : Ctx → Ctx) : (s.onCtx n f).parts = s.parts := rfl
@[simp] theorem State.onCtx_queues (s : State) (n : Nat) (f : Ctx → Ctx) : (s.onCtx n f).queues = s.queues := rfl
@[simp] theorem State.onCtx_status (s : State) (n : Nat) (f : Ctx → Ctx) : (s.onCtx n f).status = s.status := rfl
@[simp] theorem State.onCtx_mailbox (s : State) (n : Nat) (f : Ctx → Ctx) : (s.onCtx n f).mailbox = s.mailbox := rfl
@[simp] theorem State.onCtx_vfEnable (s : State) (n : Nat) (f : Ctx → Ctx) : (s.onCtx n f).vfEnable = s.vfEnable := rfl
@[simp] theorem State.onCtx_mem (s : State) (n : Nat) (f : Ctx → Ctx) : (s.onCtx n f).mem = s.mem := rfl
@[simp] theorem State.onCtx_past (s : State) (n : Nat) (f : Ctx → Ctx) : (s.onCtx n f).past = s.past := rfl
@[simp] theorem State.onCtx_poison (s : State) (n : Nat) (f : Ctx → Ctx) : (s.onCtx n f).poison = s.poison := rfl
@[simp] theorem State.onCtx_unhomed (s : State) (n : Nat) (f : Ctx → Ctx) : (s.onCtx n f).unhomed = s.unhomed := rfl
@[simp] theorem State.onCtx_failing (s : State) (n : Nat) (f : Ctx → Ctx) : (s.onCtx n f).failing = s.failing := rfl
@[simp] theorem State.onCtx_frames (s : State) (n : Nat) (f : Ctx → Ctx) : (s.onCtx n f).frames = s.frames := rfl
@[simp] theorem State.onCtx_tlb (s : State) (n : Nat) (f : Ctx → Ctx) : (s.onCtx n f).tlb = s.tlb := rfl
@[simp] theorem State.onCtx_walks (s : State) (n : Nat) (f : Ctx → Ctx) : (s.onCtx n f).walks = s.walks := rfl
@[simp] theorem State.onCtx_lines (s : State) (n : Nat) (f : Ctx → Ctx) : (s.onCtx n f).lines = s.lines := rfl
@[simp] theorem State.onCtx_fills (s : State) (n : Nat) (f : Ctx → Ctx) : (s.onCtx n f).fills = s.fills := rfl
@[simp] theorem State.onCtx_bulk (s : State) (n : Nat) (f : Ctx → Ctx) : (s.onCtx n f).bulk = s.bulk := rfl
@[simp] theorem State.onCtx_icache (s : State) (n : Nat) (f : Ctx → Ctx) : (s.onCtx n f).icache = s.icache := rfl
@[simp] theorem State.onCtx_iinvs (s : State) (n : Nat) (f : Ctx → Ctx) : (s.onCtx n f).iinvs = s.iinvs := rfl
@[simp] theorem State.onCtx_extents (s : State) (n : Nat) (f : Ctx → Ctx) : (s.onCtx n f).extents = s.extents := rfl
@[simp] theorem State.onCtx_snoops (s : State) (n : Nat) (f : Ctx → Ctx) : (s.onCtx n f).snoops = s.snoops := rfl
@[simp] theorem State.onCtx_moves (s : State) (n : Nat) (f : Ctx → Ctx) : (s.onCtx n f).moves = s.moves := rfl
@[simp] theorem State.onCtx_shared (s : State) (n : Nat) (f : Ctx → Ctx) : (s.onCtx n f).shared = s.shared := rfl
@[simp] theorem State.onCtx_resident (s : State) (n : Nat) (f : Ctx → Ctx) : (s.onCtx n f).resident = s.resident := rfl
@[simp] theorem State.onCtx_sessions (s : State) (n : Nat) (f : Ctx → Ctx) : (s.onCtx n f).sessions = s.sessions := rfl
@[simp] theorem State.onCtx_templates (s : State) (n : Nat) (f : Ctx → Ctx) : (s.onCtx n f).templates = s.templates := rfl
@[simp] theorem State.onCtx_signers (s : State) (n : Nat) (f : Ctx → Ctx) : (s.onCtx n f).signers = s.signers := rfl
@[simp] theorem State.onCtx_taskCtxs (s : State) (n : Nat) (f : Ctx → Ctx) : (s.onCtx n f).taskCtxs = s.taskCtxs := rfl
@[simp] theorem State.onCtx_viralPeers (s : State) (n : Nat) (f : Ctx → Ctx) : (s.onCtx n f).viralPeers = s.viralPeers := rfl
@[simp] theorem State.onCtx_lostPeers (s : State) (n : Nat) (f : Ctx → Ctx) : (s.onCtx n f).lostPeers = s.lostPeers := rfl
@[simp] theorem State.onCtx_ports (s : State) (n : Nat) (f : Ctx → Ctx) : (s.onCtx n f).ports = s.ports := rfl
@[simp] theorem State.onCtx_bins (s : State) (n : Nat) (f : Ctx → Ctx) : (s.onCtx n f).bins = s.bins := rfl
@[simp] theorem State.onCtx_corrections (s : State) (n : Nat) (f : Ctx → Ctx) : (s.onCtx n f).corrections = s.corrections := rfl
@[simp] theorem State.onCtx_firmware (s : State) (n : Nat) (f : Ctx → Ctx) : (s.onCtx n f).firmware = s.firmware := rfl
@[simp] theorem State.onCtx_captures (s : State) (n : Nat) (f : Ctx → Ctx) : (s.onCtx n f).captures = s.captures := rfl
@[simp] theorem State.onCtx_outputs (s : State) (n : Nat) (f : Ctx → Ctx) : (s.onCtx n f).outputs = s.outputs := rfl
@[simp] theorem State.onCtx_audits (s : State) (n : Nat) (f : Ctx → Ctx) : (s.onCtx n f).audits = s.audits := rfl
@[simp] theorem State.onCtx_acts (s : State) (n : Nat) (f : Ctx → Ctx) : (s.onCtx n f).acts = s.acts := rfl
@[simp] theorem State.onCtx_actId (s : State) (n : Nat) (f : Ctx → Ctx) : (s.onCtx n f).actId = s.actId := rfl
@[simp] theorem State.onCtx_taints (s : State) (n : Nat) (f : Ctx → Ctx) : (s.onCtx n f).taints = s.taints := rfl

@[simp] theorem State.onPart_fit (s : State) (n : Nat) (f : Part → Part) : (s.onPart n f).fit = s.fit := rfl
@[simp] theorem State.onPart_pid (s : State) (n : Nat) (f : Part → Part) : (s.onPart n f).pid = s.pid := rfl
@[simp] theorem State.onPart_dvsec (s : State) (n : Nat) (f : Part → Part) : (s.onPart n f).dvsec = s.dvsec := rfl
@[simp] theorem State.onPart_clk (s : State) (n : Nat) (f : Part → Part) : (s.onPart n f).clk = s.clk := rfl
@[simp] theorem State.onPart_wall (s : State) (n : Nat) (f : Part → Part) : (s.onPart n f).wall = s.wall := rfl
@[simp] theorem State.onPart_clockMHz (s : State) (n : Nat) (f : Part → Part) : (s.onPart n f).clockMHz = s.clockMHz := rfl
@[simp] theorem State.onPart_nextId (s : State) (n : Nat) (f : Part → Part) : (s.onPart n f).nextId = s.nextId := rfl
@[simp] theorem State.onPart_freeCtr (s : State) (n : Nat) (f : Part → Part) : (s.onPart n f).freeCtr = s.freeCtr := rfl
@[simp] theorem State.onPart_issue (s : State) (n : Nat) (f : Part → Part) : (s.onPart n f).issue = s.issue := rfl
@[simp] theorem State.onPart_turn (s : State) (n : Nat) (f : Part → Part) : (s.onPart n f).turn = s.turn := rfl
@[simp] theorem State.onPart_inbox (s : State) (n : Nat) (f : Part → Part) : (s.onPart n f).inbox = s.inbox := rfl
@[simp] theorem State.onPart_out (s : State) (n : Nat) (f : Part → Part) : (s.onPart n f).out = s.out := rfl
@[simp] theorem State.onPart_parties (s : State) (n : Nat) (f : Part → Part) : (s.onPart n f).parties = s.parties := rfl
@[simp] theorem State.onPart_homes (s : State) (n : Nat) (f : Part → Part) : (s.onPart n f).homes = s.homes := rfl
@[simp] theorem State.onPart_formes (s : State) (n : Nat) (f : Part → Part) : (s.onPart n f).formes = s.formes := rfl
@[simp] theorem State.onPart_ghosts (s : State) (n : Nat) (f : Part → Part) : (s.onPart n f).ghosts = s.ghosts := rfl
@[simp] theorem State.onPart_launches (s : State) (n : Nat) (f : Part → Part) : (s.onPart n f).launches = s.launches := rfl
@[simp] theorem State.onPart_accepting (s : State) (n : Nat) (f : Part → Part) : (s.onPart n f).accepting = s.accepting := rfl
@[simp] theorem State.onPart_graphs (s : State) (n : Nat) (f : Part → Part) : (s.onPart n f).graphs = s.graphs := rfl
@[simp] theorem State.onPart_jobs (s : State) (n : Nat) (f : Part → Part) : (s.onPart n f).jobs = s.jobs := rfl
@[simp] theorem State.onPart_ops (s : State) (n : Nat) (f : Part → Part) : (s.onPart n f).ops = s.ops := rfl
@[simp] theorem State.onPart_longs (s : State) (n : Nat) (f : Part → Part) : (s.onPart n f).longs = s.longs := rfl
@[simp] theorem State.onPart_pressTurn (s : State) (n : Nat) (f : Part → Part) : (s.onPart n f).pressTurn = s.pressTurn := rfl
@[simp] theorem State.onPart_seqs (s : State) (n : Nat) (f : Part → Part) : (s.onPart n f).seqs = s.seqs := rfl
@[simp] theorem State.onPart_ctxs (s : State) (n : Nat) (f : Part → Part) : (s.onPart n f).ctxs = s.ctxs := rfl
@[simp] theorem State.onPart_parts (s : State) (n : Nat) (f : Part → Part) : (s.onPart n f).parts = s.parts.modify n f := rfl
@[simp] theorem State.onPart_queues (s : State) (n : Nat) (f : Part → Part) : (s.onPart n f).queues = s.queues := rfl
@[simp] theorem State.onPart_status (s : State) (n : Nat) (f : Part → Part) : (s.onPart n f).status = s.status := rfl
@[simp] theorem State.onPart_mailbox (s : State) (n : Nat) (f : Part → Part) : (s.onPart n f).mailbox = s.mailbox := rfl
@[simp] theorem State.onPart_vfEnable (s : State) (n : Nat) (f : Part → Part) : (s.onPart n f).vfEnable = s.vfEnable := rfl
@[simp] theorem State.onPart_mem (s : State) (n : Nat) (f : Part → Part) : (s.onPart n f).mem = s.mem := rfl
@[simp] theorem State.onPart_past (s : State) (n : Nat) (f : Part → Part) : (s.onPart n f).past = s.past := rfl
@[simp] theorem State.onPart_poison (s : State) (n : Nat) (f : Part → Part) : (s.onPart n f).poison = s.poison := rfl
@[simp] theorem State.onPart_unhomed (s : State) (n : Nat) (f : Part → Part) : (s.onPart n f).unhomed = s.unhomed := rfl
@[simp] theorem State.onPart_failing (s : State) (n : Nat) (f : Part → Part) : (s.onPart n f).failing = s.failing := rfl
@[simp] theorem State.onPart_frames (s : State) (n : Nat) (f : Part → Part) : (s.onPart n f).frames = s.frames := rfl
@[simp] theorem State.onPart_tlb (s : State) (n : Nat) (f : Part → Part) : (s.onPart n f).tlb = s.tlb := rfl
@[simp] theorem State.onPart_walks (s : State) (n : Nat) (f : Part → Part) : (s.onPart n f).walks = s.walks := rfl
@[simp] theorem State.onPart_lines (s : State) (n : Nat) (f : Part → Part) : (s.onPart n f).lines = s.lines := rfl
@[simp] theorem State.onPart_fills (s : State) (n : Nat) (f : Part → Part) : (s.onPart n f).fills = s.fills := rfl
@[simp] theorem State.onPart_bulk (s : State) (n : Nat) (f : Part → Part) : (s.onPart n f).bulk = s.bulk := rfl
@[simp] theorem State.onPart_icache (s : State) (n : Nat) (f : Part → Part) : (s.onPart n f).icache = s.icache := rfl
@[simp] theorem State.onPart_iinvs (s : State) (n : Nat) (f : Part → Part) : (s.onPart n f).iinvs = s.iinvs := rfl
@[simp] theorem State.onPart_extents (s : State) (n : Nat) (f : Part → Part) : (s.onPart n f).extents = s.extents := rfl
@[simp] theorem State.onPart_snoops (s : State) (n : Nat) (f : Part → Part) : (s.onPart n f).snoops = s.snoops := rfl
@[simp] theorem State.onPart_moves (s : State) (n : Nat) (f : Part → Part) : (s.onPart n f).moves = s.moves := rfl
@[simp] theorem State.onPart_shared (s : State) (n : Nat) (f : Part → Part) : (s.onPart n f).shared = s.shared := rfl
@[simp] theorem State.onPart_resident (s : State) (n : Nat) (f : Part → Part) : (s.onPart n f).resident = s.resident := rfl
@[simp] theorem State.onPart_sessions (s : State) (n : Nat) (f : Part → Part) : (s.onPart n f).sessions = s.sessions := rfl
@[simp] theorem State.onPart_templates (s : State) (n : Nat) (f : Part → Part) : (s.onPart n f).templates = s.templates := rfl
@[simp] theorem State.onPart_signers (s : State) (n : Nat) (f : Part → Part) : (s.onPart n f).signers = s.signers := rfl
@[simp] theorem State.onPart_taskCtxs (s : State) (n : Nat) (f : Part → Part) : (s.onPart n f).taskCtxs = s.taskCtxs := rfl
@[simp] theorem State.onPart_viralPeers (s : State) (n : Nat) (f : Part → Part) : (s.onPart n f).viralPeers = s.viralPeers := rfl
@[simp] theorem State.onPart_lostPeers (s : State) (n : Nat) (f : Part → Part) : (s.onPart n f).lostPeers = s.lostPeers := rfl
@[simp] theorem State.onPart_ports (s : State) (n : Nat) (f : Part → Part) : (s.onPart n f).ports = s.ports := rfl
@[simp] theorem State.onPart_bins (s : State) (n : Nat) (f : Part → Part) : (s.onPart n f).bins = s.bins := rfl
@[simp] theorem State.onPart_corrections (s : State) (n : Nat) (f : Part → Part) : (s.onPart n f).corrections = s.corrections := rfl
@[simp] theorem State.onPart_firmware (s : State) (n : Nat) (f : Part → Part) : (s.onPart n f).firmware = s.firmware := rfl
@[simp] theorem State.onPart_captures (s : State) (n : Nat) (f : Part → Part) : (s.onPart n f).captures = s.captures := rfl
@[simp] theorem State.onPart_outputs (s : State) (n : Nat) (f : Part → Part) : (s.onPart n f).outputs = s.outputs := rfl
@[simp] theorem State.onPart_audits (s : State) (n : Nat) (f : Part → Part) : (s.onPart n f).audits = s.audits := rfl
@[simp] theorem State.onPart_acts (s : State) (n : Nat) (f : Part → Part) : (s.onPart n f).acts = s.acts := rfl
@[simp] theorem State.onPart_actId (s : State) (n : Nat) (f : Part → Part) : (s.onPart n f).actId = s.actId := rfl
@[simp] theorem State.onPart_taints (s : State) (n : Nat) (f : Part → Part) : (s.onPart n f).taints = s.taints := rfl

@[simp] theorem State.send_fit (s : State) (m : Msg) : (s.send m).fit = s.fit := rfl
@[simp] theorem State.send_pid (s : State) (m : Msg) : (s.send m).pid = s.pid := rfl
@[simp] theorem State.send_dvsec (s : State) (m : Msg) : (s.send m).dvsec = s.dvsec := rfl
@[simp] theorem State.send_clk (s : State) (m : Msg) : (s.send m).clk = s.clk := rfl
@[simp] theorem State.send_wall (s : State) (m : Msg) : (s.send m).wall = s.wall := rfl
@[simp] theorem State.send_clockMHz (s : State) (m : Msg) : (s.send m).clockMHz = s.clockMHz := rfl
@[simp] theorem State.send_nextId (s : State) (m : Msg) : (s.send m).nextId = s.nextId := rfl
@[simp] theorem State.send_freeCtr (s : State) (m : Msg) : (s.send m).freeCtr = s.freeCtr := rfl
@[simp] theorem State.send_issue (s : State) (m : Msg) : (s.send m).issue = s.issue := rfl
@[simp] theorem State.send_turn (s : State) (m : Msg) : (s.send m).turn = s.turn := rfl
@[simp] theorem State.send_inbox (s : State) (m : Msg) : (s.send m).inbox = s.inbox := rfl
@[simp] theorem State.send_out (s : State) (m : Msg) : (s.send m).out = s.out ++ [m] := rfl
@[simp] theorem State.send_parties (s : State) (m : Msg) : (s.send m).parties = s.parties := rfl
@[simp] theorem State.send_homes (s : State) (m : Msg) : (s.send m).homes = s.homes := rfl
@[simp] theorem State.send_formes (s : State) (m : Msg) : (s.send m).formes = s.formes := rfl
@[simp] theorem State.send_ghosts (s : State) (m : Msg) : (s.send m).ghosts = s.ghosts := rfl
@[simp] theorem State.send_launches (s : State) (m : Msg) : (s.send m).launches = s.launches := rfl
@[simp] theorem State.send_accepting (s : State) (m : Msg) : (s.send m).accepting = s.accepting := rfl
@[simp] theorem State.send_graphs (s : State) (m : Msg) : (s.send m).graphs = s.graphs := rfl
@[simp] theorem State.send_jobs (s : State) (m : Msg) : (s.send m).jobs = s.jobs := rfl
@[simp] theorem State.send_ops (s : State) (m : Msg) : (s.send m).ops = s.ops := rfl
@[simp] theorem State.send_longs (s : State) (m : Msg) : (s.send m).longs = s.longs := rfl
@[simp] theorem State.send_pressTurn (s : State) (m : Msg) : (s.send m).pressTurn = s.pressTurn := rfl
@[simp] theorem State.send_seqs (s : State) (m : Msg) : (s.send m).seqs = s.seqs := rfl
@[simp] theorem State.send_ctxs (s : State) (m : Msg) : (s.send m).ctxs = s.ctxs := rfl
@[simp] theorem State.send_parts (s : State) (m : Msg) : (s.send m).parts = s.parts := rfl
@[simp] theorem State.send_queues (s : State) (m : Msg) : (s.send m).queues = s.queues := rfl
@[simp] theorem State.send_status (s : State) (m : Msg) : (s.send m).status = s.status := rfl
@[simp] theorem State.send_mailbox (s : State) (m : Msg) : (s.send m).mailbox = s.mailbox := rfl
@[simp] theorem State.send_vfEnable (s : State) (m : Msg) : (s.send m).vfEnable = s.vfEnable := rfl
@[simp] theorem State.send_mem (s : State) (m : Msg) : (s.send m).mem = s.mem := rfl
@[simp] theorem State.send_past (s : State) (m : Msg) : (s.send m).past = s.past := rfl
@[simp] theorem State.send_poison (s : State) (m : Msg) : (s.send m).poison = s.poison := rfl
@[simp] theorem State.send_unhomed (s : State) (m : Msg) : (s.send m).unhomed = s.unhomed := rfl
@[simp] theorem State.send_failing (s : State) (m : Msg) : (s.send m).failing = s.failing := rfl
@[simp] theorem State.send_frames (s : State) (m : Msg) : (s.send m).frames = s.frames := rfl
@[simp] theorem State.send_tlb (s : State) (m : Msg) : (s.send m).tlb = s.tlb := rfl
@[simp] theorem State.send_walks (s : State) (m : Msg) : (s.send m).walks = s.walks := rfl
@[simp] theorem State.send_lines (s : State) (m : Msg) : (s.send m).lines = s.lines := rfl
@[simp] theorem State.send_fills (s : State) (m : Msg) : (s.send m).fills = s.fills := rfl
@[simp] theorem State.send_bulk (s : State) (m : Msg) : (s.send m).bulk = s.bulk := rfl
@[simp] theorem State.send_icache (s : State) (m : Msg) : (s.send m).icache = s.icache := rfl
@[simp] theorem State.send_iinvs (s : State) (m : Msg) : (s.send m).iinvs = s.iinvs := rfl
@[simp] theorem State.send_extents (s : State) (m : Msg) : (s.send m).extents = s.extents := rfl
@[simp] theorem State.send_snoops (s : State) (m : Msg) : (s.send m).snoops = s.snoops := rfl
@[simp] theorem State.send_moves (s : State) (m : Msg) : (s.send m).moves = s.moves := rfl
@[simp] theorem State.send_shared (s : State) (m : Msg) : (s.send m).shared = s.shared := rfl
@[simp] theorem State.send_resident (s : State) (m : Msg) : (s.send m).resident = s.resident := rfl
@[simp] theorem State.send_sessions (s : State) (m : Msg) : (s.send m).sessions = s.sessions := rfl
@[simp] theorem State.send_templates (s : State) (m : Msg) : (s.send m).templates = s.templates := rfl
@[simp] theorem State.send_signers (s : State) (m : Msg) : (s.send m).signers = s.signers := rfl
@[simp] theorem State.send_taskCtxs (s : State) (m : Msg) : (s.send m).taskCtxs = s.taskCtxs := rfl
@[simp] theorem State.send_viralPeers (s : State) (m : Msg) : (s.send m).viralPeers = s.viralPeers := rfl
@[simp] theorem State.send_lostPeers (s : State) (m : Msg) : (s.send m).lostPeers = s.lostPeers := rfl
@[simp] theorem State.send_ports (s : State) (m : Msg) : (s.send m).ports = s.ports := rfl
@[simp] theorem State.send_bins (s : State) (m : Msg) : (s.send m).bins = s.bins := rfl
@[simp] theorem State.send_corrections (s : State) (m : Msg) : (s.send m).corrections = s.corrections := rfl
@[simp] theorem State.send_firmware (s : State) (m : Msg) : (s.send m).firmware = s.firmware := rfl
@[simp] theorem State.send_captures (s : State) (m : Msg) : (s.send m).captures = s.captures := rfl
@[simp] theorem State.send_outputs (s : State) (m : Msg) : (s.send m).outputs = s.outputs := rfl
@[simp] theorem State.send_audits (s : State) (m : Msg) : (s.send m).audits = s.audits := rfl
@[simp] theorem State.send_acts (s : State) (m : Msg) : (s.send m).acts = s.acts := rfl
@[simp] theorem State.send_actId (s : State) (m : Msg) : (s.send m).actId = s.actId := rfl
@[simp] theorem State.send_taints (s : State) (m : Msg) : (s.send m).taints = s.taints := rfl

@[simp] theorem State.bump_fit (s : State) : (s.bump).fit = s.fit := rfl
@[simp] theorem State.bump_pid (s : State) : (s.bump).pid = s.pid := rfl
@[simp] theorem State.bump_dvsec (s : State) : (s.bump).dvsec = s.dvsec := rfl
@[simp] theorem State.bump_clk (s : State) : (s.bump).clk = s.clk := rfl
@[simp] theorem State.bump_wall (s : State) : (s.bump).wall = s.wall := rfl
@[simp] theorem State.bump_clockMHz (s : State) : (s.bump).clockMHz = s.clockMHz := rfl
@[simp] theorem State.bump_nextId (s : State) : (s.bump).nextId = s.nextId + 1 := rfl
@[simp] theorem State.bump_freeCtr (s : State) : (s.bump).freeCtr = s.freeCtr := rfl
@[simp] theorem State.bump_issue (s : State) : (s.bump).issue = s.issue := rfl
@[simp] theorem State.bump_turn (s : State) : (s.bump).turn = s.turn := rfl
@[simp] theorem State.bump_inbox (s : State) : (s.bump).inbox = s.inbox := rfl
@[simp] theorem State.bump_out (s : State) : (s.bump).out = s.out := rfl
@[simp] theorem State.bump_parties (s : State) : (s.bump).parties = s.parties := rfl
@[simp] theorem State.bump_homes (s : State) : (s.bump).homes = s.homes := rfl
@[simp] theorem State.bump_formes (s : State) : (s.bump).formes = s.formes := rfl
@[simp] theorem State.bump_ghosts (s : State) : (s.bump).ghosts = s.ghosts := rfl
@[simp] theorem State.bump_launches (s : State) : (s.bump).launches = s.launches := rfl
@[simp] theorem State.bump_accepting (s : State) : (s.bump).accepting = s.accepting := rfl
@[simp] theorem State.bump_graphs (s : State) : (s.bump).graphs = s.graphs := rfl
@[simp] theorem State.bump_jobs (s : State) : (s.bump).jobs = s.jobs := rfl
@[simp] theorem State.bump_ops (s : State) : (s.bump).ops = s.ops := rfl
@[simp] theorem State.bump_longs (s : State) : (s.bump).longs = s.longs := rfl
@[simp] theorem State.bump_pressTurn (s : State) : (s.bump).pressTurn = s.pressTurn := rfl
@[simp] theorem State.bump_seqs (s : State) : (s.bump).seqs = s.seqs := rfl
@[simp] theorem State.bump_ctxs (s : State) : (s.bump).ctxs = s.ctxs := rfl
@[simp] theorem State.bump_parts (s : State) : (s.bump).parts = s.parts := rfl
@[simp] theorem State.bump_queues (s : State) : (s.bump).queues = s.queues := rfl
@[simp] theorem State.bump_status (s : State) : (s.bump).status = s.status := rfl
@[simp] theorem State.bump_mailbox (s : State) : (s.bump).mailbox = s.mailbox := rfl
@[simp] theorem State.bump_vfEnable (s : State) : (s.bump).vfEnable = s.vfEnable := rfl
@[simp] theorem State.bump_mem (s : State) : (s.bump).mem = s.mem := rfl
@[simp] theorem State.bump_past (s : State) : (s.bump).past = s.past := rfl
@[simp] theorem State.bump_poison (s : State) : (s.bump).poison = s.poison := rfl
@[simp] theorem State.bump_unhomed (s : State) : (s.bump).unhomed = s.unhomed := rfl
@[simp] theorem State.bump_failing (s : State) : (s.bump).failing = s.failing := rfl
@[simp] theorem State.bump_frames (s : State) : (s.bump).frames = s.frames := rfl
@[simp] theorem State.bump_tlb (s : State) : (s.bump).tlb = s.tlb := rfl
@[simp] theorem State.bump_walks (s : State) : (s.bump).walks = s.walks := rfl
@[simp] theorem State.bump_lines (s : State) : (s.bump).lines = s.lines := rfl
@[simp] theorem State.bump_fills (s : State) : (s.bump).fills = s.fills := rfl
@[simp] theorem State.bump_bulk (s : State) : (s.bump).bulk = s.bulk := rfl
@[simp] theorem State.bump_icache (s : State) : (s.bump).icache = s.icache := rfl
@[simp] theorem State.bump_iinvs (s : State) : (s.bump).iinvs = s.iinvs := rfl
@[simp] theorem State.bump_extents (s : State) : (s.bump).extents = s.extents := rfl
@[simp] theorem State.bump_snoops (s : State) : (s.bump).snoops = s.snoops := rfl
@[simp] theorem State.bump_moves (s : State) : (s.bump).moves = s.moves := rfl
@[simp] theorem State.bump_shared (s : State) : (s.bump).shared = s.shared := rfl
@[simp] theorem State.bump_resident (s : State) : (s.bump).resident = s.resident := rfl
@[simp] theorem State.bump_sessions (s : State) : (s.bump).sessions = s.sessions := rfl
@[simp] theorem State.bump_templates (s : State) : (s.bump).templates = s.templates := rfl
@[simp] theorem State.bump_signers (s : State) : (s.bump).signers = s.signers := rfl
@[simp] theorem State.bump_taskCtxs (s : State) : (s.bump).taskCtxs = s.taskCtxs := rfl
@[simp] theorem State.bump_viralPeers (s : State) : (s.bump).viralPeers = s.viralPeers := rfl
@[simp] theorem State.bump_lostPeers (s : State) : (s.bump).lostPeers = s.lostPeers := rfl
@[simp] theorem State.bump_ports (s : State) : (s.bump).ports = s.ports := rfl
@[simp] theorem State.bump_bins (s : State) : (s.bump).bins = s.bins := rfl
@[simp] theorem State.bump_corrections (s : State) : (s.bump).corrections = s.corrections := rfl
@[simp] theorem State.bump_firmware (s : State) : (s.bump).firmware = s.firmware := rfl
@[simp] theorem State.bump_captures (s : State) : (s.bump).captures = s.captures := rfl
@[simp] theorem State.bump_outputs (s : State) : (s.bump).outputs = s.outputs := rfl
@[simp] theorem State.bump_audits (s : State) : (s.bump).audits = s.audits := rfl
@[simp] theorem State.bump_acts (s : State) : (s.bump).acts = s.acts := rfl
@[simp] theorem State.bump_actId (s : State) : (s.bump).actId = s.actId := rfl
@[simp] theorem State.bump_taints (s : State) : (s.bump).taints = s.taints := rfl

@[simp] theorem State.stir_fit (s : State) : (s.stir).fit = s.fit := rfl
@[simp] theorem State.stir_pid (s : State) : (s.stir).pid = s.pid := rfl
@[simp] theorem State.stir_dvsec (s : State) : (s.stir).dvsec = s.dvsec := rfl
@[simp] theorem State.stir_clk (s : State) : (s.stir).clk = s.clk := rfl
@[simp] theorem State.stir_wall (s : State) : (s.stir).wall = s.wall := rfl
@[simp] theorem State.stir_clockMHz (s : State) : (s.stir).clockMHz = s.clockMHz := rfl
@[simp] theorem State.stir_nextId (s : State) : (s.stir).nextId = s.nextId := rfl
@[simp] theorem State.stir_freeCtr (s : State) : (s.stir).freeCtr = s.freeCtr + 1 := rfl
@[simp] theorem State.stir_issue (s : State) : (s.stir).issue = s.issue := rfl
@[simp] theorem State.stir_turn (s : State) : (s.stir).turn = s.turn := rfl
@[simp] theorem State.stir_inbox (s : State) : (s.stir).inbox = s.inbox := rfl
@[simp] theorem State.stir_out (s : State) : (s.stir).out = s.out := rfl
@[simp] theorem State.stir_parties (s : State) : (s.stir).parties = s.parties := rfl
@[simp] theorem State.stir_homes (s : State) : (s.stir).homes = s.homes := rfl
@[simp] theorem State.stir_formes (s : State) : (s.stir).formes = s.formes := rfl
@[simp] theorem State.stir_ghosts (s : State) : (s.stir).ghosts = s.ghosts := rfl
@[simp] theorem State.stir_launches (s : State) : (s.stir).launches = s.launches := rfl
@[simp] theorem State.stir_accepting (s : State) : (s.stir).accepting = s.accepting := rfl
@[simp] theorem State.stir_graphs (s : State) : (s.stir).graphs = s.graphs := rfl
@[simp] theorem State.stir_jobs (s : State) : (s.stir).jobs = s.jobs := rfl
@[simp] theorem State.stir_ops (s : State) : (s.stir).ops = s.ops := rfl
@[simp] theorem State.stir_longs (s : State) : (s.stir).longs = s.longs := rfl
@[simp] theorem State.stir_pressTurn (s : State) : (s.stir).pressTurn = s.pressTurn := rfl
@[simp] theorem State.stir_seqs (s : State) : (s.stir).seqs = s.seqs := rfl
@[simp] theorem State.stir_ctxs (s : State) : (s.stir).ctxs = s.ctxs := rfl
@[simp] theorem State.stir_parts (s : State) : (s.stir).parts = s.parts := rfl
@[simp] theorem State.stir_queues (s : State) : (s.stir).queues = s.queues := rfl
@[simp] theorem State.stir_status (s : State) : (s.stir).status = s.status := rfl
@[simp] theorem State.stir_mailbox (s : State) : (s.stir).mailbox = s.mailbox := rfl
@[simp] theorem State.stir_vfEnable (s : State) : (s.stir).vfEnable = s.vfEnable := rfl
@[simp] theorem State.stir_mem (s : State) : (s.stir).mem = s.mem := rfl
@[simp] theorem State.stir_past (s : State) : (s.stir).past = s.past := rfl
@[simp] theorem State.stir_poison (s : State) : (s.stir).poison = s.poison := rfl
@[simp] theorem State.stir_unhomed (s : State) : (s.stir).unhomed = s.unhomed := rfl
@[simp] theorem State.stir_failing (s : State) : (s.stir).failing = s.failing := rfl
@[simp] theorem State.stir_frames (s : State) : (s.stir).frames = s.frames := rfl
@[simp] theorem State.stir_tlb (s : State) : (s.stir).tlb = s.tlb := rfl
@[simp] theorem State.stir_walks (s : State) : (s.stir).walks = s.walks := rfl
@[simp] theorem State.stir_lines (s : State) : (s.stir).lines = s.lines := rfl
@[simp] theorem State.stir_fills (s : State) : (s.stir).fills = s.fills := rfl
@[simp] theorem State.stir_bulk (s : State) : (s.stir).bulk = s.bulk := rfl
@[simp] theorem State.stir_icache (s : State) : (s.stir).icache = s.icache := rfl
@[simp] theorem State.stir_iinvs (s : State) : (s.stir).iinvs = s.iinvs := rfl
@[simp] theorem State.stir_extents (s : State) : (s.stir).extents = s.extents := rfl
@[simp] theorem State.stir_snoops (s : State) : (s.stir).snoops = s.snoops := rfl
@[simp] theorem State.stir_moves (s : State) : (s.stir).moves = s.moves := rfl
@[simp] theorem State.stir_shared (s : State) : (s.stir).shared = s.shared := rfl
@[simp] theorem State.stir_resident (s : State) : (s.stir).resident = s.resident := rfl
@[simp] theorem State.stir_sessions (s : State) : (s.stir).sessions = s.sessions := rfl
@[simp] theorem State.stir_templates (s : State) : (s.stir).templates = s.templates := rfl
@[simp] theorem State.stir_signers (s : State) : (s.stir).signers = s.signers := rfl
@[simp] theorem State.stir_taskCtxs (s : State) : (s.stir).taskCtxs = s.taskCtxs := rfl
@[simp] theorem State.stir_viralPeers (s : State) : (s.stir).viralPeers = s.viralPeers := rfl
@[simp] theorem State.stir_lostPeers (s : State) : (s.stir).lostPeers = s.lostPeers := rfl
@[simp] theorem State.stir_ports (s : State) : (s.stir).ports = s.ports := rfl
@[simp] theorem State.stir_bins (s : State) : (s.stir).bins = s.bins := rfl
@[simp] theorem State.stir_corrections (s : State) : (s.stir).corrections = s.corrections := rfl
@[simp] theorem State.stir_firmware (s : State) : (s.stir).firmware = s.firmware := rfl
@[simp] theorem State.stir_captures (s : State) : (s.stir).captures = s.captures := rfl
@[simp] theorem State.stir_outputs (s : State) : (s.stir).outputs = s.outputs := rfl
@[simp] theorem State.stir_audits (s : State) : (s.stir).audits = s.audits := rfl
@[simp] theorem State.stir_acts (s : State) : (s.stir).acts = s.acts := rfl
@[simp] theorem State.stir_actId (s : State) : (s.stir).actId = s.actId := rfl
@[simp] theorem State.stir_taints (s : State) : (s.stir).taints = s.taints := rfl

@[simp] theorem State.pass_fit (s : State) (n : Nat) : (s.pass n).fit = s.fit := rfl
@[simp] theorem State.pass_pid (s : State) (n : Nat) : (s.pass n).pid = s.pid := rfl
@[simp] theorem State.pass_dvsec (s : State) (n : Nat) : (s.pass n).dvsec = s.dvsec := rfl
@[simp] theorem State.pass_clk (s : State) (n : Nat) : (s.pass n).clk = s.clk + s.slack n := rfl
@[simp] theorem State.pass_wall (s : State) (n : Nat) : (s.pass n).wall = s.wall + s.slack n * s.fsPerClk := rfl
@[simp] theorem State.pass_clockMHz (s : State) (n : Nat) : (s.pass n).clockMHz = s.clockMHz := rfl
@[simp] theorem State.pass_nextId (s : State) (n : Nat) : (s.pass n).nextId = s.nextId := rfl
@[simp] theorem State.pass_freeCtr (s : State) (n : Nat) : (s.pass n).freeCtr = s.freeCtr := rfl
@[simp] theorem State.pass_issue (s : State) (n : Nat) : (s.pass n).issue = s.issue := rfl
@[simp] theorem State.pass_turn (s : State) (n : Nat) : (s.pass n).turn = s.turn := rfl
@[simp] theorem State.pass_inbox (s : State) (n : Nat) : (s.pass n).inbox = s.inbox := rfl
@[simp] theorem State.pass_out (s : State) (n : Nat) : (s.pass n).out = s.out := rfl
@[simp] theorem State.pass_parties (s : State) (n : Nat) : (s.pass n).parties = s.parties := rfl
@[simp] theorem State.pass_homes (s : State) (n : Nat) : (s.pass n).homes = s.homes := rfl
@[simp] theorem State.pass_formes (s : State) (n : Nat) : (s.pass n).formes = s.formes := rfl
@[simp] theorem State.pass_ghosts (s : State) (n : Nat) : (s.pass n).ghosts = s.ghosts := rfl
@[simp] theorem State.pass_launches (s : State) (n : Nat) : (s.pass n).launches = s.launches := rfl
@[simp] theorem State.pass_accepting (s : State) (n : Nat) : (s.pass n).accepting = s.accepting := rfl
@[simp] theorem State.pass_graphs (s : State) (n : Nat) : (s.pass n).graphs = s.graphs := rfl
@[simp] theorem State.pass_jobs (s : State) (n : Nat) : (s.pass n).jobs = s.jobs := rfl
@[simp] theorem State.pass_ops (s : State) (n : Nat) : (s.pass n).ops = s.ops := rfl
@[simp] theorem State.pass_longs (s : State) (n : Nat) : (s.pass n).longs = s.longs := rfl
@[simp] theorem State.pass_pressTurn (s : State) (n : Nat) : (s.pass n).pressTurn = s.pressTurn := rfl
@[simp] theorem State.pass_seqs (s : State) (n : Nat) : (s.pass n).seqs = s.seqs := rfl
@[simp] theorem State.pass_ctxs (s : State) (n : Nat) : (s.pass n).ctxs = s.ctxs := rfl
@[simp] theorem State.pass_parts (s : State) (n : Nat) : (s.pass n).parts = s.parts := rfl
@[simp] theorem State.pass_queues (s : State) (n : Nat) : (s.pass n).queues = s.queues := rfl
@[simp] theorem State.pass_status (s : State) (n : Nat) : (s.pass n).status = s.status := rfl
@[simp] theorem State.pass_mailbox (s : State) (n : Nat) : (s.pass n).mailbox = s.mailbox := rfl
@[simp] theorem State.pass_vfEnable (s : State) (n : Nat) : (s.pass n).vfEnable = s.vfEnable := rfl
@[simp] theorem State.pass_mem (s : State) (n : Nat) : (s.pass n).mem = s.mem := rfl
@[simp] theorem State.pass_past (s : State) (n : Nat) : (s.pass n).past = s.past := rfl
@[simp] theorem State.pass_poison (s : State) (n : Nat) : (s.pass n).poison = s.poison := rfl
@[simp] theorem State.pass_unhomed (s : State) (n : Nat) : (s.pass n).unhomed = s.unhomed := rfl
@[simp] theorem State.pass_failing (s : State) (n : Nat) : (s.pass n).failing = s.failing := rfl
@[simp] theorem State.pass_frames (s : State) (n : Nat) : (s.pass n).frames = s.frames := rfl
@[simp] theorem State.pass_tlb (s : State) (n : Nat) : (s.pass n).tlb = s.tlb := rfl
@[simp] theorem State.pass_walks (s : State) (n : Nat) : (s.pass n).walks = s.walks := rfl
@[simp] theorem State.pass_lines (s : State) (n : Nat) : (s.pass n).lines = s.lines := rfl
@[simp] theorem State.pass_fills (s : State) (n : Nat) : (s.pass n).fills = s.fills := rfl
@[simp] theorem State.pass_bulk (s : State) (n : Nat) : (s.pass n).bulk = s.bulk := rfl
@[simp] theorem State.pass_icache (s : State) (n : Nat) : (s.pass n).icache = s.icache := rfl
@[simp] theorem State.pass_iinvs (s : State) (n : Nat) : (s.pass n).iinvs = s.iinvs := rfl
@[simp] theorem State.pass_extents (s : State) (n : Nat) : (s.pass n).extents = s.extents := rfl
@[simp] theorem State.pass_snoops (s : State) (n : Nat) : (s.pass n).snoops = s.snoops := rfl
@[simp] theorem State.pass_moves (s : State) (n : Nat) : (s.pass n).moves = s.moves := rfl
@[simp] theorem State.pass_shared (s : State) (n : Nat) : (s.pass n).shared = s.shared := rfl
@[simp] theorem State.pass_resident (s : State) (n : Nat) : (s.pass n).resident = s.resident := rfl
@[simp] theorem State.pass_sessions (s : State) (n : Nat) : (s.pass n).sessions = s.sessions := rfl
@[simp] theorem State.pass_templates (s : State) (n : Nat) : (s.pass n).templates = s.templates := rfl
@[simp] theorem State.pass_signers (s : State) (n : Nat) : (s.pass n).signers = s.signers := rfl
@[simp] theorem State.pass_taskCtxs (s : State) (n : Nat) : (s.pass n).taskCtxs = s.taskCtxs := rfl
@[simp] theorem State.pass_viralPeers (s : State) (n : Nat) : (s.pass n).viralPeers = s.viralPeers := rfl
@[simp] theorem State.pass_lostPeers (s : State) (n : Nat) : (s.pass n).lostPeers = s.lostPeers := rfl
@[simp] theorem State.pass_ports (s : State) (n : Nat) : (s.pass n).ports = s.ports := rfl
@[simp] theorem State.pass_bins (s : State) (n : Nat) : (s.pass n).bins = s.bins := rfl
@[simp] theorem State.pass_corrections (s : State) (n : Nat) : (s.pass n).corrections = s.corrections := rfl
@[simp] theorem State.pass_firmware (s : State) (n : Nat) : (s.pass n).firmware = s.firmware := rfl
@[simp] theorem State.pass_captures (s : State) (n : Nat) : (s.pass n).captures = s.captures := rfl
@[simp] theorem State.pass_outputs (s : State) (n : Nat) : (s.pass n).outputs = s.outputs := rfl
@[simp] theorem State.pass_audits (s : State) (n : Nat) : (s.pass n).audits = s.audits := rfl
@[simp] theorem State.pass_acts (s : State) (n : Nat) : (s.pass n).acts = s.acts := rfl
@[simp] theorem State.pass_actId (s : State) (n : Nat) : (s.pass n).actId = s.actId := rfl
@[simp] theorem State.pass_taints (s : State) (n : Nat) : (s.pass n).taints = s.taints := rfl

@[simp] theorem State.count_fit (s : State) (c k n : Nat) : (s.count c k n).fit = s.fit := rfl
@[simp] theorem State.count_pid (s : State) (c k n : Nat) : (s.count c k n).pid = s.pid := rfl
@[simp] theorem State.count_dvsec (s : State) (c k n : Nat) : (s.count c k n).dvsec = s.dvsec := rfl
@[simp] theorem State.count_clk (s : State) (c k n : Nat) : (s.count c k n).clk = s.clk := rfl
@[simp] theorem State.count_wall (s : State) (c k n : Nat) : (s.count c k n).wall = s.wall := rfl
@[simp] theorem State.count_clockMHz (s : State) (c k n : Nat) : (s.count c k n).clockMHz = s.clockMHz := rfl
@[simp] theorem State.count_nextId (s : State) (c k n : Nat) : (s.count c k n).nextId = s.nextId := rfl
@[simp] theorem State.count_freeCtr (s : State) (c k n : Nat) : (s.count c k n).freeCtr = s.freeCtr := rfl
@[simp] theorem State.count_issue (s : State) (c k n : Nat) : (s.count c k n).issue = s.issue := rfl
@[simp] theorem State.count_turn (s : State) (c k n : Nat) : (s.count c k n).turn = s.turn := rfl
@[simp] theorem State.count_inbox (s : State) (c k n : Nat) : (s.count c k n).inbox = s.inbox := rfl
@[simp] theorem State.count_out (s : State) (c k n : Nat) : (s.count c k n).out = s.out := rfl
@[simp] theorem State.count_parties (s : State) (c k n : Nat) : (s.count c k n).parties = s.parties := rfl
@[simp] theorem State.count_homes (s : State) (c k n : Nat) : (s.count c k n).homes = s.homes := rfl
@[simp] theorem State.count_formes (s : State) (c k n : Nat) : (s.count c k n).formes = s.formes := rfl
@[simp] theorem State.count_ghosts (s : State) (c k n : Nat) : (s.count c k n).ghosts = s.ghosts := rfl
@[simp] theorem State.count_launches (s : State) (c k n : Nat) : (s.count c k n).launches = s.launches := rfl
@[simp] theorem State.count_accepting (s : State) (c k n : Nat) : (s.count c k n).accepting = s.accepting := rfl
@[simp] theorem State.count_graphs (s : State) (c k n : Nat) : (s.count c k n).graphs = s.graphs := rfl
@[simp] theorem State.count_jobs (s : State) (c k n : Nat) : (s.count c k n).jobs = s.jobs := rfl
@[simp] theorem State.count_ops (s : State) (c k n : Nat) : (s.count c k n).ops = s.ops := rfl
@[simp] theorem State.count_longs (s : State) (c k n : Nat) : (s.count c k n).longs = s.longs := rfl
@[simp] theorem State.count_pressTurn (s : State) (c k n : Nat) : (s.count c k n).pressTurn = s.pressTurn := rfl
@[simp] theorem State.count_seqs (s : State) (c k n : Nat) : (s.count c k n).seqs = s.seqs := rfl
@[simp] theorem State.count_ctxs (s : State) (c k n : Nat) : (s.count c k n).ctxs = s.ctxs.modify c fun x => { x with counters := x.counters.modify k fun v => v + BitVec.ofNat 64 n } := rfl
@[simp] theorem State.count_parts (s : State) (c k n : Nat) : (s.count c k n).parts = s.parts := rfl
@[simp] theorem State.count_queues (s : State) (c k n : Nat) : (s.count c k n).queues = s.queues := rfl
@[simp] theorem State.count_status (s : State) (c k n : Nat) : (s.count c k n).status = s.status := rfl
@[simp] theorem State.count_mailbox (s : State) (c k n : Nat) : (s.count c k n).mailbox = s.mailbox := rfl
@[simp] theorem State.count_vfEnable (s : State) (c k n : Nat) : (s.count c k n).vfEnable = s.vfEnable := rfl
@[simp] theorem State.count_mem (s : State) (c k n : Nat) : (s.count c k n).mem = s.mem := rfl
@[simp] theorem State.count_past (s : State) (c k n : Nat) : (s.count c k n).past = s.past := rfl
@[simp] theorem State.count_poison (s : State) (c k n : Nat) : (s.count c k n).poison = s.poison := rfl
@[simp] theorem State.count_unhomed (s : State) (c k n : Nat) : (s.count c k n).unhomed = s.unhomed := rfl
@[simp] theorem State.count_failing (s : State) (c k n : Nat) : (s.count c k n).failing = s.failing := rfl
@[simp] theorem State.count_frames (s : State) (c k n : Nat) : (s.count c k n).frames = s.frames := rfl
@[simp] theorem State.count_tlb (s : State) (c k n : Nat) : (s.count c k n).tlb = s.tlb := rfl
@[simp] theorem State.count_walks (s : State) (c k n : Nat) : (s.count c k n).walks = s.walks := rfl
@[simp] theorem State.count_lines (s : State) (c k n : Nat) : (s.count c k n).lines = s.lines := rfl
@[simp] theorem State.count_fills (s : State) (c k n : Nat) : (s.count c k n).fills = s.fills := rfl
@[simp] theorem State.count_bulk (s : State) (c k n : Nat) : (s.count c k n).bulk = s.bulk := rfl
@[simp] theorem State.count_icache (s : State) (c k n : Nat) : (s.count c k n).icache = s.icache := rfl
@[simp] theorem State.count_iinvs (s : State) (c k n : Nat) : (s.count c k n).iinvs = s.iinvs := rfl
@[simp] theorem State.count_extents (s : State) (c k n : Nat) : (s.count c k n).extents = s.extents := rfl
@[simp] theorem State.count_snoops (s : State) (c k n : Nat) : (s.count c k n).snoops = s.snoops := rfl
@[simp] theorem State.count_moves (s : State) (c k n : Nat) : (s.count c k n).moves = s.moves := rfl
@[simp] theorem State.count_shared (s : State) (c k n : Nat) : (s.count c k n).shared = s.shared := rfl
@[simp] theorem State.count_resident (s : State) (c k n : Nat) : (s.count c k n).resident = s.resident := rfl
@[simp] theorem State.count_sessions (s : State) (c k n : Nat) : (s.count c k n).sessions = s.sessions := rfl
@[simp] theorem State.count_templates (s : State) (c k n : Nat) : (s.count c k n).templates = s.templates := rfl
@[simp] theorem State.count_signers (s : State) (c k n : Nat) : (s.count c k n).signers = s.signers := rfl
@[simp] theorem State.count_taskCtxs (s : State) (c k n : Nat) : (s.count c k n).taskCtxs = s.taskCtxs := rfl
@[simp] theorem State.count_viralPeers (s : State) (c k n : Nat) : (s.count c k n).viralPeers = s.viralPeers := rfl
@[simp] theorem State.count_lostPeers (s : State) (c k n : Nat) : (s.count c k n).lostPeers = s.lostPeers := rfl
@[simp] theorem State.count_ports (s : State) (c k n : Nat) : (s.count c k n).ports = s.ports := rfl
@[simp] theorem State.count_bins (s : State) (c k n : Nat) : (s.count c k n).bins = s.bins := rfl
@[simp] theorem State.count_corrections (s : State) (c k n : Nat) : (s.count c k n).corrections = s.corrections := rfl
@[simp] theorem State.count_firmware (s : State) (c k n : Nat) : (s.count c k n).firmware = s.firmware := rfl
@[simp] theorem State.count_captures (s : State) (c k n : Nat) : (s.count c k n).captures = s.captures := rfl
@[simp] theorem State.count_outputs (s : State) (c k n : Nat) : (s.count c k n).outputs = s.outputs := rfl
@[simp] theorem State.count_audits (s : State) (c k n : Nat) : (s.count c k n).audits = s.audits := rfl
@[simp] theorem State.count_acts (s : State) (c k n : Nat) : (s.count c k n).acts = s.acts := rfl
@[simp] theorem State.count_actId (s : State) (c k n : Nat) : (s.count c k n).actId = s.actId := rfl
@[simp] theorem State.count_taints (s : State) (c k n : Nat) : (s.count c k n).taints = s.taints := rfl

end Sys2Proof.Machine
end

