-- ==== Sys2Proof/Laws/Memory.lean ====
section
/-! SUPPORT. Data by key: what reads give after writes, and that every write keeps the canonical form; then the same of memory bytes. -/
namespace Sys2Proof.Machine

theorem storeWfFrom_mono {α : Type} [DecidableEq α] {d : α} {m : List (Nat × α)} {lo lo' : Nat} (h : storeWfFrom d lo m = true) (hl : lo' ≤ lo) :
    storeWfFrom d lo' m = true := by
  cases m with
  | nil => rfl
  | cons e m =>
    simp only [storeWfFrom, Bool.and_eq_true, decide_eq_true_eq] at h ⊢
    exact ⟨⟨by omega, h.1.2⟩, h.2⟩

theorem storeGet_low {α : Type} [DecidableEq α] {d : α} {m : List (Nat × α)} {lo k : Nat} (h : storeWfFrom d lo m = true) (hk : k < lo) :
    storeGet d k m = d := by
  induction m generalizing lo with
  | nil => rfl
  | cons e m ih =>
    simp [storeWfFrom] at h
    simp only [storeGet]
    rw [if_neg (by omega)]
    exact ih h.2 (by omega)

theorem storeSet_wfFrom {α : Type} [DecidableEq α] {d : α} {m : List (Nat × α)} {lo k : Nat} (v : α) (h : storeWfFrom d lo m = true) (hk : lo ≤ k) :
    storeWfFrom d lo (storeSet d k v m) = true := by
  induction m generalizing lo with
  | nil => unfold storeSet; split <;> simp_all [storeWfFrom]
  | cons e m ih =>
    simp [storeWfFrom] at h
    simp only [storeSet]
    split
    · simp only [storeWfFrom, Bool.and_eq_true, decide_eq_true_eq]
      exact ⟨⟨h.1.1, by simpa using h.1.2⟩, ih h.2 (by omega)⟩
    · split
      · split
        · exact storeWfFrom_mono h.2 (by omega)
        · simp_all [storeWfFrom]
      · split
        · simp_all [storeWfFrom]
        · simp_all [storeWfFrom]; omega

/-- A write keeps the canonical form. -/
theorem storeSet_wf {α : Type} [DecidableEq α] {d : α} {m : List (Nat × α)} (k : Nat) (v : α) (h : storeWf d m = true) : storeWf d (storeSet d k v m) = true :=
  storeSet_wfFrom v h (Nat.zero_le k)

theorem storeGet_storeSet_from {α : Type} [DecidableEq α] {d : α} {m : List (Nat × α)} {lo : Nat} (k j : Nat) (v : α) (h : storeWfFrom d lo m = true) :
    storeGet d j (storeSet d k v m) = if j = k then v else storeGet d j m := by
  induction m generalizing lo with
  | nil =>
    by_cases hj : j = k
    · by_cases hv : v = d <;> simp [storeSet, storeGet, hj, hv]
    · by_cases hv : v = d <;> simp [storeSet, storeGet, hj, Ne.symm hj, hv]
  | cons e m ih =>
    simp [storeWfFrom] at h
    obtain ⟨⟨_, _⟩, hm⟩ := h
    simp only [storeSet]
    split
    · simp only [storeGet]
      rw [ih hm]
      by_cases e1 : e.1 = j
      · subst e1; rw [if_pos rfl, if_neg (by omega), if_pos rfl]
      · rw [if_neg e1, if_neg e1]
    · split
      · rename_i _ hk
        split
        · rename_i hv
          subst hk hv
          by_cases e1 : e.1 = j
          · subst e1; rw [if_pos rfl]; exact storeGet_low hm (by omega)
          · rw [if_neg (Ne.symm e1)]; simp only [storeGet]; rw [if_neg e1]
        · subst hk
          simp only [storeGet]
          by_cases e1 : e.1 = j
          · subst e1; simp
          · rw [if_neg e1, if_neg (Ne.symm e1), if_neg e1]
      · split
        · rename_i hv
          subst hv
          by_cases e1 : j = k
          · subst e1; rw [if_pos rfl]
            simp only [storeGet]; rw [if_neg (by omega)]
            exact storeGet_low hm (by omega)
          · rw [if_neg e1]
        · simp only [storeGet]
          by_cases e1 : k = j
          · subst e1; simp
          · rw [if_neg e1, if_neg (Ne.symm e1)]

/-- Reading after a write: the value at its key, and everything else as before. -/
theorem storeGet_storeSet {α : Type} [DecidableEq α] {d : α} {m : List (Nat × α)} (k j : Nat) (v : α) (h : storeWf d m = true) :
    storeGet d j (storeSet d k v m) = if j = k then v else storeGet d j m := storeGet_storeSet_from k j v h

/-- Dropping entries keeps the canonical form. -/
theorem storeWfFrom_filter {α : Type} [DecidableEq α] {d : α} {m : List (Nat × α)} {lo : Nat} (p : Nat × α → Bool) (h : storeWfFrom d lo m = true) :
    storeWfFrom d lo (m.filter p) = true := by
  induction m generalizing lo with
  | nil => rfl
  | cons e m ih =>
    simp [storeWfFrom] at h
    rw [List.filter_cons]
    split
    · simp only [storeWfFrom, Bool.and_eq_true, decide_eq_true_eq]
      exact ⟨⟨h.1.1, by simpa using h.1.2⟩, ih h.2⟩
    · exact ih (storeWfFrom_mono h.2 (by omega))

/-- Two canonical forms that read the same at every key are the same data. -/
theorem storeWfFrom_ext {α : Type} [DecidableEq α] {d : α} {m n : List (Nat × α)} {lo : Nat} (hm : storeWfFrom d lo m = true) (hn : storeWfFrom d lo n = true)
    (h : ∀ k, storeGet d k m = storeGet d k n) : m = n := by
  induction m generalizing n lo with
  | nil =>
    cases n with
    | nil => rfl
    | cons e n =>
      simp [storeWfFrom] at hn
      have := h e.1
      simp [storeGet] at this
      exact absurd this.symm hn.1.2
  | cons e m ih =>
    cases n with
    | nil =>
      simp [storeWfFrom] at hm
      have := h e.1
      simp [storeGet] at this
      exact absurd this hm.1.2
    | cons x n =>
      obtain ⟨a, u⟩ := e
      obtain ⟨b, w⟩ := x
      simp [storeWfFrom] at hm hn
      have key : a = b := by
        rcases Nat.lt_trichotomy a b with g | g | g
        · have := h a
          simp only [storeGet] at this
          rw [if_pos trivial, if_neg (by omega), storeGet_low hn.2 (by omega)] at this
          exact absurd this hm.1.2
        · exact g
        · have := h b
          simp only [storeGet] at this
          rw [if_pos trivial, if_neg (by omega), storeGet_low hm.2 (by omega)] at this
          exact absurd this.symm hn.1.2
      subst key
      have val : u = w := by simpa [storeGet] using h a
      subst val
      congr 1
      refine ih hm.2 hn.2 fun k => ?_
      by_cases g : k ≤ a
      · rw [storeGet_low hm.2 (by omega), storeGet_low hn.2 (by omega)]
      · have := h k
        simp only [storeGet] at this
        rwa [if_neg (by omega), if_neg (by omega)] at this

/-! Memory bytes. -/

theorem memSet_wf {m : Mem} (a : Nat) (b : Byte) (h : Memory.wf m = true) : Memory.wf (memSet m a b) = true := storeSet_wf a b h

theorem memGet_memSet {m : Mem} (a x : Nat) (b : Byte) (h : Memory.wf m = true) : memGet (memSet m a b) x = if x = a then b else memGet m x :=
  storeGet_storeSet a x b h

theorem memSetN_wf {m : Mem} (a : Nat) (bs : List Byte) (h : Memory.wf m = true) : Memory.wf (memSetN m a bs) = true := by
  induction bs generalizing m a with
  | nil => exact h
  | cons b bs ih => exact ih (a + 1) (memSet_wf a b h)

/-- Bytes outside those written read as before. -/
theorem memGet_memSetN_outside {m : Mem} (a x : Nat) (bs : List Byte) (h : Memory.wf m = true) (hx : x < a ∨ a + bs.length ≤ x) :
    memGet (memSetN m a bs) x = memGet m x := by
  induction bs generalizing m a with
  | nil => rfl
  | cons b bs ih =>
    simp only [List.length_cons] at hx
    rw [memSetN, ih (a + 1) (memSet_wf a b h) (by omega), memGet_memSet a x b h, if_neg (by omega)]

/-- Bytes written read back. -/
theorem memGetN_memSetN {m : Mem} (a : Nat) (bs : List Byte) (h : Memory.wf m = true) : memGetN (memSetN m a bs) a bs.length = bs := by
  induction bs generalizing m a with
  | nil => rfl
  | cons b bs ih =>
    rw [List.length_cons, memGetN, memSetN, memGet_memSetN_outside (a + 1) a bs (memSet_wf a b h) (by omega), memGet_memSet a a b h, if_pos rfl,
      ih (a + 1) (memSet_wf a b h)]

theorem memGetN_length (m : Mem) (a n : Nat) : (memGetN m a n).length = n := by
  induction n generalizing a with
  | zero => rfl
  | succ n ih => simp [memGetN, ih]

theorem memWf_filter {m : Mem} (p : Nat × Byte → Bool) (h : Memory.wf m = true) : Memory.wf (m.filter p) = true := storeWfFrom_filter p h

/-- Equal canonical memories are equal data. -/
theorem mem_ext {m n : Mem} (hm : Memory.wf m = true) (hn : Memory.wf n = true) (h : ∀ a, memGet m a = memGet n a) : m = n :=
  storeWfFrom_ext hm hn h

theorem reset_mem_wf : Memory.wf State.reset.mem = true := rfl

end Sys2Proof.Machine
end

