-- ==== Sys2Proof/Laws/Canonical.lean ====
section
/-! SUPPORT. Every named operation that writes memory, a scratchpad or a galley keeps the canonical form. -/
namespace Sys2Proof.Machine

/-- Only memory, the scratchpads and the galleys matter to the canonical form. -/
theorem canonical_of {s t : State} (h : s.Canonical) (hm : Memory.wf t.mem = true) (hf : t.formes = s.formes) : t.Canonical :=
  ⟨hm, by rw [hf]; exact h.2⟩

theorem canonical_same {s t : State} (h : s.Canonical) (hm : t.mem = s.mem) (hf : t.formes = s.formes) : t.Canonical :=
  canonical_of h (by rw [hm]; exact h.1) hf

/-- The same with what memory becomes named, so that a long write is not computed. -/
theorem canonical_write {s t : State} (h : s.Canonical) (a : Nat) (bs : List Byte) (hm : t.mem = memSetN s.mem a bs) (hf : t.formes = s.formes) :
    t.Canonical := canonical_of h (by rw [hm]; exact memSetN_wf a bs h.1) hf

theorem canonical_foldl {α : Type} (f : State → α → State) (hf : ∀ s x, s.Canonical → (f s x).Canonical) (l : List α) {s : State} (h : s.Canonical) :
    (l.foldl f s).Canonical := by
  induction l generalizing s with
  | nil => exact h
  | cons x l ih => exact ih (hf s x h)

/-- An update of one forme keeps the form where it keeps that of the forme's own stores. -/
theorem onForme_canonical {s : State} (fid : Nat) (g : Forme → Forme) (h : s.Canonical)
    (hg : ∀ f, Memory.wf f.scratch = true ∧ storeWf (0 : W32) f.galley = true → Memory.wf (g f).scratch = true ∧ storeWf (0 : W32) (g f).galley = true) :
    (s.onForme fid g).Canonical := by
  refine ⟨h.1, fun f hf => ?_⟩
  obtain ⟨x, hx, rfl⟩ := List.mem_map.1 (hf : f ∈ s.formes.map _)
  split
  · exact hg x (h.2 x hx)
  · exact h.2 x hx

theorem setGalley_canonical {s : State} (fid : Nat) {t : Tile} (h : s.Canonical) (ht : storeWf (0 : W32) t = true) : (s.setGalley fid t).Canonical :=
  onForme_canonical fid _ h fun _ hf => ⟨hf.1, ht⟩

theorem pokeEntry_canonical {s : State} (fid k : Nat) (v : W32) (h : s.Canonical) : (s.pokeEntry fid k v).Canonical :=
  onForme_canonical (s := { s with ops := _ }) fid _ (canonical_same h rfl rfl) fun _ hf => ⟨hf.1, storeSet_wf k v hf.2⟩

theorem writePa_canonical {s : State} (a : Nat) (b : Byte) (h : s.Canonical) : (s.writePa a b).Canonical := by
  unfold State.writePa
  split
  · exact canonical_same h rfl rfl
  · refine canonical_of h ?_ rfl
    show Memory.wf (match s.mirror a with | some n => memSet (memSet s.mem a b) n b | none => memSet s.mem a b) = true
    cases s.mirror a with
    | none => exact memSet_wf a b h.1
    | some n => exact memSet_wf n b (memSet_wf a b h.1)

theorem writeBytesPa_canonical {s : State} (a : Nat) (bs : List Byte) (h : s.Canonical) : (s.writeBytesPa a bs).Canonical := by
  induction bs generalizing s a with
  | nil => exact h
  | cons b bs ih => exact ih (a + 1) (writePa_canonical a b h)

theorem noteMirrored_canonical {s : State} (a n : Nat) (h : s.Canonical) : (s.noteMirrored a n).Canonical := canonical_same h rfl rfl

theorem recall_canonical {s : State} (w : Writer) (k : Nat) (old new : List Byte) (h : s.Canonical) : (s.recall w k old new).Canonical :=
  canonical_same h rfl rfl

theorem noteResult_canonical {s : State} (a : Nat) (bs : List Byte) (h : s.Canonical) : (s.noteResult a bs).Canonical := by
  unfold State.noteResult
  split
  · exact h
  · exact canonical_same h rfl rfl

theorem send_canonical {s : State} (m : Msg) (h : s.Canonical) : (s.send m).Canonical := canonical_same h rfl rfl

theorem sendHome_canonical {s : State} (a : Nat) (bs : List Byte) (h : s.Canonical) : (s.sendHome a bs).Canonical := by
  unfold State.sendHome
  split
  · split
    · exact send_canonical _ h
    · exact h
  · split
    · exact h
    · exact send_canonical _ h

theorem writePaN_canonical {s : State} (a : Nat) (bs : List Byte) (w : Writer) (h : s.Canonical) : (s.writePaN a bs w).Canonical := by
  unfold State.writePaN
  split
  · exact h
  · have k : ∀ p f, (({ State.writeBytesPa ((s.recall w (memKey a) (s.readPaN a bs.length) bs).noteResult a bs) a bs with poison := p, failing := f } : State).noteMirrored a bs.length).Canonical :=
      fun _ _ => noteMirrored_canonical _ _ (canonical_same (writeBytesPa_canonical a bs (noteResult_canonical a bs (recall_canonical _ _ _ _ h))) rfl rfl)
    dsimp only
    split
    · split
      · exact k _ _
      · exact sendHome_canonical _ _ (k _ _)
    · split
      · exact k _ _
      · exact sendHome_canonical _ _ (k _ _)

theorem locWrite_canonical {s : State} (l : Loc) (bs : List Byte) (w : Writer) (h : s.Canonical) : (s.locWrite l bs w).Canonical := by
  cases l with
  | pa a => exact writePaN_canonical a bs w h
  | spad fid o => exact onForme_canonical fid _ (recall_canonical _ _ _ _ h) fun _ hf => ⟨memSetN_wf o bs hf.1, hf.2⟩

theorem correct_canonical {s : State} (a n : Nat) (h : s.Canonical) : (s.correct a n).Canonical := canonical_same h rfl rfl

theorem renewLine_canonical {s : State} (line : Nat) (h : s.Canonical) : (s.renewLine line).Canonical := by
  unfold State.renewLine
  generalize s.lineAnew line = bs
  dsimp only
  split
  · exact h
  · refine canonical_of h ?_ rfl
    dsimp only
    cases s.mirror line with
    | none => exact memSetN_wf line bs h.1
    | some n => exact memSetN_wf n bs (memSetN_wf line bs h.1)

theorem dirty_canonical (b : Bulk) (line : Nat) {s : State} (h : s.Canonical) :
    ((upFrom 0 128).foldl (fun (s : State) k => if b.mask.getLsbD k then { s with mem := memSet s.mem (line + k) (b.data.getD k 0) } else s) s).Canonical :=
  canonical_foldl _ (fun s k hs => by
    split
    · exact canonical_of hs (memSet_wf _ _ hs.1) rfl
    · exact hs) _ h

theorem evictBulk_canonical {s : State} (line : Nat) (h : s.Canonical) : (s.evictBulk line).Canonical := by
  unfold State.evictBulk
  split
  · exact h
  · split
    · exact h
    · refine canonical_foldl _ (fun s k hs => ?_) _ (canonical_same h rfl rfl)
      split
      · exact writePa_canonical _ _ hs
      · exact hs

theorem cleanBulk_canonical {s : State} (line : Nat) (h : s.Canonical) : (s.cleanBulk line).Canonical := by
  unfold State.cleanBulk
  split
  · exact h
  · exact canonical_same (dirty_canonical _ line h) rfl rfl

theorem touchBulk_canonical {s : State} (pa : Nat) (owner : Option Nat) (h : s.Canonical) : (s.touchBulk pa owner).Canonical := by
  have filled : ∀ {r : State}, r.Canonical → (if (r.bulkLine pa).isSome then r else
      { r with bulk := ⟨0, lineOf pa, r.lineAnew (lineOf pa), 0, owner⟩ :: r.bulk, poison := r.poisonAnew (lineOf pa) }).Canonical := fun {r} hr => by
    split
    · exact hr
    · exact canonical_same hr rfl rfl
  unfold State.touchBulk
  split
  · exact h
  · refine filled ?_
    split
    · exact evictBulk_canonical _ h
    · exact h

theorem leaveBulk_canonical {s : State} (pa : Nat) (h : s.Canonical) : (s.leaveBulk pa).Canonical := by
  unfold State.leaveBulk
  split
  · exact h
  · have k := evictBulk_canonical (lineOf pa) h
    dsimp only
    generalize s.evictBulk (lineOf pa) = r at k ⊢
    generalize r.lineAnew (lineOf pa) = l
    exact canonical_write k (lineOf pa) l rfl rfl

theorem touchShared_canonical {s : State} (pa : Nat) (write : Bool) (h : s.Canonical) : (s.touchShared pa write).Canonical := by
  have foreign : ∀ l, ({ s.renewLine (lineOf pa) with shared := l } : State).Canonical := fun l => by
    have k := renewLine_canonical (lineOf pa) h
    generalize s.renewLine (lineOf pa) = r at k ⊢
    exact canonical_same k rfl rfl
  unfold State.touchShared
  split
  · exact h
  · have kept : (if s.shared.contains (lineOf pa) && !Config.freeBit s.freeCtr (1150000 + lineOf pa) then s
        else { s.renewLine (lineOf pa) with shared := lineOf pa :: s.shared.filter (· ≠ lineOf pa) }).Canonical := by
      split
      · exact h
      · exact foreign _
    dsimp only
    split
    · exact kept
    · split
      · exact h
      · split
        · exact kept
        · split
          · exact h
          · split
            · exact h
            · rename_i x _ _
              have sent := fun (f : BitVec 12 → Msg) l => canonical_foldl (fun (s : State) h => s.send (f h)) (fun _ _ hs => send_canonical _ hs) l h
              specialize sent (fun h => .snoop h (lineOf pa) write)
              split
              all_goals
                generalize hr : List.foldl _ s _ = r
                have k : r.Canonical := by rw [← hr]; exact sent _
              · have k := renewLine_canonical (lineOf pa) k
                generalize r.renewLine (lineOf pa) = r at k ⊢
                exact canonical_same k rfl rfl
              · exact canonical_same k rfl rfl

theorem bringIn_canonical {s : State} (pa : Nat) (h : s.Canonical) : (s.bringIn pa).Canonical := by
  unfold State.bringIn
  dsimp only
  split
  · exact h
  · split <;> exact canonical_same h rfl rfl

theorem touchLine_canonical {s : State} (pa : Nat) (owner : Option Nat) (write : Bool) (h : s.Canonical) : (s.touchLine pa owner write).Canonical :=
  touchShared_canonical pa write (touchBulk_canonical pa owner (bringIn_canonical pa h))

theorem touchRuns_canonical {s : State} (l : List (Nat × Nat)) (owner : Option Nat) (write : Bool) (h : s.Canonical) : (s.touchRuns l owner write).Canonical :=
  canonical_foldl _ (fun _ a hs => touchLine_canonical a owner write hs) _ h

theorem copyLine_canonical {s : State} (m : Move) (line : Nat) (h : s.Canonical) : (s.copyLine m line).Canonical := by
  unfold State.copyLine
  have k := correct_canonical (m.old + line) 128 h
  generalize s.correct (m.old + line) 128 = r at k ⊢
  dsimp only
  generalize memGetN r.mem _ 128 = l
  exact sendHome_canonical _ _ (canonical_write k _ _ rfl rfl)

theorem eraseRange_canonical {s : State} (pa n : Nat) (h : s.Canonical) : (s.eraseRange pa n).Canonical :=
  canonical_of h (memWf_filter _ h.1) rfl

theorem taskEnded_canonical {s : State} (l : Launch) (status : Nat) (h : s.Canonical) : (s.taskEnded l status).Canonical := by
  unfold State.taskEnded
  split
  · exact h
  · exact send_canonical _ (canonical_of h (memWf_filter _ h.1) rfl)

/-- Reset memory has the form (no forme stands at reset). -/
theorem reset_canonical : State.reset.Canonical := ⟨reset_mem_wf, fun f hf => by simp [State.reset] at hf⟩

end Sys2Proof.Machine
end

