-- ==== Sys2Proof/Laws/Lookup.lean ====
section
/-! SUPPORT. What the pieces of the state are after the plain updates, looked up by their identifiers; rows lane by lane; the rows of
a home party after writes. -/
namespace Sys2Proof.Machine

theorem find?_modifyWhere {α : Type} (l : List α) (p q : α → Bool) (f : α → α) (hq : ∀ x, q (f x) = q x) :
    (modifyWhere p f l).find? q = (l.find? q).map fun x => if p x then f x else x := by
  induction l with
  | nil => rfl
  | cons x l ih =>
    simp only [modifyWhere, List.map_cons, List.find?_cons] at ih ⊢
    have : q (if p x then f x else x) = q x := by split <;> simp [hq]
    rw [this]
    cases q x <;> simp [ih]

/-! Parties, homes, formes and launches. -/

theorem party?_pid {s : State} {j : Nat} {p : Party} (h : s.party? j = some p) : p.pid = j := by
  simpa using List.find?_some h

theorem party?_onParty (s : State) (j : Nat) (f : Party → Party) (hf : ∀ p, (f p).pid = p.pid) :
    (s.onParty j f).party? j = (s.party? j).map f := by
  rw [State.party?, State.onParty_parties, find?_modifyWhere _ _ _ _ (by simp [hf]), ← State.party?]
  cases h : s.party? j with
  | none => rfl
  | some p => simp [party?_pid h]

theorem party?_onParty_ne (s : State) (j k : Nat) (f : Party → Party) (hf : ∀ p, (f p).pid = p.pid) (hk : k ≠ j) :
    (s.onParty j f).party? k = s.party? k := by
  rw [State.party?, State.onParty_parties, find?_modifyWhere _ _ _ _ (by simp [hf]), ← State.party?]
  cases h : s.party? k with
  | none => rfl
  | some p => simp [party?_pid h, hk]

theorem home?_onHome (s : State) (fid hp : Nat) (f : Home → Home) (hf : ∀ h, (f h).fid = h.fid ∧ (f h).hp = h.hp) :
    (s.onHome fid hp f).home? fid hp = (s.home? fid hp).map f := by
  rw [State.home?, State.onHome_homes, find?_modifyWhere _ _ _ _ (by simp [hf]), ← State.home?]
  cases h : s.home? fid hp with
  | none => rfl
  | some x =>
    have := List.find?_some h
    simp at this
    simp [this]

theorem forme?_onForme (s : State) (fid : Nat) (f : Forme → Forme) (hf : ∀ x, (f x).fid = x.fid) :
    (s.onForme fid f).forme? fid = (s.forme? fid).map f := by
  rw [State.forme?, State.onForme_formes, find?_modifyWhere _ _ _ _ (by simp [hf]), ← State.forme?]
  cases h : s.forme? fid with
  | none => rfl
  | some x =>
    have := List.find?_some h
    simp at this
    simp [this]

@[simp] theorem home?_onParty (s : State) (j : Nat) (f : Party → Party) (fid hp : Nat) : (s.onParty j f).home? fid hp = s.home? fid hp := rfl
@[simp] theorem forme?_onParty (s : State) (j : Nat) (f : Party → Party) (fid : Nat) : (s.onParty j f).forme? fid = s.forme? fid := rfl
@[simp] theorem launch?_onParty (s : State) (j : Nat) (f : Party → Party) (l : Nat) : (s.onParty j f).launch? l = s.launch? l := rfl
@[simp] theorem party?_onHome (s : State) (fid hp : Nat) (f : Home → Home) (j : Nat) : (s.onHome fid hp f).party? j = s.party? j := rfl
@[simp] theorem forme?_onHome (s : State) (fid hp : Nat) (f : Home → Home) (j : Nat) : (s.onHome fid hp f).forme? j = s.forme? j := rfl
@[simp] theorem party?_onForme (s : State) (fid : Nat) (f : Forme → Forme) (j : Nat) : (s.onForme fid f).party? j = s.party? j := rfl
@[simp] theorem home?_onForme (s : State) (fid : Nat) (f : Forme → Forme) (j k : Nat) : (s.onForme fid f).home? j k = s.home? j k := rfl
@[simp] theorem party?_pass (s : State) (n j : Nat) : (s.pass n).party? j = s.party? j := rfl
@[simp] theorem home?_pass (s : State) (n j k : Nat) : (s.pass n).home? j k = s.home? j k := rfl
@[simp] theorem forme?_pass (s : State) (n j : Nat) : (s.pass n).forme? j = s.forme? j := rfl
@[simp] theorem party?_stir (s : State) (j : Nat) : s.stir.party? j = s.party? j := rfl
@[simp] theorem home?_stir (s : State) (j k : Nat) : s.stir.home? j k = s.home? j k := rfl
@[simp] theorem forme?_stir (s : State) (j : Nat) : s.stir.forme? j = s.forme? j := rfl
@[simp] theorem party?_count (s : State) (c k n j : Nat) : (s.count c k n).party? j = s.party? j := rfl
@[simp] theorem home?_count (s : State) (c k n j h : Nat) : (s.count c k n).home? j h = s.home? j h := rfl
@[simp] theorem forme?_count (s : State) (c k n j : Nat) : (s.count c k n).forme? j = s.forme? j := rfl
@[simp] theorem party?_overtake (s : State) (fid hp : Nat) (n : BitVec 8) (c : Nat) (m : Mask) (j : Nat) : (s.overtake fid hp n c m).party? j = s.party? j := rfl
@[simp] theorem home?_overtake (s : State) (fid hp : Nat) (n : BitVec 8) (c : Nat) (m : Mask) (j k : Nat) : (s.overtake fid hp n c m).home? j k = s.home? j k := rfl
@[simp] theorem forme?_overtake (s : State) (fid hp : Nat) (n : BitVec 8) (c : Nat) (m : Mask) (j : Nat) : (s.overtake fid hp n c m).forme? j = s.forme? j := rfl

/-! Rows. -/

theorem upFrom_length (k n : Nat) : (upFrom k n).length = n := by
  induction n generalizing k with
  | zero => rfl
  | succ n ih => simp [upFrom, ih]

theorem getElem?_upFrom (k n i : Nat) : (upFrom k n)[i]? = if i < n then some (k + i) else none := by
  induction n generalizing k i with
  | zero => simp [upFrom]
  | succ n ih =>
    cases i with
    | zero => simp [upFrom]
    | succ i =>
      simp only [upFrom, List.getElem?_cons_succ, ih, Nat.succ_lt_succ_iff]
      rw [show k + 1 + i = k + (i + 1) by omega]

theorem mem_upFrom (k n x : Nat) : x ∈ upFrom k n ↔ k ≤ x ∧ x < k + n := by
  induction n generalizing k with
  | zero => simp only [upFrom, List.not_mem_nil, false_iff]; omega
  | succ n ih => simp only [upFrom, List.mem_cons, ih]; omega

theorem rowGet_rowOf (f : Nat → W32) (k : Nat) (hk : k < 64) : rowGet (rowOf f) k = f k := by
  simp [rowGet, rowOf, lanes64, List.getD, List.getElem?_map, getElem?_upFrom, hk]

theorem rowGet_rowMerge (m : Mask) (new old : Row) (k : Nat) (hk : k < 64) :
    rowGet (rowMerge m new old) k = if m.getLsbD k then rowGet new k else rowGet old k := rowGet_rowOf _ k hk

theorem getD_lanes64_map {α : Type} (f : Nat → α) (d : α) (k : Nat) (hk : k < 64) : (lanes64.map f).getD k d = f k := by
  simp [lanes64, List.getD, List.getElem?_map, getElem?_upFrom, hk]

/-- The result of an active lane is the lane's. -/
theorem laneResults_get (m : Mask) (f : Nat → LaneRes) (k : Nat) (hk : k < 64) (hm : m.getLsbD k = true) : (laneResults m f).getD k {} = f k := by
  rw [laneResults, getD_lanes64_map _ _ _ hk, if_pos hm]

/-! The rows of a home party. -/

theorem row?_setRow (h : Home) (n : BitVec 8) (c : Nat) (m : Mask) (data : Row) (n' : BitVec 8) (c' : Nat) :
    (h.setRow n c m data).row? n' c' =
      if n' = n ∧ c' = c then some ⟨n, c, rowMerge m data (match h.row? n c with | some x => x.data | none => rowZero)⟩ else h.row? n' c' := by
  simp only [Home.setRow, Home.row?, List.find?_cons]
  by_cases e : n' = n ∧ c' = c
  · obtain ⟨rfl, rfl⟩ := e; simp <;> rfl
  · have : (decide (n = n') && decide (c = c')) = false := by
      simp only [Bool.and_eq_false_iff, decide_eq_false_iff_not]
      by_cases g : n' = n
      · exact Or.inr fun x => e ⟨g, x.symm⟩
      · exact Or.inl fun x => g x.symm
    rw [if_neg e, this]
    simp only [List.find?_filter]
    congr 1
    funext x
    by_cases g : x.reg = n' ∧ x.comp = c'
    · obtain ⟨g1, g2⟩ := g
      simp only [g1, g2, decide_true, Bool.and_true]
      simp only [Bool.not_eq_true', Bool.and_eq_false_iff, decide_eq_false_iff_not, and_true, decide_eq_true_eq]
      exact Classical.not_and_iff_not_or_not.mp e
    · have : (decide (x.reg = n') && decide (x.comp = c')) = false := by
        simp only [Bool.and_eq_false_iff, decide_eq_false_iff_not]
        by_cases g1 : x.reg = n'
        · exact Or.inr fun y => g ⟨g1, y⟩
        · exact Or.inl g1
      simp [this]

@[simp] theorem row?_renew (h : Home) (n : BitVec 8) (l : List Nat) (n' : BitVec 8) (c : Nat) : (h.renew n l).row? n' c = h.row? n' c := rfl

theorem rowGet_zero (k : Nat) : rowGet rowZero k = 0 := by
  simp only [rowGet, rowZero, List.getD, List.getElem?_replicate]; split <;> rfl

theorem lane_setRow (h : Home) (n : BitVec 8) (c : Nat) (m : Mask) (data : Row) (n' : BitVec 8) (c' k : Nat) (hk : k < 64) :
    (h.setRow n c m data).lane n' c' k = if n' = n ∧ c' = c ∧ m.getLsbD k = true then rowGet data k else h.lane n' c' k := by
  unfold Home.lane
  rw [row?_setRow]
  by_cases e : n' = n ∧ c' = c
  · obtain ⟨rfl, rfl⟩ := e
    simp only [and_self, if_true, true_and]
    rw [rowGet_rowMerge _ _ _ _ hk]
    split
    · rfl
    · cases h.row? n' c' <;> simp [rowGet_zero]
  · rw [if_neg e, if_neg fun g => e ⟨g.1, g.2.1⟩]

theorem lane_setRows (comps : List (Nat × Row)) (h : Home) (n : BitVec 8) (m : Mask) (n' : BitVec 8) (c k : Nat) (hk : k < 64)
    (hd : (comps.map (·.1)).Nodup) :
    (comps.foldl (fun h x => h.setRow n x.1 m x.2) h).lane n' c k =
      if n' = n ∧ m.getLsbD k = true then (match comps.find? fun x => x.1 = c with | some x => rowGet x.2 k | none => h.lane n' c k) else h.lane n' c k := by
  induction comps generalizing h with
  | nil => simp
  | cons x l ih =>
    simp only [List.map_cons, List.nodup_cons] at hd
    rw [List.foldl_cons, ih _ hd.2, lane_setRow _ _ _ _ _ _ _ _ hk]
    by_cases g : n' = n ∧ m.getLsbD k = true
    · rw [if_pos g, if_pos g, List.find?_cons]
      by_cases e : x.1 = c
      · subst e
        have : l.find? (fun y => decide (y.1 = x.1)) = none := by
          rw [List.find?_eq_none]
          intro y hy
          have : y.1 ≠ x.1 := fun z => hd.1 (z ▸ List.mem_map_of_mem hy)
          simpa using this
        simp [this, g]
      · simp only [e, decide_false]
        cases l.find? (fun y => decide (y.1 = c)) with
        | none => simp [Ne.symm e]
        | some y => rfl
    · rw [if_neg g, if_neg g, if_neg fun z => g ⟨z.1, z.2.2⟩]

/-- The lanes of a register after one write of a v row: what was written, nothing in the shadows that the write dropped, and the other
registers as before (R39, R222). -/
theorem lane_afterWrite (h : Home) (n : BitVec 8) (comps : List (Nat × Row)) (m : Mask) (keep : Bool) (n' : BitVec 8) (c k : Nat) (hk : k < 64)
    (hd : (comps.map (·.1)).Nodup) :
    (h.afterWrite (.row (.v n) comps m keep)).lane n' c k =
      if n' = n then
        (match comps.find? fun x => x.1 = c with
          | some x => if m.getLsbD k then rowGet x.2 k else h.lane n c k
          | none => if keep || c = 0 then h.lane n c k else 0)
      else h.lane n' c k := by
  have base := lane_setRows comps h n m n' c k hk hd
  simp only [Home.afterWrite]
  by_cases e : n' = n
  · subst e
    rw [if_pos rfl]
    cases keep with
    | true =>
      simp only [if_true, Bool.true_or]
      rw [base]
      cases comps.find? (fun x => decide (x.1 = c)) with
      | none => simp
      | some x => simp
    | false =>
      simp only [Bool.false_eq_true, if_false, Bool.false_or]
      generalize hH : comps.foldl (fun h x => h.setRow n' x.1 m x.2) h = H at base ⊢
      have hrow : (({ H with rows := H.rows.filter fun x => decide (x.reg ≠ n') || decide (x.comp = 0) || comps.any fun c => decide (c.1 = x.comp) } : Home)).row? n' c
          = if c = 0 ∨ (comps.find? fun x => x.1 = c).isSome then H.row? n' c else none := by
        simp only [Home.row?, List.find?_filter]
        by_cases g : c = 0 ∨ (comps.find? fun x => decide (x.1 = c)).isSome
        · rw [if_pos g]
          congr 1
          funext x
          by_cases g1 : x.reg = n' ∧ x.comp = c
          · obtain ⟨g1, rfl⟩ := g1
            simp only [g1, ne_eq, not_true, decide_false, Bool.false_or, decide_true, Bool.and_true]
            rcases g with g | g
            · simp [g]
            · simp only [List.find?_isSome] at g
              obtain ⟨y, hy, hy'⟩ := g
              have ha : (comps.any fun z => decide (z.1 = x.comp)) = true := List.any_eq_true.mpr ⟨y, hy, hy'⟩
              simp [ha]
          · have : (decide (x.reg = n') && decide (x.comp = c)) = false := by
              simp only [Bool.and_eq_false_iff, decide_eq_false_iff_not]
              by_cases g2 : x.reg = n'
              · exact Or.inr fun y => g1 ⟨g2, y⟩
              · exact Or.inl g2
            simp [this]
        · rw [if_neg g, List.find?_eq_none]
          intro x _ hx
          simp only [ne_eq, decide_not, Bool.and_eq_true, Bool.or_eq_true, Bool.not_eq_true', decide_eq_false_iff_not, decide_eq_true_eq, List.any_eq_true] at hx
          obtain ⟨h1, h2, h3⟩ := hx
          rcases h1 with (h1 | h1) | ⟨y, hy, hy'⟩
          · exact h1 h2
          · exact g (Or.inl (h3 ▸ h1))
          · refine g (Or.inr ?_)
            have : ∃ z ∈ comps, decide (z.1 = c) = true := ⟨y, hy, decide_eq_true (hy'.trans h3)⟩
            exact List.find?_isSome.mpr this
      unfold Home.lane at base ⊢
      rw [hrow]
      cases hf : comps.find? (fun x => decide (x.1 = c)) with
      | some x =>
        rw [hf] at base
        simp only [Option.isSome_some, or_true, if_true]
        rw [base]
        by_cases hm : m.getLsbD k = true <;> simp [hm]
      | none =>
        rw [hf] at base
        by_cases g : c = 0
        · subst g
          simp only [true_or, if_true, decide_true]
          rw [base]; simp
        · simp [g]
  · rw [if_neg e]
    rw [if_neg fun z => e z.1] at base
    cases keep with
    | true => simpa using base
    | false =>
      simp only [Bool.false_eq_true, if_false]
      rw [← base]
      unfold Home.lane Home.row?
      simp only [List.find?_filter]
      congr 1
      congr 1
      funext x
      by_cases g : x.reg = n'
      · simp [g, e]
      · simp [g]

end Sys2Proof.Machine
end

