-- ==== Sys2Proof/Laws/Words.lean ====
section
/-! SUPPORT. What a word that only writes registers does: the party, its home party and the rest of the machine after its last reads, its
writes and its completion. -/
namespace Sys2Proof.Machine

/-! The acting party. -/

structure AgentFacts (s : State) (a : Agent) : Prop where
  party : s.party? a.p.pid = some a.p
  pitch : a.p.pitch = some a.c
  home : s.home? a.p.fid a.p.hp = some a.h
  forme : s.forme? a.p.fid = some a.f
  launch : s.launch? a.f.lid = some a.l

theorem agent_facts {s : State} {a : Agent} (h : s.agent = .ok a) : AgentFacts s a := by
  unfold State.agent at h
  split at h
  · cases h
  · rename_i p hp
    split at h
    · cases h
    · rename_i c hc
      split at h
      · rename_i f x hf hh
        split at h
        · rename_i l hl
          cases h
          cases hi : s.issue with
          | none => simp [hi] at hp
          | some j =>
            simp only [hi, Option.bind_some] at hp
            have := party?_pid hp
            exact ⟨by rw [this]; exact hp, hc, hh, hf, hl⟩
        · cases h
      · cases h

/-! Running a word. -/

/-- A word that passes the checks made before its effect has its effect. -/
theorem word_passes {s : State} {a : Agent} {i : Instr} {perLane : Bool} {body : Agent → Eff} (hp : Passes s a i perLane) :
    s.word i perLane body = match body a with
      | .done s => .next (((s.lastReads a.p (usesOf a.l.record i)).advance a i).counted a i)
      | .writes t ws => .next ((if a.overcommits (usesOf a.l.record i) ws then s.trapHere a i .badCairn none a.p.active
          else t.commit a i (usesOf a.l.record i) ws).counted a i)
      | .other s => .next (s.counted a i) := by
  obtain ⟨h1, h2, h3, h4⟩ := hp
  have hact : (perLane && decide (a.p.active = 0)) = false := by
    cases perLane with
    | false => rfl
    | true => simpa using h2 rfl
  have hearly : (if (a.l.record.chk && !neverTraps i) = true then s.tooEarly a (usesOf a.l.record i) else none) = none := by
    split
    · rename_i h; exact h4 (by simp only [Bool.and_eq_true] at h; exact h.1)
    · rfl
  simp only [State.word, h1, hact, h3, hearly, Bool.and_false, if_false, Bool.false_eq_true] <;> rfl

theorem word_writes {s t : State} {a : Agent} {i : Instr} {perLane : Bool} {body : Agent → Eff} {ws : List Write} (hp : Passes s a i perLane)
    (hb : body a = .writes t ws) (ho : a.overcommits (usesOf a.l.record i) ws = false) :
    s.word i perLane body = .next ((t.commit a i (usesOf a.l.record i) ws).counted a i) := by
  simp only [word_passes hp, hb, ho, if_false, Bool.false_eq_true]

theorem word_done {s t : State} {a : Agent} {i : Instr} {perLane : Bool} {body : Agent → Eff} (hp : Passes s a i perLane) (hb : body a = .done t) :
    s.word i perLane body = .next (((t.lastReads a.p (usesOf a.l.record i)).advance a i).counted a i) := by
  simp only [word_passes hp, hb]

theorem word_other {s t : State} {a : Agent} {i : Instr} {perLane : Bool} {body : Agent → Eff} (hp : Passes s a i perLane) (hb : body a = .other t) :
    s.word i perLane body = .next (t.counted a i) := by
  simp only [word_passes hp, hb]

/-- Counting the words touches nothing but the context's counters. -/
theorem counted_eq (t : State) (a : Agent) (i : Instr) : t.counted a i = t ∨ t.counted a i = t.count a.l.ctx 0x01 (wordsTaken i) := by
  unfold State.counted; split <;> simp

/-! The pieces that no register write touches. -/

/-- Two states that differ only in parties, home parties, long-latency results, the issuing party, counters, what proofing holds and time. -/
structure Alike (s t : State) : Prop where
  mem : t.mem = s.mem
  bulk : t.bulk = s.bulk
  poison : t.poison = s.poison
  formes : t.formes = s.formes
  rest : t.launches = s.launches ∧ t.ops = s.ops ∧ t.queues = s.queues ∧ t.status = s.status ∧ t.graphs = s.graphs ∧ t.jobs = s.jobs ∧
    t.parts = s.parts ∧ t.mailbox = s.mailbox ∧ t.tlb = s.tlb ∧ t.out = s.out ∧ t.dvsec = s.dvsec

theorem Alike.refl (s : State) : Alike s s := ⟨rfl, rfl, rfl, rfl, by simp⟩
theorem Alike.trans {s t u : State} (h : Alike s t) (g : Alike t u) : Alike s u := by
  obtain ⟨h1, h2, h3, h4, h5⟩ := h
  obtain ⟨g1, g2, g3, g4, g5⟩ := g
  exact ⟨g1.trans h1, g2.trans h2, g3.trans h3, g4.trans h4, by simp_all⟩

theorem alike_foldl {α : Type} (f : State → α → State) (hf : ∀ s x, Alike s (f s x)) (l : List α) (s : State) : Alike s (l.foldl f s) := by
  induction l generalizing s with
  | nil => exact Alike.refl s
  | cons x l ih => exact (hf s x).trans (ih _)

theorem alike_onParty (s : State) (j : Nat) (f : Party → Party) : Alike s (s.onParty j f) := ⟨rfl, rfl, rfl, rfl, by simp⟩
theorem alike_onHome (s : State) (x y : Nat) (f : Home → Home) : Alike s (s.onHome x y f) := ⟨rfl, rfl, rfl, rfl, by simp⟩
theorem alike_onPitch (s : State) (j : Nat) (f : Pitch → Pitch) : Alike s (s.onPitch j f) := alike_onParty ..
theorem alike_overtake (s : State) (x y : Nat) (n : BitVec 8) (c : Nat) (m : Mask) : Alike s (s.overtake x y n c m) := ⟨rfl, rfl, rfl, rfl, by simp [State.overtake]⟩
theorem alike_pass (s : State) (n : Nat) : Alike s (s.pass n) := ⟨rfl, rfl, rfl, rfl, by simp⟩
theorem alike_stir (s : State) : Alike s s.stir := ⟨rfl, rfl, rfl, rfl, by simp⟩
theorem alike_count (s : State) (c k n : Nat) : Alike s (s.count c k n) := ⟨rfl, rfl, rfl, rfl, by simp⟩

theorem alike_lastReads (s : State) (p : Party) (u : Uses) : Alike s (s.lastReads p u) := by
  unfold State.lastReads State.freeReads
  dsimp only
  split
  · exact Alike.refl s
  · have h0 : Alike s (s.onHome p.fid p.hp fun h => h.afterReads p.pid (lastNames u)) := alike_onHome ..
    split
    · exact h0
    · refine h0.trans (alike_foldl _ (fun s n => ?_) _ _)
      split
      · exact alike_foldl _ (fun s c => alike_overtake ..) _ _
      · exact Alike.refl s

theorem alike_write (s : State) (j lat word : Nat) (w : Write) : Alike s (s.write j lat word w) := by
  unfold State.write
  split
  · exact Alike.refl s
  · cases w with
    | sreg n v => exact (alike_onPitch ..).trans (alike_onParty ..)
    | creg n m bits =>
      dsimp only
      split
      · exact Alike.refl s
      · exact (alike_onPitch ..).trans (alike_onParty ..)
    | drop n c => exact (alike_onHome ..).trans (alike_overtake ..)
    | row r comps m keep =>
      cases r with
      | v n =>
        dsimp only
        split
        · exact Alike.refl s
        · have h1 := fun (s : State) (f : Pitch → Pitch) => alike_onPitch s j f
          split
          · exact ((alike_onPitch ..).trans (alike_onHome ..)).trans (alike_foldl _ (fun s x => alike_overtake ..) _ _)
          · exact (((alike_onPitch ..).trans (alike_onHome ..)).trans (alike_foldl _ (fun s x => alike_overtake ..) _ _)).trans
              (alike_foldl _ (fun s x => alike_overtake ..) _ _)
      | t n => exact alike_onPitch ..
      | s n => exact Alike.refl s
      | c n => exact Alike.refl s
      | imm n => exact Alike.refl s

/-! The party through a word. -/

/-- A party without the early writes that its pitch remembers (R58). -/
def Party.calm (p : Party) : Party := { p with pitch := p.pitch.map fun c => { c with recent := [] } }

/-- A write's effect on the party itself. -/
def Party.afterWrite (p : Party) : Write → Party
  | .sreg n v => ({ p with s := p.s.set n.toNat v } : Party).mark fun m => { m with s := m.s ||| (1#64 <<< n.toNat) }
  | .creg n m bits => if n = 7 then p else { p with c := p.c.set n.toNat ((p.creg n &&& ~~~m) ||| (bits &&& m)) }
  | .row (.t n) comps m keep => { p with pitch := p.pitch.map fun c => c.setTemp n comps m keep }
  | _ => p

theorem remember_calm (c : Pitch) (lat word : Nat) (n : Name) (comp : Nat) (old : Row) :
    ({ c.remember lat word n comp old with recent := [] } : Pitch) = { c with recent := [] } := by
  unfold Pitch.remember; split <;> rfl

theorem remembers_calm {α : Type} (l : List α) (g : Pitch → α → Pitch) (hg : ∀ c x, ({ g c x with recent := [] } : Pitch) = { c with recent := [] }) (c : Pitch) :
    ({ l.foldl g c with recent := [] } : Pitch) = { c with recent := [] } := by
  induction l generalizing c with
  | nil => rfl
  | cons x l ih => rw [List.foldl_cons, ih, hg]

theorem setTemp_congr {c d : Pitch} (h : ({ c with recent := [] } : Pitch) = { d with recent := [] }) (n : BitVec 3) (comps : List (Nat × Row)) (m : Mask) (keep : Bool) :
    ({ c.setTemp n comps m keep with recent := [] } : Pitch) = { d.setTemp n comps m keep with recent := [] } := by
  cases c; cases d; simp only [Pitch.mk.injEq] at h
  simp_all [Pitch.setTemp]

theorem pitch_congr {p q : Party} (h : p.calm = q.calm) :
    (p.pitch.map fun c => ({ c with recent := [] } : Pitch)) = q.pitch.map fun c => { c with recent := [] } := congrArg Party.pitch h

theorem setTemps_congr {x y : Option Pitch} (h : (x.map fun c => ({ c with recent := [] } : Pitch)) = y.map fun c => { c with recent := [] })
    (n : BitVec 3) (comps : List (Nat × Row)) (m : Mask) (keep : Bool) :
    ((x.map fun c => c.setTemp n comps m keep).map fun c => ({ c with recent := [] } : Pitch)) =
      (y.map fun c => c.setTemp n comps m keep).map fun c => { c with recent := [] } := by
  cases x with
  | none => cases y with | none => rfl | some y => simp at h
  | some x => cases y with
    | none => simp at h
    | some y => simp only [Option.map_some, Option.some.injEq] at h ⊢; exact setTemp_congr h n comps m keep

theorem afterWrite_congr {p q : Party} (h : p.calm = q.calm) (w : Write) : (p.afterWrite w).calm = (q.afterWrite w).calm := by
  have hp := pitch_congr h
  cases w with
  | sreg n v =>
    cases p; cases q; simp only [Party.calm, Party.mk.injEq] at h
    simp_all [Party.afterWrite, Party.calm, Party.mark]
  | creg n m bits =>
    cases p; cases q; simp only [Party.calm, Party.mk.injEq] at h
    by_cases e : n = 7 <;> simp_all [Party.afterWrite, Party.calm, Party.creg]
  | drop n c => exact h
  | row r comps m keep =>
    cases r with
    | t n =>
      have := setTemps_congr hp n comps m keep
      cases p; cases q; simp only [Party.calm, Party.mk.injEq] at h
      simp_all only [Party.afterWrite, Party.calm]
    | v n => exact h
    | s n => exact h
    | c n => exact h
    | imm n => exact h

theorem afterWrite_calm_self (p : Party) (w : Write) (f : Pitch → Pitch) (hf : ∀ c, ({ f c with recent := [] } : Pitch) = { c with recent := [] }) :
    (({ p with pitch := p.pitch.map f } : Party).afterWrite w).calm = (p.afterWrite w).calm := by
  apply afterWrite_congr
  simp only [Party.calm]
  congr 1
  cases p.pitch <;> simp [hf]

/-! Results that a write takes lanes from. -/

theorem party?_overtakes {α : Type} (l : List α) (s : State) (x y : Nat) (n : BitVec 8) (c : α → Nat) (m : Mask) (j : Nat) :
    (l.foldl (fun s z => s.overtake x y n (c z) m) s).party? j = s.party? j := by
  induction l generalizing s with
  | nil => rfl
  | cons z l ih => rw [List.foldl_cons, ih, party?_overtake]

theorem home?_overtakes {α : Type} (l : List α) (s : State) (x y : Nat) (n : BitVec 8) (c : α → Nat) (m : Mask) (j k : Nat) :
    (l.foldl (fun s z => s.overtake x y n (c z) m) s).home? j k = s.home? j k := by
  induction l generalizing s with
  | nil => rfl
  | cons z l ih => rw [List.foldl_cons, ih, home?_overtake]

/-- The party that a word's write belongs to: what the write says, but for what its pitch remembers. -/
theorem write_party {s : State} {j : Nat} {p : Party} (hp : s.party? j = some p) (lat word : Nat) (w : Write) :
    ∃ q, (s.write j lat word w).party? j = some q ∧ q.calm = (p.afterWrite w).calm := by
  have hj := party?_pid hp
  have onPitch : ∀ (s : State) (p : Party) (f : Pitch → Pitch), s.party? j = some p →
      (s.onPitch j f).party? j = some { p with pitch := p.pitch.map f } := fun s p f h => by
    rw [State.onPitch, party?_onParty, h]
    · rfl
    · intro _; rfl
  cases w with
  | sreg n v =>
    simp only [State.write, hp]
    rw [party?_onParty, onPitch s p _ hp]
    · exact ⟨_, rfl, afterWrite_calm_self p (.sreg n v) _ (fun c => remember_calm ..)⟩
    · intro _; rfl
  | creg n m bits =>
    simp only [State.write, hp]
    by_cases e : n = 7
    · rw [if_pos e]; exact ⟨p, hp, by simp [Party.afterWrite, e]⟩
    · rw [if_neg e, party?_onParty, onPitch s p _ hp]
      rotate_left
      · intro _; rfl
      have := afterWrite_calm_self p (.creg n m bits) (fun c => c.remember lat word (.c n) 0 (rowOf fun i => if (p.creg n).getLsbD i && p.lanes.getLsbD i then 1 else 0))
        (fun c => remember_calm ..)
      rw [Party.afterWrite, if_neg e] at this
      exact ⟨_, rfl, this⟩
  | drop n c => simp only [State.write, hp]; exact ⟨p, hp, rfl⟩
  | row r comps m keep =>
    cases r with
    | v n =>
      simp only [State.write, hp]
      cases hh : s.home? p.fid p.hp with
      | none => exact ⟨p, hp, rfl⟩
      | some h =>
        dsimp only
        have key : ∀ l : List Nat, ∃ q, ((s.onPitch j fun c => l.foldl (fun c x => c.remember lat word (.v n) x
            (match h.row? n x with | some x => x.data | none => rowZero)) c).party? j = some q) ∧ q.calm = p.calm := by
          intro l
          refine ⟨_, onPitch s p _ hp, ?_⟩
          simp only [Party.calm]
          congr 1
          cases p.pitch with
          | none => rfl
          | some c => simp only [Option.map_some]; rw [remembers_calm _ _ (fun c x => remember_calm ..)]
        split
        all_goals obtain ⟨q, hq, hc⟩ := key (comps.map (·.1) ++ _)
        · refine ⟨q, ?_, hc⟩
          rw [party?_overtakes]; exact hq
        · refine ⟨q, ?_, hc⟩
          rw [party?_overtakes _ _ _ _ _ (fun c => c), party?_overtakes]; exact hq
    | t n =>
      simp only [State.write, hp]
      rw [onPitch s p _ hp]
      refine ⟨_, rfl, ?_⟩
      simp only [Party.calm, Party.afterWrite]
      congr 1
      cases p.pitch with
      | none => rfl
      | some c =>
        simp only [Option.map_some, Option.some.injEq]
        exact setTemp_congr (remembers_calm _ _ (fun c x => remember_calm ..) c) n comps m keep
    | s n => exact ⟨p, by simp [State.write, hp], rfl⟩
    | c n => exact ⟨p, by simp [State.write, hp], rfl⟩
    | imm n => exact ⟨p, by simp [State.write, hp], rfl⟩

theorem afterWrite_fid (p : Party) (w : Write) : (p.afterWrite w).pid = p.pid ∧ (p.afterWrite w).fid = p.fid ∧ (p.afterWrite w).hp = p.hp := by
  cases w with
  | sreg n v => exact ⟨rfl, rfl, rfl⟩
  | creg n m bits => simp only [Party.afterWrite]; split <;> exact ⟨rfl, rfl, rfl⟩
  | drop n c => exact ⟨rfl, rfl, rfl⟩
  | row r comps m keep => cases r <;> exact ⟨rfl, rfl, rfl⟩

/-- The other parties are left alone. -/
theorem write_party_ne {s : State} {j k : Nat} (hk : k ≠ j) (lat word : Nat) (w : Write) : (s.write j lat word w).party? k = s.party? k := by
  have onPitch : ∀ (s : State) (f : Pitch → Pitch), (s.onPitch j f).party? k = s.party? k := fun s f =>
    party?_onParty_ne s j k _ (fun _ => rfl) hk
  unfold State.write
  split
  · rfl
  · cases w with
    | sreg n v =>
      dsimp only
      rw [party?_onParty_ne _ _ _ _ ?_ hk, onPitch]
      intro _; rfl
    | creg n m bits =>
      dsimp only
      split
      · rfl
      · rw [party?_onParty_ne _ _ _ _ ?_ hk, onPitch]
        intro _; rfl
    | drop n c => rfl
    | row r comps m keep =>
      cases r with
      | v n =>
        dsimp only
        split
        · rfl
        · split
          · rw [party?_overtakes]; exact onPitch ..
          · rw [party?_overtakes _ _ _ _ _ (fun c => c), party?_overtakes]; exact onPitch ..
      | t n => exact onPitch ..
      | s n => rfl
      | c n => rfl
      | imm n => rfl

/-! The home party through a word. -/

theorem afterWrite_rows {h g : Home} (e : h.rows = g.rows) (w : Write) : (h.afterWrite w).rows = (g.afterWrite w).rows := by
  have set1 : ∀ (n : BitVec 8) (m : Mask) (comps : List (Nat × Row)) (h g : Home), h.rows = g.rows →
      (comps.foldl (fun h x => h.setRow n x.1 m x.2) h).rows = (comps.foldl (fun h x => h.setRow n x.1 m x.2) g).rows := by
    intro n m comps
    induction comps with
    | nil => intro h g e; exact e
    | cons x l ih => intro h g e; exact ih _ _ (by simp [Home.setRow, Home.row?, e])
  cases w with
  | sreg n v => exact e
  | creg n m bits => exact e
  | drop n c => simp [Home.afterWrite, Home.unmapShadow, e]
  | row r comps m keep =>
    cases r with
    | v n =>
      have := set1 n m comps h g e
      simp only [Home.afterWrite]
      cases keep <;> simp [this]
    | t n => exact e
    | s n => exact e
    | c n => exact e
    | imm n => exact e

theorem afterWrite_ids (h : Home) (w : Write) : (h.afterWrite w).fid = h.fid ∧ (h.afterWrite w).hp = h.hp := by
  have set1 : ∀ (n : BitVec 8) (m : Mask) (comps : List (Nat × Row)) (h : Home),
      (comps.foldl (fun h x => h.setRow n x.1 m x.2) h).fid = h.fid ∧ (comps.foldl (fun h x => h.setRow n x.1 m x.2) h).hp = h.hp := by
    intro n m comps
    induction comps with
    | nil => intro h; exact ⟨rfl, rfl⟩
    | cons x l ih => intro h; exact ih _
  cases w with
  | row r comps m keep =>
    cases r with
    | v n => cases keep <;> simp [Home.afterWrite, set1 n m comps h]
    | _ => exact ⟨rfl, rfl⟩
  | _ => exact ⟨rfl, rfl⟩

theorem home?_onHome_ne (s : State) (fid hp : Nat) (f : Home → Home) (x y : Nat) (hf : ∀ h, (f h).fid = h.fid ∧ (f h).hp = h.hp) (hn : ¬ (x = fid ∧ y = hp)) :
    (s.onHome fid hp f).home? x y = s.home? x y := by
  rw [State.home?, State.onHome_homes, find?_modifyWhere _ _ _ _ (by simp [hf]), ← State.home?]
  cases e : s.home? x y with
  | none => rfl
  | some z =>
    have := List.find?_some e
    simp only [Bool.and_eq_true, decide_eq_true_eq] at this
    have g : (decide (z.fid = fid) && decide (z.hp = hp)) = false := by
      rw [this.1, this.2]; simpa using fun a b => hn ⟨a, b⟩
    rw [Option.map_some, if_neg (by rw [g]; exact Bool.false_ne_true)]

/-- The rows of the writing party's home party, and every other home party as before. -/
theorem write_home {s : State} {j : Nat} {p : Party} (hp : s.party? j = some p) {h : Home} (hh : s.home? p.fid p.hp = some h) (lat word : Nat) (w : Write) :
    (∃ g, (s.write j lat word w).home? p.fid p.hp = some g ∧ g.rows = (h.afterWrite w).rows) ∧
      ∀ x y, ¬ (x = p.fid ∧ y = p.hp) → (s.write j lat word w).home? x y = s.home? x y := by
  have ne := fun (s : State) (f : Home → Home) (x y : Nat) hf hn => home?_onHome_ne s p.fid p.hp f x y hf hn
  cases w with
  | sreg n v => simp only [State.write, hp]; exact ⟨⟨h, hh, rfl⟩, fun _ _ _ => rfl⟩
  | creg n m bits =>
    simp only [State.write, hp]
    split
    · exact ⟨⟨h, hh, rfl⟩, fun _ _ _ => rfl⟩
    · exact ⟨⟨h, hh, rfl⟩, fun _ _ _ => rfl⟩
  | drop n c =>
    simp only [State.write, hp, home?_overtake]
    refine ⟨⟨_, ?_, rfl⟩, fun x y hn => ne _ _ x y (fun _ => ⟨rfl, rfl⟩) hn⟩
    rw [home?_onHome, hh]
    · rfl
    · intro _; exact ⟨rfl, rfl⟩
  | row r comps m keep =>
    cases r with
    | v n =>
      simp only [State.write, hp, hh]
      have ids : ∀ (l : List Nat) (h : Home), ((h.afterWrite (.row (.v n) comps m keep)).renew n l).fid = h.fid ∧
          ((h.afterWrite (.row (.v n) comps m keep)).renew n l).hp = h.hp := fun l h => afterWrite_ids h _
      generalize List.map (fun x : Party => x.pid) (State.siblings _ p.fid p.hp) = l
      constructor
      · refine ⟨(h.afterWrite (.row (.v n) comps m keep)).renew n l, ?_, rfl⟩
        split
        · rw [home?_overtakes, home?_onHome _ _ _ _ (ids l)]
          simp only [State.onPitch, home?_onParty, hh, Option.map_some]
        · rw [home?_overtakes _ _ _ _ _ (fun c => c), home?_overtakes, home?_onHome _ _ _ _ (ids l)]
          simp only [State.onPitch, home?_onParty, hh, Option.map_some]
      · intro x y hn
        split
        · rw [home?_overtakes, ne _ _ x y (ids l) hn]; rfl
        · rw [home?_overtakes _ _ _ _ _ (fun c => c), home?_overtakes, ne _ _ x y (ids l) hn]; rfl
    | t n => simp only [State.write, hp]; exact ⟨⟨h, hh, rfl⟩, fun _ _ _ => rfl⟩
    | s n => exact ⟨⟨h, by simp only [State.write, hp, hh], rfl⟩, fun _ _ _ => by simp only [State.write, hp]⟩
    | c n => exact ⟨⟨h, by simp only [State.write, hp, hh], rfl⟩, fun _ _ _ => by simp only [State.write, hp]⟩
    | imm n => exact ⟨⟨h, by simp only [State.write, hp, hh], rfl⟩, fun _ _ _ => by simp only [State.write, hp]⟩

/-! All the writes of a word. -/

theorem writes_party (ws : List Write) {s : State} {j : Nat} {p : Party} (hp : s.party? j = some p) (lat word : Nat) :
    ∃ q, (ws.foldl (fun s w => s.write j lat word w) s).party? j = some q ∧ q.calm = (ws.foldl Party.afterWrite p).calm := by
  have step : ∀ (ws : List Write) (p q : Party), q.calm = p.calm → (ws.foldl Party.afterWrite q).calm = (ws.foldl Party.afterWrite p).calm := by
    intro ws
    induction ws with
    | nil => intro p q e; exact e
    | cons w ws ih => intro p q e; exact ih _ _ (afterWrite_congr e w)
  induction ws generalizing s p with
  | nil => exact ⟨p, hp, rfl⟩
  | cons w ws ih =>
    obtain ⟨q, hq, e⟩ := write_party hp lat word w
    obtain ⟨r, hr, e'⟩ := ih hq
    exact ⟨r, hr, e'.trans (step ws _ _ e)⟩

theorem writes_party_ne (ws : List Write) {s : State} {j k : Nat} (hk : k ≠ j) (lat word : Nat) :
    (ws.foldl (fun s w => s.write j lat word w) s).party? k = s.party? k := by
  induction ws generalizing s with
  | nil => rfl
  | cons w ws ih => exact ih.trans (write_party_ne hk lat word w)

theorem writes_rows (ws : List Write) {h g : Home} (e : h.rows = g.rows) : (ws.foldl Home.afterWrite h).rows = (ws.foldl Home.afterWrite g).rows := by
  induction ws generalizing h g with
  | nil => exact e
  | cons w ws ih => exact ih (afterWrite_rows e w)

theorem calm_ids {p q : Party} (h : p.calm = q.calm) : p.pid = q.pid ∧ p.fid = q.fid ∧ p.hp = q.hp :=
  by
  have e1 := congrArg Party.pid h
  have e2 := congrArg Party.fid h
  have e3 := congrArg Party.hp h
  exact ⟨e1, e2, e3⟩

theorem writes_home (ws : List Write) {s : State} {j : Nat} {p : Party} (hp : s.party? j = some p) {h : Home} (hh : s.home? p.fid p.hp = some h)
    (lat word : Nat) :
    (∃ g, (ws.foldl (fun s w => s.write j lat word w) s).home? p.fid p.hp = some g ∧ g.rows = (ws.foldl Home.afterWrite h).rows) ∧
      ∀ x y, ¬ (x = p.fid ∧ y = p.hp) → (ws.foldl (fun s w => s.write j lat word w) s).home? x y = s.home? x y := by
  induction ws generalizing s p h with
  | nil => exact ⟨⟨h, hh, rfl⟩, fun _ _ _ => rfl⟩
  | cons w ws ih =>
    obtain ⟨q, hq, e⟩ := write_party hp lat word w
    obtain ⟨⟨g, hg, er⟩, ho⟩ := write_home hp hh lat word w
    have ids := calm_ids e
    have ids' := afterWrite_fid p w
    rw [ids'.2.1, ids'.2.2] at ids
    have hg' : (s.write j lat word w).home? q.fid q.hp = some g := by rw [ids.2.1, ids.2.2]; exact hg
    obtain ⟨⟨g', hg'', er'⟩, ho'⟩ := ih hq hg'
    rw [ids.2.1, ids.2.2] at hg'' ho'
    exact ⟨⟨g', hg'', er'.trans (writes_rows ws er)⟩, fun x y hn => (ho' x y hn).trans (ho x y hn)⟩

/-! Last reads. -/

theorem lastReads_party (s : State) (p : Party) (u : Uses) (j : Nat) : (s.lastReads p u).party? j = s.party? j := by
  unfold State.lastReads State.freeReads
  dsimp only
  split
  · rfl
  · split
    · rfl
    · have : ∀ (l : List (BitVec 8)) (h : Home) (s : State),
          (l.foldl (fun s n => if (h.readersOf n).isEmpty then (upFrom 0 5).foldl (fun s c => s.overtake p.fid p.hp n c (BitVec.allOnes 64)) s else s) s).party? j
            = s.party? j := by
        intro l h
        induction l with
        | nil => intro s; rfl
        | cons n l ih =>
          intro s
          rw [List.foldl_cons, ih]
          split
          · exact party?_overtakes _ _ _ _ _ (fun c => c) _ _
          · rfl
      rw [this]; rfl

theorem dropReader_ids (h : Home) (n : BitVec 8) (pid : Nat) : (h.dropReader n pid).fid = h.fid ∧ (h.dropReader n pid).hp = h.hp := by
  unfold Home.dropReader; dsimp only; split <;> exact ⟨rfl, rfl⟩

theorem afterReads_ids (l : List (BitVec 8)) (h : Home) (pid : Nat) : (h.afterReads pid l).fid = h.fid ∧ (h.afterReads pid l).hp = h.hp := by
  unfold Home.afterReads
  induction l generalizing h with
  | nil => exact ⟨rfl, rfl⟩
  | cons n l ih => rw [List.foldl_cons, (ih _).1, (ih _).2]; exact dropReader_ids h n pid

/-- Last reads change the registers that they name and no other. -/
theorem lane_afterReads (l : List (BitVec 8)) (h : Home) (pid : Nat) (n : BitVec 8) (hn : n ∉ l) (c k : Nat) : (h.afterReads pid l).lane n c k = h.lane n c k := by
  unfold Home.afterReads
  induction l generalizing h with
  | nil => rfl
  | cons m l ih =>
    simp only [List.mem_cons, not_or] at hn
    rw [List.foldl_cons, ih _ hn.2]
    unfold Home.dropReader
    dsimp only
    split
    · unfold Home.lane Home.row? Home.unmap
      simp only [List.find?_filter]
      congr 1
      congr 1
      funext x
      by_cases g : x.reg = n
      · simp [g, hn.1]
      · simp [g]
    · rfl

theorem lastReads_home (s : State) (p : Party) (u : Uses) {h : Home} (hh : s.home? p.fid p.hp = some h) :
    (s.lastReads p u).home? p.fid p.hp = some (h.afterReads p.pid (lastNames u)) ∧
      ∀ x y, ¬ (x = p.fid ∧ y = p.hp) → (s.lastReads p u).home? x y = s.home? x y := by
  have keep : ∀ (l : List (BitVec 8)) (h : Home) (s : State) (x y : Nat),
      (l.foldl (fun s n => if (h.readersOf n).isEmpty then (upFrom 0 5).foldl (fun s c => s.overtake p.fid p.hp n c (BitVec.allOnes 64)) s else s) s).home? x y
        = s.home? x y := by
    intro l h
    induction l with
    | nil => intro s x y; rfl
    | cons n l ih =>
      intro s x y
      rw [List.foldl_cons, ih]
      split
      · exact home?_overtakes _ _ _ _ _ (fun c => c) _ _ _
      · rfl
  have own : (s.onHome p.fid p.hp fun h => h.afterReads p.pid (lastNames u)).home? p.fid p.hp = some (h.afterReads p.pid (lastNames u)) := by
    rw [home?_onHome, hh]
    · rfl
    · intro h; exact afterReads_ids _ h _
  unfold State.lastReads State.freeReads
  dsimp only
  split
  · rename_i e
    have : lastNames u = [] := by simpa using e
    rw [this]
    exact ⟨hh, fun _ _ _ => rfl⟩
  · rw [own]
    dsimp only
    constructor
    · rw [keep]; exact own
    · intro x y hn
      rw [keep, home?_onHome_ne _ _ _ _ _ _ ?_ hn]
      intro h; exact afterReads_ids _ h _

/-! The completion of a word. -/

/-- The party's pitch after one word of it. -/
def Pitch.past (c : Pitch) (a : Agent) (i : Instr) : Pitch :=
  { c with idx := a.c.idx + wordsTaken i, clk := c.clk + (a.clocks i), left := none, refused := [], some_ := false, lost := [], solo := [] }

/-- The party after one word of its pitch. -/
def Party.past (p : Party) (c : Pitch) (a : Agent) (i : Instr) : Party :=
  let q := { p with park := [], pitch := some (c.past a i) }
  if a.c.idx + wordsTaken i ≥ a.c.words.length then q.closed (c.past a i) else q

theorem settle_going {s : State} {j : Nat} {p : Party} (hp : s.party? j = some p) (hs : p.stopped = false) : s.settle j = s := by
  simp [State.settle, hp, hs]

/-- What becomes visible changes only which accesses may still be missed. -/
theorem shown_eq (s : State) (a : Agent) (i : Instr) : ∃ l, s.shown a i = { s with acts := l } := by
  unfold State.shown State.publish
  split
  · split
    · exact ⟨s.acts, rfl⟩
    · exact ⟨_, rfl⟩
  · exact ⟨s.acts, rfl⟩

/-- Proofing a pitch that ends changes only the audit buffers and a counter. -/
theorem auditTake_eq (s : State) (p : Party) (c : Pitch) : ∃ l x, s.auditTake p c = { s with audits := l, ctxs := x } := by
  unfold State.auditTake State.auditPut
  split
  · split
    · exact ⟨_, _, rfl⟩
    · dsimp only
      split
      · exact ⟨_, _, rfl⟩
      · exact ⟨_, _, rfl⟩
  · exact ⟨_, _, rfl⟩

theorem advance_party {s : State} {a : Agent} {i : Instr} {p : Party} {c : Pitch} (hp : s.party? a.p.pid = some p) (hc : p.pitch = some c)
    (hs : p.stopped = false) :
    (s.advance a i).party? a.p.pid = some (p.past c a i)
    ∧ (∀ k, k ≠ a.p.pid → (s.advance a i).party? k = s.party? k) ∧ (∀ x y, (s.advance a i).home? x y = s.home? x y)
    ∧ Alike s (s.advance a i) := by
  obtain ⟨l, hl⟩ := shown_eq s a i
  have e1 : ((({ s with acts := l } : State).stir.pass (a.clocks i + Config.freeNat s.freeCtr 2300000)).onParty a.p.pid
      fun p => { p with park := [] }).party? a.p.pid = some { p with park := [] } := by
    rw [party?_onParty]
    · rw [party?_pass, party?_stir]
      show Option.map _ (s.party? a.p.pid) = _
      rw [hp]; rfl
    · intro _; rfl
  generalize hu : ((({ s with acts := l } : State).stir.pass (a.clocks i + Config.freeNat s.freeCtr 2300000)).onParty a.p.pid fun p => { p with park := [] }) = u at e1
  have uh : ∀ x y, u.home? x y = s.home? x y := fun x y => by rw [← hu]; rfl
  have up : ∀ k, k ≠ a.p.pid → u.party? k = s.party? k := fun k hk => by
    rw [← hu, party?_onParty_ne _ _ _ _ ?_ hk]
    · rfl
    · intro _; rfl
  have ua : Alike s u := by rw [← hu]; exact (((show Alike s ({ s with acts := l } : State) from ⟨rfl, rfl, rfl, rfl, by simp⟩).trans (alike_stir _)).trans (alike_pass ..)).trans (alike_onParty ..)
  have e2 : (u.onPitch a.p.pid fun c => c.past a i).party? a.p.pid = some { p with park := [], pitch := some (c.past a i) } := by
    rw [State.onPitch, party?_onParty]
    · rw [e1, Option.map_some, hc]; rfl
    · intro _; rfl
  have e3 : ∀ k, k ≠ a.p.pid → (u.onPitch a.p.pid fun c => c.past a i).party? k = s.party? k := fun k hk => by
    rw [State.onPitch, party?_onParty_ne _ _ _ _ ?_ hk, up k hk]
    intro _; rfl
  have shape : s.advance a i = if a.c.idx + wordsTaken i ≥ a.c.words.length then (u.onPitch a.p.pid fun c => c.past a i).closePitch a.p.pid
      else (u.onPitch a.p.pid fun c => c.past a i) := by rw [← hu]; unfold State.advance; rw [hl]; rfl
  rw [shape]
  generalize hv : (u.onPitch a.p.pid fun c => c.past a i) = v at e2 e3
  have vh : ∀ x y, v.home? x y = s.home? x y := fun x y => by rw [← hv]; exact uh x y
  have va : Alike s v := by rw [← hv]; exact ua.trans (alike_onPitch ..)
  unfold Party.past
  by_cases g : a.c.idx + wordsTaken i ≥ a.c.words.length
  · simp only [if_pos g]
    have w1 : (v.onParty a.p.pid fun q => q.closed (c.past a i)).party? a.p.pid
        = some (({ p with park := [], pitch := some (c.past a i) } : Party).closed (c.past a i)) := by
      rw [party?_onParty]
      · rw [e2]; rfl
      · intro _; rfl
    obtain ⟨au, cx, ha⟩ := auditTake_eq v { p with park := [], pitch := some (c.past a i) } (c.past a i)
    have close : v.closePitch a.p.pid = { (v.onParty a.p.pid fun q => q.closed (c.past a i)) with
        issue := (v.onParty a.p.pid fun q => q.closed (c.past a i)).otherIssue a.p.pid, audits := au, ctxs := cx } := by
      simp only [State.closePitch, e2, Option.bind_some, Option.map_some, ha]
      exact settle_going (j := a.p.pid) (p := ({ p with park := [], pitch := some (c.past a i) } : Party).closed (c.past a i)) w1 hs
    rw [close]
    refine ⟨w1, fun k hk => ?_, vh, va.trans ⟨rfl, rfl, rfl, rfl, by simp⟩⟩
    refine Eq.trans ?_ (e3 k hk)
    exact party?_onParty_ne v a.p.pid k _ (fun _ => rfl) hk
  · simp only [if_neg g]
    exact ⟨e2, e3, vh, va⟩

end Sys2Proof.Machine
end

