-- ==== Sys2Proof/Laws/Commit.lean ====
section
/-! SUPPORT. The completion of a word that writes registers, and of one that computes each lane by itself. -/
namespace Sys2Proof.Machine

/-- What the state is after a word's last reads and writes and its completion. -/
structure Committed (s t : State) (a : Agent) (i : Instr) (p : Party) (ws : List Write) : Prop where
  self : ∃ (q : Party) (c : Pitch), t.party? a.p.pid = some (q.past c a i) ∧ q.pitch = some c ∧ q.calm = (ws.foldl Party.afterWrite p).calm
  others : ∀ k, k ≠ a.p.pid → t.party? k = s.party? k
  home : ∃ (g : Home), t.home? a.p.fid a.p.hp = some g ∧ g.rows = (ws.foldl Home.afterWrite (a.h.afterReads a.p.pid (lastNames (usesOf a.l.record i)))).rows
  homes : ∀ x y, ¬ (x = a.p.fid ∧ y = a.p.hp) → t.home? x y = s.home? x y
  alike : Alike s t

theorem afterWrites_stopped (ws : List Write) (p : Party) : (ws.foldl Party.afterWrite p).stopped = p.stopped ∧ (ws.foldl Party.afterWrite p).pitch.isSome = p.pitch.isSome := by
  induction ws generalizing p with
  | nil => exact ⟨rfl, rfl⟩
  | cons w ws ih =>
    rw [List.foldl_cons, (ih _).1, (ih _).2]
    cases w with
    | sreg n v => exact ⟨rfl, rfl⟩
    | creg n m bits => simp only [Party.afterWrite]; split <;> exact ⟨rfl, rfl⟩
    | drop n c => exact ⟨rfl, rfl⟩
    | row r comps m keep => cases r <;> simp [Party.afterWrite]

theorem calm_stopped {p q : Party} (h : p.calm = q.calm) : p.stopped = q.stopped ∧ p.pitch.isSome = q.pitch.isSome := by
  have e1 := congrArg Party.stopped h
  have e2 := congrArg Option.isSome (pitch_congr h)
  exact ⟨e1, by simpa using e2⟩

/-- Dependences touch nothing else. -/
theorem taint_eq (s : State) (p : Party) (l : List Name) (ids : List Nat) (keep : Bool) : ∃ ts, s.taint p l ids keep = { s with taints := ts } := by
  unfold State.taint
  split
  · exact ⟨s.taints, rfl⟩
  · exact ⟨_, rfl⟩

theorem commit_spec {s : State} {a : Agent} {i : Instr} {p : Party} {ws : List Write} (hp : s.party? a.p.pid = some p)
    (hid : p.fid = a.p.fid ∧ p.hp = a.p.hp) (hh : s.home? a.p.fid a.p.hp = some a.h) (hc : p.pitch = some a.c) (hs : p.stopped = false)
    (hv : (usesOf a.l.record i).dsts.contains .anyV = false) :
    Committed s ((s.commit a i (usesOf a.l.record i) ws).counted a i) a i p ws := by
  have base : Committed s (s.commit a i (usesOf a.l.record i) ws) a i p ws := by
    simp only [State.commit, hv, Bool.false_eq_true, if_false]
    have gen : ∀ (lat : Nat) (ids : State → List Nat) (keep : State → Bool) (v : State), v = ws.foldl (fun s w => s.write a.p.pid lat (a.word i) w)
        (s.lastReads a.p (usesOf a.l.record i)) → Committed s ((v.taint a.p (usesOf a.l.record i).dsts (ids v) (keep v)).advance a i) a i p ws := by
      intro lat ids keep v hv
      have r1 := lastReads_home s a.p (usesOf a.l.record i) hh
      have r2 := lastReads_party s a.p (usesOf a.l.record i)
      have r3 := alike_lastReads s a.p (usesOf a.l.record i)
      generalize s.lastReads a.p (usesOf a.l.record i) = u at r1 r2 r3 hv
      have up : u.party? a.p.pid = some p := by rw [r2]; exact hp
      have uh : u.home? p.fid p.hp = some (a.h.afterReads a.p.pid (lastNames (usesOf a.l.record i))) := by rw [hid.1, hid.2]; exact r1.1
      obtain ⟨q, hq, e⟩ := writes_party ws up lat (a.word i)
      obtain ⟨⟨g, hg, er⟩, ho⟩ := writes_home ws up uh lat (a.word i)
      have wne := fun k (hk : k ≠ a.p.pid) => writes_party_ne ws (s := u) hk lat (a.word i)
      have wal : Alike u (ws.foldl (fun s w => s.write a.p.pid lat (a.word i) w) u) := alike_foldl _ (fun s w => alike_write ..) ws u
      rw [← hv] at hq hg ho wne wal
      obtain ⟨ts, ht⟩ := taint_eq v a.p (usesOf a.l.record i).dsts (ids v) (keep v)
      rw [ht]
      have st := calm_stopped e
      have st' := afterWrites_stopped ws p
      have hqs : q.stopped = false := by rw [st.1, st'.1, hs]
      have hqc : q.pitch.isSome = true := by rw [st.2, st'.2, hc]; rfl
      obtain ⟨c, hqc⟩ := Option.isSome_iff_exists.mp hqc
      obtain ⟨k1, k2, k3, k4⟩ := advance_party (s := { v with taints := ts }) (i := i) hq hqc hqs
      have k0 : Alike v { v with taints := ts } := ⟨rfl, rfl, rfl, rfl, by simp⟩
      rw [hid.1, hid.2] at hg ho
      exact ⟨⟨q, c, k1, hqc, e⟩, fun k hk => (k2 k hk).trans ((wne k hk).trans (r2 k)), ⟨g, (k3 _ _).trans hg, er⟩,
        fun x y hn => (k3 x y).trans ((ho x y hn).trans (r1.2 x y hn)), ((r3.trans wal).trans k0).trans k4⟩
    exact gen _ (fun v => v.taintOf a.p (usesOf a.l.record i).reads) (fun v => a.sharesRows v) _ rfl
  rcases counted_eq (s.commit a i (usesOf a.l.record i) ws) a i with h | h
  · rw [h]; exact base
  · rw [h]
    obtain ⟨b1, b2, b3, b4, b5⟩ := base
    exact ⟨b1, b2, b3, b4, b5.trans (alike_count ..)⟩

/-- The party of a committed word has gone on. -/
theorem Committed.wentOn {s t : State} {a : Agent} {i : Instr} {p : Party} {ws : List Write} (h : Committed s t a i p ws) (hc : p.pitch = some a.c) :
    t.wentOn a i := by
  obtain ⟨q, c, h1, h2, h3⟩ := h.self
  refine ⟨_, h1, ?_⟩
  have words : c.words = a.c.words ∧ c.after = a.c.after ∧ c.awaits = a.c.awaits := by
    have e := pitch_congr h3
    have keep : ∀ (ws : List Write) (p : Party) (c : Pitch), p.pitch = some c →
        ∃ d, (ws.foldl Party.afterWrite p).pitch = some d ∧ d.words = c.words ∧ d.after = c.after ∧ d.awaits = c.awaits := by
      intro ws
      induction ws with
      | nil => intro p c hc; exact ⟨c, hc, rfl, rfl, rfl⟩
      | cons w ws ih =>
        intro p c hc
        have one : ∃ d, (p.afterWrite w).pitch = some d ∧ d.words = c.words ∧ d.after = c.after ∧ d.awaits = c.awaits := by
          cases w with
          | sreg n v => exact ⟨c, hc, rfl, rfl, rfl⟩
          | creg n m bits => simp only [Party.afterWrite]; split <;> exact ⟨c, hc, rfl, rfl, rfl⟩
          | drop n c' => exact ⟨c, hc, rfl, rfl, rfl⟩
          | row r comps m keep =>
            cases r with
            | t n => exact ⟨c.setTemp n comps m keep, by simp [Party.afterWrite, hc], rfl, rfl, rfl⟩
            | _ => exact ⟨c, hc, rfl, rfl, rfl⟩
        obtain ⟨d, hd, e1, e2, e3⟩ := one
        obtain ⟨d', hd', f1, f2, f3⟩ := ih _ d hd
        exact ⟨d', hd', f1.trans e1, f2.trans e2, f3.trans e3⟩
    obtain ⟨d, hd, e1, e2, e3⟩ := keep ws p a.c hc
    rw [h2, hd] at e
    simp only [Option.map_some, Option.some.injEq] at e
    have f1 := congrArg Pitch.words e
    have f2 := congrArg Pitch.after e
    have f3 := congrArg Pitch.awaits e
    exact ⟨f1.trans e1, f2.trans e2, f3.trans e3⟩
  unfold Party.past
  by_cases g : a.c.idx + wordsTaken i < a.c.words.length
  · rw [if_pos g]
    simp only [if_neg (show ¬ a.c.idx + wordsTaken i ≥ a.c.words.length by omega)]
    exact ⟨c.past a i, rfl, rfl, words.1⟩
  · rw [if_neg g]
    simp only [if_pos (show a.c.idx + wordsTaken i ≥ a.c.words.length by omega)]
    exact ⟨rfl, words.2.1, words.2.2⟩

/-! What destinations hold. -/

/-- The lanes of a group of registers after its rows are written, and of the registers outside it. -/
theorem lane_group (js : List Nat) (h : Home) (r : BitVec 8) (comps : Nat → List (Nat × Row)) (m : Mask) (k : Nat) (hk : k < 64)
    (hd : ∀ j, ((comps j).map (·.1)).Nodup) (hj : ∀ j ∈ js, j < 256) (hn : js.Nodup) :
    (∀ n c, (∀ j ∈ js, n ≠ r + BitVec.ofNat 8 j) →
      ((js.map fun j => Write.row (.v (r + BitVec.ofNat 8 j)) (comps j) m false).foldl Home.afterWrite h).lane n c k = h.lane n c k) ∧
    (∀ j ∈ js, ∀ c, ((js.map fun j => Write.row (.v (r + BitVec.ofNat 8 j)) (comps j) m false).foldl Home.afterWrite h).lane (r + BitVec.ofNat 8 j) c k =
      match (comps j).find? fun x => x.1 = c with
      | some x => if m.getLsbD k then rowGet x.2 k else h.lane (r + BitVec.ofNat 8 j) c k
      | none => if c = 0 then h.lane (r + BitVec.ofNat 8 j) c k else 0) := by
  have inj : ∀ x y, x < 256 → y < 256 → r + BitVec.ofNat 8 x = r + BitVec.ofNat 8 y → x = y := by
    intro x y hx hy e
    have := congrArg BitVec.toNat ((BitVec.add_right_inj r).mp e)
    simp only [BitVec.toNat_ofNat] at this
    omega
  induction js generalizing h with
  | nil => exact ⟨fun _ _ _ => rfl, fun j hj => by cases hj⟩
  | cons j js ih =>
    simp only [List.nodup_cons] at hn
    have ih' := ih (h.afterWrite (.row (.v (r + BitVec.ofNat 8 j)) (comps j) m false)) (fun x hx => hj x (List.mem_cons_of_mem _ hx)) hn.2
    rw [List.map_cons, List.foldl_cons]
    constructor
    · intro n c hne
      rw [ih'.1 n c fun x hx => hne x (List.mem_cons_of_mem _ hx), lane_afterWrite _ _ _ _ _ _ _ _ hk (hd j),
        if_neg (hne j (List.mem_cons_self ..))]
    · intro x hx c
      rcases List.mem_cons.mp hx with rfl | hx'
      · rw [ih'.1 _ c, lane_afterWrite _ _ _ _ _ _ _ _ hk (hd x), if_pos rfl]
        · cases (comps x).find? (fun y => decide (y.1 = c)) <;> simp
        · intro y hy e
          have := inj x y (hj x (List.mem_cons_self ..)) (hj y (List.mem_cons_of_mem _ hy)) e
          subst this
          exact hn.1 hy
      · rw [ih'.2 x hx' c]
        have ne : r + BitVec.ofNat 8 x ≠ r + BitVec.ofNat 8 j := fun e => by
          have := inj x j (hj x hx) (hj j (List.mem_cons_self ..)) e
          exact hn.1 (this ▸ hx')
        rw [lane_afterWrite _ _ _ _ _ _ _ _ hk (hd j), if_neg ne]

theorem lane_of_rows {h g : Home} (e : h.rows = g.rows) (n : BitVec 8) (c k : Nat) : h.lane n c k = g.lane n c k := by
  unfold Home.lane Home.row?; rw [e]

theorem upFrom_nodup (k n : Nat) : (upFrom k n).Nodup := by
  induction n generalizing k with
  | zero => exact List.nodup_nil
  | succ n ih =>
    rw [upFrom, List.nodup_cons]
    exact ⟨fun h => by rw [mem_upFrom] at h; omega, ih _⟩

theorem rowGet_map (f : LaneRes → W32) (hf : f {} = 0) (rs : List LaneRes) (k : Nat) : rowGet (rs.map f) k = f (rs.getD k {}) := by
  simp only [rowGet, List.getD, List.getElem?_map]
  cases rs[k]? with
  | none => exact hf.symm
  | some x => rfl

/-! Temporaries. -/

/-- A component of a temporary after a write: the new value in the written lanes, 0 where the write drops the component, else as before. -/
theorem lane_setTemp (c : Pitch) (n : BitVec 3) (comps : List (Nat × Row)) (m : Mask) (keep : Bool) (n' : BitVec 3) (j k : Nat) (hk : k < 64)
    (hd : (comps.map (·.1)).Nodup) :
    (c.setTemp n comps m keep).lane n' j k =
      if n' = n then (match comps.find? fun x => x.1 = j with
        | some x => if m.getLsbD k = true then rowGet x.2 k else c.lane n' j k
        | none => if keep = false ∧ j ≠ 0 then 0 else c.lane n' j k)
      else c.lane n' j k := by
  have one : ∀ (l : List Temp) (x : Nat × Row) (n' : BitVec 3) (j : Nat),
      ((⟨n, x.1, rowMerge m x.2 (match l.find? fun t => t.reg = n && t.comp = x.1 with | some t => t.data | none => rowZero)⟩ : Temp)
        :: l.filter fun t => !(decide (t.reg = n) && decide (t.comp = x.1))).find? (fun t => decide (t.reg = n') && decide (t.comp = j)) =
      if n' = n ∧ j = x.1 then some ⟨n, x.1, rowMerge m x.2 (match l.find? fun t => t.reg = n && t.comp = x.1 with | some t => t.data | none => rowZero)⟩
      else l.find? fun t => decide (t.reg = n') && decide (t.comp = j) := by
    intro l x n' j
    rw [List.find?_cons]
    by_cases e : n' = n ∧ j = x.1
    · obtain ⟨rfl, rfl⟩ := e; simp
    · have : (decide (n = n') && decide (x.1 = j)) = false := by
        simp only [Bool.and_eq_false_iff, decide_eq_false_iff_not]
        by_cases g : n' = n
        · exact Or.inr fun y => e ⟨g, y.symm⟩
        · exact Or.inl fun y => g y.symm
      rw [if_neg e, this]
      simp only [List.find?_filter]
      congr 1
      funext t
      by_cases g : t.reg = n' ∧ t.comp = j
      · obtain ⟨g1, g2⟩ := g
        simp only [g1, g2, decide_true, Bool.and_true]
        simp only [Bool.not_eq_true', Bool.and_eq_false_iff, decide_eq_false_iff_not, and_true, decide_eq_true_eq]
        exact Classical.not_and_iff_not_or_not.mp e
      · have : (decide (t.reg = n') && decide (t.comp = j)) = false := by
          simp only [Bool.and_eq_false_iff, decide_eq_false_iff_not]
          by_cases g1 : t.reg = n'
          · exact Or.inr fun y => g ⟨g1, y⟩
          · exact Or.inl g1
        simp [this]
  let lane := fun (l : List Temp) (n' : BitVec 3) (j : Nat) =>
    match l.find? fun t => t.reg = n' && t.comp = j with | some t => rowGet t.data k | none => (0 : W32)
  have many : ∀ (comps : List (Nat × Row)) (l : List Temp), (comps.map (·.1)).Nodup → ∀ j,
      lane (comps.foldl (fun l x => (⟨n, x.1, rowMerge m x.2 (match l.find? fun t => t.reg = n && t.comp = x.1 with | some t => t.data | none => rowZero)⟩ : Temp)
        :: l.filter fun t => !(decide (t.reg = n) && decide (t.comp = x.1))) l) n' j =
      if n' = n ∧ m.getLsbD k = true then (match comps.find? fun x => x.1 = j with | some x => rowGet x.2 k | none => lane l n' j) else lane l n' j := by
    intro comps
    induction comps with
    | nil => intro l _ j; simp
    | cons x xs ih =>
      intro l hd j
      simp only [List.map_cons, List.nodup_cons] at hd
      rw [List.foldl_cons, ih _ hd.2]
      have first : lane ((⟨n, x.1, rowMerge m x.2 (match l.find? fun t => t.reg = n && t.comp = x.1 with | some t => t.data | none => rowZero)⟩ : Temp)
        :: l.filter fun t => !(decide (t.reg = n) && decide (t.comp = x.1))) n' j
          = if n' = n ∧ j = x.1 ∧ m.getLsbD k = true then rowGet x.2 k else lane l n' j := by
        simp only [lane]
        rw [one]
        by_cases e : n' = n ∧ j = x.1
        · obtain ⟨rfl, rfl⟩ := e
          simp only [and_self, if_true, true_and]
          rw [rowGet_rowMerge _ _ _ _ hk]
          split
          · rfl
          · cases l.find? (fun t => decide (t.reg = n') && decide (t.comp = x.1)) <;> simp [rowGet_zero]
        · rw [if_neg e, if_neg fun g => e ⟨g.1, g.2.1⟩]
      rw [first]
      by_cases g : n' = n ∧ m.getLsbD k = true
      · rw [if_pos g, if_pos g, List.find?_cons]
        by_cases e : x.1 = j
        · subst e
          have : xs.find? (fun y => decide (y.1 = x.1)) = none := by
            rw [List.find?_eq_none]
            intro y hy
            have : y.1 ≠ x.1 := fun z => hd.1 (z ▸ List.mem_map_of_mem hy)
            simpa using this
          simp [this, g]
        · simp only [e, decide_false]
          cases xs.find? (fun y => decide (y.1 = j)) with
          | none => simp [Ne.symm e]
          | some y => rfl
      · rw [if_neg g, if_neg g, if_neg fun z => g ⟨z.1, z.2.2⟩]
  have all : (c.setTemp n comps m true).lane n' j k = if n' = n then (match comps.find? fun x => x.1 = j with
        | some x => if m.getLsbD k = true then rowGet x.2 k else c.lane n' j k
        | none => c.lane n' j k)
      else c.lane n' j k := by
    refine (many comps c.temps hd j).trans ?_
    by_cases g : n' = n
    · by_cases e : m.getLsbD k = true
      · rw [if_pos ⟨g, e⟩, if_pos g]
        cases comps.find? (fun x => decide (x.1 = j)) with
        | none => rfl
        | some x => simp [e]
      · rw [if_neg fun z => e z.2, if_pos g]
        cases comps.find? (fun x => decide (x.1 = j)) with
        | none => rfl
        | some x => simp only [if_neg e]; rfl
    · rw [if_neg fun z => g z.1, if_neg g]; rfl
  cases keep with
  | true =>
    rw [all]
    congr 1
  | false =>
    by_cases g : n' = n ∧ j ≠ 0 ∧ comps.find? (fun x => decide (x.1 = j)) = none
    · obtain ⟨g1, g2, g3⟩ := g
      rw [if_pos g1, g3]
      simp only [ne_eq, g2, not_false_eq_true, and_self, if_true]
      unfold Pitch.lane Pitch.setTemp
      simp only [Bool.false_eq_true, if_false, List.find?_filter, Bool.decide_and, Bool.decide_eq_true]
      have none_ : ∀ l : List Temp, l.find? (fun t => (decide (t.reg ≠ n) || decide (t.comp = 0) || comps.any fun x => decide (x.1 = t.comp)) && (decide (t.reg = n') && decide (t.comp = j))) = none := by
        intro l
        rw [List.find?_eq_none]
        intro t _
        by_cases h : t.reg = n' ∧ t.comp = j
        · have : comps.any (fun x => decide (x.1 = t.comp)) = false := by
            rw [List.any_eq_false]
            intro x hx
            rw [h.2]
            exact List.find?_eq_none.mp g3 x hx
          rw [this]
          simp [h.1, h.2, g1, g2]
        · simp only [Bool.and_eq_true, decide_eq_true_eq, not_and]
          exact fun _ => fun a b => h ⟨a, b⟩
      rw [none_]
    · have same : (c.setTemp n comps m false).lane n' j k = (c.setTemp n comps m true).lane n' j k := by
        unfold Pitch.lane Pitch.setTemp
        simp only [Bool.false_eq_true, if_false, if_true, List.find?_filter, Bool.decide_and, Bool.decide_eq_true]
        congr 1
        congr 1
        funext t
        by_cases h : t.reg = n' ∧ t.comp = j
        · obtain ⟨h1, h2⟩ := h
          have : (decide (t.reg ≠ n) || decide (t.comp = 0) || comps.any fun x => decide (x.1 = t.comp)) = true := by
            rw [h1, h2]
            by_cases e1 : n' = n
            · by_cases e2 : j = 0
              · simp [e2]
              · have : comps.find? (fun x => decide (x.1 = j)) ≠ none := fun e3 => g ⟨e1, e2, e3⟩
                obtain ⟨x, hx⟩ := Option.ne_none_iff_exists'.mp this
                have := List.any_eq_true.mpr ⟨x, List.mem_of_find?_eq_some hx, List.find?_some hx⟩
                simp [this]
            · simp [e1]
          rw [this, Bool.true_and]
        · have : (decide (t.reg = n') && decide (t.comp = j)) = false := by
            simpa only [Bool.and_eq_false_iff, decide_eq_false_iff_not, ← Classical.not_and_iff_not_or_not] using h
          rw [this, Bool.and_false]
      rw [same]
      rw [all]
      by_cases e : n' = n
      · rw [if_pos e, if_pos e]
        cases h : comps.find? (fun x => decide (x.1 = j)) with
        | some x => rfl
        | none =>
          have : j = 0 := Classical.not_not.mp fun h0 => g ⟨e, h0, h⟩
          simp [this]
      · rw [if_neg e, if_neg e]

theorem temps_group (js : List Nat) (c : Pitch) (r : BitVec 3) (comps : Nat → List (Nat × Row)) (m : Mask) (p k : Nat) (hk : k < 64)
    (hd : ∀ j, ((comps j).map (·.1)).Nodup) (hj : ∀ j ∈ js, j < 8) (hn : js.Nodup) :
    (∀ n, (∀ j ∈ js, n ≠ r + BitVec.ofNat 3 j) → (js.foldl (fun c j => c.setTemp (r + BitVec.ofNat 3 j) (comps j) m false) c).lane n p k = c.lane n p k) ∧
    (∀ j ∈ js, (js.foldl (fun c j => c.setTemp (r + BitVec.ofNat 3 j) (comps j) m false) c).lane (r + BitVec.ofNat 3 j) p k =
      match (comps j).find? fun x => x.1 = p with
      | some x => if m.getLsbD k = true then rowGet x.2 k else c.lane (r + BitVec.ofNat 3 j) p k
      | none => if p ≠ 0 then 0 else c.lane (r + BitVec.ofNat 3 j) p k) := by
  have inj : ∀ x y, x < 8 → y < 8 → r + BitVec.ofNat 3 x = r + BitVec.ofNat 3 y → x = y := by
    intro x y hx hy e
    have := congrArg BitVec.toNat ((BitVec.add_right_inj r).mp e)
    simp only [BitVec.toNat_ofNat] at this
    omega
  induction js generalizing c with
  | nil => exact ⟨fun _ _ => rfl, fun j hj => by cases hj⟩
  | cons j js ih =>
    simp only [List.nodup_cons] at hn
    have ih' := ih (c.setTemp (r + BitVec.ofNat 3 j) (comps j) m false) (fun x hx => hj x (List.mem_cons_of_mem _ hx)) hn.2
    rw [List.foldl_cons]
    constructor
    · intro n hne
      rw [ih'.1 n fun x hx => hne x (List.mem_cons_of_mem _ hx), lane_setTemp _ _ _ _ _ _ _ _ hk (hd j),
        if_neg fun g => hne j (List.mem_cons_self ..) g]
    · intro x hx
      rcases List.mem_cons.mp hx with rfl | hx'
      · rw [ih'.1, lane_setTemp _ _ _ _ _ _ _ _ hk (hd x)]
        · simp only [true_and, if_true]
        · intro y hy e
          have := inj x y (hj x (List.mem_cons_self ..)) (hj y (List.mem_cons_of_mem _ hy)) e
          subst this
          exact hn.1 hy
      · rw [ih'.2 x hx']
        have ne : r + BitVec.ofNat 3 x ≠ r + BitVec.ofNat 3 j := fun e => by
          have := inj x j (hj x hx) (hj j (List.mem_cons_self ..)) e
          exact hn.1 (this ▸ hx')
        have keep : (c.setTemp (r + BitVec.ofNat 3 j) (comps j) m false).lane (r + BitVec.ofNat 3 x) p k = c.lane (r + BitVec.ofNat 3 x) p k := by
          rw [lane_setTemp _ _ _ _ _ _ _ _ hk (hd j), if_neg ne]
        rw [keep]

/-! Lane conditions. -/

theorem getLsbD_laneBit (i k : Nat) (hk : k < 64) : (laneBit i).getLsbD k = decide (i = k) := by
  unfold laneBit
  rw [BitVec.getLsbD_shiftLeft]
  by_cases h : i = k
  · subst h; simp [hk]
  · by_cases g : k < i
    · simp [h, g]
    · have : k - i ≠ 0 := by omega
      simp [h, g, hk, BitVec.getLsbD_one, this]

theorem maskLanes_all : maskLanes (BitVec.allOnes 64) = lanes64 := by
  unfold maskLanes
  rw [List.filter_eq_self]
  intro x hx
  have := (mem_upFrom 0 64 x).mp hx
  simp only [BitVec.getLsbD_allOnes, decide_eq_true_eq]; omega

theorem maskOf_getLsbD (f : Nat → Bool) (k : Nat) (hk : k < 64) : (maskOf f).getLsbD k = f k := by
  unfold maskOf
  rw [maskLanes_all]
  have gen : ∀ (l : List Nat) (m : Mask), (l.foldl (fun m i => if f i then m ||| laneBit i else m) m).getLsbD k = (m.getLsbD k || (decide (k ∈ l) && f k)) := by
    intro l
    induction l with
    | nil => intro m; simp
    | cons i l ih =>
      intro m
      rw [List.foldl_cons, ih]
      by_cases hi : i = k
      · subst hi
        cases f i <;> simp [BitVec.getLsbD_or, getLsbD_laneBit _ _ hk]
      · by_cases hf : f i
        · simp [hf, BitVec.getLsbD_or, getLsbD_laneBit _ _ hk, hi, Ne.symm hi]
        · simp [hf, Ne.symm hi]
  rw [gen]
  have : k ∈ lanes64 := (mem_upFrom 0 64 k).mpr ⟨by omega, by omega⟩
  simp [this]

/-! Words that compute each lane by itself. -/

theorem setFlagsBy_spec {s : State} {a : Agent} (h : AgentFacts s a) (fl : BitVec 9) :
    (∃ sn, (s.setFlagsBy a.p.pid a.p.fid fl).party? a.p.pid = some { a.p with seen := sn }) ∧
    (∀ k, k ≠ a.p.pid → (s.setFlagsBy a.p.pid a.p.fid fl).party? k = s.party? k) ∧
    (∀ x y, (s.setFlagsBy a.p.pid a.p.fid fl).home? x y = s.home? x y) ∧
    (∃ f, (s.setFlagsBy a.p.pid a.p.fid fl).forme? a.p.fid = some f ∧ f.flags = a.f.flags ||| fl) ∧
    (∀ x, ((s.setFlagsBy a.p.pid a.p.fid fl).forme? x).map (·.scratch) = (s.forme? x).map (·.scratch) ∧
      ((s.setFlagsBy a.p.pid a.p.fid fl).forme? x).map (·.galley) = (s.forme? x).map (·.galley)) ∧
    (s.setFlagsBy a.p.pid a.p.fid fl).mem = s.mem ∧ (s.setFlagsBy a.p.pid a.p.fid fl).bulk = s.bulk ∧
    (s.setFlagsBy a.p.pid a.p.fid fl).poison = s.poison ∧
    (let t := s.setFlagsBy a.p.pid a.p.fid fl
     t.launches = s.launches ∧ t.ops = s.ops ∧ t.queues = s.queues ∧ t.status = s.status ∧ t.graphs = s.graphs ∧ t.jobs = s.jobs ∧
     t.parts = s.parts ∧ t.mailbox = s.mailbox ∧ t.tlb = s.tlb ∧ t.out = s.out ∧ t.dvsec = s.dvsec) := by
  unfold State.setFlagsBy
  by_cases e : fl = 0
  · subst e
    rw [if_pos rfl]
    exact ⟨⟨a.p.seen, h.party⟩, fun _ _ => rfl, fun _ _ => rfl, ⟨a.f, h.forme, by simp⟩, fun _ => ⟨rfl, rfl⟩, rfl, rfl, rfl, by simp⟩
  · simp only [if_neg e]
    have other : ∀ x, (s.setFlags a.p.fid fl).forme? x = (s.forme? x).map fun f => if f.fid = a.p.fid then { f with flags := f.flags ||| fl } else f := by
      intro x
      rw [State.setFlags, State.forme?, State.onForme_formes, find?_modifyWhere _ _ _ _ (by simp), ← State.forme?]
      cases s.forme? x <;> simp
    refine ⟨⟨a.p.seen ||| fl, ?_⟩, fun k hk => ?_, fun _ _ => rfl, ?_, fun x => ?_, rfl, rfl, rfl, by simp [State.setFlags]⟩
    · rw [party?_onParty]
      · rw [State.setFlags, party?_onForme, h.party]; rfl
      · intro _; rfl
    · rw [party?_onParty_ne _ _ _ _ ?_ hk]
      · rfl
      · intro _; rfl
    · rw [forme?_onParty, other, h.forme]
      have : a.f.fid = a.p.fid := by simpa using List.find?_some h.forme
      exact ⟨{ a.f with flags := a.f.flags ||| fl }, by simp [this], rfl⟩
    · rw [forme?_onParty, other]
      cases s.forme? x with
      | none => exact ⟨rfl, rfl⟩
      | some f => simp only [Option.map_some]; split <;> exact ⟨rfl, rfl⟩

theorem regNames_noAny (n : Nat) (d : Reg) : (regNames n d).contains .anyV = false := by
  have : ∀ x ∈ regNames n d, x ≠ .anyV := by
    intro x hx
    cases d with
    | v k => simp only [regNames, List.mem_map] at hx; obtain ⟨j, _, rfl⟩ := hx; simp
    | t k => simp only [regNames, List.mem_map] at hx; obtain ⟨j, _, rfl⟩ := hx; simp
    | s k => simp [regNames] at hx; simp [hx]
    | c k => simp only [regNames] at hx; split at hx <;> simp at hx; simp [hx]
    | imm k => simp [regNames] at hx
  simpa using fun h => this _ h rfl

theorem comps_nodup (nt : Nat) (a : Row) (b : Nat → Row) : (((0, a) :: (upFrom 0 nt).map fun k => (k + 1, b k)).map (·.1)).Nodup := by
  simp only [List.map_cons, List.map_map, List.nodup_cons]
  refine ⟨by simp, ?_⟩
  rw [List.nodup_iff_pairwise_ne, List.pairwise_map]
  exact (List.nodup_iff_pairwise_ne.mp (upFrom_nodup 0 nt)).imp fun h g => h (by simpa using g)

theorem comps_find (nt : Nat) (a : Row) (b : Nat → Row) (c : Nat) (hc : 0 < c) :
    ((0, a) :: (upFrom 0 nt).map fun k => (k + 1, b k)).find? (fun x => decide (x.1 = c)) = if c ≤ nt then some (c, b (c - 1)) else none := by
  rw [List.find?_cons, show decide (0 = c) = false by simpa using (by omega : ¬ 0 = c)]
  have gen : ∀ (n k : Nat), k < c → ((upFrom k n).map fun k => (k + 1, b k)).find? (fun x => decide (x.1 = c)) = if c ≤ k + n then some (c, b (c - 1)) else none := by
    intro n
    induction n with
    | zero => intro k hk; simp [upFrom]; omega
    | succ n ih =>
      intro k hk
      rw [upFrom, List.map_cons, List.find?_cons]
      by_cases e : k + 1 = c
      · subst e; simp
      · simp only [e, decide_false]
        rw [ih (k + 1) (by omega)]
        have : (c ≤ k + 1 + n) ↔ (c ≤ k + (n + 1)) := by omega
        simp [this]
  simpa using gen nt 0 hc

/-- What no register write and no completion of a word changes in a party. -/
def Party.fixed (p : Party) : Mask × BitVec 6 × List Window × List Nat × Mask × Mask × List Reconv × Bool :=
  (p.em, p.pick, p.w, p.calls, p.lanes, p.exited, p.stack, p.hnd)
def Party.trapState (p : Party) : W64 × W64 × W64 × W64 × W64 × Option Resume × List Pending :=
  (p.tstat, p.tpc, p.tinfo, p.titems, p.tmask, p.frame, p.pending)

theorem past_keeps (p : Party) (c : Pitch) (a : Agent) (i : Instr) : (p.past c a i).fixed = p.fixed ∧ (p.past c a i).trapState = p.trapState ∧
    (p.past c a i).s = p.s ∧ (p.past c a i).c = p.c := by
  simp only [Party.past]; split <;> exact ⟨rfl, rfl, rfl, rfl⟩

theorem calm_keeps {p q : Party} (h : p.calm = q.calm) : p.fixed = q.fixed ∧ p.trapState = q.trapState ∧ p.s = q.s ∧ p.c = q.c :=
  ⟨show p.calm.fixed = q.calm.fixed by rw [h], show p.calm.trapState = q.calm.trapState by rw [h], show p.calm.s = q.calm.s by rw [h],
    show p.calm.c = q.calm.c by rw [h]⟩

theorem afterWrites_keep (ws : List Write) (p : Party) : (ws.foldl Party.afterWrite p).fixed = p.fixed ∧ (ws.foldl Party.afterWrite p).trapState = p.trapState := by
  induction ws generalizing p with
  | nil => exact ⟨rfl, rfl⟩
  | cons w ws ih =>
    have one : (p.afterWrite w).fixed = p.fixed ∧ (p.afterWrite w).trapState = p.trapState := by
      cases w with
      | sreg n v => exact ⟨rfl, rfl⟩
      | creg n m bits => simp only [Party.afterWrite]; split <;> exact ⟨rfl, rfl⟩
      | drop n c => exact ⟨rfl, rfl⟩
      | row r comps m keep => cases r <;> exact ⟨rfl, rfl⟩
    exact ⟨(ih _).1.trans one.1, (ih _).2.trans one.2⟩

theorem afterWrites_v (js : List Nat) (r : Nat → BitVec 8) (comps : Nat → List (Nat × Row)) (m : Mask) (p : Party) :
    (js.map fun j => Write.row (.v (r j)) (comps j) m false).foldl Party.afterWrite p = p := by
  induction js with
  | nil => rfl
  | cons j js ih => exact ih

theorem afterWrites_t (js : List Nat) (r : Nat → BitVec 3) (comps : Nat → List (Nat × Row)) (m : Mask) (p : Party) :
    (js.map fun j => Write.row (.t (r j)) (comps j) m false).foldl Party.afterWrite p =
      { p with pitch := p.pitch.map fun c => js.foldl (fun c j => c.setTemp (r j) (comps j) m false) c } := by
  induction js generalizing p with
  | nil => cases p with | mk => simp
  | cons j js ih =>
    rw [List.map_cons, List.foldl_cons, ih]
    simp only [Party.afterWrite, Option.map_map]
    rfl

theorem homeWrites_t (js : List Nat) (r : Nat → BitVec 3) (comps : Nat → List (Nat × Row)) (m : Mask) (h : Home) :
    (js.map fun j => Write.row (.t (r j)) (comps j) m false).foldl Home.afterWrite h = h := by
  induction js with
  | nil => rfl
  | cons j js ih => exact ih

/-- A destination holds what a committed word's result writes say. -/
theorem Committed.held {s t : State} {a : Agent} {i : Instr} {p : Party} {d : Reg} {n : Nat} {sext : Bool} {nt : Nat} {m : Mask} {rs : List LaneRes}
    (h : Committed s t a i p (resultWrites d n sext nt m rs)) (hc : p.pitch = some a.c) (hs : p.s = a.p.s) (hcr : p.c = a.p.c) (hw : a.whole) (hn : n ≤ 8) :
    t.Held a d n sext nt m rs := by
  obtain ⟨q, c, e1, e2, e3⟩ := h.self
  have kp := past_keeps q c a i
  have kc := calm_keeps e3
  cases d with
  | v r =>
    intro j hj k hk hm
    obtain ⟨g, hg, eg⟩ := h.home
    have grp := fun c => (lane_group (upFrom 0 n) (a.h.afterReads a.p.pid (lastNames (usesOf a.l.record i))) r
      (fun j => (0, rs.map fun r => r.words.getD j 0) :: (upFrom 0 nt).map fun k => (k + 1, rs.map fun r => (r.tans.getD k []).getD j 0)) m k hk
      (fun j => comps_nodup ..) (fun j hj => by rw [mem_upFrom] at hj; omega) (upFrom_nodup ..)).2 j ((mem_upFrom ..).mpr (by omega)) c
    simp only [State.vLane, hg]
    constructor
    · rw [lane_of_rows eg]
      refine (grp 0).trans ?_
      simp only [List.find?_cons, decide_true, hm, if_true]
      exact rowGet_map (fun r => r.words.getD j 0) rfl rs k
    · intro c hc
      rw [lane_of_rows eg]
      refine (grp c).trans ?_
      rw [comps_find nt _ (fun k => rs.map fun r => (r.tans.getD k []).getD j 0) c hc]
      by_cases g : c ≤ nt
      · simp only [if_pos g, hm, if_true]
        exact rowGet_map (fun r => (r.tans.getD (c - 1) []).getD j 0) rfl rs k
      · simp only [if_neg g]
        rw [if_neg (by omega)]
  | t r =>
    intro q' c' hq' hc' j hj k hk hm
    rw [e1] at hq'
    cases hq'
    unfold Party.past at hc'
    by_cases g : a.c.idx + wordsTaken i ≥ a.c.words.length
    · simp only [if_pos g] at hc'; cases hc'
    · simp only [if_neg g] at hc'
      cases hc'
      have temps : c.temps = ((upFrom 0 n).foldl (fun c j => c.setTemp (r + BitVec.ofNat 3 j)
          ((0, rs.map fun r => r.words.getD j 0) :: (upFrom 0 nt).map fun k => (k + 1, rs.map fun r => (r.tans.getD k []).getD j 0)) m false) a.c).temps := by
        have e := pitch_congr e3
        have := afterWrites_t (upFrom 0 n) (fun j => r + BitVec.ofNat 3 j)
          (fun j => (0, rs.map fun r => r.words.getD j 0) :: (upFrom 0 nt).map fun k => (k + 1, rs.map fun r => (r.tans.getD k []).getD j 0)) m p
        simp only [resultWrites] at e
        rw [this, e2] at e
        simp only [hc, Option.map_some, Option.some.injEq] at e
        have := congrArg Pitch.temps e
        exact this
      have grp := fun p => (temps_group (upFrom 0 n) a.c r
        (fun j => (0, rs.map fun r => r.words.getD j 0) :: (upFrom 0 nt).map fun k => (k + 1, rs.map fun r => (r.tans.getD k []).getD j 0)) m p k hk
        (fun j => comps_nodup ..) (fun j hj => by rw [mem_upFrom] at hj; omega) (upFrom_nodup ..)).2 j ((mem_upFrom ..).mpr (by omega))
      have same : ∀ p, (c.past a i).lane (r + BitVec.ofNat 3 j) p k = ((upFrom 0 n).foldl (fun c j => c.setTemp (r + BitVec.ofNat 3 j)
          ((0, rs.map fun r => r.words.getD j 0) :: (upFrom 0 nt).map fun k => (k + 1, rs.map fun r => (r.tans.getD k []).getD j 0)) m false) a.c).lane
            (r + BitVec.ofNat 3 j) p k := by
        intro p
        simp only [Pitch.lane, Pitch.past, temps]
      constructor
      · refine ((same 0).trans (grp 0)).trans ?_
        simp only [hm, if_true, List.find?_cons, decide_true]
        exact rowGet_map (fun r => r.words.getD j 0) rfl rs k
      · intro p hp
        refine ((same p).trans (grp p)).trans ?_
        rw [comps_find nt _ (fun k => rs.map fun r => (r.tans.getD k []).getD j 0) p hp]
        by_cases g : p ≤ nt
        · simp only [if_pos g, hm, if_true]
          exact rowGet_map (fun r => (r.tans.getD (p - 1) []).getD j 0) rfl rs k
        · simp only [if_neg g]
          rw [if_pos (by omega)]
  | s r =>
    refine ⟨_, e1, ?_⟩
    have : (q.past c a i).s = p.s.set r.toNat (uniformResult n sext (rs.headD {})) := kp.2.2.1.trans kc.2.2.1
    simp only [Party.sreg, this, hs, List.getD_eq_getElem?_getD]
    rw [List.getElem?_set_self (by rw [hw.sregs]; omega)]
    rfl
  | c r =>
    intro hr
    refine ⟨_, e1, fun k hk hm => ?_⟩
    have : (q.past c a i).c = p.c.set r.toNat ((p.creg r &&& ~~~m) ||| (maskOf (fun i => decide (((rs.getD i {}).words.headD 0) ≠ 0)) &&& m)) := by
      refine kp.2.2.2.trans (kc.2.2.2.trans ?_)
      simp only [resultWrites, List.foldl_cons, List.foldl_nil, Party.afterWrite, if_neg hr]
    have hlt : r.toNat < p.c.length := by
      rw [hcr, hw.cregs]
      have := r.isLt
      have : r.toNat ≠ 7 := fun g => hr (BitVec.eq_of_toNat_eq (by simpa using g))
      omega
    simp only [Party.creg, if_neg hr, this, List.getD_eq_getElem?_getD]
    rw [List.getElem?_set_self hlt]
    simp only [Option.getD_some, BitVec.getLsbD_or, BitVec.getLsbD_and, BitVec.getLsbD_not, hm, Bool.not_true, Bool.and_false, Bool.false_or, Bool.and_true]
    exact maskOf_getLsbD _ k hk
  | imm r => trivial

/-- The registers outside a destination keep their values. -/
theorem Committed.kept {s u t : State} {a : Agent} {i : Instr} {p : Party} {d : Reg} {n : Nat} {sext : Bool} {nt : Nat} {m : Mask} {rs : List LaneRes}
    (h : Committed u t a i p (resultWrites d n sext nt m rs)) (hd : (usesOf a.l.record i).dsts = regNames n d) (hp : p.fixed = a.p.fixed)
    (ht : p.trapState = a.p.trapState) (hs : p.s = a.p.s) (hcr : p.c = a.p.c) (hn : n ≤ 8)
    (o : ∀ k, k ≠ a.p.pid → u.party? k = s.party? k) (ho : ∀ x y, u.home? x y = s.home? x y)
    (f : ∀ x, (u.forme? x).map (·.scratch) = (s.forme? x).map (·.scratch) ∧ (u.forme? x).map (·.galley) = (s.forme? x).map (·.galley))
    (m1 : u.mem = s.mem) (m2 : u.bulk = s.bulk) (m3 : u.poison = s.poison)
    (r : u.launches = s.launches ∧ u.ops = s.ops ∧ u.queues = s.queues ∧ u.status = s.status ∧ u.graphs = s.graphs ∧ u.jobs = s.jobs ∧
      u.parts = s.parts ∧ u.mailbox = s.mailbox ∧ u.tlb = s.tlb ∧ u.out = s.out ∧ u.dvsec = s.dvsec) : Kept s t a i := by
  obtain ⟨q, c, e1, e2, e3⟩ := h.self
  have kp := past_keeps q c a i
  have kc := calm_keeps e3
  have ka := afterWrites_keep (resultWrites d n sext nt m rs) p
  have fx : (q.past c a i).fixed = a.p.fixed := kp.1.trans (kc.1.trans (ka.1.trans hp))
  have tx : (q.past c a i).trapState = a.p.trapState := kp.2.1.trans (kc.2.1.trans (ka.2.trans ht))
  simp only [Party.fixed, Prod.mk.injEq] at fx
  simp only [Party.trapState, Prod.mk.injEq] at tx
  obtain ⟨al1, al2, al3, al4, al5⟩ := h.alike
  refine
    { mem := al1.trans m1, bulk := al2.trans m2, poison := al3.trans m3
      scratch := fun x => ?_, galley := fun x => ?_, others := fun k hk => (h.others k hk).trans (o k hk)
      self := ⟨_, e1, fx.1, fx.2.1, fx.2.2.1, fx.2.2.2.1, fx.2.2.2.2.1, fx.2.2.2.2.2.1, fx.2.2.2.2.2.2.1, fx.2.2.2.2.2.2.2, tx.1, tx.2.1, tx.2.2.1, tx.2.2.2.1,
        tx.2.2.2.2.1, tx.2.2.2.2.2.1, tx.2.2.2.2.2.2, fun x hx => ?_, fun x hx => ?_⟩
      rows := fun x hx c k hk => ?_, homes := fun x y hn => (h.homes x y hn).trans (ho x y), rest := ?_ }
  · rw [State.forme?, al4]; exact (f x).1
  · rw [State.forme?, al4]; exact (f x).2
  · have hx' : Name.s x ∉ regNames n d := by rw [← hd]; intro z; exact hx (List.mem_append_left _ z)
    have : (q.past c a i).sreg x = ((resultWrites d n sext nt m rs).foldl Party.afterWrite p).sreg x := by
      simp only [Party.sreg, kp.2.2.1, kc.2.2.1]
    rw [this]
    cases d with
    | v r => simp only [resultWrites]; rw [afterWrites_v]; simp [Party.sreg, hs]
    | t r => simp only [resultWrites]; rw [afterWrites_t]; simp [Party.sreg, hs]
    | s r =>
      have ne : x ≠ r := fun z => hx' (by simp [regNames, z])
      have ne' : r.toNat ≠ x.toNat := fun z => ne (BitVec.eq_of_toNat_eq z.symm)
      simp only [resultWrites, List.foldl_cons, List.foldl_nil, Party.afterWrite, Party.mark, Party.sreg, List.getD_eq_getElem?_getD]
      rw [List.getElem?_set_ne ne', hs]
    | c r =>
      simp only [resultWrites, List.foldl_cons, List.foldl_nil, Party.afterWrite]
      split <;> simp [Party.sreg, hs]
    | imm r => simp [resultWrites, Party.sreg, hs]
  · have hx' : Name.c x ∉ regNames n d := by rw [← hd]; intro z; exact hx (List.mem_append_left _ z)
    have : (q.past c a i).creg x = ((resultWrites d n sext nt m rs).foldl Party.afterWrite p).creg x := by
      simp only [Party.creg, kp.2.2.2, kc.2.2.2]
    rw [this]
    cases d with
    | v r => simp only [resultWrites]; rw [afterWrites_v]; simp [Party.creg, hcr]
    | t r => simp only [resultWrites]; rw [afterWrites_t]; simp [Party.creg, hcr]
    | s r => simp [resultWrites, Party.afterWrite, Party.mark, Party.creg, hcr]
    | c r =>
      by_cases h7 : r = 7
      · simp [resultWrites, Party.afterWrite, h7, Party.creg, hcr]
      · have ne : x ≠ r := fun z => hx' (by subst z; simp only [regNames, if_neg h7, List.mem_singleton])
        have ne' : r.toNat ≠ x.toNat := fun z => ne (BitVec.eq_of_toNat_eq z.symm)
        simp only [resultWrites, List.foldl_cons, List.foldl_nil, Party.afterWrite, if_neg h7, Party.creg, List.getD_eq_getElem?_getD]
        rw [List.getElem?_set_ne ne', hcr]
    | imm r => simp [resultWrites, Party.creg, hcr]
  · obtain ⟨g, hg, eg⟩ := h.home
    simp only [State.vLane, hg]
    rw [lane_of_rows eg]
    have hl : x ∉ lastNames (usesOf a.l.record i) := fun z => hx (List.mem_append_right _ (List.mem_map_of_mem z))
    refine Eq.trans ?_ (lane_afterReads _ a.h a.p.pid x hl c k)
    cases d with
    | v r =>
      have hx' : Name.v x ∉ regNames n (.v r) := by rw [← hd]; intro z; exact hx (List.mem_append_left _ z)
      refine (lane_group (upFrom 0 n) _ r
        (fun j => (0, rs.map fun r => r.words.getD j 0) :: (upFrom 0 nt).map fun k => (k + 1, rs.map fun r => (r.tans.getD k []).getD j 0)) m k hk
        (fun j => comps_nodup ..) (fun j hj => by rw [mem_upFrom] at hj; omega) (upFrom_nodup ..)).1 x c fun j hj z => hx' ?_
      rw [regNames, List.mem_map]
      exact ⟨j, hj, by rw [z]⟩
    | t r => simp only [resultWrites]; rw [homeWrites_t]
    | s r => rfl
    | c r => rfl
    | imm r => rfl
  · obtain ⟨b1, b2, b3, b4, b5, b6, b7, b8, b9, b10, b11⟩ := al5
    obtain ⟨c1, c2, c3, c4, c5, c6, c7, c8, c9, c10, c11⟩ := r
    exact ⟨b1.trans c1, b2.trans c2, b3.trans c3, b4.trans c4, b5.trans c5, b6.trans c6, b7.trans c7, b8.trans c8, b9.trans c9, b10.trans c10, b11.trans c11⟩

/-- A word that writes one destination and sets flags finishes as `Finishes` says. -/
theorem word_finishes {s : State} {a : Agent} {i : Instr} {perLane : Bool} {body : Agent → Eff} {d : Reg} {n : Nat} {sext : Bool} {nt : Nat} {m : Mask}
    {rs : List LaneRes} {fl : BitVec 9} (hx : exec i s = s.word i perLane body)
    (hb : body a = .writes (s.setFlagsBy a.p.pid a.p.fid fl) (resultWrites d n sext nt m rs)) (hd : (usesOf a.l.record i).dsts = regNames n d) (hn : n ≤ 8) :
    Finishes s a i perLane d n sext nt m rs fl := by
  intro hp hw ho
  have hA := agent_facts hp.agent
  obtain ⟨⟨sn, f1⟩, f2, f3, f4, f5, f6, f7, f8, f9⟩ := setFlagsBy_spec hA fl
  have run : exec i s = .next (((s.setFlagsBy a.p.pid a.p.fid fl).commit a i (usesOf a.l.record i) (resultWrites d n sext nt m rs)).counted a i) := by
    rw [hx]; exact word_writes hp hb ho
  generalize s.setFlagsBy a.p.pid a.p.fid fl = u at *
  have hc := commit_spec (i := i) (ws := resultWrites d n sext nt m rs) f1 ⟨rfl, rfl⟩ ((f3 _ _).trans hA.home) hA.pitch hw.going
    (by rw [hd]; exact regNames_noAny n d)
  generalize hT : (u.commit a i (usesOf a.l.record i) (resultWrites d n sext nt m rs)).counted a i = T at *
  refine ⟨T, run, hc.wentOn hA.pitch, hc.held hA.pitch rfl rfl hw hn, ?_, hc.kept hd rfl rfl rfl rfl hn f2 f3 f5 f6 f7 f8 f9⟩
  obtain ⟨g, hg, e⟩ := f4
  refine ⟨g, ?_, e⟩
  rw [State.forme?, hc.alike.formes]; exact hg

/-- Without flags. -/
theorem word_finishes_plain {s : State} {a : Agent} {i : Instr} {perLane : Bool} {body : Agent → Eff} {d : Reg} {n : Nat} {sext : Bool} {nt : Nat} {m : Mask}
    {rs : List LaneRes} (hx : exec i s = s.word i perLane body) (hb : body a = .writes s (resultWrites d n sext nt m rs))
    (hd : (usesOf a.l.record i).dsts = regNames n d) (hn : n ≤ 8) : Finishes s a i perLane d n sext nt m rs 0 :=
  word_finishes hx (by rw [hb]; rfl) hd hn

/-- A word that computes each lane by itself finishes with its results in its destination (R136, R137). -/
theorem lanewise_computes {s : State} {a : Agent} {i : Instr} {d : Reg} {n : Nat} {sext elig : Bool} {f : Agent → Nat → Nat → LaneRes}
    (hx : exec i s = s.lanewise i d n sext elig f) (hd : (usesOf a.l.record i).dsts = regNames n d) (hn : n ≤ 8) :
    Computes s a i d n sext (if elig then a.tansTo i d else 0) (f a (if elig then a.tansTo i d else 0)) :=
  word_finishes hx rfl hd hn

/-- The same for a word that carries no tangents. -/
theorem lanewise_plain {s : State} {a : Agent} {i : Instr} {d : Reg} {n : Nat} {sext : Bool} {f : Agent → Nat → Nat → LaneRes} {g : Nat → LaneRes}
    (hx : exec i s = s.lanewise i d n sext false f) (hd : (usesOf a.l.record i).dsts = regNames n d) (hn : n ≤ 8) (hg : ∀ k < 64, f a 0 k = g k) :
    Computes s a i d n sext 0 g := by
  have h := lanewise_computes (a := a) hx hd hn
  have e : ∀ m, laneResults m (f a 0) = laneResults m g := fun m => by
    unfold laneResults
    apply List.map_congr_left
    intro k hk
    rw [hg k (by have := (mem_upFrom 0 64 k).mp hk; omega)]
  simp only [Bool.false_eq_true, if_false] at h
  unfold Computes at *
  rw [← e]; exact h

/-- The same for a word that may carry tangents. -/
theorem lanewise_tangents {s : State} {a : Agent} {i : Instr} {d : Reg} {n : Nat} {sext : Bool} {f : Agent → Nat → Nat → LaneRes} {g : Nat → LaneRes}
    (hx : exec i s = s.lanewise i d n sext true f) (hd : (usesOf a.l.record i).dsts = regNames n d) (hn : n ≤ 8) (hg : ∀ k < 64, f a (a.tansTo i d) k = g k) :
    Computes s a i d n sext (a.tansTo i d) g := by
  have h := lanewise_computes (a := a) hx hd hn
  have e : ∀ m, laneResults m (f a (a.tansTo i d)) = laneResults m g := fun m => by
    unfold laneResults
    apply List.map_congr_left
    intro k hk
    rw [hg k (by have := (mem_upFrom 0 64 k).mp hk; omega)]
  simp only [if_true] at h
  unfold Computes at *
  rw [← e]; exact h

end Sys2Proof.Machine
end

