-- ==== Sys2Proof/Laws/Dispatch.lean ====
section
/-! SUPPORT. What `exec` is for each instruction: its meaning. -/
namespace Sys2Proof.Machine

theorem exec_pitchIssue {core} (s : State) : exec (.pitchIssue core) s = execPitchIssue core s := rfl
theorem exec_priorityPromotion {pid} (s : State) : exec (.priorityPromotion pid) s = execPriorityPromotion pid s := rfl
theorem exec_nop {o} (s : State) : exec (.nop o) s = execNop o s := rfl
theorem exec_bra {o} (s : State) : exec (.bra o) s = execBra o s := rfl
theorem exec_brc {o} (s : State) : exec (.brc o) s = execBrc o s := rfl
theorem exec_branchHeldRelease {pid} (s : State) : exec (.branchHeldRelease pid) s = execBranchHeldRelease pid s := rfl
theorem exec_brx {o} (s : State) : exec (.brx o) s = execBrx o s := rfl
theorem exec_call {o} (s : State) : exec (.call o) s = execCall o s := rfl
theorem exec_callx {o} (s : State) : exec (.callx o) s = execCallx o s := rfl
theorem exec_ret {o} (s : State) : exec (.ret o) s = execRet o s := rfl
theorem exec_exit {o} (s : State) : exec (.exit o) s = execExit o s := rfl
theorem exec_reconvergeWaitExpiry {pid} (s : State) : exec (.reconvergeWaitExpiry pid) s = execReconvergeWaitExpiry pid s := rfl
theorem exec_fuse {o} (s : State) : exec (.fuse o) s = execFuse o s := rfl
theorem exec_yield {o} (s : State) : exec (.yield o) s = execYield o s := rfl
theorem exec_sleep {o} (s : State) : exec (.sleep o) s = execSleep o s := rfl
theorem exec_sleepExpiry {pid} (s : State) : exec (.sleepExpiry pid) s = execSleepExpiry pid s := rfl
theorem exec_isync {o} (s : State) : exec (.isync o) s = execIsync o s := rfl
theorem exec_ropeSet {o} (s : State) : exec (.ropeSet o) s = execRopeSet o s := rfl
theorem exec_ropeArv {o} (s : State) : exec (.ropeArv o) s = execRopeArv o s := rfl
theorem exec_ropeWait {o} (s : State) : exec (.ropeWait o) s = execRopeWait o s := rfl
theorem exec_ropeSync {o} (s : State) : exec (.ropeSync o) s = execRopeSync o s := rfl
theorem exec_belayWatchdogFire {fid rope} (s : State) : exec (.belayWatchdogFire fid rope) s = execBelayWatchdogFire fid rope s := rfl
theorem exec_phase {o} (s : State) : exec (.phase o) s = execPhase o s := rfl
theorem exec_signal {o} (s : State) : exec (.signal o) s = execSignal o s := rfl
theorem exec_waitc {o} (s : State) : exec (.waitc o) s = execWaitc o s := rfl
theorem exec_waitcPoll {pid} (s : State) : exec (.waitcPoll pid) s = execWaitcPoll pid s := rfl
theorem exec_cancel {o} (s : State) : exec (.cancel o) s = execCancel o s := rfl
theorem exec_launch {o} (s : State) : exec (.launch o) s = execLaunch o s := rfl
theorem exec_trap {o} (s : State) : exec (.trap o) s = execTrap o s := rfl
theorem exec_bkpt {o} (s : State) : exec (.bkpt o) s = execBkpt o s := rfl
theorem exec_eret {o} (s : State) : exec (.eret o) s = execEret o s := rfl
theorem exec_boundaryTrap {pid} (s : State) : exec (.boundaryTrap pid) s = execBoundaryTrap pid s := rfl
theorem exec_movs {o} (s : State) : exec (.movs o) s = execMovs o s := rfl
theorem exec_movsw {o} (s : State) : exec (.movsw o) s = execMovsw o s := rfl
theorem exec_ctrr {o} (s : State) : exec (.ctrr o) s = execCtrr o s := rfl
theorem exec_iadd {o} (s : State) : exec (.iadd o) s = execIadd o s := rfl
theorem exec_isub {o} (s : State) : exec (.isub o) s = execIsub o s := rfl
theorem exec_imul {o} (s : State) : exec (.imul o) s = execImul o s := rfl
theorem exec_imulh {o} (s : State) : exec (.imulh o) s = execImulh o s := rfl
theorem exec_imad {o} (s : State) : exec (.imad o) s = execImad o s := rfl
theorem exec_imadw {o} (s : State) : exec (.imadw o) s = execImadw o s := rfl
theorem exec_ineg {o} (s : State) : exec (.ineg o) s = execIneg o s := rfl
theorem exec_iabs {o} (s : State) : exec (.iabs o) s = execIabs o s := rfl
theorem exec_imin {o} (s : State) : exec (.imin o) s = execImin o s := rfl
theorem exec_imax {o} (s : State) : exec (.imax o) s = execImax o s := rfl
theorem exec_iclamp {o} (s : State) : exec (.iclamp o) s = execIclamp o s := rfl
theorem exec_lea {o} (s : State) : exec (.lea o) s = execLea o s := rfl
theorem exec_and {o} (s : State) : exec (.and o) s = execAnd o s := rfl
theorem exec_or {o} (s : State) : exec (.or o) s = execOr o s := rfl
theorem exec_xor {o} (s : State) : exec (.xor o) s = execXor o s := rfl
theorem exec_andn {o} (s : State) : exec (.andn o) s = execAndn o s := rfl
theorem exec_orn {o} (s : State) : exec (.orn o) s = execOrn o s := rfl
theorem exec_not {o} (s : State) : exec (.not o) s = execNot o s := rfl
theorem exec_bmix {o} (s : State) : exec (.bmix o) s = execBmix o s := rfl
theorem exec_shl {o} (s : State) : exec (.shl o) s = execShl o s := rfl
theorem exec_shr {o} (s : State) : exec (.shr o) s = execShr o s := rfl
theorem exec_sar {o} (s : State) : exec (.sar o) s = execSar o s := rfl
theorem exec_rol {o} (s : State) : exec (.rol o) s = execRol o s := rfl
theorem exec_fshl {o} (s : State) : exec (.fshl o) s = execFshl o s := rfl
theorem exec_bfx {o} (s : State) : exec (.bfx o) s = execBfx o s := rfl
theorem exec_bfi {o} (s : State) : exec (.bfi o) s = execBfi o s := rfl
theorem exec_popc {o} (s : State) : exec (.popc o) s = execPopc o s := rfl
theorem exec_clz {o} (s : State) : exec (.clz o) s = execClz o s := rfl
theorem exec_ctz {o} (s : State) : exec (.ctz o) s = execCtz o s := rfl
theorem exec_brev {o} (s : State) : exec (.brev o) s = execBrev o s := rfl
theorem exec_icmp {o} (s : State) : exec (.icmp o) s = execIcmp o s := rfl
theorem exec_sel {o} (s : State) : exec (.sel o) s = execSel o s := rfl
theorem exec_clop {o} (s : State) : exec (.clop o) s = execClop o s := rfl
theorem exec_cvote {o} (s : State) : exec (.cvote o) s = execCvote o s := rfl
theorem exec_mov {o} (s : State) : exec (.mov o) s = execMov o s := rfl
theorem exec_movi {o} (s : State) : exec (.movi o) s = execMovi o s := rfl
theorem exec_movhi {o} (s : State) : exec (.movhi o) s = execMovhi o s := rfl
theorem exec_movx {o} (s : State) : exec (.movx o) s = execMovx o s := rfl
theorem exec_movxw {o} (s : State) : exec (.movxw o) s = execMovxw o s := rfl
theorem exec_lperm {o} (s : State) : exec (.lperm o) s = execLperm o s := rfl
theorem exec_fadd {o} (s : State) : exec (.fadd o) s = execFadd o s := rfl
theorem exec_fsub {o} (s : State) : exec (.fsub o) s = execFsub o s := rfl
theorem exec_fmul {o} (s : State) : exec (.fmul o) s = execFmul o s := rfl
theorem exec_ffma {ty e o} (s : State) : exec (.ffma ty e o) s = execFfma ty e o s := rfl
theorem exec_fdot2 {bf e o} (s : State) : exec (.fdot2 bf e o) s = execFdot2 bf e o s := rfl
theorem exec_fdot4 {e5 e o} (s : State) : exec (.fdot4 e5 e o) s = execFdot4 e5 e o s := rfl
theorem exec_fmin {o} (s : State) : exec (.fmin o) s = execFmin o s := rfl
theorem exec_fmax {o} (s : State) : exec (.fmax o) s = execFmax o s := rfl
theorem exec_fcmp {o} (s : State) : exec (.fcmp o) s = execFcmp o s := rfl
theorem exec_fclass {o} (s : State) : exec (.fclass o) s = execFclass o s := rfl
theorem exec_frnd {o} (s : State) : exec (.frnd o) s = execFrnd o s := rfl
theorem exec_fscale {o} (s : State) : exec (.fscale o) s = execFscale o s := rfl
theorem exec_fexpn {o} (s : State) : exec (.fexpn o) s = execFexpn o s := rfl
theorem exec_frcps {o} (s : State) : exec (.frcps o) s = execFrcps o s := rfl
theorem exec_frsqs {o} (s : State) : exec (.frsqs o) s = execFrsqs o s := rfl
theorem exec_fex2 {o} (s : State) : exec (.fex2 o) s = execFex2 o s := rfl
theorem exec_flg2 {o} (s : State) : exec (.flg2 o) s = execFlg2 o s := rfl
theorem exec_fsin {o} (s : State) : exec (.fsin o) s = execFsin o s := rfl
theorem exec_fcos {o} (s : State) : exec (.fcos o) s = execFcos o s := rfl
theorem exec_cvt {o} (s : State) : exec (.cvt o) s = execCvt o s := rfl
theorem exec_pack2 {o} (s : State) : exec (.pack2 o) s = execPack2 o s := rfl
theorem exec_pack4 {o} (s : State) : exec (.pack4 o) s = execPack4 o s := rfl
theorem exec_xpnd {o} (s : State) : exec (.xpnd o) s = execXpnd o s := rfl
theorem exec_qblk {o} (s : State) : exec (.qblk o) s = execQblk o s := rfl
theorem exec_dqblk {o} (s : State) : exec (.dqblk o) s = execDqblk o s := rfl
theorem exec_sheet {o} (s : State) : exec (.sheet o) s = execSheet o s := rfl
theorem exec_press {o} (s : State) : exec (.press o) s = execPress o s := rfl
theorem exec_presss {o} (s : State) : exec (.presss o) s = execPresss o s := rfl
theorem exec_gclr {o} (s : State) : exec (.gclr o) s = execGclr o s := rfl
theorem exec_gload {o} (s : State) : exec (.gload o) s = execGload o s := rfl
theorem exec_gstore {o} (s : State) : exec (.gstore o) s = execGstore o s := rfl
theorem exec_platen {o} (s : State) : exec (.platen o) s = execPlaten o s := rfl
theorem exec_gread {o} (s : State) : exec (.gread o) s = execGread o s := rfl
theorem exec_gwrite {o} (s : State) : exec (.gwrite o) s = execGwrite o s := rfl
theorem exec_oready {o} (s : State) : exec (.oready o) s = execOready o s := rfl
theorem exec_batch {o} (s : State) : exec (.batch o) s = execBatch o s := rfl
theorem exec_waitb {o} (s : State) : exec (.waitb o) s = execWaitb o s := rfl
theorem exec_overflowRefill {queue site} (s : State) : exec (.overflowRefill queue site) s = execOverflowRefill queue site s := rfl
theorem exec_pressOpStart {spread} (s : State) : exec (.pressOpStart spread) s = execPressOpStart spread s := rfl
theorem exec_pressGroupStep {op} (s : State) : exec (.pressGroupStep op) s = execPressGroupStep op s := rfl
theorem exec_pressOpFail {op code addr} (s : State) : exec (.pressOpFail op code addr) s = execPressOpFail op code addr s := rfl
theorem exec_platenOpStart {stack} (s : State) : exec (.platenOpStart stack) s = execPlatenOpStart stack s := rfl
theorem exec_coink {o} (s : State) : exec (.coink o) s = execCoink o s := rfl
theorem exec_coin {o} (s : State) : exec (.coin o) s = execCoin o s := rfl
theorem exec_coinr {o} (s : State) : exec (.coinr o) s = execCoinr o s := rfl
theorem exec_draw {o} (s : State) : exec (.draw o) s = execDraw o s := rfl
theorem exec_drawa {o} (s : State) : exec (.drawa o) s = execDrawa o s := rfl
theorem exec_dmerge {o} (s : State) : exec (.dmerge o) s = execDmerge o s := rfl
theorem exec_dshift {o} (s : State) : exec (.dshift o) s = execDshift o s := rfl
theorem exec_tget {o} (s : State) : exec (.tget o) s = execTget o s := rfl
theorem exec_tset {o} (s : State) : exec (.tset o) s = execTset o s := rfl
theorem exec_tclr {o} (s : State) : exec (.tclr o) s = execTclr o s := rfl
theorem exec_ld {o} (s : State) : exec (.ld o) s = execLd o s := rfl
theorem exec_ldk {o} (s : State) : exec (.ldk o) s = execLdk o s := rfl
theorem exec_ldsc {o} (s : State) : exec (.ldsc o) s = execLdsc o s := rfl
theorem exec_stsc {o} (s : State) : exec (.stsc o) s = execStsc o s := rfl
theorem exec_ldpv {o} (s : State) : exec (.ldpv o) s = execLdpv o s := rfl
theorem exec_stpv {o} (s : State) : exec (.stpv o) s = execStpv o s := rfl
theorem exec_st {o} (s : State) : exec (.st o) s = execSt o s := rfl
theorem exec_atom {o} (s : State) : exec (.atom o) s = execAtom o s := rfl
theorem exec_atomsc {o} (s : State) : exec (.atomsc o) s = execAtomsc o s := rfl
theorem exec_red {o} (s : State) : exec (.red o) s = execRed o s := rfl
theorem exec_pref {o} (s : State) : exec (.pref o) s = execPref o s := rfl
theorem exec_reuse {o} (s : State) : exec (.reuse o) s = execReuse o s := rfl
theorem exec_fence {o} (s : State) : exec (.fence o) s = execFence o s := rfl
theorem exec_cwb {o} (s : State) : exec (.cwb o) s = execCwb o s := rfl
theorem exec_cinv {o} (s : State) : exec (.cinv o) s = execCinv o s := rfl
theorem exec_iinv {o} (s : State) : exec (.iinv o) s = execIinv o s := rfl
theorem exec_wopen {o} (s : State) : exec (.wopen o) s = execWopen o s := rfl
theorem exec_wclose {o} (s : State) : exec (.wclose o) s = execWclose o s := rfl
theorem exec_pageRequestResponse {ctx va r} (s : State) : exec (.pageRequestResponse ctx va r) s = execPageRequestResponse ctx va r s := rfl
theorem exec_longLatencyResult {id} (s : State) : exec (.longLatencyResult id) s = execLongLatencyResult id s := rfl
theorem exec_memoryAccessFail {id lane comp code} (s : State) : exec (.memoryAccessFail id lane comp code) s = execMemoryAccessFail id lane comp code s := rfl
theorem exec_reuseClockTick {fid} (s : State) : exec (.reuseClockTick fid) s = execReuseClockTick fid s := rfl
theorem exec_standingUpdate {part} (s : State) : exec (.standingUpdate part) s = execStandingUpdate part s := rfl
theorem exec_cpy {o} (s : State) : exec (.cpy o) s = execCpy o s := rfl
theorem exec_cpyx {o} (s : State) : exec (.cpyx o) s = execCpyx o s := rfl
theorem exec_cpyrot {o} (s : State) : exec (.cpyrot o) s = execCpyrot o s := rfl
theorem exec_fill {o} (s : State) : exec (.fill o) s = execFill o s := rfl
theorem exec_scrub {o} (s : State) : exec (.scrub o) s = execScrub o s := rfl
theorem exec_seal {o} (s : State) : exec (.seal o) s = execSeal o s := rfl
theorem exec_ndt {o} (s : State) : exec (.ndt o) s = execNdt o s := rfl
theorem exec_engineCmdStart {op} (s : State) : exec (.engineCmdStart op) s = execEngineCmdStart op s := rfl
theorem exec_engineCmdEnd {op} (s : State) : exec (.engineCmdEnd op) s = execEngineCmdEnd op s := rfl
theorem exec_engineCmdFail {op code addr} (s : State) : exec (.engineCmdFail op code addr) s = execEngineCmdFail op code addr s := rfl
theorem exec_ndtCompletionMessage {op failure result} (s : State) : exec (.ndtCompletionMessage op failure result) s = execNdtCompletionMessage op failure result s := rfl
theorem exec_coll {o} (s : State) : exec (.coll o) s = execColl o s := rfl
theorem exec_csigBind {o} (s : State) : exec (.csigBind o) s = execCsigBind o s := rfl
theorem exec_csigSig {o} (s : State) : exec (.csigSig o) s = execCsigSig o s := rfl
theorem exec_csigStat {o} (s : State) : exec (.csigStat o) s = execCsigStat o s := rfl
theorem exec_collFlitReceive {fid hp bind flit} (s : State) : exec (.collFlitReceive fid hp bind flit) s = execCollFlitReceive fid hp bind flit s := rfl
theorem exec_collMarkerArrival {fid hp bind step rank} (s : State) : exec (.collMarkerArrival fid hp bind step rank) s = execCollMarkerArrival fid hp bind step rank s := rfl
theorem exec_collLocalComplete {op} (s : State) : exec (.collLocalComplete op) s = execCollLocalComplete op s := rfl
theorem exec_collStepFail {fid hp bind step} (s : State) : exec (.collStepFail fid hp bind step) s = execCollStepFail fid hp bind step s := rfl
theorem exec_collMarkerTimeout {fid hp bind step} (s : State) : exec (.collMarkerTimeout fid hp bind step) s = execCollMarkerTimeout fid hp bind step s := rfl
theorem exec_flitRetry {port} (s : State) : exec (.flitRetry port) s = execFlitRetry port s := rfl
theorem exec_linkRetrainTimeout {port} (s : State) : exec (.linkRetrainTimeout port) s = execLinkRetrainTimeout port s := rfl
theorem exec_formePlace {lid core} (s : State) : exec (.formePlace lid core) s = execFormePlace lid core s := rfl
theorem exec_placementHoldExpiry {lid} (s : State) : exec (.placementHoldExpiry lid) s = execPlacementHoldExpiry lid s := rfl
theorem exec_latboundExpiry {lid} (s : State) : exec (.latboundExpiry lid) s = execLatboundExpiry lid s := rfl
theorem exec_formeLeaveCore {fid} (s : State) : exec (.formeLeaveCore fid) s = execFormeLeaveCore fid s := rfl
theorem exec_sliceEnd {part} (s : State) : exec (.sliceEnd part) s = execSliceEnd part s := rfl
theorem exec_sliceStart {part} (s : State) : exec (.sliceStart part) s = execSliceStart part s := rfl
theorem exec_db {ctx slot value} (s : State) : exec (.db ctx slot value) s = execDb ctx slot value s := rfl
theorem exec_packetFetch {ctx slot} (s : State) : exec (.packetFetch ctx slot) s = execPacketFetch ctx slot s := rfl
theorem exec_packetNop {ctx slot} (s : State) : exec (.packetNop ctx slot) s = execPacketNop ctx slot s := rfl
theorem exec_packetLaunch {ctx slot} (s : State) : exec (.packetLaunch ctx slot) s = execPacketLaunch ctx slot s := rfl
theorem exec_packetGraph {ctx slot} (s : State) : exec (.packetGraph ctx slot) s = execPacketGraph ctx slot s := rfl
theorem exec_packetJob {ctx slot} (s : State) : exec (.packetJob ctx slot) s = execPacketJob ctx slot s := rfl
theorem exec_packetFence {ctx slot} (s : State) : exec (.packetFence ctx slot) s = execPacketFence ctx slot s := rfl
theorem exec_fencePacketPoll {ctx slot} (s : State) : exec (.fencePacketPoll ctx slot) s = execFencePacketPoll ctx slot s := rfl
theorem exec_packetSignal {ctx slot} (s : State) : exec (.packetSignal ctx slot) s = execPacketSignal ctx slot s := rfl
theorem exec_graphNodeReady {gid node} (s : State) : exec (.graphNodeReady gid node) s = execGraphNodeReady gid node s := rfl
theorem exec_phaseCommStep {jid} (s : State) : exec (.phaseCommStep jid) s = execPhaseCommStep jid s := rfl
theorem exec_phaseBarrier {jid} (s : State) : exec (.phaseBarrier jid) s = execPhaseBarrier jid s := rfl
theorem exec_qctlEnable {ctx slot} (s : State) : exec (.qctlEnable ctx slot) s = execQctlEnable ctx slot s := rfl
theorem exec_qctlDisable {ctx slot} (s : State) : exec (.qctlDisable ctx slot) s = execQctlDisable ctx slot s := rfl
theorem exec_qctlKill {ctx slot} (s : State) : exec (.qctlKill ctx slot) s = execQctlKill ctx slot s := rfl
theorem exec_registerWrite {r value} (s : State) : exec (.registerWrite r value) s = execRegisterWrite r value s := rfl
theorem exec_partSet (s : State) : exec (.partSet) s = execPartSet s := rfl
theorem exec_ctxBind (s : State) : exec (.ctxBind) s = execCtxBind s := rfl
theorem exec_ctxUnbind (s : State) : exec (.ctxUnbind) s = execCtxUnbind s := rfl
theorem exec_fassign (s : State) : exec (.fassign) s = execFassign s := rfl
theorem exec_frelease (s : State) : exec (.frelease) s = execFrelease s := rfl
theorem exec_hmove (s : State) : exec (.hmove) s = execHmove s := rfl
theorem exec_preempt (s : State) : exec (.preempt) s = execPreempt s := rfl
theorem exec_killq (s : State) : exec (.killq) s = execKillq s := rfl
theorem exec_standset (s : State) : exec (.standset) s = execStandset s := rfl
theorem exec_signerSet (s : State) : exec (.signerSet) s = execSignerSet s := rfl
theorem exec_tmplReg (s : State) : exec (.tmplReg) s = execTmplReg s := rfl
theorem exec_tmplDrop (s : State) : exec (.tmplDrop) s = execTmplDrop s := rfl
theorem exec_taskctx (s : State) : exec (.taskctx) s = execTaskctx s := rfl
theorem exec_sessOpen (s : State) : exec (.sessOpen) s = execSessOpen s := rfl
theorem exec_sessRequest {c} (s : State) : exec (.sessRequest c) s = execSessRequest c s := rfl
theorem exec_sessAnswer {r} (s : State) : exec (.sessAnswer r) s = execSessAnswer r s := rfl
theorem exec_sessOpenTimeout (s : State) : exec (.sessOpenTimeout) s = execSessOpenTimeout s := rfl
theorem exec_sessClose (s : State) : exec .sessClose s = execSessClose s := rfl
theorem exec_spdmRequest {port kind} (s : State) : exec (.spdmRequest port kind) s = execSpdmRequest port kind s := rfl
theorem exec_hmopen {old new sizeCode tenant} (s : State) : exec (.hmopen old new sizeCode tenant) s = execHmopen old new sizeCode tenant s := rfl
theorem exec_lineCopy {old x} (s : State) : exec (.lineCopy old x) s = execLineCopy old x s := rfl
theorem exec_hmswitch {old} (s : State) : exec (.hmswitch old) s = execHmswitch old s := rfl
theorem exec_hmabort {old} (s : State) : exec (.hmabort old) s = execHmabort old s := rfl
theorem exec_cxlMemRequest {r} (s : State) : exec (.cxlMemRequest r) s = execCxlMemRequest r s := rfl
theorem exec_bisnpinv {x} (s : State) : exec (.bisnpinv x) s = execBisnpinv x s := rfl
theorem exec_bisnpdata {addr} (s : State) : exec (.bisnpdata addr) s = execBisnpdata addr s := rfl
theorem exec_biconflict {addr data} (s : State) : exec (.biconflict addr data) s = execBiconflict addr data s := rfl
theorem exec_extentAdd {base tag pids} (s : State) : exec (.extentAdd base tag pids) s = execExtentAdd base tag pids s := rfl
theorem exec_extentRelease {base} (s : State) : exec (.extentRelease base) s = execExtentRelease base s := rfl
theorem exec_extentGoneNotice {base} (s : State) : exec (.extentGoneNotice base) s = execExtentGoneNotice base s := rfl
theorem exec_ndtPacketReceive {src packet} (s : State) : exec (.ndtPacketReceive src packet) s = execNdtPacketReceive src packet s := rfl
theorem exec_pageBringIn {page lost} (s : State) : exec (.pageBringIn page lost) s = execPageBringIn page lost s := rfl
theorem exec_atsInvalidation {pasid base size} (s : State) : exec (.atsInvalidation pasid base size) s = execAtsInvalidation pasid base size s := rfl
theorem exec_softError {site worse} (s : State) : exec (.softError site worse) s = execSoftError site worse s := rfl
theorem exec_viralReceived {peer} (s : State) : exec (.viralReceived peer) s = execViralReceived peer s := rfl
theorem exec_deviceViral (s : State) : exec (.deviceViral) s = execDeviceViral s := rfl
theorem exec_expanderLost {pid} (s : State) : exec (.expanderLost pid) s = execExpanderLost pid s := rfl
theorem exec_vfEnableClear (s : State) : exec (.vfEnableClear) s = execVfEnableClear s := rfl
theorem exec_thermalClockStep {raise} (s : State) : exec (.thermalClockStep raise) s = execThermalClockStep raise s := rfl
theorem exec_auditReplayDone {r} (s : State) : exec (.auditReplayDone r) s = execAuditReplayDone r s := rfl
theorem exec_unitRetest {u pass} (s : State) : exec (.unitRetest u pass) s = execUnitRetest u pass s := rfl
theorem exec_startUp {r} (s : State) : exec (.startUp r) s = execStartUp r s := rfl
theorem exec_translationCompletion {ctx va r} (s : State) : exec (.translationCompletion ctx va r) s = execTranslationCompletion ctx va r s := rfl
theorem exec_iinvComplete {id} (s : State) : exec (.iinvComplete id) s = execIinvComplete id s := rfl
theorem exec_pageRequestInterfaceEnable {ctx} (s : State) : exec (.pageRequestInterfaceEnable ctx) s = execPageRequestInterfaceEnable ctx s := rfl
theorem exec_vfEnableSet (s : State) : exec (.vfEnableSet) s = execVfEnableSet s := rfl
theorem exec_linkReset {peer} (s : State) : exec (.linkReset peer) s = execLinkReset peer s := rfl
theorem exec_retrainingComplete {port width} (s : State) : exec (.retrainingComplete port width) s = execRetrainingComplete port width s := rfl
theorem exec_hostUioAccess {a} (s : State) : exec (.hostUioAccess a) s = execHostUioAccess a s := rfl

end Sys2Proof.Machine
end

