-- ==== Sys2Proof/Laws/Footprint.lean ====
section
/-! SUPPORT. How far a word can grow its home party's footprint (R39): no further than by the rows that it writes. -/
namespace Sys2Proof.Machine

/-- The rows that a write may map. -/
def Write.size : Write → Nat
  | .row (.v _) comps _ _ => comps.length
  | _ => 0

theorem footprint_setRow (h : Home) (n : BitVec 8) (c : Nat) (m : Mask) (data : Row) : (h.setRow n c m data).footprint ≤ h.footprint + 1 := by
  simpa [Home.setRow, Home.footprint] using List.length_filter_le _ h.rows

theorem footprint_setRows (comps : List (Nat × Row)) (h : Home) (n : BitVec 8) (m : Mask) :
    (comps.foldl (fun h c => h.setRow n c.1 m c.2) h).footprint ≤ h.footprint + comps.length := by
  induction comps generalizing h with
  | nil => simp
  | cons c cs ih =>
    have := ih (h.setRow n c.1 m c.2)
    have := footprint_setRow h n c.1 m c.2
    simp only [List.foldl_cons, List.length_cons]
    omega

theorem footprint_afterWrite (h : Home) (w : Write) : (h.afterWrite w).footprint ≤ h.footprint + w.size := by
  cases w with
  | row r comps m keep =>
    cases r with
    | v n =>
      have := footprint_setRows comps h n m
      simp only [Home.afterWrite, Write.size]
      split
      · exact this
      · exact Nat.le_trans (List.length_filter_le _ _) this
    | _ => simp [Home.afterWrite, Write.size]
  | drop n c => simpa [Home.afterWrite, Home.unmapShadow, Home.footprint, Write.size] using List.length_filter_le _ h.rows
  | _ => simp [Home.afterWrite, Write.size]

theorem footprint_afterWrites (ws : List Write) (h : Home) : (ws.foldl Home.afterWrite h).footprint ≤ h.footprint + (ws.map Write.size).sum := by
  induction ws generalizing h with
  | nil => simp
  | cons w ws ih =>
    have := ih (h.afterWrite w)
    have := footprint_afterWrite h w
    simp only [List.foldl_cons, List.map_cons, List.sum_cons]
    omega

theorem footprint_dropReader (h : Home) (r : BitVec 8) (pid : Nat) : (h.dropReader r pid).footprint ≤ h.footprint := by
  unfold Home.dropReader
  dsimp only
  split
  · exact List.length_filter_le _ _
  · exact Nat.le_refl _

theorem footprint_afterReads (l : List (BitVec 8)) (h : Home) (pid : Nat) : (h.afterReads pid l).footprint ≤ h.footprint := by
  induction l generalizing h with
  | nil => exact Nat.le_refl _
  | cons n l ih => exact Nat.le_trans (ih _) (footprint_dropReader h n pid)

/-- A word whose rows all have room within the commitment does not over-commit. -/
theorem overcommits_room {a : Agent} {ws : List Write} (u : Uses) (h : a.h.footprint + (ws.map Write.size).sum ≤ a.l.record.commitment) :
    a.overcommits u ws = false := by
  have := footprint_afterWrites ws (a.h.afterReads a.p.pid (lastNames u))
  have := footprint_afterReads (lastNames u) a.h a.p.pid
  simp only [Agent.overcommits, decide_eq_false_iff_not, Classical.not_and_iff_not_or_not]
  omega

theorem size_resultWrites (d : Reg) (n : Nat) (sext : Bool) (nt : Nat) (m : Mask) (rs : List LaneRes) :
    ((resultWrites d n sext nt m rs).map Write.size).sum ≤ n * (nt + 1) := by
  have hv (f : Nat → List (Nat × Row)) (hf : ∀ j, (f j).length = nt + 1) (g : Nat → BitVec 8) (l : List Nat) :
      ((l.map fun j => Write.row (.v (g j)) (f j) m false).map Write.size).sum = l.length * (nt + 1) := by
    induction l with
    | nil => simp
    | cons x l ih => simp only [List.map_cons, List.sum_cons, ih, Write.size, hf, List.length_cons]; rw [Nat.add_mul, Nat.one_mul, Nat.add_comm]
  cases d with
  | v k =>
    simp only [resultWrites]
    rw [hv _ (by simp [upFrom_length]), upFrom_length]
  | t k =>
    have (l : List Nat) (g : Nat → BitVec 3) (f : Nat → List (Nat × Row)) : ((l.map fun j => Write.row (.t (g j)) (f j) m false).map Write.size).sum = 0 := by
      induction l with
      | nil => rfl
      | cons x l ih => simp only [List.map_cons, List.sum_cons, ih, Write.size]
    simp only [resultWrites]
    rw [this]
    omega
  | s k => simp [resultWrites, Write.size]
  | c k => simp [resultWrites, Write.size]
  | imm k => simp [resultWrites]

end Sys2Proof.Machine
end

