-- ==== Sys2Proof/Tests/Slice0.lean ====
section
/-! SUPPORT. Tests: terms that each check of WellFormed refuses, words written out from the spec's encodings, single steps whose results come from the spec's
examples or from its formulas by hand, and for every statement states that meet its hypotheses. -/
namespace Sys2Proof.Tests
set_option Elab.async false
open Sys2Proof.Machine

/-! Words. -/

def f2 : V2 := { stall := 0, dual := none, d := .v 2, a := ⟨.v 7, 0, false⟩, b := ⟨.v 9, 0, true⟩, sub := 0, ty := .i32, rm := .rne, fs := 0, x := 0 }
def f3 : V3 := { stall := 0, dual := none, d := .v 2, a := ⟨.v 7, 0, false⟩, b := ⟨.v 9, 0, false⟩, c := ⟨.v 11, 0, false⟩, m := 0 }
def fu : UF := { stall := 0, d := .v 0, ua := 0, ub := 0, idx := 0, imm := 0 }
def fm : MF := { stall := 0, dual := none, dat := .v 4, so := ⟨.v 3, 0, false⟩, lrd := false, win := 5, nu := 0, scope := .pty, ord := .plain, sz := .w32, off := 0 }
def fa : MA := { stall := 0, dual := none, dat := .v 4, so := ⟨.v 3, 0, false⟩, lrd := false, win := 5, nu := 0, scope := .dev, ord := .rlx, sz := .w32, aop := .add, sgn := false }
def fp : PF := { stall := 0, dual := none, g := 0, ua := 0, ub := 0, uc := 0, fa := 0, fb := 0, kd := 0, nu := 0, pmod := 0 }
def fx : XF := { stall := 0, rply := none, xa := 3, xb := 0, nu := 62, scope := .pty, ord := .plain }
def fcd : CD := { stall := 0, cn := 0, neg := false, bmode := .lanes, off := 8 }

/-- The word is this instruction. -/
def reads (w : W64) (i : Instr) : Bool := match decode [w] with | .ok (j, []) => decide (j = i) | _ => false
def readsAll (l : List (W64 × Instr)) : Bool := l.all fun x => reads x.1 x.2
/-- The words are no instruction, for this reason. -/
def refuses (ws : List W64) (e : Reject) : Bool := match decode ws with | .error x => decide (x = e) | _ => false

/-! Terms that the checks of WellFormed refuse. -/

theorem test_wf_accepts : [Instr.iadd f2, .imad f3, .nop fu, .ld fm, .atom fa, .cpy fx, .bra fcd].all Instr.wf = true := by decide +kernel

/-- Operands: an odd pair, a quad off its place, a constant or a condition where a floating value is read, a last read of an s register, a pattern on an s
register, a vector source for an s destination, a condition register as a destination, an immediate destination (R62 to R67, R137). -/
theorem test_wf_operands : [Instr.iadd { f2 with ty := .i64, d := .v 3, a := ⟨.v 4, 0, false⟩, b := ⟨.v 6, 0, false⟩ }, .iadd { f2 with ty := .i64, d := .v 2, a := ⟨.v 5, 0, false⟩, b := ⟨.v 6, 0, false⟩ },
    .draw { f2 with ty := .f32, d := .v 6 }, .draw { f2 with ty := .f32, d := .s 4 }, .fadd { f2 with ty := .f32, a := ⟨.imm 3, 0, false⟩ }, .fadd { f2 with ty := .f32, a := ⟨.c 3, 0, false⟩ },
    .iadd { f2 with a := ⟨.s 3, 0, true⟩ }, .iadd { f2 with a := ⟨.s 3, 4, false⟩ }, .iadd { f2 with d := .s 3 }, .iadd { f2 with d := .c 3 }, .iadd { f2 with d := .imm 3 },
    .iadd { f2 with ty := .i64, d := .v 2, a := ⟨.c 1, 0, false⟩, b := ⟨.v 6, 0, false⟩ }, .pack4 { f2 with ty := .f32, a := ⟨.v 8, 0, false⟩, b := ⟨.s 3, 0, false⟩ },
    .xpnd { f2 with ty := .f32, b := .zero, d := .s 3, a := ⟨.s 2, 0, false⟩ }, .sel { f3 with m := 1, d := .v 2, a := ⟨.v 7, 0, false⟩ }].all (fun i => !i.wf) = true := by decide +kernel

/-- Fields: types, sub-operations, rounding codes, slots and unused fields that an entry does not allow (R77 to R80, R137, R140). -/
theorem test_wf_fields : [Instr.iadd { f2 with ty := .f32 }, .iadd { f2 with sub := 1 }, .iadd { f2 with rm := .rz }, .iadd { f2 with fs := 1 }, .iadd { f2 with x := 1 }, .imulh { f2 with ty := .i8 },
    .and { f2 with ty := .n16 }, .shl { f2 with ty := .i8 }, .ineg f2, .iabs { f2 with ty := .n32, b := .zero }, .icmp { f2 with sub := 6 }, .imad { f3 with m := 2 }, .fshl { f3 with m := 1 },
    .bmix { f3 with c := ⟨.c 1, 0, false⟩ }, .fadd { f2 with ty := .f32, rm := .rs }, .fmin { f2 with ty := .f32, rm := .rz }, .fcmp { f2 with ty := .f32, sub := 6 }, .fcmp { f2 with ty := .f16 },
    .ffma .f32 true { f3 with m := 1 }, .cvt { f2 with ty := .f16, b := .zero, sub := 2 }, .clop { f2 with d := .c 1, a := ⟨.c 1, 0, false⟩, b := ⟨.c 2, 0, false⟩, sub := 7 }, .cvote { f2 with sub := 3, b := .zero },
    .movx { f2 with ty := .i32, b := .zero }, .movhi { stall := 0, d := .v 1, imm := 0 }, .movi { stall := 0, d := .c 1, imm := 0 }, .coin { f2 with ty := .i32, a := .zero, b := .zero },
    .tget { f2 with ty := .n32, sub := 5, b := .zero }, .tset { f2 with ty := .n32, sub := 0, b := .zero }, .tclr { f2 with ty := .n32, a := .zero, b := .zero }, .drawa { f2 with ty := .f32, d := .v 4, sub := 2 },
    .gread { f2 with ty := .f32, b := .zero, sub := 8 }, .coll { f2 with d := .s 1, sub := 5 }, .coll { f2 with d := .s 1, ty := .i16 }, .coll { f2 with d := .s 1, rm := .rz }].all (fun i => !i.wf) = true := by decide +kernel

/-- A DUAL prefix before a word that is not eligible, or whose destination is an s register (R76, R221). -/
theorem test_wf_dual : [Instr.iadd { f2 with dual := some 0 }, .imad { f3 with dual := some 0 }, .fadd { f2 with ty := .f32, dual := some 1, d := .s 1, a := ⟨.s 1, 0, false⟩, b := ⟨.s 2, 0, false⟩ },
    .fclass { f2 with ty := .f32, b := .zero, dual := some 0 }, .ld { fm with sz := .z8, dual := some 0 }, .atom { fa with dual := some 0 }, .pref { fm with dat := .v 0, sz := .z8, dual := some 0 }].all (fun i => !i.wf) = true := by decide +kernel

/-- Memory, press, engine, control and uniform formats (R74, R75, R78, R172, R262, R269, R281, R295, R354). -/
theorem test_wf_formats : [Instr.ld { fm with nu := 48 }, .ld { fm with dat := .s 4 }, .ld { fm with sz := .w64, dat := .v 5 }, .ld { fm with lrd := true }, .ld { fm with scope := .dev }, .ld { fm with ord := .ar },
    .ld { fm with so := ⟨.c 1, 0, false⟩ }, .ldsc { fm with nu := 1 }, .ldsc { fm with ord := .rlx, scope := .dev }, .ldpv { fm with ord := .rlx }, .ldk { fm with dat := .s 1 }, .ldk { fm with dat := .s 1, so := ⟨.s 1, 0, false⟩, sz := .w128 },
    .st { fm with sz := .x8 }, .st { fm with dat := .s 4, sz := .w128 }, .st { fm with dat := .s 4, lrd := true }, .stpv { fm with scope := .frm }, .atom { fa with sz := .z8 }, .atom { fa with ord := .plain }, .atom { fa with sgn := true },
    .atom { fa with aop := .fadd, sz := .w64 }, .atom { fa with aop := .cas, dat := .v 5 }, .atom { fa with dat := .s 4 }, .atomsc { fa with scope := .dev }, .red { fa with aop := .xchg }, .pref { fm with dat := .v 1, sz := .z8 }, .reuse { fm with dat := .v 0, sz := .x16 },
    .cwb { fm with dat := .v 0 }, .iinv { fm with dat := .v 0, sz := .z8, scope := .sys }, .press fp, .press { fp with kd := 1, pmod := 2 }, .presss { fp with kd := 2 }, .sheet { fp with kd := 1 }, .gclr { fp with ua := 1 }, .gload { fp with fb := 1 },
    .gstore { fp with pmod := 5 }, .platen { fp with kd := 1, nu := 61 }, .cpy { fx with nu := 48 }, .cpy { fx with ord := .rlx }, .cpy { fx with scope := .dev }, .bra { fcd with neg := true }, .call { fcd with cn := 1 }, .nop { fu with imm := 1 },
    .ropeSet { fu with imm := 0 }, .ropeSet { fu with imm := 33 }, .ropeArv { fu with idx := 64 }, .signal { fu with idx := 3 }, .waitc { fu with imm := 5 }, .cancel { fu with imm := 2 }, .launch fu, .movs { fu with d := .s 1, idx := 0x0C },
    .movs { fu with imm := 1, idx := 2 }, .movsw { fu with idx := 4 }, .ctrr { fu with d := .s 1, idx := 0x17 }, .fence fu, .fence { fu with imm := 0x0D }, .wopen { fu with ub := 1, imm := 1 }, .wopen { fu with imm := 8 }, .wclose { fu with idx := 16 },
    .waitb { fu with idx := 1, imm := 256 }, .batch fu, .coink fu, .coink { fu with imm := 5 }, .csigSig { fu with idx := 1 }].all (fun i => !i.wf) = true := by decide +kernel


/-! Words written out from the encodings of the spec (R62 to R81), one at least of every instruction word. -/

theorem test_decode_control : readsAll
  [(0x0100000000000000, .nop fu),
   (0x02001FFFFFFFFFFD, .bra { stall := 0, cn := 0, neg := false, bmode := .lanes, off := 0x1ffffffffffd }),
   (0x030B000000000009, .brc { stall := 0, cn := 2, neg := true, bmode := .all, off := 0x9 }),
   (0x0480800000000000, .brx { stall := 4, ua := 1 }),
   (0x0601000000000000, .callx { stall := 0, ua := 2 }),
   (0x0500000000000040, .call { stall := 0, cn := 0, neg := false, bmode := .lanes, off := 0x40 }),
   (0x0700000000000000, .ret fu),
   (0x0800000000000000, .exit fu),
   (0x0900000000000000, .fuse fu),
   (0x0A00000000000000, .yield fu),
   (0x0B000000000001F4, .sleep { fu with d := .v 0, ua := 0, ub := 0, idx := 0, imm := 500 }),
   (0x0C00000000000000, .isync fu),
   (0x100000000301F404, .ropeSet { fu with d := .v 0, ua := 0, ub := 0, idx := 3, imm := 128004 }),
   (0x110000003F000000, .ropeArv { fu with d := .v 0, ua := 0, ub := 0, idx := 63, imm := 0 }),
   (0x1200000001000000, .ropeWait { fu with d := .v 0, ua := 0, ub := 0, idx := 1, imm := 0 }),
   (0x1300000002000000, .ropeSync { fu with d := .v 0, ua := 0, ub := 0, idx := 2, imm := 0 }),
   (0x1400000000000000, .phase fu),
   (0x1500005802000003, .signal { fu with d := .v 0, ua := 1, ub := 24, idx := 2, imm := 3 }),
   (0x1600005905000004, .waitc { fu with d := .v 0, ua := 1, ub := 25, idx := 5, imm := 4 }),
   (0x1710414001000001, .cancel { fu with d := .s 4, ua := 5, ub := 0, idx := 1, imm := 1 }),
   (0x181061C001000000, .launch { fu with d := .s 6, ua := 7, ub := 0, idx := 1, imm := 0 }),
   (0x190000000000002A, .trap { fu with d := .v 0, ua := 0, ub := 0, idx := 0, imm := 42 }),
   (0x1A00000000000001, .bkpt { fu with d := .v 0, ua := 0, ub := 0, idx := 0, imm := 1 }),
   (0x1B00000000000000, .eret fu),
   (0x1C10900025000000, .movs { fu with d := .s 9, ua := 0, ub := 0, idx := 37, imm := 0 }),
   (0x1D00300005000000, .movsw { fu with d := .v 3, ua := 0, ub := 0, idx := 5, imm := 0 }),
   (0x1E10300016000000, .ctrr { fu with d := .s 3, ua := 0, ub := 0, idx := 22, imm := 0 })] = true := by decide +kernel

theorem test_decode_integer : readsAll
  [(0x2000207009010700, .iadd { f2 with d := .v 2, a := ⟨.v 7, 0, false⟩, b := ⟨.v 9, 0, true⟩, ty := .n8 }),
   (0x2100207009010700, .isub { f2 with d := .v 2, a := ⟨.v 7, 0, false⟩, b := ⟨.v 9, 0, true⟩, ty := .n8 }),
   (0x2200207009010700, .imul { f2 with d := .v 2, a := ⟨.v 7, 0, false⟩, b := ⟨.v 9, 0, true⟩, ty := .n8 }),
   (0x2800207009010700, .imin { f2 with d := .v 2, a := ⟨.v 7, 0, false⟩, b := ⟨.v 9, 0, true⟩, ty := .n8 }),
   (0x2900207009010700, .imax { f2 with d := .v 2, a := ⟨.v 7, 0, false⟩, b := ⟨.v 9, 0, true⟩, ty := .n8 }),
   (0x2300406008000200, .imulh { f2 with d := .v 4, a := ⟨.v 6, 0, false⟩, b := ⟨.v 8, 0, false⟩, ty := .i64 }),
   (0x2600207000000400, .ineg { f2 with d := .v 2, a := ⟨.v 7, 0, false⟩, b := ⟨.v 0, 0, false⟩, ty := .i16 }),
   (0x2700207500000600, .iabs { f2 with d := .v 2, a := ⟨.v 7, 5, false⟩, b := ⟨.v 0, 0, false⟩, ty := .i8 }),
   (0x2B0020700A046100, .lea { f2 with d := .v 2, a := ⟨.v 7, 0, false⟩, b := ⟨.s 10, 0, false⟩, ty := .n32, sub := 6 }),
   (0x2400207009041029, .imad { stall := 0, dual := none, d := .v 2, a := ⟨.v 7, 0, false⟩, b := ⟨.v 9, 0, true⟩, c := ⟨.t 1, 0, false⟩, m := 1 }),
   (0x2A00207009041029, .iclamp { stall := 0, dual := none, d := .v 2, a := ⟨.v 7, 0, false⟩, b := ⟨.v 9, 0, true⟩, c := ⟨.t 1, 0, false⟩, m := 1 }),
   (0x2500207009042028, .imadw { stall := 0, dual := none, d := .v 2, a := ⟨.v 7, 0, false⟩, b := ⟨.v 9, 0, true⟩, c := ⟨.t 2, 0, false⟩, m := 0 }),
   (0x3000207085040100, .and { f2 with d := .v 2, a := ⟨.v 7, 0, false⟩, b := ⟨.imm 5, 0, false⟩, ty := .n32 }),
   (0x3100207085040100, .or { f2 with d := .v 2, a := ⟨.v 7, 0, false⟩, b := ⟨.imm 5, 0, false⟩, ty := .n32 }),
   (0x3200207085040100, .xor { f2 with d := .v 2, a := ⟨.v 7, 0, false⟩, b := ⟨.imm 5, 0, false⟩, ty := .n32 }),
   (0x3300207085040100, .andn { f2 with d := .v 2, a := ⟨.v 7, 0, false⟩, b := ⟨.imm 5, 0, false⟩, ty := .n32 }),
   (0x3400207085040100, .orn { f2 with d := .v 2, a := ⟨.v 7, 0, false⟩, b := ⟨.imm 5, 0, false⟩, ty := .n32 }),
   (0x3700207085040100, .shl { f2 with d := .v 2, a := ⟨.v 7, 0, false⟩, b := ⟨.imm 5, 0, false⟩, ty := .n32 }),
   (0x3800207085040100, .shr { f2 with d := .v 2, a := ⟨.v 7, 0, false⟩, b := ⟨.imm 5, 0, false⟩, ty := .n32 }),
   (0x3900207085040100, .sar { f2 with d := .v 2, a := ⟨.v 7, 0, false⟩, b := ⟨.imm 5, 0, false⟩, ty := .n32 }),
   (0x3A00207085040100, .rol { f2 with d := .v 2, a := ⟨.v 7, 0, false⟩, b := ⟨.imm 5, 0, false⟩, ty := .n32 }),
   (0x3500207000000000, .not { f2 with d := .v 2, a := ⟨.v 7, 0, false⟩, b := ⟨.v 0, 0, false⟩, ty := .i32 }),
   (0x3600207009A0BC00, .bmix { stall := 0, dual := none, d := .v 2, a := ⟨.v 7, 0, false⟩, b := ⟨.v 9, 10, false⟩, c := ⟨.v 11, 12, false⟩, m := 0 })] = true := by decide +kernel

theorem test_decode_bits : readsAll
  [(0x3B00207009041028, .fshl { stall := 0, dual := none, d := .v 2, a := ⟨.v 7, 0, false⟩, b := ⟨.v 9, 0, true⟩, c := ⟨.t 1, 0, false⟩, m := 0 }),
   (0x3C00207009041028, .bfx { stall := 0, dual := none, d := .v 2, a := ⟨.v 7, 0, false⟩, b := ⟨.v 9, 0, true⟩, c := ⟨.t 1, 0, false⟩, m := 0 }),
   (0x3D00207009041028, .bfi { stall := 0, dual := none, d := .v 2, a := ⟨.v 7, 0, false⟩, b := ⟨.v 9, 0, true⟩, c := ⟨.t 1, 0, false⟩, m := 0 }),
   (0x2E00206000000300, .popc { f2 with d := .v 2, a := ⟨.v 6, 0, false⟩, b := ⟨.v 0, 0, false⟩, ty := .n64 }),
   (0x2F00206000000300, .clz { f2 with d := .v 2, a := ⟨.v 6, 0, false⟩, b := ⟨.v 0, 0, false⟩, ty := .n64 }),
   (0x3E00206000000300, .ctz { f2 with d := .v 2, a := ⟨.v 6, 0, false⟩, b := ⟨.v 0, 0, false⟩, ty := .n64 }),
   (0x3F00207000000000, .brev { f2 with d := .v 2, a := ⟨.v 7, 0, false⟩, b := ⟨.v 0, 0, false⟩, ty := .i32 }),
   (0x2C14907009015500, .icmp { f2 with d := .c 1, a := ⟨.v 7, 0, false⟩, b := ⟨.v 9, 0, true⟩, ty := .n16, sub := 5 }),
   (0x2D0020700904B028, .sel { stall := 0, dual := none, d := .v 2, a := ⟨.v 7, 0, false⟩, b := ⟨.v 9, 0, true⟩, c := ⟨.c 3, 0, false⟩, m := 0 }),
   (0x401494A04B0C1000, .clop { f2 with d := .c 1, a := ⟨.c 2, 0, false⟩, b := ⟨.c 3, 0, false⟩, ty := .i32, sub := 1 }),
   (0x4110507000003000, .cvote { f2 with d := .s 5, a := ⟨.v 7, 0, false⟩, b := ⟨.v 0, 0, false⟩, ty := .i32, sub := 3 }),
   (0x4200406000000300, .mov { f2 with d := .v 4, a := ⟨.v 6, 0, false⟩, b := ⟨.v 0, 0, false⟩, ty := .n64 }),
   (0x4300C000DEADBEEF, .movi { stall := 0, d := .v 12, imm := 0xDEADBEEF }),
   (0x4410900000000007, .movhi { stall := 0, d := .s 9, imm := 7 }),
   (0x4500207000000100, .movx { f2 with d := .v 2, a := ⟨.v 7, 0, false⟩, b := ⟨.v 0, 0, false⟩, ty := .n32 }),
   (0x4600007009010100, .movxw { f2 with d := .v 0, a := ⟨.v 7, 0, false⟩, b := ⟨.v 9, 0, true⟩, ty := .n32 }),
   (0x4700207009010100, .lperm { f2 with d := .v 2, a := ⟨.v 7, 0, false⟩, b := ⟨.v 9, 0, true⟩, ty := .n32 })] = true := by decide +kernel

theorem test_decode_float : readsAll
  [(0x5000207009010A80, .fadd { f2 with d := .v 2, a := ⟨.v 7, 0, false⟩, b := ⟨.v 9, 0, true⟩, ty := .b16, rm := .rna }),
   (0x5100207009010A80, .fsub { f2 with d := .v 2, a := ⟨.v 7, 0, false⟩, b := ⟨.v 9, 0, true⟩, ty := .b16, rm := .rna }),
   (0x5200207009010A80, .fmul { f2 with d := .v 2, a := ⟨.v 7, 0, false⟩, b := ⟨.v 9, 0, true⟩, ty := .b16, rm := .rna }),
   (0x5300207009010900, .fmin { f2 with d := .v 2, a := ⟨.v 7, 0, false⟩, b := ⟨.v 9, 0, true⟩, ty := .f16 }),
   (0x5400207009010900, .fmax { f2 with d := .v 2, a := ⟨.v 7, 0, false⟩, b := ⟨.v 9, 0, true⟩, ty := .f16 }),
   (0x551480700901D800, .fcmp { f2 with d := .c 0, a := ⟨.v 7, 0, false⟩, b := ⟨.v 9, 0, true⟩, ty := .f32, sub := 13 }),
   (0x5600207000000800, .fclass { f2 with d := .v 2, a := ⟨.v 7, 0, false⟩, b := ⟨.v 0, 0, false⟩, ty := .f32 }),
   (0x5700207000000860, .frnd { f2 with d := .v 2, a := ⟨.v 7, 0, false⟩, b := ⟨.v 0, 0, false⟩, ty := .f32, rm := .rdn }),
   (0x5800207003040820, .fscale { f2 with d := .v 2, a := ⟨.v 7, 0, false⟩, b := ⟨.s 3, 0, false⟩, ty := .f32, rm := .rz }),
   (0x5900207000000800, .fexpn { f2 with d := .v 2, a := ⟨.v 7, 0, false⟩, b := ⟨.v 0, 0, false⟩, ty := .f32 }),
   (0x5A00207000000800, .frcps { f2 with d := .v 2, a := ⟨.v 7, 0, false⟩, b := ⟨.v 0, 0, false⟩, ty := .f32 }),
   (0x5B00207000000800, .frsqs { f2 with d := .v 2, a := ⟨.v 7, 0, false⟩, b := ⟨.v 0, 0, false⟩, ty := .f32 }),
   (0x5C00207000000800, .fex2 { f2 with d := .v 2, a := ⟨.v 7, 0, false⟩, b := ⟨.v 0, 0, false⟩, ty := .f32 }),
   (0x5D00207000000800, .flg2 { f2 with d := .v 2, a := ⟨.v 7, 0, false⟩, b := ⟨.v 0, 0, false⟩, ty := .f32 }),
   (0x5E00207000000800, .fsin { f2 with d := .v 2, a := ⟨.v 7, 0, false⟩, b := ⟨.v 0, 0, false⟩, ty := .f32 }),
   (0x5F00207000000800, .fcos { f2 with d := .v 2, a := ⟨.v 7, 0, false⟩, b := ⟨.v 0, 0, false⟩, ty := .f32 }),
   (0x6000207009041028, .ffma .f32 false { stall := 0, dual := none, d := .v 2, a := ⟨.v 7, 0, false⟩, b := ⟨.v 9, 0, true⟩, c := ⟨.t 1, 0, false⟩, m := 0 }),
   (0x6300207009041028, .ffma .f16 true { stall := 0, dual := none, d := .v 2, a := ⟨.v 7, 0, false⟩, b := ⟨.v 9, 0, true⟩, c := ⟨.t 1, 0, false⟩, m := 0 }),
   (0x6400207009041028, .ffma .b16 false { stall := 0, dual := none, d := .v 2, a := ⟨.v 7, 0, false⟩, b := ⟨.v 9, 0, true⟩, c := ⟨.t 1, 0, false⟩, m := 0 }),
   (0x6800207009041028, .fdot2 false false { stall := 0, dual := none, d := .v 2, a := ⟨.v 7, 0, false⟩, b := ⟨.v 9, 0, true⟩, c := ⟨.t 1, 0, false⟩, m := 0 }),
   (0x6B00207009041028, .fdot2 true true { stall := 0, dual := none, d := .v 2, a := ⟨.v 7, 0, false⟩, b := ⟨.v 9, 0, true⟩, c := ⟨.t 1, 0, false⟩, m := 0 }),
   (0x6C00207009041028, .fdot4 false false { stall := 0, dual := none, d := .v 2, a := ⟨.v 7, 0, false⟩, b := ⟨.v 9, 0, true⟩, c := ⟨.t 1, 0, false⟩, m := 0 }),
   (0x6F00207009041028, .fdot4 true true { stall := 0, dual := none, d := .v 2, a := ⟨.v 7, 0, false⟩, b := ⟨.v 9, 0, true⟩, c := ⟨.t 1, 0, false⟩, m := 0 }),
   (0x7000207000007DF4, .cvt { f2 with d := .v 2, a := ⟨.v 7, 0, false⟩, b := ⟨.v 0, 0, false⟩, ty := .e2m1, sub := 7, fs := 5, rm := .rs }),
   (0x71002070090108E4, .pack2 { f2 with d := .v 2, a := ⟨.v 7, 0, false⟩, b := ⟨.v 9, 0, true⟩, ty := .f32, fs := 1, rm := .rs }),
   (0x7200C0800A0008E9, .pack4 { f2 with d := .v 12, a := ⟨.v 8, 0, false⟩, b := ⟨.v 10, 0, false⟩, ty := .f32, fs := 2, x := 1, rm := .rs }),
   (0x730020700000080D, .xpnd { f2 with d := .v 2, a := ⟨.v 7, 0, false⟩, b := ⟨.v 0, 0, false⟩, ty := .f32, fs := 3, x := 1 }),
   (0x7400207000000890, .qblk { f2 with d := .v 2, a := ⟨.v 7, 0, false⟩, b := ⟨.v 0, 0, false⟩, ty := .f32, fs := 4, rm := .rna }),
   (0x7500207000000810, .dqblk { f2 with d := .v 2, a := ⟨.v 7, 0, false⟩, b := ⟨.v 0, 0, false⟩, ty := .f32, fs := 4 })] = true := by decide +kernel

theorem test_decode_press : readsAll
  [(0x8000108000005000, .sheet { stall := 0, dual := none, g := 0, ua := 1, ub := 2, uc := 0, fa := 0, fb := 0, kd := 0, nu := 5, pmod := 0 }),
   (0x811C41462BFFE100, .press { stall := 0, dual := none, g := 7, ua := 4, ub := 5, uc := 6, fa := 1, fb := 2, kd := 255, nu := 62, pmod := 1 }),
   (0x820441462503F300, .presss { stall := 0, dual := none, g := 1, ua := 4, ub := 5, uc := 6, fa := 1, fb := 1, kd := 64, nu := 63, pmod := 3 }),
   (0x830C000000000000, .gclr { stall := 0, dual := none, g := 3, ua := 0, ub := 0, uc := 0, fa := 0, fb := 0, kd := 0, nu := 0, pmod := 0 }),
   (0x8402803000085800, .gread { f2 with d := .v 40, a := ⟨.s 3, 0, false⟩, b := ⟨.v 0, 0, false⟩, ty := .f32, sub := 5 }),
   (0x8500003009085800, .gwrite { f2 with d := .v 0, a := ⟨.s 3, 0, false⟩, b := ⟨.v 9, 0, false⟩, ty := .f32, sub := 5 }),
   (0x86081083A0001000, .gload { stall := 0, dual := none, g := 2, ua := 1, ub := 2, uc := 3, fa := 5, fb := 0, kd := 0, nu := 1, pmod := 0 }),
   (0x87081083A0001700, .gstore { stall := 0, dual := none, g := 2, ua := 1, ub := 2, uc := 3, fa := 5, fb := 0, kd := 0, nu := 1, pmod := 7 }),
   (0x8B0441466E03E000, .platen { stall := 0, dual := none, g := 1, ua := 4, ub := 5, uc := 6, fa := 3, fb := 3, kd := 128, nu := 62, pmod := 0 }),
   (0x8800000000000000, .oready fu),
   (0x8910D00000000000, .batch { fu with d := .s 13, ua := 0, ub := 0, idx := 0, imm := 0 }),
   (0x8A00038000000000, .waitb { fu with d := .v 0, ua := 14, ub := 0, idx := 0, imm := 0 }),
   (0x8A000000010000FF, .waitb { fu with d := .v 0, ua := 0, ub := 0, idx := 1, imm := 255 })] = true := by decide +kernel

theorem test_decode_draws : readsAll
  [(0x9000010500000007, .coink { fu with d := .v 0, ua := 4, ub := 5, idx := 0, imm := 7 }),
   (0x9100200000000100, .coin { f2 with d := .v 2, a := ⟨.v 0, 0, false⟩, b := ⟨.v 0, 0, false⟩, ty := .n32 }),
   (0x920181A000080300, .coinr { f2 with d := .v 24, a := ⟨.s 26, 0, false⟩, b := ⟨.v 0, 0, false⟩, ty := .n64 }),
   (0x9300407009010800, .draw { f2 with d := .v 4, a := ⟨.v 7, 0, false⟩, b := ⟨.v 9, 0, true⟩, ty := .f32 }),
   (0x9400402004061800, .drawa { f2 with d := .v 4, a := ⟨.v 2, 0, true⟩, b := ⟨.s 4, 0, false⟩, ty := .f32, sub := 1 }),
   (0x950080000400C000, .dmerge { stall := 0, dual := none, d := .v 8, a := ⟨.v 0, 0, false⟩, b := ⟨.v 4, 0, false⟩, c := ⟨.v 12, 0, false⟩, m := 0 }),
   (0x9600844003080800, .dshift { f2 with d := .v 8, a := ⟨.t 4, 0, false⟩, b := ⟨.v 3, 0, false⟩, ty := .f32 }),
   (0x9700207000004100, .tget { f2 with d := .v 2, a := ⟨.v 7, 0, false⟩, b := ⟨.v 0, 0, false⟩, ty := .n32, sub := 4 }),
   (0x9800203000081100, .tset { f2 with d := .v 2, a := ⟨.s 3, 0, false⟩, b := ⟨.v 0, 0, false⟩, ty := .n32, sub := 1 }),
   (0x990020000000F100, .tclr { f2 with d := .v 2, a := ⟨.v 0, 0, false⟩, b := ⟨.v 0, 0, false⟩, ty := .n32, sub := 15 })] = true := by decide +kernel

theorem test_decode_memory : readsAll
  [(0xA00040300B7CA400, .ld { stall := 0, dual := none, dat := .v 4, so := ⟨.v 3, 0, false⟩, lrd := false, win := 5, nu := 47, scope := .sys, ord := .acqRel, sz := .w128, off := 1024 }),
   (0xA210A0908A002800, .ldk { stall := 0, dual := none, dat := .s 10, so := ⟨.s 9, 0, false⟩, lrd := false, win := 5, nu := 0, scope := .pty, ord := .plain, sz := .x8, off := 0 }),
   (0xA30040300A017000, .ldsc { stall := 0, dual := none, dat := .v 4, so := ⟨.v 3, 0, false⟩, lrd := false, win := 5, nu := 0, scope := .frm, ord := .rlx, sz := .x16, off := 0 }),
   (0xA40040300A000000, .stsc { stall := 0, dual := none, dat := .v 4, so := ⟨.v 3, 0, false⟩, lrd := false, win := 5, nu := 0, scope := .pty, ord := .plain, sz := .z8, off := 0 }),
   (0xA50040300A001000, .ldpv { stall := 0, dual := none, dat := .v 4, so := ⟨.v 3, 0, false⟩, lrd := false, win := 5, nu := 0, scope := .pty, ord := .plain, sz := .w32, off := 0 }),
   (0xA60040302A001008, .stpv { stall := 0, dual := none, dat := .v 4, so := ⟨.v 3, 0, false⟩, lrd := true, win := 5, nu := 0, scope := .pty, ord := .plain, sz := .w32, off := 8 }),
   (0xA11070324A001800, .st { stall := 0, dual := none, dat := .s 7, so := ⟨.v 3, 2, true⟩, lrd := false, win := 5, nu := 0, scope := .pty, ord := .plain, sz := .w64, off := 0 }),
   (0xA70040300A03D580, .atom { stall := 0, dual := none, dat := .v 4, so := ⟨.v 3, 0, false⟩, lrd := false, win := 5, nu := 0, scope := .dev, ord := .ar, sz := .w32, aop := .inc, sgn := false }),
   (0xA80040300A005140, .atomsc { stall := 0, dual := none, dat := .v 4, so := ⟨.v 3, 0, false⟩, lrd := false, win := 5, nu := 0, scope := .pty, ord := .rlx, sz := .w32, aop := .max, sgn := true }),
   (0xA91810300A045400, .red { stall := 0, dual := none, dat := .imm 1, so := ⟨.v 3, 0, false⟩, lrd := false, win := 5, nu := 0, scope := .sys, ord := .rlx, sz := .w32, aop := .fadd, sgn := false }),
   (0xAA0000300A600800, .pref { stall := 0, dual := none, dat := .v 0, so := ⟨.v 3, 0, false⟩, lrd := false, win := 5, nu := 12, scope := .pty, ord := .plain, sz := .z16, off := 0 }),
   (0xAB0000300BF81800, .reuse { stall := 0, dual := none, dat := .v 0, so := ⟨.v 3, 0, false⟩, lrd := false, win := 5, nu := 63, scope := .pty, ord := .plain, sz := .w64, off := 0 }),
   (0xAC0000000000007B, .fence { fu with d := .v 0, ua := 0, ub := 0, idx := 0, imm := 123 }),
   (0xB00000300A010000, .cwb { stall := 0, dual := none, dat := .v 0, so := ⟨.v 3, 0, false⟩, lrd := false, win := 5, nu := 0, scope := .frm, ord := .plain, sz := .z8, off := 0 }),
   (0xB10000300A030000, .cinv { stall := 0, dual := none, dat := .v 0, so := ⟨.v 3, 0, false⟩, lrd := false, win := 5, nu := 0, scope := .dev, ord := .plain, sz := .z8, off := 0 }),
   (0xB20000300A030000, .iinv { stall := 0, dual := none, dat := .v 0, so := ⟨.v 3, 0, false⟩, lrd := false, win := 5, nu := 0, scope := .dev, ord := .plain, sz := .z8, off := 0 }),
   (0xB30000C80F000007, .wopen { fu with d := .v 0, ua := 3, ub := 8, idx := 15, imm := 7 }),
   (0xB40000000F000000, .wclose { fu with d := .v 0, ua := 0, ub := 0, idx := 15, imm := 0 })] = true := by decide +kernel

theorem test_decode_engines : readsAll
  [(0xB51090C003F80000, .cpy { stall := 0, rply := some 9, xa := 3, xb := 0, nu := 62, scope := .pty, ord := .plain }),
   (0xB50000C004F96000, .cpyx { stall := 0, rply := none, xa := 3, xb := 0, nu := 62, scope := .die, ord := .ar }),
   (0xB50000C006F80000, .cpyrot { stall := 0, rply := none, xa := 3, xb := 0, nu := 62, scope := .pty, ord := .plain }),
   (0xB50000C008000000, .fill { stall := 0, rply := none, xa := 3, xb := 0, nu := 0, scope := .pty, ord := .plain }),
   (0xB50000C00AF84000, .scrub { stall := 0, rply := none, xa := 3, xb := 0, nu := 62, scope := .pty, ord := .acqRel }),
   (0xB50000C10CF80000, .seal { stall := 0, rply := none, xa := 3, xb := 1, nu := 62, scope := .pty, ord := .plain }),
   (0xB50000CB0EFA4000, .ndt { stall := 0, rply := none, xa := 3, xb := 11, nu := 62, scope := .sys, ord := .acqRel }),
   (0xB610506009081A41, .coll { f2 with d := .s 5, a := ⟨.s 6, 0, false⟩, b := ⟨.v 9, 0, false⟩, ty := .b16, sub := 1, x := 1, rm := .rup }),
   (0xB70001C000000000, .csigBind { fu with d := .v 0, ua := 7, ub := 0, idx := 0, imm := 0 }),
   (0xB71081C001000000, .csigSig { fu with d := .s 8, ua := 7, ub := 0, idx := 1, imm := 0 }),
   (0xB71081C002000000, .csigStat { fu with d := .s 8, ua := 7, ub := 0, idx := 2, imm := 0 })] = true := by decide +kernel


/-- Reserved and unassigned encodings are refused by name (R70 to R81). -/
theorem test_decode_refuses : (refuses [0] .unassignedOpcode && refuses [0xFE00400800000000] .framingWord && refuses [0xFF20800000000000] .framingWord && refuses [0xF000000000000000] .badDual &&
    refuses [0xF000000000000000, 0x2000200001010000] .illegalForm && refuses [0x0801000000000000] .illegalForm) = true := by decide +kernel

/-! Single steps. Party 1 of forme 1 runs one word of a pitch; register results are read in lane 3 unless another is named. -/

def one (ws : List W64) : State := State.reset.running1 ws
/-- A row of a register, the same in every lane or by the lane. -/
def withV (s : State) (n : BitVec 8) (f : Nat → W32) : State := s.onHome 1 0 fun (h : Home) => { (h.setRow n 0 (BitVec.allOnes 64) (rowOf f)) with readers := (n, [1]) :: h.readers }
def withTan (s : State) (n : BitVec 8) (c : Nat) (f : Nat → W32) : State := s.onHome 1 0 fun (h : Home) => h.setRow n c (BitVec.allOnes 64) (rowOf f)
def withS (s : State) (n : Nat) (x : W64) : State := s.onParty 1 fun p => { p with s := p.s.set n x }
def withC (s : State) (n : Nat) (x : Mask) : State := s.onParty 1 fun p => { p with c := p.c.set n x }
def withVs (s : State) (l : List (BitVec 8 × W32)) : State := l.foldl (fun s x => withV s x.1 fun _ => x.2) s
/-- The state after one step, or the reset state where the step stops. -/
def ran (s : State) : State := match step s with | .next t => t | _ => State.reset
def happened (i : Instr) (s : State) : State := match exec i s with | .next t => t | _ => State.reset
def at_ (s : State) (n : BitVec 8) (k : Nat := 3) : W32 := s.vLane 1 0 n 0 k
def tan_ (s : State) (n : BitVec 8) (c : Nat) (k : Nat := 3) : W32 := s.vLane 1 0 n c k
def sr (s : State) (n : BitVec 6) : W64 := ((s.party? 1).map fun p => p.sreg n).getD 0
def cr (s : State) (n : BitVec 3) : Mask := ((s.party? 1).map fun p => p.creg n).getD 0
def fl (s : State) : BitVec 9 := ((s.forme? 1).map (·.flags)).getD 0

/-- The sum wraps, and the last read of v1 leaves it unmapped (R66, R141). -/
theorem test_iadd : (let t := ran (withVs (one [0x2000200001010000]) [(0, 0x7FFFFFFF), (1, 1)]); (at_ t 2, (t.home? 1 0).map fun h => (h.row? 1 0).isSome)) = (0x80000000, some false) := by decide +kernel
theorem test_imul : at_ (ran (withVs (one [0x2260500083040000]) [(0, 7)])) 5 = 21 := by decide +kernel
/-- R141: A - B as 8-bit numbers, zero-extended for N8. -/
theorem test_isub_n8 : at_ (ran (withVs (one (encode (.isub { f2 with ty := .n8 }))) [(7, 1), (9, 2)])) 2 = 0xFF := by decide +kernel
theorem test_imulh : (let t := ran (withVs (one (encode (.imulh { f2 with d := .v 2, a := ⟨.v 6, 0, false⟩, b := ⟨.v 8, 0, false⟩, ty := .i64 }))) [(6, 0xFFFFFFFF), (7, 0xFFFFFFFF), (8, 2), (9, 0)]); (at_ t 2, at_ t 3)) = (0xFFFFFFFF, 0xFFFFFFFF) := by
  decide +kernel
theorem test_imadw : (let r := fun (m : BitVec 2) => let t := ran (withVs (one (encode (.imadw { f3 with m := m, c := ⟨.v 10, 0, false⟩ }))) [(7, 0xFFFFFFFF), (9, 0xFFFFFFFF), (10, 1), (11, 0)]); (at_ t 2, at_ t 3); (r 0, r 1)) =
    ((2, 0), (2, 0xFFFFFFFE)) := by decide +kernel
theorem test_iabs_least : at_ (ran (withVs (one (encode (.iabs { f2 with b := .zero }))) [(7, 0x80000000)])) 2 = 0x80000000 := by decide +kernel
theorem test_iclamp : at_ (ran (withVs (one (encode (.iclamp f3))) [(7, 0xFFFFFFFB), (9, 0xFFFFFFFD), (11, 4)])) 2 = 0xFFFFFFFD := by decide +kernel
theorem test_lea : at_ (ran (withVs (withS (one [0x2B0030200A046100]) 10 3) [(2, 5)])) 3 = 0xC5 := by decide +kernel
/-- R143's examples. -/
theorem test_shifts : (let r := fun (i : Instr) (n : W32) => at_ (ran (withVs (one (encode i)) [(7, 0xF0000000), (9, n)])) 2
    [r (.shr { f2 with ty := .n32 }) 4, r (.shr { f2 with ty := .n32 }) 31, r (.shr { f2 with ty := .n32 }) 32, r (.sar f2) 4, r (.sar f2) 0xFFFFFFFF, r (.rol { f2 with ty := .n32 }) 36, r (.shl { f2 with ty := .n32 }) 32]) =
    [0x0F000000, 1, 0, 0xFF000000, 0xFFFFFFFF, 0x0000000F, 0] := by decide +kernel
theorem test_fshl : at_ (ran (withVs (one (encode (.fshl f3))) [(7, 0x12345678), (9, 0x9ABCDEF0), (11, 0x28)])) 2 = 0x3456789A := by decide +kernel
/-- R142: the table 0xAC takes A's bit where C's is 1, and B's bit where it is 0. -/
theorem test_bmix : at_ (ran (withVs (one (encode (.bmix { f3 with b := ⟨.v 9, 0xC, false⟩, c := ⟨.v 11, 0xA, false⟩ }))) [(7, 0xFFFF0000), (9, 0x0F0F0F0F), (11, 0xFF00FF00)])) 2 = 0xFF0F000F := by decide +kernel
theorem test_bfx : (let r := fun (m : BitVec 2) => at_ (ran (withVs (one (encode (.bfx { f3 with m := m }))) [(7, 0xF0000000), (9, 28), (11, 8)])) 2; (r 0, r 1)) = (0xF, 0xFFFFFFFF) := by decide +kernel
theorem test_bfi : at_ (ran (withVs (one (encode (.bfi f3))) [(7, 0xAAAAAAAA), (9, 0xFF), (11, 0x0804)])) 2 = 0xAAAAAFFA := by decide +kernel
theorem test_counts : (let r := fun (i : Instr) => at_ (ran (withVs (one (encode i)) [(7, 0x00F00000)])) 2
    [r (.popc { f2 with b := .zero }), r (.clz { f2 with b := .zero }), r (.ctz { f2 with b := .zero }), r (.brev { f2 with b := .zero })]) = [4, 8, 20, 0x00000F00] := by decide +kernel
theorem test_icmp : cr (ran (withV (withVs (one (encode (.icmp { f2 with d := .c 1, sub := 2 }))) [(9, 5)]) 7 fun k => if k < 8 then 0xFFFFFFFF else 9)) 1 = 0xFF := by decide +kernel
theorem test_sel : (let t := ran (withC (withVs (one (encode (.sel { f3 with c := ⟨.c 2, 0, false⟩ }))) [(7, 1), (9, 2)]) 2 0xF); (at_ t 2 3, at_ t 2 4)) = (1, 2) := by decide +kernel
theorem test_movi_s : sr (ran (one [0x4312800000000001])) 40 = 1 := by decide +kernel
theorem test_movhi : sr (ran (withS (one (encode (.movhi { stall := 0, d := .s 9, imm := 7 }))) 9 0x12345678)) 9 = 0x712345678 := by decide +kernel
theorem test_lperm : (let t := ran (withV (withV (one (encode (.lperm { f2 with ty := .n32 }))) 7 fun k => BitVec.ofNat 32 (100 + k)) 9 fun k => BitVec.ofNat 32 (63 - k)); (at_ t 2 0, at_ t 2 63)) = (163, 100) := by decide +kernel
theorem test_cvote : sr (ran (withV (one (encode (.cvote { f2 with d := .s 5, sub := 3, b := .zero }))) 7 fun k => if k < 4 then 1 else 0)) 5 = 0xF := by decide +kernel

/-- R158: 1 and 2^-75 squared give a sticky bit below 1, which RUP carries up and RZ drops. -/
theorem test_ffma : (let r := fun (m : BitVec 2) => at_ (ran (withVs (one (encode (.ffma .f32 false { f3 with m := m }))) [(7, 0x1A000000), (9, 0x1A000000), (11, 0x3F800000)])) 2; (r 0, r 1, r 2, r 3)) =
    (0x3F800000, 0x3F800000, 0x3F800001, 0x3F800000) := by decide +kernel
theorem test_fadd_flags : (let t := ran (withVs (one (encode (.fadd { f2 with ty := .f32 }))) [(7, 0x7F800000), (9, 0xFF800000)]); (at_ t 2, fl t &&& 2)) = (0x7FC00000, 2) := by decide +kernel
theorem test_fcmp : cr (ran (withV (withVs (one (encode (.fcmp { f2 with ty := .f32, d := .c 0, sub := 1 }))) [(9, 0x80000000)]) 7 fun k => if k = 5 then 0xBF800000 else 0)) 0 = 0x20 := by decide +kernel
theorem test_fmul_pair : at_ (ran (withVs (one (encode (.fmul { f2 with ty := .f16 }))) [(7, 0x3C004000), (9, 0x42004400)])) 2 = 0x42004800 := by decide +kernel
theorem test_functions : (let r := fun (i : Instr) (x : W32) => at_ (ran (withVs (one (encode i)) [(7, x)])) 2
    let o := { f2 with ty := .f32, b := .zero }
    [r (.fex2 o) 0x40400000, r (.flg2 o) 0x41000000, r (.fsin o) 0, r (.fcos o) 0]) = [0x41000000, 0x40400000, 0, 0x3F800000] := by decide +kernel
/-- A format slot of the launch. -/
def withSlot (s : State) (k : Nat) (w : W32) : State := s.onLaunch 1 fun l => { l with record := { l.record with fslot := l.record.fslot.set k w } }
/-- 2^24 + 1 rounds to even on its way to FP32 (R166). -/
theorem test_cvt : (let s := withVs (one (encode (.cvt { f2 with ty := .i32, b := .zero, fs := 1 }))) [(7, 0x01000001)]; (at_ (ran (withSlot s 1 1)) 2, fl (ran (withSlot s 1 1)))) = (0x4B800000, 0x20) := by decide +kernel
/-- R163's examples. -/
theorem test_fscale : (let r := fun (n : W32) => let t := ran (withVs (one (encode (.fscale { f2 with ty := .f32 }))) [(7, 0x53C00000), (9, n)]); (at_ t 2, fl t); (r 0xFFFFFF38, r 100)) = ((0, 0x30), (0x7F800000, 0x28)) := by decide +kernel
theorem test_frnd : (let r := fun (m : RmCode) => at_ (ran (withVs (one (encode (.frnd { f2 with ty := .f32, b := .zero, rm := m }))) [(7, 0xBF000000)])) 2; (r .rne, r .rdn, r .rna)) = (0x80000000, 0xBF800000, 0xBF800000) := by decide +kernel
theorem test_fexpn : (let r := fun (w : W32) => at_ (ran (withVs (one (encode (.fexpn { f2 with ty := .f32, b := .zero }))) [(7, w)])) 2; (r 1, r 0, r 0x7F800000)) = (0xFFFFFF6B, 0x80000000, 0x7FFFFFFF) := by decide +kernel
/-- R167's example. -/
theorem test_pack4 : (let t := ran (withSlot (withVs (one [0x7200C0800A0008E8]) [(8, 0x3F800000), (9, 0xC3FA0000), (10, 0x3DCCCCCD), (11, 0x7FC00000)]) 2 4); (at_ t 12, fl t)) = (0x7F1DFE38, 0x21) := by decide +kernel
/-- R170's example. -/
theorem test_qblk : (let t := ran (withSlot (withV (one (encode (.qblk { f2 with ty := .f32, b := .zero, fs := 4 }))) 7 fun k => [0x4079999A, 0xC0300000, 0x3ECCCCCD, 0x3DCCCCCD].getD k 0) 4 0x20012)
    (at_ t 2 0, at_ t 2 1, at_ t 2 30, at_ t 2 31, fl t)) = (0xD4, 0, 0, 0x81, 0x20) := by decide +kernel
theorem test_xpnd : (let t := ran (withSlot (withVs (one (encode (.xpnd { f2 with ty := .f32, b := .zero, fs := 3 }))) [(7, 0xC0003C00)]) 3 2); (at_ t 2, at_ t 3)) = (0x3F800000, 0xC0000000) := by decide +kernel

/-! Control. The machine maps the first GiB of context 0's space to itself. -/

def mapped (s : State) : State := { s with tlb := [{ ctx := 0, page := 0, size := 2 ^ 30, pa := 0, r := true, w := true, x := true }] }
def withBytes (s : State) (a n : Nat) (x : Nat) : State := { s with mem := memSetN s.mem a (bytesOfNat n x) }
def at8 (s : State) (a : Nat) : W64 := BitVec.ofNat 64 (natOfBytes (memGetN s.mem a 8))
/-- A party with a handler. -/
def handled (s : State) : State := s.onLaunch 1 fun l => { l with record := { l.record with handler := 0x8000 } }
/-- A cairn of a block of four words, with four live rows (R54). -/
def cairnWord : Nat := 0xFE00400800000000

theorem test_bra : ((ran (withBytes (mapped (one (encode (.bra { fcd with off := 64 })))) 0x10200 8 cairnWord)).party? 1).map (fun p => (p.pc, p.entry, p.pitch.isNone)) = some (0x10200, .block, true) := by decide +kernel
/-- R83: a target that is no cairn. -/
theorem test_bra_trap : ((ran (handled (mapped (one (encode (.bra { fcd with off := 64 })))))).party? 1).map (fun p => (p.pc, p.tstat, p.tinfo, p.hnd)) = some (0x8000, 2, 0x10200, true) := by decide +kernel
theorem test_callx : ((ran (withBytes (mapped (withS (one [0x0601000000000000]) 2 0x10200)) 0x10200 8 cairnWord)).party? 1).map (fun p => (p.pc, p.calls.length)) = some (0x10200, 1) := by decide +kernel
theorem test_brc : (let s := withBytes (mapped (one (encode (.brc { fcd with off := 64, cn := 1, bmode := .any })))) 0x10200 8 cairnWord
    (((ran s).party? 1).map (·.pc), ((ran (withC s 1 0x10)).party? 1).map (·.pc))) = (some 0x10010, some 0x10200) := by decide +kernel
/-- R403: the next word is the resume point of TRAP, and tstat has its word and code. -/
theorem test_trap : ((ran (handled (mapped (one [0x190000000000002A, 0x0100000000000000])))).party? 1).map (fun p => (p.tstat, p.tinfo, p.pc, p.frame.map (·.word), p.tmask)) = some (0x20, 0x2A, 0x8000, some 1, BitVec.allOnes 64) := by decide +kernel
theorem test_eret : (let t := ran (handled (mapped (one [0x190000000000002A, 0x0100000000000000])))
    ((happened (.eret fu) { t with issue := some 1, parties := t.parties.map fun p => { p with pitch := some { base := 0x8008, words := [0x1B00000000000000], awaits := [], after := 0x8018, last := true } } }).party? 1).map fun p => (p.pc, p.skip, p.hnd)) =
    some (0x10000, 1, false) := by decide +kernel
theorem test_exit : (ran (one [0x0800000000000000])).parties = [] := by decide +kernel
/-- R361: 500 ns from now. -/
theorem test_sleep : ((ran (one (encode (.sleep { fu with imm := 500 })))).party? 1).map (fun p => match p.wait with | .sleep d => decide (500 * 10 ^ 6 ≤ d) | _ => false) = some true := by decide +kernel
/-- R350, R351: the rope expects four arrivals, and the watchdog takes 500 units. -/
theorem test_rope_set : ((ran ((one [0x100000000301F404]).onForme 1 fun f => { f with ropes := List.replicate 4 { expect := 1 } })).forme? 1).map (fun f => (f.ropes.getD 3 { expect := 0 }).expect) = some 4 := by decide +kernel
theorem test_rope_sync_release : ((ran ((one (encode (.ropeSync fu))).onForme 1 fun f => { f with ropes := [{ expect := 1 }] })).party? 1).map (·.wait) = some .none := by decide +kernel
theorem test_rope_sync_wait : ((ran ((one (encode (.ropeSync fu))).onForme 1 fun f => { f with ropes := [{ expect := 2 }] })).party? 1).map (·.wait) = some (.rope 0 (some 0)) := by decide +kernel
theorem test_movs_em : ((ran (withS (one [0x1C0005C000000001]) 23 0xFF)).party? 1).map (·.em) = some 0xFF := by decide +kernel
/-- R43: the special register of fs3. -/
theorem test_movs_slot : sr (ran (withSlot (one (encode (.movs { fu with d := .s 9, idx := 0x13 }))) 3 0x20012)) 9 = 0x20012 := by decide +kernel
theorem test_signal : at8 (ran (withS (withS (withBytes (mapped (one [0x1500005800000003])) 0x1000 8 5) 1 0x1000) 24 7)) 0x1000 = 12 := by decide +kernel
theorem test_waitc : (let r := fun (n : W64) => ((ran (withS (withS (withBytes (mapped (one [0x1600005902000003])) 0x1000 8 5) 1 0x1000) 25 n)).party? 1).map fun p => decide (p.wait = .none); (r 5, r 6)) = (some true, some false) := by decide +kernel

/-! Memory. Window 5 stands on a frame of 64 KiB. -/

def win5 : Window := { isOpen := true, vb := 0x200000, len := 0x10000, frame := 0x200000, flim := 0x10000, fvalid := true, perm := 7 }
def windowed (s : State) : State := s.onParty 1 fun p => { p with w := p.w.set 5 win5 }
def byLane (s : State) (n : BitVec 8) : State := withV s n fun k => BitVec.ofNat 32 (4 * k)
/-- What the first outstanding result brings to a lane. -/
def lands (s : State) (k : Nat) : Option W32 := s.longs.head?.bind fun x => x.dests.head?.bind fun d => match d with | .lanes _ _ _ r => some (rowGet r k) | _ => none

theorem test_st : (let t := ran (withV (byLane (windowed (one (encode (.st fm)))) 3) 4 fun k => BitVec.ofNat 32 (0x11111100 + k)); (at8 t 0x200000, at8 t 0x2000FC)) = (0x1111110111111100, 0x1111113F) := by decide +kernel
theorem test_ld : (let t := ran (withBytes (byLane (windowed (one (encode (.ld fm)))) 3) 0x200008 4 0xCAFEF00D); (lands t 2, lands t 3, t.longs.length)) = (some 0xCAFEF00D, some 0, 1) := by decide +kernel
/-- R78: X16 sign-extends. -/
theorem test_ldsc : (let s := byLane (one (encode (.ldsc { fm with sz := .x16, dat := .v 6 }))) 3
    lands (ran ((s.onLaunch 1 fun l => { l with record := { l.record with srows := 1 } }).onForme 1 fun f => { f with scratch := memSetN f.scratch 12 [0x34, 0x92] })) 3) = some 0xFFFF9234 := by decide +kernel
theorem test_stsc : ((ran (withVs (withV ((one (encode (.stsc { fm with sz := .z8 }))).onLaunch 1 fun l => { l with record := { l.record with srows := 1 } }) 3 fun k => BitVec.ofNat 32 k) [(4, 0x1FF)])).forme? 1).map
    (fun f => (memGet f.scratch 0, memGet f.scratch 63, memGet f.scratch 64)) = some (0xFF, 0xFF, 0) := by decide +kernel
theorem test_atom : (let t := ran (withVs (withBytes (byLane (windowed (one (encode (.atom { fa with aop := .max, sgn := true })))) 3) 0x200008 8 0xFFFFFFFE00000007) [(4, 0xFFFFFFFF)])
    (at8 t 0x200008, lands t 2, lands t 3)) = (0xFFFFFFFF00000007, some 7, some 0xFFFFFFFE) := by decide +kernel
theorem test_window_bound : ((ran (handled (mapped (withVs (windowed (one (encode (.ld fm)))) [(3, 0xFFFE)])))).party? 1).map (fun p => p.tstat &&& 0xFF) = some 9 := by decide +kernel
/-- R263: a misaligned word. -/
theorem test_misaligned : ((ran (handled (mapped (withVs (windowed (one (encode (.ld fm)))) [(3, 2)])))).party? 1).map (fun p => (p.tstat &&& 0xFF, p.tinfo)) = some (0x0A, 0x200002) := by decide +kernel
theorem test_wclose : ((ran (windowed (one (encode (.wclose { fu with idx := 5 }))))).party? 1).map (fun p => ((p.w.getD 5 {}).isOpen)) = some false := by decide +kernel
theorem test_fence : ((ran (one (encode (.fence { fu with imm := 0x7B })))).party? 1).map (fun p => p.pitch.isNone) = some true := by decide +kernel
theorem test_ldk : ((ran (withS (withBytes (windowed (one (encode (.ldk { fm with dat := .s 10, so := ⟨.s 9, 0, false⟩, sz := .x8 }))) ) 0x200010 1 0x80) 9 0x10)).longs.map (·.dests)) = [[.sreg 10 0xFFFFFFFFFFFFFF80]] := by decide +kernel

/-! Functions that single steps call, on the spec's own examples. -/

/-- R133, worked by hand. -/
theorem test_coin_keyed : coinKeyed 0x123456789ABCDEF0 5 6 7 8 = 0xE4FD8FB3 := by decide +kernel
/-- R179's example of a sheet header. -/
theorem test_sheet_check : sheetCheck ((memGetN (memSetN (memSetN (memSetN (memSetN (memSetN [] 0 (bytesOfNat 8 0x0000020000100000)) 0x18 (bytesOfNat 4 0x00780030)) 0x1C (bytesOfNat 4 256)) 0x24 [2, 1]) 0x28 (bytesOfNat 4 0)) 0 64)) = 0x8025F5B9 := by
  decide +kernel
/-- R192: two groups of 32 products of 1.0, from +0. -/
theorem test_press_group : (let q := List.replicate 32 (valOf .fp32 0x3F800000); (pressGroup 0 q false).1) = 0x42000000 ∧ (let q := List.replicate 32 (valOf .fp32 0x3F800000); (pressGroup 0x42000000 q false).1) = 0x42800000 := by decide +kernel
/-- The example of R320's canonical and R321's routed folds. -/
theorem test_folds : (let f := combine 1 .f32 .rne; let e := fun (n : Nat) => bytesOfNat 4 n
    let c := fun (r n : Nat) => ({ rank := r, lane := 0, off := 0, elem := e n } : Contribution)
    (((foldChain (e 0) [c 2 0x3F800000, c 0 0x3F800000, c 1 0x4B800000]).eval f (fun _ _ => 0) 0).1, f (f (f (e 0) (e 0x3F800000) 0) (e 0x3F800000) 0) (e 0x4B800000) 0)) = (bytesOfNat 4 0x4B800000, bytesOfNat 4 0x4B800001) := by decide +kernel
/-- R288's example, in both formats. -/
theorem test_rotate_pair : rotatePair .fp32 1 0x39000000 0x3F800000 0x41000000 = (0x3F7FC000, 0x41000080, 0) ∧ rotatePair .fp16 1 0x39000000 0x3C00 0x4000 = (0x3C00, 0x4000, 0x20) := by decide +kernel

/-! Draws and tangents. -/

theorem test_draw : (let t := ran (withVs (withV (one (encode (.draw { f2 with d := .v 12, ty := .f32 }))) 7 fun k => if k = 3 then 0xFF800000 else 0x40400000) [(9, 0x3F000000)])
    (at_ t 12 1, at_ t 13 1, at_ t 14 1, at_ t 12 3, at_ t 13 3, at_ t 14 3)) = (0x3FC00000, 0x3F800000, 1, 0xFF800000, 0, 0xFFFFFFFF) := by decide +kernel
/-- The example of R218: a draw across four lanes with a supplied stream. -/
def drawAcross : State :=
  let s := withV (withS (mapped (one (encode (.drawa { f2 with d := .v 12, a := ⟨.v 7, 0, false⟩, b := ⟨.s 2, 0, false⟩, ty := .f32, sub := 1 })))) 2 0x3F800000) 7 fun k => [0x3F800000, 0x40400000, 0x40000000, 0xFF800000].getD k 0
  ((withBytes (withBytes s 0x3000 4 0x80000000) 0x3080 4 0x20000000).onLaunch 1 fun l => { l with record := { l.record with coinSrc := 0x3000, coinLen := 100 } }).onParty 1 fun p => { p with em := 0xF }
theorem test_drawa : (let t := ran drawAcross; (at_ t 12 2, at_ t 13 2, at_ t 14 2, at_ t 15 2, (t.home? 1 0).map fun h => h.seqOf 0)) = (0x40400000, 0x3FE00000, 2, 0, some 63) := by decide +kernel
theorem test_coin_counts : ((ran (one (encode (.coin { f2 with a := .zero, b := .zero, ty := .n32 })))).home? 1 0).map (fun h => (h.seqOf 0, h.seqOf 63)) = some (1, 1) := by decide +kernel
/-- Merging with a zero mass gives the other operand (R207). -/
theorem test_dmerge : (let t := ran (withVs (one [0x950080000400C000]) [(0, 0x3F800000), (1, 0x3F800000), (2, 5), (3, 0), (4, 0xFF800000), (5, 0), (6, 0xFFFFFFFF), (7, 0), (12, 0)]); (at_ t 8, at_ t 9, at_ t 10)) = (0x3F800000, 0x3F800000, 5) := by decide +kernel
/-- R223: the product rule, d(xy) = x dy + y dx, with x = 3, y = 5, dx = 1 and dy = 2. -/
theorem test_tangent_product : (let s := withTan (withTan (withVs (one [0xF000000000000000, 0x5200207009000800]) [(7, 0x40400000), (9, 0x40A00000)]) 7 1 fun _ => 0x3F800000) 9 1 fun _ => 0x40000000
    (at_ (ran s) 2, tan_ (ran s) 2 1)) = (0x41700000, 0x41300000) := by decide +kernel
theorem test_tset_tget : (let t := ran (withVs (one (encode (.tset { f2 with b := .zero, ty := .n32, sub := 2 }))) [(2, 1), (7, 9)]); (tan_ t 2 2, tan_ t 2 1, at_ t 2)) = (9, 0, 1) := by decide +kernel

/-! Press, batches and engines. -/

def tiled (s : State) : State := s.onLaunch 1 fun l => { l with record := { l.record with gtiles := 4 } }
theorem test_gwrite : (let t := ran ((withS (withVs (tiled (one (encode (.gwrite { f2 with d := .v 0, ty := .f32, sub := 1, a := ⟨.s 3, 0, false⟩, b := ⟨.v 9, 0, false⟩ })))) [(9, 0x40000000)]) 3 0x0205).onParty 1 fun p => { p with em := 1 })
    (t.galley 1).map (·.2)) = [0x40000000] := by decide +kernel
theorem test_gclr_issue : ((ran (tiled (one (encode (.gclr { fp with g := 3 }))))).ops.map fun o => (o.work, o.queue, o.phase)) = [(.clear 3 0, 0, .queued)] := by decide +kernel
theorem test_batch : (let t := ran (one [0x8910D00000000000]); (sr t 13, (t.home? 1 0).map (·.bn))) = (1, some 1) := by decide +kernel
/-- R289: a FILL of 16 bytes is queued, and its reply names it. -/
theorem test_fill_issue : (let t := ran (withS (withS (withBytes (withBytes (mapped (one (encode (.fill { fx with rply := some 9, xa := 3, xb := 4 })))) 0x1000 8 0x2000) 0x1008 8 16) 3 0x1000) 4 0x1122334455667788)
    (t.ops.map (·.work), t.longs.length)) = ([.fill 0x2000 16 0x1122334455667788], 1) := by decide +kernel
theorem test_fill_effect : (let t := ran (withS (withS (withBytes (withBytes (mapped (one (encode (.fill { fx with xa := 3, xb := 4 })))) 0x1000 8 0x2003) 0x1008 8 8) 3 0x1000) 4 0x1122334455667788)
    match t.ops with | o :: _ => at8 (t.opStep o 0).1 0x2003 | [] => 0) = 0x6677881122334455 := by decide +kernel

/-! Events. -/

/-- The device after a start-up that succeeds needs Yunaist's signature to verify, which nothing decides here; READY is set by hand. -/
def ready : State := { State.reset with dvsec := { State.reset.dvsec with ready := true } }
def commanded (l : List W64) : State := { ready with mailbox := { ready.mailbox with args := l ++ List.replicate (8 - l.length) 0 } }
theorem test_mailbox_unready : (happened .killq State.reset).mailbox.result = 3 := by decide +kernel
theorem test_standset : (let t := happened .standset (commanded [2, 5]); ((t.part 2).sigma, t.mailbox.result, t.mailbox.done)) = (5, 0, true) := by decide +kernel
theorem test_standset_range : (happened .standset (commanded [2, 17])).mailbox.result = 1 := by decide +kernel
theorem test_clock_step : (happened (.thermalClockStep false) State.reset).clockMHz < 1800 := by decide +kernel
theorem test_standing : (let s : State := State.reset.onPart 3 fun x => { x with records := 4096, hits := 1000 }; ((happened (.standingUpdate 3) s).part 3).sigma) = 15 := by decide +kernel
theorem test_viral : (let t := happened .deviceViral State.reset; (t.dvsec.viral, t.out.length)) = (true, 8) := by decide +kernel
theorem test_db_unbound : happened (.db 5 0 7) State.reset = State.reset := by decide +kernel
theorem test_boundary_trap : (let s := handled (mapped ((one [0x0100000000000000]).onParty 1 fun p => { p with pitch := none, pending := [{ code := .ropeTimeout, tinfo := some 5 }, { code := .poison, tinfo := none }] }))
    ((happened (.boundaryTrap 1) s).party? 1).map fun p => (p.tstat &&& 0xFF, p.pc, p.pending.length)) = some (0x10, 0x8000, 1) := by decide +kernel
/-! For every statement, states and operands that meet its hypotheses. -/

/-- What the statements about a word ask of the issuing party: the word passes its checks, the party goes on with whole files, and its commitment has room
for 32 rows more. -/
def Meets (s : State) (a : Agent) (i : Instr) (perLane : Bool) : Prop :=
  Passes s a i perLane ∧ a.whole ∧ ∀ ws, (ws.map Write.size).sum ≤ 32 → a.overcommits (usesOf a.l.record i) ws = false

def meets (s : State) (i : Instr) (perLane : Bool) (more : Agent → Bool := fun _ => true) : Bool :=
  match s.agent with
  | .ok a => (!perLane || decide (a.p.active ≠ 0)) && !a.unset (usesOf a.l.record i) && (!a.l.record.chk || decide (s.tooEarly a (usesOf a.l.record i) = none)) &&
      !a.p.stopped && decide (a.p.s.length = 64) && decide (a.p.c.length = 7) && decide (a.h.footprint + 32 ≤ a.l.record.commitment) && more a
  | .error _ => false

theorem meets_agent {s : State} {i : Instr} {b : Bool} {more : Agent → Bool} (h : meets s i b more = true) : ∃ a, Meets s a i b ∧ more a = true := by
  unfold meets at h
  split at h
  · rename_i a ha
    simp only [Bool.and_eq_true, Bool.or_eq_true, Bool.not_eq_true', decide_eq_true_eq] at h
    obtain ⟨⟨⟨⟨⟨⟨⟨h1, h2⟩, h3⟩, h4⟩, h5⟩, h6⟩, h7⟩, h8⟩ := h
    refine ⟨a, ⟨⟨ha, ?_, h2, ?_⟩, ⟨h4, h5, h6⟩, fun ws hw => overcommits_room _ (by omega)⟩, h8⟩
    · intro hb; rcases h1 with h1 | h1
      · rw [h1] at hb; cases hb
      · exact h1
    · intro hc; rcases h3 with h3 | h3
      · rw [h3] at hc; cases hc
      · exact h3
  · cases h

/-- Each of these words, as the only word of a pitch of the party after reset, meets what its statement asks. -/
def AllMeet (l : List (Instr × Bool)) : Prop := ∀ x ∈ l, ∃ a, Meets (one (encode x.1)) a x.1 x.2

theorem all_meet {l : List (Instr × Bool)} (h : (l.all fun x => x.1.wf && meets (one (encode x.1)) x.1 x.2) = true) : AllMeet l := by
  intro x hx
  have h1 := List.all_eq_true.1 h x hx
  rw [Bool.and_eq_true] at h1
  obtain ⟨a, ha, -⟩ := meets_agent h1.2
  exact ⟨a, ha⟩

/-- The same, with a condition on the issuing party that can be decided. -/
def MeetsIf (s : State) (i : Instr) (b : Bool) (P : Agent → Prop) : Prop := ∃ a, Meets s a i b ∧ P a
theorem meets_if {s : State} {i : Instr} {b : Bool} {P : Agent → Prop} (d : DecidablePred P) (h : meets s i b (fun a => @decide (P a) (d a)) = true) : MeetsIf s i b P := by
  obtain ⟨a, ha, hp⟩ := meets_agent h
  exact ⟨a, ha, of_decide_eq_true hp⟩
theorem meets_each {l : List Instr} {b : Bool} {f : Instr → State} {P : Instr → Agent → Prop} (d : ∀ i, DecidablePred (P i))
    (h : (l.all fun i => meets (f i) i b fun a => @decide (P i a) (d i a)) = true) : ∀ i ∈ l, MeetsIf (f i) i b (P i) :=
  fun i hi => meets_if (d i) (List.all_eq_true.1 h i hi)

def w2 : V2 := { f2 with b := .zero }
def i64 : V2 := { f2 with d := .v 2, a := ⟨.v 6, 0, false⟩, b := ⟨.v 8, 0, false⟩, ty := .i64 }
def toS : V2 := { f2 with d := .s 5, a := ⟨.s 7, 0, false⟩, b := ⟨.s 9, 0, false⟩ }

theorem witness_IntegerArithmetic : AllMeet [(.iadd f2, true), (.iadd toS, false), (.iadd { f2 with d := .t 1 }, true), (.isub i64, true), (.imul f2, true), (.imulh i64, true), (.ineg w2, true), (.iabs w2, true),
    (.imin f2, true), (.imax f2, true), (.lea { i64 with b := ⟨.v 8, 0, false⟩, sub := 7 }, true), (.imad f3, true), (.imad { f3 with m := 1 }, true), (.imadw { f3 with c := ⟨.v 10, 0, false⟩ }, true), (.iclamp f3, true)] :=
  all_meet (by decide +kernel)
theorem witness_LogicAndShifts : AllMeet [(.and { f2 with ty := .n32 }, true), (.or { f2 with ty := .n32 }, true), (.xor { i64 with ty := .n64 }, true), (.andn { f2 with ty := .n32 }, true), (.orn { f2 with ty := .n32 }, true),
    (.not { w2 with ty := .n32 }, true), (.shl f2, true), (.shr { f2 with ty := .n32 }, true), (.sar f2, true), (.rol { f2 with ty := .n32 }, true), (.rol { i64 with ty := .n64, b := ⟨.v 8, 0, false⟩ }, true), (.fshl f3, true), (.bmix f3, true)] :=
  all_meet (by decide +kernel)
theorem witness_BitFields : AllMeet [(.bfx f3, true), (.bfx { f3 with m := 1 }, true), (.bfi f3, true), (.popc { w2 with ty := .n32 }, true), (.clz { i64 with ty := .n64, b := .zero }, true), (.ctz { w2 with ty := .n32 }, true),
    (.brev { w2 with ty := .n32 }, true)] := all_meet (by decide +kernel)
theorem witness_ComparesAndVotes : AllMeet [(.icmp { f2 with d := .c 1, sub := 0 }, true), (.icmp { f2 with d := .c 1, sub := 5 }, true), (.sel f3, true), (.sel { f3 with m := 1, d := .v 2, a := ⟨.v 6, 0, false⟩, b := ⟨.v 8, 0, false⟩ }, true),
    (.clop { f2 with d := .c 1, a := ⟨.c 1, 0, false⟩, b := ⟨.c 2, 0, false⟩, sub := 0 }, true), (.clop { f2 with d := .c 1, a := ⟨.c 1, 0, false⟩, b := .zero, sub := 6 }, true), (.cvote { w2 with sub := 0 }, true),
    (.cvote { w2 with sub := 2 }, true), (.cvote { w2 with d := .s 5, sub := 3 }, true)] := all_meet (by decide +kernel)
theorem witness_Moves : AllMeet [(.mov w2, true), (.mov { toS with b := .zero }, false), (.movi { stall := 0, d := .s 4, imm := 1 }, false), (.movi { stall := 0, d := .v 4, imm := 1 }, true), (.movhi { stall := 0, d := .s 4, imm := 1 }, false),
    (.movx { w2 with ty := .n32 }, true), (.lperm { f2 with ty := .n32 }, true)] ∧
    ∃ a, Meets (one (encode (.movxw { f2 with d := .v 0, b := ⟨.v 9, 0, false⟩, ty := .n32 }))) a (.movxw { f2 with d := .v 0, b := ⟨.v 9, 0, false⟩, ty := .n32 }) true ∧
      !a.overcommits (usesOf a.l.record (.movxw { f2 with d := .v 0, b := ⟨.v 9, 0, false⟩, ty := .n32 })) ((one (encode (.movxw { f2 with d := .v 0, b := ⟨.v 9, 0, false⟩, ty := .n32 }))).movxwWrites a { f2 with d := .v 0, b := ⟨.v 9, 0, false⟩, ty := .n32 }) = true :=
  ⟨all_meet (by decide +kernel), meets_agent (by decide +kernel)⟩
theorem witness_SpecialRegisters : AllMeet ((([0x00, 0x01, 0x02, 0x03, 0x04, 0x06, 0x07, 0x08, 0x09, 0x0A, 0x0B, 0x10, 0x17, 0x20, 0x21, 0x22, 0x23, 0x24, 0x25] : List (BitVec 8)).map fun x => (.movs { fu with d := .s 9, idx := x }, false)) ++
    (([0x00, 0x01, 0x03, 0x04, 0x21] : List (BitVec 8)).map fun x => (.movs { fu with d := .v 0, ua := 9, idx := x, imm := 1 }, false)) ++ [(.movsw { fu with d := .v 3, idx := 5 }, true),
    (.ctrr { fu with d := .s 3, idx := 0 }, false), (.ctrr { fu with d := .s 3, idx := 2 }, false), (.ctrr { fu with d := .s 3, idx := 15 }, false), (.ctrr { fu with d := .s 3, idx := 0x14 }, false), (.ctrr { fu with d := .s 3, idx := 22 }, false)]) := all_meet (by decide +kernel)
theorem witness_SpecialRegisters_fields : ∀ i ∈ [Instr.movs { fu with d := .s 9, idx := 1 }, .movs { fu with d := .s 9, idx := 0x0A }, .ctrr { fu with d := .s 3, idx := 0x14 }],
    MeetsIf (one (encode i)) i false fun a => a.p.calls.length < 256 ∧ ((one (encode i)).siblings a.p.fid a.p.hp).length < 32 ∧ a.l.record.tnum < 8 ∧ a.f.core < 32 ∧ ((one (encode i)).ctx a.l.ctx).part.isSome = true :=
  meets_each (fun _ _ => inferInstance) (by decide +kernel)

def x2 : V2 := { f2 with ty := .f32, b := ⟨.v 9, 0, false⟩ }
def x1 : V2 := { x2 with b := .zero }
theorem witness_FloatArithmetic : AllMeet [(.fadd x2, true), (.fsub { x2 with ty := .f16 }, true), (.fmul { x2 with dual := some 3 }, true), (.fmul { x2 with d := .s 4, a := ⟨.s 6, 0, false⟩, b := ⟨.s 8, 0, false⟩ }, false), (.ffma .f32 false f3, true),
    (.ffma .b16 false { f3 with dual := some 0 }, true), (.fdot2 false false f3, true), (.fdot2 true false f3, true), (.fdot4 false false f3, true), (.fdot4 true false f3, true)] := all_meet (by decide +kernel)
theorem witness_FloatOther : AllMeet [(.fmin x2, true), (.fmax { x2 with ty := .b16 }, true), (.fcmp { x2 with d := .c 0, sub := 0 }, true), (.fcmp { x2 with d := .c 0, sub := 13 }, true), (.fclass x1, true), (.frnd x1, true), (.fscale x2, true),
    (.fexpn x1, true)] := all_meet (by decide +kernel)
theorem witness_FloatFunctions : AllMeet [(.frcps x1, true), (.frsqs x1, true), (.fex2 x1, true), (.flg2 x1, true), (.fsin { x1 with dual := some 1 }, true), (.fcos x1, true)] := all_meet (by decide +kernel)
theorem witness_TangentArithmetic : AllMeet [(.fadd { x2 with dual := some 0 }, true), (.fsub { x2 with dual := some 3 }, true), (.fmul { x2 with ty := .f16, dual := some 1 }, true), (.ffma .f32 false { f3 with dual := some 2 }, true),
    (.frcps { x1 with dual := some 0 }, true), (.frsqs { x1 with dual := some 0 }, true), (.fex2 { x1 with dual := some 0 }, true), (.flg2 { x1 with dual := some 0 }, true), (.fsin { x1 with dual := some 0 }, true),
    (.fcos { x1 with dual := some 0 }, true), (.fmin { x2 with dual := some 0 }, true), (.fmax { x2 with dual := some 0 }, true), (.frnd { x1 with dual := some 0 }, true), (.fscale { x2 with dual := some 0 }, true),
    (.fdot2 false false { f3 with dual := some 0 }, true), (.fdot4 true false { f3 with dual := some 0 }, true)] := all_meet (by decide +kernel)

/-- Conversions with the format word of their slot. -/
def converting : List (Instr × W32) := [(.cvt { x1 with fs := 1, ty := .i64, a := ⟨.v 6, 0, false⟩ }, 1), (.cvt { x1 with fs := 1, ty := .f16, sub := 1 }, 0x12), (.pack2 { x2 with fs := 1 }, 2), (.pack2 { x2 with fs := 1, dual := some 0 }, 3),
  (.cvt { x1 with fs := 1, dual := some 0 }, 2), (.pack4 { x2 with fs := 1, dual := some 0, a := ⟨.v 6, 0, false⟩, b := ⟨.v 8, 0, false⟩ }, 4), (.xpnd { x1 with fs := 1, d := .v 12, dual := some 0 }, 2),
  (.pack4 { x2 with fs := 1, a := ⟨.v 6, 0, false⟩, b := ⟨.v 8, 0, false⟩ }, 4), (.xpnd { x1 with fs := 1, d := .v 12 }, 2), (.xpnd { x1 with fs := 1, d := .v 12 }, 6), (.qblk { x1 with fs := 1 }, 0x20012), (.dqblk { x1 with fs := 1 }, 0x20012)]
def quantS : V2 := { x1 with fs := 1, d := .s 4, a := ⟨.s 6, 0, false⟩ }
theorem witness_Conversions : (∀ x ∈ converting, MeetsIf (withSlot (one (encode x.1)) 1 x.2) x.1 true fun a => (slotFmt (a.l.record.slot 1)).isSome = true) ∧
    MeetsIf (withSlot (one (encode (.qblk quantS))) 1 0x20012) (.qblk quantS) false (fun a => slotFmt (a.l.record.slot 1) = some (.bq 4)) ∧
    MeetsIf (withSlot (one (encode (.dqblk quantS))) 1 0x20012) (.dqblk quantS) false (fun a => slotFmt (a.l.record.slot 1) = some (.bq 4)) := by
  refine ⟨fun x hx => ?_, meets_if (fun _ => inferInstance) (by decide +kernel), meets_if (fun _ => inferInstance) (by decide +kernel)⟩
  have h : converting.all (fun x => meets (withSlot (one (encode x.1)) 1 x.2) x.1 true fun a => decide ((slotFmt (a.l.record.slot 1)).isSome = true)) = true := by decide +kernel
  exact meets_if (fun _ => inferInstance) (List.all_eq_true.1 h x hx)

/-! Transfers: a cairn stands at 0x10200. -/

def cairned (s : State) : State := withBytes (withBytes (mapped s) 0x10200 8 cairnWord) 0x10010 8 cairnWord
def foundCairn (s : State) (a : Agent) (va : Nat) : Bool := va % 8 = 0 && (match s.fetchWord a.p a.f.core a.l va with | .ok w => isCairn w | .error _ => false)
theorem cairn_found {s : State} {a : Agent} {va : Nat} (h : foundCairn s a va = true) : s.cairnAt a va := by
  unfold foundCairn at h
  rw [Bool.and_eq_true, decide_eq_true_eq] at h
  refine ⟨h.1, ?_⟩
  revert h
  split
  · rename_i w hw; exact fun h => ⟨w, hw, h.2⟩
  · exact fun h => absurd h.2 (by decide)

def toCairn (i : Instr) : State := withS (cairned (one (encode i))) 2 0x10200
theorem witness_Transfers : ∀ i ∈ [Instr.bra { fcd with off := 64 }, .brx { stall := 0, ua := 2 }, .call { fcd with off := 64 }, .callx { stall := 0, ua := 2 }],
    ∃ a, Meets (toCairn i) a i false ∧ a.ends i ∧ a.p.calls.length < 255 ∧ (toCairn i).cairnAt a (((a.c.base + 8 * a.c.idx : Nat) + 8 * (64 : BitVec 45).toInt) % 2 ^ 64).toNat ∧ (toCairn i).cairnAt a ((toCairn i).sVal a 2 0).toNat := by
  intro i hi
  have h : [Instr.bra { fcd with off := 64 }, .brx { stall := 0, ua := 2 }, .call { fcd with off := 64 }, .callx { stall := 0, ua := 2 }].all (fun i => meets (toCairn i) i false fun a =>
      decide (a.p.stopped = false ∧ a.c.idx + wordsTaken i = a.c.words.length) && decide (a.p.calls.length < 255) && foundCairn (toCairn i) a (((a.c.base + 8 * a.c.idx : Nat) + 8 * (64 : BitVec 45).toInt) % 2 ^ 64).toNat &&
        foundCairn (toCairn i) a ((toCairn i).sVal a 2 0).toNat) = true := by decide +kernel
  obtain ⟨a, ha, hb⟩ := meets_agent (List.all_eq_true.1 h i hi)
  simp only [Bool.and_eq_true, decide_eq_true_eq] at hb
  exact ⟨a, ha, hb.1.1.1, hb.1.1.2, cairn_found hb.1.2, cairn_found hb.2⟩
theorem witness_Transfers_ret : let s := (cairned (one (encode (.ret fu)))).onParty 1 fun p => { p with calls := [0x10200] }
    ∃ a, Meets s a (.ret fu) false ∧ a.ends (.ret fu) ∧ a.p.calls = [0x10200] ∧ s.cairnAt a 0x10200 := by
  obtain ⟨a, ha, hb⟩ := meets_agent (s := (cairned (one (encode (.ret fu)))).onParty 1 fun p => { p with calls := [0x10200] }) (i := .ret fu) (b := false)
    (more := fun a => decide (a.p.stopped = false ∧ a.c.idx + wordsTaken (.ret fu) = a.c.words.length) && decide (a.p.calls = [0x10200]) && foundCairn ((cairned (one (encode (.ret fu)))).onParty 1 fun p => { p with calls := [0x10200] }) a 0x10200) (by decide +kernel)
  simp only [Bool.and_eq_true, decide_eq_true_eq] at hb
  exact ⟨a, ha, hb.1.1, hb.1.2, cairn_found hb.2⟩

def foundOther (s : State) (a : Agent) (va : Nat) : Bool := match s.fetchWord a.p a.f.core a.l va with | .ok w => !isCairn w | .error _ => false
theorem other_found {s : State} {a : Agent} {va : Nat} (h : foundOther s a va = true) : ∃ w, s.fetchWord a.p a.f.core a.l va = .ok w ∧ isCairn w = false := by
  revert h
  unfold foundOther
  split
  · rename_i w hw; exact fun h => ⟨w, hw, by simpa using h⟩
  · exact fun h => absurd h (by decide)

/-- Every transfer to 0x10200, or to the address that its register or the call stack names. -/
def transfers : List Instr := [.bra { fcd with off := 64 }, .brx { stall := 0, ua := 2 }, .call { fcd with off := 64 }, .callx { stall := 0, ua := 2 }, .ret fu]
def aimed (i : Instr) (va : Nat) : State := (withS (mapped (one (encode i))) 2 (BitVec.ofNat 64 va)).onParty 1 fun p => { p with calls := if i = .ret fu then [va] else [] }
def barred (i : Instr) (va : Nat) : State := { aimed i va with tlb := [{ ctx := 0, page := 0, size := 2 ^ 30, pa := 0, r := true, w := true, x := false }] }
def seeing (s : State) (i : Instr) (a : Agent) : State := match i with | .brx x | .callx x => s.branched a.p [.s x.ua] | _ => s
/-- A target off a multiple of 8, one that is no cairn, one whose translation is refused, and a full call stack. -/
theorem witness_TransferTraps : (∀ i ∈ transfers.drop 1, i ≠ .call { fcd with off := 64 } → MeetsIf (aimed i 0x10204) i false fun a => ((aimed i 0x10204).sVal a 2 0).toNat % 8 ≠ 0 ∧ a.p.calls.length < 255) ∧
    (∀ i ∈ transfers, MeetsIf (aimed i 0x10200) i false fun a => a.p.calls.length < 255 ∧ ∃ w, (seeing (aimed i 0x10200) i a).fetchWord a.p a.f.core a.l 0x10200 = .ok w ∧ isCairn w = false) ∧
    (∀ i ∈ transfers, MeetsIf (barred i 0x10200) i false fun a => (seeing (barred i 0x10200) i a).translateFor a.l.space a.p.park 0x10200 .x = .refused) ∧
    ∀ i ∈ [Instr.call { fcd with off := 64 }, .callx { stall := 0, ua := 2 }], MeetsIf ((aimed i 0x10200).onParty 1 fun p => { p with calls := List.replicate 255 0 }) i false fun a => 255 ≤ a.p.calls.length := by
  refine ⟨fun i hi _ => meets_each (l := transfers.drop 1) (f := fun i => aimed i 0x10204) (P := fun i a => ((aimed i 0x10204).sVal a 2 0).toNat % 8 ≠ 0 ∧ a.p.calls.length < 255) (fun _ _ => inferInstance) (by decide +kernel) i hi,
    fun i hi => ?_, meets_each (fun _ _ => inferInstance) (by decide +kernel), meets_each (fun _ _ => inferInstance) (by decide +kernel)⟩
  have h : transfers.all (fun i => meets (aimed i 0x10200) i false fun a => decide (a.p.calls.length < 255) && foundOther (seeing (aimed i 0x10200) i a) a 0x10200) = true := by decide +kernel
  obtain ⟨a, ha, hb⟩ := meets_agent (List.all_eq_true.1 h i hi)
  rw [Bool.and_eq_true, decide_eq_true_eq] at hb
  exact ⟨a, ha, hb.1, other_found hb.2⟩

/-! Branches: lanes 0 to 7 have the condition in c1. -/

def fork (m : BMode) (n : Bool) : Instr := .brc { fcd with off := 64, cn := 1, bmode := m, neg := n }
/-- A quota of every core of both dies for partition 0. -/
def ample : Quota := { cores := 0xFFFF, pslot := 32, rows := 4096, srows := 64, gtiles := 8, ropes := 64, ringBytes := 2 ^ 16, ringQuota := 2 ^ 16, ring := 2 ^ 28, save := 2 ^ 29, saveBytes := 2 ^ 26 }
def quotad (s : State) : State := s.onPart 0 fun x => { x with quota0 := ample, quota1 := ample, set := true }
def forked (m : BMode) (x : Mask) : State := withC (quotad (cairned (one (encode (fork m false))))) 1 x
/-- A home party of 16 parties, so that a branch must be deferred (R22). -/
def crowded (s : State) : State := { s with parties := s.parties ++ (upFrom 2 15).filterMap fun k => s.parties.head?.map fun p => { p with pid := k, slot := k, lanes := 0, em := 0, pitch := none, wait := .sleep (10 ^ 18) } }
/-- The lanes in which the branch is taken. -/
def takes (s : State) (a : Agent) (o : CD) : Mask := maskOf fun k => a.p.active.getLsbD k && (decide (s.op32 a ⟨.c o.cn, 0, false⟩ 0 k ≠ 0) != o.neg)
def forkOf (m : BMode) : CD := { fcd with off := 64, cn := 1, bmode := m }

theorem witness_Branch (n : Option Nat) : n = some 1 ∨ n = none →
    ∃ a, let s := if n.isSome then forked .lanes 0xFF else crowded (forked .lanes 0xFF)
      Meets s a (.brc (forkOf .lanes)) false ∧ a.ends (.brc (forkOf .lanes)) ∧ takes s a (forkOf .lanes) = 0xFF ∧ a.p.active = BitVec.allOnes 64 ∧ a.c.rcv = none ∧ s.cairnAt a 0x10200 ∧ s.cairnAt a a.c.blockEnd ∧
      s.splitSlot a.p = n ∧ a.p.defer.length < 8 := by
  have h : [some 1, none].all (fun n => let s := if n.isSome then forked .lanes 0xFF else crowded (forked .lanes 0xFF)
    meets s (.brc (forkOf .lanes)) false fun a => decide (a.p.stopped = false ∧ a.c.idx + wordsTaken (.brc (forkOf .lanes)) = a.c.words.length) && decide (takes s a (forkOf .lanes) = 0xFF) && decide (a.p.active = BitVec.allOnes 64) &&
      decide (a.c.rcv = none) && foundCairn s a 0x10200 && foundCairn s a a.c.blockEnd && decide (s.splitSlot a.p = n) && decide (a.p.defer.length < 8)) = true := by decide +kernel
  intro hn
  obtain ⟨a, ha, hb⟩ := meets_agent (List.all_eq_true.1 h n (by simpa using hn))
  simp only [Bool.and_eq_true, decide_eq_true_eq] at hb
  obtain ⟨⟨⟨⟨⟨⟨⟨h1, h2⟩, h3⟩, h4⟩, h5⟩, h6⟩, h7⟩, h8⟩ := hb
  exact ⟨a, ha, h1, h2, h3, h4, cairn_found h5, cairn_found h6, h7, h8⟩
def deferred (k : Option HalfEnd) (r : Option Resume := none) : Deferral := { other := 0x10010, entry := .inside, l1 := 1, l2 := 2, rcv := none, depth := 0, first := k, resume := r }
def deferring (s : State) (l : List Deferral) : State := s.onParty 1 fun p => { p with em := 3, defer := l }
theorem witness_Branch_full : let s := deferring (crowded (forked .lanes 1)) (List.replicate 8 (deferred none))
    ∃ a, Meets s a (.brc (forkOf .lanes)) false ∧ a.ends (.brc (forkOf .lanes)) ∧ takes s a (forkOf .lanes) = 1 ∧ a.p.active = 3 ∧ a.c.rcv = none ∧ s.cairnAt a 0x10200 ∧ s.cairnAt a a.c.blockEnd ∧ s.splitSlot a.p = none ∧ 8 ≤ a.p.defer.length := by
  obtain ⟨a, ha, hb⟩ := meets_agent (s := deferring (crowded (forked .lanes 1)) (List.replicate 8 (deferred none))) (i := .brc (forkOf .lanes)) (b := false)
    (more := fun a => let s := deferring (crowded (forked .lanes 1)) (List.replicate 8 (deferred none)); decide (a.p.stopped = false ∧ a.c.idx + wordsTaken (.brc (forkOf .lanes)) = a.c.words.length) && decide (takes s a (forkOf .lanes) = 1) &&
      decide (a.p.active = 3) && decide (a.c.rcv = none) && foundCairn s a 0x10200 && foundCairn s a a.c.blockEnd && decide (s.splitSlot a.p = none) && decide (8 ≤ a.p.defer.length)) (by decide +kernel)
  simp only [Bool.and_eq_true, decide_eq_true_eq] at hb
  obtain ⟨⟨⟨⟨⟨⟨⟨h1, h2⟩, h3⟩, h4⟩, h5⟩, h6⟩, h7⟩, h8⟩ := hb
  exact ⟨a, ha, h1, h2, h3, h4, cairn_found h5, cairn_found h6, h7, h8⟩
/-- No lane takes the branch, all do, and some do under the modes that then act for all. -/
theorem witness_Branch_whole : ∀ x ∈ ([(.lanes, 0, 0), (.lanes, BitVec.allOnes 64, BitVec.allOnes 64), (.any, 1, 1), (.all, 1, 1)] : List (BMode × Mask × Mask)),
    ∃ a, Meets (forked x.1 x.2.1) a (.brc (forkOf x.1)) false ∧ a.ends (.brc (forkOf x.1)) ∧ takes (forked x.1 x.2.1) a (forkOf x.1) = x.2.2 ∧ a.p.active = BitVec.allOnes 64 := by
  have h : ([(.lanes, 0, 0), (.lanes, BitVec.allOnes 64, BitVec.allOnes 64), (.any, 1, 1), (.all, 1, 1)] : List (BMode × Mask × Mask)).all (fun x => meets (forked x.1 x.2.1) (.brc (forkOf x.1)) false fun a =>
    decide (a.p.stopped = false ∧ a.c.idx + wordsTaken (.brc (forkOf x.1)) = a.c.words.length) && decide (takes (forked x.1 x.2.1) a (forkOf x.1) = x.2.2) && decide (a.p.active = BitVec.allOnes 64)) = true := by decide +kernel
  intro x hx
  obtain ⟨a, ha, hb⟩ := meets_agent (List.all_eq_true.1 h x hx)
  simp only [Bool.and_eq_true, decide_eq_true_eq] at hb
  exact ⟨a, ha, hb.1.1, hb.1.2, hb.2⟩

/-! Waits and ropes. A second party of the home party stands beside the first where one is needed. -/

def ending (i : Instr) (a : Agent) : Prop := a.p.stopped = false ∧ a.c.idx + wordsTaken i = a.c.words.length
def beside (s : State) (w : Wait) : State := { s with parties := s.parties ++ s.parties.map fun p => { p with pid := 2, slot := 1, lanes := 0xFF, em := 0xFF, pitch := none, wait := w } }

theorem witness_Waiting : MeetsIf (one (encode (.nop fu))) (.nop fu) false (fun _ => True) ∧ MeetsIf (one (encode (.exit fu))) (.exit fu) false (fun a => a.ends (.exit fu) ∧ a.p.defer = []) ∧
    MeetsIf (one (encode (.ret fu))) (.ret fu) false (fun a => a.ends (.ret fu) ∧ a.p.calls = [] ∧ a.p.defer = []) ∧
    MeetsIf ((one (encode (.exit fu))).onParty 1 fun p => { p with em := 1, defer := [{ other := 0x10010, entry := .inside, l1 := 1, l2 := 2, rcv := none, depth := 0 }] }) (.exit fu) false
      (fun a => a.ends (.exit fu) ∧ (a.p.defer.head?.map (·.first)) = some none) ∧
    MeetsIf (one (encode (.fuse fu))) (.fuse fu) false (fun a => a.ends (.fuse fu) ∧ a.p.defer = [] ∧ (one (encode (.fuse fu))).others a.p = []) ∧
    MeetsIf (beside (one (encode (.fuse fu))) .none) (.fuse fu) false (fun a => a.ends (.fuse fu) ∧ a.p.defer = [] ∧ (((beside (one (encode (.fuse fu))) .none).others a.p).map (·.wait)) = [.none]) ∧
    MeetsIf (beside (one (encode (.fuse fu))) (.fuse 0x10000)) (.fuse fu) false (fun a => a.ends (.fuse fu) ∧ a.p.defer = [] ∧ a.c.base + 8 * a.c.idx = 0x10000 ∧
      (((beside (one (encode (.fuse fu))) (.fuse 0x10000)).others a.p).map (·.wait)) = [.fuse 0x10000]) ∧
    MeetsIf (beside (one (encode (.yield fu))) .none) (.yield fu) false (fun a => a.ends (.yield fu)) ∧ MeetsIf (one (encode (.sleep fu))) (.sleep fu) false (fun a => a.ends (.sleep fu)) ∧
    MeetsIf (one (encode (.sleep { fu with imm := 500 }))) (.sleep { fu with imm := 500 }) false (fun a => a.ends (.sleep { fu with imm := 500 })) ∧
    MeetsIf (one (encode (.isync fu))) (.isync fu) false (fun a => a.ends (.isync fu) ∧ ((one (encode (.isync fu))).iinvs.any fun x => x.pids.contains a.p.pid) = false) ∧
    MeetsIf { one (encode (.isync fu)) with iinvs := [{ id := 5, pids := [1], core := 0, scope := .frm, lines := [] }] } (.isync fu) false (fun a => a.ends (.isync fu)) := by
  refine ⟨?_, ?_, ?_, ?_, ?_, ?_, ?_, ?_, ?_, ?_, ?_, ?_⟩ <;> (try unfold Agent.ends) <;> exact meets_if (fun _ => inferInstance) (by decide +kernel)

/-- EXIT and FUSE inside a deferred branch: after its first half has ended in each way, and a FUSE that meets a first half's end elsewhere. -/
theorem witness_Waiting_deferred :
    (∀ k ∈ [none, some HalfEnd.exited, some (.reconv 0x10300), some (.fuse 0x10300)], MeetsIf (deferring (one (encode (.exit fu))) [deferred k (some { cairn := 0, pc := 0x10300, entry := .inside, word := 0 })]) (.exit fu) false fun a =>
      a.ends (.exit fu) ∧ (a.p.defer.map (·.first)) = [k] ∧ (∀ e, a.p.stack.head? = some e → e.point ≠ some 0x10300) ∧
      (deferring (one (encode (.exit fu))) [deferred k (some { cairn := 0, pc := 0x10300, entry := .inside, word := 0 })]).others a.p = []) ∧
    (∀ k ∈ [none, some (HalfEnd.fuse 0x10000)], MeetsIf (deferring (one (encode (.fuse fu))) [deferred k]) (.fuse fu) false fun a =>
      a.ends (.fuse fu) ∧ (a.p.defer.map (·.first)) = [k] ∧ a.c.base + 8 * a.c.idx = 0x10000 ∧ (deferring (one (encode (.fuse fu))) [deferred k]).others a.p = []) ∧
    (∀ k ∈ [some (HalfEnd.fuse 0x10300), some (.reconv 0x10300)], MeetsIf (deferring (crowded (one (encode (.fuse fu)))) [deferred k]) (.fuse fu) false fun a =>
      a.ends (.fuse fu) ∧ (a.p.defer.map (·.first)) = [k] ∧ (deferring (crowded (one (encode (.fuse fu)))) [deferred k]).splitSlot a.p = none) ∧
    (let s := beside (one [0]) (.turns [1]); s.party? 2 = s.parties[1]? ∧ (s.party? 2).map (·.wait) = some (.turns [1])) := by
  have stack (a : Agent) (h : a.p.stack = []) : ∀ e, a.p.stack.head? = some e → e.point ≠ some 0x10300 := by rw [h]; intro e he; cases he
  refine ⟨fun k hk => ?_, fun k hk => ?_, fun k hk => ?_, by decide +kernel⟩
  · have h : [none, some HalfEnd.exited, some (.reconv 0x10300), some (.fuse 0x10300)].all (fun k => let s := deferring (one (encode (.exit fu))) [deferred k (some { cairn := 0, pc := 0x10300, entry := .inside, word := 0 })]
      meets s (.exit fu) false fun a => decide ((a.p.stopped = false ∧ a.c.idx + wordsTaken (.exit fu) = a.c.words.length) ∧ (a.p.defer.map (·.first)) = [k] ∧ a.p.stack = [] ∧ s.others a.p = [])) = true := by decide +kernel
    obtain ⟨a, ha, hb⟩ := meets_agent (List.all_eq_true.1 h k hk)
    rw [decide_eq_true_eq] at hb
    exact ⟨a, ha, hb.1, hb.2.1, stack a hb.2.2.1, hb.2.2.2⟩
  · have h : [none, some (HalfEnd.fuse 0x10000)].all (fun k => let s := deferring (one (encode (.fuse fu))) [deferred k]
      meets s (.fuse fu) false fun a => decide ((a.p.stopped = false ∧ a.c.idx + wordsTaken (.fuse fu) = a.c.words.length) ∧ (a.p.defer.map (·.first)) = [k] ∧ a.c.base + 8 * a.c.idx = 0x10000 ∧ s.others a.p = [])) = true := by decide +kernel
    obtain ⟨a, ha, hb⟩ := meets_agent (List.all_eq_true.1 h k hk)
    rw [decide_eq_true_eq] at hb
    exact ⟨a, ha, hb⟩
  · have h : [some (HalfEnd.fuse 0x10300), some (.reconv 0x10300)].all (fun k => let s := deferring (crowded (one (encode (.fuse fu)))) [deferred k]
      meets s (.fuse fu) false fun a => decide ((a.p.stopped = false ∧ a.c.idx + wordsTaken (.fuse fu) = a.c.words.length) ∧ (a.p.defer.map (·.first)) = [k] ∧ s.splitSlot a.p = none)) = true := by decide +kernel
    obtain ⟨a, ha, hb⟩ := meets_agent (List.all_eq_true.1 h k hk)
    rw [decide_eq_true_eq] at hb
    exact ⟨a, ha, hb⟩

def roped (i : Instr) (r : Rope) : State := (one (encode i)).onForme 1 fun f => { f with ropes := [r] }
/-- Each word of a rope, arriving for its home party or not, short of EXPECT and at it. -/
theorem witness_Ropes : (∀ x ∈ ([(.ropeSet { fu with imm := 4 }, { expect := 1 }), (.ropeSet { fu with imm := 2 }, { expect := 4, cnt := 2 }), (.ropeArv fu, { expect := 2 }), (.ropeArv fu, { expect := 1 }), (.ropeSync fu, { expect := 2 }), (.ropeSync fu, { expect := 1 }),
      (.ropeWait fu, { expect := 2 }), (.ropeArv fu, { expect := 2, broken := true }), (.ropeWait fu, { expect := 2, broken := true }), (.ropeSync fu, { expect := 2, broken := true })] : List (Instr × Rope)),
      MeetsIf (roped x.1 x.2) x.1 false fun a => ending x.1 a ∧ a.p.wait = .none ∧ a.f.ropes[0]? = some x.2 ∧ a.p.arrSince.contains 0 = false ∧
        ((roped x.1 x.2).siblings a.p.fid a.p.hp).all (fun q => q.pid = a.p.pid || x.2.arrived.contains q.pid) = true) ∧
    (∀ i ∈ [Instr.ropeArv fu, .ropeSync fu], MeetsIf (beside (roped i { expect := 2 }) .none) i false fun a => ending i a ∧ a.p.wait = .none ∧ a.f.ropes[0]? = some { expect := 2 } ∧
      ((beside (roped i { expect := 2 }) .none).siblings a.p.fid a.p.hp).all (fun q => q.pid = a.p.pid) = false) := by
  have h1 : ([(.ropeSet { fu with imm := 4 }, { expect := 1 }), (.ropeSet { fu with imm := 2 }, { expect := 4, cnt := 2 }), (.ropeArv fu, { expect := 2 }), (.ropeArv fu, { expect := 1 }), (.ropeSync fu, { expect := 2 }), (.ropeSync fu, { expect := 1 }),
      (.ropeWait fu, { expect := 2 }), (.ropeArv fu, { expect := 2, broken := true }), (.ropeWait fu, { expect := 2, broken := true }), (.ropeSync fu, { expect := 2, broken := true })] : List (Instr × Rope)).all (fun x =>
      meets (roped x.1 x.2) x.1 false fun a => decide ((a.p.stopped = false ∧ a.c.idx + wordsTaken x.1 = a.c.words.length) ∧ a.p.wait = .none ∧ a.f.ropes[0]? = some x.2 ∧ a.p.arrSince.contains 0 = false ∧
        ((roped x.1 x.2).siblings a.p.fid a.p.hp).all (fun q => q.pid = a.p.pid || x.2.arrived.contains q.pid) = true)) = true := by decide +kernel
  have h2 : [Instr.ropeArv fu, .ropeSync fu].all (fun i => meets (beside (roped i { expect := 2 }) .none) i false fun a => decide ((a.p.stopped = false ∧ a.c.idx + wordsTaken i = a.c.words.length) ∧ a.p.wait = .none ∧ a.f.ropes[0]? = some { expect := 2 } ∧
      ((beside (roped i { expect := 2 }) .none).siblings a.p.fid a.p.hp).all (fun q => q.pid = a.p.pid) = false)) = true := by decide +kernel
  exact ⟨fun x hx => meets_if (fun _ => inferInstanceAs (Decidable ((_ ∧ _) ∧ _))) (List.all_eq_true.1 h1 x hx), fun i hi => meets_if (fun _ => inferInstanceAs (Decidable ((_ ∧ _) ∧ _))) (List.all_eq_true.1 h2 i hi)⟩

/-! Quiet states, plain places, and records in memory. -/

def quietNow (s : State) : Bool := decide (s.openOps = []) && (s.homes.all fun h => h.steps.all fun x => decide (x.toFold = [])) && decide (s.failing = []) && !s.dvsec.viral
theorem quiet_now {s : State} (h : quietNow s = true) : s.Quiet := by
  simp only [quietNow, Bool.and_eq_true, decide_eq_true_eq, Bool.not_eq_true', List.all_eq_true] at h
  exact ⟨h.1.1.1, h.1.1.2, h.1.2, h.2⟩
def plainNow (s : State) (l : Loc) (n : Nat) : Bool :=
  match l with
  | .pa a => !inFabric a && !s.isBulk a && !s.poisoned a n && s.moves.all (fun m => !m.gone) && (upFrom 0 n).all fun k => decide (s.bulkLine (a + k) = none) && decide (s.mirror (a + k) = none)
  | .spad _ _ => !s.locPoisoned l n
theorem plain_now {s : State} {l : Loc} {n : Nat} (h : plainNow s l n = true) : s.plainAt l n := by
  cases l with
  | pa a =>
    simp only [plainNow, Bool.and_eq_true, Bool.not_eq_true', List.all_eq_true, decide_eq_true_eq] at h
    exact ⟨h.1.1.1.1, h.1.1.1.2, h.1.1.2, h.1.2, fun k hk => h.2 k ((mem_upFrom _ _ _).2 ⟨Nat.zero_le _, by omega⟩)⟩
  | spad f o => simpa [State.plainAt, plainNow] using h
def canonicalNow (s : State) : Bool := Memory.wf s.mem && s.formes.all fun f => Memory.wf f.scratch && storeWf (0 : W32) f.galley
theorem canonical_now {s : State} (h : canonicalNow s = true) : s.Canonical := by
  simp only [canonicalNow, Bool.and_eq_true, List.all_eq_true] at h
  exact ⟨h.1, h.2⟩

/-- A counter at 0x1000 that holds 5, its address in s1, and s24 and s25 as given. -/
def counting (i : Instr) (x : W64) : State := withS (withS (withS (withBytes (mapped (one (encode i))) 0x1000 8 5) 1 0x1000) 24 x) 25 x
def sig (k : BitVec 8) : Instr := .signal { fu with ua := 1, ub := 24, idx := k }
def wtc (k : BitVec 8) : Instr := .waitc { fu with ua := 1, ub := 25, idx := k }
def onceAt (s : State) (a : Agent) (i : Instr) (va : Nat) (n : Need) (l : Loc) : Bool := match s.once a i va n with | .ok x => decide (x = l) | .error _ => false
theorem once_at {s : State} {a : Agent} {i : Instr} {va : Nat} {n : Need} {l : Loc} (h : onceAt s a i va n l = true) : s.once a i va n = .ok l := by
  revert h
  unfold onceAt
  split
  · rename_i x hx; exact fun h => by rw [hx, of_decide_eq_true h]
  · exact fun h => absurd h (by decide)

theorem witness_PhasesAndCounters : ∀ x ∈ ([(sig 0, .rw), (sig 2, .rw), (wtc 0, .r), (wtc 5, .r)] : List (Instr × Need)), ∃ a, Meets (counting x.1 7) a x.1 false ∧ a.ends x.1 ∧ (counting x.1 7).once a x.1 0x1000 x.2 = .ok (.pa 0x1000) ∧
    ((counting x.1 7).sVal a 1 0).toNat = 0x1000 ∧ (counting x.1 7).Quiet ∧ (counting x.1 7).plainAt (.pa 0x1000) 8 ∧ (counting x.1 7).Canonical := by
  have h : ([(sig 0, .rw), (sig 2, .rw), (wtc 0, .r), (wtc 5, .r)] : List (Instr × Need)).all (fun x => (meets (counting x.1 7) x.1 false fun a => decide (a.p.stopped = false ∧ a.c.idx + wordsTaken x.1 = a.c.words.length) &&
    onceAt (counting x.1 7) a x.1 0x1000 x.2 (.pa 0x1000) && decide (((counting x.1 7).sVal a 1 0).toNat = 0x1000)) && quietNow (counting x.1 7) && plainNow (counting x.1 7) (.pa 0x1000) 8 && canonicalNow (counting x.1 7)) = true := by decide +kernel
  intro x hx
  have h := List.all_eq_true.1 h x hx
  simp only [Bool.and_eq_true] at h
  obtain ⟨⟨⟨h1, h2⟩, h3⟩, h4⟩ := h
  obtain ⟨a, ha, hb⟩ := meets_agent h1
  simp only [Bool.and_eq_true, decide_eq_true_eq] at hb
  exact ⟨a, ha, hb.1.1, once_at hb.1.2, hb.2, quiet_now h2, plain_now h3, canonical_now h4⟩
/-- PHASE inside a job's graph and outside one. -/
theorem witness_PhasesAndCounters_phase : MeetsIf (one (encode (.phase fu))) (.phase fu) false (fun a => a.ends (.phase fu) ∧ (one (encode (.phase fu))).jobOf a.l = none) ∧
    (let s := { (one (encode (.phase fu))).onLaunch 1 (fun l => { l with gid := some 7 }) with graphs := [{ gid := 7, ctx := 0, block := {}, nodes := [], jid := some 8 }] }
     MeetsIf s (.phase fu) false (fun a => a.ends (.phase fu) ∧ (s.jobOf a.l).isSome = true)) := by
  refine ⟨?_, ?_⟩ <;> (try unfold Agent.ends) <;> exact meets_if (fun _ => inferInstance) (by decide +kernel)

/-- A launch record at `va` whose own fields are the least that R35 accepts, its block at 0x5000. -/
def recordAt (s : State) (va : Nat) : State := withBytes (withBytes (withBytes (withBytes (withBytes s (va + 0x10) 4 1) (va + 0x14) 4 1) (va + 0x18) 4 1) (va + 0x20) 8 (2 ^ 25 + 4 * 2 ^ 18 + 2 ^ 12)) (va + 0x80) 8 0x5000
def launching (k : BitVec 8) : Instr := .launch { fu with d := .s 6, ua := 7, idx := k }
def launchable (k : BitVec 8) : State := withS (recordAt (quotad (mapped (one (encode (launching k))))) 0x4000) 7 0x4000
theorem witness_CancelAndLaunch : ∀ k ∈ [(0 : BitVec 8), 1], ∃ a sc r sp, Meets (launchable k) a (launching k) true ∧ (launchable k).admitLaunch ((launchable k).partOf a.l.lid) (dieOf a.f.core) = some sp ∧ (launchable k).sceneOf a.p.fid = some sc ∧
    (launchable k).readRecord sc [] ((launchable k).sVal a 7 0).toNat = .ok r := by
  have h : [(0 : BitVec 8), 1].all (fun k => meets (launchable k) (launching k) true fun a => ((launchable k).admitLaunch ((launchable k).partOf a.l.lid) (dieOf a.f.core)).isSome &&
    match (launchable k).sceneOf a.p.fid with | some sc => (match (launchable k).readRecord sc [] ((launchable k).sVal a 7 0).toNat with | .ok _ => true | _ => false) | none => false) = true := by decide +kernel
  intro k hk
  obtain ⟨a, ha, hb⟩ := meets_agent (List.all_eq_true.1 h k hk)
  rw [Bool.and_eq_true] at hb
  obtain ⟨sp, hp⟩ := Option.isSome_iff_exists.1 hb.1
  have h2 := hb.2
  split at h2
  · rename_i sc hs
    split at h2
    · rename_i r hr; exact ⟨a, sc, r, sp, ha, hp, hs, hr⟩
    · cases h2
  · cases h2
/-- A cancel of another launch of the context, by the address of its block. -/
def cancelling : State := let s := withS (one (encode (.cancel { fu with d := .s 4, ua := 5 }))) 5 0x5000
  { s with launches := s.launches ++ [{ lid := 9, ctx := 0, record := {}, block := { addr := some 0x5000, total := 1 } }] }
theorem witness_CancelAndLaunch_cancel : MeetsIf cancelling (.cancel { fu with d := .s 4, ua := 5 }) false (fun a =>
    (((((cancelling.finishIinvs a.p.pid .dev).joinLaunch a.p).cancelBlock a.l.ctx (cancelling.sVal a 5 0).toNat).1.party? a.p.pid).any fun q => decide (q.stopped = false ∧ q.pitch = some a.c)) = true ∧
    (cancelling.launches.any fun l => l.ctx = a.l.ctx && l.block.addr = some 0x5000 && l.block.status = 0 && !l.cancel) = true) := meets_if (fun _ => inferInstance) (by decide +kernel)

def packet (k : Byte) (fields : List (Nat × Nat × Nat)) : List Byte := memGetN (fields.foldl (fun m x => memSetN m x.1 (bytesOfNat x.2.1 x.2.2)) (memSetN [] 0 [k])) 0 256
def withKey : Instr := .cancel { fu with d := .s 4, ua := 5, idx := 1 }
/-- Two packets of the launch's queue with key 7, and none. -/
def keyed : State := let s := withS (one (encode withKey)) 5 7
  { s.onLaunch 1 (fun l => { l with queue := some 3 }) with queues := [{ ctx := 0, slot := 3, packets := [{ idx := 0, bytes := packet 3 [(8, 8, 7)] }, { idx := 1, bytes := packet 5 [(8, 8, 7)] }] }] }
theorem witness_CancelAndLaunch_key : MeetsIf keyed withKey false (fun a => a.l.queue = some 3 ∧ keyed.sVal a 5 0 = 7 ∧
      let c := (keyed.finishIinvs a.p.pid .dev).joinLaunch a.p
      (c.queue? a.l.ctx 3).any (fun r => ((r.packets.filter fun p => p.key = 7).all fun p => decide ((p.state = .fetched ∨ p.state = .parsing) ∧ 2 ≤ p.kind ∧ p.kind ≤ 5)) && decide ((r.packets.filter fun p => p.key = 7) ≠ [])) = true ∧
      (c.launches.filter fun l => l.ctx = a.l.ctx && l.queue = some 3 && l.key = 7 && l.parent.isSome && l.block.status = 0 && !l.cancel) = [] ∧
      ((c.cancelKey a.l.ctx 3 7 none false true).1.party? a.p.pid).any (fun q => decide (q.stopped = false ∧ q.pitch = some a.c)) = true) ∧
    MeetsIf (one (encode withKey)) withKey false (fun a => a.l.queue = none ∧ a.p.stopped = false) :=
  ⟨meets_if (fun _ => inferInstance) (by decide +kernel), meets_if (fun _ => inferInstance) (by decide +kernel)⟩

/-- The log of the party's context can take a record now. -/
def logsNow (s : State) (p : Party) (l : Launch) : Bool := !(s.ctx (s.logCtx l.ctx)).part.isSome || (s.logClear (s.logCtx l.ctx) && (s.logRidx (s.logCtx l.ctx) p.park).isSome)
theorem logs_now {s : State} {p : Party} {l : Launch} (h : logsNow s p l = true) : s.logReads p l := by
  unfold logsNow at h
  intro hp
  rw [hp] at h
  simpa using h

/-- TRAP and BKPT in the middle of a pitch and at its end, and ERET with the frame as it was saved and with another target. -/
theorem witness_TrapsAndReturns : (∀ ws ∈ [[], [(0x0100000000000000 : W64)]], ∀ i ∈ [Instr.trap { fu with imm := 0x2A }, .bkpt { fu with imm := 1 }], MeetsIf (handled (mapped (one (encode i ++ ws)))) i false fun a => a.l.record.handler ≠ 0 ∧ a.p.hnd = false ∧
      a.c.words.length = 1 + ws.length ∧ logsNow (handled (mapped (one (encode i ++ ws)))) a.p a.l = true) ∧
    MeetsIf ((one (encode (.eret fu))).onParty 1 fun p => { p with hnd := true, frame := some { cairn := 0, pc := 0x10000, entry := .inside, word := 1 } }) (.eret fu) false (fun a => a.ends (.eret fu) ∧ a.p.tpcSet = false ∧ a.p.frame.isSome = true) ∧
    (let s := (cairned (one (encode (.eret fu)))).onParty 1 fun p => { p with hnd := true, tpcSet := true, tpc := 0x10200 }
     MeetsIf s (.eret fu) false fun a => a.ends (.eret fu) ∧ a.p.tpcSet = true ∧ s.cairnAt a a.p.tpc.toNat) := by
  refine ⟨fun ws hw i hi => ?_, ?_, ?_⟩
  · have h : [[], [(0x0100000000000000 : W64)]].all (fun ws => [Instr.trap { fu with imm := 0x2A }, .bkpt { fu with imm := 1 }].all fun i => meets (handled (mapped (one (encode i ++ ws)))) i false fun a => decide (a.l.record.handler ≠ 0 ∧ a.p.hnd = false ∧
      a.c.words.length = 1 + ws.length ∧ logsNow (handled (mapped (one (encode i ++ ws)))) a.p a.l = true)) = true := by decide +kernel
    exact meets_if (fun _ => inferInstance) (List.all_eq_true.1 (List.all_eq_true.1 h ws hw) i hi)
  · unfold Agent.ends; exact meets_if (fun _ => inferInstance) (by decide +kernel)
  · intro s
    obtain ⟨a, ha, hb⟩ := meets_agent (s := s) (i := .eret fu) (b := false) (more := fun a => decide (a.p.stopped = false ∧ a.c.idx + wordsTaken (.eret fu) = a.c.words.length) && decide (a.p.tpcSet = true) && foundCairn s a a.p.tpc.toNat) (by decide +kernel)
    simp only [Bool.and_eq_true, decide_eq_true_eq] at hb
    exact ⟨a, ha, hb.1.1, hb.1.2, cairn_found hb.2⟩

/-! Tangents, coins and draws. -/

theorem witness_TangentMoves : AllMeet [(.tget { f2 with ty := .n32, sub := 1, b := .zero }, true), (.tget { f2 with ty := .n32, sub := 4, b := .zero }, true), (.tset { f2 with ty := .n32, sub := 1, b := .zero }, true), (.tset { f2 with ty := .n32, d := .t 3, sub := 1, b := .zero }, true), (.tclr { f2 with ty := .n32, d := .t 3, sub := 5, a := .zero, b := .zero }, true),
    (.tset { f2 with ty := .n64, d := .v 4, a := ⟨.s 2, 0, false⟩, sub := 4, b := .zero }, true)] ∧
    ∀ m ∈ [(1 : BitVec 4), 15], MeetsIf (one (encode (.tclr { f2 with ty := .n32, sub := m, a := .zero, b := .zero }))) (.tclr { f2 with ty := .n32, sub := m, a := .zero, b := .zero }) true
      fun a => a.overcommits (usesOf a.l.record (.tclr { f2 with ty := .n32, sub := m, a := .zero, b := .zero })) (a.clearWrites { f2 with ty := .n32, sub := m, a := .zero, b := .zero }) = false := by
  refine ⟨all_meet (by decide +kernel), fun m hm => ?_⟩
  have h : [(1 : BitVec 4), 15].all (fun m => meets (one (encode (.tclr { f2 with ty := .n32, sub := m, a := .zero, b := .zero }))) (.tclr { f2 with ty := .n32, sub := m, a := .zero, b := .zero }) true
      fun a => decide (a.overcommits (usesOf a.l.record (.tclr { f2 with ty := .n32, sub := m, a := .zero, b := .zero })) (a.clearWrites { f2 with ty := .n32, sub := m, a := .zero, b := .zero }) = false)) = true := by decide +kernel
  exact meets_if (fun _ => inferInstance) (List.all_eq_true.1 h m hm)

def coinsOk (s : State) (a : Agent) (i : Instr) (at_ : List (Nat × W64)) : Bool := match s.coins a i at_ with | .ok _ => true | .error _ => false
theorem coins_ok {s : State} {a : Agent} {i : Instr} {l : List (Nat × W64)} (h : coinsOk s a i l = true) : ∃ ws, s.coins a i l = .ok ws := by
  revert h
  unfold coinsOk
  split
  · rename_i ws hw; exact fun _ => ⟨ws, hw⟩
  · exact fun h => absurd h (by decide)
def coin1 : Instr := .coin { f2 with a := .zero, b := .zero, ty := .n32 }
def coinr1 : Instr := .coinr { f2 with a := ⟨.v 6, 0, false⟩, b := .zero, ty := .n32 }
/-- A supplied stream of 100 coins at 0x3000. -/
def supplied (s : State) : State := (mapped s).onLaunch 1 fun l => { l with record := { l.record with coinSrc := 0x3000, coinLen := 100 } }

theorem witness_Coins : ∀ x ∈ [coin1, coinr1], ∃ a ws, Meets (one (encode x)) a x true ∧ a.l.record.coinSrc = 0 ∧ a.p.rivals = [] ∧ a.h.seq.length = 64 ∧
    (one (encode x)).coins a x ((maskLanes a.p.active).map fun l => (l, if x = coin1 then a.h.seqOf l else (one (encode x)).opVal a ⟨.v 6, 0, false⟩ 2 0 l)) = .ok ws := by
  have h : [coin1, coinr1].all (fun x => meets (one (encode x)) x true fun a => decide (a.l.record.coinSrc = 0) && decide (a.p.rivals = []) && decide (a.h.seq.length = 64) &&
    coinsOk (one (encode x)) a x ((maskLanes a.p.active).map fun l => (l, if x = coin1 then a.h.seqOf l else (one (encode x)).opVal a ⟨.v 6, 0, false⟩ 2 0 l))) = true := by decide +kernel
  intro x hx
  obtain ⟨a, ha, hb⟩ := meets_agent (List.all_eq_true.1 h x hx)
  simp only [Bool.and_eq_true, decide_eq_true_eq] at hb
  obtain ⟨ws, hw⟩ := coins_ok hb.2
  exact ⟨a, ws, ha, hb.1.1.1, hb.1.1.2, hb.1.2, hw⟩
theorem witness_Coins_supplied : MeetsIf (supplied (one (encode coin1))) coin1 true fun a => a.l.record.coinSrc ≠ 0 ∧ (99 : W64).toNat < a.l.record.coinLen ∧ (supplied (one (encode coin1))).translate a.l.space ((a.l.record.coinSrc + 4 * (99 : W64).toNat) % 2 ^ 64) .r = .hit 0x318C ∧
    (supplied (one (encode coin1))).lost ((supplied (one (encode coin1))).ctx a.l.ctx).tenant 0x318C = none ∧ (supplied (one (encode coin1))).poisoned 0x318C 4 = false ∧ (supplied (one (encode coin1))).past = [] := meets_if (fun _ => inferInstance) (by decide +kernel)
theorem witness_Coins_key : AllMeet [(.coink { fu with ua := 3, imm := 1 }, false), (.coink { fu with ub := 4, imm := 2 }, false), (.coink { fu with ua := 3, ub := 4, imm := 0x3FF }, false)] := all_meet (by decide +kernel)

theorem witness_DrawOperations : (val32 0x7FC00000).isNan = true ∧ (val32 0).isNan = false ∧ val32 0 ≠ .inf true ∧
    (floatResult .fp32 .rne [val32 0x3F000000, val32 0x40400000] ((val32 0x3F000000).mul (val32 0x40400000)) = ((0x3FC00000 : W32).toNat, 0) ∧ (val32 0x3F000000).isNan = false ∧ (val32 0x3F000000).isInf = false ∧ (val32 0x3FC00000).isNan = false ∧ val32 0x3FC00000 ≠ .inf true) ∧
    ({ m := 0x7FC00000, w := 0x3F800000, x := 1 } : Triple).kind = .nan ∧ ({ m := 0xFF800000, w := 0, x := 0xFFFFFFFF } : Triple).kind = .zero ∧ ({ m := 0x3F800000, w := 0x7F800000, x := 1 } : Triple).kind = .greedy ∧
    ({ m := 0x3F800000, w := 0x3F800000, x := 1 } : Triple).kind = .weighted := by decide +kernel

def drawing : Instr := .draw { f2 with d := .v 12, ty := .f32 }
def drawTriples : Instr := .drawa { f2 with d := .v 12, a := ⟨.v 4, 0, false⟩, b := .zero, ty := .f32, sub := 0 }
def drawLeaves : Instr := .drawa { f2 with d := .v 12, a := ⟨.v 7, 0, false⟩, b := ⟨.s 2, 0, false⟩, ty := .f32, sub := 1 }
def merging (m : BitVec 2) : Instr := .dmerge { f3 with d := .v 12, a := ⟨.v 4, 0, false⟩, b := ⟨.v 8, 0, false⟩, c := if m = 1 then .zero else ⟨.v 3, 0, false⟩, m := m }
theorem witness_Draws : AllMeet [(drawing, true), (.dshift { f2 with d := .v 12, a := ⟨.v 4, 0, false⟩, b := ⟨.v 3, 0, false⟩, ty := .f32 }, true), (merging 0, true)] ∧
    (∀ i ∈ [drawTriples, drawLeaves], ∃ a ws, Meets (one (encode i)) a i true ∧ lowestLane a.p.active = some 0 ∧ a.h.seq.length = 64 ∧
      (one (encode i)).coins a i ((upFrom 0 63).map fun k => (0, a.h.seqOf 0 + BitVec.ofNat 64 k)) = .ok ws) ∧
    ∃ a ws, Meets (one (encode (merging 1))) a (merging 1) true ∧ (one (encode (merging 1))).coins a (merging 1) ((maskLanes a.p.active).map fun l => (l, a.h.seqOf l)) = .ok ws := by
  refine ⟨all_meet (by decide +kernel), fun i hi => ?_, ?_⟩
  · have h : [drawTriples, drawLeaves].all (fun i => meets (one (encode i)) i true fun a => decide (lowestLane a.p.active = some 0) && decide (a.h.seq.length = 64) &&
      coinsOk (one (encode i)) a i ((upFrom 0 63).map fun k => (0, a.h.seqOf 0 + BitVec.ofNat 64 k))) = true := by decide +kernel
    obtain ⟨a, ha, hb⟩ := meets_agent (List.all_eq_true.1 h i hi)
    simp only [Bool.and_eq_true, decide_eq_true_eq] at hb
    obtain ⟨ws, hw⟩ := coins_ok hb.2
    exact ⟨a, ws, ha, hb.1.1, hb.1.2, hw⟩
  · obtain ⟨a, ha, hb⟩ := meets_agent (s := one (encode (merging 1))) (i := merging 1) (b := true) (more := fun a => coinsOk (one (encode (merging 1))) a (merging 1) ((maskLanes a.p.active).map fun l => (l, a.h.seqOf l))) (by decide +kernel)
    obtain ⟨ws, hw⟩ := coins_ok hb
    exact ⟨a, ws, ha, hw⟩

/-! Press words: two sheets of R179's shape, their check codes in place, under headers at 0x6000 and 0x6040; UC is 0. -/

def headerAt (s : State) (va : Nat) (spr : Byte) : State :=
  let s := { (withBytes (withBytes (withBytes s va 8 0x100000) (va + 0x18) 4 0x00780030) (va + 0x1C) 4 256) with tlb := s.tlb }
  let s := { s with mem := memSetN (memSetN s.mem (va + 0x24) [2, 1]) (va + 0x28) [spr] }
  withBytes s (va + 0x38) 4 (sheetCheck (memGetN s.mem va 64)).toNat
def pressing (i : Instr) (a b : Byte) : State := withS (withS (withSlot (headerAt (headerAt (mapped (tiled (one (encode i)))) 0x6000 a) 0x6080 b) 1 2) 4 0x6000) 5 0x6080
def fp1 : PF := { fp with ua := 4, ub := 5, uc := 6, fa := 1, fb := 1, kd := 24, nu := 62 }
def gotWork {α : Type} (r : Reading α) : Bool := match r with | .ok (.ok _) => true | _ => false
theorem got_work {α : Type} {r : Reading α} (h : gotWork r = true) : ∃ p, r = .ok (.ok p) := by
  unfold gotWork at h
  split at h
  · rename_i p; exact ⟨p, rfl⟩
  · cases h
def pressReady (s : State) (a : Agent) (i : Instr) (g : Nat) : Bool := decide (a.p.stopped = false) && (s.queuePlace (s.partOf a.l.lid) 0 a.f.core).isSome && decide (a.tileBad g (a.tans i) = none)

theorem witness_PressWords :
    (∃ a p, Meets (pressing (.press fp1) 0 0) a (.press fp1) true ∧ pressReady (pressing (.press fp1) 0 0) a (.press fp1) 0 = true ∧ (pressing (.press fp1) 0 0).productOf a (.press fp1) fp1 (a.tans (.press fp1)) 24 false denseSide false = .ok (.ok p)) ∧
    (∃ a p, Meets (pressing (.presss fp1) 1 0) a (.presss fp1) true ∧ pressReady (pressing (.presss fp1) 1 0) a (.presss fp1) 0 = true ∧ (pressing (.presss fp1) 1 0).productOf a (.presss fp1) fp1 (a.tans (.presss fp1)) 24 true denseSide false = .ok (.ok p)) ∧
    (let o := { fp1 with pmod := 2 }
     ∃ a p, Meets (pressing (.presss o) 0 1) a (.presss o) true ∧ pressReady (pressing (.presss o) 0 1) a (.presss o) 0 = true ∧ (pressing (.presss o) 0 1).productOf a (.presss o) o (a.tans (.presss o)) 24 false sparseSide false = .ok (.ok p)) ∧
    (∃ a, Meets (pressing (.gclr { fp with g := 3 }) 0 0) a (.gclr { fp with g := 3 }) true ∧ pressReady (pressing (.gclr { fp with g := 3 }) 0 0) a (.gclr { fp with g := 3 }) 3 = true) := by
  refine ⟨?_, ?_, ?_, ?_⟩
  · obtain ⟨a, ha, hb⟩ := meets_agent (s := pressing (.press fp1) 0 0) (i := .press fp1) (b := true) (more := fun a => pressReady (pressing (.press fp1) 0 0) a (.press fp1) 0 && gotWork ((pressing (.press fp1) 0 0).productOf a (.press fp1) fp1 (a.tans (.press fp1)) 24 false denseSide false)) (by decide +kernel)
    rw [Bool.and_eq_true] at hb
    obtain ⟨p, hp⟩ := got_work hb.2
    exact ⟨a, p, ha, hb.1, hp⟩
  · obtain ⟨a, ha, hb⟩ := meets_agent (s := pressing (.presss fp1) 1 0) (i := .presss fp1) (b := true) (more := fun a => pressReady (pressing (.presss fp1) 1 0) a (.presss fp1) 0 && gotWork ((pressing (.presss fp1) 1 0).productOf a (.presss fp1) fp1 (a.tans (.presss fp1)) 24 true denseSide false)) (by decide +kernel)
    rw [Bool.and_eq_true] at hb
    obtain ⟨p, hp⟩ := got_work hb.2
    exact ⟨a, p, ha, hb.1, hp⟩
  · intro o
    obtain ⟨a, ha, hb⟩ := meets_agent (s := pressing (.presss o) 0 1) (i := .presss o) (b := true) (more := fun a => pressReady (pressing (.presss o) 0 1) a (.presss o) 0 && gotWork ((pressing (.presss o) 0 1).productOf a (.presss o) o (a.tans (.presss o)) 24 false sparseSide false)) (by decide +kernel)
    rw [Bool.and_eq_true] at hb
    obtain ⟨p, hp⟩ := got_work hb.2
    exact ⟨a, p, ha, hb.1, hp⟩
  · exact meets_agent (by decide +kernel)

def fpl : PF := { fp1 with kd := 1 }
def gl : PF := { fp with ua := 4, ub := 5, uc := 6, fa := 1, nu := 62 }
def rectOk (s : State) (a : Agent) (i : Instr) (o : PF) (rm : RmCode) : Bool := match s.rectOf a i o (a.tans i) rm with | .ok _ => true | .error _ => false
theorem rect_ok {s : State} {a : Agent} {i : Instr} {o : PF} {rm : RmCode} (h : rectOk s a i o rm = true) : ∃ r, s.rectOf a i o (a.tans i) rm = .ok r := by
  unfold rectOk at h
  split at h
  · rename_i p hp; exact ⟨p, hp⟩
  · cases h
def stackOk (s : State) (a : Agent) (i : Instr) (o : PF) : Bool :=
  match s.productOf a i o (a.tans i) (32 * o.kd.toNat) false (fun h => some (h.spr ≠ 0)) true with
  | .ok (.ok p) => (match s.stackFor a.p.fid (dieOf a.f.core) a.p.park p with | .ok (some _) => true | _ => false)
  | _ => false
theorem stack_ok {s : State} {a : Agent} {i : Instr} {o : PF} (h : stackOk s a i o = true) :
    ∃ p k, s.productOf a i o (a.tans i) (32 * o.kd.toNat) false (fun h => some (h.spr ≠ 0)) true = .ok (.ok p) ∧ s.stackFor a.p.fid (dieOf a.f.core) a.p.park p = .ok (some k) := by
  unfold stackOk at h
  split at h
  · rename_i p hp
    split at h
    · rename_i k hk; exact ⟨p, k, hp, hk⟩
    · cases h
  · cases h
/-- A platen window, loads and stores of rectangles, and the filler with equal and with unequal sheets. -/
theorem witness_PressWords_more :
    (let s := pressing (.platen fpl) 0 0; ∃ a p k, Meets s a (.platen fpl) true ∧ pressReady s a (.platen fpl) 0 = true ∧ s.productOf a (.platen fpl) fpl (a.tans (.platen fpl)) 32 false (fun h => some (h.spr ≠ 0)) true = .ok (.ok p) ∧ s.stackFor a.p.fid (dieOf a.f.core) a.p.park p = .ok (some k)) ∧
    (∀ x ∈ [(Instr.gload gl, RmCode.rne), (.gstore { gl with pmod := 2 }, .rup)], ∃ a r, Meets (pressing x.1 0 0) a x.1 true ∧ pressReady (pressing x.1 0 0) a x.1 0 = true ∧ (pressing x.1 0 0).rectOf a x.1 gl (a.tans x.1) x.2 = .ok r) ∧
    (∀ e ∈ [(0 : Byte), 1], let s := pressing (.sheet { fp with ua := 4, ub := 5, nu := 62 }) 0 e
      ∃ a x y, Meets s a (.sheet { fp with ua := 4, ub := 5, nu := 62 }) true ∧ s.readSheets a (.sheet { fp with ua := 4, ub := 5, nu := 62 }) 0x6080 none true 0 = .ok (.ok x) ∧
        s.readSheets a (.sheet { fp with ua := 4, ub := 5, nu := 62 }) 0x6000 none false 0 = .ok (.ok y)) ∧
    MeetsIf (pressing (.press { fp1 with g := 4 }) 0 0) (.press { fp1 with g := 4 }) true (fun a => a.tileBad 4 (a.tans (.press { fp1 with g := 4 })) = some 4) ∧
    (let s := { pressing (.gclr { fp with g := 3 }) 0 0 with ops := (upFrom 100 64).map fun k => { id := k, fid := 1, hp := 0, word := 0, queue := 0, site := 0, work := .clear 0 0, issued := 0, ready := 0, seq := k } }
     MeetsIf s (.gclr { fp with g := 3 }) true fun a => a.tileBad 3 (a.tans (.gclr { fp with g := 3 })) = none ∧ (s.queuePlace (s.partOf a.l.lid) 0 a.f.core).isSome = false) := by
  refine ⟨?_, fun x hx => ?_, fun e he => ?_, meets_if (fun _ => inferInstance) (by decide +kernel), meets_if (fun _ => inferInstance) (by decide +kernel)⟩
  · intro s
    obtain ⟨a, ha, hb⟩ := meets_agent (s := s) (i := .platen fpl) (b := true) (more := fun a => pressReady s a (.platen fpl) 0 && stackOk s a (.platen fpl) fpl) (by decide +kernel)
    rw [Bool.and_eq_true] at hb
    obtain ⟨p, k, hp, hk⟩ := stack_ok hb.2
    exact ⟨a, p, k, ha, hb.1, hp, hk⟩
  · have h : [(Instr.gload gl, RmCode.rne), (.gstore { gl with pmod := 2 }, .rup)].all (fun x => meets (pressing x.1 0 0) x.1 true fun a => pressReady (pressing x.1 0 0) a x.1 0 && rectOk (pressing x.1 0 0) a x.1 gl x.2) = true := by decide +kernel
    obtain ⟨a, ha, hb⟩ := meets_agent (List.all_eq_true.1 h x hx)
    rw [Bool.and_eq_true] at hb
    obtain ⟨r, hr⟩ := rect_ok hb.2
    exact ⟨a, r, ha, hb.1, hr⟩
  · have h : [(0 : Byte), 1].all (fun e => meets (pressing (.sheet { fp with ua := 4, ub := 5, nu := 62 }) 0 e) (.sheet { fp with ua := 4, ub := 5, nu := 62 }) true fun a =>
      gotWork ((pressing (.sheet { fp with ua := 4, ub := 5, nu := 62 }) 0 e).readSheets a (.sheet { fp with ua := 4, ub := 5, nu := 62 }) 0x6080 none true 0) &&
      gotWork ((pressing (.sheet { fp with ua := 4, ub := 5, nu := 62 }) 0 e).readSheets a (.sheet { fp with ua := 4, ub := 5, nu := 62 }) 0x6000 none false 0)) = true := by decide +kernel
    obtain ⟨a, ha, hb⟩ := meets_agent (List.all_eq_true.1 h e he)
    rw [Bool.and_eq_true] at hb
    obtain ⟨x, hx⟩ := got_work hb.1
    obtain ⟨y, hy⟩ := got_work hb.2
    exact ⟨a, x, y, ha, hx, hy⟩

def reading : Instr := .gread { f2 with d := .v 2, ty := .f32, sub := 1, a := ⟨.s 3, 0, false⟩, b := .zero }
def writing : Instr := .gwrite { f2 with d := .v 0, ty := .f32, sub := 1, a := ⟨.v 3, 0, false⟩, b := ⟨.v 9, 0, false⟩ }
def touching : Op := { id := 100, fid := 1, hp := 0, word := 0, queue := 0, site := 0, work := .clear 1 0, issued := 0, ready := 0, seq := 100 }
theorem witness_GalleyWords :
    MeetsIf (tiled (one (encode reading))) reading true (fun a => a.tileBad 1 (a.tans reading) = none ∧ (tiled (one (encode reading))).tileTouched a 1 (a.tans reading) = none ∧ (tiled (one (encode reading))).openOps = [] ∧ a.f.gpoison = [] ∧
      a.overcommits (usesOf a.l.record reading) ((tiled (one (encode reading))).allocRows a (.v 2) 1 (a.tans reading)) = false) ∧
    (MeetsIf (withV (tiled (one (encode writing))) 3 fun k => BitVec.ofNat 32 k) writing true (fun a => a.tileBad 1 (a.tans writing) = none ∧ (tiled (one (encode writing))).tileTouched a 1 (a.tans writing) = none) ∧ (withV (tiled (one (encode writing))) 3 fun k => BitVec.ofNat 32 k).Canonical) ∧
    (∀ i ∈ [reading, writing], let s := { (tiled (one (encode i))).onLaunch 1 (fun l => { l with record := { l.record with chk := true } }) with ops := [touching] }
      MeetsIf s i true fun a => a.tileBad 1 (a.tans i) = none ∧ s.tileTouched a 1 (a.tans i) = some 1) ∧ AllMeet [(.oready fu, false)] := by
  refine ⟨meets_if (fun _ => inferInstance) (by decide +kernel), ⟨meets_if (fun _ => inferInstance) (by decide +kernel), canonical_now (by decide +kernel)⟩, fun i hi => ?_, all_meet (by decide +kernel)⟩
  have h : [reading, writing].all (fun i => meets { (tiled (one (encode i))).onLaunch 1 (fun l => { l with record := { l.record with chk := true } }) with ops := [touching] } i true
    fun a => decide (a.tileBad 1 (a.tans i) = none ∧ State.tileTouched { (tiled (one (encode i))).onLaunch 1 (fun l => { l with record := { l.record with chk := true } }) with ops := [touching] } a 1 (a.tans i) = some 1)) = true := by decide +kernel
  exact meets_if (fun _ => inferInstance) (List.all_eq_true.1 h i hi)

def wb (k : BitVec 8) (n : BitVec 24) : Instr := .waitb { fu with ua := if k = 0 then 3 else 0, idx := k, imm := n }
/-- One batch that still has an operation in flight, or that has ended with a failure. -/
def batched (i : Instr) (done : Bool) : State := { (withS (one (encode i)) 3 1).onHome 1 0 (fun (h : Home) => { h with bn := 1 }) with
  ops := [{ touching with batch := some 1, phase := if done then .ended else .queued, fail := if done then some (.poison, 0x1000) else none }] }
theorem witness_Batches : AllMeet [(.batch { fu with d := .s 13 }, false)] ∧ ∀ x ∈ [(wb 0 0, false), (wb 0 0, true), (wb 1 0, false), (wb 1 255, true)], ∃ a, Meets (batched x.1 x.2) a x.1 false ∧ a.ends x.1 ∧ (batched x.1 x.2).others a.p = [] ∧
    (batched x.1 x.2).batchDone a.p.fid a.p.hp (if x.1 = wb 0 0 then some 1 else none) (if x.1 = wb 1 255 then 255 else 0) = x.2 := by
  refine ⟨all_meet (by decide +kernel), fun x hx => ?_⟩
  have h : [(wb 0 0, false), (wb 0 0, true), (wb 1 0, false), (wb 1 255, true)].all (fun x => meets (batched x.1 x.2) x.1 false fun a => decide (a.p.stopped = false ∧ a.c.idx + wordsTaken x.1 = a.c.words.length) && decide ((batched x.1 x.2).others a.p = []) &&
    decide ((batched x.1 x.2).batchDone a.p.fid a.p.hp (if x.1 = wb 0 0 then some 1 else none) (if x.1 = wb 1 255 then 255 else 0) = x.2)) = true := by decide +kernel
  obtain ⟨a, ha, hb⟩ := meets_agent (List.all_eq_true.1 h x hx)
  simp only [Bool.and_eq_true, decide_eq_true_eq] at hb
  exact ⟨a, ha, hb.1.1, hb.1.2, hb.2⟩

/-! Memory words: every active lane's access, in window 5, in the scratchpad or in lane-private memory. -/

def reachNow (s : State) (a : Agent) (l : List Acc) : Bool :=
  decide (a.p.stopped = false) && decide (a.c.left = none ∧ a.c.refused = [] ∧ a.c.some_ = false) && quietNow s && decide (s.acts = []) && decide (s.past = []) &&
    decide (sumBy Long.reqs s.longs + l.length ≤ 8192) && l.all fun x => match s.resolve a x with | .at_ ls => ls.all fun y => plainNow s y.1 y.2 | _ => false
theorem reach_now {s : State} {a : Agent} {l : List Acc} (h : reachNow s a l = true) : Reaches1 s a l := by
  simp only [reachNow, Bool.and_eq_true, decide_eq_true_eq, List.all_eq_true] at h
  obtain ⟨⟨⟨⟨⟨⟨h1, h2⟩, h3⟩, ha⟩, hp⟩, hr⟩, h4⟩ := h
  refine ⟨h1, h2, quiet_now h3, fun w hw => absurd (ha ▸ hw) List.not_mem_nil, fun x hx => ?_, hr, fun x _ _ y hy => absurd (hp ▸ hy) List.not_mem_nil⟩
  have := h4 x hx
  revert this
  split
  · rename_i ls hl; exact fun h => ⟨ls, hl, fun y hy => plain_now (List.all_eq_true.1 h y hy)⟩
  · exact fun h => absurd h (by decide)
def formsOk (s : State) (a : Agent) (r : Except (TrapCode × Nat) (List Acc)) (n : Nat) : Bool := match r with | .ok l => reachNow s a l && decide (l.length = n) | .error _ => false
theorem forms_ok {s : State} {a : Agent} {r : Except (TrapCode × Nat) (List Acc)} {n : Nat} (h : formsOk s a r n = true) : ∃ l, r = .ok l ∧ Reaches1 s a l ∧ l.length = n := by
  unfold formsOk at h
  split at h
  · rename_i l
    rw [Bool.and_eq_true, decide_eq_true_eq] at h
    exact ⟨l, rfl, reach_now h.1, h.2⟩
  · cases h

/-- One page of scratchpad, lane-private memory of 64 bytes a lane at 0x100000, and window 5. -/
def memoryState (i : Instr) : State :=
  withV ((windowed (mapped (one (encode i)))).onLaunch 1 fun l => { l with record := { l.record with srows := 1, privBase := 0x100000, privSz := 64 } }) 3 fun k => BitVec.ofNat 32 (match i with | .ldpv _ | .stpv _ => 4 | _ => 4 * k)
/-- A constructor with the way in which its accesses are formed. -/
def ways : List ((MF → Instr) × Need × (Agent → Way)) := [(.ld, .r, fun a => a.winWay 5), (.ldsc, .r, fun a => .scratch (a.toffOf 5)), (.ldpv, .rw, fun a => .lane (a.toffOf 5))]
def storeWays : List ((MF → Instr) × Need × (Agent → Way)) := [(.st, .w, fun a => a.winWay 5), (.stsc, .w, fun a => .scratch (a.toffOf 5)), (.stpv, .rw, fun a => .lane (a.toffOf 5))]
theorem witness_Loads : ∀ x ∈ ways, let i := x.1 fm; ∃ a l, Meets (memoryState i) a i true ∧ a.formAll (x.2.2 a) x.2.1 ((memoryState i).offsets a fm.so a.p.active (mfOff fm)) (a.memTans i true (x.2.2 a)) 4 = .ok l ∧ Reaches1 (memoryState i) a l ∧
    l.length = 64 ∧ a.overcommits (usesOf a.l.record i) ((memoryState i).allocRows a fm.dat 1 (a.memTans i true (x.2.2 a))) = false := by
  have h : ways.all (fun x => meets (memoryState (x.1 fm)) (x.1 fm) true fun a => formsOk (memoryState (x.1 fm)) a (a.formAll (x.2.2 a) x.2.1 ((memoryState (x.1 fm)).offsets a fm.so a.p.active (mfOff fm)) (a.memTans (x.1 fm) true (x.2.2 a)) 4) 64 &&
    decide (a.overcommits (usesOf a.l.record (x.1 fm)) ((memoryState (x.1 fm)).allocRows a fm.dat 1 (a.memTans (x.1 fm) true (x.2.2 a))) = false)) = true := by decide +kernel
  intro x hx
  obtain ⟨a, ha, hb⟩ := meets_agent (List.all_eq_true.1 h x hx)
  rw [Bool.and_eq_true, decide_eq_true_eq] at hb
  obtain ⟨l, h1, h2, h3⟩ := forms_ok hb.1
  exact ⟨a, l, ha, h1, h2, h3, hb.2⟩
def ldk1 : MF := { fm with dat := .s 10, so := ⟨.s 9, 0, false⟩, sz := .x8 }
theorem witness_Loads_ldk : ∃ a l, Meets (memoryState (.ldk ldk1)) a (.ldk ldk1) false ∧
    a.formAll (a.winWay 5) .r [(255, ((memoryState (.ldk ldk1)).srcUniform a ldk1.so 2 0 + ldk1.off.signExtend 64).toNat)] 0 1 = .ok l ∧ Reaches1 (memoryState (.ldk ldk1)) a l := by
  obtain ⟨a, ha, hb⟩ := meets_agent (s := memoryState (.ldk ldk1)) (i := .ldk ldk1) (b := false) (more := fun a => formsOk (memoryState (.ldk ldk1)) a
    (a.formAll (a.winWay 5) .r [(255, ((memoryState (.ldk ldk1)).srcUniform a ldk1.so 2 0 + ldk1.off.signExtend 64).toNat)] 0 1) 1) (by decide +kernel)
  obtain ⟨l, h1, h2, -⟩ := forms_ok hb
  exact ⟨a, l, ha, h1, h2⟩
theorem witness_Stores : ∀ x ∈ storeWays, let i := x.1 fm; ∃ a l, Meets (memoryState i) a i true ∧
    withData ((memoryState i).storeData a (mfData fm) 1 4 (a.memTans i true (x.2.2 a))) (a.formAll (x.2.2 a) x.2.1 ((memoryState i).offsets a fm.so a.p.active (mfOff fm)) (a.memTans i true (x.2.2 a)) 4) = .ok l ∧
    Reaches1 (memoryState i) a l ∧ l.length = 64 ∧ (memoryState i).Canonical := by
  have h : storeWays.all (fun x => (meets (memoryState (x.1 fm)) (x.1 fm) true fun a => formsOk (memoryState (x.1 fm)) a (withData ((memoryState (x.1 fm)).storeData a (mfData fm) 1 4 (a.memTans (x.1 fm) true (x.2.2 a)))
    (a.formAll (x.2.2 a) x.2.1 ((memoryState (x.1 fm)).offsets a fm.so a.p.active (mfOff fm)) (a.memTans (x.1 fm) true (x.2.2 a)) 4)) 64) && canonicalNow (memoryState (x.1 fm))) = true := by decide +kernel
  intro x hx
  have h := List.all_eq_true.1 h x hx
  rw [Bool.and_eq_true] at h
  obtain ⟨a, ha, hb⟩ := meets_agent h.1
  obtain ⟨l, h1, h2, h3⟩ := forms_ok hb
  exact ⟨a, l, ha, h1, h2, h3, canonical_now h.2⟩

def atomWays : List ((MA → Instr) × (Agent → Way) × Bool) := [(.atom, fun a => a.winWay 5, true), (.atomsc, fun a => .scratch (a.toffOf 5), true), (.red, fun a => a.winWay 5, false)]
/-- No two accesses share a byte. -/
def apart (s : State) (a : Agent) (l : List Acc) : Bool := l.all fun x => (s.cellsAt a x).all fun m => decide (((l.flatMap (s.cellsAt a)).filter fun y => y = m).length = 1)
def atomOk (s : State) (a : Agent) (r : Except (TrapCode × Nat) (List Acc)) : Bool := match r with | .ok l => reachNow s a l && apart s a l && decide (l ≠ []) | .error _ => false
theorem atom_ok {s : State} {a : Agent} {r : Except (TrapCode × Nat) (List Acc)} (h : atomOk s a r = true) : ∃ l, r = .ok l ∧ Reaches1 s a l ∧ (∀ x ∈ l, ∀ m ∈ s.cellsAt a x, onlyOnce (l.flatMap (s.cellsAt a)) m) ∧ l ≠ [] := by
  unfold atomOk at h
  split at h
  · rename_i l
    simp only [Bool.and_eq_true, decide_eq_true_eq] at h
    refine ⟨l, rfl, reach_now h.1.1, fun x hx m hm => ?_, h.2⟩
    have := List.all_eq_true.1 (List.all_eq_true.1 h.1.2 x hx) m hm
    rw [decide_eq_true_eq] at this
    exact this
  · cases h
def atomState (i : Instr) : State := (memoryState i).onParty 1 fun p => { p with em := 0xF }
theorem witness_Atomics : ∀ x ∈ atomWays, let i := x.1 fa; ∃ a l, Meets (atomState i) a i true ∧
    withData ((atomState i).atomData a fa (a.memTans i false (x.2.1 a))) (a.formAll (x.2.1 a) .rw ((atomState i).offsets a fa.so a.p.active 0) (a.memTans i false (x.2.1 a)) 4) = .ok l ∧ Reaches1 (atomState i) a l ∧ l ≠ [] ∧
    (∀ y ∈ l, ∀ m ∈ (atomState i).cellsAt a y, onlyOnce (l.flatMap ((atomState i).cellsAt a)) m) ∧ (atomState i).Canonical ∧
    a.overcommits (usesOf a.l.record i) (if x.2.2 then (atomState i).allocRows a fa.dat 1 (a.memTans i false (x.2.1 a)) else []) = false := by
  have h : atomWays.all (fun x => (meets (atomState (x.1 fa)) (x.1 fa) true fun a => atomOk (atomState (x.1 fa)) a (withData ((atomState (x.1 fa)).atomData a fa (a.memTans (x.1 fa) false (x.2.1 a)))
    (a.formAll (x.2.1 a) .rw ((atomState (x.1 fa)).offsets a fa.so a.p.active 0) (a.memTans (x.1 fa) false (x.2.1 a)) 4)) &&
    decide (a.overcommits (usesOf a.l.record (x.1 fa)) (if x.2.2 then (atomState (x.1 fa)).allocRows a fa.dat 1 (a.memTans (x.1 fa) false (x.2.1 a)) else []) = false)) && canonicalNow (atomState (x.1 fa))) = true := by decide +kernel
  intro x hx
  have h := List.all_eq_true.1 h x hx
  rw [Bool.and_eq_true] at h
  obtain ⟨a, ha, hb⟩ := meets_agent h.1
  rw [Bool.and_eq_true, decide_eq_true_eq] at hb
  obtain ⟨l, h1, h2, h3, h4⟩ := atom_ok hb.1
  exact ⟨a, l, ha, h1, h2, h4, h3, canonical_now h.2, hb.2⟩

/-- Windows at the limits of the checks of an access: closed, past the length, misaligned, without the permission, at a scratchpad's end. -/
theorem witness_AddressChecks : ({} : Window).isOpen = false ∧ (win5.isOpen = true ∧ win5.len < 0xFFFD + 4 ∧ 0xFFFC + 4 ≤ win5.len ∧ (win5.vb + 0xFFFC) % 4 = 0 ∧ (win5.vb + 2) % 4 ≠ 0) ∧ ({ win5 with perm := 2 } : Window).perm.getLsbD 0 = false ∧
    ({ win5 with perm := 5 } : Window).perm.getLsbD 1 = false ∧ win5.perm.getLsbD 2 = true ∧ permHas .rw win5.perm = true ∧ (win5.spad = false ∧ win5.fvalid = true ∧ 0xFFFC + 4 ≤ win5.flim) ∧
    (let w : Window := { win5 with spad := true, frame := 0 }; w.spad = true ∧ 1 * 4096 < w.frame + 0xFFD + 4 ∧ w.frame + 0xFFC + 4 ≤ 1 * 4096) ∧ (64 % 4 = 0 ∧ (63 : Nat) < 64) := by decide +kernel
def failsWith (r : Except (TrapCode × Nat) (List Acc)) : Bool := match r with | .ok _ => false | .error _ => true
theorem fails_with {r : Except (TrapCode × Nat) (List Acc)} (h : failsWith r = true) : ∃ c t, r = .error (c, t) := by
  unfold failsWith at h
  split at h
  · cases h
  · rename_i e; exact ⟨e.1, e.2, rfl⟩
/-- The accesses of every memory word past its window, its scratchpad or its lane's memory, and off their size. -/
def failing (i : Instr) (o : W32) : State := withS (withVs (memoryState i) [(3, o)]) 9 (o.setWidth 64)
def formed (s : State) (a : Agent) (i : Instr) : Except (TrapCode × Nat) (List Acc) :=
  match i with
  | .ld o => a.formAll (a.winWay o.win) .r (s.offsets a o.so a.p.active (mfOff o)) (a.memTans i o.sz.tangent (a.winWay o.win)) o.sz.bytes
  | .ldsc o => a.formAll (.scratch (a.toffOf o.win)) .r (s.offsets a o.so a.p.active (mfOff o)) (a.memTans i o.sz.tangent (.scratch (a.toffOf o.win))) o.sz.bytes
  | .st o => a.formAll (a.winWay o.win) .w (s.offsets a o.so a.p.active (mfOff o)) (a.memTans i o.sz.tangent (a.winWay o.win)) o.sz.bytes
  | .stsc o => a.formAll (.scratch (a.toffOf o.win)) .w (s.offsets a o.so a.p.active (mfOff o)) (a.memTans i o.sz.tangent (.scratch (a.toffOf o.win))) o.sz.bytes
  | .ldpv o | .stpv o => a.formAll (.lane (a.toffOf o.win)) .rw (s.offsets a o.so a.p.active (mfOff o)) (a.memTans i o.sz.tangent (.lane (a.toffOf o.win))) o.sz.bytes
  | .atom m | .red m => a.formAll (a.winWay m.win) .rw (s.offsets a m.so a.p.active 0) (a.memTans i (m.aop = .xchg || m.aop = .fadd) (a.winWay m.win)) m.sz.bytes
  | .atomsc m => a.formAll (.scratch (a.toffOf m.win)) .rw (s.offsets a m.so a.p.active 0) (a.memTans i (m.aop = .xchg || m.aop = .fadd) (.scratch (a.toffOf m.win))) m.sz.bytes
  | .cwb o | .cinv o | .iinv o => a.formAll (a.winWay o.win) .r (s.offsets a o.so a.p.active (mfOff o)) 0 1
  | .ldk o => a.formAll (a.winWay o.win) .r [(255, (s.srcUniform a o.so (if o.so.reg.isS then 2 else 1) 0 + o.off.signExtend 64).toNat)] 0 o.sz.bytes
  | _ => .ok []
def lateForm : MF := { fm with dat := .v 0, sz := .z8, scope := .dev }
def trapping : List (Instr × W32) :=
  [(.ld fm, 0x10000), (.ld fm, 2), (.ldsc fm, 0x10000), (.ldsc fm, 2), (.ldpv fm, 0x10000), (.st fm, 0x10000), (.st { fm with scope := .dev, ord := .acqRel }, 0x10000), (.st fm, 2), (.stsc fm, 0x10000), (.stpv fm, 0x10000),
   (.atom fa, 0x10000), (.atom { fa with ord := .ar }, 2), (.atomsc fa, 0x10000), (.red fa, 0x10000), (.cwb lateForm, 0x10000), (.cinv lateForm, 0x10000), (.iinv lateForm, 0x10000), (.ldk { fm with dat := .s 10, so := ⟨.s 9, 0, false⟩ }, 0x10000)]
theorem witness_AddressChecks_trap : ∀ x ∈ trapping, ∃ a c t, Meets (failing x.1 x.2) a x.1 true ∧ a.c.left = none ∧ formed (failing x.1 x.2) a x.1 = .error (c, t) := by
  have h : trapping.all (fun x => meets (failing x.1 x.2) x.1 true fun a => decide (a.c.left = none) && failsWith (formed (failing x.1 x.2) a x.1)) = true := by decide +kernel
  intro x hx
  obtain ⟨a, ha, hb⟩ := meets_agent (List.all_eq_true.1 h x hx)
  rw [Bool.and_eq_true, decide_eq_true_eq] at hb
  obtain ⟨c, t, hc⟩ := fails_with hb.2
  exact ⟨a, c, t, ha, hb.1, hc⟩

/-! Cache words, windows, commands and collectives. -/

def fence (n : BitVec 24) : Instr := .fence { fu with imm := n }
def cacheForm : MF := { fm with dat := .v 0, sz := .z8, scope := .dev }
def hint : MF := { fm with dat := .v 0, sz := .z8 }
def cacheWords : List Instr := [.cwb cacheForm, .cwb { cacheForm with scope := .sys }, .cinv cacheForm, .iinv cacheForm]
theorem witness_CacheWords : AllMeet [(.pref hint, true), (.reuse hint, true), (fence 0x08, false), (fence 0x63, false)] ∧
    ∀ i ∈ cacheWords, ∃ a l, Meets (memoryState i) a i true ∧ a.formAll (a.winWay 5) .r ((memoryState i).offsets a cacheForm.so a.p.active (mfOff cacheForm)) 0 1 = .ok l ∧ Reaches1 (memoryState i) a l ∧ l.length = 64 := by
  refine ⟨all_meet (by decide +kernel), fun i hi => ?_⟩
  have h : cacheWords.all (fun i => meets (memoryState i) i true fun a => formsOk (memoryState i) a (a.formAll (a.winWay 5) .r ((memoryState i).offsets a cacheForm.so a.p.active (mfOff cacheForm)) 0 1) 64) = true := by decide +kernel
  obtain ⟨a, ha, hb⟩ := meets_agent (List.all_eq_true.1 h i hi)
  obtain ⟨l, h1, h2, h3⟩ := forms_ok hb
  exact ⟨a, l, ha, h1, h2, h3⟩

def opening : Instr := .wopen { fu with idx := 3, ua := 10, ub := 12, imm := 3 }
def openState (vb len toff : W64) : State := withS (withS (withS (mapped (one (encode opening))) 10 vb) 12 len) 13 toff
def opens (s : State) (a : Agent) : Bool := match s.openWindow a (s.sVal a 10 0).toNat (s.sVal a 12 1).toNat (s.sVal a 13 2).toNat 3 with | .ok _ => true | .error _ => false
theorem opens_ok {s : State} {a : Agent} (h : opens s a = true) : ∃ w, s.openWindow a (s.sVal a 10 0).toNat (s.sVal a 12 1).toNat (s.sVal a 13 2).toNat 3 = .ok w := by
  unfold opens at h
  split at h
  · rename_i w hw; exact ⟨w, hw⟩
  · cases h
/-- Ranges that open, in memory and in the aperture; the least bases, lengths and offsets that trap. -/
theorem witness_Windows : (∀ x ∈ [((0x200000 : W64), (0x10000 : W64), (0x1000 : W64)), (0x1FFFFFFFFC00000, 4096, 0), (0x1FFFFFFFFFFFFFF, 1, 16)], ∃ a w, Meets (openState x.1 x.2.1 x.2.2) a opening false ∧
      (openState x.1 x.2.1 x.2.2).openWindow a ((openState x.1 x.2.1 x.2.2).sVal a 10 0).toNat ((openState x.1 x.2.1 x.2.2).sVal a 12 1).toNat ((openState x.1 x.2.1 x.2.2).sVal a 13 2).toNat 3 = .ok w) ∧
    (∀ x ∈ [((0x200000000000000 : W64), (1 : W64), (0 : W64)), (0x1FFFFFFFFFFFFFF, 2, 0), (0, 0, 0), (0x200000, 4096, 8)], MeetsIf (openState x.1 x.2.1 x.2.2) opening false fun a => opens (openState x.1 x.2.1 x.2.2) a = false) ∧
    AllMeet [(.wclose { fu with idx := 5 }, false)] := by
  refine ⟨fun x hx => ?_, fun x hx => ?_, all_meet (by decide +kernel)⟩
  · have h : [((0x200000 : W64), (0x10000 : W64), (0x1000 : W64)), (0x1FFFFFFFFC00000, 4096, 0), (0x1FFFFFFFFFFFFFF, 1, 16)].all (fun x => meets (openState x.1 x.2.1 x.2.2) opening false fun a => opens (openState x.1 x.2.1 x.2.2) a) = true := by decide +kernel
    obtain ⟨a, ha, hb⟩ := meets_agent (List.all_eq_true.1 h x hx)
    obtain ⟨w, hw⟩ := opens_ok hb
    exact ⟨a, w, ha, hw⟩
  · have h : [((0x200000000000000 : W64), (1 : W64), (0 : W64)), (0x1FFFFFFFFFFFFFF, 2, 0), (0, 0, 0), (0x200000, 4096, 8)].all (fun x => meets (openState x.1 x.2.1 x.2.2) opening false fun a => decide (opens (openState x.1 x.2.1 x.2.2) a = false)) = true := by decide +kernel
    exact meets_if (fun _ => inferInstance) (List.all_eq_true.1 h x hx)

/-! Engine commands. The descriptor stands at 0x1000, named by s3; s4 is XB. -/

def described (i : Instr) (fields : List (Nat × Nat × Nat)) (xb : W64) : State :=
  withS (withS (fields.foldl (fun s x => withBytes s (0x1000 + x.1) x.2.1 x.2.2) (mapped (one (encode i)))) 3 0x1000) 4 xb
def readNow (s : State) (a : Agent) (i : Instr) : Bool := match s.readOnce a i 0x1000 64 (s.freeCtr + 1) 0 with | .ok (.ok _) => true | _ => false
theorem read_now {s : State} {a : Agent} {i : Instr} (h : readNow s a i = true) : ∃ bs, s.readOnce a i 0x1000 64 (s.freeCtr + 1) 0 = .ok (.ok bs) := by
  unfold readNow at h
  split at h
  · rename_i bs hb; exact ⟨bs, hb⟩
  · cases h
def fx4 : XF := { fx with xa := 3, xb := 4 }
def fxr : XF := { fx4 with rply := some 9 }
/-- Descriptors with each field at a bound that the command accepts. -/
def commands : List (Instr × List (Nat × Nat × Nat) × W64) :=
  [(.cpy fx4, [(0, 8, 0x2000), (8, 8, 0x3000)], 0x10000000000), (.cpyx fxr, [(0, 8, 0x2000), (8, 8, 0x3000), (0x10, 4, 1), (0x14, 4, 0x100000)], 0), (.cpyx fx4, [(0x10, 4, 65535), (0x14, 4, 1)], 0),
   (.cpyrot fx4, [(0x18, 4, 1), (0x24, 2, 2), (0x26, 1, 1)], 0), (.cpyrot fx4, [(0x18, 4, 0x100000), (0x24, 2, 4096), (0x26, 1, 3), (0x27, 1, 1)], 7), (.fill fx4, [(8, 8, 0x10000000000)], 5), (.scrub fx4, [(0, 8, 128), (8, 8, 256), (0x10, 8, 32)], 1)]
theorem witness_EngineWords : ∀ x ∈ commands, ∃ a bs, Meets (described x.1 x.2.1 x.2.2) a x.1 true ∧ (described x.1 x.2.1 x.2.2).readOnce a x.1 0x1000 64 ((described x.1 x.2.1 x.2.2).freeCtr + 1) 0 = .ok (.ok bs) ∧
    ((described x.1 x.2.1 x.2.2).sVal a 3 0).toNat = 0x1000 ∧ (described x.1 x.2.1 x.2.2).openOps = [] ∧ ((described x.1 x.2.1 x.2.2).queuePlace ((described x.1 x.2.1 x.2.2).partOf a.l.lid) 1 (dieOf a.f.core)).isSome = true := by
  have h : commands.all (fun x => x.1.wf && meets (described x.1 x.2.1 x.2.2) x.1 true fun a => readNow (described x.1 x.2.1 x.2.2) a x.1 && decide (((described x.1 x.2.1 x.2.2).sVal a 3 0).toNat = 0x1000 ∧ (described x.1 x.2.1 x.2.2).openOps = [] ∧
    ((described x.1 x.2.1 x.2.2).queuePlace ((described x.1 x.2.1 x.2.2).partOf a.l.lid) 1 (dieOf a.f.core)).isSome = true)) = true := by decide +kernel
  intro x hx
  have h := List.all_eq_true.1 h x hx
  rw [Bool.and_eq_true] at h
  obtain ⟨a, ha, hb⟩ := meets_agent h.2
  rw [Bool.and_eq_true, decide_eq_true_eq] at hb
  obtain ⟨bs, hr⟩ := read_now hb.1
  exact ⟨a, bs, ha, hr, hb.2⟩
/-- A copy of a sheet's rows: 48 rows of 256 bytes, whose header stands at 0x6000. -/
def copyingSheet : State := headerAt (withSlot (described (.cpyx fx4) [(0x10, 4, 48), (0x14, 4, 240)] 0x6000) 1 2) 0x6000 0
theorem witness_EngineWords_sheet : ∃ a h, Meets copyingSheet a (.cpyx fx4) true ∧ (∃ bs, copyingSheet.readOnce a (.cpyx fx4) 0x1000 64 (copyingSheet.freeCtr + 1) 0 = .ok (.ok bs)) ∧ copyingSheet.readSheet a (.cpyx fx4) 0x6000 none false (copyingSheet.freeCtr + 1) 0 = .ok (.ok h) ∧
    h.format.isBq = false ∧ 48 ≤ h.rows ∧ 240 = h.rowBytes := by
  obtain ⟨a, ha, hb⟩ := meets_agent (s := copyingSheet) (i := .cpyx fx4) (b := true) (more := fun a => readNow copyingSheet a (.cpyx fx4) && gotWork (copyingSheet.readSheet a (.cpyx fx4) 0x6000 none false (copyingSheet.freeCtr + 1) 0) &&
    match copyingSheet.readSheet a (.cpyx fx4) 0x6000 none false (copyingSheet.freeCtr + 1) 0 with | .ok (.ok h) => decide (h.format.isBq = false ∧ 48 ≤ h.rows ∧ 240 = h.rowBytes) | _ => false) (by decide +kernel)
  simp only [Bool.and_eq_true] at hb
  obtain ⟨h, hh⟩ := got_work hb.1.2
  have h2 := hb.2
  rw [hh] at h2
  exact ⟨a, h, ha, read_now hb.1.1, hh, of_decide_eq_true h2⟩
def securing : List Instr := [.seal { fx with xa := 3, xb := 4 }, .ndt { fx with xa := 3, xb := 4, scope := .sys, ord := .acqRel }]
def secured (i : Instr) (va : W64) : State := withS (mapped (one (encode i))) 3 va
theorem witness_EngineWords_secure : (∀ i ∈ securing, ∃ a, Meets (secured i 0x1000) a i true ∧ (secured i 0x1000).once a i 0x1000 .r = .ok (.pa 0x1000) ∧ ((secured i 0x1000).sVal a 4 1) = 0) ∧
    (∀ i ∈ securing, MeetsIf (secured i 0x1080) i true fun a => ((secured i 0x1080).sVal a 3 0).toNat % 256 ≠ 0) ∧
    (∀ i ∈ [Instr.cpy fx4, .cpyx fx4, .cpyrot fx4, .fill fx4, .scrub fx4], MeetsIf (secured i 0x1020) i true fun a => ((secured i 0x1020).sVal a 3 0).toNat % 64 ≠ 0) ∧
    (State.reset.fit = .f2 ∧ State.reset.seqOf 255 1 < 2 ^ 48 ∧ State.reset.seqOf 0 0 < 2 ^ 48) := by
  refine ⟨fun i hi => ?_, fun i hi => ?_, fun i hi => ?_, by decide +kernel⟩
  · have h : securing.all (fun i => meets (secured i 0x1000) i true fun a => onceAt (secured i 0x1000) a i 0x1000 .r (.pa 0x1000) && decide (((secured i 0x1000).sVal a 4 1) = 0)) = true := by decide +kernel
    obtain ⟨a, ha, hb⟩ := meets_agent (List.all_eq_true.1 h i hi)
    rw [Bool.and_eq_true, decide_eq_true_eq] at hb
    exact ⟨a, ha, once_at hb.1, hb.2⟩
  · have h : securing.all (fun i => meets (secured i 0x1080) i true fun a => decide (((secured i 0x1080).sVal a 3 0).toNat % 256 ≠ 0)) = true := by decide +kernel
    exact meets_if (fun _ => inferInstance) (List.all_eq_true.1 h i hi)
  · have h : [Instr.cpy fx4, .cpyx fx4, .cpyrot fx4, .fill fx4, .scrub fx4].all (fun i => meets (secured i 0x1020) i true fun a => decide (((secured i 0x1020).sVal a 3 0).toNat % 64 ≠ 0)) = true := by decide +kernel
    exact meets_if (fun _ => inferInstance) (List.all_eq_true.1 h i hi)

/-! Collectives: a group of two ranks. -/

def pair : Group := { id := 5, bind := 1, nrank := 2, myrank := 0, len := 4096, sbuf := 0x20000, rbuf := 0x30000, table := 0x7000, key := 0, src := 0, srcLen := 0, base := 0 }
def grouped (s : State) : State := s.onHome 1 0 fun (h : Home) => { h with groups := [pair], bound := 1 }
/-- Lanes 0 to 3 send to rank 1 at offset 4 k, and the others to no one. -/
def collWord : V2 := { f2 with d := .s 6, a := ⟨.v 7, 0, false⟩, b := ⟨.v 3, 0, false⟩, ty := .i32, sub := 1 }
def collState : State := withV (withV (grouped (mapped (one (encode (.coll collWord))))) 7 fun k => if k < 4 then 1 else 0xFFFF) 3 fun k => BitVec.ofNat 32 (4 * k)
def bindWord : UF := { fu with ua := 3 }
def binding (busy : Bool) : State :=
  let s := withS (withBytes (withBytes (withBytes (mapped (one (encode (.csigBind bindWord)))) 0x1000 8 5) 0x1020 8 4096) 0x1028 4 2) 3 0x1000
  if busy then { s with ops := [{ touching with queue := 4, work := .void }] } else s
theorem witness_CollectiveWords : MeetsIf collState (.coll collWord) true (fun a => a.h.groups.head? = some pair ∧ a.h.step? 1 (a.h.stepNo + 1) = none ∧ (collState.queuePlace (collState.partOf a.l.lid) 4 (a.f.core / 16)).isSome = true ∧
      (upFrom 0 64).all (fun k => let off := (collState.opVal a collWord.b 1 1 k).toNat; let peer := (collState.opVal a collWord.a 1 0 k).toNat; peer = 0xFFFF || (peer < 2 && off % collSize 1 .i32 = 0 && off + collSize 1 .i32 ≤ 4096)) = true) ∧
    MeetsIf (one (encode (.coll collWord))) (.coll collWord) true (fun a => a.h.groups = []) ∧
    (∀ b ∈ [false, true], ∃ a bs, Meets (binding b) a (.csigBind bindWord) false ∧ (binding b).readOnce a (.csigBind bindWord) 0x1000 64 ((binding b).freeCtr + 1) 0 = .ok (.ok bs) ∧ (Group.parse bs (a.h.groups.length + 1) a).sound bs = true ∧
      ((binding b).openSteps a.p.fid a.p.hp = [] ↔ b = false)) ∧
    AllMeet [(.csigSig { fu with d := .s 4, ua := 3, idx := 1 }, false), (.csigStat { fu with d := .s 4, ua := 3, idx := 2 }, false)] := by
  refine ⟨meets_if (fun _ => inferInstance) (by decide +kernel), meets_if (fun _ => inferInstance) (by decide +kernel), fun b hb => ?_, all_meet (by decide +kernel)⟩
  have h : [false, true].all (fun b => meets (binding b) (.csigBind bindWord) false fun a => readNow (binding b) a (.csigBind bindWord) && (match (binding b).readOnce a (.csigBind bindWord) 0x1000 64 ((binding b).freeCtr + 1) 0 with
    | .ok (.ok bs) => (Group.parse bs (a.h.groups.length + 1) a).sound bs | _ => false) && decide ((binding b).openSteps a.p.fid a.p.hp = [] ↔ b = false)) = true := by decide +kernel
  obtain ⟨a, ha, hc⟩ := meets_agent (List.all_eq_true.1 h b hb)
  simp only [Bool.and_eq_true, decide_eq_true_eq] at hc
  obtain ⟨bs, hr⟩ := read_now hc.1.1
  have h2 := hc.1.2
  rw [hr] at h2
  exact ⟨a, bs, ha, hr, h2, hc.2⟩

/-! The checks that every word shares. -/

/-- A word's agent, without its passing the word's checks. -/
def holds (s : State) (f : Agent → Bool) : Bool := match s.agent with | .ok a => f a | .error _ => false
theorem holds_agent {s : State} {P : Agent → Prop} (d : DecidablePred P) (h : holds s (fun a => @decide (P a) (d a)) = true) : ∃ a, s.agent = .ok a ∧ P a := by
  unfold holds at h
  split at h
  · rename_i a ha; exact ⟨a, ha, of_decide_eq_true h⟩
  · cases h
def readsTemp : Instr := .iadd { f2 with a := ⟨.t 1, 0, false⟩ }
def checkedEarly : State := let s := (handled (mapped (one (encode (.iadd f2))))).onLaunch 1 fun l => { l with record := { l.record with chk := true } }
  { s with longs := [{ id := 9, fid := 1, hp := 0, owners := [1], word := 0, addr := 0x10000, dests := [.lanes 7 0 (BitVec.allOnes 64) (rowOf fun _ => 0)], accs := [] }] }
/-- A commitment of one row, which the word's own result outgrows. -/
def tight (i : Instr) : State := withVs ((handled (mapped (one (encode i)))).onLaunch 1 fun l => { l with record := { l.record with vmax := 2 } }) [(7, 1), (9, 2)]
def keeps : V2 := { f2 with b := ⟨.v 9, 0, false⟩ }
theorem witness_SharedChecks : (∃ a, ((one (encode (.iadd f2))).onParty 1 fun p => { p with em := 0 }).agent = .ok a ∧ a.p.active = 0 ∧ a.p.stopped = false) ∧
    (∃ a, (handled (mapped (one (encode readsTemp)))).agent = .ok a ∧ a.p.active ≠ 0 ∧ logsNow (handled (mapped (one (encode readsTemp)))) a.p a.l = true ∧ a.unset (usesOf a.l.record readsTemp) = true ∧ a.p.stopped = false ∧ a.l.record.handler ≠ 0 ∧ a.p.hnd = false ∧ a.c.idx < a.c.words.length) ∧
    (∃ a, checkedEarly.agent = .ok a ∧ a.p.active ≠ 0 ∧ logsNow checkedEarly a.p a.l = true ∧ a.unset (usesOf a.l.record (.iadd f2)) = false ∧ a.l.record.chk = true ∧ (checkedEarly.tooEarly a (usesOf a.l.record (.iadd f2))).isSome = true ∧ a.l.record.handler ≠ 0 ∧ a.c.idx < a.c.words.length) ∧
    (∀ i ∈ [Instr.iadd keeps, .isub keeps, .imul keeps], ∃ a, (tight i).agent = .ok a ∧ a.p.active ≠ 0 ∧ logsNow (tight i) a.p a.l = true ∧ a.unset (usesOf a.l.record i) = false ∧ a.l.record.chk = false ∧
      a.overcommits (usesOf a.l.record i) (resultWrites (.v 2) 1 true 0 (a.lanesFor (.v 2)) (laneResults (a.lanesFor (.v 2)) fun _ => res32 3)) = true ∧ a.p.stopped = false ∧ a.l.record.handler ≠ 0 ∧ a.p.hnd = false ∧ a.c.idx < a.c.words.length) := by
  refine ⟨holds_agent (fun _ => inferInstance) (by decide +kernel), holds_agent (fun _ => inferInstance) (by decide +kernel), holds_agent (fun _ => inferInstance) (by decide +kernel), fun i hi => ?_⟩
  have h : [Instr.iadd keeps, .isub keeps, .imul keeps].all (fun i => holds (tight i) fun a => decide (a.p.active ≠ 0 ∧ logsNow (tight i) a.p a.l = true ∧ a.unset (usesOf a.l.record i) = false ∧ a.l.record.chk = false ∧
      a.overcommits (usesOf a.l.record i) (resultWrites (.v 2) 1 true 0 (a.lanesFor (.v 2)) (laneResults (a.lanesFor (.v 2)) fun _ => res32 3)) = true ∧ a.p.stopped = false ∧ a.l.record.handler ≠ 0 ∧ a.p.hnd = false ∧ a.c.idx < a.c.words.length)) = true := by decide +kernel
  exact holds_agent (fun _ => inferInstance) (List.all_eq_true.1 h i hi)

/-! Events. A party stands before the block at 0x10000: a cairn of four words, two NOPs and an anchor. -/

def nopWord : Nat := 0x0100000000000000
def blocked (s : State) : State := withBytes (withBytes (withBytes (withBytes (mapped s) 0x10000 8 cairnWord) 0x10008 8 nopWord) 0x10010 8 nopWord) 0x10018 8 0xFF00000000000000
def standing (s : State) : State := s.onParty 1 fun p => { p with pitch := none, pc := 0x10000, entry := .block, met := true }
def arrived : State := standing (blocked (one []))
def noCairn : State := handled (standing (mapped (one [])))
/-- What the next pitch of the best party is: its words, or its trap. -/
def nextOf (s : State) : Option (List W64 ⊕ TrapCode) :=
  let t := s.arrivals.turnsCheck.noteReady 0
  match t.bestOf ((t.onCore 0).filter t.partyReady) with
  | none => none
  | some p => match t.forme? p.fid, t.home? p.fid p.hp with
    | some f, some h => match t.launch? f.lid with
      | some l => (match t.nextPitch p h f.core l with | .ok (fr, _) => if p.skip < fr.words.length ∧ p.pitch = none then some (.inl fr.words) else none | .error (.trap c _ _) => if l.record.handler ≠ 0 ∧ p.hnd = false ∧ p.stopped = false ∧ boundaryOnly c = false ∧ logsNow t p l = true then some (.inr c) else none | .error _ => none)
      | none => none
    | _, _ => none
theorem witness_IssueEvents : nextOf arrived = some (.inl [0x0100000000000000, 0x0100000000000000]) ∧ ((arrived.arrivals.turnsCheck.noteReady 0).issuing 0).length < 4 ∧ nextOf noCairn = some (.inr .badCairn) ∧ ((noCairn.arrivals.turnsCheck.noteReady 0).issuing 0).length < 4 := by decide +kernel
theorem witness_IssueEvents_promotion : (let s := { arrived.onParty 1 fun p => { p with readySince := some 10 } with clk := 4010 }; (s.party? 1).any (fun p => s.partyReady p && !p.promoted && decide (p.readySince = some 10) && decide (s.priority p = 7)) = true ∧ 10 + 4000 ≤ s.clk) := by decide +kernel
def dueTwo : State := noCairn.onParty 1 fun p => { p with pending := [{ code := .ropeTimeout, tinfo := some 5 }, { code := .poison, tinfo := none }] }
theorem witness_IssueEvents_boundary : ((dueTwo.arrivals.party? 1).any fun p => p.pitch.isNone && decide (p.wait = .none) && idle p.park && p.trap.isNone && (dueTwo.launch? 1).any (logsNow dueTwo.arrivals p) && dueTwo.arrivals.running p.fid && (p.takeable.map (·.code)) == some .poison && !p.hnd && !p.stopped) = true := by decide +kernel
def heldBranch (s : State) : State := s.onParty 1 fun p => { p with wait := .slot 0x10200 0x10010 0xFF (~~~0xFF) none }
theorem witness_IssueEvents_held : (((heldBranch (quotad arrived)).party? 1).any fun p => decide ((heldBranch (quotad arrived)).splitSlot p = some 1) && decide (0xFF ||| ~~~(0xFF : Mask) = p.active) && decide (0xFF &&& ~~~(0xFF : Mask) = 0)) = true ∧
    (((heldBranch arrived).party? 1).any fun p => decide ((heldBranch arrived).splitSlot p = none)) = true := by decide +kernel

def waitingFor (w : Wait) : State := arrived.onParty 1 fun p => { p with wait := w }
theorem witness_WaitEvents : ∀ w ∈ [Wait.reconv 15, .reconv 16, .sleep 0, .sleep 1], (waitingFor w).running 1 = true ∧ ((waitingFor w).party? 1).map (·.wait) = some w ∧ (waitingFor w).wall = 0 := by decide +kernel
def watched : State := (waitingFor (.rope 0 (some 0))).onForme 1 fun f => { f with ropes := [{ expect := 2, watch := some (0, 0), belay := 0 }] }
theorem witness_WaitEvents_belay : ((watched.forme? 1).any fun f => (f.ropes[0]?).any fun r => (r.deadline.any fun d => decide (d ≤ watched.wall)) && f.place = .placed) = true ∧ ((watched.party? 1).map (·.pending)) = some [] := by decide +kernel
/-- The counter at 0x1000, which holds 5, against a threshold that it meets and one that it does not. -/
def polled (th : W64) : State := withBytes (mapped (waitingFor (.counter 0x10000 0 0x1000 2 2 th 0))) 0x1000 8 5
def foundAt (s : State) (va : Nat) (n : Need) (l : Loc) : Bool := match s.sceneOf 1 with | some sc => (match s.findVa sc [] va n with | .at_ x => decide (x = l) | _ => false) | none => false
theorem found_at {s : State} {va : Nat} {n : Need} {l : Loc} (h : foundAt s va n l = true) : ∃ sc, s.sceneOf 1 = some sc ∧ s.findVa sc [] va n = .at_ l := by
  unfold foundAt at h
  split at h
  · rename_i sc hs
    split at h
    · rename_i x hx; exact ⟨sc, hs, by rw [hx, of_decide_eq_true h]⟩
    · cases h
  · cases h
theorem witness_WaitEvents_counter : ∀ th ∈ [(5 : W64), 6], (∃ sc, (polled th).sceneOf 1 = some sc ∧ (polled th).findVa sc [] 0x1000 .r = .at_ (.pa 0x1000)) ∧ (polled th).Quiet ∧ (polled th).plainAt (.pa 0x1000) 8 ∧ (polled th).running 1 = true ∧
    ((polled th).party? 1).map (·.park) = some [] := by
  have h : [(5 : W64), 6].all (fun th => foundAt (polled th) 0x1000 .r (.pa 0x1000) && quietNow (polled th) && plainNow (polled th) (.pa 0x1000) 8 && decide ((polled th).running 1 = true) && decide (((polled th).party? 1).map (·.park) = some [])) = true := by decide +kernel
  intro th ht
  have := List.all_eq_true.1 h th ht
  simp only [Bool.and_eq_true, decide_eq_true_eq] at this
  exact ⟨found_at this.1.1.1.1, quiet_now this.1.1.1.2, plain_now this.1.1.2, this.1.2, this.2⟩

/-! Operations in flight. -/

def sheet1 : Sheet := { at_ := 0x6000, body := 0x100000, rows := 48, cols := 120, pitch := 256, fmt := 2, slot := 1 }
def product1 (kd : Nat) (pl : Option Nat) : Work := .product { tile := 1, a := [sheet1], b := [sheet1], arow := 0, brow := 0, k0 := 0, m := 1, n := 1, kd := kd, zero := true, platen := pl, sited := true }
def op (id queue site : Nat) (w : Work) (ph : Phase_) : Op := { touching with id := id, seq := id, queue := queue, site := site, work := w, phase := ph }
def base0 : State := { mapped (tiled (one [])) with ops := [] }
def withOps (l : List Op) : State := { base0 with ops := l }
theorem witness_PressEvents :
    (let s := withOps [op 100 0 0 (product1 40 none) .queued]
     s.serves (.pressPair 0) = true ∧ (s.pressHead 0).map (·.id) = some 100 ∧ s.pressHead 1 = none ∧ (s.op? 100).any (fun o => s.opPlaced o && s.opReady o && decide (({ s with pressTurn := [0] }.opReach o |>.opCorrect o).opFault o = none)) = true) ∧
    (let s := withOps [op 100 0 0 (product1 40 none) .queued, op 101 0 1 (.clear 2 0) .queued]
     s.serves (.pressPair 0) = true ∧ (s.pressHead 0).map (·.id) = some 100 ∧ (s.pressHead 1).map (·.id) = some 101 ∧ s.ops.all (fun o => s.opPlaced o && s.opReady o) = true ∧ s.pressTurn = []) ∧
    (let s := withOps [op 100 0 0 (product1 32 (some 0)) .queued]
     s.serves (.platen 0) = true ∧ (s.op? 100).any (fun o => s.opPlaced o && s.opReady o) = true ∧ s.ops.all (fun x => decide (x.unsited = none) && decide (x.phase ≠ .running)) = true ∧ s.foldsOn none = [] ∧
       (match s.platenHead 0 with | some (.inl o) => decide (o.id = 100) | _ => false) = true ∧ (s.op? 100).any (fun o => decide ((s.opReach o |>.opCorrect o).opFault o = none)) = true) ∧
    (∀ k ∈ [0, 1], let s := withOps [{ op 100 0 0 (product1 40 none) .running with step := k }]; (s.op? 100).any (fun o => s.opPlaced o && !s.unitTaken o && !o.atStop && (s.opMissing o.rest).isEmpty && decide (s.opFault o.rest = none) && decide (o.steps = 2)) = true) ∧
    (let s := { withOps [op 100 0 0 (product1 40 none) .queued] with tlb := [{ ctx := 0, page := 0, size := 2 ^ 30, pa := 0, r := false, w := true, x := true }] }
     (s.op? 100).any (fun o => s.opPlaced o && s.opFree o && (s.opFault o.rest).any (fun x => !s.opStopped o x.1)) = true ∧ canonicalNow s = true) ∧
    (let s := withOps [op 100 1 0 (.fill 0x2000 16 5) .spilt]
     ((s.ops.filter fun x => x.queue = 1 && x.site = 0 && !(s.forme? x.fid).any (·.place = .saved)).filter fun x => x.phase = .queued).length < queueCap 1 ∧
       ((s.ops.filter fun x => x.queue = 1 && x.site = 0 && !(s.forme? x.fid).any (·.place = .saved)).find? fun x => x.phase = .spilt).map (·.id) = some 100) ∧
    (let s := { base0 with launches := base0.launches ++ [({ lid := 9, ctx := 0, record := {}, block := {}, parent := some 1, spilt := some 0, sub := some (0, 7) } : Launch)] }
     s.launchesOn 0 < 256 ∧ s.spiltLaunch 0 = some 7 ∧ (s.launch? 9).map (fun (l : Launch) => l.sub) = some (some (0, 7))) := by decide +kernel

def sess : Session := { handle := 77, peer := 1, tenant := 0, regions := [], key := [], next := 5 }
theorem witness_EngineEvents :
    (∀ w ∈ [Work.fill 0x2000 16 5, .cpy 0x3000 0x2000 16, .scrub 0x2000 128 0x8000 true], let s := withOps [op 100 1 0 w .queued]
      (s.op? 100).any (fun o => o.isCommand && s.opPlaced o && s.opFree o && (s.opMissing o).isEmpty && decide (s.cmdFault o = none) && decide (((s.opReach o).opCorrect o).opFault o = none)) = true) ∧
    (let s := { withOps [op 100 3 0 (.seal 0x1000 77 []) .queued] with sessions := [sess] }
     (s.op? 100).any (fun o => o.isCommand && s.opPlaced o && s.opFree o && (s.opMissing o).isEmpty && decide (s.cmdFault o = none)) = true) ∧
    (let s := withOps [op 100 3 0 (.ndt 0x1000 (List.replicate 256 0)) .queued]
     (s.op? 100).any (fun o => o.isCommand && s.opPlaced o && s.opFree o && (s.opMissing o).isEmpty && decide (s.cmdFault o = none) && (s.sceneOf o.fid).isSome) = true) ∧
    (let s := withOps [op 100 1 0 (.fill 0x2000 16 5) .running]
     (s.op? 100).any (fun o => o.isCommand && s.opPlaced o && (s.opMissing o).isEmpty && decide (s.cmdFault o = none)) = true) ∧
    (let s := withOps [op 100 3 0 (.seal 0x1000 78 []) .queued]
     (s.op? 100).any (fun o => o.isCommand && s.opPlaced o && s.opFree o && (s.cmdFault o).any (fun x => !s.opStopped o x.1)) = true) ∧
    (let s := withOps [op 100 3 0 (.ndt 0x1000 []) .running]
     (s.op? 100).any (fun o => decide (o.phase = .running ∧ s.cmdFault o = none)) = true) := by decide +kernel
/-- A FILL of 8 bytes, and a CPY of 16 bytes that do not overlap. -/
theorem witness_EngineEvents_effect : (∃ sc, base0.sceneOf 1 = some sc ∧ base0.findVa sc [] 0x2000 .none = .at_ (.pa 0x2000)) ∧ (∃ sc, base0.sceneOf 1 = some sc ∧ base0.findVa sc [] 0x3000 .none = .at_ (.pa 0x3000)) ∧
    base0.plainAt (.pa 0x2000) 16 ∧ base0.past = [] ∧ base0.dvsec.viral = false ∧ base0.Canonical ∧ granuleOf (0x2000 + 16 - 1) = granuleOf 0x2000 ∧ granuleOf (0x3000 + 16 - 1) = granuleOf 0x3000 :=
  ⟨found_at (by decide +kernel), found_at (by decide +kernel), plain_now (by decide +kernel), by decide +kernel, by decide +kernel, canonical_now (by decide +kernel), by decide +kernel, by decide +kernel⟩

def flit (n : Nat) : Flit := { step := n, sub := 1, ty := .i32, rm := .rne, routed := false, parts := [{ rank := 1, lane := 0, off := 0, elem := [1, 0, 0, 0] }] }
def stepping (x : Step) : State := { grouped base0 with homes := (grouped base0).homes.map fun h => { h with steps := [x] } }
theorem witness_CollectiveEvents :
    (let s := grouped base0; (s.home? 1 0).any (fun h => decide (h.groupAt 1 = some pair) && decide (h.step? 1 1 = none)) = true ∧ (s.stagedOn 0 + sumBy (fun c : Contribution => c.elem.length) (flit 1).parts ≤ 2 ^ 24) ∧ (∀ k ∈ s.homes, ∀ y ∈ k.steps, y.spilt = 0)) ∧
    (∀ m ∈ [[], [0], [0, 1]], let s := stepping { bind := 1, n := 1, marks := m, issued := true, closed := true }
      (s.home? 1 0).any (fun h => decide (h.groupAt 1 = some pair) && (h.step? 1 1).any fun x => x.marks = m && x.failed.isNone && x.closed && !x.received) = true ∧ s.ops = []) ∧
    (let s := { grouped base0 with ops := [op 100 4 0 (.bind { pair with bind := 2 }) .queued] }
     (s.op? 100).any (fun o => s.opPlaced o && (s.openSteps o.fid o.hp).all (fun e => decide (o.seq ≤ e.seq)) && (s.home? o.fid o.hp).isSome && s.parties.any fun p => p.fid = o.fid) = true) ∧
    (let s := { stepping { bind := 1, n := 1, issued := true } with ops := [op 100 4 0 (.coll pair 1 1 .i32 .rne false [(0, 0, 1)]) .queued] }
     (s.op? 100).any (fun o => s.opPlaced o && (s.openSteps o.fid o.hp).all (fun e => decide (o.seq ≤ e.seq)) && s.opFree o && (s.opMissing o).isEmpty && decide ((s.opCorrect o).opFault o = none)) = true) ∧
    (State.reset.ports[7]?).any (fun p => p.up && !p.retraining && decide (p.width = 16)) = true ∧
    (({ retraining := true, retry := [(1, 0, 1, 1)] } : Port).retraining = true) ∧ ((grouped base0).home? 1 0).any (fun h => (h.groupAt 1).isSome) = true := by decide +kernel

/-- A step whose markers are awaited for 100 ms and more. -/
theorem witness_CollectiveEvents_timeout : (let s : State := { stepping { bind := 1, n := 1, issued := true, closed := true, markedAt := some 0 } with wall := 10 ^ 14 }
    (s.home? 1 0).any (fun h => (h.step? 1 1).any fun x => x.closed && !x.received && x.folding.isNone && decide (x.markedAt = some 0) && decide (0 + 10 ^ 14 ≤ s.wall)) = true) := by decide +kernel

theorem witness_ExactReductions : storeWf (0 : W32) ([] : Tile) = true ∧ (let qs : List Rat2 := [⟨false, 1, 1, 0⟩, ⟨false, 1, 1, 3⟩]; (∀ q ∈ qs, q.isZero = false) ∧ qs ≠ [] ∧ (∀ q ∈ qs, q.log2 ≤ 3) ∧ ∃ q ∈ qs, q.log2 = 3) := by decide +kernel

/-! Results, walks and translations. -/

def late (d : List Dest) (accs : List (Nat × Nat × Nat × Nat)) : State := { withV base0 7 (fun _ => 0) with longs := [{ id := 50, fid := 1, hp := 0, owners := [1], word := 0, addr := 0x10000, dests := d, accs := accs }] }
theorem witness_MemoryEvents :
    (∀ d ∈ [Dest.sreg 5 9, .wreg 3 {}, .lanes 7 0 0xF (rowOf fun _ => 1)], let s := late [d] []
      (s.longs.find? fun y => y.id = 50).any (fun x => x.owners = [1] && decide (x.dests = [d])) = true ∧ s.accepting = [] ∧ (s.party? 1).isSome = true ∧ ((s.home? 1 0).bind fun h => h.row? 7 0).isSome = true) ∧
    (let s := { late [.lanes 7 0 0xF (rowOf fun _ => 1)] [(2, 0, 0x5000, 0x5000)] with poison := [0x5000 / 32] }
     (s.longs.find? fun y => y.id = 50).any (fun x => decide (x.accs.find? (fun y => y.1 = 2 && y.2.1 = 0) = some (2, 0, 0x5000, 0x5000))) = true ∧ s.failsNow 1 0x5000 .poison = true) ∧
    (let s := { waitingFor .isync with iinvs := [{ id := 60, pids := [1], core := 0, scope := .dev, lines := [0x10000] }] }
     (s.iinvs.find? fun y => y.id = 60).isSome = true ∧ ((s.party? 1).map (·.wait)) = some .isync ∧ ∀ y ∈ s.iinvs, 1 ∈ y.pids → y.id = 60) ∧
    (let s := base0.onForme 1 fun f => { f with counted := 32 }; (s.forme? 1).any (fun f => decide (32 * (f.rc + 1) ≤ f.counted)) = true) ∧
    (let s := base0.onPart 15 fun x => { x with records := 4096 }; 15 < s.parts.length ∧ 4096 ≤ (s.part 15).records) := by decide +kernel

def walking (asked : Bool) (tries : Nat) : State := { base0 with tlb := [], frames := [(4, some 0)], walks := [{ ctx := 0, granule := 0x10000, need := .x, asked := asked, tries := tries }] }
theorem witness_TranslationEvents :
    (∀ t ∈ [0, 3], let s := walking false t
      (s.walks.filter fun w => w.ctx = 0 && w.granule = granuleOf 0x10008 && !w.asked) ≠ [] ∧ (∀ w ∈ s.walks, w.stale = [] ∧ w.tries < 4) ∧ (s.ctx 0).priOff = false ∧ s.pageAllowed (s.ctx 0).tenant (0x40000 / 2 ^ 16 * 2 ^ 16) (2 ^ 16) = true) ∧
    (let s : State := { walking true 0 with walks := (walking true 0).walks ++ [{ ctx := 0, granule := 0x20000, need := .x, asked := true }] };
      (s.walks.filter fun w => w.ctx = 0 && w.granule = granuleOf 0x10008 && w.asked) ≠ [] ∧ (s.walks.any fun w => w.granule ≠ granuleOf 0x10008 && w.asked && !w.again && s.walks.any fun x => x.granule = granuleOf 0x10008 && x.parking = w.parking) = true) ∧
    (let s := walking true 0; (s.walks.filter fun w => w.ctx = 0 && w.granule = granuleOf 0x10008 && w.asked) ≠ [] ∧ 0 < s.ctxs.length) ∧
    ((waitingFor .none).party? 1).isSome = true ∧ (waitingFor .none).spaceCtx 1 = some 0 := by decide +kernel

/-! Placement. Launch 9 has a forme to place; partition 0 runs context 0. -/

def rec9 : LRec := { entry := 0x10000, lanes := 8, vmax := 4, parties := 2, args := [7], prio := 5, latbound := 100 }
def launch9 : Launch := { lid := 9, ctx := 0, record := rec9, block := { total := 1 }, prio := 5 }
def placing : State := { quotad base0 with launches := base0.launches ++ [launch9], nextId := 20 }
/-- No core has a slot left but by the going of launch 1's forme, which is of lower priority. -/
def noRoom : State := { placing.onPart 0 (fun x => { x with quota0 := { ample with pslot := 2, cores := 1 }, quota1 := {} }) with launches := (base0.onLaunch 1 fun l => { l with prio := 2 }).launches ++ [launch9] }
def savedForme : State := { placing with formes := placing.formes ++ [{ fid := 30, lid := 9, index := 0, core := 0, place := .saved, flags := 0, key := 0, ropes := [] }], launches := base0.launches ++ [{ launch9 with next := 1 }] }
def twoCtxs : State := { placing.onCtx 1 (fun c => { c with part := some 0 }) with launches := (placing.launches.map fun l => if l.lid = 9 then { l with ctx := 1 } else l), vfEnable := true }
theorem witness_PlacementEvents :
    (placing.pendingForme launch9 = true ∧ placing.places 0 0 = true ∧ placing.partOf 9 = 0 ∧ placing.dvsec.viral = false ∧ placing.fitsCore 0 0 launch9 = true ∧ placing.fitsOn 0 0 rec9 (placing.nextLive launch9) (fun _ => false) = true ∧
      placing.heldBack 0 launch9 = false ∧ placing.savedOf 9 = none ∧ placing.launch? 9 = some launch9) ∧
    (let l := { launch9 with next := 1 }; savedForme.launch? 9 = some l ∧ savedForme.pendingForme l = true ∧ savedForme.fitsCore 0 0 l = true ∧ savedForme.heldBack 0 l = false ∧ (savedForme.savedOf 9).map (·.fid) = some 30 ∧ (savedForme.forme? 30).map (·.fid) = some 30) ∧
    (noRoom.launch? 9 = some launch9 ∧ noRoom.pendingForme launch9 = true ∧ noRoom.places 0 0 = true ∧ noRoom.fitsAny 0 launch9 = false ∧ launch9.record.latbound ≠ 0 ∧ 0 + 100 * 10 ^ 9 < 2 * 10 ^ 12 ∧ (noRoom.enough 0 launch9 (noRoom.victims 0 launch9)).map (·.map (·.fid)) = some [1]) ∧
    (∀ h ∈ [false, true], ∀ m ∈ [Method.save, .drain], let x : Leave := { how := m, halt := h }; let s := arrived.onForme 1 fun f => { f with leave := some x };
      (s.forme? 1).any (fun f => s.atRest f x) = true ∧ x.how ≠ .flush ∧ ∃ p ∈ s.parties, p.fid = 1) ∧
    (let s := twoCtxs.onCtx 0 fun c => { c with slice := 1000 }; (s.part 0).running = some 0 ∧ (s.part 0).halting = false ∧ (s.ctx 0).slice ≠ 0 ∧ (s.part 0).sliceAt + (s.ctx 0).slice * 10 ^ 9 ≤ 10 ^ 12 ∧ (s.nextCtx 0 (some 0)).isSome = true) ∧
    (let s := (twoCtxs.onPart 0 fun p => { p with halting := true }).onForme 1 fun f => { f with place := .halted }; (s.part 0).running = some 0 ∧ (s.part 0).halting = true ∧ s.onCores 0 = [] ∧ s.nextCtx 0 (some 0) = some 1) := by decide +kernel

/-! Queues: slot 3 of the PF, its ring of 16 packets at 0x40000. -/

def queue3 : Queue := { ctx := 0, slot := 3, en := true, db := 5, ring := 0x40000, logn := 4, prio := 7 }
def queued (q : Queue) : State := { quotad base0 with queues := [q] }
def got {α : Type} (r : Fetched) (f : List Byte → α) : Option α := match r with | .ok bs => some (f bs) | _ => none
/-- A queue at the turn of a packet with these bytes. -/
def turning (k : Byte) (fields : List (Nat × Nat × Nat)) (st : PkState := .fetched) (l : List Nat := []) : State := queued { queue3 with parse := 2, fetch := 3, packets := [{ idx := 2, bytes := packet k fields, state := st, latched := l }] }
theorem witness_QueueEvents :
    ((queued queue3).queue? 0 3 = some queue3 ∧ queue3.en = true ∧ (queued queue3).dvsec.ready = true ∧ queue3.db ≤ 5 ∧ 16 ≤ queue3.readIndex + 2 ^ queue3.logn ∧ 4 < queue3.db ∧ queue3.readIndex + 2 ^ queue3.logn < 17) ∧
    (queue3.fetch < queue3.db ∧ queue3.fetch < queue3.parse + 64 ∧ (∀ x ∈ queue3.packets, x.idx < queue3.fetch) ∧
      (let s := withBytes (queued queue3) 0x40000 1 1; got (s.fetchVa (s.ctxScene 0) [] 0x40000 256) (fun bs => (packetBad bs, packetField bs 0 1, packetField bs 1 1)) = some (none, 1, 0)) ∧
      (let s := { queued queue3 with tlb := [] }; (match s.fetchVa (s.ctxScene 0) [] 0x40000 256 with | .missing m => !m.isEmpty | _ => false) = true)) ∧
    (∀ k ∈ [(1 : Byte), 6], ((turning k []).turnOf 0 3 k.toNat).isSome = true) ∧
    (∀ st ∈ [PkState.fetched, .parsing], ∀ c ∈ [4, 5, 6], let s := withBytes (turning 5 [(0x10, 1, 1), (0x40, 8, 0x1000 + 2 ^ 61 * 2), (0x48, 8, c)] st) 0x1000 8 5;
      (s.turnOf 0 3 5).any (fun x => x.2.state = st && decide (x.2.latched = []) && decide (packetField x.2.bytes 0x10 1 = 1) && (got (s.fetchVa (s.ctxScene 0) [] (fenceEntry x.2.bytes 0).1 8) (fun b => compare (fenceEntry x.2.bytes 0).2.1 (BitVec.ofNat 64 (natOfBytes b)) (fenceEntry x.2.bytes 0).2.2)) == some (decide (c ≤ 5))) = true) ∧
    (let s := { turning 5 [(0x10, 1, 1), (0x40, 8, 0x1000)] with tlb := [{ ctx := 0, page := 0, size := 2 ^ 30, pa := 0, r := false, w := true, x := true }] };
      (s.turnOf 0 3 5).isSome = true ∧ (match s.fetchVa (s.ctxScene 0) [] 0x1000 8 with | .failed _ => true | _ => false) = true) := by decide +kernel
/-- Launch, graph and job packets with sound records, and with one that is misaligned, one that is rejected and one that cannot be read. -/
theorem witness_QueueEvents_work :
    (let s := recordAt (turning 2 [(0x10, 8, 0x4000)]) 0x4000; (s.turnOf 0 3 2).isSome = true ∧ (match s.readRecord (s.ctxScene 0) [] 0x4000 with | .ok _ => true | _ => false) = true) ∧
    (let s := turning 2 [(0x10, 8, 0x4080)]; (s.turnOf 0 3 2).isSome = true ∧ s.readRecord (s.ctxScene 0) [] 0x4080 = .misaligned) ∧
    (let s := turning 2 [(0x10, 8, 0x4000)]; (s.turnOf 0 3 2).isSome = true ∧ s.readRecord (s.ctxScene 0) [] 0x4000 = .rejected 0 0) ∧
    (let s := withBytes (withBytes (withBytes (turning 3 [(0x10, 8, 0x4000)]) 0x4000 8 0x4800) 0x4008 2 1) 0x4010 8 0x5000;
      (s.turnOf 0 3 3).isSome = true ∧ (match s.readGraph (s.ctxScene 0) [] 0x4000 with | .ok _ ns => decide (ns.length = 1) | _ => false) = true) ∧
    (let s := turning 3 [(0x10, 8, 0x4000)]; (s.turnOf 0 3 3).isSome = true ∧ s.readGraph (s.ctxScene 0) [] 0x4000 = .bad 0 0 6 ∧ s.readGraph (s.ctxScene 0) [] 0x4020 = .unreadable) ∧
    (let s := withBytes (withBytes (withBytes (withBytes (turning 4 [(0x10, 8, 0x4000)]) 0x4000 8 0x4800) 0x4008 4 1) 0x4010 8 0x5000) 0x4800 8 0x4900;
      (s.turnOf 0 3 4).isSome = true ∧ got (s.fetchVa (s.ctxScene 0) [] 0x4000 64) (fun bs => (packetField bs 0x0C 4, zeroFrom bs 0x18 40, packetField bs 0 8 % 32, packetField bs 0x10 8 % 32, packetField bs 8 4)) = some (0, true, 0, 0, 1) ∧
        got (s.fetchVa (s.ctxScene 0) [] 0x4800 32) (fun bs => (phaseEntry ((bs.drop 0).take 32)).2) = some true) := by decide +kernel
theorem witness_QueueEvents_status : base0.plainAt (.pa 0x5000) 8 ∧ base0.dvsec.viral = false ∧ base0.Canonical := ⟨plain_now (by decide +kernel), by decide +kernel, canonical_now (by decide +kernel)⟩

def graphing (rec : Nat) : State := { recordAt (quotad base0) 0x4000 with graphs := [{ gid := 40, ctx := 0, block := { total := 1 }, nodes := [{ record := rec, deps := [] }] }] }
theorem witness_GraphsAndJobs_nodes : ∀ r ∈ [0, 0x4000, 0x4080, 0x4100], ((graphing r).graph? 40).any (fun g => g.ready 0 && decide (g.block.status = 0) && (g.nodes[0]?).any fun n => n.record = r) = true := by decide +kernel
theorem witness_GraphsAndJobs_records : (match (graphing 0x4000).readRecord ((graphing 0x4000).ctxScene 0) [] 0x4000 with | .ok _ => true | _ => false) = true ∧ (graphing 0x4080).readRecord ((graphing 0x4080).ctxScene 0) [] 0x4080 = .misaligned ∧
    (graphing 0x4100).readRecord ((graphing 0x4100).ctxScene 0) [] 0x4100 = .rejected 0 0 := by decide +kernel
/-- A job in its last phase or the one before, its graphs complete or withdrawn. -/
def jobbing (comm : Nat) (begun : Bool) (phases : Nat) (st : Nat) : State :=
  { withBytes (withBytes (withBytes (quotad base0) 0x6000 8 0x6800) 0x6008 2 1) 0x6010 8 0x5000 with
    nextId := 60,
    graphs := [{ gid := 50, ctx := 0, block := { total := 1, done := 1, status := st }, nodes := [{ record := 0, deps := [], status := st }], jid := some 8 }],
    jobs := [{ jid := 8, ctx := 0, block := { total := phases }, phases := List.replicate phases { comp := 0x6000, comm := comm, block := {}, compG := some 50, compBegun := true, commBegun := begun } }] }
theorem witness_GraphsAndJobs : (∀ c ∈ [0, 0x6000], ((jobbing c false 1 1).job? 8).any (fun j => (j.phases[j.cur]?).any fun p => decide (j.block.status = 0) && !p.ended && !p.commBegun && p.compBegun && (jobbing c false 1 1).graphsQuiet [p.compG]) = true) ∧
    (match (jobbing 0x6000 false 1 1).readGraph ((jobbing 0x6000 false 1 1).ctxScene 0) [] 0x6000 with | .ok _ _ => true | _ => false) = true ∧
    (∀ x ∈ [(2, 1), (1, 1), (2, 3)], ((jobbing 0 true x.1 x.2).job? 8).any (fun j => (j.phases[j.cur]?).any fun p => p.commBegun && (jobbing 0 true x.1 x.2).graphsQuiet [p.compG, p.commG] && (jobbing 0 true x.1 x.2).jobQuiet 8 && ((jobbing 0 true x.1 x.2).carriedBad j).isEmpty && !j.failed && decide (((jobbing 0 true x.1 x.2).phaseBlock j p).status = x.2) &&
      decide (j.block.stop = 0 ∧ j.block.wdr = 0)) = true) := by decide +kernel

def descAt (logn : Nat) : State := withBytes (withBytes (withBytes (queued { queue3 with en := false, qdesc := 0x7000 }) 0x7000 8 0x40000) 0x7008 1 logn) 0x7009 1 7
theorem witness_QueueControl : (∀ n ∈ [4, 16, 3, 17], slotOk 0 3 = true ∧ ((descAt n).queue? 0 3).any (fun q => !q.en && !q.killing && q.qdesc.toNat % 64 = 0) = true ∧ ((descAt n).ctx 0).part.isSome = true ∧
      got ((descAt n).fetchVa ((descAt n).ctxScene 0) [] 0x7000 64) descSound = some (decide (4 ≤ n ∧ n ≤ 16))) ∧
    (slotOk 0 63 = true ∧ slotOk 63 7 = true ∧ slotOk 1 8 = false ∧ slotOk 64 0 = false) ∧
    ((queued queue3).queue? 0 3 = some queue3 ∧ queue3.killing = false ∧ (queued queue3).queueBusy 0 3 = false) ∧ 15 < (queued queue3).parts.length := by decide +kernel

/-! The mailbox. -/

def freeMb (s : State) (used : Nat) : Bool := s.mailbox.done && s.dvsec.ready && (s.mailbox.args.drop used).all fun v => v = 0
theorem free_mb {s : State} {n : Nat} (h : freeMb s n = true) : s.mbFree n := by
  simp only [freeMb, Bool.and_eq_true, List.all_eq_true, decide_eq_true_eq] at h
  exact ⟨h.1.1, h.1.2, h.2⟩
/-- A device with the PF's context bound to partition 0, frames 4 to 6 of tenant 9, and the mailbox's arguments. -/
def asked (l : List W64) : State := { (commanded l).onCtx 0 (fun c => { c with part := some 0, tenant := 9 }) with frames := [(4, some 9), (5, some 9), (6, some 9)], tlb := (mapped State.reset).tlb }
def overArgs : State := asked [0, 0, 0, 0, 0, 0, 0, 1]
theorem witness_MailboxRules : (mailboxCommands.all fun x => x.2.1 ≠ 99 && (x.2.2 = 8 || (overArgs.mailbox.args.drop x.2.2).any fun v => v ≠ 0)) = true := by decide +kernel
theorem witness_MailboxRules_state : (State.reset.mailbox.done = true ∧ State.reset.dvsec.ready = false) ∧ overArgs.mailbox.done = true ∧ overArgs.dvsec.ready = true ∧ (0x10F : W64).toNat % 256 = 15 ∧ (mailboxCommands.any fun x => x.2.1 = 15) = true ∧ (0x100 : W64).toNat % 256 = 0 ∧ 15 < (16 : W64).toNat % 256 ∧ (let m := { overArgs.mailbox with done := false, cmd := 1 }; m.done = false ∧ m.wait = []) := by decide +kernel

/-- PSLOT 4, ROWS 100 on core 0; and PSLOT 128, the most that a quota may name, beside another partition's quota. -/
def partArgs (pslot : Nat) : List W64 := [2, BitVec.ofNat 64 (2 ^ 48 + pslot * 2 ^ 40 + 100 * 2 ^ 27), 0, 0x100000, 0x20000, 0x20000, 0x200000, 0x10000]
def partQuota (s : State) : Quota := { quotaOf (s.mbArg 1) (s.mbArg 2) with ring := s.mbArg 3, ringBytes := s.mbArg 4, ringQuota := s.mbArg 5, save := s.mbArg 6, saveBytes := s.mbArg 7 }
def partOk (s : State) : Bool := freeMb s 8 && decide (s.mbArg 0 = bits (s.mbArg 0) 0 4 + 2 ^ 8 * bits (s.mbArg 0) 8 1) && decide (bits (s.mbArg 0) 8 1 < s.fit.dies) && quotaSound (s.mbArg 1) (s.mbArg 2) &&
  decide (s.mbArg 3 % 2 ^ 16 = 0 ∧ s.mbArg 4 % 2 ^ 16 = 0 ∧ s.mbArg 5 ≤ s.mbArg 4 ∧ s.mbArg 6 % 2 ^ 16 = 0) && s.deviceRange (s.mbArg 3) (s.mbArg 4) && s.deviceRange (s.mbArg 6) (s.mbArg 7)
/-- Argument sets that meet the conditions of PART_SET: within the quotas, over another partition's, and below what the partition's formes hold. -/
theorem witness_MailboxPartitions_set : (partOk (asked (partArgs 4)) = true ∧ (asked (partArgs 4)).overQuota 2 0 (partQuota (asked (partArgs 4))) = false ∧ (asked (partArgs 4)).shrinks 2 0 (partQuota (asked (partArgs 4))) = false) ∧
    (partOk (quotad (asked (partArgs 128))) = true ∧ (quotad (asked (partArgs 128))).overQuota 2 0 (partQuota (quotad (asked (partArgs 128)))) = true) := by decide +kernel
def held2 : State := { base0.onCtx 0 (fun c => { c with part := some 2 }) with mailbox := (asked (partArgs 0)).mailbox }
theorem witness_MailboxPartitions_shrink : partOk held2 = true ∧ held2.overQuota 2 0 (partQuota held2) = false ∧ held2.shrinks 2 0 (partQuota held2) = true := by decide +kernel
theorem witness_MailboxPartitions : (let s := asked [0x200, 9, 3, 1000, 65535, 0x1000, 0x2000]; s.mbFree 7 ∧ s.mbArg 0 = bits (s.mbArg 0) 0 6 + 2 ^ 8 * bits (s.mbArg 0) 8 4 ∧ s.mbArg 4 ≤ 65535 ∧ 8192 ≤ s.mbArg 6 ∧ s.vfOff 0 = false ∧ s.ctxBusy 0 = false) ∧
    ((queued queue3).ctxBusy 0 = true ∧ (queued queue3).vfOff 0 = false) ∧ (let s := asked [0]; s.mbFree 1 ∧ s.vfOff (s.mbArg 0) = false ∧ s.ctxBusy 0 = false ∧ 0 < s.ctxs.length) ∧
    (let s := asked [0x70000, 2, 9]; s.mbFree 3 ∧ s.mbArg 0 % 2 ^ 16 = 0 ∧ s.ownMem (s.mbArg 0 + s.mbArg 1 * 2 ^ 16 - 1) = true ∧ (∀ k < 2, s.frameOwner (s.mbArg 0 + k * 2 ^ 16) = none)) ∧
    (let s := asked [0x60000, 2, 9]; s.mbFree 3 ∧ s.frameOwner 0x60000 ≠ none) ∧
    (let s := asked [0x40000, 3]; s.mbFree 2 ∧ (∀ k < 3, s.frameOwner (s.mbArg 0 + k * 2 ^ 16) = some (some 9)) ∧ s.moves = []) ∧ (let s := asked [0x70000, 1]; s.mbFree 2 ∧ s.frameOwner 0x70000 = none) ∧
    (let s := { base0 with mailbox := (asked [0, 0, 0]).mailbox }; s.mbFree 3 ∧ s.vfOff 0 = false ∧ ∃ f ∈ s.formes, f.place = .placed ∧ (s.launch? f.lid).any (fun l => l.ctx = 0) = true) ∧ (let s := asked [0, 0, 0]; s.mbFree 3 ∧ s.formes = []) ∧
    (let s := { queued queue3 with mailbox := (asked [0x300]).mailbox }; s.mbFree 1 ∧ s.mbArg 0 = 0 + 2 ^ 8 * 3 ∧ slotOk 0 3 = true ∧ s.queueBusy 0 3 = false ∧ (s.queue? 0 3).map (·.killing) = some false) ∧
    (let s := asked [15, 16]; s.mbFree 2 ∧ s.mbArg 0 < s.parts.length ∧ s.mbArg 1 ≤ 16) := by
  refine ⟨⟨free_mb ?_, ?_⟩, ?_, ⟨free_mb ?_, ?_⟩, ⟨free_mb ?_, ?_⟩, ⟨free_mb ?_, ?_⟩, ⟨free_mb ?_, ?_⟩, ⟨free_mb ?_, ?_⟩, ⟨free_mb ?_, ?_⟩, ⟨free_mb ?_, ?_⟩, ⟨free_mb ?_, ?_⟩, ⟨free_mb ?_, ?_⟩⟩ <;> decide +kernel

/-- An M1 with a signer for tenant 9 and a template of it. Whether a signature or a certificate verifies is a value of Config that nothing decides: each
clause about one has its counterpart about the other. -/
def m1 (l : List W64) : State := { asked l with fit := .m1, signers := [(9, [1, 2, 3])], templates := [{ digest := memGetN [] 0 32, image := [], tenants := [9] }] }
theorem witness_MailboxSessions : (∀ x ∈ [(0 : W64), 0x5000], (m1 [9, x]).mbFree 2 ∧ (m1 [9, x]).fit = .m1 ∧ (m1 [9, x]).mbArg 0 < 2 ^ 32) ∧
    (got ((m1 [9, 0x5000]).fetchVa ((m1 [9, 0x5000]).ctxScene 0) [] 0x5000 1952) (·.length) = some 1952 ∧ got ((m1 [9, 0x5000]).fetchVa ((m1 [9, 0x5000]).ctxScene 0) [] 0x5000 32) (fun d => (m1 []).templates.any fun x => x.digest = d) = some true ∧
      got ((withBytes (m1 [9, 0x5000]) 0x5000 1 7).fetchVa ((m1 [9, 0x5000]).ctxScene 0) [] 0x5000 32) (fun d => (m1 []).templates.any fun x => x.digest = d) = some false) ∧
    ((m1 [9, 0x100]).mbArg 1 = bits ((m1 [9, 0x100]).mbArg 1) 0 6 + 2 ^ 8 ∧ (m1 []).vfOff 0 = false ∧ ((m1 []).ctx 0).part.isSome = true ∧ ((m1 []).ctx 0).tenant = 9) ∧
    ((m1 [9, 0x5000, 256, 0x6000, 0x8000]).mbFree 5 ∧ (m1 [9, 0x5000, 256, 0x6000, 0x8000]).signer? 9 = some [1, 2, 3] ∧ (m1 [8, 0x5000, 0x100000, 0x6000, 0x8000]).mbFree 5 ∧ (m1 []).signer? 8 = none ∧
      (m1 []).translateRange (.ctx 0) [] 0x8000 32 .w = .ok) := by
  refine ⟨fun x hx => ?_, by decide +kernel, by decide +kernel, free_mb (by decide +kernel), by decide +kernel, free_mb (by decide +kernel), by decide +kernel, by decide +kernel⟩
  have h : [(0 : W64), 0x5000].all (fun x => freeMb (m1 [9, x]) 2 && decide ((m1 [9, x]).fit = .m1 ∧ (m1 [9, x]).mbArg 0 < 2 ^ 32)) = true := by decide +kernel
  have := List.all_eq_true.1 h x hx
  rw [Bool.and_eq_true, decide_eq_true_eq] at this
  exact ⟨free_mb this.1, this.2⟩
/-- An F2 that opens a session with one result region, frame 4 of the tenant's; a session to close; a port for SPDM. -/
def sessing : State := withBytes (withBytes (asked [0, 7, 0x5000]) 0x5000 8 (0x40000 + 2 ^ 48)) 0x5008 8 65536
/-- A session that is asked for, within its 100 ms and past them. -/
theorem witness_MailboxSessions_late : ∀ w ∈ [0, 10 ^ 14 - 1, 10 ^ 14], let s := { asked [] with wall := w, mailbox := { (asked []).mailbox with session := some { pid := 0, tenant := 9, regions := [], key := [], cert := [], sig := [] } } }
    s.mailbox.session.isSome = true ∧ s.mailbox.args.length = 8 ∧ (s.mailbox.askedAt + 10 ^ 14 ≤ s.wall ↔ w = 10 ^ 14) := by decide +kernel
theorem witness_MailboxSessions_open : sessing.mbFree 3 ∧ (sessing.fit = .f2 ∧ sessing.mbArg 1 < 2 ^ 12 ∧ sessing.mailbox.session = none ∧
      got (sessing.fetchVa (sessing.ctxScene 0) [] 0x5000 64) (fun bs => ((upFrom 0 4).filterMap fun k => regionEntry ((bs.drop (16 * k)).take 16)).map fun e => (e.2, sessing.regionOk 9 e.1)) = some [(true, true)]) ∧
    ({ asked [77] with sessions := [sess] } : State).mbFree 1 ∧ ((({ asked [77] with sessions := [sess] } : State).sessions.find? fun y => y.handle = 77).isSome = true ∧ (asked [77]).sessions = [] ∧ (asked []).mailbox.args.length = 8 ∧ (State.reset.ports[0]?).any (·.up) = true) :=
  ⟨free_mb (by decide +kernel), by decide +kernel, free_mb (by decide +kernel), by decide +kernel⟩

/-! The fabric. -/

def move1 : Move := { old := 0x40000, new := 0x50000, size := 65536, valid := [128] }
theorem witness_HomeMoves : (asked [0x40000, 0x50000, 0, 9]).mbFree 4 ∧ (let s := asked [0x40000, 0x50000, 0, 9]; s.mbArg 2 ≤ 2 ∧ s.mbArg 0 % moveSize 0 = 0 ∧ s.mbArg 1 % moveSize 0 = 0 ∧ s.isHome 0x40000 = true ∧ s.tenantHolds 9 0x40000 (moveSize 0) = true ∧
      s.tenantHolds 9 0x50000 (moveSize 0) = true ∧ s.moves = []) ∧
    (let s := { asked [0x40000, 0x50000, 0, 9] with mailbox := { (asked [0x40000, 0x50000, 0, 9]).mailbox with cmd := 6, done := false, run := [0x40000, 0x50000, 0, 9, 0, 0, 0, 0] } }; s.mailbox.cmd = 6 ∧ s.mailbox.done = false ∧ s.mbArg 0 = 0x40000 ∧ s.mbArg 1 = 0x50000 ∧ s.mbArg 2 = 0 ∧ s.mbArg 3 = (9 : W32).toNat ∧ s.moves = []) ∧
    (let s := { asked [] with fit := .m1 }; s.isHome fabricBase = false ∧ s.isHome 0x50000 = true ∧ s.mailbox.cmd = 0 ∧ s.moves = [] ∧ s.tenantHolds 9 0x50000 (moveSize 0) = true ∧ s.tenantHolds 8 0x50000 (moveSize 0) = false ∧ 0x50000 % moveSize 0 = 0) ∧
    (let s := { asked [] with moves := [move1] }; (s.moves.find? fun x => x.old = 0x40000 && !x.switched) = some move1 ∧ s.moveOf 0x40000 false = some move1 ∧ move1.taken = false ∧ s.isHome move1.new = true ∧ s.dvsec.viral = false ∧ 65536 - 128 < move1.size ∧ (65536 - 128) % 128 = 0 ∧ move1.size / 128 ≤ (List.replicate 512 0).length) ∧
    (let m := { move1 with old := fabricBase, taken := true }; let s := { asked [] with moves := [m] }; s.moveOf fabricBase true = some m ∧ (s.moves.find? fun x => x.old = fabricBase && !x.switched) = some m ∧ m.size % 128 = 0 ∧ 65536 - 128 < m.size ∧
      s.bulk = [] ∧ ∀ k < 128, s.mirror (m.new + (65536 - 128) + k) = none) ∧ (asked []).Canonical :=
  ⟨free_mb (by decide +kernel), by decide +kernel, by decide +kernel, by decide +kernel, by decide +kernel, by decide +kernel, canonical_now (by decide +kernel)⟩

/-- The first extent of the fabric's window, of tenant 9, shared with PIDs 1 and 2. -/
def ext0 : Extent := { base := fabricBase, tenant := 9, gen := 1, resid := false, bulk := false, pids := [1, 2], own := true }
def fabric (l : List Extent) : State := { m1 [] with extents := l }
theorem witness_FabricEvents : (let t := 0x0000000000000000000000090001 * 2 ^ 16; t / 2 ^ 64 = 0 ∧ t / 2 ^ 3 % 2 ^ 13 = 0 ∧ t % 4 ≤ 1) ∧ (fabricBase % 2 ^ 29 = 0 ∧ inFabric fabricBase = true ∧ inWindow fabricBase = true ∧ (fabric []).extentOf fabricBase = none ∧ inFabric 0 = false) ∧
    ((fabric [ext0]).extents.find? (fun x => x.base = fabricBase) = some ext0 ∧ ({ ext0 with own := false } : Extent).own = false) ∧
    ((fabric [ext0]).fit = .m1 ∧ (fabric [ext0]).dvsec.ready = true ∧ (fabric [ext0]).dvsec.viral = false ∧ (fabric [ext0]).extentOf (fabricBase + 0x1000) = some ext0 ∧ ext0.tenant ≠ 8 ∧ (2 : BitVec 12) ∈ ext0.pids ∧ (3 : BitVec 12) ∉ ext0.pids ∧
      (fabric [ext0]).moved (fabricBase + 0x1000) = fabricBase + 0x1000 ∧ (fabric [ext0]).mirror (lineOf (fabricBase + 0x1000)) = none ∧ (fabric [ext0]).failing = [] ∧ (fabric [ext0]).bulk = [] ∧ (fabric [ext0]).snoops = [] ∧ fabricBase < fabricBase + 2 ^ 45 ∧ (fabric [ext0]).lostPeers = [] ∧
      (fabric [ext0]).poisoned (lineOf (fabricBase + 0x1000)) 128 = false ∧ (∀ k < 128, (fabric [ext0]).mirror (lineOf (fabricBase + 0x1000) + k) = none)) ∧
    ((asked []).fit = .f2 ∧ (asked []).dvsec.ready = true ∧ (asked []).ownMem (0x5000 + 64 - 1) = true ∧ (asked []).failing = [] ∧ (asked []).bulk = [] ∧ (asked []).moves = []) ∧
    (fabricBase % 2 ^ 16 = 0 ∧ fabricBase ∉ (fabric [ext0]).resident) ∧
    ((List.replicate 256 (0 : Byte)).length = 256 ∧ (match (fabric []).packetCheck (List.replicate 256 0) with | .error 1 => true | _ => false) = true) ∧ canonicalNow (fabric [ext0]) = true ∧ canonicalNow (asked []) = true := by decide +kernel

/-- A pitch of the party that proofing has captured on core 0. Its signature differs from its successor, whatever it is. -/
def captured : Audit := { id := 70, unit := .core 0, ctx := 0, fid := 1, hp := 0, pid := some 1, addr := 0x10000, tag := 0, who := 0, inputs := [], returned := [], outputs := [] }
theorem witness_RecoveryEvents_signatures : captured.signature ≠ captured.signature + 1 ∧ captured.signature + 1 ≠ captured.signature + 2 := by
  constructor <;> bv_omega
theorem witness_RecoveryEvents : ((asked []).ownMem 0x5000 = true ∧ (fabric [ext0]).extentOf fabricBase = some ext0) ∧ ((base0.forme? 1).isSome = true ∧ 768 * 4096 - 1 < 768 * 4096 ∧ (7 : Nat) < 8 ∧ (127 : Nat) < 128 ∧ (255 : Nat) < 256) ∧
    (5 ∉ base0.viralPeers ∧ 5 ∉ base0.lostPeers ∧ base0.fit = .f2 ∧ base0.dvsec.viral = false ∧ ∃ l ∈ base0.launches, l.block.status = 0) ∧
    (let s := { base0 with audits := [captured] }; s.audits.find? (fun y => y.id = 70) = some captured ∧ captured.replays (.core 2) (.core 4) = true ∧ s.unitOut captured.unit = false ∧ s.unitOut (.core 2) = false ∧ (s.party? 1).any (fun p => p.fid = captured.fid) = true) ∧
    (∀ n ∈ [some 2, some 3, none], let b : UnitBin := { unit := UnitId.core 1, bin := n, testing := true }; ({ base0 with bins := [b] }.bins.find? fun x => x.unit = UnitId.core 1) = some b ∧ b.testing = true) := by decide +kernel

theorem witness_StartUpAndClocks : (900 ≤ State.reset.clockMHz ∧ State.reset.clockMHz ≤ 1800) ∧ ((State.reset.clockMHz < State.reset.clockCap) ∨ State.reset.clockMHz = State.reset.clockCap) ∧ (∀ w ∈ base0.status, w.ctx = 0) ∧
    (let s : State := { base0 with vfEnable := true }; s.vfEnable = true ∧ ∀ q ∈ s.queues, q.killing = false) ∧
    (base0.vfEnable = false ∧ ∀ f ∈ base0.formes, (base0.launch? f.lid).any (fun l => l.ctx = 0) = true) := by decide +kernel

/-- No sector of these states' memory fails its check. -/
theorem witness_sound_storage : ([launchable 0, pressing (.press fp1) 0 0, described (.cpy fx4) [] 0, secured (.ndt fx4) 0x1000, binding false, queued queue3, turning 5 [], graphing 0x4000, jobbing 0 true 1 1, descAt 4, m1 [9, 0x5000], sessing,
    asked [], fabric [ext0]].all fun s => decide (s.failing = [])) = true := by decide +kernel

/-! The machine as a whole. -/

theorem witness_DecodeEncode : [Instr.iadd f2, .fmul { x2 with dual := some 3 }, .ld fm, .bra fcd].all (fun i => i.wf && decide (encode i ≠ [])) = true := by decide +kernel
theorem witness_StepRunsDecoded : ({ State.reset with inbox := [.vfEnableSet] } : State).inbox = [.vfEnableSet] ∧
    (let s := one [0x2000200001010000]; s.inbox = [] ∧ s.ticks = none ∧ (s.issue.bind s.party?).any (fun p => p.pitch.any fun c => match decode (c.words.drop c.idx) with | .ok (.iadd _, []) => true | _ => false) = true) ∧
    (arrived.inbox = [] ∧ { arrived with issue := none }.ticks = none ∧ { arrived with issue := none }.nextWord = none ∧ { arrived with issue := none }.onward.1 = some (.pitchIssue 0)) ∧
    (State.reset.inbox = [] ∧ State.reset.ticks = none ∧ State.reset.nextWord = none ∧ State.reset.onward.1 = none) ∧
    (decodeTableWord 64 0x2000200001010000).isSome = true := by decide +kernel
/-- A tick is due once a forme has counted 32 pitches at rate 0 (R32). -/
theorem witness_StepRunsDecoded_tick : ((base0.onForme 1 fun f => { f with counted := 32 }).ticks).isSome = true := by decide +kernel
theorem witness_CanonicalKept : (one [0x2000200001010000]).Canonical ∧ (ran (one [0x2000200001010000])).Canonical := ⟨canonical_now (by decide +kernel), canonical_now (by decide +kernel)⟩
def filesNow (s : State) : Bool := (s.parties.all fun p => decide (p.s.length = 64 ∧ p.w.length = 16 ∧ p.c.length = 7)) && (s.homes.all fun h => decide (h.seq.length = 64)) && decide (s.ctxs.length = 64) && (s.ctxs.all fun c => decide (c.counters.length = 23)) &&
  decide (s.parts.length = 16) && decide (s.ports.length = 4 * s.fit.dies)
theorem files_now {s : State} (h : filesNow s = true) : s.Files := by
  simp only [filesNow, Bool.and_eq_true, List.all_eq_true, decide_eq_true_eq] at h
  exact ⟨h.1.1.1.1.1, h.1.1.1.1.2, ⟨h.1.1.1.2, h.1.1.2⟩, h.1.2, h.2⟩
theorem witness_FilesKept_m1 : ({ State.reset with fit := .m1, ports := List.replicate 4 {} } : State).Files := files_now (by decide +kernel)
theorem witness_FilesKept : (one [0x2000200001010000]).Files ∧ (ran (one [0x2000200001010000])).Files := ⟨files_now (by decide +kernel), files_now (by decide +kernel)⟩

end Sys2Proof.Tests
end

section
/-! SUPPORT. What the device does as it takes work off (R28, R30, R344, R397, R398): writing memory, its log and its status touches neither queue slots,
translations nor VF Enable; ending and cancelling work only takes packets off its queues. -/
namespace Sys2Proof.Machine

/-! What memory and the log leave alone. -/

/-- The queue slots, the translations and VF Enable. -/
def State.slots (s : State) : List Queue × List TlbEntry × Bool := (s.queues, s.tlb, s.vfEnable)

/-- The same with the status writes that wait. -/
def State.front (s : State) : List StatusWrite × List Queue × List TlbEntry × Bool := (s.status, s.slots)

theorem slots_of_front {s t : State} (h : t.front = s.front) : t.slots = s.slots := congrArg Prod.snd h
theorem status_of_front {s t : State} (h : t.front = s.front) : t.status = s.status := congrArg Prod.fst h

/-- What every step of a fold leaves alone, the fold leaves alone. -/
theorem foldl_keeps {α β : Type} (g : State → β) {f : State → α → State} (hf : ∀ s x, g (f s x) = g s) (l : List α) (s : State) :
    g (l.foldl f s) = g s := by
  induction l generalizing s with
  | nil => rfl
  | cons x l ih => exact (ih (f s x)).trans (hf s x)

theorem writePa_front (s : State) (a : Nat) (b : Byte) : (s.writePa a b).front = s.front := by
  unfold State.writePa; split <;> rfl

theorem writeBytesPa_front (bs : List Byte) (s : State) (a : Nat) : (s.writeBytesPa a bs).front = s.front := by
  induction bs generalizing s a with
  | nil => rfl
  | cons b bs ih => exact (ih _ (a + 1)).trans (writePa_front s a b)

theorem noteResult_front (s : State) (a : Nat) (bs : List Byte) : (s.noteResult a bs).front = s.front := by
  unfold State.noteResult; split <;> rfl

theorem sendHome_front (s : State) (a : Nat) (bs : List Byte) : (s.sendHome a bs).front = s.front := by
  unfold State.sendHome
  split <;> split <;> rfl

theorem writePaN_front (s : State) (a : Nat) (bs : List Byte) (w : Writer) : (s.writePaN a bs w).front = s.front := by
  have written : ∀ r : State, r.front = s.front → ∀ p f, (({ r.writeBytesPa a bs with poison := p, failing := f } : State).noteMirrored a bs.length).front = s.front :=
    fun r h _ _ => (writeBytesPa_front bs r a).trans h
  have noted : ((s.recall w (memKey a) (s.readPaN a bs.length) bs).noteResult a bs).front = s.front := noteResult_front _ a bs
  unfold State.writePaN
  dsimp only
  split
  · rfl
  · split
    · split
      · exact written _ noted _ _
      · exact (sendHome_front ..).trans (written _ noted _ _)
    · split
      · exact written _ noted _ _
      · exact (sendHome_front ..).trans (written _ noted _ _)

theorem putPa_front (s : State) (a : Nat) (bs : List Byte) : (s.putPa a bs).front = s.front := writePaN_front _ a bs .other

theorem reachVa_front (s : State) (sp : Space) (gs : List Granule) (va n : Nat) : (s.reachVa sp gs va n).front = s.front :=
  foldl_keeps _ (fun s x => by split <;> rfl) _ s

theorem askAll_front (s : State) (sp : Space) (gs : List Granule) : (s.askAll sp gs).front = s.front := by
  cases sp with
  | ctx c => exact foldl_keeps _ (fun s x => by split <;> rfl) gs s
  | task l => rfl

@[simp] theorem askAll_slots (s : State) (sp : Space) (gs : List Granule) : (s.askAll sp gs).slots = s.slots := slots_of_front (askAll_front ..)

theorem renewLine_front (s : State) (line : Nat) : (s.renewLine line).front = s.front := by
  unfold State.renewLine; dsimp only; split <;> rfl

theorem evictBulk_front (s : State) (line : Nat) : (s.evictBulk line).front = s.front := by
  unfold State.evictBulk
  split
  · rfl
  · split
    · rfl
    · exact (foldl_keeps State.front (fun s k => by split; exacts [writePa_front .., rfl]) _ _).trans rfl

theorem touchBulk_front (s : State) (pa : Nat) (owner : Option Nat) : (s.touchBulk pa owner).front = s.front := by
  have filled : ∀ r : State, (if (r.bulkLine pa).isSome then r else
      { r with bulk := ⟨0, lineOf pa, r.lineAnew (lineOf pa), 0, owner⟩ :: r.bulk, poison := r.poisonAnew (lineOf pa) }).front = r.front := fun r => by
    split <;> rfl
  unfold State.touchBulk
  split
  · rfl
  · refine (filled _).trans ?_
    split
    · exact evictBulk_front ..
    · rfl

theorem touchShared_front (s : State) (pa : Nat) (write : Bool) : (s.touchShared pa write).front = s.front := by
  have foreign : ∀ l, ({ s.renewLine (lineOf pa) with shared := l } : State).front = s.front := fun l => renewLine_front ..
  have kept : (if s.shared.contains (lineOf pa) && !Config.freeBit s.freeCtr (1150000 + lineOf pa) then s
      else { s.renewLine (lineOf pa) with shared := lineOf pa :: s.shared.filter (· ≠ lineOf pa) }).front = s.front := by
    split
    · rfl
    · exact foreign _
  unfold State.touchShared
  dsimp only
  split
  · rfl
  · split
    · exact kept
    · split
      · rfl
      · split
        · exact kept
        · split
          · rfl
          · split
            · rfl
            · have sent : ∀ (l : List (BitVec 12)), (l.foldl (fun (s : State) h => s.send (.snoop h (lineOf pa) write)) s).front = s.front :=
                fun l => foldl_keeps State.front (f := fun (s : State) h => s.send (.snoop h (lineOf pa) write)) (fun _ _ => rfl) l s
              split
              · exact (renewLine_front ..).trans (sent _)
              · exact sent _

theorem touchLine_front (s : State) (pa : Nat) (owner : Option Nat) (write : Bool) : (s.touchLine pa owner write).front = s.front := by
  have brought : (s.bringIn pa).front = s.front := by unfold State.bringIn; dsimp only; split; rfl; split <;> rfl
  exact (touchShared_front ..).trans ((touchBulk_front ..).trans brought)

theorem joinSignal_front (s : State) (c pa n : Nat) (atomic : Bool) : (s.joinSignal c pa n atomic).front = s.front := by
  unfold State.joinSignal; split <;> rfl

theorem dropPrivate_front (s : State) (f : Forme) (hp : Nat) : (s.dropPrivate f hp).front = s.front := by
  unfold State.dropPrivate
  split
  · rfl
  · exact (foldl_keeps State.front (fun s k => writePa_front ..) _ _).trans rfl

theorem dropFormePrivate_front (s : State) (f : Forme) : (s.dropFormePrivate f).front = s.front := by
  unfold State.dropFormePrivate
  split
  · rfl
  · exact foldl_keeps _ (fun s hp => dropPrivate_front s f hp) _ s

/-! The log: its writes wait at most in its own context's group. -/

/-- Status writes may have come to wait, each of one context. -/
structure State.LogsTo (c : Nat) (s t : State) : Prop where
  slots : t.slots = s.slots
  status : ∀ w ∈ t.status, w ∈ s.status ∨ w.ctx = c

theorem State.LogsTo.of_front {c : Nat} {s t : State} (h : t.front = s.front) : s.LogsTo c t :=
  ⟨slots_of_front h, fun _ hw => .inl (status_of_front h ▸ hw)⟩

theorem State.LogsTo.trans {c : Nat} {s t u : State} (h : s.LogsTo c t) (k : t.LogsTo c u) : s.LogsTo c u :=
  ⟨k.slots.trans h.slots, fun w hw => (k.status w hw).elim (h.status w) .inr⟩

theorem logsTo_foldl {α : Type} {c : Nat} {f : State → α → State} (hf : ∀ s x, State.LogsTo c s (f s x)) (l : List α) (s : State) : s.LogsTo c (l.foldl f s) := by
  induction l generalizing s with
  | nil => exact .of_front rfl
  | cons x l ih => exact (hf s x).trans (ih _)

/-- A write comes to wait. -/
theorem State.LogsTo.wait {c : Nat} {s t : State} {w : StatusWrite} (hs : t.slots = s.slots) (ht : t.status = s.status ++ [w]) (hw : w.ctx = c) : s.LogsTo c t :=
  ⟨hs, fun x hx => (List.mem_append.1 (ht ▸ hx)).imp id fun h => by rw [List.mem_singleton.1 h, hw]⟩

theorem logPut_logsTo (s : State) (c a : Nat) (bs : List Byte) (n : Nat) : s.LogsTo c (s.logPut c a bs n) := by
  unfold State.logPut
  split
  · exact .wait rfl rfl rfl
  · split
    · exact .of_front (putPa_front ..)
    · exact .of_front rfl
    · exact .wait (askAll_slots s _ _) rfl rfl

theorem logAt_logsTo (s : State) (c ridx : Nat) (r : LogRec) : s.LogsTo c (s.logAt c ridx r).1 := by
  have counted {t : State} (f : Ctx → Ctx) (h : s.LogsTo c t) : s.LogsTo c (t.onCtx c f) := h.trans (.of_front rfl)
  unfold State.logAt
  dsimp only
  split
  · exact (counted _ (.of_front rfl)).trans (logPut_logsTo ..)
  · have sent {t : State} (p : Prop) [Decidable p] (h : s.LogsTo c t) : s.LogsTo c (if p then t.send (.interrupt c 1) else t) := by
      split
      · exact h.trans (.of_front rfl)
      · exact h
    refine sent _ (.trans (.trans (counted _ ?items) (logPut_logsTo ..)) (logPut_logsTo ..))
    refine .trans (.trans ?pads (logPut_logsTo ..)) (logsTo_foldl (fun s x => logPut_logsTo ..) _ _)
    exact logsTo_foldl (fun s x => logPut_logsTo ..) _ _

theorem logPlaced_logsTo (s : State) (c : Nat) (ridx : Option Nat) (r : LogRec) : s.LogsTo c (s.logPlaced c ridx r).1 := by
  cases ridx with
  | none => exact .of_front rfl
  | some n => exact logAt_logsTo s c n r

/-- A record goes to the log of its context, or of the PF while VF Enable is 0 (R398). -/
theorem logWrite_logsTo (s : State) (c : Nat) (r : LogRec) : s.LogsTo (s.logCtx c) (s.logWrite c r) := by
  unfold State.logWrite
  dsimp only
  split
  · split
    · exact logPlaced_logsTo ..
    · exact .wait (askAll_slots s _ _) rfl rfl
  · split <;> exact .of_front rfl

@[simp] theorem logWrite_slots (s : State) (c : Nat) (r : LogRec) : (s.logWrite c r).slots = s.slots := (logWrite_logsTo s c r).slots

@[simp] theorem dropWrite_slots (s : State) (w : StatusWrite) (c : TrapCode) : (s.dropWrite w c).slots = s.slots := logWrite_slots ..

end Sys2Proof.Machine
end

section
/-! SUPPORT. Status writes leave the queue slots alone; work that ends or is cancelled only takes packets off them (R28, R30, R332, R344, R397). -/
namespace Sys2Proof.Machine

/-! The device's status writes (R339). -/

@[simp] theorem onCtx_slots (s : State) (c : Nat) (f : Ctx → Ctx) : (s.onCtx c f).slots = s.slots := rfl

@[simp] theorem logPlaced_slots (s : State) (c : Nat) (ridx : Option Nat) (r : LogRec) : (s.logPlaced c ridx r).1.slots = s.slots := (logPlaced_logsTo s c ridx r).slots

@[simp] theorem reachVa_slots (s : State) (sp : Space) (gs : List Granule) (va n : Nat) : (s.reachVa sp gs va n).slots = s.slots := slots_of_front (reachVa_front ..)

/-- Bytes written, and the write's place in the order of accesses. -/
theorem putPa_join_slots (s : State) (p : Prop) [Decidable p] (a : Nat) (bs : List Byte) (c pa n : Nat) (atomic : Bool) :
    (if p then s.putPa a bs else (s.putPa a bs).joinSignal c pa n atomic).slots = s.slots := by
  have put := slots_of_front (putPa_front s a bs)
  split
  · exact put
  · exact (slots_of_front (joinSignal_front ..)).trans put

@[simp] theorem statusAt_slots (s : State) (w : StatusWrite) (pa : Nat) : (s.statusAt w pa).slots = s.slots := by
  have touched := slots_of_front (touchLine_front s pa none true)
  unfold State.statusAt
  generalize s.touchLine pa none true = r at touched ⊢
  rw [← touched]
  cases w.what with
  | bytes bs => exact putPa_join_slots ..
  | add v =>
    dsimp only
    split
    · exact dropWrite_slots ..
    · exact putPa_join_slots ..
  | max v =>
    dsimp only
    split
    · exact dropWrite_slots ..
    · exact putPa_join_slots ..
  | record l => exact logPlaced_slots ..

theorem statusTry_slots (s : State) (w : StatusWrite) : (s.statusTry w).1.slots = s.slots := by
  have dropped : ∀ c, (match w.what with
      | .record r => s.loseLog w.ctx (r.entries.length + 1)
      | _ => if w.group = logGroup then s.loseLog w.ctx w.packet else s.dropWrite w c).slots = s.slots := fun c => by
    split
    · rfl
    · split
      · rfl
      · exact dropWrite_slots ..
  unfold State.statusTry
  dsimp only
  split
  · split
    · exact dropped _
    · exact statusAt_slots ..
  · exact dropped _
  · exact askAll_slots ..

@[simp] theorem statusPut_slots (s : State) (w : StatusWrite) : (s.statusPut w).slots = s.slots := by
  have tried := statusTry_slots s w
  unfold State.statusPut
  split
  · rfl
  · split <;> rename_i h <;> rw [h] at tried <;> exact tried

@[simp] theorem blockPut_slots (s : State) (c : Nat) (b : Block) (off : Nat) (k : StatusKind) (pk : Nat) : (blockPut s c b off k pk).slots = s.slots := by
  unfold blockPut
  split
  · rfl
  · exact statusPut_slots ..

@[simp] theorem blockStatus_slots (s : State) (c : Nat) (b : Block) (pk : Nat) : (blockStatus s c b pk).slots = s.slots :=
  (blockPut_slots ..).trans (blockPut_slots ..)

@[simp] theorem deadBlock_slots (s : State) (c at_ total status pk : Nat) : (s.deadBlock c at_ total status pk).slots = s.slots := by
  unfold State.deadBlock
  split
  · rfl
  · exact (blockStatus_slots ..).trans ((blockPut_slots ..).trans (blockPut_slots ..))

@[simp] theorem queueLog_slots (s : State) (c k pk : Nat) : (s.queueLog c k pk).slots = s.slots := by
  unfold State.queueLog
  split
  · rfl
  · exact statusPut_slots ..

/-! Items, tasks and operations that end. -/

@[simp] theorem savedRecord_slots (s : State) (l : Launch) (f : Forme) (p : Party) : (s.savedRecord l f p).slots = s.slots := logWrite_slots ..

@[simp] theorem itemRecord_slots (s : State) (fid hp : Nat) (its : List Item) : (s.itemRecord fid hp its).slots = s.slots := by
  unfold State.itemRecord
  split
  · rfl
  · split
    · exact logWrite_slots ..
    · split <;> exact logWrite_slots ..

@[simp] theorem orphanItems_slots (s : State) (fid hp : Nat) (its : List Item) : (s.orphanItems fid hp its).slots = s.slots := by
  unfold State.orphanItems
  split
  · dsimp only
    split <;> exact itemRecord_slots ..
  · exact itemRecord_slots ..

@[simp] theorem taskEnded_slots (s : State) (l : Launch) (status : Nat) : (s.taskEnded l status).slots = s.slots := by
  unfold State.taskEnded
  split <;> rfl

@[simp] theorem stopOps_slots (s : State) (fid : Nat) : (s.stopOps fid).slots = s.slots := foldl_keeps State.slots (fun _ _ => itemRecord_slots ..) _ s

theorem closeSession_slots (s : State) (h : W64) : (s.closeSession h).slots = s.slots := by
  unfold State.closeSession
  split <;> rfl

@[simp] theorem dropStatus_slots (s : State) (gone : Nat → Bool) : (s.dropStatus gone).slots = s.slots :=
  (foldl_keeps State.slots (fun s w => by
    split
    · exact logWrite_slots ..
    · split
      · rfl
      · exact dropWrite_slots ..) _ _).trans rfl

/-! What a queue loses (R332, R344, R397). -/

/-- A packet that has not been parsed to its end. -/
def Packet.unparsed (p : Packet) : Bool := p.state = .fetched || p.state = .parsing

/-- A queue as work is taken off it: it is not enabled anew, a kill of it goes on, and no packet of it comes to be parsed. -/
structure Queue.WindsTo (q t : Queue) : Prop where
  ctx : t.ctx = q.ctx
  slot : t.slot = q.slot
  en : t.en = true → q.en = true
  kill : q.killing = true → t.killing = true
  killed : t.killing = true → q.killing = true ∨ t.en = false
  packets : ∀ x ∈ t.packets, x.unparsed = true → ∃ y ∈ q.packets, y.unparsed = true ∧ y.idx = x.idx

theorem Queue.WindsTo.trans {q t u : Queue} (h : q.WindsTo t) (k : t.WindsTo u) : q.WindsTo u where
  ctx := k.ctx.trans h.ctx
  slot := k.slot.trans h.slot
  en e := h.en (k.en e)
  kill e := k.kill (h.kill e)
  killed e := (k.killed e).elim (fun e => (h.killed e).imp id fun f => Bool.eq_false_iff.2 fun e => by rw [k.en e] at f; cases f) .inr
  packets x hx e := by
    obtain ⟨y, hy, e', i⟩ := k.packets x hx e
    obtain ⟨z, hz, e'', j⟩ := h.packets y hy e'
    exact ⟨z, hz, e'', j.trans i⟩

/-- A queue whose slot, enable and kill stand, with packets taken off or changed but not parsed anew. -/
theorem Queue.WindsTo.of_packets {q t : Queue} (h : (t.ctx, t.slot, t.en, t.killing) = (q.ctx, q.slot, q.en, q.killing))
    (hp : ∀ x ∈ t.packets, x.unparsed = true → ∃ y ∈ q.packets, y.unparsed = true ∧ y.idx = x.idx) : q.WindsTo t := by
  simp only [Prod.mk.injEq] at h
  obtain ⟨hc, hs, he, hk⟩ := h
  exact ⟨hc, hs, he ▸ id, fun e => hk.trans e, fun e => .inl (hk ▸ e), hp⟩

/-- A queue that keeps its packets. -/
theorem Queue.WindsTo.of_same {q t : Queue} (h : (t.ctx, t.slot, t.en, t.killing, t.packets) = (q.ctx, q.slot, q.en, q.killing, q.packets)) : q.WindsTo t := by
  simp only [Prod.mk.injEq] at h
  obtain ⟨hc, hs, he, hk, hp⟩ := h
  exact .of_packets (by rw [hc, hs, he, hk]) fun x hx e => ⟨x, hp ▸ hx, e, rfl⟩

/-- The device as it takes work off: every queue slot stands, and its queue winds up; no translation comes, and VF Enable stands. -/
structure State.WindsTo (s t : State) : Prop where
  vfEnable : t.vfEnable = s.vfEnable
  tlb : ∀ e ∈ t.tlb, e ∈ s.tlb
  queues : ∃ f : Queue → Queue, (∀ q : Queue, q.WindsTo (f q)) ∧ t.queues = s.queues.map f

theorem State.WindsTo.of_slots {s t : State} (h : t.slots = s.slots) : s.WindsTo t := by
  simp only [State.slots, Prod.mk.injEq] at h
  obtain ⟨hq, ht, hv⟩ := h
  exact ⟨hv, ht ▸ fun _ => id, id, fun q => .of_same rfl, by simpa using hq⟩

theorem State.WindsTo.refl (s : State) : s.WindsTo s := .of_slots rfl

theorem State.WindsTo.trans {s t u : State} (h : s.WindsTo t) (k : t.WindsTo u) : s.WindsTo u := by
  obtain ⟨f, hf, ef⟩ := h.queues
  obtain ⟨g, hg, eg⟩ := k.queues
  exact ⟨k.vfEnable.trans h.vfEnable, fun e he => h.tlb e (k.tlb e he), g ∘ f, fun q => (hf q).trans (hg _), by rw [eg, ef, List.map_map]⟩

/-- The same, the later part first. -/
theorem State.WindsTo.after {s t u : State} (k : t.WindsTo u) (h : s.WindsTo t) : s.WindsTo u := h.trans k

theorem windsTo_foldl {α : Type} {f : State → α → State} (hf : ∀ s x, State.WindsTo s (f s x)) (l : List α) (s : State) : s.WindsTo (l.foldl f s) := by
  induction l generalizing s with
  | nil => exact .refl s
  | cons x l ih => exact (hf s x).trans (ih _)

theorem windsTo_onQueue (s : State) (c k : Nat) {f : Queue → Queue} (hf : ∀ q : Queue, q.WindsTo (f q)) : s.WindsTo (s.onQueue c k f) :=
  ⟨rfl, fun _ => id, fun q => if q.ctx = c && q.slot = k then f q else q, fun q => by dsimp only; split; exacts [hf q, .of_same rfl], rfl⟩

/-- Every slot has a queue as before, wound up. -/
theorem State.WindsTo.queue?_eq {s t : State} (h : s.WindsTo t) : ∃ f : Queue → Queue, (∀ q : Queue, q.WindsTo (f q)) ∧ ∀ c k, t.queue? c k = (s.queue? c k).map f := by
  obtain ⟨f, hf, ef⟩ := h.queues
  refine ⟨f, hf, fun c k => ?_⟩
  have same : ((fun x : Queue => decide (x.ctx = c) && decide (x.slot = k)) ∘ f) = fun x => decide (x.ctx = c) && decide (x.slot = k) :=
    funext fun x => by simp only [Function.comp, (hf x).ctx, (hf x).slot]
  rw [State.queue?, ef, List.find?_map, same, ← State.queue?]

theorem State.WindsTo.queue? {s t : State} (h : s.WindsTo t) {c k : Nat} {q : Queue} (hq : s.queue? c k = some q) : ∃ r, t.queue? c k = some r ∧ q.WindsTo r := by
  obtain ⟨f, hf, ef⟩ := h.queue?_eq
  exact ⟨f q, by rw [ef, hq]; rfl, hf q⟩

theorem State.WindsTo.of_queue {s t : State} (h : s.WindsTo t) {r : Queue} (hr : r ∈ t.queues) : ∃ q ∈ s.queues, q.WindsTo r := by
  obtain ⟨f, hf, ef⟩ := h.queues
  obtain ⟨q, hq, rfl⟩ := List.mem_map.1 (ef ▸ hr)
  exact ⟨q, hq, hf q⟩

/-! Packets retire. -/

theorem queueIndex_winds (s : State) (c k : Nat) : s.WindsTo (s.queueIndex c k) := by
  unfold State.queueIndex
  split
  · exact .refl s
  · split
    · exact .refl s
    · exact .after (.of_slots (statusPut_slots ..)) (windsTo_onQueue s c k fun _ => .of_same rfl)

theorem retire_winds (s : State) (c k idx : Nat) : s.WindsTo (s.retire c k idx) := by
  have off : ∀ q : Queue, q.WindsTo { q with packets := q.packets.filter fun p => p.idx ≠ idx } := fun q =>
    .of_packets rfl fun x hx e => ⟨x, List.mem_of_mem_filter hx, e, rfl⟩
  unfold State.retire
  split
  · exact .refl s
  · split
    · exact ((windsTo_onQueue s c k off).trans (.of_slots (statusPut_slots ..))).trans (queueIndex_winds ..)
    · exact .refl s

theorem retireOf_winds (s : State) (c : Nat) (q p : Option Nat) : s.WindsTo (s.retireOf c q p) := by
  unfold State.retireOf
  split
  · exact retire_winds ..
  · exact .refl s

/-! Launches, graphs and formes come to their ends. -/

theorem graphCheck_winds (s : State) (gid : Nat) : s.WindsTo (s.graphCheck gid) := by
  unfold State.graphCheck
  split
  · exact .refl s
  · rename_i g _
    have add : ∀ (s : State) (off now old pk : Nat), s.WindsTo (if now = old then s else blockPut s g.ctx g.block off (.add (BitVec.ofNat 64 (now - old))) pk) :=
      fun s off now old pk => by
        split
        · exact .refl s
        · exact .of_slots (blockPut_slots ..)
    have marked {t : State} (f : Graph → Graph) (h : s.WindsTo t) : s.WindsTo (t.onGraph gid f) := h.trans (.of_slots rfl)
    have counted := fun d d' e e' w w' p p' p'' => ((add s 0 d d' p).trans (add _ 8 e e' p')).trans (add _ 16 w w' p'')
    dsimp only
    split
    · exact ((marked _ (counted ..)).trans (.of_slots (blockStatus_slots ..))).trans (retireOf_winds ..)
    · exact marked _ (counted ..)

theorem nodeEnded_winds (s : State) (gid lid status : Nat) (cancelled : Bool) : s.WindsTo (s.nodeEnded gid lid status cancelled) :=
  (graphCheck_winds _ gid).after (.of_slots rfl)

/-- The node of a launch, where it has one. -/
theorem nodeOf_winds (s : State) (g : Option Nat) (lid status : Nat) (cancelled : Bool) :
    s.WindsTo (match g with | some g => s.nodeEnded g lid status cancelled | none => s) := by
  cases g with
  | none => exact .refl s
  | some g => exact nodeEnded_winds ..

theorem launchCheck_winds (s : State) (lid : Nat) : s.WindsTo (s.launchCheck lid) := by
  unfold State.launchCheck
  split
  · exact .refl s
  · rename_i l _
    dsimp only
    generalize (if l.failed then 3 else if l.cancel then 2 else 1) = st
    split
    · refine .after (windsTo_foldl (fun s t => ?tail) _ _) (.after (nodeOf_winds ..) (.after (retireOf_winds ..) (.of_slots ?ended)))
      case ended => exact (taskEnded_slots ..).trans ((blockStatus_slots ..).trans rfl)
      case tail =>
        split
        · exact .of_slots rfl
        · exact .after (nodeOf_winds ..) (.of_slots ((blockStatus_slots ..).trans ((blockPut_slots ..).trans rfl)))
    · exact .refl s

theorem launchCount_winds (s : State) (lid which n : Nat) : s.WindsTo (s.launchCount lid which n) := by
  unfold State.launchCount
  split
  · exact launchCheck_winds ..
  · split
    · exact .refl s
    · exact .after (launchCheck_winds _ lid) (.of_slots ((blockPut_slots ..).trans rfl))

theorem formeCheck_winds (s : State) (fid : Nat) : s.WindsTo (s.formeCheck fid) := by
  have freed : ∀ (p : Prop) [Decidable p] (f : Forme), (if p then s.dropFormePrivate f else s).slots = s.slots := fun p _ f => by
    split
    · exact slots_of_front (dropFormePrivate_front s f)
    · rfl
  have told : ∀ (s : State) (l : List Op), (l.foldl (fun s o => match o.fail with
      | some (c, a) => s.orphanItems fid o.hp [o.failItem c a]
      | none => s) s).slots = s.slots := fun s l => foldl_keeps State.slots (fun s o => by
    split
    · exact orphanItems_slots ..
    · rfl) l s
  unfold State.formeCheck
  split
  · exact .refl s
  · split
    · exact .refl s
    · exact .after (launchCount_winds _ _ _ 1) (.of_slots ((told _ _).trans (freed ..)))

theorem stopped_winds (s : State) (fid : Nat) : s.WindsTo (s.stopped fid) := by
  unfold State.stopped
  split
  · exact .refl s
  · exact .after (formeCheck_winds _ fid) (.of_slots (stopOps_slots ..))

/-! Cancelling and killing work (R28, R344, R397). -/

theorem stopForme_winds (s : State) (fid : Nat) (code : TrapCode) : s.WindsTo (s.stopForme fid code) := by
  have listed : ∀ (s : State) (l : List Party), (l.foldl (fun s p => s.itemRecord fid p.hp p.dueItems) s).slots = s.slots := fun s l =>
    foldl_keeps State.slots (fun _ _ => itemRecord_slots ..) l s
  exact .after (stopped_winds _ fid) (.of_slots (listed (s.onForme fid fun f => { f with stop := some (f.stop.getD code) }) _))

theorem stopLaunch_winds (s : State) (lid : Nat) (code : TrapCode) : s.WindsTo (s.stopLaunch lid code) := by
  unfold State.stopLaunch
  split
  · exact .refl s
  · exact .after (launchCount_winds _ lid 2 _) (.after (windsTo_foldl (fun _ _ => stopForme_winds ..) _ _) (.of_slots rfl))

theorem cancelLaunch_winds (s : State) (lid : Nat) : s.WindsTo (s.cancelLaunch lid) := .after (stopLaunch_winds _ lid _) (.of_slots rfl)

theorem killLaunch_winds (s : State) (lid : Nat) : s.WindsTo (s.killLaunch lid) := by
  unfold State.killLaunch
  split
  · exact .refl s
  · rename_i l _
    split
    · exact .refl s
    · have saved : ∀ fs : List Forme, (fs.foldl (fun s f => (s.parties.filter fun p => p.fid = f.fid).foldl (fun s p => s.savedRecord l f p) s) s).slots = s.slots :=
        fun fs => foldl_keeps State.slots (fun s f => foldl_keeps State.slots (fun _ _ => savedRecord_slots ..) _ s) fs s
      refine .after (cancelLaunch_winds _ lid) (.of_slots ?_)
      split <;> exact saved _

theorem cancelGraph_winds (s : State) (gid : Nat) : s.WindsTo (s.cancelGraph gid) :=
  .after (graphCheck_winds _ gid) (.after (windsTo_foldl (fun _ _ => cancelLaunch_winds ..) _ _) (.of_slots rfl))

/-- The graphs of some phases, those that have not ended. -/
theorem cancelOpen_winds (s : State) (gs : List Nat) :
    s.WindsTo (gs.foldl (fun s g => if (s.graph? g).any fun g => g.block.status = 0 then s.cancelGraph g else s) s) :=
  windsTo_foldl (fun s g => by
    split
    · exact cancelGraph_winds ..
    · exact .refl s) gs s

theorem cancelPhase_winds (s : State) (jid k : Nat) : s.WindsTo (s.cancelPhase jid k) := by
  unfold State.cancelPhase
  split
  · exact .refl s
  · exact .after (cancelOpen_winds ..) (.of_slots rfl)

theorem cancelJob_winds (s : State) (jid : Nat) : s.WindsTo (s.cancelJob jid) := by
  unfold State.cancelJob
  split
  · exact .refl s
  · exact .after (cancelOpen_winds ..) (.after (cancelPhase_winds ..) (.of_slots rfl))

/-! Packets are withdrawn (R344). -/

theorem queueReason_winds (s : State) (c k idx reason : Nat) : s.WindsTo (s.queueReason c k idx reason) :=
  .after (.of_slots (queueLog_slots _ c k idx)) (windsTo_onQueue s c k fun _ => .of_same rfl)

theorem countWithdrawn_winds (s : State) (c k idx : Nat) : s.WindsTo (s.countWithdrawn c k idx) :=
  .after (.of_slots (queueLog_slots _ c k idx)) (windsTo_onQueue s c k fun _ => .of_same rfl)

/-- An update of the packets of one index that parses none of them. -/
theorem windsTo_onPacket (s : State) (c k idx : Nat) {f : Packet → Packet} (hi : ∀ p, (f p).idx = p.idx) (hf : ∀ p, (f p).unparsed = true → p.unparsed = true) :
    s.WindsTo (s.onPacket c k idx f) :=
  windsTo_onQueue s c k fun q => .of_packets rfl fun x hx e => by
    obtain ⟨y, hy, rfl⟩ := List.mem_map.1 hx
    refine ⟨y, hy, ?_⟩
    split at e
    · rw [if_pos ‹_›]; exact ⟨hf y e, (hi y).symm⟩
    · rw [if_neg ‹_›]; exact ⟨e, rfl⟩

theorem finishWithdrawn_winds (s : State) (c k idx : Nat) : s.WindsTo (s.finishWithdrawn c k idx) := by
  unfold State.finishWithdrawn
  split
  · exact .refl s
  · split
    · exact retire_winds ..
    · rename_i p _ _
      have read : ∀ l : List (Nat × Nat), s.WindsTo (l.foldl (fun s f => s.reachVa (.ctx c) p.wait (packetField p.bytes 0x10 8 + f.1) f.2) s) :=
        fun l => windsTo_foldl (fun _ _ => .of_slots (reachVa_slots ..)) l s
      refine (read (namedFields p.kind)).trans ?_
      dsimp only
      split
      · exact (queueReason_winds ..).trans (retire_winds ..)
      · exact .trans (.of_slots (askAll_slots ..)) (windsTo_onPacket _ _ _ _ (fun _ => rfl) fun _ => id)
      · split
        · exact (queueReason_winds ..).trans (retire_winds ..)
        · exact .trans (.of_slots (deadBlock_slots ..)) (retire_winds ..)

end Sys2Proof.Machine
end

section
/-! Queue slots are enabled, disabled and killed (R12, R331, R383, R397), and plain registers keep their fields (R416, R420). -/
namespace Sys2Proof.Machine

/-! Slots, and the register writes of one queue. -/

theorem slot_of_some {s : State} {c k : Nat} (h : (s.queue? c k).isSome = true) : s.slot c k = s := if_pos h

theorem queue?_slot (s : State) (c k : Nat) : ∃ q, (s.slot c k).queue? c k = some q := by
  unfold State.slot
  cases h : s.queue? c k with
  | some q => exact ⟨q, by simp [h]⟩
  | none =>
    refine ⟨{ ctx := c, slot := k }, ?_⟩
    simp only [State.queue?] at h ⊢
    simp [h]

theorem slot_mem (s : State) (c k : Nat) : (s.slot c k).mem = s.mem := by
  unfold State.slot
  split <;> rfl

theorem queue?_onQueue (s : State) (c k : Nat) (f : Queue → Queue) (hf : ∀ q, (f q).ctx = q.ctx ∧ (f q).slot = q.slot) :
    (s.onQueue c k f).queue? c k = (s.queue? c k).map f := by
  rw [State.queue?, State.onQueue_queues, find?_modifyWhere _ _ _ _ (by simp [hf]), ← State.queue?]
  cases h : s.queue? c k with
  | none => rfl
  | some q =>
    have at_ := List.find?_some h
    simp only [Option.map_some, at_, if_true]

theorem queue?_onQueue_some {s : State} {c k : Nat} {q : Queue} (hq : s.queue? c k = some q) (f : Queue → Queue) (hf : ∀ q, (f q).ctx = q.ctx ∧ (f q).slot = q.slot) :
    (s.onQueue c k f).queue? c k = some (f q) := by rw [queue?_onQueue _ _ _ _ hf, hq]; rfl

@[simp] theorem queue?_stir (s : State) (c k : Nat) : s.stir.queue? c k = s.queue? c k := rfl

/-! Where no sector of memory fails its check, a record's bytes are reached with no change (R410). -/

theorem correct_sound {s : State} (h : s.failing = []) (a n : Nat) : s.correct a n = s := by
  have hit : (sectorsOf a n).filter (fun x => s.failing.contains x) = [] := by simp [h]
  simp only [State.correct, hit]
  cases s
  simp_all

theorem reachVa_sound {s : State} (h : s.failing = []) (sp : Space) (gs : List Granule) (va n : Nat) : s.reachVa sp gs va n = s := by
  unfold State.reachVa
  generalize pieces va n = l
  induction l with
  | nil => rfl
  | cons p l ih =>
    rw [List.foldl_cons]
    split
    · rw [correct_sound h, ih]
    · exact ih

theorem descSound_iff (bs : List Byte) : descSound bs = true ↔ packetField bs 0 8 % 256 = 0 ∧ (4 ≤ packetField bs 8 1 ∧ packetField bs 8 1 ≤ 16) ∧
    packetField bs 9 1 ≤ 7 ∧ zeroFrom bs 0x0A 6 = true ∧ packetField bs 0x10 8 % 8 = 0 ∧ packetField bs 0x18 8 % 8 = 0 ∧ packetField bs 0x20 8 % 64 = 0 ∧ zeroFrom bs 0x28 24 = true := by
  simp [descSound, and_assoc]

/-- A queue as it is enabled by its descriptor's bytes (R331, R383). -/
def Queue.enabled (bs : List Byte) (q : Queue) : Queue :=
  let f := packetField bs
  { q with
    en := true, killed := false, refused := false, opening := false, wait := [], db := 0, parse := 0, fetch := 0, rdidx := 0
    ring := f 0 8, logn := f 8 1, prio := f 9 1, rdAddr := f 0x10 8, doneAddr := f 0x18 8, logAddr := f 0x20 8
    rejIdx := 0, reason := 0, rejCnt := 0, supCnt := 0 }

/-- A queue whose enable is refused (R383). -/
def Queue.turnedDown (q : Queue) : Queue := { q with refused := true, opening := false, killed := false, wait := [] }

/-- A descriptor that is read enables its queue where it is sound, and is refused otherwise (R331, R383). -/
theorem qctlEnable_read {s : State} {ctx slot : Nat} {q : Queue} {bs : List Byte} (hs : s.failing = []) (hq : s.queue? ctx slot = some q) (hk : slotOk ctx slot = true)
    (hv : ctx = 0 ∨ s.vfEnable = true) (he : q.en = false) (hkill : q.killing = false) (hd : q.qdesc.toNat % 64 = 0) (hp : (s.ctx ctx).part.isSome = true)
    (hb : s.fetchVa (s.ctxScene ctx) (if q.opening then q.wait else []) q.qdesc.toNat 64 = .ok bs) :
    exec (.qctlEnable ctx slot) s = .next (s.onQueue ctx slot (if descSound bs = true then Queue.enabled bs else Queue.turnedDown)).stir := by
  have vf : (decide (ctx ≠ 0) && !s.vfEnable) = false := by rcases hv with rfl | hv <;> simp [*]
  have part : (s.ctx ctx).part.isNone = false := by simpa using hp
  rw [exec_qctlEnable, execQctlEnable, slot_of_some (by rw [hq]; rfl)]
  simp only [hk, vf, hq, he, hkill, reachVa_sound hs, hd, part, hb, Bool.not_true, Bool.or_self, Bool.false_eq_true, if_false, ne_eq, not_true, decide_false]
  cases descSound bs <;> rfl

/-! Disable and kill (R397). -/

/-- Whether a packet of an index of a queue is not parsed to its end yet. -/
def State.unparsedAt (s : State) (c k n : Nat) : Prop := ∃ q, s.queue? c k = some q ∧ ∃ x ∈ q.packets, x.unparsed = true ∧ x.idx = n

theorem State.WindsTo.unparsedAt {s t : State} (h : s.WindsTo t) {c k n : Nat} (hu : t.unparsedAt c k n) : s.unparsedAt c k n := by
  obtain ⟨f, hf, ef⟩ := h.queue?_eq
  obtain ⟨r, hr, x, hx, e, rfl⟩ := hu
  obtain ⟨q, hq, rfl⟩ := Option.map_eq_some_iff.1 ((ef c k).symm.trans hr)
  obtain ⟨y, hy, e, i⟩ := (hf q).packets x hx e
  exact ⟨q, hq, y, hy, e, i⟩

/-- One packet of a queue that is killed (R397). -/
def State.killPacket (s : State) (c k : Nat) (p : Packet) : State :=
  let s := if p.state = .withdrawn then s else s.countWithdrawn c k p.idx
  if p.unparsed then
    (s.onPacket c k p.idx fun p => { p with state := .withdrawn, wait := [] }).finishWithdrawn c k p.idx
  else s

theorem killPacket_winds (s : State) (c k : Nat) (p : Packet) : s.WindsTo (s.killPacket c k p) := by
  have counted : s.WindsTo (if p.state = .withdrawn then s else s.countWithdrawn c k p.idx) := by
    split
    · exact .refl s
    · exact countWithdrawn_winds ..
  unfold State.killPacket
  dsimp only
  split
  · exact .after (finishWithdrawn_winds ..) (counted.trans (windsTo_onPacket _ _ _ _ (fun _ => rfl) fun _ e => by simp [Packet.unparsed] at e))
  · exact counted

theorem onPacket_withdrawn (s : State) (c k n : Nat) : ¬ (s.onPacket c k n fun p => { p with state := .withdrawn, wait := [] }).unparsedAt c k n := by
  rintro ⟨r, hr, x, hx, e, i⟩
  rw [State.onPacket, queue?_onQueue] at hr
  · obtain ⟨q, _, rfl⟩ := Option.map_eq_some_iff.1 hr
    obtain ⟨y, _, rfl⟩ := List.mem_map.1 hx
    split at e
    · simp [Packet.unparsed] at e
    · rename_i h
      rw [if_neg h] at i
      exact h (decide_eq_true i)
  · exact fun q => ⟨rfl, rfl⟩

/-- Once a packet is killed, none of its index is still to be parsed. -/
theorem killPacket_parsed (s : State) (c k : Nat) {p : Packet} (hp : p.unparsed = true) : ¬ (s.killPacket c k p).unparsedAt c k p.idx := by
  rw [State.killPacket, if_pos hp]
  exact fun h => onPacket_withdrawn _ c k p.idx ((finishWithdrawn_winds ..).unparsedAt h)

theorem killPackets_parsed (s : State) (c k n : Nat) (l : List Packet) (h : (l.foldl (fun s p => s.killPacket c k p) s).unparsedAt c k n) :
    s.unparsedAt c k n ∧ ∀ p ∈ l, p.unparsed = true → p.idx ≠ n := by
  induction l generalizing s with
  | nil => exact ⟨h, fun _ hp => nomatch hp⟩
  | cons p l ih =>
    obtain ⟨one, rest⟩ := ih _ h
    refine ⟨(killPacket_winds ..).unparsedAt one, fun x hx e => ?_⟩
    rcases List.mem_cons.1 hx with rfl | hx
    · rintro rfl
      exact killPacket_parsed s c k e one
    · exact rest x hx e

/-- The launches, graphs and jobs of a queue are killed (R397). -/
def State.killWork (s : State) (c k : Nat) : State :=
  let s := (s.launches.filter fun l => l.ctx = c && l.queue = some k && l.block.status = 0).foldl (fun s l => s.killLaunch l.lid) s
  let s := (s.graphs.filter fun g => g.ctx = c && g.queue = some k && g.block.status = 0).foldl (fun s g => s.cancelGraph g.gid) s
  (s.jobs.filter fun j => j.ctx = c && j.queue = some k && j.block.status = 0).foldl (fun s j => s.cancelJob j.jid) s

theorem killWork_winds (s : State) (c k : Nat) : s.WindsTo (s.killWork c k) :=
  ((windsTo_foldl (fun _ _ => killLaunch_winds ..) _ _).trans (windsTo_foldl (fun _ _ => cancelGraph_winds ..) _ _)).trans (windsTo_foldl (fun _ _ => cancelJob_winds ..) _ _)

/-- A queue as a kill of it begins. -/
def Queue.closed (q : Queue) : Queue := { q with en := false, opening := false, wait := [], killing := true }

theorem queue?_closed {s : State} {c k : Nat} {q : Queue} (hq : s.queue? c k = some q) : (s.onQueue c k Queue.closed).queue? c k = some q.closed :=
  queue?_onQueue_some hq _ fun _ => ⟨rfl, rfl⟩

theorem Queue.windsTo_closed (q : Queue) : q.WindsTo q.closed := ⟨rfl, rfl, (nomatch ·), fun _ => rfl, fun _ => .inr rfl, fun x hx e => ⟨x, hx, e, rfl⟩⟩

/-- A kill closes its queue, withdraws its packets one after another, and then kills its work. -/
theorem startKill_eq {s : State} {c k : Nat} {q : Queue} (hq : (s.slot c k).queue? c k = some q) :
    s.startKill c k = (q.packets.foldl (fun s p => s.killPacket c k p) ((s.slot c k).onQueue c k Queue.closed)).killWork c k := by
  have closed : ((s.slot c k).onQueue c k Queue.closed).queue? c k = some q.closed := queue?_closed hq
  unfold State.startKill
  dsimp only
  split
  · rename_i h; exact nomatch h.symm.trans closed
  · rename_i r h
    obtain rfl : r = q.closed := Option.some.inj (h.symm.trans closed)
    rfl

theorem startKill_winds (s : State) (c k : Nat) : (s.slot c k).WindsTo (s.startKill c k) := by
  obtain ⟨q, hq⟩ := queue?_slot s c k
  rw [startKill_eq hq]
  exact .after (killWork_winds ..) (.after (windsTo_foldl (fun _ _ => killPacket_winds ..) _ _) (windsTo_onQueue _ _ _ Queue.windsTo_closed))

/-- Once a kill has begun its queue is not enabled, and none of its packets is still to be parsed. -/
theorem startKill_queue (s : State) (c k : Nat) :
    ∃ q, (s.startKill c k).queue? c k = some q ∧ q.en = false ∧ q.killing = true ∧ ∀ x ∈ q.packets, x.unparsed = false := by
  obtain ⟨q, hq⟩ := queue?_slot s c k
  have closed : ((s.slot c k).onQueue c k Queue.closed).queue? c k = some q.closed := queue?_closed hq
  have winds := (windsTo_foldl (fun s p => killPacket_winds s c k p) q.packets ((s.slot c k).onQueue c k Queue.closed)).trans (killWork_winds _ c k)
  obtain ⟨r, hr, w⟩ := winds.queue? closed
  rw [startKill_eq hq]
  refine ⟨r, hr, Bool.eq_false_iff.2 fun e => (nomatch w.en e), w.kill rfl, fun x hx => Bool.eq_false_iff.2 fun e => ?_⟩
  obtain ⟨⟨r', hr', y, hy, e', i⟩, parsed⟩ := killPackets_parsed _ c k x.idx _ ((killWork_winds _ c k).unparsedAt ⟨r, hr, x, hx, e, rfl⟩)
  obtain rfl : q.closed = r' := Option.some.inj (closed.symm.trans hr')
  exact parsed y hy e' i

/-- A kill of a queue with nothing left only closes it. -/
theorem startKill_idle {s : State} {c k : Nat} {q : Queue} (hq : s.queue? c k = some q) (hb : s.queueBusy c k = false) : s.startKill c k = s.onQueue c k Queue.closed := by
  simp only [State.queueBusy, hq, Option.any_some, Bool.or_eq_false_iff, Bool.not_eq_false', List.isEmpty_iff] at hb
  obtain ⟨⟨⟨packets, launches⟩, graphs⟩, jobs⟩ := hb
  have none_ {α : Type} {p : α → Bool} {l : List α} (h : l.any p = false) : l.filter p = [] := List.filter_eq_nil_iff.2 fun x hx e => by
    rw [List.any_eq_false] at h; exact h x hx e
  have same : s.slot c k = s := slot_of_some (by rw [hq]; rfl)
  rw [startKill_eq (same.symm ▸ hq), same, packets]
  rw [List.foldl_nil, State.killWork, State.onQueue_launches, none_ launches, List.foldl_nil, State.onQueue_graphs, none_ graphs, List.foldl_nil,
    State.onQueue_jobs, none_ jobs, List.foldl_nil]

/-- A queue as its kill completes where nothing is left, and goes on otherwise. -/
theorem killCheck_queue? (s : State) (c k : Nat) :
    (s.killCheck c k).queue? c k = (s.queue? c k).map fun q => if q.killing && !s.queueBusy c k then { q with killing := false, killed := true } else q := by
  unfold State.killCheck
  cases h : s.queue? c k with
  | none => simp [h]
  | some q =>
    have ended := queue?_onQueue s c k (fun q => { q with killing := false, killed := true }) fun _ => ⟨rfl, rfl⟩
    simp only [Option.any_some, Option.map_some]
    split
    · rw [h] at ended
      split <;> exact ended
    · exact h

theorem killCheck_mem (s : State) (c k : Nat) : (s.killCheck c k).mem = s.mem := by
  unfold State.killCheck
  split
  · dsimp only; split <;> rfl
  · rfl

theorem killStep_eq {s : State} {c k : Nat} (hk : slotOk c k = true) (h : ∀ q, s.queue? c k = some q → q.killing = false) :
    s.killStep c k = ((s.startKill c k).killCheck c k).stir := by
  have fresh : (s.queue? c k).any (·.killing) = false := by
    cases hq : s.queue? c k with
    | none => rfl
    | some q => exact h q hq
  simp [State.killStep, hk, fresh]

/-- A disable and a kill leave the queue closed, and nothing of it to parse (R383, R397). -/
theorem killStep_queue {s : State} {c k : Nat} (hk : slotOk c k = true) (h : ∀ q, s.queue? c k = some q → q.killing = false) :
    ∃ q, (s.killStep c k).queue? c k = some q ∧ q.en = false ∧ (q.killing = true ∨ q.killed = true) ∧ ∀ x ∈ q.packets, x.state ≠ .fetched ∧ x.state ≠ .parsing := by
  obtain ⟨q, hq, he, hkill, hp⟩ := startKill_queue s c k
  have state : ∀ x ∈ q.packets, x.state ≠ .fetched ∧ x.state ≠ .parsing := fun x hx => by simpa [Packet.unparsed] using hp x hx
  rw [killStep_eq hk h, queue?_stir, killCheck_queue?, hq, Option.map_some]
  refine ⟨_, rfl, ?_⟩
  split
  · exact ⟨he, .inr rfl, state⟩
  · exact ⟨he, .inl hkill, state⟩

/-- With nothing left they complete at once. -/
theorem killStep_idle {s : State} {c k : Nat} {q : Queue} (hk : slotOk c k = true) (h : ∀ q, s.queue? c k = some q → q.killing = false) (hq : s.queue? c k = some q)
    (hb : s.queueBusy c k = false) :
    (s.killStep c k).queue? c k = some { q with en := false, opening := false, wait := [], killing := false, killed := true } ∧ (s.killStep c k).mem = s.mem := by
  have closed : (s.onQueue c k Queue.closed).queue? c k = some q.closed := queue?_closed hq
  have busy : (s.onQueue c k Queue.closed).queueBusy c k = false := by
    rw [← hb, State.queueBusy, State.queueBusy, closed, hq]; rfl
  rw [killStep_eq hk h, startKill_idle hq hb]
  refine ⟨?_, killCheck_mem ..⟩
  rw [queue?_stir, killCheck_queue?, closed, busy]
  rfl

/-! The statement. -/

/-- Settles O46: an enable acts on the descriptor that it reads; a disable and a kill wind the queue up; register writes store their fields. -/
theorem queueControl : Obligations.QueueControl := by
  unfold Obligations.QueueControl
  intro s ctx slot q bs
  refine ⟨fun hs hq hk hv he hkill hd hp hb => ?_, fun i hi hk fresh => ?_, fun v => ⟨fun k => ⟨_, rfl, rfl, rfl⟩, fun hk => ?_, fun k hk => ?_, ?_⟩⟩
  · have enable := qctlEnable_read hs hq hk hv he hkill hd hp hb
    dsimp only
    refine ⟨fun sound => ⟨?_, ?_⟩, fun sound => ?_⟩
    · rw [if_pos sound] at enable
      exact ⟨_, enable, rfl, q.enabled bs, queue?_onQueue_some hq _ fun _ => ⟨rfl, rfl⟩, rfl, rfl, rfl, rfl, rfl, rfl, rfl, rfl, rfl, rfl, rfl, rfl, rfl⟩
    · obtain ⟨ring, ⟨low, high⟩, _⟩ := (descSound_iff bs).1 sound
      exact ⟨low, high, ring⟩
    · rw [if_neg (by simp [sound])] at enable
      exact ⟨_, enable, rfl, q.turnedDown, queue?_onQueue_some hq _ fun _ => ⟨rfl, rfl⟩, he, rfl⟩
  · have run : exec i s = .next (s.killStep ctx slot) := by rcases hi with rfl | rfl <;> rfl
    exact ⟨⟨_, run, killStep_queue hk fresh⟩, fun hq hb => ⟨_, run, killStep_idle hk fresh hq hb⟩⟩
  · obtain ⟨r, hr⟩ := queue?_slot s ctx slot
    have run : exec (.registerWrite (.qdesc ctx slot) v) s = .next ((s.slot ctx slot).onQueue ctx slot fun q => { q with qdesc := v }) := by
      rw [exec_registerWrite, execRegisterWrite, if_pos hk]
    exact ⟨_, run, slot_mem s ctx slot, { r with qdesc := v }, queue?_onQueue_some hr _ fun _ => ⟨rfl, rfl⟩, rfl⟩
  · refine ⟨_, rfl, ?_, rfl⟩
    simp [State.part, State.onPart, List.getD, hk]
  · refine ⟨_, rfl, rfl, ?_⟩
    cases s.fit <;> rfl

end Sys2Proof.Machine
end

section
/-! Start-up, the clock, and VF Enable (R18, R398, R418 to R420). -/
namespace Sys2Proof.Machine

/-! VF Enable is cleared (R398). -/

theorem Queue.WindsTo.en_false {q t : Queue} (h : q.WindsTo t) (e : q.en = false) : t.en = false :=
  Bool.eq_false_iff.2 fun f => by rw [h.en f] at e; cases e

/-- A queue that is being killed is not enabled. -/
def State.KillsClosed (s : State) : Prop := ∀ q ∈ s.queues, q.killing = true → q.en = false

theorem State.WindsTo.killsClosed {s t : State} (h : s.WindsTo t) (hs : s.KillsClosed) : t.KillsClosed := fun r hr e => by
  obtain ⟨q, hq, w⟩ := h.of_queue hr
  exact (w.killed e).elim (fun e => w.en_false (hs q hq e)) id

/-- No queue of a slot is enabled after its kill has begun. -/
theorem startKill_closed (s : State) (c k : Nat) : ∀ r ∈ (s.startKill c k).queues, r.ctx = c → r.slot = k → r.en = false := by
  rintro r hr rfl rfl
  obtain ⟨q, hq⟩ := queue?_slot s r.ctx r.slot
  rw [startKill_eq hq] at hr
  obtain ⟨p, hp, w⟩ := ((windsTo_foldl (fun s p => killPacket_winds s r.ctx r.slot p) q.packets _).trans (killWork_winds ..)).of_queue hr
  obtain ⟨x, _, rfl⟩ := List.mem_map.1 hp
  split at w
  · exact w.en_false rfl
  · rename_i h
    exact absurd (by simp [w.ctx, w.slot]) h

/-- The kills of some queues of a context that are there. -/
theorem startKills_wind (c : Nat) (l : List Queue) (s : State) (hl : ∀ q ∈ l, (s.queue? c q.slot).isSome = true) :
    let t := l.foldl (fun s q => if q.killing then s else s.startKill c q.slot) s
    s.WindsTo t ∧ ∀ q ∈ l, q.killing = false → ∀ r ∈ t.queues, r.ctx = c → r.slot = q.slot → r.en = false := by
  induction l generalizing s with
  | nil => exact ⟨.refl s, fun _ hq => nomatch hq⟩
  | cons p l ih =>
    have one : s.WindsTo (if p.killing then s else s.startKill c p.slot) := by
      split
      · exact .refl s
      · have kill := startKill_winds s c p.slot
        rwa [slot_of_some (hl p (.head _))] at kill
    obtain ⟨rest, closed⟩ := ih _ fun q hq => by
      obtain ⟨r, hr⟩ := Option.isSome_iff_exists.1 (hl q (.tail _ hq))
      obtain ⟨r', hr', _⟩ := one.queue? hr
      exact Option.isSome_iff_exists.2 ⟨r', hr'⟩
    refine ⟨one.trans rest, fun q hq => ?_⟩
    rcases List.mem_cons.1 hq with rfl | hq
    · intro e r hr hc hk
      rw [List.foldl_cons, if_neg (by simp [e])] at hr
      rw [if_neg (by simp [e])] at rest
      obtain ⟨x, hx, w⟩ := rest.of_queue hr
      exact w.en_false (startKill_closed s c q.slot x hx (w.ctx ▸ hc) (w.slot ▸ hk))
    · exact closed q hq

theorem contextEnds_winds (s : State) (c : Nat) : s.WindsTo (s.contextEnds c) := by
  have closed : ∀ (l : List Session) (s : State), (l.foldl (fun s x => s.closeSession x.handle) s).slots = s.slots :=
    foldl_keeps State.slots fun _ _ => closeSession_slots ..
  delta State.contextEnds
  extract_lets own lost all
  have ended : s.WindsTo own := .of_slots (closed _ s)
  have taken : own.WindsTo all := by
    unfold all
    split
    · exact .of_slots (closed _ own)
    · exact .refl own
  exact (ended.trans taken).trans ⟨rfl, fun _ => List.mem_of_mem_filter, (State.WindsTo.refl all).queues⟩

theorem contextEnds_tlb (s : State) (c : Nat) : ∀ e ∈ (s.contextEnds c).tlb, e.ctx ≠ c := fun _ he => of_decide_eq_true (List.mem_filter.1 he).2

/-- What of a VF context is removed once its queues are being killed (R398). -/
theorem removeVf_winds (s : State) (c : Nat) :
    ((s.queues.filter fun q => q.ctx = c).foldl (fun s q => if q.killing then s else s.startKill c q.slot) s).WindsTo (s.removeVf c) ∧
      ∀ e ∈ (s.removeVf c).tlb, e.ctx ≠ c := by
  delta State.removeVf
  extract_lets killed mine ended fids dropped freed
  have launches : killed.WindsTo ended := windsTo_foldl (fun _ _ => killLaunch_winds ..) mine killed
  have status : ended.WindsTo dropped := .of_slots (dropStatus_slots ..)
  have lines : dropped.WindsTo freed := .of_slots rfl
  refine ⟨((launches.trans status).trans lines).trans ((contextEnds_winds freed c).trans (.of_slots (onCtx_slots ..))), ?_⟩
  rw [State.onCtx_tlb]
  exact contextEnds_tlb freed c

/-- A VF context goes with its translations, and none of its queues stays enabled (R398). -/
theorem removeVf_clears {s : State} (hs : s.KillsClosed) (c : Nat) :
    s.WindsTo (s.removeVf c) ∧ (∀ e ∈ (s.removeVf c).tlb, e.ctx ≠ c) ∧ ∀ r ∈ (s.removeVf c).queues, r.ctx = c → r.en = false := by
  obtain ⟨rest, tlb⟩ := removeVf_winds s c
  obtain ⟨kills, closed⟩ := startKills_wind c (s.queues.filter fun q => q.ctx = c) s fun q hq => by
    obtain ⟨hq, hc⟩ := List.mem_filter.1 hq
    exact List.find?_isSome.2 ⟨q, hq, by simpa using hc⟩
  refine ⟨kills.trans rest, tlb, fun r hr hc => ?_⟩
  obtain ⟨x, hx, w⟩ := rest.of_queue hr
  obtain ⟨q, hq, w'⟩ := kills.of_queue hx
  have own : q ∈ s.queues.filter fun q => q.ctx = c := List.mem_filter.2 ⟨hq, by simp [← hc, w.ctx, w'.ctx]⟩
  refine w.en_false ?_
  cases e : q.killing with
  | true => exact w'.en_false (hs q hq e)
  | false => exact closed q own e x hx (w.ctx ▸ hc) w'.slot

theorem removeVfs_clear (cs : List Nat) {s : State} (hs : s.KillsClosed) :
    let t := cs.foldl (fun (s : State) c => s.removeVf c) s
    s.WindsTo t ∧ (∀ e ∈ t.tlb, e.ctx ∉ cs) ∧ ∀ r ∈ t.queues, r.ctx ∈ cs → r.en = false := by
  induction cs generalizing s with
  | nil => exact ⟨.refl s, fun _ _ => List.not_mem_nil, fun _ _ h => nomatch h⟩
  | cons c cs ih =>
    obtain ⟨one, tlb, closed⟩ := removeVf_clears hs c
    obtain ⟨rest, tlbs, closeds⟩ := ih (one.killsClosed hs)
    refine ⟨one.trans rest, fun e he hc => ?_, fun r hr hc => ?_⟩
    · exact (List.mem_cons.1 hc).elim (tlb e (rest.tlb e he)) (tlbs e he)
    · rcases List.mem_cons.1 hc with hc | hc
      · obtain ⟨q, hq, w⟩ := rest.of_queue hr
        exact w.en_false (closed q hq (w.ctx ▸ hc))
      · exact closeds r hr hc

theorem vfEnableClear_eq {s : State} (hv : s.vfEnable = true) :
    exec .vfEnableClear s = .next ((upFrom 1 63).foldl (fun (s : State) c => s.removeVf c) { s with vfEnable := false }).stir := by
  rw [exec_vfEnableClear, execVfEnableClear, if_neg (by simp [hv])]

/-! VF Enable is set (R398). -/

/-- The PF alone is left, and every VF context is unbound (R398). -/
def State.vfAnew (s : State) : State :=
  { s with
    vfEnable := true
    ctxs := s.ctx 0 :: List.replicate 63 {}
    queues := s.queues.filter fun q => q.ctx = 0
    launches := s.launches.filter fun l => l.ctx = 0
    graphs := s.graphs.filter fun g => g.ctx = 0
    jobs := s.jobs.filter fun j => j.ctx = 0
    walks := s.walks.filter fun w => w.ctx = 0
    tlb := s.tlb.filter fun e => e.ctx = 0
    parts := s.parts.map fun (p : Part) => if p.running = some 0 then p else { p with running := none, halting := false } }

theorem vfEnableSet_eq {s : State} (hv : s.vfEnable = false) (hf : ∀ f ∈ s.formes, ∀ l, s.launch? f.lid = some l → l.ctx = 0) :
    exec .vfEnableSet s = .next (s.dropStatus (· ≠ 0)).vfAnew := by
  have quiet : (s.formes.any fun f => (s.launch? f.lid).any fun l => l.ctx ≠ 0) = false := List.any_eq_false.2 fun f h => by
    cases e : s.launch? f.lid with
    | none => simp
    | some l => simp [hf f h l e]
  rw [exec_vfEnableSet, execVfEnableSet, hv, Bool.false_or, if_neg (Bool.eq_false_iff.1 quiet)]
  rfl

theorem vfAnew_unbound (s : State) {k : Nat} (hk : 1 ≤ k) : (s.vfAnew.ctx k).part = none := by
  obtain ⟨k, rfl⟩ := Nat.exists_eq_add_of_le' hk
  simp only [State.vfAnew, State.ctx, List.getD, List.getElem?_cons_succ, List.getElem?_replicate]
  split <;> rfl


/-- One waiting status write goes (R339, R398). -/
def State.dropOne (s : State) (w : StatusWrite) : State :=
  match w.what with
  | .record r => s.logWrite 0 r
  | _ => if w.group = logGroup then s else s.dropWrite w .cancelled

theorem dropStatus_eq (s : State) (gone : Nat → Bool) :
    s.dropStatus gone = (s.status.filter fun w => gone w.ctx).foldl State.dropOne { s with status := s.status.filter fun w => !gone w.ctx } := rfl

/-- With VF Enable 0 a status write that goes is reported to the PF's log. -/
theorem dropOne_logsTo {s : State} (hv : s.vfEnable = false) (w : StatusWrite) : s.LogsTo 0 (s.dropOne w) := by
  have pf : ∀ c, s.logCtx c = 0 := fun c => by simp [State.logCtx, hv]
  have log := fun c r => pf c ▸ logWrite_logsTo s c r
  unfold State.dropOne
  split
  · exact log ..
  · split
    · exact .of_front rfl
    · exact log ..

theorem dropOnes_logsTo (l : List StatusWrite) {s : State} (hv : s.vfEnable = false) : s.LogsTo 0 (l.foldl State.dropOne s) := by
  induction l generalizing s with
  | nil => exact .of_front rfl
  | cons w l ih =>
    have one := dropOne_logsTo hv w
    exact one.trans (ih ((congrArg (·.2.2) one.slots).trans hv))

/-- With VF Enable 0 the status writes that wait after a drop are of the contexts that stay, or of the PF. -/
theorem dropStatus_status {s : State} (hv : s.vfEnable = false) (gone : Nat → Bool) {w : StatusWrite} (hw : w ∈ (s.dropStatus gone).status) :
    gone w.ctx = false ∨ w.ctx = 0 := by
  rw [dropStatus_eq] at hw
  have logs := dropOnes_logsTo (s := { s with status := s.status.filter fun w => !gone w.ctx }) (s.status.filter fun w => gone w.ctx) hv
  refine (logs.status w hw).imp (fun kept => ?_) id
  simpa using (List.mem_filter.1 kept).2

theorem dropStatus_none {s : State} {gone : Nat → Bool} (h : ∀ w ∈ s.status, gone w.ctx = false) :
    s.dropStatus gone = { s with status := s.status.filter fun w => !gone w.ctx } := by
  have none_ : (s.status.filter fun w => gone w.ctx) = [] := List.filter_eq_nil_iff.2 fun w hw => by simp [h w hw]
  rw [dropStatus_eq, none_]
  rfl

/-! The clock (R18). -/

theorem clockCap_le (s : State) : s.clockCap ≤ 1800 := by
  have lower (l : List UnitBin) : ∀ m, l.foldl (fun m (b : UnitBin) => match b.bin with | some n => min m (binClock n) | none => m) m ≤ m := by
    induction l with
    | nil => exact fun m => Nat.le_refl m
    | cons b l ih =>
      intro m
      refine Nat.le_trans (ih _) ?_
      dsimp only
      split
      · exact Nat.min_le_left ..
      · exact Nat.le_refl m
  exact lower _ _

/-! Start-up (R418). -/

/-- The device once start-up has read what testing found of its units (R418). -/
def State.tested (s : State) (r : StartReport) : State :=
  let bin := fun (u : UnitId) => match r.bins.find? fun b => b.1 = u with | some b => b.2.bind fun n => if n ≤ 3 then some n else none | none => some 0
  let bins := s.fit.units.map fun u => ({ unit := u, bin := bin u } : UnitBin)
  let dead := (bins.filter fun b => isCore b.unit && b.bin.isNone).length
  let s := { s with bins := bins, firmware := r.firmware, dvsec := { s.dvsec with retcore := dead } }
  { s with clockMHz := min s.clockMHz s.clockCap }

/-- The device at the end of start-up (R418, R420). -/
def State.started (s : State) : State :=
  let pc := bits s.dvsec.config.toNat 12 8
  let pc := match s.fit with | .m1 => if 1 ≤ pc ∧ pc ≤ 127 then pc else 96 | .f2 => 0
  { s with frames := (Config.startFrames.filter fun f => s.ownMem (f * 2 ^ 16)).map (·, none), dvsec := { s.dvsec with stage := 5, ready := true, memActive := s.fit = .m1, pcache := pc, bivsz := min 8 (bits s.dvsec.config.toNat 0 4) } }

/-- Start-up by its steps: the firmware's signature, the units, the links and the memory (R418). -/
theorem startUp_eq (s : State) (r : StartReport) :
    exec (.startUp r) s = .next (
      if Config.mlDsaVerify Config.yunaistKey r.firmware r.signature = false then (s.restart r.powerOn).startFails 1
      else if r.phyOk = false then ((s.restart r.powerOn).tested r).startFails 3
      else if r.memOk = false then ((s.restart r.powerOn).tested r).startFails 4
      else ((s.restart r.powerOn).tested r).started) := by
  rw [exec_startUp]
  unfold execStartUp
  cases Config.mlDsaVerify Config.yunaistKey r.firmware r.signature
  · rfl
  · cases r.phyOk
    · rfl
    · cases r.memOk <;> rfl

/-! The statement. -/

/-- Settles O53: start-up goes by its steps from the state that reset leaves; a step of the clock stays within its bounds; clearing VF Enable winds up one
VF context after another, and setting it leaves only the PF's work. -/
theorem startUpAndClocks : Obligations.StartUpAndClocks := by
  unfold Obligations.StartUpAndClocks
  intro s r
  dsimp only
  refine ⟨fun hv => ?_, fun hv hp => ?_, fun hv hp hm => ?_, fun hv hp hm => ?_, fun up low high => ?_, fun hv hk => ?_, fun hv hf => ?_⟩
  · exact ⟨_, by rw [startUp_eq, if_pos hv], rfl, rfl, rfl, rfl, rfl⟩
  · exact ⟨_, by rw [startUp_eq, if_neg (by simp [hv]), if_pos hp], rfl, rfl, rfl, rfl, rfl⟩
  · exact ⟨_, by rw [startUp_eq, if_neg (by simp [hv]), if_neg (by simp [hp]), if_pos hm], rfl, rfl, rfl, rfl, rfl⟩
  · have run : exec (.startUp r) s = .next ((s.restart r.powerOn).tested r).started := by
      rw [startUp_eq, if_neg (by simp [hv]), if_neg (by simp [hp]), if_neg (by simp [hm])]
    refine ⟨_, run, rfl, rfl, rfl, rfl, rfl, fun _ => rfl, rfl, rfl, rfl, rfl, ?_, ?_⟩
    · simp [State.started, State.tested, State.restart, bits]
    · cases h : s.fit <;> simp [State.started, State.tested, State.restart, bits, h]
  · have cap := clockCap_le s
    refine ⟨_, rfl, ?_, ?_, rfl, rfl, rfl, rfl⟩
    all_goals
      dsimp only
      split
      · split <;> omega
      · omega
  · obtain ⟨winds, tlb, closed⟩ := removeVfs_clear (upFrom 1 63) (s := { s with vfEnable := false }) fun q hq e => by simp [hk q hq] at e
    have run := vfEnableClear_eq hv
    generalize (upFrom 1 63).foldl (fun (s : State) c => s.removeVf c) { s with vfEnable := false } = t at run winds tlb closed
    refine ⟨t.stir, run, winds.vfEnable, fun e he => ?_, fun q hq one up => closed q hq ((mem_upFrom ..).2 ⟨one, up⟩)⟩
    have out := tlb e he
    rw [mem_upFrom] at out
    omega
  · refine ⟨_, vfEnableSet_eq hv hf, rfl, fun none_ => ?_, fun w hw => ?_, fun k => vfAnew_unbound _, fun q hq => ?_⟩
    · rw [dropStatus_none fun w hw => by simp [none_ w hw]]
      exact ⟨rfl, rfl⟩
    · simpa using dropStatus_status hv _ hw
    · simpa using (List.mem_filter.1 hq).2

end Sys2Proof.Machine
end

section
/-! SUPPORT. Integer arithmetic: what each lane of a word of R141 computes. -/
namespace Sys2Proof.Machine

theorem regs_le (t : OpTy) : t.regs ≤ 8 := by cases t <;> decide

section
variable {s : State} {a : Agent} {i : Instr}

/-- A word of two operands read as their type (R141). -/
theorem intBin_computes {o : V2} {f : Int → Int → Int} {g : Nat → Int} (hx : exec i s = s.intBin i o f)
    (hd : (usesOf a.l.record i).dsts = regNames o.ty.regs o.d) (hg : ∀ k, f (s.opInt a o.ty o.a 0 k) (s.opInt a o.ty o.b 1 k) = g k) :
    Computes s a i o.d o.ty.regs o.ty.signed 0 fun k => tyRes o.ty (g k) :=
  lanewise_plain hx hd (regs_le _) fun k _ => congrArg (tyRes o.ty) (hg k)

/-- A word of one operand read as its type (R141). -/
theorem intUn_computes {o : V2} {f : Int → Int} {g : Nat → Int} (hx : exec i s = s.intUn i o f)
    (hd : (usesOf a.l.record i).dsts = regNames o.ty.regs o.d) (hg : ∀ k, f (s.opInt a o.ty o.a 0 k) = g k) :
    Computes s a i o.d o.ty.regs o.ty.signed 0 fun k => tyRes o.ty (g k) :=
  lanewise_plain hx hd (regs_le _) fun k _ => congrArg (tyRes o.ty) (hg k)

/-- A word of three 32-bit operands (R141, R143, R144). -/
theorem triOp_computes {o : V3} {sext : Bool} {f : W32 → W32 → W32 → W32} {g : Nat → W32} (hx : exec i s = s.triOp i o sext f)
    (hd : (usesOf a.l.record i).dsts = regNames 1 o.d) (hg : ∀ k, f (s.op32 a o.a 0 k) (s.op32 a o.b 1 k) (s.op32 a o.c 2 k) = g k) :
    Computes s a i o.d 1 sext 0 fun k => res32 (g k) :=
  lanewise_plain hx hd (by decide) fun k _ => congrArg res32 (hg k)

end

/-- Reading an operand as a 32-bit integer and writing it again keeps its bits (R105, R118). -/
theorem ofInt_intOf (signed : Bool) (x : W32) : BitVec.ofInt 32 (intOf signed 32 x.toNat) = x := by
  apply BitVec.eq_of_toNat_eq
  have := x.isLt
  rw [BitVec.toNat_ofInt]
  unfold intOf
  dsimp only
  split <;> omega

theorem mType_signed (m : BitVec 2) : (mType m).signed = !m.getLsbD 0 := by
  unfold mType
  cases m.getLsbD 0 <;> rfl

/-- IMADW reads A and B with the signedness of its M field (R140, R141). -/
theorem exec_imadw_lanes (p : V3) (s : State) : exec (.imadw p) s = s.lanewise (.imadw p) p.d 2 (!p.m.getLsbD 0) false fun a _ k =>
    resN 2 (BitVec.ofInt 64 (s.ext32 a (!p.m.getLsbD 0) p.a 0 k * s.ext32 a (!p.m.getLsbD 0) p.b 1 k + (s.opVal a p.c 2 2 k).toNat)) := by
  rw [← mType_signed]
  rfl

/-- ICLAMP reads its operands with the signedness of its M field (R140, R141). -/
theorem exec_iclamp_lanes (p : V3) (s : State) : exec (.iclamp p) s = s.triOp (.iclamp p) p (!p.m.getLsbD 0) fun x y z =>
    BitVec.ofInt 32 (min (max (intOf (!p.m.getLsbD 0) 32 x.toNat) (intOf (!p.m.getLsbD 0) 32 y.toNat)) (intOf (!p.m.getLsbD 0) 32 z.toNat)) := by
  rw [← mType_signed]
  rfl

/-- Settles O1: each word of R141 runs lane by lane, and its function is the table's exact integer. -/
theorem integerArithmetic : Obligations.IntegerArithmetic := by
  unfold Obligations.IntegerArithmetic
  intro s a o p
  refine ⟨⟨?_, ?_, ?_, ?_, ?_, ?_, ?_, ?_, ?_⟩, ?_, ?_, ?_⟩
  · exact intBin_computes (exec_iadd s) rfl fun _ => rfl
  · exact intBin_computes (exec_isub s) rfl fun _ => rfl
  · exact intBin_computes (exec_imul s) rfl fun _ => rfl
  · exact intBin_computes (exec_imulh s) rfl fun _ => rfl
  · exact intUn_computes (exec_ineg s) rfl fun _ => rfl
  · refine intUn_computes (exec_iabs s) rfl fun k => ?_
    split <;> omega
  · exact intBin_computes (exec_imin s) rfl fun _ => min_def ..
  · exact intBin_computes (exec_imax s) rfl fun _ => max_def ..
  · exact lanewise_plain (exec_lea s) rfl (regs_le _) fun _ _ => rfl
  · refine triOp_computes (exec_imad s) rfl fun k => ?_
    simp only [State.ext32, BitVec.ofInt_add, BitVec.ofInt_mul, ofInt_intOf]
  · exact lanewise_plain (exec_imadw_lanes p s) rfl (by decide) fun _ _ => rfl
  · refine triOp_computes (exec_iclamp_lanes p s) rfl fun k => ?_
    rw [min_def, max_def]
    rfl

end Sys2Proof.Machine
end

section
/-! SUPPORT. Logic and shifts (R142, R143): bit by bit, and by the width of the type. -/
namespace Sys2Proof.Machine

section
variable {s : State} {a : Agent} {i : Instr}

/-- A word of a value and a count (R143). -/
theorem shift_computes {o : V2} {f : Int → Nat → Int} {g : Nat → LaneRes} (hx : exec i s = s.shiftOp i o f)
    (hd : (usesOf a.l.record i).dsts = regNames o.ty.regs o.d) (hg : ∀ k, tyRes o.ty (f (s.opVal a o.a o.ty.regs 0 k).toNat (s.op32 a o.b 1 k).toNat) = g k) :
    Computes s a i o.d o.ty.regs o.ty.signed 0 g :=
  lanewise_plain hx hd (regs_le _) fun k _ => hg k

/-- A word of two operands read as bits (R142). -/
theorem bitBin_computes {o : V2} {f : W64 → W64 → W64} {g : Nat → W64} (hx : exec i s = s.bitBin i o f)
    (hd : (usesOf a.l.record i).dsts = regNames o.ty.regs o.d) (hg : ∀ k, f (s.opVal a o.a o.ty.regs 0 k) (s.opVal a o.b o.ty.regs 1 k) = g k) :
    Computes s a i o.d o.ty.regs o.ty.signed 0 fun k => resN o.ty.regs (g k) :=
  lanewise_plain hx hd (regs_le _) fun k _ => congrArg (resN o.ty.regs) (hg k)

end

/-- An operand of one register is its 32-bit value (R105). -/
theorem opVal_one (s : State) (a : Agent) (x : Src) (slot k : Nat) : s.opVal a x 1 slot k = (s.op32 a x slot k).setWidth 64 := by
  simp only [State.opVal, State.op32, State.src32, State.srcLanes, laneGet, rowGet, List.getD, List.getElem?_map, if_true]
  cases (s.srcRow a x 0 0 (8 * slot))[k]? <;> rfl

theorem wLow_setWidth (x : W32) : wLow (x.setWidth 64) = x := by
  apply BitVec.eq_of_toNat_eq
  simp only [wLow, BitVec.extractLsb'_toNat, BitVec.toNat_setWidth, Nat.shiftRight_zero]
  omega

theorem ofInt_toNat {n : Nat} (x : BitVec n) : BitVec.ofInt n x.toNat = x := by
  rw [BitVec.ofInt_natCast, BitVec.ofNat_toNat, BitVec.setWidth_eq]

theorem shrInt_toNat {w : Nat} (x : BitVec w) (n : Nat) : shrInt x.toNat n = (x >>> n).toNat := by
  rw [BitVec.toNat_ushiftRight, Nat.shiftRight_eq_div_pow, shrInt]
  push_cast
  rfl

/-- A signed reading is the bit vector's (R105). -/
theorem intOf_true (n u : Nat) : intOf true n u = (BitVec.ofNat n u).toInt := by
  rw [BitVec.toInt_eq_msb_cond, BitVec.msb_eq_decide, BitVec.toNat_ofNat]
  simp [intOf]

/-- Wrapping gives the bits of the value (R118). -/
theorem wrapTo_eq (n : Nat) (x : Int) : wrapTo n x = (BitVec.ofInt n x).toNat := by
  rw [BitVec.toNat_ofInt, wrapTo]; push_cast; rfl

theorem wLow_ofInt (x : Int) : wLow (BitVec.ofInt 64 x) = BitVec.ofInt 32 x := by
  apply BitVec.eq_of_toNat_eq
  simp only [wLow, BitVec.extractLsb'_toNat, BitVec.toNat_ofInt, Nat.shiftRight_zero]
  omega

theorem tyPut_eq (t : OpTy) (x : Int) : tyPut t x = BitVec.ofInt 64 (if t.signed then (BitVec.ofInt (tyBits t) x).toInt else (BitVec.ofInt (tyBits t) x).toNat) := by
  unfold tyPut
  dsimp only
  rw [wrapTo_eq, intOf_true, BitVec.ofNat_toNat, BitVec.setWidth_eq, ← BitVec.ofInt_natCast]
  split <;> rfl

/-- A full-width integer result is the value's bits (R105, R118). -/
theorem tyRes_word {t : OpTy} (h : t.isWord = true) (x : Int) : tyRes t x = resN t.regs (BitVec.ofInt 64 x) := by
  have narrow : ∀ y, BitVec.ofInt 32 y = BitVec.ofInt 32 x → resN 1 (BitVec.ofInt 64 y) = resN 1 (BitVec.ofInt 64 x) := fun y e => by
    simp only [resN, if_true, wLow_ofInt, e]
  rw [tyRes, tyPut_eq]
  cases t with
  | i32 => exact narrow _ BitVec.ofInt_toInt
  | n32 => exact narrow _ (ofInt_toNat _)
  | i64 => exact congrArg (resN 2) BitVec.ofInt_toInt
  | n64 => exact congrArg (resN 2) (ofInt_toNat _)
  | _ => cases h

/-- A rotation adds what a shift moves out to what it leaves (R143). -/
theorem rotateLeft_eq_ofInt {w : Nat} (x : BitVec w) (c : Nat) :
    BitVec.ofInt w (x.toNat * 2 ^ (c % w) + shrInt x.toNat (w - c % w)) = x.rotateLeft c := by
  rw [BitVec.rotateLeft_def, ← BitVec.add_eq_or_of_and_eq_zero, BitVec.ofInt_add]
  · have left : BitVec.ofInt w (x.toNat * 2 ^ (c % w)) = x <<< (c % w) := by
      apply BitVec.eq_of_toNat_eq
      rw [BitVec.toNat_shiftLeft, Nat.shiftLeft_eq, ← BitVec.toNat_ofNat, ← BitVec.ofInt_natCast]
      push_cast; rfl
    have right : BitVec.ofInt w (shrInt x.toNat (w - c % w)) = x >>> (w - c % w) := by
      rw [shrInt_toNat, ofInt_toNat]
    rw [left, right]
  · apply BitVec.eq_of_getLsbD_eq
    intro j hj
    have : c % w < w := Nat.mod_lt _ (by omega)
    rw [BitVec.getLsbD_and, BitVec.getLsbD_shiftLeft, BitVec.getLsbD_ushiftRight, BitVec.getLsbD_zero]
    by_cases h : j < c % w
    · simp [h]
    · have high := BitVec.getLsbD_of_ge x (w - c % w + j) (by omega)
      rw [high, Bool.and_false]

/-- A shift by the width or more leaves the sign (R143). -/
theorem shrInt_intOf (w n c : Nat) : shrInt (intOf true w n) (min c w) =
    if w ≤ c then (if intOf true w n < 0 then -1 else 0) else intOf true w n / 2 ^ c := by
  by_cases h : w ≤ c
  · rw [if_pos h, min_eq_right h, shrInt, intOf_true]
    have up := BitVec.two_mul_toInt_lt (x := BitVec.ofNat w n)
    have down := BitVec.le_two_mul_toInt (x := BitVec.ofNat w n)
    split
    · exact Int.ediv_eq_neg_one_of_neg_of_le ‹_› (by omega)
    · exact Int.ediv_eq_zero_of_lt (by omega) (by omega)
  · rw [if_neg h, min_eq_left (by omega), shrInt]

/-- R143: ROL at the width of the type. -/
theorem tyRes_rol {t : OpTy} (h : t.isWord = true) (x : W64) (hx : tyBits t = 32 → (x.setWidth 32).toNat = x.toNat) (n : Nat) :
    tyRes t (x.toNat * 2 ^ (n % tyBits t) + shrInt x.toNat (tyBits t - n % tyBits t)) =
      resN t.regs (if tyBits t = 64 then x.rotateLeft n else ((x.setWidth 32).rotateLeft n).setWidth 64) := by
  have narrow : tyBits t = 32 → resN 1 (BitVec.ofInt 64 (x.toNat * 2 ^ (n % 32) + shrInt x.toNat (32 - n % 32))) =
      resN 1 (((x.setWidth 32).rotateLeft n).setWidth 64) := fun e => by
    simp only [resN, if_true, wLow_ofInt, wLow_setWidth, ← hx e, rotateLeft_eq_ofInt]
  rw [tyRes_word h]
  cases t with
  | i32 => exact narrow rfl
  | n32 => exact narrow rfl
  | i64 => exact congrArg (resN 2) (rotateLeft_eq_ofInt x n)
  | n64 => exact congrArg (resN 2) (rotateLeft_eq_ofInt x n)
  | _ => cases h

theorem regs_of_tyBits {t : OpTy} (h : tyBits t = 32) : t.regs = 1 := by revert h; cases t <;> decide

/-- R142: bit `j` is taken from the table. -/
theorem bmix_getLsbD (table : BitVec 8) (x y z : W32) (j : Nat) (hj : j < 32) : (bmix table x y z).getLsbD j =
    table.getLsbD ((if x.getLsbD j then 1 else 0) + (if y.getLsbD j then 2 else 0) + (if z.getLsbD j then 4 else 0)) := by
  have pick : ∀ (b : Bool) (w : W32), (if b = true then w else 0).getLsbD j = (b && w.getLsbD j) := fun b w => by cases b <;> simp
  simp only [bmix, upFrom, List.foldl, BitVec.getLsbD_or, pick]
  cases hx : x[j] <;> cases hy : y[j] <;> cases hz : z[j] <;> simp [hx, hy, hz, hj]

/-- R143: the upper half of the shifted pair. -/
theorem fshl_eq (x y z : W32) : BitVec.ofNat 32 (((x.toNat * 2 ^ 32 + y.toNat) * 2 ^ (z.toNat % 32)) / 2 ^ 32) =
    ((x ++ y) <<< (z.toNat % 32)).extractLsb' 32 32 := by
  apply BitVec.eq_of_toNat_eq
  have pair : (x ++ y).toNat = x.toNat * 2 ^ 32 + y.toNat := by
    rw [BitVec.toNat_append, ← Nat.shiftLeft_add_eq_or_of_lt y.isLt, Nat.shiftLeft_eq]
  simp only [BitVec.extractLsb'_toNat, BitVec.toNat_shiftLeft, BitVec.toNat_ofNat, Nat.shiftRight_eq_div_pow, Nat.shiftLeft_eq, pair]
  omega

/-- Settles O2: logic runs lane by lane; the shifts, the rotation, FSHL and BMIX agree with their bits. -/
theorem logicAndShifts : Obligations.LogicAndShifts := by
  unfold Obligations.LogicAndShifts
  intro s a o p
  refine ⟨⟨?_, ?_, ?_, ?_, ?_, ?_, ?_, ?_, ?_, fun hw => ?_⟩, ?_, ?_⟩
  · exact bitBin_computes (exec_and s) rfl fun _ => rfl
  · exact bitBin_computes (exec_or s) rfl fun _ => rfl
  · exact bitBin_computes (exec_xor s) rfl fun _ => rfl
  · exact bitBin_computes (exec_andn s) rfl fun _ => rfl
  · exact bitBin_computes (exec_orn s) rfl fun _ => rfl
  · exact lanewise_plain (exec_not s) rfl (regs_le _) fun _ _ => rfl
  · exact shift_computes (exec_shl s) rfl fun _ => rfl
  · exact shift_computes (exec_shr s) rfl fun _ => rfl
  · exact shift_computes (exec_sar s) rfl fun _ => congrArg (tyRes o.ty) (shrInt_intOf ..)
  · refine shift_computes (exec_rol s) rfl fun k => tyRes_rol hw (s.opVal a o.a o.ty.regs 0 k) (fun e => ?_) (s.op32 a o.b 1 k).toNat
    rw [regs_of_tyBits e, opVal_one, BitVec.setWidth_setWidth_of_le _ (by decide), BitVec.setWidth_eq, BitVec.toNat_setWidth]
    exact (Nat.mod_eq_of_lt (by have := (s.op32 a o.a 0 k).isLt; omega)).symm
  · exact triOp_computes (exec_fshl s) rfl fun k => fshl_eq ..
  · exact ⟨bmix (p.c.pat ++ p.b.pat), fun x y z j hj => bmix_getLsbD _ x y z j hj, lanewise_plain (exec_bmix s) rfl (by decide) fun _ _ => rfl⟩

end Sys2Proof.Machine
end

section
/-! SUPPORT. Bit fields taken and put, bits counted and reversed (R144, R145). -/
namespace Sys2Proof.Machine

theorem tyBits_le (t : OpTy) : tyBits t ≤ 64 := by cases t <;> decide

/-- A word that counts bits of an operand at its type's width (R145). -/
theorem count_computes {s : State} {a : Agent} {i : Instr} {o : V2} {f : Nat → Nat → Nat} (hx : exec i s = s.countOp i o f) (hd : (usesOf a.l.record i).dsts = regNames 1 o.d) :
    Computes s a i o.d 1 o.ty.signed 0 fun k =>
      res32 (BitVec.ofNat 32 (f (tyBits o.ty) ((s.opVal a o.a o.ty.regs 0 k).toNat % 2 ^ tyBits o.ty))) :=
  lanewise_plain hx hd (by decide) fun _ _ => rfl

/-- The field of BFX (R144): the `len` bits from `pos` of the value continued by its sign or by 0. -/
def fieldOf (signed : Bool) (x : W32) (pos len : Nat) : BitVec len :=
  if signed then (x.sshiftRight pos).signExtend len else (x >>> pos).setWidth len

/-- Bit `k` of a value continued by its sign or by 0. -/
def wideBit (signed : Bool) (x : W32) (k : Nat) : Bool := if k < 32 then x.getLsbD k else signed && x.getLsbD 31

theorem fieldOf_getLsbD (signed : Bool) (x : W32) (pos len k : Nat) (hk : k < len) (hl : len ≤ 32) :
    (fieldOf signed x pos len).getLsbD k = wideBit signed x (pos + k) := by
  unfold wideBit
  cases signed with
  | true =>
    have : ¬ 32 ≤ k := by omega
    simp only [fieldOf, if_true, BitVec.getLsbD_signExtend, BitVec.getLsbD_sshiftRight, hk, show k < 32 by omega, decide_true, Bool.true_and, this,
      decide_false, Bool.not_false]
    rfl
  | false =>
    simp only [fieldOf, Bool.false_eq_true, if_false, BitVec.getLsbD_setWidth, BitVec.getLsbD_ushiftRight, hk, decide_true, Bool.true_and, Bool.false_and]
    split
    · rfl
    · exact BitVec.getLsbD_of_ge x _ (by omega)

/-- BFX is its field, extended (R144). -/
theorem bfx_eq (signed : Bool) (x y z : W32) : bfx signed x y z = if min (z.toNat % 256) 32 = 0 then 0 else
    if signed then (fieldOf true x (y.toNat % 256) (min (z.toNat % 256) 32)).signExtend 32
    else (fieldOf false x (y.toNat % 256) (min (z.toNat % 256) 32)).setWidth 32 := by
  unfold bfx
  generalize y.toNat % 256 = pos
  generalize min (z.toNat % 256) 32 = len
  cases signed with
  | true =>
    have field : BitVec.ofInt len (shrInt x.toInt pos) = fieldOf true x pos len := by
      have : shrInt x.toInt pos = (x.sshiftRight pos).toInt := by
        rw [BitVec.toInt_sshiftRight, Int.shiftRight_eq_div_pow, shrInt]; push_cast; rfl
      rw [this]; rfl
    simp only [if_true, wrapTo_eq, intOf_true, BitVec.ofNat_toNat, BitVec.setWidth_eq, field]
    rfl
  | false =>
    have field : BitVec.ofInt len (shrInt x.toNat pos) = fieldOf false x pos len := by
      rw [shrInt_toNat, BitVec.ofInt_natCast, BitVec.ofNat_toNat]; rfl
    have read : intOf false len (fieldOf false x pos len).toNat = (fieldOf false x pos len).toNat := by
      simp [intOf]
    simp only [Bool.false_eq_true, if_false, wrapTo_eq, field, read, BitVec.ofInt_natCast, BitVec.ofNat_toNat]

/-- The bits of a field extended by its last bit or by 0. -/
theorem fieldExtended_getLsbD (signed : Bool) (x : W32) (pos len j : Nat) (hj : j < 32) (h0 : 0 < len) (hl : len ≤ 32) :
    (if signed then (fieldOf true x pos len).signExtend 32 else (fieldOf false x pos len).setWidth 32).getLsbD j =
      if j < len then wideBit signed x (pos + j) else signed && wideBit signed x (pos + len - 1) := by
  cases signed with
  | true =>
    have last : (fieldOf true x pos len).msb = wideBit true x (pos + len - 1) := by
      rw [BitVec.msb_eq_getLsbD_last, fieldOf_getLsbD _ _ _ _ _ (by omega) hl, Nat.add_sub_assoc h0]
    rw [if_pos rfl, BitVec.getLsbD_signExtend, last, decide_eq_true hj, Bool.true_and, Bool.true_and]
    split
    · rw [fieldOf_getLsbD _ _ _ _ _ ‹_› hl]
    · rfl
  | false =>
    rw [if_neg Bool.false_ne_true, BitVec.getLsbD_setWidth, decide_eq_true hj, Bool.true_and, Bool.false_and]
    split
    · rw [fieldOf_getLsbD _ _ _ _ _ ‹_› hl]
    · exact BitVec.getLsbD_of_ge _ _ (by omega)

theorem bfx_getLsbD (signed : Bool) (x y z : W32) (j : Nat) (hj : j < 32) : let pos := y.toNat % 256; let len := min (z.toNat % 256) 32
    (bfx signed x y z).getLsbD j =
      (decide (0 < len) && (if j < len then wideBit signed x (pos + j) else signed && wideBit signed x (pos + len - 1))) := by
  intro pos len
  rw [bfx_eq]
  by_cases h0 : 0 < len
  · rw [if_neg (by omega), fieldExtended_getLsbD _ _ _ _ _ hj h0 (Nat.min_le_right ..), decide_eq_true h0, Bool.true_and]
  · rw [if_pos (by omega), decide_eq_false h0, Bool.false_and]
    exact BitVec.getLsbD_zero

/-- The mask of a field (R144). -/
theorem fieldMask_getLsbD (pos len j : Nat) (hj : j < 32) :
    (if pos ≥ 32 then 0 else BitVec.ofNat 32 ((2 ^ min len 32 - 1) * 2 ^ pos) : W32).getLsbD j = decide (pos ≤ j ∧ j < pos + len) := by
  by_cases hp : pos ≥ 32
  · rw [if_pos hp, show (0 : W32).getLsbD j = false from BitVec.getLsbD_zero]
    simp only [Bool.false_eq, decide_eq_false_iff_not]
    omega
  · rw [if_neg hp, BitVec.getLsbD_ofNat, Nat.testBit_mul_two_pow, Nat.testBit_two_pow_sub_one]
    simp only [hj, decide_true, Bool.true_and, ← Bool.decide_and, decide_eq_decide]
    omega

theorem bfi_getLsbD (x y z : W32) (j : Nat) (hj : j < 32) : let pos := z.toNat % 256; let len := z.toNat / 256 % 256
    (bfi x y z).getLsbD j = if pos ≤ j ∧ j < pos + len then y.getLsbD (j - pos) else x.getLsbD j := by
  intro pos len
  rw [bfi, BitVec.getLsbD_or, BitVec.getLsbD_and, BitVec.getLsbD_and, BitVec.getLsbD_not, BitVec.getLsbD_shiftLeft, fieldMask_getLsbD _ _ _ hj]
  by_cases h : pos ≤ j ∧ j < pos + len
  · have : ¬ j < pos := by omega
    simp [h, hj, pos, len]
  · simp [h, hj, pos, len]

theorem bitCount_eq (w x : Nat) : bitCount w x = ((List.range w).filter fun j => x.testBit j).length := by
  induction w generalizing x with
  | zero => rfl
  | succ w ih =>
    have later : ((List.range w).map Nat.succ).filter (fun j => x.testBit j) = ((List.range w).filter fun j => (x / 2).testBit j).map Nat.succ := by
      rw [List.filter_map]
      congr 2
      funext j
      exact Nat.testBit_succ x j
    rw [bitCount, ih, List.range_succ_eq_map, List.filter_cons, later, Nat.testBit_zero]
    rcases Nat.mod_two_eq_zero_or_one x with h | h <;> simp [h]; omega

theorem trailing_spec (w x : Nat) : trailing w x ≤ w ∧ (∀ j < trailing w x, x.testBit j = false) ∧ (trailing w x < w → x.testBit (trailing w x) = true) := by
  induction w generalizing x with
  | zero => exact ⟨Nat.le_refl 0, fun j hj => absurd hj (Nat.not_lt_zero j), fun h => absurd h (Nat.lt_irrefl 0)⟩
  | succ w ih =>
    obtain ⟨le, low, at_⟩ := ih (x / 2)
    rw [trailing]
    by_cases h : x % 2 = 1
    · rw [if_pos h]
      exact ⟨Nat.zero_le _, fun j hj => absurd hj (Nat.not_lt_zero j), fun _ => by simpa [Nat.testBit_zero] using h⟩
    · rw [if_neg h]
      refine ⟨by omega, fun j hj => ?_, fun hlt => ?_⟩
      · cases j with
        | zero => simpa [Nat.testBit_zero] using h
        | succ j => rw [Nat.testBit_succ]; exact low j (by omega)
      · rw [Nat.add_comm, Nat.testBit_succ]; exact at_ (by omega)

theorem reverseBits_testBit (n x r j : Nat) : (reverseBits n x r).testBit j = if j < n then x.testBit (n - 1 - j) else r.testBit (j - n) := by
  induction n generalizing x r with
  | zero => simp [reverseBits]
  | succ n ih =>
    rw [reverseBits, ih]
    by_cases h : j < n
    · rw [if_pos h, if_pos (by omega), ← Nat.testBit_succ]
      congr 1; omega
    · rw [if_neg h]
      by_cases e : j = n
      · subst e
        simp [Nat.testBit_zero]
      · rw [if_neg (by omega), show j - n = (j - (n + 1)) + 1 by omega, Nat.testBit_add_one]
        congr 1; omega

/-- Leading zeros of a value of `w` bits, as CLZ counts them (R145). -/
def leading (w x : Nat) : Nat := if x = 0 then w else w - 1 - log2 x

theorem leading_spec (w x : Nat) (hx : x < 2 ^ w) : leading w x ≤ w ∧ (∀ j, w - leading w x ≤ j → j < w → x.testBit j = false) ∧
    (leading w x < w → x.testBit (w - 1 - leading w x) = true) := by
  unfold leading log2
  by_cases h : x = 0
  · simp [h]
  · have below := (Nat.log2_lt h).2 hx
    rw [if_neg h]
    refine ⟨by omega, fun j hj _ => ?_, fun _ => ?_⟩
    · exact Nat.testBit_lt_two_pow (Nat.lt_of_lt_of_le Nat.lt_log2_self (Nat.pow_le_pow_right (by decide) (by omega)))
    · rw [show w - 1 - (w - 1 - x.log2) = x.log2 by omega]
      exact Nat.testBit_log2 h

/-- A bit below the type's width is one of the operand's. -/
theorem testBit_mod_width (x : W64) (w j : Nat) (hj : j < w) : (x.toNat % 2 ^ w).testBit j = x.getLsbD j := by
  rw [Nat.testBit_mod_two_pow]
  simp [hj]
  rfl

/-- Settles O3: BFX and BFI agree with their fields bit by bit; the counts and the reversal go down the bits one at a time. -/
theorem bitFields : Obligations.BitFields := by
  unfold Obligations.BitFields
  intro s a o p
  refine ⟨⟨⟨bfx (p.m.getLsbD 0), fun x y z j hj => bfx_getLsbD _ x y z j hj, triOp_computes (exec_bfx s) rfl fun _ => rfl⟩,
      ⟨bfi, fun x y z j hj => bfi_getLsbD x y z j hj, triOp_computes (exec_bfi s) rfl fun _ => rfl⟩⟩, ?_⟩
  intro n g w A _
  refine ⟨?_, ?_, ?_, ?_⟩
  · refine ⟨fun x => bitCount w (x.toNat % 2 ^ w), fun x => (bitCount_eq ..).trans ?_, count_computes (exec_popc s) rfl⟩
    exact congrArg List.length (List.filter_congr fun j hj => testBit_mod_width x w j (List.mem_range.1 hj))
  · refine ⟨fun x => leading w (x.toNat % 2 ^ w), fun x => ?_, count_computes (f := leading) (exec_clz s) rfl⟩
    obtain ⟨le, high, at_⟩ := leading_spec w (x.toNat % 2 ^ w) (Nat.mod_lt _ (Nat.two_pow_pos w))
    exact ⟨le, fun j h1 h2 => (testBit_mod_width x w j h2).symm.trans (high j h1 h2), fun h => (testBit_mod_width x w _ (by omega)).symm.trans (at_ h)⟩
  · refine ⟨fun x => trailing w (x.toNat % 2 ^ w), fun x => ?_, count_computes (exec_ctz s) rfl⟩
    obtain ⟨le, low, at_⟩ := trailing_spec w (x.toNat % 2 ^ w)
    exact ⟨le, fun j h => (testBit_mod_width x w j (h.trans_le le)).symm.trans (low j h), fun h => (testBit_mod_width x w _ h).symm.trans (at_ h)⟩
  · refine ⟨fun x => BitVec.ofNat 64 (reverseBits (tyBits o.ty) x.toNat 0), fun x j hj => ?_, lanewise_plain (exec_brev s) rfl (regs_le _) fun _ _ => rfl⟩
    have := tyBits_le o.ty
    rw [BitVec.getLsbD_ofNat, reverseBits_testBit, if_pos hj]
    simp [show j < 64 by omega]
    rfl

end Sys2Proof.Machine
end

section
/-! SUPPORT. Compares, selection, lane conditions and votes (R146 to R149). -/
namespace Sys2Proof.Machine

theorem regsAt_srcRegs (s : State) (a : Agent) (x : Src) (n slot c k : Nat) : regsAt (s.srcRegs a x n slot c) k = s.opRegs a x n slot c k := by
  simp only [regsAt, State.srcRegs, State.opRegs, List.map_map]
  rfl

/-- The primary and the tangents of a source, read in a lane, are its copy (R223). -/
theorem srcRegs_copy (s : State) (a : Agent) (x : Src) (n slot nt k : Nat) :
    let rows := (upFrom 0 (nt + 1)).map fun c => s.srcRegs a x n slot c
    ({ words := regsAt (rows.headD []) k, tans := rows.tail.map fun r => regsAt r k } : LaneRes) = s.copyOf a x n slot nt k := by
  simp only [upFrom, List.map_cons, List.headD_cons, List.tail_cons, List.map_map, State.copyOf, ← regsAt_srcRegs]
  rfl

/-- The two halves of a value make it up (R38). -/
theorem wPair_halves (v : W64) : wPair (wLow v) (wHigh v) = v := by
  have low := BitVec.isLt (wLow v)
  apply BitVec.eq_of_toNat_eq
  rw [wPair, BitVec.toNat_append, ← Nat.shiftLeft_add_eq_or_of_lt low, Nat.shiftLeft_eq]
  simp only [wLow, wHigh, BitVec.extractLsb'_toNat, Nat.shiftRight_eq_div_pow]
  omega

theorem uniformResult_resN (sext : Bool) (v : W64) : uniformResult 2 sext (resN 2 v) = v := wPair_halves v

/-! Votes (R149). -/

theorem mem_maskLanes (m : Mask) (k : Nat) : k ∈ maskLanes m ↔ (decide (k < 64) && m.getLsbD k) = true := by
  rw [maskLanes, List.mem_filter, lanes64, mem_upFrom, Bool.and_eq_true, decide_eq_true_eq]
  exact ⟨fun h => ⟨by omega, h.2⟩, fun h => ⟨⟨by omega, by omega⟩, h.2⟩⟩

theorem ite_one_zero_eq_one (p : Prop) [Decidable p] : (if p then 1 else 0 : W64) = 1 ↔ p := by
  by_cases h : p <;> simp [h]

theorem vote_bool {sub : BitVec 4} (h : sub.toNat < 3) (m : Mask) (x : List W64) : vote sub m x = 0 ∨ vote sub m x = 1 := by
  have ite : ∀ b : Bool, (if b then 1 else 0 : W64) = 0 ∨ (if b then 1 else 0 : W64) = 1 := by decide
  have cases3 : sub.toNat = 0 ∨ sub.toNat = 1 ∨ sub.toNat = 2 := by omega
  rcases cases3 with e | e | e <;> simp only [vote, e] <;> exact ite _

theorem vote_all (m : Mask) (x : List W64) : vote 0 m x = 1 ↔ ∀ k ∈ maskLanes m, laneGet x k ≠ 0 := by
  refine (ite_one_zero_eq_one _).trans ?_
  simp only [List.all_eq_true, decide_eq_true_eq]

theorem vote_any (m : Mask) (x : List W64) : vote 1 m x = 1 ↔ ∃ k ∈ maskLanes m, laneGet x k ≠ 0 := by
  refine (ite_one_zero_eq_one _).trans ?_
  simp only [List.any_eq_true, decide_eq_true_eq]

theorem vote_eq (m : Mask) (x : List W64) : vote 2 m x = 1 ↔ ∀ k ∈ maskLanes m, ∀ j ∈ maskLanes m, laneGet x k = laneGet x j := by
  refine (ite_one_zero_eq_one _).trans ?_
  simp only [List.all_eq_true, decide_eq_true_eq]
  cases maskLanes m with
  | nil => simp
  | cons l ls => exact ⟨fun h k hk j hj => (h k hk).trans (h j hj).symm, fun h k hk => h k hk l (List.mem_cons_self ..)⟩

theorem vote_ballot (m : Mask) (x : List W64) (k : Nat) (hk : k < 64) : (vote 3 m x).getLsbD k = (m.getLsbD k && decide (laneGet x k ≠ 0)) :=
  maskOf_getLsbD _ k hk

/-- CVOTE writes the vote once to an s register, and in each active lane to any other (R149). -/
theorem cvote_finishes (s : State) (a : Agent) (o : V2) : let v := vote o.sub a.p.active (s.srcLanes a o.a o.ty.regs 0)
    match o.d with
    | .s n => Finishes s a (.cvote o) true (.s n) 2 false 0 1 [resN 2 v] 0
    | d => Finishes s a (.cvote o) true d 1 false 0 a.p.active (lanes64.map fun _ => res32 (wLow v)) 0 := by
  intro v
  have dsts : (usesOf a.l.record (.cvote o)).dsts = regNames 1 o.d := rfl
  have run := exec_cvote (o := o) s
  unfold execCvote at run
  cases hd : o.d with
  | s n =>
    rw [hd] at dsts
    refine word_finishes_plain run ?_ dsts (by decide)
    simp only [hd, resultWrites, List.headD_cons, uniformResult_resN, v]
  | _ =>
    rw [hd] at dsts
    exact word_finishes_plain run (by simp only [hd, v]) dsts (by decide)

theorem sel_computes (s : State) (a : Agent) (p : V3) : let n := if p.m.getLsbD 0 then 2 else 1; let nt := a.tansTo (.sel p) p.d
    Computes s a (.sel p) p.d n false nt fun k => if s.op32 a p.c 2 k ≠ 0 then s.copyOf a p.a n 0 nt k else s.copyOf a p.b n 1 nt k := by
  intro n nt
  have regs : n ≤ 8 := by dsimp only [n]; split <;> decide
  have run := exec_sel (o := p) s
  unfold execSel at run
  refine lanewise_tangents run rfl regs fun k _ => ?_
  by_cases hz : s.op32 a p.c 2 k ≠ 0
  · have hz' : rowGet (s.src32 a p.c 2) k ≠ 0 := hz
    simp only [if_pos hz, if_pos hz']
    exact srcRegs_copy s a p.a n 0 nt k
  · have hz' : ¬ rowGet (s.src32 a p.c 2) k ≠ 0 := hz
    simp only [if_neg hz, if_neg hz']
    exact srcRegs_copy s a p.b n 1 nt k

/-- The last two combinations read A alone (R148). -/
theorem clop_left {sub : BitVec 4} (h : 4 < sub.toNat) (x y y' : Bool) : clop sub x y = clop sub x y' := by
  unfold clop
  split <;> [omega; omega; omega; omega; omega; rfl; rfl]

theorem clop_computes (s : State) (a : Agent) (o : V2) : let A := fun k => decide (s.op32 a o.a 0 k ≠ 0); let B := fun k => decide (s.op32 a o.b 1 k ≠ 0)
    Computes s a (.clop o) o.d 1 false 0 fun k => res32 (bool32 (clop o.sub (A k) (B k))) := by
  intro A B
  have dsts : (usesOf a.l.record (.clop o)).dsts = regNames 1 o.d := by
    simp only [usesOf]
    split <;> rfl
  refine lanewise_plain (exec_clop s) dsts (by decide) fun k _ => ?_
  by_cases h : o.sub.toNat ≤ 4
  · simp only [if_pos h]
    rfl
  · exact congrArg (fun b => res32 (bool32 b)) (clop_left (by omega) ..)

/-- Settles O4: compares, selection and lane conditions run lane by lane; a vote speaks of the active lanes. -/
theorem comparesAndVotes : Obligations.ComparesAndVotes := by
  unfold Obligations.ComparesAndVotes
  intro s a o p
  refine ⟨?_, ?_, ?_, ?_⟩
  · intro A B cond
    exact lanewise_plain (exec_icmp s) rfl (by decide) fun _ _ => rfl
  · exact sel_computes s a p
  · exact clop_computes s a o
  · intro A act
    refine ⟨vote o.sub a.p.active (s.srcLanes a o.a o.ty.regs 0), fun h => vote_bool h _ _, fun h => ?_, fun h => ?_, fun h => ?_, fun h k hk => ?_, cvote_finishes s a o⟩
    all_goals rw [h]
    · simp only [vote_all, mem_maskLanes]; rfl
    · simp only [vote_any, mem_maskLanes]; rfl
    · rw [vote_eq]
      simp only [mem_maskLanes]
      exact ⟨fun e k j hk hj => e k hk j hj, fun e k hk j hj => e k j hk hj⟩
    · rw [vote_ballot _ _ _ hk]
      simp [act, hk, A, State.opVal]

end Sys2Proof.Machine
end

section
/-! SUPPORT. Moves, the registers that lanes name, and permuted lanes (R150 to R153). -/
namespace Sys2Proof.Machine

section
variable {s : State} {a : Agent} {i : Instr}

/-! A word that writes the registers its lanes name (R152). -/

/-- What the state is once a word's last reads and writes are made, before its results are noted and its clocks pass. -/
structure Stored (s v : State) (a : Agent) (i : Instr) (ws : List Write) : Prop where
  self : ∃ q, v.party? a.p.pid = some q ∧ q.calm = (ws.foldl Party.afterWrite a.p).calm
  others : ∀ k, k ≠ a.p.pid → v.party? k = s.party? k
  home : ∃ g, v.home? a.p.fid a.p.hp = some g ∧ g.rows = (ws.foldl Home.afterWrite (a.h.afterReads a.p.pid (lastNames (usesOf a.l.record i)))).rows
  homes : ∀ x y, ¬ (x = a.p.fid ∧ y = a.p.hp) → v.home? x y = s.home? x y
  alike : Alike s v

theorem writes_stored (hA : AgentFacts s a) (ws : List Write) (lat word : Nat) :
    Stored s (ws.foldl (fun s w => s.write a.p.pid lat word w) (s.lastReads a.p (usesOf a.l.record i))) a i ws := by
  have read := lastReads_home s a.p (usesOf a.l.record i) hA.home
  have party := lastReads_party s a.p (usesOf a.l.record i)
  have alike := alike_lastReads s a.p (usesOf a.l.record i)
  have own := (party a.p.pid).trans hA.party
  obtain ⟨home, homes⟩ := writes_home ws own read.1 lat word
  exact ⟨writes_party ws own lat word, fun k hk => (writes_party_ne ws hk lat word).trans (party k), home,
    fun x y hn => (homes x y hn).trans (read.2 x y hn), alike.trans (alike_foldl _ (fun s w => alike_write ..) ws _)⟩

/-- What the pitch remembers of early writes is no register (R58). -/
theorem Stored.remember {v : State} {ws : List Write} (h : Stored s v a i ws) (lat word : Nat) (n : Name) (comp : Nat) (old : Row) :
    Stored s (v.onPitch a.p.pid fun c => c.remember lat word n comp old) a i ws := by
  obtain ⟨q, hq, calm⟩ := h.self
  refine ⟨⟨{ q with pitch := q.pitch.map fun c => c.remember lat word n comp old }, ?_, ?_⟩, fun k hk => ?_, h.home, h.homes, h.alike.trans (alike_onPitch ..)⟩
  · rw [State.onPitch, party?_onParty, hq]
    · rfl
    · intro _; rfl
  · rw [← calm]
    simp only [Party.calm]
    cases q.pitch <;> simp [remember_calm]
  · refine Eq.trans ?_ (h.others k hk)
    exact party?_onParty_ne v a.p.pid k _ (fun _ => rfl) hk

theorem Stored.commits {v : State} {ws : List Write} (h : Stored s v a i ws) (hA : AgentFacts s a) (going : a.p.stopped = false)
    (l : List Name) (ids : List Nat) (keep : Bool) : Committed s (((v.taint a.p l ids keep).advance a i).counted a i) a i a.p ws := by
  obtain ⟨q, hq, calm⟩ := h.self
  obtain ⟨stopped, pitched⟩ := calm_stopped calm
  obtain ⟨stopped', pitched'⟩ := afterWrites_stopped ws a.p
  obtain ⟨c, hc⟩ : ∃ c, q.pitch = some c := Option.isSome_iff_exists.1 (by rw [pitched, pitched', hA.pitch]; rfl)
  obtain ⟨g, hg, rows⟩ := h.home
  obtain ⟨ts, ht⟩ := taint_eq v a.p l ids keep
  obtain ⟨self, others, homes, alike⟩ := advance_party (s := { v with taints := ts }) (i := i) hq hc ((stopped.trans stopped').trans going)
  have noted : Alike v { v with taints := ts } := ⟨rfl, rfl, rfl, rfl, by simp⟩
  have base : Committed s (({ v with taints := ts } : State).advance a i) a i a.p ws :=
    ⟨⟨q, c, self, hc, calm⟩, fun k hk => (others k hk).trans (h.others k hk), ⟨g, (homes _ _).trans hg, rows⟩,
      fun x y hn => (homes x y).trans (h.homes x y hn), (h.alike.trans noted).trans alike⟩
  rw [ht]
  rcases counted_eq (({ v with taints := ts } : State).advance a i) a i with e | e
  · rw [e]; exact base
  · rw [e]
    obtain ⟨b1, b2, b3, b4, b5⟩ := base
    exact ⟨b1, b2, b3, b4, b5.trans (alike_count ..)⟩

/-- `commit_spec` for a word that may write any register (R152). -/
theorem commit_any_spec (hA : AgentFacts s a) (going : a.p.stopped = false) (hv : (usesOf a.l.record i).dsts.contains .anyV = true) (ws : List Write) :
    Committed s ((s.commit a i (usesOf a.l.record i) ws).counted a i) a i a.p ws := by
  simp only [State.commit, hv, if_true]
  exact ((writes_stored hA ws _ _).remember _ _ .anyV 9 []).commits hA going _ _ _

end

/-- A number names a register when it is the register's own (R152). -/
theorem names_iff (v : Nat) (n : BitVec 8) : v = n.toNat ↔ v ≤ 255 ∧ n = BitVec.ofNat 8 v := by
  have := n.isLt
  constructor
  · rintro rfl
    exact ⟨by omega, by simp⟩
  · rintro ⟨h, rfl⟩
    rw [BitVec.toNat_ofNat]
    omega

theorem mem_addNamed (acc : List (BitVec 8)) (v : Nat) (n : BitVec 8) :
    n ∈ (if v ≤ 255 && !acc.contains (BitVec.ofNat 8 v) then acc ++ [BitVec.ofNat 8 v] else acc) ↔ n ∈ acc ∨ v = n.toNat := by
  rw [names_iff]
  generalize BitVec.ofNat 8 v = r
  by_cases small : v ≤ 255
  · by_cases seen : r ∈ acc
    · rw [if_neg (by simp [seen])]
      exact ⟨.inl, fun h => h.elim id fun h => h.2 ▸ seen⟩
    · rw [if_pos (by simp [small, seen]), List.mem_append, List.mem_singleton]
      simp only [small, true_and]
  · rw [if_neg (by simp [small])]
    simp only [small, false_and, or_false]

theorem mem_namedRegs (m : Mask) (x : Row) (n : BitVec 8) : n ∈ namedRegs m x ↔ ∃ k ∈ maskLanes m, (rowGet x k).toNat = n.toNat := by
  have gen : ∀ (l : List Nat) (acc : List (BitVec 8)), n ∈ l.foldl (fun l i => let n := (rowGet x i).toNat
      if n ≤ 255 && !l.contains (BitVec.ofNat 8 n) then l ++ [BitVec.ofNat 8 n] else l) acc ↔ n ∈ acc ∨ ∃ k ∈ l, (rowGet x k).toNat = n.toNat := by
    intro l
    induction l with
    | nil => simp
    | cons i l ih =>
      intro acc
      rw [List.foldl_cons, ih]
      dsimp only
      rw [mem_addNamed]
      simp [or_assoc]
  exact (gen (maskLanes m) []).trans (by simp)

/-- The lanes of a register after MOVXW's writes (R152). -/
theorem lane_namedWrites (l : List (BitVec 8)) (row : Row) (m : BitVec 8 → Mask) (h : Home) (n : BitVec 8) (k : Nat) (hk : k < 64) :
    ((l.map fun r => Write.row (.v r) [(0, row)] (m r) false).foldl Home.afterWrite h).lane n 0 k =
      if n ∈ l ∧ (m n).getLsbD k = true then rowGet row k else h.lane n 0 k := by
  induction l generalizing h with
  | nil => simp
  | cons r l ih =>
    rw [List.map_cons, List.foldl_cons, ih, lane_afterWrite _ _ _ _ _ _ _ _ hk (by simp)]
    by_cases e : n = r
    · subst e
      by_cases hm : (m n).getLsbD k = true <;> simp [hm]
    · simp [e]

/-- The writes of v registers leave the party's own registers alone. -/
theorem namedWrites_party (l : List (BitVec 8)) (row : Row) (m : BitVec 8 → Mask) (p : Party) :
    (l.map fun r => Write.row (.v r) [(0, row)] (m r) false).foldl Party.afterWrite p = p := by
  induction l with
  | nil => rfl
  | cons r l ih => exact ih

theorem movxw_runs (s : State) (a : Agent) (o : V2) : let i := Instr.movxw o
   let named := fun k => (s.op32 a o.a 0 k).toNat
   Passes s a i true → a.whole → a.overcommits (usesOf a.l.record i) (s.movxwWrites a o) = false →
   ∃ t q, exec i s = .next t ∧ t.wentOn a i ∧ t.party? a.p.pid = some q ∧ q.s = a.p.s ∧ q.c = a.p.c ∧ q.w = a.p.w ∧ q.em = a.p.em ∧ t.mem = s.mem ∧ s.othersKept t a ∧
     ∀ n k, k < 64 →
       (a.p.active.getLsbD k = true → named k = n.toNat → t.vLane a.p.fid a.p.hp n 0 k = s.op32 a o.b 1 k) ∧
       (n ∉ lastNames (usesOf a.l.record i) → (a.p.active.getLsbD k = false ∨ named k ≠ n.toNat) → t.vLane a.p.fid a.p.hp n 0 k = a.h.lane n 0 k) := by
  intro i named passes whole fits
  have hA := agent_facts passes.agent
  have run := (exec_movxw (o := o) s).trans (word_writes passes rfl fits)
  have done := commit_any_spec (i := i) hA whole.going rfl (s.movxwWrites a o)
  generalize (s.commit a i (usesOf a.l.record i) (s.movxwWrites a o)).counted a i = t at run done
  obtain ⟨q, c, self, _, calm⟩ := done.self
  obtain ⟨g, hg, rows⟩ := done.home
  rw [show (s.movxwWrites a o).foldl Party.afterWrite a.p = a.p from namedWrites_party ..] at calm
  obtain ⟨fixed, _, sregs, cregs⟩ := past_keeps q c a i
  obtain ⟨fixed', _, sregs', cregs'⟩ := calm_keeps calm
  have same : (q.past c a i).fixed = a.p.fixed := fixed.trans fixed'
  simp only [Party.fixed, Prod.mk.injEq] at same
  obtain ⟨em, _, w, _⟩ := same
  refine ⟨t, _, run, done.wentOn hA.pitch, self, sregs.trans sregs', cregs.trans cregs', w, em, done.alike.mem, done.others, fun n k hk => ?_⟩
  have lane : t.vLane a.p.fid a.p.hp n 0 k = if n ∈ namedRegs a.p.active (s.src32 a o.a 0) ∧ (a.p.active.getLsbD k && decide (named k = n.toNat)) = true
      then s.op32 a o.b 1 k else (a.h.afterReads a.p.pid (lastNames (usesOf a.l.record i))).lane n 0 k := by
    simp only [State.vLane, hg]
    rw [lane_of_rows rows, State.movxwWrites, lane_namedWrites _ _ _ _ _ _ hk, maskOf_getLsbD _ _ hk]
    rfl
  rw [lane]
  constructor
  · intro active here
    have mem : n ∈ namedRegs a.p.active (s.src32 a o.a 0) := (mem_namedRegs ..).2 ⟨k, (mem_maskLanes ..).2 (by simp [hk, active]), here⟩
    rw [if_pos ⟨mem, by simp [active, here]⟩]
  · intro kept away
    rw [if_neg, lane_afterReads _ _ _ _ kept]
    rintro ⟨_, both⟩
    simp only [Bool.and_eq_true, decide_eq_true_eq] at both
    rcases away with off | other
    · rw [off] at both; exact Bool.false_ne_true both.1
    · exact other both.2

/-- The row of a register among those named. -/
theorem find_named (l : List (BitVec 8)) (g : BitVec 8 → Row) (v : Nat) : (l.map fun n => (n.toNat, g n)).find? (fun r => decide (r.1 = v)) =
    if v ≤ 255 ∧ BitVec.ofNat 8 v ∈ l then some (v, g (BitVec.ofNat 8 v)) else none := by
  induction l with
  | nil => simp
  | cons n l ih =>
    rw [List.map_cons, List.find?_cons, ih]
    by_cases e : n.toNat = v
    · obtain ⟨small, rfl⟩ := (names_iff v n).1 e.symm
      simp [e, small]
    · have ne : v ≤ 255 → ¬ BitVec.ofNat 8 v = n := fun small h => e ((names_iff v n).2 ⟨small, h.symm⟩).symm
      simp only [e, decide_false, List.mem_cons]
      by_cases small : v ≤ 255
      · simp only [small, ne small, false_or]
      · simp only [small, false_and]

theorem laneResults_congr {m : Mask} {f g : Nat → LaneRes} (h : ∀ k < 64, m.getLsbD k = true → f k = g k) : laneResults m f = laneResults m g := by
  refine List.map_congr_left fun k hk => ?_
  have := (mem_upFrom 0 64 k).1 hk
  by_cases on : m.getLsbD k = true
  · rw [if_pos on, if_pos on, h k (by omega) on]
  · rw [if_neg on, if_neg on]

theorem movx_finishes (s : State) (a : Agent) (o : V2) (clear : a.l.record.chk = true → ∀ n, s.longsOf a.p.pid (.v n) = []) :
    Finishes s a (.movx o) true o.d 1 false 0 a.p.active (laneResults a.p.active fun k =>
      let n := (s.op32 a o.a 0 k).toNat
      res32 (if n ≤ 255 then rowGet (s.vRow a (BitVec.ofNat 8 n) 0 (64 + n)) k else 0)) 0 := by
  have run := exec_movx (o := o) s
  unfold execMovx at run
  refine word_finishes_plain run ?_ rfl (by decide)
  have early : (if a.l.record.chk then ((namedRegs a.p.active (s.src32 a o.a 0)).filterMap fun n =>
      ((s.longsOf a.p.pid (.v n)).head?).map (·.word)).head? else none) = none := by
    split
    · rename_i chk
      simp only [clear chk, List.head?_nil, Option.map_none, List.filterMap_none]
    · rfl
  have lanes : ∀ k < 64, a.p.active.getLsbD k = true →
      (match ((namedRegs a.p.active (s.src32 a o.a 0)).map fun n => (n.toNat, s.vRow a n 0 (64 + n.toNat))).find? fun r => r.1 = (rowGet (s.src32 a o.a 0) k).toNat with
        | some r => rowGet r.2 k | none => 0) =
      (let n := (s.op32 a o.a 0 k).toNat
       if n ≤ 255 then rowGet (s.vRow a (BitVec.ofNat 8 n) 0 (64 + n)) k else 0) := fun k hk active => by
    rw [find_named _ (fun n => s.vRow a n 0 (64 + n.toNat))]
    by_cases small : (rowGet (s.src32 a o.a 0) k).toNat ≤ 255
    · have named := (mem_namedRegs a.p.active (s.src32 a o.a 0) _).2 ⟨k, (mem_maskLanes ..).2 (by simp [hk, active]), (names_iff ..).2 ⟨small, rfl⟩⟩
      have own : (BitVec.ofNat 8 (rowGet (s.src32 a o.a 0) k).toNat).toNat = (rowGet (s.src32 a o.a 0) k).toNat := ((names_iff ..).2 ⟨small, rfl⟩).symm
      rw [if_pos ⟨small, named⟩]
      dsimp only
      rw [own]
      exact (if_pos small).symm
    · rw [if_neg fun h => small h.1]
      exact (if_neg small).symm
  dsimp only
  rw [early]
  exact congrArg (fun rs => Eff.writes s (resultWrites o.d 1 false 0 a.p.active rs)) (laneResults_congr fun k hk active => congrArg res32 (lanes k hk active))

theorem lperm_computes (s : State) (a : Agent) (o : V2) : let nt := a.tansTo (.lperm o) o.d; let n := o.ty.regs
   Computes s a (.lperm o) o.d n o.ty.signed nt (fun k =>
     let j := (s.op32 a o.b 1 k).toNat
     if j < a.h.lanes then s.copyOf a o.a n 0 nt j
     else { words := (upFrom 0 n).map fun _ => 0, tans := (upFrom 1 nt).map fun _ => (upFrom 0 n).map fun _ => 0 }) := by
  intro nt n
  refine lanewise_tangents (exec_lperm s) rfl (regs_le _) fun k _ => ?_
  by_cases h : (s.op32 a o.b 1 k).toNat < a.h.lanes
  · have h' : (rowGet (s.src32 a o.b 1) k).toNat < a.h.lanes := h
    simp only [if_pos h, if_pos h']
    exact srcRegs_copy s a o.a o.ty.regs 0 nt _
  · have h' : ¬ (rowGet (s.src32 a o.b 1) k).toNat < a.h.lanes := h
    have zeros : ∀ c, (s.srcRegs a o.a o.ty.regs 0 c).map (fun _ => (0 : W32)) = (upFrom 0 n).map fun _ => 0 := fun c => List.map_map ..
    simp only [if_neg h, if_neg h', upFrom, List.map_cons, List.headD_cons, List.tail_cons, List.map_map, Function.comp_def, zeros]
    rfl

/-- Settles O5: copies run lane by lane; MOVX finds, and MOVXW writes, the registers that the active lanes name. -/
theorem moves : Obligations.Moves := by
  unfold Obligations.Moves
  intro s a o w
  refine ⟨?_, ?_, fun n hd => ?_, movx_finishes s a o, lperm_computes s a o, movxw_runs s a o⟩
  · exact lanewise_tangents (exec_mov s) rfl (regs_le _) fun k _ => srcRegs_copy s a o.a o.ty.regs 0 _ k
  · exact lanewise_plain (exec_movi s) rfl (by decide) fun _ _ => rfl
  · have dsts : (usesOf a.l.record (.movhi w)).dsts = regNames 1 (.s n) := congrArg (regNames 1) hd
    have run := exec_movhi (o := w) s
    unfold execMovhi at run
    exact word_finishes_plain run (by simp only [hd]; rfl) dsts (by decide)

end Sys2Proof.Machine
end

section
/-! SUPPORT. Floating-point words on elements (R157 to R159). -/
namespace Sys2Proof.Machine

section
variable {s : State} {a : Agent} {i : Instr}

/-- A lane of a packed word holds its elements' results, whatever its tangents are (R110, R138). -/
theorem packedLane_elements (f : Fmt) (op : ElemOp) (ws : List W32) (ts : List (List W32)) :
    packedLane f op ws ts = perElement f (fun e => op.val (ws.map fun w => elemOf f w e)) (packedLane f op ws ts).tans := by
  simp only [packedLane, perElement, List.map_map]
  rfl

/-- A packed word gives each element the result of its sources' elements at that place (R157). -/
theorem packedOp_computes {d : Reg} {f : Fmt} {xs : List Src} {op : ElemOp} {g : Nat → Nat → Nat × BitVec 9} (hx : exec i s = s.packedOp i d f xs op)
    (hd : (usesOf a.l.record i).dsts = regNames 1 d)
    (hg : ∀ k e, op.val (((s.srcAll a xs 0).1.map fun r => rowGet r k).map fun w => elemOf f w e) = g k e) :
    ∃ tans : Nat → List (List W32), Computes s a i d 1 false (a.tansTo i d) fun k => perElement f (g k) (tans k) := by
  let lane := fun k => packedLane f op ((s.srcAll a xs (a.tansTo i d)).1.map fun r => rowGet r k) ((s.srcAll a xs (a.tansTo i d)).2.map fun t => t.map fun r => rowGet r k)
  refine ⟨fun k => (lane k).tans, lanewise_tangents hx hd (by decide) fun k _ => (packedLane_elements ..).trans ?_⟩
  congr 1
  funext e
  exact hg k e

/-- A lane of a dot product of two elements (R159). -/
theorem dotLane_two {f : Fmt} (h : elemCount f = 2) (rm : RmCode) (v w z : W32) (ts : List (List W32)) :
    let x := elemVal f v; let y := elemVal f w
    let r := floatResult .fp32 rm [val32 z, x 0, y 0, x 1, y 1] (((val32 z).add (rm == .rdn) ((x 0).mul (y 0))).add (rm == .rdn) ((x 1).mul (y 1)))
    dotLane f rm [v, w, z] ts = { words := [BitVec.ofNat 32 r.1], flags := r.2, tans := (dotLane f rm [v, w, z] ts).tans } := by
  unfold dotLane
  rw [h]
  rfl

/-- A lane of a dot product of four elements (R159). -/
theorem dotLane_four {f : Fmt} (h : elemCount f = 4) (rm : RmCode) (v w z : W32) (ts : List (List W32)) :
    let x := elemVal f v; let y := elemVal f w
    let r := floatResult .fp32 rm [val32 z, x 0, y 0, x 1, y 1, x 2, y 2, x 3, y 3]
      (((((val32 z).add (rm == .rdn) ((x 0).mul (y 0))).add (rm == .rdn) ((x 1).mul (y 1))).add (rm == .rdn) ((x 2).mul (y 2))).add (rm == .rdn) ((x 3).mul (y 3)))
    dotLane f rm [v, w, z] ts = { words := [BitVec.ofNat 32 r.1], flags := r.2, tans := (dotLane f rm [v, w, z] ts).tans } := by
  unfold dotLane
  rw [h]
  rfl

/-- A dot product gives each lane its rounded sum, whatever its tangents are (R159). -/
theorem dotOp_computes {o : V3} {f : Fmt} {rm : RmCode} {g : Nat → Nat × BitVec 9} (hx : exec i s = s.dotOp i o f rm)
    (hd : (usesOf a.l.record i).dsts = regNames 1 o.d)
    (hg : ∀ k ts, let lane := dotLane f rm [s.op32 a o.a 0 k, s.op32 a o.b 1 k, s.op32 a o.c 2 k] ts
      lane = { words := [BitVec.ofNat 32 (g k).1], flags := (g k).2, tans := lane.tans }) :
    ∃ tans : Nat → List (List W32), Computes s a i o.d 1 false (a.tansTo i o.d) fun k => { words := [BitVec.ofNat 32 (g k).1], flags := (g k).2, tans := tans k } :=
  ⟨_, lanewise_tangents hx hd (by decide) fun k _ => hg k _⟩

end

/-- Settles O7: on each element the word rounds its exact result once. -/
theorem floatArithmetic : Obligations.FloatArithmetic := by
  unfold Obligations.FloatArithmetic
  intro s a o p ty e
  refine ⟨⟨?_, ?_, ?_⟩, ?_, fun bf => ?_, fun e5 => ?_⟩
  · exact packedOp_computes (exec_fadd s) rfl fun _ _ => rfl
  · exact packedOp_computes (exec_fsub s) rfl fun _ _ => rfl
  · exact packedOp_computes (exec_fmul s) rfl fun _ _ => rfl
  · intro f
    exact packedOp_computes (exec_ffma s) rfl fun _ _ => rfl
  · intro f
    have count : elemCount f = 2 := by cases bf <;> decide
    have hx : exec (.fdot2 bf e p) s = s.dotOp (.fdot2 bf e p) p f (mxRm e p.m) := exec_fdot2 s
    exact dotOp_computes hx rfl fun k ts => dotLane_two count ..
  · intro f
    have count : elemCount f = 4 := by cases e5 <;> decide
    have hx : exec (.fdot4 e5 e p) s = s.dotOp (.fdot4 e5 e p) p f (mxRm e p.m) := exec_fdot4 s
    exact dotOp_computes hx rfl fun k ts => dotLane_four count ..

end Sys2Proof.Machine
end

section
/-! SUPPORT. Minimum, maximum, comparison, class, rounding and scaling (R160 to R163). -/
namespace Sys2Proof.Machine

/-- FMIN and FMAX take B where it wins the order, with -0 below +0, or where A alone is a NaN (R160). -/
theorem minMaxOp_val (f : Fmt) (greater : Bool) (u v : Nat) : let x := valOf f u; let y := valOf f v
    let below := fun (p q : XR) => p.lt q || (p.isZero && q.isZero && p.sign && !q.sign)
    (minMaxOp f greater).val [u, v] =
      (if x.isNan && y.isNan then canonNan f else if x.isNan || (!y.isNan && (if greater then below x y else below y x)) then v else u, 0) := by
  intro x y below
  show (if x.isNan && y.isNan then canonNan f else if takesB greater x y then v else u, (0 : BitVec 9)) = _
  have takes : takesB greater x y = (x.isNan || (!y.isNan && (if greater then below x y else below y x))) := by
    unfold takesB
    cases x.isNan <;> cases y.isNan <;> rfl
  rw [takes]

/-! The classes of FP32 (R106, R162). -/

/-- The exponent of a value with a whole significand (R107). -/
theorem log2_whole (neg : Bool) {n : Nat} (hn : n ≠ 0) (x : Int) : (⟨neg, n, 1, x⟩ : Rat2).log2 = n.log2 + x := by
  have one : Nat.log2 1 = 0 := by decide
  have low : ¬ n < 1 * 2 ^ n.log2 := by have := Nat.log2_self_le hn; omega
  simp only [Rat2.log2, one, Nat.cast_zero, sub_zero, Int.natCast_nonneg, if_true, Int.toNat_natCast, low, decide_false, Bool.false_eq_true, if_false]

/-- The class of a finite FP32 encoding, by its exponent and fraction fields (R107, R162). -/
theorem fclass_finite (neg : Bool) (e : Nat) {f : Nat} (hf : f < 2 ^ 23) : fclass (.fin (Fmt.fp32.layout.finite neg e f)) =
    if e = 0 then (if f = 0 then (if neg then 3 else 4) else if neg then 2 else 5) else if neg then 1 else 6 := by
  unfold fclass Layout.finite
  by_cases he : e = 0
  · rw [if_pos he, if_pos he]
    by_cases h0 : f = 0
    · simp [h0, Rat2.isZero]
    · have := (Nat.log2_lt h0).2 hf
      have sub : (f.log2 : Int) + (Fmt.fp32.layout.emin - Fmt.fp32.layout.f) < -126 := by
        simp only [Fmt.layout, Layout.emin]
        omega
      simp only [Rat2.isZero, h0, decide_false, Bool.false_eq_true, if_false, log2_whole neg h0, if_pos sub]
  · have top : (2 ^ 23 + f).log2 = 23 := by
      rw [Nat.log2_eq_iff (by omega)]
      omega
    have h0 : 2 ^ Fmt.fp32.layout.f + f ≠ 0 := by simp only [Fmt.layout]; omega
    have norm : ¬ ((2 ^ Fmt.fp32.layout.f + f).log2 : Int) + (e - Fmt.fp32.layout.bias - Fmt.fp32.layout.f) < -126 := by
      simp only [Fmt.layout, top]
      omega
    rw [if_neg he, if_neg he]
    simp only [Rat2.isZero, h0, decide_false, Bool.false_eq_true, if_false, log2_whole neg h0, if_neg norm]

/-- An FP32 word, by its fields (R106). -/
theorem val32_fields (w : W32) : val32 w =
    if w.toNat / 2 ^ 23 % 2 ^ 8 = 255 then (if w.toNat % 2 ^ 23 = 0 then .inf (decide (2 ^ 31 ≤ w.toNat)) else .nan)
    else .fin (Fmt.fp32.layout.finite (decide (2 ^ 31 ≤ w.toNat)) (w.toNat / 2 ^ 23 % 2 ^ 8) (w.toNat % 2 ^ 23)) := by
  have whole : w.toNat % 2 ^ 32 = w.toNat := Nat.mod_eq_of_lt w.isLt
  have canon : some 0x7FC00000 = some (w.toNat % 2 ^ 31) → w.toNat / 2 ^ 23 % 2 ^ 8 = 255 := fun h => by
    have := Option.some.inj h
    omega
  by_cases top : w.toNat / 2 ^ 23 % 2 ^ 8 = 255
  · simp only [val32, valOf, Fmt.layout, Fmt.width, whole, top]
    rfl
  · have top' : ¬ w.toNat / 2 ^ 23 % 2 ^ 8 = 2 ^ 8 - 1 := top
    simp only [val32, valOf, Fmt.layout, Fmt.width, whole, top, top', mt canon top, decide_false, Bool.and_false, Bool.false_eq_true, if_false]

/-- The classes as ranges of the encoding's magnitude (R106, R162). -/
def classRange (w : Nat) : Nat :=
  let m := w % 2 ^ 31
  let neg := decide (2 ^ 31 ≤ w)
  if 0x7F800000 < m then 8
  else if m = 0x7F800000 then (if neg then 0 else 7)
  else if 0x00800000 ≤ m then (if neg then 1 else 6)
  else if 0 < m then (if neg then 2 else 5)
  else (if neg then 3 else 4)

theorem fclass_range (w : W32) : fclass (val32 w) = classRange w.toNat := by
  have lt := w.isLt
  rw [val32_fields]
  unfold classRange
  dsimp only
  by_cases top : w.toNat / 2 ^ 23 % 2 ^ 8 = 255
  · rw [if_pos top]
    by_cases h0 : w.toNat % 2 ^ 23 = 0
    · rw [if_pos h0, if_neg (by omega), if_pos (by omega)]
      cases decide (2 ^ 31 ≤ w.toNat) <;> rfl
    · rw [if_neg h0, if_pos (by omega)]
      rfl
  · rw [if_neg top, if_neg (by omega), if_neg (by omega), fclass_finite _ _ (Nat.mod_lt _ (by decide))]
    by_cases he : w.toNat / 2 ^ 23 % 2 ^ 8 = 0
    · rw [if_pos he, if_neg (show ¬ 0x00800000 ≤ w.toNat % 2 ^ 31 by omega)]
      by_cases h0 : w.toNat % 2 ^ 23 = 0
      · rw [if_pos h0, if_neg (show ¬ 0 < w.toNat % 2 ^ 31 by omega)]
      · rw [if_neg h0, if_pos (show 0 < w.toNat % 2 ^ 31 by omega)]
    · rw [if_neg he, if_pos (show 0x00800000 ≤ w.toNat % 2 ^ 31 by omega)]

theorem isNan_range (w : W32) : (val32 w).isNan = true ↔ 0x7F800000 < w.toNat % 2 ^ 31 := by
  have lt := w.isLt
  rw [val32_fields]
  by_cases top : w.toNat / 2 ^ 23 % 2 ^ 8 = 255
  · rw [if_pos top]
    by_cases h0 : w.toNat % 2 ^ 23 = 0
    · simp only [if_pos h0, XR.isNan, Bool.false_eq_true, false_iff]
      omega
    · simp only [if_neg h0, XR.isNan, true_iff]
      omega
  · simp only [if_neg top, XR.isNan, Bool.false_eq_true, false_iff]
    omega

/-- Which magnitudes and signs a class takes. -/
theorem classRange_iff (w : Nat) (hw : w < 2 ^ 32) : (classRange w = 8 ↔ 0x7F800000 < w % 2 ^ 31) ∧ (classRange w = 0 ↔ w = 0xFF800000) ∧
    (classRange w = 7 ↔ w = 0x7F800000) ∧ (classRange w = 3 ↔ w = 0x80000000) ∧ (classRange w = 4 ↔ w = 0) ∧
    (classRange w = 1 ↔ 0x80800000 ≤ w ∧ w < 0xFF800000) ∧ (classRange w = 2 ↔ 0x80000000 < w ∧ w < 0x80800000) ∧
    (classRange w = 5 ↔ 0 < w ∧ w < 0x00800000) ∧ (classRange w = 6 ↔ 0x00800000 ≤ w ∧ w < 0x7F800000) := by
  generalize hc : classRange w = c
  unfold classRange at hc
  by_cases neg : 2 ^ 31 ≤ w
  all_goals
    simp only [neg, decide_true, decide_false, if_true, if_false, Bool.false_eq_true] at hc
    split_ifs at hc <;> omega

/-- Settles O8: the words run lane by lane or on each element; the classes of FCLASS are ranges of the encoding. -/
theorem floatOther : Obligations.FloatOther := by
  unfold Obligations.FloatOther
  intro s a o f A B below pick
  refine ⟨?_, ?_, ?_, ?_, ?_, ?_, ?_⟩
  · exact packedOp_computes (exec_fmin s) rfl fun k e => minMaxOp_val ..
  · exact packedOp_computes (exec_fmax s) rfl fun k e => minMaxOp_val ..
  · intro x y ord eq
    exact lanewise_plain (exec_fcmp s) rfl (by decide) fun _ _ => rfl
  · have range := fun w : W32 => classRange_iff w.toNat w.isLt
    simp only [← fclass_range] at range
    refine ⟨fun w => fclass (val32 w), fun w => ?_, fun w => ?_, fun w => ?_, fun w => ?_, fun w => ?_, fun w => ?_, fun w => ?_, fun w => ?_, fun w => ?_,
      lanewise_plain (exec_fclass s) rfl (by decide) fun _ _ => rfl⟩
    all_goals
      obtain ⟨nan, negInf, posInf, negZero, posZero, negNorm, negSub, posSub, posNorm⟩ := range w
    · exact nan.trans (isNan_range w).symm
    · exact negInf.trans (BitVec.toNat_inj (y := 0xFF800000#32))
    · exact posInf.trans (BitVec.toNat_inj (y := 0x7F800000#32))
    · exact negZero.trans (BitVec.toNat_inj (y := 0x80000000#32))
    · exact posZero.trans (BitVec.toNat_inj (y := 0#32))
    · exact negNorm
    · exact negSub
    · exact posSub
    · exact posNorm
  · exact packedOp_computes (exec_frnd s) rfl fun k e => rfl
  · refine ⟨_, lanewise_tangents (exec_fscale s) rfl (by decide) fun k _ => packedLane_elements ..⟩
  · exact lanewise_plain (exec_fexpn s) rfl (by decide) fun _ _ => rfl

end Sys2Proof.Machine
end

section
/-! SUPPORT. Words that complete in their pitch and write no register. -/
namespace Sys2Proof.Machine

/-- A state in which a party's word has completed: the party stands past it, and only what the clocks of a word move has changed. -/
structure Advanced (u t : State) (a : Agent) (i : Instr) (p : Party) (c : Pitch) : Prop where
  self : t.party? a.p.pid = some (p.past c a i)
  others : ∀ k, k ≠ a.p.pid → t.party? k = u.party? k
  homes : ∀ x y, t.home? x y = u.home? x y
  alike : Alike u t
  longs : t.longs = u.longs

theorem closePitch_longs {s : State} {j : Nat} {p : Party} {c : Pitch} (hp : s.party? j = some p) (hc : p.pitch = some c) (going : p.stopped = false) :
    (s.closePitch j).longs = s.longs := by
  obtain ⟨au, cx, taken⟩ := auditTake_eq s p c
  have closed : (s.onParty j fun p => p.closed c).party? j = some (p.closed c) := by
    rw [party?_onParty, hp]
    · rfl
    · intro _; rfl
  simp only [State.closePitch, hp, hc, Option.bind_some, Option.map_some, taken]
  rw [settle_going (j := j) (p := p.closed c) ?here going]
  case here => exact closed
  rfl

theorem advance_longs {s : State} {a : Agent} {i : Instr} {p : Party} {c : Pitch} (hp : s.party? a.p.pid = some p) (hc : p.pitch = some c)
    (going : p.stopped = false) : (s.advance a i).longs = s.longs := by
  obtain ⟨l, shown⟩ := shown_eq s a i
  unfold State.advance
  rw [shown]
  dsimp only
  split
  · refine (closePitch_longs (p := { p with park := [], pitch := some (c.past a i) }) (c := c.past a i) ?_ rfl going).trans rfl
    rw [State.onPitch, party?_onParty, party?_onParty, party?_pass, party?_stir]
    · show Option.map _ (Option.map _ (s.party? a.p.pid)) = _
      rw [hp, Option.map_some, Option.map_some, hc]
      rfl
    · intro _; rfl
    · intro _; rfl
  · rfl

/-- A word whose party stands in its pitch has completed once it has advanced and been counted. -/
theorem advance_counted {u : State} {a : Agent} {i : Instr} {p : Party} {c : Pitch} (hp : u.party? a.p.pid = some p) (hc : p.pitch = some c)
    (going : p.stopped = false) : Advanced u ((u.advance a i).counted a i) a i p c := by
  obtain ⟨self, others, homes, alike⟩ := advance_party (i := i) hp hc going
  have longs := advance_longs (i := i) hp hc going
  rcases counted_eq (u.advance a i) a i with e | e
  · rw [e]; exact ⟨self, others, homes, alike, longs⟩
  · rw [e]; exact ⟨self, others, homes, alike.trans (alike_count ..), longs⟩

theorem Advanced.wentOn {u t : State} {a : Agent} {i : Instr} {p : Party} {c : Pitch} (h : Advanced u t a i p c) (words : c.words = a.c.words)
    (after : c.after = a.c.after) (awaits : c.awaits = a.c.awaits) : t.wentOn a i := by
  refine ⟨_, h.self, ?_⟩
  unfold Party.past
  by_cases last : a.c.idx + wordsTaken i < a.c.words.length
  · rw [if_pos last, if_neg (by omega)]
    exact ⟨c.past a i, rfl, rfl, words⟩
  · rw [if_neg last, if_pos (by omega)]
    exact ⟨rfl, after, awaits⟩

theorem past_sameRegs (p : Party) (c : Pitch) (a : Agent) (i : Instr) : p.SameRegs (p.past c a i) := by
  unfold Party.past
  dsimp only
  split <;> exact ⟨⟨rfl, rfl, rfl, rfl⟩, ⟨rfl, rfl⟩, rfl, ⟨rfl, rfl, rfl, rfl, rfl⟩, rfl⟩

theorem past_hnd_calls (p : Party) (c : Pitch) (a : Agent) (i : Instr) : (p.past c a i).hnd = p.hnd ∧ (p.past c a i).calls = p.calls := by
  unfold Party.past
  dsimp only
  split <;> exact ⟨rfl, rfl⟩

theorem Party.SameRegs.trans {p q r : Party} (h : p.SameRegs q) (k : q.SameRegs r) : p.SameRegs r := by
  obtain ⟨⟨h1, h2, h3, h4⟩, ⟨h5, h6⟩, h7, ⟨h8, h9, h10, h11, h12⟩, h13⟩ := h
  obtain ⟨⟨k1, k2, k3, k4⟩, ⟨k5, k6⟩, k7, ⟨k8, k9, k10, k11, k12⟩, k13⟩ := k
  exact ⟨⟨k1.trans h1, k2.trans h2, k3.trans h3, k4.trans h4⟩, ⟨k5.trans h5, k6.trans h6⟩, k7.trans h7,
    ⟨k8.trans h8, k9.trans h9, k10.trans h10, k11.trans h11, k12.trans h12⟩, k13.trans h13⟩

/-- A word completes where its party has kept its registers, and its place in its pitch, up to the word's end. -/
theorem Advanced.completes {s u t : State} {a : Agent} {i : Instr} {p : Party} {c : Pitch} (h : Advanced u t a i p c) (words : c.words = a.c.words)
    (after : c.after = a.c.after) (awaits : c.awaits = a.c.awaits) (same : a.p.SameRegs p) (kept : p.hnd = a.p.hnd ∧ p.calls = a.p.calls) : Completes s t a i :=
  have past := past_hnd_calls p c a i
  ⟨h.wentOn words after awaits, _, h.self, same.trans (past_sameRegs ..), past.1.trans kept.1, past.2.trans kept.2⟩

theorem Advanced.strangersKept {s u t : State} {a : Agent} {i : Instr} {p : Party} {c : Pitch} (h : Advanced u t a i p c) (hA : AgentFacts s a)
    (others : ∀ k, k ≠ a.p.pid → u.party? k = s.party? k) : s.strangersKept t a := fun j q hq away => by
  have hj : j ≠ a.p.pid := by
    rintro rfl
    rw [hA.party] at hq
    cases hq
    exact away ⟨rfl, rfl⟩
  exact ⟨q, by rw [h.others j hj, others j hj, hq], rfl⟩

theorem Party.SameRegs.refl (p : Party) : p.SameRegs p := ⟨⟨rfl, rfl, rfl, rfl⟩, ⟨rfl, rfl⟩, rfl, ⟨rfl, rfl, rfl, rfl, rfl⟩, rfl⟩

theorem lastReads_none {s : State} {p : Party} {u : Uses} (h : lastNames u = []) : s.lastReads p u = s := by
  simp [State.lastReads, State.freeReads, h]

/-- What is alike but for its parties and home parties, and keeps those's rows, is spared. -/
theorem Advanced.spared {u t : State} {a : Agent} {i : Instr} {p : Party} {c : Pitch} (h : Advanced u t a i p c) : Spared u t := by
  obtain ⟨mem, bulk, poison, formes, rest⟩ := h.alike
  have forme : ∀ f, t.forme? f = u.forme? f := fun f => by rw [State.forme?, formes, ← State.forme?]
  exact ⟨mem, bulk, poison, fun f => by rw [forme], fun f => by rw [forme], fun f => by rw [forme], fun f x => by rw [h.homes], rest⟩

end Sys2Proof.Machine
end

section
/-! SUPPORT. Press words that queue an operation (R172 to R184, R192 to R196, R200, R348, R349). -/
namespace Sys2Proof.Machine

/-! The queue. -/

theorem queuePlace_some {s : State} {part q site : Nat} (h : (s.queuePlace part q site).isSome = true) :
    ∃ ph, s.queuePlace part q site = some ph ∧ (ph = .queued ∨ ph = .spilt) := by
  obtain ⟨ph, e⟩ := Option.isSome_iff_exists.1 h
  refine ⟨ph, e, ?_⟩
  unfold State.queuePlace at e
  dsimp only at e
  split_ifs at e <;> simp_all

/-- A state with one more operation, which a party has issued. -/
def State.issued (s : State) (pid : Nat) (o : Op) : State :=
  { (s.emit pid ((o.queue :: o.work.fields).map (BitVec.ofNat 64))).bump with ops := s.ops ++ [o] }

theorem reachRead_sound {s : State} (h : s.failing = []) (a : Agent) (w : Reading Work) : s.reachRead a w = s := by
  unfold State.reachRead
  split
  · rfl
  · exact reachVa_sound h ..
  · rename_i w
    induction w.headers with
    | nil => rfl
    | cons x l ih => rw [List.foldl_cons, reachVa_sound h, ih]

/-- An operation that its word has read whole goes into the queue, or into the ring (R174, R348). -/
theorem issuePress_room {s : State} {a : Agent} {i : Instr} {nu : Nat} {w : Work} (reached : s.reachRead a (.ok (.ok w)) = s)
    (room : (s.queuePlace (s.partOf a.l.lid) 0 a.f.core).isSome = true) :
    ∃ ph, (ph = .queued ∨ ph = .spilt) ∧ s.issuePress a i nu (.ok (.ok w)) = .done (s.issued a.p.pid { a.newOp s i 0 a.f.core w nu with phase := ph }) := by
  obtain ⟨ph, place, either⟩ := queuePlace_some room
  refine ⟨ph, either, ?_⟩
  have queued : s.queueOp a i (a.newOp s i 0 a.f.core w nu) = .ok (s.issued a.p.pid { a.newOp s i 0 a.f.core w nu with phase := ph }) := by
    unfold State.queueOp
    rw [show (a.newOp s i 0 a.f.core w nu).queue = 0 from rfl, show (a.newOp s i 0 a.f.core w nu).site = a.f.core from rfl, place]
    rfl
  unfold State.issuePress
  rw [reached]
  dsimp only
  rw [queued]

/-- Where the queue is full and the ring has no room the word traps (R349). -/
theorem issuePress_full {s : State} {a : Agent} {i : Instr} {nu : Nat} {w : Work} (reached : s.reachRead a (.ok (.ok w)) = s)
    (full : s.queuePlace (s.partOf a.l.lid) 0 a.f.core = none) :
    s.issuePress a i nu (.ok (.ok w)) = .other (s.trapHere a i .queueQuota (some (quotaInfo 0 a.f.core (dieOf a.f.core))) 0) := by
  have refused : s.queueOp a i (a.newOp s i 0 a.f.core w nu) = .error (s.trapHere a i .queueQuota (some (quotaInfo 0 a.f.core (dieOf a.f.core))) 0) := by
    unfold State.queueOp
    rw [show (a.newOp s i 0 a.f.core w nu).queue = 0 from rfl, show (a.newOp s i 0 a.f.core w nu).site = a.f.core from rfl, full]
  unfold State.issuePress
  rw [reached]
  dsimp only
  rw [refused]

theorem word_traps {s : State} {a : Agent} {i : Instr} {perLane : Bool} {body : Agent → Eff} {code : TrapCode} {info : Option Nat} {m : Mask}
    (hx : exec i s = s.word i perLane body) (hp : Passes s a i perLane) (hb : body a = .other (s.trapHere a i code info m)) : TrapsHere s a i code info m :=
  hx.trans (word_other hp hb)

/-- A word that has put its operation into the queue completes. -/
theorem word_issues {s : State} {a : Agent} {i : Instr} {body : Agent → Eff} {w : Work} {nu : Nat} {ph : Phase_} (hx : exec i s = s.word i true body)
    (hp : Passes s a i true) (going : a.p.stopped = false) (reads : lastNames (usesOf a.l.record i) = []) (either : ph = .queued ∨ ph = .spilt)
    (hb : body a = .done (s.issued a.p.pid { a.newOp s i 0 a.f.core w nu with phase := ph })) : Issues s a i 0 a.f.core w := by
  have hA := agent_facts hp.agent
  have run := hx.trans (word_done hp hb)
  rw [lastReads_none reads] at run
  have adv := advance_counted (u := s.issued a.p.pid { a.newOp s i 0 a.f.core w nu with phase := ph }) (i := i) hA.party hA.pitch going
  obtain ⟨-, ops, -⟩ := adv.alike.rest
  refine ⟨_, { a.newOp s i 0 a.f.core w nu with phase := ph }, run, adv.completes rfl rfl rfl (.refl _) ⟨rfl, rfl⟩, adv.strangersKept hA fun _ _ => rfl, ops,
    ?_, rfl, rfl, rfl, rfl, rfl, rfl, rfl, rfl, rfl, either⟩
  rw [ops]
  obtain ⟨mem, bulk, poison, scratch, galley, flags, rows, rest⟩ := adv.spared
  exact ⟨mem, bulk, poison, scratch, galley, flags, rows, rest⟩

theorem onTile_good {s : State} {a : Agent} {i : Instr} {g : BitVec 3} {m : Mask} {body : Nat → Eff} (h : a.tileBad g.toNat (a.tans i) = none) :
    s.onTile a i g m body = body (a.tans i) := by
  simp only [State.onTile, h]

theorem onTile_bad {s : State} {a : Agent} {i : Instr} {g : BitVec 3} {m : Mask} {body : Nat → Eff} {k : Nat} (h : a.tileBad g.toNat (a.tans i) = some k) :
    s.onTile a i g m body = .other (s.trapHere a i .accessViolation (some k) m) := by
  simp only [State.onTile, h]

/-- A press word, run on a state in which every failing sector that it would reach has been seen to, queues its work. -/
theorem press_issues {s : State} {a : Agent} {i : Instr} {body : Agent → Eff} {w : Work} {nu : Nat} (hx : exec i s = s.word i true body)
    (hp : Passes s a i true) (going : a.p.stopped = false) (room : (s.queuePlace (s.partOf a.l.lid) 0 a.f.core).isSome = true)
    (reads : lastNames (usesOf a.l.record i) = []) (reached : s.reachRead a (.ok (.ok w)) = s)
    (hb : body a = s.issuePress a i nu (.ok (.ok w))) : Issues s a i 0 a.f.core w := by
  obtain ⟨ph, either, done⟩ := issuePress_room (i := i) (nu := nu) reached room
  exact word_issues hx hp going reads either (hb.trans done)

/-! Headers (R177 to R181, R229). -/

/-- What a header that a word has read is known to be. -/
structure Sheet.Read (h : Sheet) (r : LRec) (slot : Option (BitVec 3)) (stamp : Bool) : Prop where
  stamped : stamp = true → h.stamp = h.swz
  swz : h.swz ≤ 3
  named : ∀ k, slot = some k → h.slot = k.toNat ∧ h.fmt = (r.slot k).toNat % 256
  rows : 0 < h.rows
  cols : 0 < h.cols
  body : h.body % 128 = 0

theorem sound_ranges {h : Sheet} {bs : List Byte} (e : h.sound bs = true) : h.swz ≤ 3 ∧ 0 < h.rows ∧ 0 < h.cols ∧ h.body % 128 = 0 := by
  simp only [Sheet.sound, Bool.and_eq_true, decide_eq_true_eq] at e
  obtain ⟨⟨⟨⟨⟨⟨⟨⟨⟨⟨-, swz⟩, -⟩, rows⟩, cols⟩, body⟩, -⟩, -⟩, -⟩, -⟩, -⟩ := e
  exact ⟨swz, rows, cols, body⟩

theorem readSheet_read {s : State} {a : Agent} {i : Instr} {va : Nat} {slot : Option (BitVec 3)} {stamp : Bool} {stores engines : Nat} {h : Sheet}
    (e : s.readSheet a i va slot stamp stores engines = .ok (.ok h)) : h.Read a.l.record slot stamp := by
  unfold State.readSheet at e
  dsimp only at e
  split_ifs at e
  split at e
  · cases e
  · cases e
  · split_ifs at e with good
    cases e
    simp only [Bool.and_eq_true, Bool.or_eq_true, decide_eq_true_eq, Bool.not_eq_true'] at good
    obtain ⟨⟨sound, stamped⟩, named⟩ := good
    obtain ⟨swz, rows, cols, body⟩ := sound_ranges sound
    refine ⟨fun on => stamped.resolve_left fun off => ?_, swz, fun k hk => ?_, rows, cols, body⟩
    · rw [on] at off; cases off
    · subst hk
      simpa using named

/-- The headers of a sheet and its tangents. -/
structure SheetsRead (l : List Sheet) (r : LRec) (slot : Option (BitVec 3)) (stamp : Bool) : Prop where
  read : ∀ h ∈ l, h.Read r slot stamp
  agree : ∀ h ∈ l, h.agrees (l.headD {}) = true

theorem Sheet.agrees_self (h : Sheet) : h.agrees h = true := by simp [Sheet.agrees]

theorem SheetsRead.snoc {l : List Sheet} {r : LRec} {slot : Option (BitVec 3)} {stamp : Bool} (hl : SheetsRead l r slot stamp) {h : Sheet}
    (hr : h.Read r slot stamp) (ha : l = [] ∨ h.agrees (l.headD {}) = true) : SheetsRead (l ++ [h]) r slot stamp := by
  refine ⟨fun x hx => ?_, fun x hx => ?_⟩
  · rcases List.mem_append.1 hx with hx | hx
    · exact hl.read x hx
    · rw [List.mem_singleton.1 hx]; exact hr
  · cases l with
    | nil => rw [List.mem_singleton.1 hx]; exact h.agrees_self
    | cons y l =>
      rcases List.mem_append.1 hx with hx | hx
      · exact hl.agree x hx
      · rw [List.mem_singleton.1 hx]; exact ha.resolve_left (by simp)

/-- Reading the next header of a sheet and its tangents, after those before it. -/
def State.nextSheet (s : State) (a : Agent) (i : Instr) (va : Nat) (slot : Option (BitVec 3)) (stamp : Bool) (acc : Reading (List Sheet)) (j : Nat) :
    Reading (List Sheet) :=
  match acc with
  | .ok (.ok l) =>
    match s.readSheet a i ((va + 64 * j) % 2 ^ 64) slot stamp (max a.p.opReady a.p.cmdReady) a.p.opReady with
    | .ok (.ok h) => if j = 0 || h.agrees (l.headD {}) then .ok (.ok (l ++ [h])) else .error (s.trapHere a i .sheetMismatch (some h.at_) 0)
    | .ok (.error e) => .ok (.error e)
    | .error t => .error t
  | x => x

theorem readSheets_eq (s : State) (a : Agent) (i : Instr) (va : Nat) (slot : Option (BitVec 3)) (stamp : Bool) (nt : Nat) :
    s.readSheets a i va slot stamp nt = (upFrom 0 (nt + 1)).foldl (s.nextSheet a i va slot stamp) (.ok (.ok [])) := rfl

section
variable {s : State} {a : Agent} {i : Instr} {va : Nat} {slot : Option (BitVec 3)} {stamp : Bool}

/-- A header is read only after those before it, and agrees with the first of them. -/
theorem nextSheet_read {acc : Reading (List Sheet)} {j : Nat} {l : List Sheet} (e : s.nextSheet a i va slot stamp acc j = .ok (.ok l)) :
    ∃ l' h, acc = .ok (.ok l') ∧ l = l' ++ [h] ∧ h.Read a.l.record slot stamp ∧ (j = 0 ∨ h.agrees (l'.headD {}) = true) := by
  unfold State.nextSheet at e
  split at e
  · rename_i l'
    split at e
    · rename_i h read
      split_ifs at e with good
      cases e
      exact ⟨l', h, rfl, rfl, readSheet_read read, by simpa using good⟩
    · cases e
    · cases e
  · rename_i other
    exact absurd e (other l)

theorem nextSheets_read (n : Nat) {k : Nat} {acc : Reading (List Sheet)} {l : List Sheet}
    (e : (upFrom k n).foldl (s.nextSheet a i va slot stamp) acc = .ok (.ok l)) :
    ∃ l', acc = .ok (.ok l') ∧ (l'.length = k → SheetsRead l' a.l.record slot stamp → l.length = k + n ∧ SheetsRead l a.l.record slot stamp) := by
  induction n generalizing k acc with
  | zero => exact ⟨l, e, fun len read => ⟨len, read⟩⟩
  | succ n ih =>
    obtain ⟨l1, step, rest⟩ := ih e
    obtain ⟨l', h, rfl, rfl, read, agree⟩ := nextSheet_read step
    refine ⟨l', rfl, fun len all => ?_⟩
    have first : l' = [] ∨ h.agrees (l'.headD {}) = true := agree.imp_left fun zero => List.eq_nil_of_length_eq_zero (len.trans zero)
    have more := rest (by rw [List.length_append, len]; rfl) (all.snoc read first)
    exact ⟨by omega, more.2⟩

theorem readSheets_read {nt : Nat} {l : List Sheet} (e : s.readSheets a i va slot stamp nt = .ok (.ok l)) :
    l.length = nt + 1 ∧ SheetsRead l a.l.record slot stamp := by
  rw [readSheets_eq] at e
  obtain ⟨l', start, all⟩ := nextSheets_read _ e
  cases start
  have read := all rfl ⟨fun _ h => absurd h List.not_mem_nil, fun _ h => absurd h List.not_mem_nil⟩
  exact ⟨by omega, read.2⟩

end

/-! Windows and rectangles (R192, R196, R200). -/

/-- A product that a press word forms: its fields, read from the word and UC, and the limits that it keeps. -/
theorem productOf_read {s : State} {a : Agent} {i : Instr} {o : PF} {nt kd : Nat} {sparseA : Bool} {sparseB : Sheet → Option Bool} {platen : Bool} {p : Product}
    (e : s.productOf a i o nt kd sparseA sparseB platen = .ok (.ok p)) :
    let f := windowField (s.sVal a o.uc 2) platen
    ∃ la lb sb, s.readSheets a i (s.sVal a o.ua 0).toNat (some o.fa) true nt = .ok (.ok la) ∧
      s.readSheets a i (s.sVal a o.ub 1).toNat (some o.fb) true nt = .ok (.ok lb) ∧ sparseB (lb.headD {}) = some sb ∧
      f.over kd (sparseA || sb) (la.headD {}) (lb.headD {}) = false ∧
      p = { tile := o.g.toNat, a := la, b := lb, arow := f.arow, brow := f.brow, k0 := f.k0, m := f.m, n := f.n, kd := kd, zero := o.pmod.getLsbD 0
            sparseA := sparseA, sparseB := sb } := by
  unfold State.productOf at e
  dsimp only at e
  split at e
  · cases e
  · cases e
  · rename_i la ha
    split_ifs at e
    split at e
    · cases e
    · cases e
    · rename_i lb hb
      split at e
      · cases e
      · rename_i sb hs
        split_ifs at e with limits
        cases e
        exact ⟨la, lb, sb, ha, hb, hs, by simpa using limits, rfl⟩

/-- What a window within its limits keeps to (R182, R192). -/
theorem over_iff {f : WindowField} {kd : Nat} {sparse : Bool} {ha hb : Sheet} (h : f.over kd sparse ha hb = false) :
    f.bad = false ∧ f.arow + f.m ≤ ha.rows ∧ f.brow + f.n ≤ hb.rows ∧ f.k0 + kd ≤ min ha.cols hb.cols ∧ (sparse = true → f.k0 % 4 = 0 ∧ kd % 4 = 0) := by
  simp only [WindowField.over, Bool.or_eq_false_iff, decide_eq_false_iff_not, Bool.and_eq_false_iff, Nat.not_lt, ne_eq, not_not] at h
  obtain ⟨⟨⟨⟨bad, rowsA⟩, rowsB⟩, cols⟩, sparse'⟩ := h
  refine ⟨bad, rowsA, rowsB, cols, fun on => ?_⟩
  rw [on] at sparse'
  simpa using sparse'

/-- The rectangle that a word forms (R196). -/
theorem rectOf_read {s : State} {a : Agent} {i : Instr} {o : PF} {nt : Nat} {rm : RmCode} {r : Rect} (e : s.rectOf a i o nt rm = .ok r) :
    let uc := s.sVal a o.uc 2
    r = { tile := o.g.toNat, base := (s.sVal a o.ua 0).toNat, stride := (s.sVal a o.ub 1).toNat, row := (uc.extractLsb' 0 8).toNat
          col := (uc.extractLsb' 8 8).toNat, rows := (uc.extractLsb' 16 7).toNat + 1, cols := (uc.extractLsb' 24 8).toNat + 1
          fmt := (a.l.record.slot o.fa).toNat % 256, rm := rm, satm := slotSatm (a.l.record.slot o.fa), comps := nt } ∧
      r.row + r.rows ≤ 128 ∧ r.col + r.cols ≤ 256 ∧ r.base % fmtBytes r.fmt = 0 ∧ r.stride % fmtBytes r.fmt = 0 := by
  unfold State.rectOf at e
  dsimp only at e
  split_ifs at e with limits base stride
  cases e
  simp only [Bool.or_eq_true, decide_eq_true_eq, not_or, Nat.not_lt] at limits
  exact ⟨rfl, limits.1.2, limits.2, not_not.1 base, not_not.1 stride⟩

theorem denseSide_some {h : Sheet} {b : Bool} (e : denseSide h = some b) : b = false := by
  simp only [denseSide] at e
  split_ifs at e
  exact (Option.some.inj e).symm

theorem sparseSide_some {h : Sheet} {b : Bool} (e : sparseSide h = some b) : b = true := by
  simp only [sparseSide] at e
  split_ifs at e
  exact (Option.some.inj e).symm

/-- The headers that a product's word names are whole. -/
theorem SheetsRead.whole {l : List Sheet} {r : LRec} {k : BitVec 3} (h : SheetsRead l r (some k) true) :
    ∀ x ∈ l, x.stamp = x.swz ∧ x.swz ≤ 3 ∧ x.slot = k.toNat ∧ x.fmt = (r.slot k).toNat % 256 ∧ 0 < x.rows ∧ 0 < x.cols ∧ x.body % 128 = 0 ∧
      x.agrees (l.headD {}) = true := fun x hx => by
  obtain ⟨stamped, swz, named, rows, cols, body⟩ := h.read x hx
  obtain ⟨slot, fmt⟩ := named k rfl
  exact ⟨stamped rfl, swz, slot, fmt, rows, cols, body, h.agree x hx⟩

theorem tile_traps {s : State} {a : Agent} {i : Instr} {g : BitVec 3} {m : Mask} {perLane : Bool} {body : Agent → Nat → Eff} {k : Nat}
    (hx : exec i s = s.word i perLane fun a => s.onTile a i g m (body a)) (hp : Passes s a i perLane) (bad : a.tileBad g.toNat (a.tans i) = some k) :
    TrapsHere s a i .accessViolation (some k) m :=
  word_traps hx hp (onTile_bad bad)

/-- The low bits of k0 that R200 reserves for a PLATEN. -/
theorem k0_aligned {uc : W64} (h : (windowField uc true).bad = false) : (windowField uc true).k0 % 32 = 0 := by
  simp only [windowField, if_true, Bool.or_eq_false_iff, decide_eq_false_iff_not, ne_eq, not_not] at h ⊢
  have low : (uc.extractLsb' 32 5).toNat = 0 := by rw [h.2]; rfl
  rw [BitVec.extractLsb'_toNat] at low ⊢
  omega

/-- Settles O24: each word's operation is read and checked whole before it is queued. -/
theorem pressWords : Obligations.PressWords := by
  unfold Obligations.PressWords
  intro s a o free uc ready sheets window
  have formed : ∀ {i : Instr} {nt kd : Nat} {sparseA : Bool} {sparseB : Sheet → Option Bool} {platen : Bool} {p : Product},
      s.productOf a i o nt kd sparseA sparseB platen = .ok (.ok p) →
      window p kd nt ∧ p.m = (windowField uc platen).m ∧ p.sparseA = sparseA ∧ sparseB (p.b.headD {}) = some p.sparseB ∧ p.platen = none ∧
        (windowField uc platen).bad = false ∧ p.k0 = (windowField uc platen).k0 := fun e => by
    obtain ⟨la, lb, sb, readA, readB, side, limits, rfl⟩ := productOf_read e
    obtain ⟨bad, rowsA, rowsB, cols, quads⟩ := over_iff limits
    obtain ⟨lenA, wholeA⟩ := readSheets_read readA
    obtain ⟨lenB, wholeB⟩ := readSheets_read readB
    exact ⟨⟨rfl, rfl, rfl, ⟨lenA, wholeA.whole⟩, ⟨lenB, wholeB.whole⟩, rfl, rfl, rfl, rfl, rowsA, rowsB, cols, quads⟩, rfl, rfl, side, rfl, bad, rfl⟩
  refine ⟨?press, ?presss, ?platen, ?gclr, ?rect, ?sheet, ?tile, ?quota⟩
  case press =>
    intro i ⟨hp, going, room, tile⟩ sound p e
    obtain ⟨limits, m, sparseA, side, none_, -⟩ := formed e
    exact ⟨press_issues (exec_press s) hp going room rfl (reachRead_sound sound ..)
      ((onTile_good tile).trans (congrArg (fun r => s.issuePress a i o.nu.toNat (asWork .product r)) e)), limits, m, sparseA, denseSide_some side, none_⟩
  case presss =>
    intro i sb ⟨hp, going, room, tile⟩ sound p e
    obtain ⟨limits, m, sparseA, side, none_, -⟩ := formed e
    have sparse : p.sparseB = sb := by
      split_ifs at side with isB
      · exact (sparseSide_some side).trans isB.symm
      · exact (denseSide_some side).trans (Bool.eq_false_iff.2 isB).symm
    exact ⟨press_issues (exec_presss s) hp going room rfl (reachRead_sound sound ..)
      ((onTile_good tile).trans (congrArg (fun r => s.issuePress a i o.nu.toNat (asWork .product r)) e)), limits, m, sparseA, sparse, none_⟩
  case platen =>
    intro i ⟨hp, going, room, tile⟩ sound p k e stack
    obtain ⟨limits, m, -, -, -, bad, k0⟩ := formed e
    refine ⟨press_issues (nu := o.nu.toNat) (exec_platen s) hp going room rfl (reachRead_sound sound ..) ((onTile_good tile).trans ?_), limits, m,
      k0 ▸ k0_aligned bad⟩
    dsimp only [i] at e
    simp only [i, e, stack]
  case gclr =>
    intro i ⟨hp, going, room, tile⟩
    exact press_issues (exec_gclr s) hp going room rfl rfl (onTile_good tile)
  case rect =>
    intro i rm f kind ⟨hp, going, room, tile⟩ r e
    obtain ⟨fields, rows, cols, base, stride⟩ := rectOf_read e
    have issued : Issues s a i 0 a.f.core (f r) := by
      rcases kind with ⟨rfl, rfl, rfl⟩ | ⟨rfl, rfl, rfl⟩
      · exact press_issues (exec_gload s) hp going room rfl rfl
          ((onTile_good tile).trans (congrArg (fun r => s.issuePress a _ o.nu.toNat (asRect .load r)) e))
      · exact press_issues (exec_gstore s) hp going room rfl rfl
          ((onTile_good tile).trans (congrArg (fun r => s.issuePress a _ o.nu.toNat (asRect .store r)) e))
    refine ⟨issued, ?_, ?_, ?_, ?_, ?_, ?_, ?_, ?_, rows, cols, ?_, base, stride⟩ <;> rw [fields]
  case sheet =>
    intro i nt hp going room sound src dst readSrc readDst
    dsimp only [i, nt] at readSrc readDst ⊢
    refine ⟨fun same => ?_, fun differ => ?_⟩
    · refine press_issues (nu := o.nu.toNat) (exec_sheet s) hp going room rfl (reachRead_sound sound ..) ?_
      simp only [readSrc, readDst, if_pos same]
    · refine word_traps (exec_sheet s) hp ?_
      simp only [readSrc, readDst, if_neg differ]
      rfl
  case tile =>
    intro i hi k hp bad
    simp only [List.mem_cons, List.not_mem_nil, or_false] at hi
    rcases hi with rfl | rfl | rfl | rfl | rfl | rfl
    · exact tile_traps (exec_press s) hp bad
    · exact tile_traps (exec_presss s) hp bad
    · exact tile_traps (exec_platen s) hp bad
    · exact tile_traps (exec_gclr s) hp bad
    · exact tile_traps (exec_gload s) hp bad
    · exact tile_traps (exec_gstore s) hp bad
  case quota =>
    intro i hp tile full
    have none_ : s.queuePlace (s.partOf a.l.lid) 0 a.f.core = none := by simpa [free] using full
    have info : quotaInfo 0 a.f.core (dieOf a.f.core) = a.f.core % 16 * 2 ^ 8 + a.f.core / 16 * 2 ^ 12 := by rw [quotaInfo, dieOf, Nat.zero_add]
    rw [← info]
    exact word_traps (exec_gclr s) hp ((onTile_good tile).trans (issuePress_full rfl none_))

end Sys2Proof.Machine
end

section
/-! SUPPORT. Late results, and the entries of a galley that a word reads and writes (R190, R191, R197). -/
namespace Sys2Proof.Machine

/-! Results that arrive later (R57, R59). -/

/-- Captures are all that a fold of them changes. -/
theorem captures_eq (l : List W64) (s : State) (pid : Nat) : ∃ cs, l.foldl (fun s v => s.capture pid v) s = { s with captures := cs } := by
  induction l generalizing s with
  | nil => exact ⟨s.captures, rfl⟩
  | cons v l ih =>
    obtain ⟨cs, e⟩ := ih (s.capture pid v)
    exact ⟨cs, e⟩

/-- The registers that a result writes, as its party's history notes them (R25). -/
def Dest.wrote (m : Marks) (d : Dest) : Marks :=
  match d with
  | .sreg n _ => { m with s := m.s ||| (1#64 <<< n.toNat) }
  | .wreg n _ => { m with w := m.w ||| (1#16 <<< n.toNat) }
  | .lanes .. | .gone .. => m

/-- What a late result that takes no room of the core changes: one more result stands, and its party is marked. -/
theorem addLong_eq (s : State) (a : Agent) (i : Instr) (dests : List Dest) : ∃ (f : Marks → Marks) (cs os : List (Nat × W64)) (ts : List Taint) (x : Long),
    x.owners = [a.p.pid] ∧ x.dests = dests ∧ s.addLong a i dests [] = { s.onParty a.p.pid (fun p => p.mark f) with
      captures := cs, outputs := os, taints := ts, nextId := s.nextId + 1, longs := s.longs ++ [x] } := by
  unfold State.addLong
  dsimp only
  generalize dests.flatMap _ = got
  generalize emitted : State.emit (a.onParty s _) a.p.pid _ = e
  obtain ⟨cs, captured⟩ := captures_eq got e a.p.pid
  simp only [captured, State.makeRoom, if_true]
  obtain ⟨ts, tainted⟩ := taint_eq { e with captures := cs } a.p (usesOf a.l.record i).dsts
    (({ e with captures := cs } : State).taintOf a.p (usesOf a.l.record i).reads) (a.c.some_ || a.sharesRows { e with captures := cs })
  refine ⟨fun m => dests.foldl Dest.wrote m, cs, e.outputs, ts, { id := s.nextId, fid := a.p.fid, hp := a.p.hp, owners := [a.p.pid], word := a.word i, addr := a.addr i, dests := dests, accs := [], reqs := 0, loads := [], size := .w32 }, rfl, rfl, ?_⟩
  simp only [List.isEmpty_nil, if_true, tainted]
  subst emitted
  rfl

/-! A word whose late result's rows are allocated at once (R39, R57). -/

section
variable {s v : State} {a : Agent} {i : Instr} {r : Reg} {comps : List (Nat × Row)} {m : Mask} {keep : Bool}

theorem calm_sameRegs {p q : Party} (h : p.calm = q.calm) : p.SameRegs q :=
  have ⟨regs, lanes, em, traps, due⟩ : p.calm.SameRegs q.calm := h ▸ .refl _
  ⟨regs, lanes, em, traps, due⟩

/-- A row's write leaves the party's registers, and its place in its pitch. -/
theorem rowWrite_keeps {p : Party} {c : Pitch} (hc : p.pitch = some c) : p.SameRegs (p.afterWrite (.row r comps m keep)) ∧
    ∃ d, (p.afterWrite (.row r comps m keep)).pitch = some d ∧ d.words = c.words ∧ d.after = c.after ∧ d.awaits = c.awaits := by
  cases r with
  | t n => exact ⟨⟨⟨rfl, rfl, rfl, rfl⟩, ⟨rfl, rfl⟩, rfl, ⟨rfl, rfl, rfl, rfl, rfl⟩, rfl⟩, c.setTemp n comps m keep, by simp [Party.afterWrite, hc], rfl, rfl, rfl⟩
  | _ => exact ⟨.refl _, c, hc, rfl, rfl, rfl⟩

/-- The late result stands, and the word that leaves it has completed. -/
theorem Stored.lands (h : Stored s v a i [.row r comps m keep]) (hA : AgentFacts s a) (going : a.p.stopped = false) (dests : List Dest) :
    let t := ((v.addLong a i dests []).advance a i).counted a i
    Completes s t a i ∧ s.strangersKept t a ∧ Alike s t ∧ (∀ x y, t.home? x y = v.home? x y) ∧
      ∃ x ∈ t.longs, x.owners = [a.p.pid] ∧ x.dests = dests := by
  intro t
  obtain ⟨q, hq, calm⟩ := h.self
  obtain ⟨same, d, hd, words, after, awaits⟩ := rowWrite_keeps (r := r) (comps := comps) (m := m) (keep := keep) hA.pitch
  have pitch := pitch_congr calm
  rw [List.foldl_cons, List.foldl_nil] at calm pitch
  rw [hd] at pitch
  obtain ⟨c, hc, e⟩ : ∃ c, q.pitch = some c ∧ ({ c with recent := [] } : Pitch) = { d with recent := [] } := by
    cases hc : q.pitch with
    | none => rw [hc] at pitch; cases pitch
    | some c => rw [hc] at pitch; exact ⟨c, rfl, Option.some.inj pitch⟩
  obtain ⟨f, cs, os, ts, x, owners, xdests, eq⟩ := addLong_eq v a i dests
  have marked : (v.addLong a i dests []).party? a.p.pid = some (q.mark f) := by
    rw [eq]
    exact (party?_onParty v a.p.pid (fun p => p.mark f) fun _ => rfl).trans (by rw [hq]; rfl)
  have stopped : (q.mark f).stopped = false := (calm_stopped calm).1.trans ((afterWrites_stopped [.row r comps m keep] a.p).1.trans going)
  have adv : Advanced (v.addLong a i dests []) t a i (q.mark f) c := advance_counted marked hc stopped
  obtain ⟨fixed, -, -, -⟩ := calm_keeps calm
  have fixed := fixed.trans (afterWrites_keep [.row r comps m keep] a.p).1
  simp only [Party.fixed, Prod.mk.injEq] at fixed
  obtain ⟨-, -, -, calls, -, -, -, hnd⟩ := fixed
  have others : ∀ k, k ≠ a.p.pid → (v.addLong a i dests []).party? k = s.party? k := fun k hk => by
    rw [eq]
    exact (party?_onParty_ne v a.p.pid k (fun p => p.mark f) (fun _ => rfl) hk).trans (h.others k hk)
  refine ⟨adv.completes ((congrArg Pitch.words e).trans words) ((congrArg Pitch.after e).trans after) ((congrArg Pitch.awaits e).trans awaits)
      (same.trans ((calm_sameRegs calm.symm).trans ⟨⟨rfl, rfl, rfl, rfl⟩, ⟨rfl, rfl⟩, rfl, ⟨rfl, rfl, rfl, rfl, rfl⟩, rfl⟩)) ⟨hnd, calls⟩,
    adv.strangersKept hA others, h.alike.trans (Alike.trans ?_ adv.alike), fun x y => (adv.homes x y).trans (by rw [eq]; rfl), x, ?_, owners, xdests⟩
  · rw [eq]; exact ⟨rfl, rfl, rfl, rfl, by simp [State.onParty]⟩
  · rw [adv.longs, eq]; simp

theorem Alike.forme {t : State} (h : Alike s t) (f : Nat) : t.forme? f = s.forme? f := by rw [State.forme?, h.formes, ← State.forme?]

/-- Past a late result, every register keeps its lanes but the destination and those that are freed. -/
theorem Stored.kept {t : State} (h : Stored s v a i [.row r comps m keep]) (distinct : (comps.map (·.1)).Nodup) (dst : ∀ n, r = .v n → Name.v n ∈ (usesOf a.l.record i).dsts)
    (alike : Alike s t) (homes : ∀ x y, t.home? x y = v.home? x y) (others : s.strangersKept t a) : KeptByRead s t a i := by
  refine ⟨alike.mem, alike.bulk, fun f => by rw [alike.forme], fun f => by rw [alike.forme], fun f => by rw [alike.forme], fun n hn c k hk => ?_,
    fun x y away => (homes x y).trans (h.homes x y away), others⟩
  obtain ⟨g, hg, rows⟩ := h.home
  rw [touched, List.mem_append, not_or] at hn
  have unread : n ∉ lastNames (usesOf a.l.record i) := fun hm => hn.2 (List.mem_map_of_mem hm)
  rw [State.vLane, homes, hg]
  refine (lane_of_rows rows n c k).trans ?_
  rw [List.foldl_cons, List.foldl_nil]
  refine Eq.trans ?_ (lane_afterReads _ _ a.p.pid _ unread c k)
  cases r with
  | v x => rw [lane_afterWrite _ _ _ _ _ _ _ _ hk distinct, if_neg (fun (e : n = x) => hn.1 (e ▸ dst x rfl))]
  | _ => rfl

end

/-! GREAD (R190, R197). -/

/-- Where no operation is open, an entry is read as the galley holds it (R190). -/
theorem oneOf_entryValues {s : State} (still : s.openOps = []) (n fid t k : Nat) : s.oneOf n 0 (s.entryValues fid t k) = tileGet (s.galley fid) k := by
  unfold State.entryValues
  rw [still, List.filter_nil]
  simp [State.traceAll, State.traceFrom, State.oneOf]

/-- What GREAD's component finds in the entries that its lanes name. -/
def State.foundEntries (s : State) (a : Agent) (o : V2) (j : Nat) : Row :=
  rowOf fun l => if a.p.active.getLsbD l then
    tileGet a.f.galley (tileKey ((o.sub.extractLsb' 0 3).toNat + j) (entryOf (s.op32 a o.a 0 l)).1 (entryOf (s.op32 a o.a 0 l)).2) else 0

/-- Without operations and poison, GREAD allocates its rows and leaves the entries as a late result. -/
theorem gread_runs {s : State} {a : Agent} {o : V2} (passes : Passes s a (.gread o) true) (good : a.tileBad (o.sub.extractLsb' 0 3).toNat (a.tans (.gread o)) = none)
    (untouched : s.tileTouched a (o.sub.extractLsb' 0 3).toNat (a.tans (.gread o)) = none) (still : s.openOps = []) (sound : a.f.gpoison = [])
    (fits : a.overcommits (usesOf a.l.record (.gread o)) (s.allocRows a o.d 1 (a.tans (.gread o))) = false) :
    let v := (s.allocRows a o.d 1 (a.tans (.gread o))).foldl (fun s w => s.write a.p.pid 1 (a.word (.gread o)) w) (s.lastReads a.p (usesOf a.l.record (.gread o)))
    exec (.gread o) s = .next (((v.addLong a (.gread o) ((upFrom 0 (a.tans (.gread o) + 1)).map
      (fun j => Dest.lanes (regV o.d) j a.p.active (s.foundEntries a o j)) ++ s.lostShadows a o.d 1 (a.tans (.gread o))) []).advance a (.gread o)).counted a (.gread o)) := by
  have galley : s.galley a.p.fid = a.f.galley := by rw [State.galley, (agent_facts passes.agent).forme]; rfl
  refine (exec_gread (o := o) s).trans (word_other passes ((onTile_good good).trans ?_))
  simp only [untouched, sound, State.landLate, List.contains_nil, Bool.false_eq_true, if_false, oneOf_entryValues still, galley]
  simp [fits, State.foundEntries, State.op32]

theorem regPlus_zero (r : Reg) : regPlus 0 r = r := by
  cases r <;> simp [regPlus]

theorem gread_lands {s : State} {a : Agent} {o : V2} : let i := Instr.gread o
    let g := (o.sub.extractLsb' 0 3).toNat
    let key := fun (j k : Nat) => tileKey (g + j) (entryOf (s.op32 a o.a 0 k)).1 (entryOf (s.op32 a o.a 0 k)).2
    let nt := a.tans i
    Passes s a i true → a.p.stopped = false → a.tileBad g nt = none → s.tileTouched a g nt = none → s.openOps = [] → a.f.gpoison = [] →
    a.overcommits (usesOf a.l.record i) (s.allocRows a o.d 1 nt) = false →
    ∃ t x, exec i s = .next t ∧ Completes s t a i ∧ KeptByRead s t a i ∧ x ∈ t.longs ∧ x.owners = [a.p.pid] ∧ ∀ j ≤ nt, ∃ m row,
      Dest.lanes (regV o.d) j m row ∈ x.dests ∧ ∀ k < 64, a.p.active.getLsbD k = true → m.getLsbD k = true ∧ rowGet row k = tileGet a.f.galley (key j k) := by
  intro i g key nt passes going good untouched still sound fits
  have hA := agent_facts passes.agent
  have stored := writes_stored (i := i) hA (s.allocRows a o.d 1 nt) 1 (a.word i)
  obtain ⟨completes, strangers, alike, homes, x, mem, owners, dests⟩ := stored.lands hA going
    ((upFrom 0 (nt + 1)).map (fun j => Dest.lanes (regV o.d) j a.p.active (s.foundEntries a o j)) ++ s.lostShadows a o.d 1 nt)
  refine ⟨_, x, gread_runs passes good untouched still sound fits, completes, stored.kept ?_ ?_ alike homes strangers, mem, owners, fun j hj =>
    ⟨a.p.active, s.foundEntries a o j, ?_, fun k hk active => ⟨active, ?_⟩⟩⟩
  · rw [List.map_map]
    exact (List.map_id _).symm ▸ upFrom_nodup 0 (nt + 1)
  · intro n hn
    rw [regPlus_zero] at hn
    show Name.v n ∈ regNames 1 o.d
    simp [hn, regNames, upFrom]
  · rw [dests]
    exact List.mem_append_left _ (List.mem_map_of_mem ((mem_upFrom ..).2 (by omega)))
  · rw [State.foundEntries, rowGet_rowOf _ _ hk, if_pos active]

end Sys2Proof.Machine
end

section
/-! SUPPORT. The entries that GWRITE writes (R191, R197). -/
namespace Sys2Proof.Machine

/-! Runs of writes to a galley. -/

theorem tileSet_wf {g : Tile} (h : storeWf (0 : W32) g = true) (k : Nat) (v : W32) : storeWf (0 : W32) (tileSet g k v) = true := storeSet_wf k v h

theorem tileGet_tileSet {g : Tile} (h : storeWf (0 : W32) g = true) (k e : Nat) (v : W32) : tileGet (tileSet g k v) e = if e = k then v else tileGet g e :=
  storeGet_storeSet k e v h

def Tile.sets (g : Tile) (l : List (Nat × W32)) : Tile := l.foldl (fun g x => tileSet g x.1 x.2) g

/-- An entry that none of the writes names keeps its value. -/
theorem tileGet_sets_ne (l : List (Nat × W32)) {g : Tile} (wf : storeWf (0 : W32) g = true) {e : Nat} (h : ∀ x ∈ l, x.1 ≠ e) :
    tileGet (Tile.sets g l) e = tileGet g e := by
  induction l generalizing g with
  | nil => rfl
  | cons x l ih =>
    rw [Tile.sets, List.foldl_cons]
    refine (ih (tileSet_wf wf ..) fun y hy => h y (List.mem_cons_of_mem _ hy)).trans ?_
    rw [tileGet_tileSet wf, if_neg (h x (List.mem_cons_self ..)).symm]

/-- An entry that is written, and with one value alone, holds that value. -/
theorem tileGet_sets_of_mem (l : List (Nat × W32)) {g : Tile} (wf : storeWf (0 : W32) g = true) {e : Nat} {v : W32} (named : ∃ x ∈ l, x.1 = e)
    (one : ∀ x ∈ l, x.1 = e → x.2 = v) : tileGet (Tile.sets g l) e = v := by
  induction l generalizing g with
  | nil => obtain ⟨x, hx, -⟩ := named; cases hx
  | cons x l ih =>
    rw [Tile.sets, List.foldl_cons]
    have wf' := tileSet_wf wf x.1 x.2
    by_cases later : ∃ y ∈ l, y.1 = e
    · exact ih wf' later fun y hy => one y (List.mem_cons_of_mem _ hy)
    · have here : x.1 = e := by
        obtain ⟨y, hy, hk⟩ := named
        rcases List.mem_cons.1 hy with rfl | hy
        · exact hk
        · exact absurd ⟨y, hy, hk⟩ later
      refine (tileGet_sets_ne l wf' fun y hy hk => later ⟨y, hy, hk⟩).trans ?_
      rw [tileGet_tileSet wf, if_pos here.symm, one x (List.mem_cons_self ..) here]

/-! Runs of GWRITE's entries (R186, R190). -/

def State.pokes (s : State) (fid : Nat) (l : List (Nat × W32)) : State := l.foldl (fun s x => s.pokeEntry fid x.1 x.2) s

theorem pokes_parties (l : List (Nat × W32)) (s : State) (fid : Nat) : (s.pokes fid l).parties = s.parties ∧ (s.pokes fid l).mem = s.mem := by
  induction l generalizing s with
  | nil => exact ⟨rfl, rfl⟩
  | cons x l ih => exact ih (s.pokeEntry fid x.1 x.2)

/-- Of its forme, a run of pokes changes the galley and what of it is poisoned. -/
theorem pokes_forme (l : List (Nat × W32)) {s : State} {fid : Nat} {f : Forme} (hf : s.forme? fid = some f) :
    ∃ g, (s.pokes fid l).forme? fid = some g ∧ g.galley = Tile.sets f.galley l ∧ g.scratch = f.scratch ∧ g.flags = f.flags := by
  induction l generalizing s f with
  | nil => exact ⟨f, hf, rfl, rfl, rfl⟩
  | cons x l ih =>
    have poked : (s.pokeEntry fid x.1 x.2).forme? fid = some { f with galley := tileSet f.galley x.1 x.2, gpoison := f.gpoison.filter (· ≠ x.1) } :=
      (forme?_onForme _ fid (fun f => { f with galley := tileSet f.galley x.1 x.2, gpoison := f.gpoison.filter (· ≠ x.1) }) fun _ => rfl).trans
        (by exact congrArg (Option.map _) hf)
    exact ih poked

/-! Which lane's value an entry takes. -/

theorem oneOf_mem {α : Type} (s : State) (n : Nat) (d : α) (l : List α) : s.oneOf n d l = d ∨ s.oneOf n d l ∈ l := by
  unfold State.oneOf
  split
  · exact .inl rfl
  · exact .inr (List.mem_singleton.2 rfl)
  · rw [List.getD_eq_getElem?_getD]
    cases h : l[Config.freeNat s.freeCtr n % l.length]? with
    | none => exact .inl rfl
    | some x => exact .inr (List.mem_of_getElem? h)

/-- Lanes, of those that name one entry, whose value it takes (R191). -/
def State.winners (s : State) (a : Agent) (o : V2) : List Nat :=
  let name := fun l => entryOf (s.op32 a o.a 0 l)
  (maskLanes a.p.active).filter fun l =>
    let same := (maskLanes a.p.active).filter fun m => name m = name l
    s.oneOf (1600000 + same.headD 0) l same = l

theorem mem_winners {s : State} {a : Agent} {o : V2} {k : Nat} (h : k ∈ s.winners a o) : k < 64 ∧ a.p.active.getLsbD k = true := by
  have active := (List.mem_filter.1 h).1
  rw [mem_maskLanes, Bool.and_eq_true, decide_eq_true_eq] at active
  exact active

/-- A lane whose entry no other lane names is taken. -/
theorem winners_of_unique {s : State} {a : Agent} {o : V2} {k : Nat} (hk : k < 64) (active : a.p.active.getLsbD k = true)
    (unique : ∀ m < 64, a.p.active.getLsbD m = true → entryOf (s.op32 a o.a 0 m) = entryOf (s.op32 a o.a 0 k) → m = k) : k ∈ s.winners a o := by
  refine List.mem_filter.2 ⟨(mem_maskLanes ..).2 (by simp [hk, active]), decide_eq_true ?_⟩
  rcases oneOf_mem s _ k _ with e | e
  · exact e
  · obtain ⟨hm, named⟩ := List.mem_filter.1 e
    rw [mem_maskLanes, Bool.and_eq_true, decide_eq_true_eq] at hm
    exact unique _ hm.1 hm.2 (of_decide_eq_true named)

theorem entryOf_bounds (w : W32) : (entryOf w).1 < 128 ∧ (entryOf w).2 < 256 := ⟨(w.extractLsb' 0 7).isLt, (w.extractLsb' 7 8).isLt⟩

/-- A key gives back its tile and its entry. -/
theorem tileKey_inj {t u : Nat} {x y : W32} (h : tileKey t (entryOf x).1 (entryOf x).2 = tileKey u (entryOf y).1 (entryOf y).2) : t = u ∧ entryOf x = entryOf y := by
  have hx := entryOf_bounds x
  have hy := entryOf_bounds y
  unfold tileKey at h
  exact ⟨by omega, Prod.ext (by omega) (by omega)⟩

/-- The entries that GWRITE writes, with their values. -/
def State.written (s : State) (a : Agent) (o : V2) (nt : Nat) : List (Nat × W32) :=
  (upFrom 0 (nt + 1)).flatMap fun j => (s.winners a o).map fun l =>
    (tileKey ((o.sub.extractLsb' 0 3).toNat + j) (entryOf (s.op32 a o.a 0 l)).1 (entryOf (s.op32 a o.a 0 l)).2, rowGet (s.srcT a o.b 1 0 j) l)

theorem mem_written {s : State} {a : Agent} {o : V2} {nt : Nat} {x : Nat × W32} : x ∈ s.written a o nt ↔ ∃ j ≤ nt, ∃ l ∈ s.winners a o,
    x = (tileKey ((o.sub.extractLsb' 0 3).toNat + j) (entryOf (s.op32 a o.a 0 l)).1 (entryOf (s.op32 a o.a 0 l)).2, rowGet (s.srcT a o.b 1 0 j) l) := by
  simp only [State.written, List.mem_flatMap, List.mem_map, mem_upFrom]
  constructor
  · rintro ⟨j, hj, l, hl, rfl⟩; exact ⟨j, by omega, l, hl, rfl⟩
  · rintro ⟨j, hj, l, hl, rfl⟩; exact ⟨j, by omega, l, hl, rfl⟩

theorem gwrite_runs {s : State} {a : Agent} {o : V2} (passes : Passes s a (.gwrite o) true) (good : a.tileBad (o.sub.extractLsb' 0 3).toNat (a.tans (.gwrite o)) = none)
    (untouched : s.tileTouched a (o.sub.extractLsb' 0 3).toNat (a.tans (.gwrite o)) = none) :
    exec (.gwrite o) s = .next (((((s.pokes a.p.fid (s.written a o (a.tans (.gwrite o)))).lastReads a.p (usesOf a.l.record (.gwrite o))).advance a (.gwrite o))).counted a (.gwrite o)) := by
  refine (exec_gwrite (o := o) s).trans (word_done passes ((onTile_good good).trans ?_))
  simp only [untouched, State.pokes, State.written, List.foldl_flatMap, List.foldl_map]
  rfl

theorem gwrite_writes {s : State} {a : Agent} {o : V2} : let i := Instr.gwrite o
    let g := (o.sub.extractLsb' 0 3).toNat
    let named := fun k => entryOf (s.op32 a o.a 0 k)
    let key := fun (j k : Nat) => tileKey (g + j) (named k).1 (named k).2
    let nt := a.tans i
    Passes s a i true → a.p.stopped = false → a.tileBad g nt = none → s.tileTouched a g nt = none → s.Canonical →
    ∃ t f, exec i s = .next t ∧ Completes s t a i ∧ s.strangersKept t a ∧ t.mem = s.mem ∧ t.forme? a.p.fid = some f ∧ f.scratch = a.f.scratch ∧ f.flags = a.f.flags ∧
      (∀ k < 64, a.p.active.getLsbD k = true → (∀ m < 64, a.p.active.getLsbD m = true → named m = named k → m = k) →
        ∀ j ≤ nt, tileGet f.galley (key j k) = rowGet (s.srcT a o.b 1 0 j) k) ∧
      (∀ e, (∀ k < 64, a.p.active.getLsbD k = true → ∀ j ≤ nt, e ≠ key j k) → tileGet f.galley e = tileGet a.f.galley e) := by
  intro i g named key nt passes going good untouched canonical
  have hA := agent_facts passes.agent
  have wf : storeWf (0 : W32) a.f.galley = true := (canonical.2 a.f (List.mem_of_find?_eq_some hA.forme)).2
  obtain ⟨parties, mem⟩ := pokes_parties (s.written a o nt) s a.p.fid
  obtain ⟨f, hf, galley, scratch, flags⟩ := pokes_forme (s.written a o nt) hA.forme
  have read : ∀ k, ((s.pokes a.p.fid (s.written a o nt)).lastReads a.p (usesOf a.l.record i)).party? k = s.party? k := fun k => by
    rw [lastReads_party, State.party?, parties, ← State.party?]
  have adv := advance_counted (i := i) ((read a.p.pid).trans hA.party) hA.pitch going
  have alike := (alike_lastReads (s.pokes a.p.fid (s.written a o nt)) a.p (usesOf a.l.record i)).trans adv.alike
  refine ⟨_, f, gwrite_runs passes good untouched, adv.completes rfl rfl rfl (.refl _) ⟨rfl, rfl⟩, adv.strangersKept hA fun k _ => read k, alike.mem.trans mem,
    (alike.forme _).trans hf, scratch, flags, fun k hk active unique j hj => ?_, fun e away => ?_⟩
  · rw [galley]
    refine tileGet_sets_of_mem _ wf ⟨_, mem_written.2 ⟨j, hj, k, winners_of_unique hk active unique, rfl⟩, rfl⟩ fun x hx e => ?_
    obtain ⟨j', -, l, hl, rfl⟩ := mem_written.1 hx
    obtain ⟨hl, on⟩ := mem_winners hl
    obtain ⟨tile, entry⟩ := tileKey_inj e
    obtain rfl : j' = j := by omega
    obtain rfl := unique l hl on entry
    rfl
  · rw [galley]
    refine tileGet_sets_ne _ wf fun x hx e' => ?_
    obtain ⟨j, hj, l, hl, rfl⟩ := mem_written.1 hx
    obtain ⟨hl, on⟩ := mem_winners hl
    exact away l hl on j hj e'.symm

/-- OREADY marks the point from which operations may be recomputed, and nothing else. -/
theorem oready_marks {s : State} {a : Agent} {u : UF} : let i := Instr.oready u
    Passes s a i false → a.p.stopped = false → ∃ t q, exec i s = .next t ∧ Completes s t a i ∧ s.othersKept t a ∧ Spared s t ∧ t.party? a.p.pid = some q ∧ q.opReady = s.freeCtr := by
  intro i passes going
  have hA := agent_facts passes.agent
  have run := (exec_oready (o := u) s).trans (word_done passes rfl)
  rw [lastReads_none rfl] at run
  have ready : (a.onParty s fun p => { p with opReady := s.freeCtr }).party? a.p.pid = some { a.p with opReady := s.freeCtr } :=
    (party?_onParty s _ (fun p => { p with opReady := s.freeCtr }) fun _ => rfl).trans (congrArg (Option.map _) hA.party)
  have adv := advance_counted (i := i) ready hA.pitch going
  refine ⟨_, _, run, adv.completes rfl rfl rfl ⟨⟨rfl, rfl, rfl, rfl⟩, ⟨rfl, rfl⟩, rfl, ⟨rfl, rfl, rfl, rfl, rfl⟩, rfl⟩ ⟨rfl, rfl⟩,
    fun k hk => (adv.others k hk).trans (party?_onParty_ne s _ _ (fun p => { p with opReady := s.freeCtr }) (fun _ => rfl) hk), ?_, adv.self, ?_⟩
  · obtain ⟨mem, bulk, poison, scratch, galley, flags, rows, rest⟩ := adv.spared
    exact ⟨mem, bulk, poison, scratch, galley, flags, rows, rest⟩
  · unfold Party.past
    dsimp only
    split <;> rfl

/-- Settles O25: a read allocates its rows and leaves its values as a late result, a write is a run of single entries, and OREADY marks its party. -/
theorem galleyWords : Obligations.GalleyWords := by
  unfold Obligations.GalleyWords
  intro s a o u g named key
  refine ⟨gread_lands, gwrite_writes, fun i t either passes good touched => ?_, oready_marks⟩
  rcases either with rfl | rfl
  · refine word_traps (exec_gread (o := o) s) passes ((onTile_good good).trans ?_)
    dsimp only
    rw [show s.tileTouched a (o.sub.extractLsb' 0 3).toNat (a.tans (.gread o)) = some t from touched]
  · refine word_traps (exec_gwrite (o := o) s) passes ((onTile_good good).trans ?_)
    dsimp only
    rw [show s.tileTouched a (o.sub.extractLsb' 0 3).toNat (a.tans (.gwrite o)) = some t from touched]

end Sys2Proof.Machine
end

section
/-! Why O26 fails as it stands: its states may hold two parties of one number. -/
namespace Sys2Proof.Tests
open Sys2Proof.Machine

/-- A party of another forme that waits for its own batch 0, and after it one of the issuing home party, which waits for nothing: both have the number 2. -/
def namesakes (s : State) : State :=
  { s with parties := s.parties ++ (s.party? 1).toList.flatMap fun p => [{ p with pid := 2, fid := 2, wait := .batch (some 0) 0 }, { p with pid := 2 }] }

/-- WAITB 1 while an operation of batch 1 is queued, beside two parties of one number. -/
def doubled : State := namesakes (batched (wb 0 0) false)

/-- The stranger waits before the word, and the word lets it go: it looks a sibling up by a number that the stranger has too. -/
theorem doubled_released : (doubled.party? 2).map (fun p => (p.fid, p.wait)) = some (2, .batch (some 0) 0) ∧
    ((happened (wb 0 0) doubled).party? 2).map Party.wait = some .none := by decide +kernel

/-- The state meets what O26 asks of it. -/
theorem doubled_meets : ∃ a, Passes doubled a (wb 0 0) false ∧ a.ends (wb 0 0) ∧ (∀ q ∈ doubled.others a.p, q.wait = .none) ∧ a.p.fid = 1 ∧ a.p.hp = 0 ∧
    min (doubled.sVal a 3 0).toNat a.h.bn.toNat = 1 ∧ doubled.batchDone 1 0 (some 1) 0 = false := by
  obtain ⟨a, ⟨passes, -⟩, more⟩ := meets_agent (s := doubled) (i := wb 0 0) (b := false) (more := fun a =>
    decide (a.p.stopped = false ∧ a.c.idx + wordsTaken (wb 0 0) = a.c.words.length) && decide (∀ q ∈ doubled.others a.p, q.wait = .none) &&
      decide (a.p.fid = 1 ∧ a.p.hp = 0 ∧ min (doubled.sVal a 3 0).toNat a.h.bn.toNat = 1 ∧ doubled.batchDone 1 0 (some 1) 0 = false)) (by decide +kernel)
  simp only [Bool.and_eq_true, decide_eq_true_eq] at more
  obtain ⟨⟨ends, others⟩, fid, hp, covers, opened⟩ := more
  exact ⟨a, passes, ends, others, fid, hp, covers, opened⟩

end Sys2Proof.Tests

namespace Sys2Proof.Machine
open Sys2Proof.Tests

/-- Refutes O26: nothing in it keeps two parties from having one number. Where a stranger that waits in WAITB shares its number with a sibling of the issuing
party, a WAITB that waits lets the stranger go, so that a party of another home party is not as before. -/
theorem not_batches : ¬ Obligations.Batches := by
  unfold Obligations.Batches
  intro holds
  obtain ⟨a, passes, ends, others, fid, hp, covers, opened⟩ := doubled_meets
  obtain ⟨-, waits, -⟩ := holds doubled a { fu with ua := 3, idx := 0, imm := 0 }
  obtain ⟨held, -⟩ := waits passes ends (fun q hq u k => by rw [others q hq]; exact Wait.noConfusion)
  obtain ⟨t, ran, -, kept, -⟩ := held (by rw [fid, hp]; exact covers ▸ opened)
  obtain ⟨stands, released⟩ := doubled_released
  cases found : doubled.party? 2 with
  | none => rw [found] at stands; cases stands
  | some x =>
    rw [found, Option.map_some, Option.some.injEq, Prod.mk.injEq] at stands
    obtain ⟨away, waiting⟩ := stands
    obtain ⟨q, later, same⟩ := kept 2 x found (fun h => by rw [fid, away] at h; exact absurd h.1 (by decide))
    have ran : happened (wb 0 0) doubled = t := by unfold happened; rw [show wb 0 0 = .waitb { fu with ua := 3, idx := 0, imm := 0 } from rfl, ran]
    rw [ran, later, Option.map_some, Option.some.injEq] at released
    rw [← same] at waiting
    exact Wait.noConfusion (released.symm.trans waiting)

end Sys2Proof.Machine
end

section
/-! SUPPORT. Writing memory, the caches, the log and the status touches neither operations nor what of a forme the press units use. -/
namespace Sys2Proof.Machine

/-- A forme but for its scratchpad and for whether it has failed. -/
def Forme.dry (f : Forme) : Forme := { f with scratch := [], spoison := [], failedTo := false }

/-- The operations, and the formes but for their scratchpads. -/
def State.bench (s : State) : List Forme × List Op := (s.formes.map Forme.dry, s.ops)

theorem ops_of_bench {s t : State} (h : t.bench = s.bench) : t.ops = s.ops := congrArg Prod.snd h

theorem op?_of_bench {s t : State} (h : t.bench = s.bench) (id : Nat) : t.op? id = s.op? id := by
  rw [State.op?, ops_of_bench h, ← State.op?]

theorem forme?_dry (s : State) (fid : Nat) : (s.forme? fid).map Forme.dry = (s.bench.1).find? fun f => f.fid = fid := by
  rw [State.bench, List.find?_map]
  rfl

theorem forme_of_bench {s t : State} (h : t.bench = s.bench) (fid : Nat) : (t.forme? fid).map Forme.dry = (s.forme? fid).map Forme.dry := by
  rw [forme?_dry, forme?_dry, h]

theorem galley_of_bench {s t : State} (h : t.bench = s.bench) (fid : Nat) : t.galley fid = s.galley fid := by
  have e := congrArg (fun x => (x.map Forme.galley).getD []) (forme_of_bench h fid)
  simp only [Option.map_map] at e
  exact e

theorem onForme_bench (s : State) (fid : Nat) {g : Forme → Forme} (hg : ∀ x, (g x).dry = x.dry) : (s.onForme fid g).bench = s.bench := by
  have same : (modifyWhere (fun x => x.fid = fid) g s.formes).map Forme.dry = s.formes.map Forme.dry := by
    rw [modifyWhere, List.map_map]
    exact List.map_congr_left fun x _ => by simp only [Function.comp]; split; exacts [hg x, rfl]
  exact congrArg (·, s.ops) same

/-! Bytes (R250, R252, R302, R305, R410). -/

theorem writePa_bench (s : State) (a : Nat) (b : Byte) : (s.writePa a b).bench = s.bench := by
  unfold State.writePa; split <;> rfl

theorem writeBytesPa_bench (bs : List Byte) (s : State) (a : Nat) : (s.writeBytesPa a bs).bench = s.bench := by
  induction bs generalizing s a with
  | nil => rfl
  | cons b bs ih => exact (ih _ (a + 1)).trans (writePa_bench s a b)

theorem noteResult_bench (s : State) (a : Nat) (bs : List Byte) : (s.noteResult a bs).bench = s.bench := by
  unfold State.noteResult; split <;> rfl

theorem sendHome_bench (s : State) (a : Nat) (bs : List Byte) : (s.sendHome a bs).bench = s.bench := by
  unfold State.sendHome
  split <;> split <;> rfl

theorem writePaN_bench (s : State) (a : Nat) (bs : List Byte) (w : Writer) : (s.writePaN a bs w).bench = s.bench := by
  have written : ∀ p f, (({ (State.noteResult (s.recall w (memKey a) (s.readPaN a bs.length) bs) a bs).writeBytesPa a bs with poison := p, failing := f } : State).noteMirrored a bs.length).bench = s.bench :=
    fun _ _ => (writeBytesPa_bench bs _ a).trans (noteResult_bench _ a bs)
  unfold State.writePaN
  dsimp only
  split
  · rfl
  · split
    all_goals
      split
      · exact written _ _
      · exact (sendHome_bench ..).trans (written _ _)

theorem locWrite_bench (s : State) (l : Loc) (bs : List Byte) (w : Writer) : (s.locWrite l bs w).bench = s.bench := by
  cases l with
  | pa a => exact writePaN_bench ..
  | spad fid o => exact onForme_bench _ fid fun _ => rfl

theorem correct_bench (s : State) (a n : Nat) : (s.correct a n).bench = s.bench := rfl

theorem renewLine_bench (s : State) (line : Nat) : (s.renewLine line).bench = s.bench := by
  unfold State.renewLine; dsimp only; split <;> rfl

theorem bringIn_bench (s : State) (pa : Nat) : (s.bringIn pa).bench = s.bench := by
  unfold State.bringIn; dsimp only; split; rfl; split <;> rfl

theorem evictBulk_bench (s : State) (line : Nat) : (s.evictBulk line).bench = s.bench := by
  unfold State.evictBulk
  split
  · rfl
  · split
    · rfl
    · exact (foldl_keeps State.bench (fun s k => by split; exacts [writePa_bench .., rfl]) _ _).trans rfl

theorem touchBulk_bench (s : State) (pa : Nat) (owner : Option Nat) : (s.touchBulk pa owner).bench = s.bench := by
  have filled : ∀ r : State, (if (r.bulkLine pa).isSome then r else
      { r with bulk := ⟨0, lineOf pa, r.lineAnew (lineOf pa), 0, owner⟩ :: r.bulk, poison := r.poisonAnew (lineOf pa) }).bench = r.bench := fun r => by
    split <;> rfl
  unfold State.touchBulk
  split
  · rfl
  · refine (filled _).trans ?_
    split
    · exact evictBulk_bench ..
    · rfl

theorem touchShared_bench (s : State) (pa : Nat) (write : Bool) : (s.touchShared pa write).bench = s.bench := by
  have foreign : (if s.shared.contains (lineOf pa) && !Config.freeBit s.freeCtr (1150000 + lineOf pa) then s
      else { s.renewLine (lineOf pa) with shared := lineOf pa :: s.shared.filter (· ≠ lineOf pa) }).bench = s.bench := by
    split
    · rfl
    · exact renewLine_bench ..
  have sent : ∀ l : List (BitVec 12), (l.foldl (fun (s : State) h => s.send (.snoop h (lineOf pa) write)) s).bench = s.bench := fun l =>
    foldl_keeps State.bench (f := fun (s : State) h => s.send (.snoop h (lineOf pa) write)) (fun _ _ => rfl) l s
  unfold State.touchShared
  dsimp only
  split
  · rfl
  · cases s.extentOf pa with
    | none => exact foreign
    | some e =>
      dsimp only
      split
      · rfl
      · split
        · exact foreign
        · split
          · rfl
          · split
            · rfl
            · split
              · exact (renewLine_bench ..).trans (sent _)
              · exact sent _

theorem touchLine_bench (s : State) (pa : Nat) (owner : Option Nat) (write : Bool) : (s.touchLine pa owner write).bench = s.bench :=
  (touchShared_bench ..).trans ((touchBulk_bench ..).trans (bringIn_bench ..))

theorem touchRuns_bench (s : State) (l : List (Nat × Nat)) (owner : Option Nat) (write : Bool) : (s.touchRuns l owner write).bench = s.bench :=
  foldl_keeps _ (fun s a => touchLine_bench s a owner write) _ s

/-! What an operation reaches, declares and writes (R173, R242, R285). -/

theorem opReach_bench (s : State) (o : Op) : (s.opReach o).bench = s.bench := by
  unfold State.opReach
  split
  · rfl
  · exact (touchRuns_bench ..).trans (touchRuns_bench ..)

theorem opCorrect_bench (s : State) (o : Op) : (s.opCorrect o).bench = s.bench := by
  unfold State.opCorrect
  split
  · rfl
  · rfl
  · exact foldl_keeps _ (fun _ _ => correct_bench ..) _ s

theorem cacheAccess_bench (s : State) (cache : Nat) (d : Decl) (a : Nat) : (s.cacheAccess cache d a).bench = s.bench := by
  unfold State.cacheAccess
  dsimp only
  split
  · unfold State.bench
    dsimp only [State.bump, State.recordIf, State.traffic]
  · cases s.gives cache (lineOf a) <;> (unfold State.bench; dsimp only [State.bump, State.recordIf, State.traffic, State.wroteBack])

theorem declareOp_bench (s : State) (o : Op) : (s.declareOp o).bench = s.bench := by
  unfold State.declareOp
  split
  · exact foldl_keeps _ (fun _ _ => cacheAccess_bench ..) _ s
  · rfl

theorem wroteAt_bench (s : State) (o : Op) (l : Loc) (n : Nat) : (s.wroteAt o l n).bench = s.bench := by
  have dropped : ∀ (s : State) (die x : Nat), (s.dropCopies die x).bench = s.bench := fun _ _ _ => rfl
  unfold State.wroteAt
  cases l with
  | spad fid a => rfl
  | pa a => exact foldl_keeps State.bench (fun s x => dropped s _ x) _ s

theorem opWrite_bench (s : State) (o : Op) (sc : Scene) (loose : Nat → Bool) (va : Nat) (bs : List Byte) : (s.opWrite o sc loose va bs).bench = s.bench :=
  foldl_keeps State.bench (fun s p => by
    split
    · exact (locWrite_bench ..).trans (wroteAt_bench ..)
    · rfl) _ s

theorem cleanSector_bench (s : State) (l : Loc) : (s.cleanSector l).bench = s.bench := by
  cases l with
  | pa a => rfl
  | spad fid o => exact onForme_bench _ fid fun _ => rfl

theorem scatter_bench (s : State) (o : Op) (sc : Scene) (reads : List (Nat × Nat)) (bs : List (Nat × Byte)) : (s.scatter o sc reads bs).bench = s.bench :=
  (foldl_keeps State.bench (fun s a => by
    split
    · split
      · exact cleanSector_bench ..
      · rfl
    · rfl) _ _).trans (foldl_keeps State.bench (fun s b => opWrite_bench ..) bs s)

theorem doSheet_bench (s : State) (o : Op) (sc : Scene) (src dst : List Sheet) : (s.doSheet o sc src dst).bench = s.bench :=
  (foldl_keeps State.bench (fun _ _ => opWrite_bench ..) dst _).trans (scatter_bench ..)

theorem doCpyx_bench (s : State) (o : Op) (sc : Scene) (src dst rows rb sp dp xs xp : Nat) (hdr : Option Sheet) :
    (s.doCpyx o sc src dst rows rb sp dp xs xp hdr).bench = s.bench := by
  unfold State.doCpyx
  cases hdr with
  | none => exact foldl_keeps State.bench (fun _ _ => opWrite_bench ..) _ s
  | some h => exact (opWrite_bench ..).trans (scatter_bench ..)

theorem doScrub_bench (s : State) (o : Op) (sc : Scene) (dst len rpt : Nat) (zero : Bool) : (s.doScrub o sc dst len rpt zero).bench = s.bench := by
  have cleared : (if zero then s.opWrite o sc (fun _ => false) dst (List.replicate len 0)
      else (s.physical sc dst len).foldl (fun s p => s.correct p.1 p.2) s).bench = s.bench := by
    split
    · exact opWrite_bench ..
    · exact foldl_keeps State.bench (fun _ _ => correct_bench ..) _ s
  unfold State.doScrub
  dsimp only
  split
  · exact cleared
  · exact (opWrite_bench ..).trans cleared

theorem doSeal_bench (s : State) (o : Op) (sc : Scene) (pkt : Nat) (handle : W64) (read : List Byte) : (s.doSeal o sc pkt handle read).bench = s.bench := by
  unfold State.doSeal
  split
  · rfl
  · exact (opWrite_bench ..).trans (opWrite_bench ..)

theorem storeRect_bench (s : State) (o : Op) (sc : Scene) (r : Rect) (t : Tile) : (s.storeRect o sc r t).1.bench = s.bench :=
  foldl_keeps State.bench (fun s _ => foldl_keeps State.bench (fun _ _ => opWrite_bench ..) _ s) _ s

theorem doCpyrot_bench (s : State) (o : Op) (sc : Scene) (src dst ftab rows sp dp dim f mode : Nat) (delta : W32) :
    (s.doCpyrot o sc src dst ftab rows sp dp dim f mode delta).1.bench = s.bench :=
  foldl_keeps State.bench (fun _ _ => opWrite_bench ..) _ s

end Sys2Proof.Machine
end

section
/-! SUPPORT. What ends with a forme: its records, its launch and its launch's graph leave operations and formes as they are (R29, R198, R339, R398). -/
namespace Sys2Proof.Machine

/-! The log and the device's status writes (R339, R398). -/

theorem putPa_bench (s : State) (a : Nat) (bs : List Byte) : (s.putPa a bs).bench = s.bench := writePaN_bench _ a bs .other

theorem askAll_bench (s : State) (sp : Space) (gs : List Granule) : (s.askAll sp gs).bench = s.bench := by
  cases sp with
  | ctx c => exact foldl_keeps State.bench (fun s x => by split <;> rfl) gs s
  | task l => rfl

theorem logPut_bench (s : State) (c a : Nat) (bs : List Byte) (n : Nat) : (s.logPut c a bs n).bench = s.bench := by
  unfold State.logPut
  split
  · rfl
  · split
    · exact putPa_bench ..
    · rfl
    · exact (askAll_bench s (.ctx c) _).trans rfl

theorem logAt_bench (s : State) (c ridx : Nat) (r : LogRec) : (s.logAt c ridx r).1.bench = s.bench := by
  have counted : ∀ (t : State) (f : Ctx → Ctx), (t.onCtx c f).bench = t.bench := fun _ _ => rfl
  unfold State.logAt
  dsimp only
  split
  · exact (logPut_bench ..).trans (counted ..)
  · have sent : ∀ (p : Prop) [Decidable p] (t : State), (if p then t.send (.interrupt c 1) else t).bench = t.bench := fun p _ t => by split <;> rfl
    refine (sent _ _).trans ((logPut_bench ..).trans ((logPut_bench ..).trans ((counted ..).trans ?_)))
    exact (foldl_keeps State.bench (fun _ _ => logPut_bench ..) _ _).trans
      ((logPut_bench ..).trans (foldl_keeps State.bench (fun _ _ => logPut_bench ..) _ s))

theorem logPlaced_bench (s : State) (c : Nat) (ridx : Option Nat) (r : LogRec) : (s.logPlaced c ridx r).1.bench = s.bench := by
  cases ridx with
  | none => rfl
  | some n => exact logAt_bench ..

theorem logWrite_bench (s : State) (c : Nat) (r : LogRec) : (s.logWrite c r).bench = s.bench := by
  unfold State.logWrite
  dsimp only
  split
  · split
    · exact logPlaced_bench ..
    · exact (askAll_bench s (.ctx (s.logCtx c)) _).trans rfl
  · split <;> rfl

theorem dropWrite_bench (s : State) (w : StatusWrite) (c : TrapCode) : (s.dropWrite w c).bench = s.bench := logWrite_bench ..

theorem joinSignal_bench (s : State) (c pa n : Nat) (atomic : Bool) : (s.joinSignal c pa n atomic).bench = s.bench := by
  unfold State.joinSignal; split <;> rfl

/-- Bytes written, and the write's place in the order of accesses. -/
theorem putPa_join_bench (s : State) (p : Prop) [Decidable p] (a : Nat) (bs : List Byte) (c pa n : Nat) (atomic : Bool) :
    (if p then s.putPa a bs else (s.putPa a bs).joinSignal c pa n atomic).bench = s.bench := by
  split
  · exact putPa_bench ..
  · exact (joinSignal_bench ..).trans (putPa_bench ..)

theorem statusAt_bench (s : State) (w : StatusWrite) (pa : Nat) : (s.statusAt w pa).bench = s.bench := by
  have touched := touchLine_bench s pa none true
  unfold State.statusAt
  generalize s.touchLine pa none true = r at touched ⊢
  rw [← touched]
  cases w.what with
  | bytes bs => exact putPa_join_bench ..
  | add v =>
    dsimp only
    split
    · exact dropWrite_bench ..
    · exact putPa_join_bench ..
  | max v =>
    dsimp only
    split
    · exact dropWrite_bench ..
    · exact putPa_join_bench ..
  | record l => exact logPlaced_bench ..

theorem statusTry_bench (s : State) (w : StatusWrite) : (s.statusTry w).1.bench = s.bench := by
  have dropped : ∀ c, (match w.what with
      | .record r => s.loseLog w.ctx (r.entries.length + 1)
      | _ => if w.group = logGroup then s.loseLog w.ctx w.packet else s.dropWrite w c).bench = s.bench := fun c => by
    split
    · rfl
    · split
      · rfl
      · exact dropWrite_bench ..
  unfold State.statusTry
  dsimp only
  split
  · split
    · exact dropped _
    · exact statusAt_bench ..
  · exact dropped _
  · exact askAll_bench ..

theorem statusPut_bench (s : State) (w : StatusWrite) : (s.statusPut w).bench = s.bench := by
  have tried := statusTry_bench s w
  unfold State.statusPut
  split
  · rfl
  · split <;> rename_i h <;> rw [h] at tried <;> exact tried

theorem blockPut_bench (s : State) (c : Nat) (b : Block) (off : Nat) (k : StatusKind) (pk : Nat) : (blockPut s c b off k pk).bench = s.bench := by
  unfold blockPut
  split
  · rfl
  · exact statusPut_bench ..

theorem blockStatus_bench (s : State) (c : Nat) (b : Block) (pk : Nat) : (blockStatus s c b pk).bench = s.bench :=
  (blockPut_bench ..).trans (blockPut_bench ..)

/-! Packets, graphs and launches come to their ends (R30, R332). -/

theorem queueIndex_bench (s : State) (c k : Nat) : (s.queueIndex c k).bench = s.bench := by
  unfold State.queueIndex
  split
  · rfl
  · split
    · rfl
    · exact (statusPut_bench ..).trans rfl

theorem retireOf_bench (s : State) (c : Nat) (q p : Option Nat) : (s.retireOf c q p).bench = s.bench := by
  unfold State.retireOf
  split
  · unfold State.retire
    split
    · rfl
    · split
      · exact (queueIndex_bench ..).trans ((statusPut_bench ..).trans rfl)
      · rfl
  · rfl

theorem graphCheck_bench (s : State) (gid : Nat) : (s.graphCheck gid).bench = s.bench := by
  unfold State.graphCheck
  split
  · rfl
  · rename_i g _
    have add : ∀ (s : State) (off now old pk : Nat), (if now = old then s else blockPut s g.ctx g.block off (.add (BitVec.ofNat 64 (now - old))) pk).bench = s.bench :=
      fun s off now old pk => by
        split
        · rfl
        · exact blockPut_bench ..
    have marked : ∀ (t : State) (f : Graph → Graph), (t.onGraph gid f).bench = t.bench := fun _ _ => rfl
    dsimp only
    split
    · exact (retireOf_bench ..).trans ((blockStatus_bench ..).trans ((marked ..).trans ((add ..).trans ((add ..).trans (add ..)))))
    · exact (marked ..).trans ((add ..).trans ((add ..).trans (add ..)))

/-- The node of a launch, where it has one. -/
theorem nodeOf_bench (s : State) (g : Option Nat) (lid status : Nat) (cancelled : Bool) :
    (match g with | some g => s.nodeEnded g lid status cancelled | none => s).bench = s.bench := by
  cases g with
  | none => rfl
  | some g => exact (graphCheck_bench _ g).trans rfl

theorem taskEnded_bench (s : State) (l : Launch) (status : Nat) : (s.taskEnded l status).bench = s.bench := by
  unfold State.taskEnded
  split <;> rfl

theorem launchCheck_bench (s : State) (lid : Nat) : (s.launchCheck lid).bench = s.bench := by
  have marked : ∀ (t : State) (l : Nat) (f : Launch → Launch), (t.onLaunch l f).bench = t.bench := fun _ _ _ => rfl
  unfold State.launchCheck
  split
  · rfl
  · rename_i l _
    dsimp only
    generalize (if l.failed then 3 else if l.cancel then 2 else 1) = st
    split
    · refine (foldl_keeps State.bench (fun s t => ?tail) _ _).trans
        ((nodeOf_bench ..).trans ((retireOf_bench ..).trans ((taskEnded_bench ..).trans ((blockStatus_bench ..).trans (marked ..)))))
      split
      · exact marked ..
      · exact (nodeOf_bench ..).trans ((blockStatus_bench ..).trans ((blockPut_bench ..).trans (marked ..)))
    · rfl

theorem launchCount_bench (s : State) (lid which n : Nat) : (s.launchCount lid which n).bench = s.bench := by
  unfold State.launchCount
  split
  · exact launchCheck_bench ..
  · split
    · rfl
    · exact (launchCheck_bench _ lid).trans ((blockPut_bench ..).trans rfl)

/-! What a forme's lanes alone hold, and its items (R29, R401). -/

theorem dropFormePrivate_bench (s : State) (f : Forme) : (s.dropFormePrivate f).bench = s.bench := by
  unfold State.dropFormePrivate
  split
  · rfl
  · refine foldl_keeps State.bench (fun s hp => ?_) _ s
    unfold State.dropPrivate
    split
    · rfl
    · exact (foldl_keeps State.bench (fun s k => writePa_bench ..) _ s)

theorem itemRecord_bench (s : State) (fid hp : Nat) (its : List Item) : (s.itemRecord fid hp its).bench = s.bench := by
  unfold State.itemRecord
  split
  · rfl
  · split
    · exact logWrite_bench ..
    · split <;> exact logWrite_bench ..

theorem orphanItems_bench (s : State) (fid hp : Nat) (its : List Item) : (s.orphanItems fid hp its).bench = s.bench := by
  have failed : ((s.itemRecord fid hp its).onForme fid fun f => { f with failedTo := true }).bench = s.bench :=
    (onForme_bench _ fid (g := fun f => { f with failedTo := true }) fun _ => rfl).trans (itemRecord_bench ..)
  unfold State.orphanItems
  split
  · dsimp only
    split
    · exact failed
    · exact failed
  · exact itemRecord_bench ..

end Sys2Proof.Machine
end

section
/-! SUPPORT. Operations of press and platen start (R173, R174, R192, R200, R201). -/
namespace Sys2Proof.Machine

/-! Operations and galleys. -/

theorem op?_onOp (s : State) (id j : Nat) {f : Op → Op} (hf : ∀ x, (f x).id = x.id) : (s.onOp id f).op? j = (s.op? j).map fun x => if x.id = id then f x else x := by
  rw [State.op?, State.onOp_ops, find?_modifyWhere _ _ _ _ (by simp [hf]), ← State.op?]
  simp only [decide_eq_true_eq]

/-- The operation of a number, changed. -/
theorem op?_onOp_same {s : State} {o : Op} (h : s.op? o.id = some o) {f : Op → Op} (hf : ∀ x, (f x).id = x.id) : (s.onOp o.id f).op? o.id = some (f o) := by
  rw [op?_onOp _ _ _ hf, h, Option.map_some, if_pos rfl]

theorem op?_id {s : State} {j : Nat} {x : Op} (h : s.op? j = some x) : x.id = j := of_decide_eq_true (List.find?_some (p := fun o : Op => decide (o.id = j)) h)

/-- The other operations stand. -/
theorem op?_onOp_ne (s : State) {id j : Nat} {f : Op → Op} (hf : ∀ x, (f x).id = x.id) (ne : j ≠ id) : (s.onOp id f).op? j = s.op? j := by
  rw [op?_onOp _ _ _ hf]
  cases h : s.op? j with
  | none => rfl
  | some x => rw [Option.map_some, if_neg (by rw [op?_id h]; exact ne)]

theorem forme?_setGalley (s : State) (fid : Nat) (t : Tile) : (s.setGalley fid t).forme? fid = (s.forme? fid).map fun f => { f with galley := t } :=
  forme?_onForme s fid _ fun _ => rfl

theorem galley_setGalley {s : State} {fid : Nat} {f : Forme} (h : s.forme? fid = some f) (t : Tile) : (s.setGalley fid t).galley fid = t := by
  rw [State.galley, forme?_setGalley, h]
  rfl

theorem galley_of_none {s : State} {fid : Nat} (h : s.forme? fid = none) : s.galley fid = [] := by
  rw [State.galley, h]
  rfl

theorem setGalley_of_none {s : State} {fid : Nat} (h : s.forme? fid = none) (t : Tile) : (s.setGalley fid t).galley fid = [] :=
  galley_of_none (by rw [forme?_setGalley, h]; rfl)

/-- Dropped entries hold +0; the others are as before. -/
theorem tileGet_clearEntries (ks : List Nat) (t : Tile) (k : Nat) : tileGet (clearEntries ks t) k = if k ∈ ks then 0 else tileGet t k := by
  induction t with
  | nil => simp [clearEntries, tileGet, storeGet]
  | cons e t ih =>
    obtain ⟨j, x⟩ := e
    simp only [clearEntries, tileGet, List.filter_cons, storeGet] at ih ⊢
    by_cases dropped : j ∈ ks
    · by_cases here : j = k
      · subst here; simpa [dropped] using ih
      · simpa [dropped, here] using ih
    · by_cases here : j = k
      · subst here; simp [dropped, storeGet]
      · simpa [dropped, here, storeGet] using ih

/-- ZERO clears the entries of its operation, and those alone (R192). -/
theorem opZeroed_entries (u : State) (o : Op) :
    (∀ p, o.work = .product p → p.zero = true → ∀ k ∈ o.entries, tileGet ((u.opZeroed o).galley o.fid) k = 0) ∧
    ∀ k, k ∉ o.entries → tileGet ((u.opZeroed o).galley o.fid) k = tileGet (u.galley o.fid) k := by
  cases hf : u.forme? o.fid with
  | none =>
    have empty : (u.opZeroed o).galley o.fid = [] := by
      unfold State.opZeroed
      split
      · split
        · exact setGalley_of_none hf _
        · exact galley_of_none hf
      · exact galley_of_none hf
    rw [empty, galley_of_none hf]
    exact ⟨fun _ _ _ _ _ => rfl, fun _ _ => rfl⟩
  | some f =>
    constructor
    · intro p work zero k hk
      simp only [State.opZeroed, work, zero, if_true]
      rw [galley_setGalley hf, tileGet_clearEntries, if_pos hk]
    · intro k hk
      unfold State.opZeroed
      split
      · split
        · rw [galley_setGalley hf, tileGet_clearEntries, if_neg hk]
        · rfl
      · rfl

theorem opZeroed_ops (u : State) (o : Op) : (u.opZeroed o).ops = u.ops := by
  unfold State.opZeroed
  split
  · split <;> rfl
  · rfl

/-- An operation that starts runs from its first step, its entries cleared where ZERO asks for it (R173, R192). -/
theorem opBegin_starts {u : State} {o : Op} (found : u.op? o.id = some o) (sound : ((u.opReach o).opCorrect o).opFault o = none) :
    ∃ x, (u.opBegin o).op? o.id = some x ∧ x.phase = .running ∧ x.step = 0 ∧ x.work = o.work ∧
      (∀ p, o.work = .product p → p.zero = true → ∀ k ∈ o.entries, tileGet ((u.opBegin o).galley o.fid) k = 0) ∧
      ∀ k, k ∉ o.entries → tileGet ((u.opBegin o).galley o.fid) k = tileGet (u.galley o.fid) k := by
  have declared : (((u.opReach o).opCorrect o).declareOp o).bench = u.bench := (declareOp_bench ..).trans ((opCorrect_bench ..).trans (opReach_bench ..))
  unfold State.opBegin
  simp only [sound, Option.isSome_none, Bool.false_eq_true, if_false]
  generalize ((u.opReach o).opCorrect o).declareOp o = d at declared ⊢
  generalize List.filter _ _ = snap
  generalize ((u.opReach o).opCorrect o).nextId = at_
  have begun := op?_onOp_same ((op?_of_bench declared o.id).trans found) (f := fun x => { x with phase := .running, step := 0, snap := snap, runAt := at_ }) fun _ => rfl
  have entries := opZeroed_entries (State.bump (d.onOp o.id fun x => { x with phase := .running, step := 0, snap := snap, runAt := at_ })) o
  refine ⟨{ o with phase := .running, step := 0, snap := snap, runAt := at_ }, ?_, rfl, rfl, rfl, entries.1, fun k hk => (entries.2 k hk).trans ?_⟩
  · rw [State.op?] at begun ⊢
    exact (congrArg (List.find? _) (opZeroed_ops _ o)).trans begun
  · exact congrArg (tileGet · k) (galley_of_bench declared o.fid)

end Sys2Proof.Machine
end

section
/-! SUPPORT. Which operation a press pair and a platen take next (R174, R201, R324). -/
namespace Sys2Proof.Machine

/-! Sorting. -/

theorem insertBy_perm {α : Type} (key : α → Nat) (x : α) (l : List α) : (insertBy key x l).Perm (x :: l) := by
  induction l with
  | nil => exact .refl _
  | cons y l ih =>
    rw [insertBy]
    split
    · exact .refl _
    · exact (ih.cons y).trans (.swap x y l)

theorem insertBy_ascending {α : Type} {key : α → Nat} {x : α} {l : List α} (h : l.Pairwise fun a b => key a ≤ key b) :
    (insertBy key x l).Pairwise fun a b => key a ≤ key b := by
  induction l with
  | nil => exact List.pairwise_singleton ..
  | cons y l ih =>
    obtain ⟨least, rest⟩ := List.pairwise_cons.1 h
    rw [insertBy]
    split
    · rename_i before
      refine List.pairwise_cons.2 ⟨fun z hz => ?_, h⟩
      rcases List.mem_cons.1 hz with rfl | hz
      · exact before.le
      · exact before.le.trans (least z hz)
    · rename_i after
      refine List.pairwise_cons.2 ⟨fun z hz => ?_, ih rest⟩
      rcases List.mem_cons.1 ((insertBy_perm ..).mem_iff.1 hz) with rfl | hz
      · omega
      · exact least z hz

theorem sortBy_sorts {α : Type} (key : α → Nat) (l : List α) : (sortBy key l).Perm l ∧ (sortBy key l).Pairwise fun a b => key a ≤ key b := by
  have gen : ∀ (l m : List α), (m.Pairwise fun a b => key a ≤ key b) →
      (l.foldl (fun m x => insertBy key x m) m).Perm (l ++ m) ∧ (l.foldl (fun m x => insertBy key x m) m).Pairwise fun a b => key a ≤ key b := by
    intro l
    induction l with
    | nil => exact fun m h => ⟨.refl m, h⟩
    | cons x l ih =>
      intro m h
      obtain ⟨perm, sorted⟩ := ih _ (insertBy_ascending (x := x) h)
      exact ⟨perm.trans (((insertBy_perm key x m).append_left l).trans List.perm_middle), sorted⟩
  simpa [sortBy] using gen l [] .nil

/-- The first of a sorted list is one of its elements, and none is less. -/
theorem sortBy_head {α : Type} {key : α → Nat} {l : List α} {x : α} (h : (sortBy key l).head? = some x) : x ∈ l ∧ ∀ y ∈ l, key x ≤ key y := by
  obtain ⟨perm, sorted⟩ := sortBy_sorts key l
  obtain ⟨tl, e⟩ : ∃ tl, sortBy key l = x :: tl := by
    cases hs : sortBy key l with
    | nil => rw [hs] at h; cases h
    | cons y tl => rw [hs] at h; exact ⟨tl, by rw [Option.some.inj h]⟩
  rw [e] at perm sorted
  refine ⟨perm.mem_iff.1 (List.mem_cons_self ..), fun y hy => ?_⟩
  rcases List.mem_cons.1 (perm.mem_iff.2 hy) with rfl | hy
  · exact Nat.le_refl _
  · exact List.rel_of_pairwise_cons sorted hy

/-! The press pairs (R174). -/

theorem pressHead_site {s : State} {c : Nat} {o : Op} (h : s.pressHead c = some o) : o.site = c := by
  have mem := List.mem_filter.1 (List.mem_of_mem_head? h)
  simp only [Bool.and_eq_true, decide_eq_true_eq] at mem
  exact mem.2.1.1.2

theorem opReady_free {s : State} {o : Op} (h : s.opReady o = true) : s.opFree o = true := by
  simp only [State.opReady, Bool.and_eq_true] at h
  exact h.1.1

/-- The head that a pair takes: the first that is ready, or the second where the pair's last operation came from the first's core. -/
def State.turnTo (s : State) (o : Op) : List Op → Op
  | r :: _ => if s.pressTurn.contains o.site then r else o
  | [] => o

/-- A press pair that serves and is idle takes the first head, or the second where it took its last operation from the first's core. -/
theorem pressOpStart_takes {s : State} {n : Nat} {o : Op} {rest : List Op} (serves : s.serves (.pressPair n) = true)
    (idle : ∀ x ∈ s.ops, x.onPair = true → x.site / 2 = n → s.opPlaced x = true → x.phase ≠ .running)
    (heads : (([2 * n, 2 * n + 1].filterMap fun c => (s.pressHead c).filter s.opFree).filter s.opReady) = o :: rest) :
    let x := s.turnTo o rest
    exec (.pressOpStart n) s = .next (State.opBegin { s with pressTurn := x.site :: s.pressTurn.filter fun c => c / 2 ≠ n } x) := by
  have still : (s.ops.any fun o => o.onPair && o.phase = .running && o.site / 2 = n && s.opPlaced o) = false := by
    rw [List.any_eq_false]
    intro x hx taken
    simp only [Bool.and_eq_true, decide_eq_true_eq] at taken
    obtain ⟨⟨⟨pair, running⟩, site⟩, placed⟩ := taken
    exact idle x hx pair site placed running
  intro x
  rw [exec_pressOpStart, execPressOpStart]
  simp only [serves, still, Bool.not_true, Bool.or_false, Bool.false_eq_true, if_false]
  rw [heads]
  cases rest <;> rfl

/-! The platens (R201, R324). -/

theorem platenHead_first {s : State} {n : Nat} {o : Op} (h : s.platenHead n = some (.inl o)) :
    o ∈ s.platenOps n ∧ (∀ x ∈ s.platenOps n, s.opParted x = false → max o.seq o.arr ≤ max x.seq x.arr) ∧ ∀ q ∈ s.foldsOn (some n), max o.seq o.arr ≤ q.arr := by
  simp only [State.platenHead, State.stackQueue, List.head?_map, List.head?_take, Nat.reduceEqDiff, if_false, Option.map_eq_some_iff] at h
  obtain ⟨⟨k, y⟩, first, same⟩ := h
  obtain ⟨mem, least⟩ := sortBy_head first
  have own : o ∈ s.platenOps n ∧ k = max o.seq o.arr := by
    rcases List.mem_append.1 mem with ops | folds
    · obtain ⟨x, hx, e⟩ := List.mem_map.1 ops
      cases e
      cases same
      exact ⟨(List.mem_filter.1 hx).1, rfl⟩
    · obtain ⟨q, -, e⟩ := List.mem_map.1 folds
      cases e
      cases same
  obtain ⟨mine, rfl⟩ := own
  refine ⟨mine, fun x hx parted => ?_, fun q hq => ?_⟩
  · exact least (max x.seq x.arr, .inl x) (List.mem_append_left _ (List.mem_map_of_mem (List.mem_filter.2 ⟨hx, by rw [parted]; rfl⟩)))
  · exact least (q.arr, .inr q) (List.mem_append_right _ (List.mem_map_of_mem hq))

/-- A platen that serves and is idle takes the operation at the head of its stack's queue. -/
theorem platenOpStart_takes {s : State} {n : Nat} {o : Op} (serves : s.serves (.platen n) = true) (sited : ∀ x ∈ s.ops, x.unsited = none)
    (folds : s.foldsOn none = []) (idle : ∀ x ∈ s.ops, x.stack = some n → s.opPlaced x = true → x.phase ≠ .running)
    (head : s.platenHead n = some (.inl o)) (ready : s.opReady o = true) : exec (.platenOpStart n) s = .next (s.opBegin o) := by
  have still : (s.ops.any fun o => o.stack = some n && o.phase = .running && s.opPlaced o) = false := by
    rw [List.any_eq_false]
    intro x hx taken
    simp only [Bool.and_eq_true, decide_eq_true_eq] at taken
    obtain ⟨⟨stack, running⟩, placed⟩ := taken
    exact idle x hx stack placed running
  have known : s.ops.find? (fun o => o.unsited = some (n / 4) && o.phase = .queued && s.opPlaced o && Machine.idle o.wait) = none := by
    rw [List.find?_eq_none]
    intro x hx
    simp [sited x hx]
  rw [exec_platenOpStart, execPlatenOpStart]
  simp only [known, folds, serves, still, head, ready, Bool.not_true, Bool.or_false, Bool.false_eq_true, if_false, if_true]

end Sys2Proof.Machine
end

section
/-! SUPPORT. Operations step, end and fail (R175, R188, R198, R199). -/
namespace Sys2Proof.Machine

/-! The flags of the formes. -/

def State.formeFlags (s : State) : List (Nat × BitVec 9) := s.formes.map fun f => (f.fid, f.flags)

theorem formeFlags_of_bench {s t : State} (h : t.bench = s.bench) : t.formeFlags = s.formeFlags := by
  have e := congrArg (fun x : List Forme × List Op => x.1.map fun f => (f.fid, f.flags)) h
  simp only [State.bench, List.map_map] at e
  exact e

theorem flags_of_formeFlags {s t : State} (h : t.formeFlags = s.formeFlags) (fid : Nat) : (t.forme? fid).map Forme.flags = (s.forme? fid).map Forme.flags := by
  have e := congrArg (fun l : List (Nat × BitVec 9) => (l.find? fun x => x.1 = fid).map Prod.snd) h
  simp only [State.formeFlags, List.find?_map, Option.map_map] at e
  exact e

theorem setGalley_formeFlags (s : State) (fid : Nat) (t : Tile) : (s.setGalley fid t).formeFlags = s.formeFlags := by
  show List.map _ (modifyWhere _ _ s.formes) = _
  rw [modifyWhere, List.map_map]
  exact List.map_congr_left fun x _ => by simp only [Function.comp]; split <;> rfl

/-! One step (R173, R175). -/

/-- A step sets its forme's galley, or writes memory. -/
theorem opStep_galley_or_memory (s : State) (o : Op) (k : Nat) : (∃ T, (s.opStep o k).1 = s.setGalley o.fid T) ∨ (s.opStep o k).1.bench = s.bench := by
  unfold State.opStep
  cases s.sceneOf o.fid with
  | none => exact .inr rfl
  | some sc =>
    dsimp only
    split
    · exact .inl ⟨_, rfl⟩
    · exact .inl ⟨_, rfl⟩
    · exact .inl ⟨_, rfl⟩
    all_goals right
    · exact storeRect_bench ..
    · exact doSheet_bench ..
    · exact opWrite_bench ..
    · exact doCpyx_bench s o sc ..
    · generalize rotated : s.doCpyrot o sc _ _ _ _ _ _ _ _ _ _ = r
      exact rotated ▸ doCpyrot_bench ..
    · dsimp only
      exact opWrite_bench s o sc _ _ _
    · exact doScrub_bench s o sc ..
    · exact doSeal_bench s o sc ..
    all_goals rfl

theorem opStep_keeps (s : State) (o : Op) (k : Nat) : (s.opStep o k).1.ops = s.ops ∧ (s.opStep o k).1.formeFlags = s.formeFlags := by
  rcases opStep_galley_or_memory s o k with ⟨T, e⟩ | e
  · rw [e]; exact ⟨rfl, setGalley_formeFlags ..⟩
  · exact ⟨ops_of_bench e, formeFlags_of_bench e⟩

theorem auditPut_eq (s : State) (x : Audit) : ∃ au, (s.auditPut x).2 = { s with audits := au } := by
  unfold State.auditPut
  split
  · exact ⟨_, rfl⟩
  · exact ⟨s.audits, rfl⟩

/-- An audit is all that a captured row adds (R416). -/
theorem auditRow_eq (s b : State) (o : Op) : ∃ au, s.auditRow b o = { s with audits := au } := by
  have same : ∃ au, s = { s with audits := au } := ⟨s.audits, rfl⟩
  unfold State.auditRow
  split
  · split
    · exact same
    · dsimp only
      split
      · exact auditPut_eq ..
      · exact same
  · exact same

/-- The state after a step of an operation, before the operation ends. -/
def State.groupStepped (s : State) (o : Op) : State :=
  let r := (s.opReach o).opStep o o.step
  let t := r.1.onOp o.id fun x => { x with step := o.step + 1, flags := o.flags ||| r.2.1 }
  (match s.sceneOf o.fid, o.work with
    | some sc, .product p => t.count sc.ctx (if p.platen.isSome then 0x04 else 0x03) r.2.2
    | _, _ => t).auditRow s o

/-- A running operation that nothing holds back does its step, and ends after its last. -/
theorem pressGroupStep_runs {s : State} {o : Op} (found : s.op? o.id = some o) (running : o.phase = .running) (press : o.queue = 0) (placed : s.opPlaced o = true)
    (free : s.unitTaken o = false) (going : o.atStop = false) (translated : s.opMissing o.rest = []) (sound : s.opFault o.rest = none) :
    let f := o.flags ||| ((s.opReach o).opStep o o.step).2.1
    exec (.pressGroupStep o.id) s = .next (if o.step + 1 ≥ o.steps then ((s.groupStepped o).opSettle { o with flags := f }).opEnded o f none
      else s.groupStepped o).stir := by
  rw [exec_pressGroupStep, execPressGroupStep]
  simp only [found, running, press, placed, free, going, translated, sound, ne_eq, not_true_eq_false, Bool.not_true, Bool.false_eq_true, or_self, if_false,
    List.isEmpty_nil, Option.isSome_none]
  rfl

/-- Counting and auditing a step touch neither operations nor formes. -/
theorem groupStepped_kept (s : State) (o : Op) : let r := (s.opReach o).opStep o o.step
    let t := r.1.onOp o.id fun x => { x with step := o.step + 1, flags := o.flags ||| r.2.1 }
    (s.groupStepped o).ops = t.ops ∧ (s.groupStepped o).formes = t.formes := by
  unfold State.groupStepped
  dsimp only
  generalize State.onOp _ _ _ = t
  generalize counted : (match s.sceneOf o.fid, o.work with
    | some sc, .product p => t.count sc.ctx (if p.platen.isSome then 0x04 else 0x03) ((s.opReach o).opStep o o.step).2.2
    | _, _ => t) = c
  have same : c.ops = t.ops ∧ c.formes = t.formes := by
    rw [← counted]
    split <;> exact ⟨rfl, rfl⟩
  obtain ⟨au, audited⟩ := auditRow_eq c s o
  rw [audited]
  exact same

/-- The step leaves its operation one step on, with the step's flags, and the galley as the step leaves it. -/
theorem groupStepped_op {s : State} {o : Op} (found : s.op? o.id = some o) : let r := (s.opReach o).opStep o o.step
    (s.groupStepped o).op? o.id = some { o with step := o.step + 1, flags := o.flags ||| r.2.1 } ∧ (s.groupStepped o).galley o.fid = r.1.galley o.fid ∧
      (s.groupStepped o).formeFlags = s.formeFlags := by
  intro r
  obtain ⟨ops, flags⟩ := opStep_keeps (s.opReach o) o o.step
  obtain ⟨ops', formes'⟩ := groupStepped_kept s o
  have reached := opReach_bench s o
  have before : r.1.op? o.id = some o := by
    rw [State.op?, ops, ops_of_bench reached, ← State.op?, found]
  have stepped := op?_onOp_same before (f := fun x => { x with step := o.step + 1, flags := o.flags ||| r.2.1 }) fun _ => rfl
  refine ⟨?_, ?_, ?_⟩
  · rw [State.op?, ops']; exact stepped
  · rw [State.galley, State.forme?, formes']; rfl
  · rw [State.formeFlags, formes']; exact flags.trans (formeFlags_of_bench reached)

/-! The end (R188, R198). -/

theorem foldl_ops_subset {α : Type} {f : State → α → State} (hf : ∀ s x, (f s x).ops ⊆ s.ops) (l : List α) (s : State) : (l.foldl f s).ops ⊆ s.ops := by
  induction l generalizing s with
  | nil => exact List.Subset.refl _
  | cons x l ih => exact List.Subset.trans (ih _) (hf s x)

theorem cover_keeps (s : State) (p : Party) (upto : Option Nat) : (s.cover p upto).formes = s.formes ∧ (s.cover p upto).ops ⊆ s.ops := by
  have joined : ∀ l, (s.joinCovered p l).formes = s.formes := fun l => by
    unfold State.joinCovered State.joinMark
    split
    · rfl
    · split <;> rfl
  exact ⟨joined _, fun x hx => List.mem_of_mem_filter hx⟩

theorem batchCheck_keeps (s : State) (fid hp : Nat) : (s.batchCheck fid hp).formes = s.formes ∧ (s.batchCheck fid hp).ops ⊆ s.ops := by
  have one : ∀ (s : State) (p : Party), let t := (match s.party? p.pid with
      | none => s
      | some q => match q.wait with
        | .batch upto n => if s.batchDone fid hp upto n then s.cover q upto else s
        | _ => s)
      t.formes = s.formes ∧ t.ops ⊆ s.ops := fun s p => by
    intro t
    have same : s.formes = s.formes ∧ s.ops ⊆ s.ops := ⟨rfl, List.Subset.refl _⟩
    dsimp only [t]
    split
    · exact same
    · split
      · split
        · exact cover_keeps ..
        · exact same
      · exact same
  exact ⟨foldl_keeps State.formes (fun s p => (one s p).1) _ s, foldl_ops_subset (fun s p => (one s p).2) _ s⟩

theorem launchCount_forme_none {s : State} {fid lid which n : Nat} (h : s.forme? fid = none) : (s.launchCount lid which n).forme? fid = none := by
  have same := forme_of_bench (launchCount_bench s lid which n) fid
  rwa [h, Option.map_none, Option.map_eq_none_iff] at same

/-- The end of a forme takes its operations off and the forme away; nothing else of what the press units use changes. -/
theorem formeCheck_keeps (s : State) (fid : Nat) : (s.formeCheck fid).ops ⊆ s.ops ∧ ∀ g, (s.formeCheck fid).forme? fid = some g → s.forme? fid = some g := by
  have same : s.ops ⊆ s.ops ∧ ∀ g, s.forme? fid = some g → s.forme? fid = some g := ⟨List.Subset.refl _, fun _ => id⟩
  have told : ∀ (p : Prop) [Decidable p] (f : Forme) (l : List Op), (l.foldl (fun s o => match o.fail with
      | some (c, a) => s.orphanItems fid o.hp [o.failItem c a]
      | none => s) (if p then s.dropFormePrivate f else s)).bench = s.bench := fun p _ f l => by
    refine (foldl_keeps State.bench (fun s o => ?_) l _).trans ?_
    · split
      · exact orphanItems_bench ..
      · rfl
    · split
      · exact dropFormePrivate_bench ..
      · rfl
  unfold State.formeCheck
  split
  · exact same
  · rename_i f _
    split
    · exact same
    · dsimp only
      have told := told (f.stop.isSome = true) f
      refine ⟨fun x hx => ?_, fun g hg => ?_⟩
      · rw [ops_of_bench (launchCount_bench ..)] at hx
        rw [← ops_of_bench (told _)]
        exact List.mem_of_mem_filter hx
      · rw [launchCount_forme_none (List.find?_eq_none.2 fun x hx => by simpa using (List.mem_filter.1 hx).2)] at hg
        cases hg

theorem joinOp_bench (s : State) (o : Op) : (s.joinOp o).bench = s.bench := by
  unfold State.joinOp
  dsimp only
  split <;> rfl

/-- The number of an operation that has ended stands for ended operations alone, with its failure; its forme, if it still is there, has its flags and keeps its
galley. -/
theorem opEnded_keeps (s : State) (o : Op) (f : BitVec 9) (fail : Option (TrapCode × Nat)) : (s.opEnded o f fail).opOver o.id fail ∧
    ∀ g, (s.opEnded o f fail).forme? o.fid = some g → ∃ x, s.forme? o.fid = some x ∧ g.galley = x.galley ∧ g.flags = x.flags ||| f := by
  unfold State.opEnded
  dsimp only
  have cleaned : ((if fail.isNone then s else s.onForme o.fid fun x => { x with gpoison := x.gpoison.filter fun k => !o.touches.contains k }).forme? o.fid).map
      (fun x => (x.galley, x.flags)) = (s.forme? o.fid).map fun x => (x.galley, x.flags) := by
    split
    · rfl
    · rw [forme?_onForme s o.fid (fun x => { x with gpoison := x.gpoison.filter fun k => !o.touches.contains k }) fun _ => rfl, Option.map_map]
      rfl
  generalize (if fail.isNone then s else s.onForme o.fid fun x => { x with gpoison := x.gpoison.filter fun k => !o.touches.contains k }) = c at cleaned ⊢
  have joined := joinOp_bench c o
  generalize c.joinOp o = j at joined ⊢
  obtain ⟨formes, ops⟩ := batchCheck_keeps ((j.setFlags o.fid f).onOp o.id fun x => { x with phase := .ended, flags := f, fail := fail, poked := [], snap := [] }) o.fid o.hp
  generalize State.batchCheck _ _ _ = b at formes ops ⊢
  obtain ⟨ops', formes'⟩ := formeCheck_keeps b o.fid
  constructor
  · intro x hx own
    obtain ⟨y, -, rfl⟩ := List.mem_map.1 (ops (ops' hx))
    by_cases same : y.id = o.id
    · simp only [same, decide_true, if_true, and_self]
    · simp only [same, decide_false, Bool.false_eq_true, if_false] at own
  · intro g hg
    have flagged : (j.forme? o.fid).map (fun x => { x with flags := x.flags ||| f }) = some g := by
      rw [← formes' g hg]
      exact ((congrArg (List.find? _) formes).trans (forme?_onForme j o.fid (fun x => { x with flags := x.flags ||| f }) fun _ => rfl)).symm
    obtain ⟨y, hy, rfl⟩ := Option.map_eq_some_iff.1 flagged
    have same := (congrArg (Option.map fun x : Forme => (x.galley, x.flags)) (forme_of_bench joined o.fid))
    rw [Option.map_map, Option.map_map, hy] at same
    obtain ⟨x, hx, e⟩ := Option.map_eq_some_iff.1 ((cleaned.symm.trans same.symm))
    obtain ⟨galley, flags⟩ := Prod.mk.inj (show (x.galley, x.flags) = (y.galley, y.flags) from e)
    exact ⟨x, hx, galley.symm, congrArg (· ||| f) flags.symm⟩

/-- What GWRITE wrote over an ending operation's entries changes galleys alone, and what later operations find of them (R190). -/
theorem opSettle_formeFlags (s : State) (o : Op) : (s.opSettle o).formeFlags = s.formeFlags :=
  foldl_keeps State.formeFlags (fun s x => by
    dsimp only
    split
    · rfl
    · exact setGalley_formeFlags ..) o.poked s

/-! A failure (R199). -/

/-- Writes to some entries leave the other entries alone. -/
theorem setEntries_galley (ks : List Nat) (fid : Nat) (v : State → Nat → W32) {s : State} (wf : storeWf (0 : W32) (s.galley fid) = true) {k : Nat} (away : k ∉ ks) :
    tileGet ((ks.foldl (fun s k => s.setGalley fid (tileSet (s.galley fid) k (v s k))) s).galley fid) k = tileGet (s.galley fid) k := by
  induction ks generalizing s with
  | nil => rfl
  | cons j ks ih =>
    obtain ⟨ne, away⟩ := not_or.1 (fun h => away (List.mem_cons.2 h))
    have set : storeWf (0 : W32) ((s.setGalley fid (tileSet (s.galley fid) j (v s j))).galley fid) = true ∧
        tileGet ((s.setGalley fid (tileSet (s.galley fid) j (v s j))).galley fid) k = tileGet (s.galley fid) k := by
      cases hf : s.forme? fid with
      | none =>
        rw [setGalley_of_none hf, galley_of_none hf]
        exact ⟨rfl, rfl⟩
      | some f =>
        rw [galley_setGalley hf, tileGet_tileSet wf, if_neg ne]
        exact ⟨tileSet_wf wf .., rfl⟩
    exact (ih set.1 away).trans set.2

/-- A failed operation leaves the entries that are not its own alone (R13, R199). -/
theorem opSpoil_galley {s : State} {o : Op} (canonical : s.Canonical) {k : Nat} (away : k ∉ o.entries) :
    tileGet ((s.opSpoil o).galley o.fid) k = tileGet (s.galley o.fid) k := by
  have wf : storeWf (0 : W32) (s.galley o.fid) = true := by
    cases hf : s.forme? o.fid with
    | none => rw [galley_of_none hf]; rfl
    | some f => rw [State.galley, hf]; exact (canonical.2 f (List.mem_of_find?_eq_some hf)).2
  have set := setEntries_galley o.entries o.fid (fun s' k => s'.oneOf (700000 + k) 0 ((s.opTrace o).map fun x => tileGet (x.galley o.fid) k)) wf away
  have written : (s.opSpoil o).bench = (o.entries.foldl (fun s' k => s'.setGalley o.fid (tileSet (s'.galley o.fid) k
      (s'.oneOf (700000 + k) 0 ((s.opTrace o).map fun x => tileGet (x.galley o.fid) k)))) s).bench := by
    unfold State.opSpoil
    dsimp only
    split
    · rfl
    · exact foldl_keeps State.bench (fun s r => foldl_keeps State.bench (fun s a => by
        split
        · exact opWrite_bench ..
        · rfl) _ s) _ _
  rw [galley_of_bench written]
  exact set

end Sys2Proof.Machine
end

section
/-! The events of press and platen (R173 to R175, R192, R199 to R201, R348). -/
namespace Sys2Proof.Machine

/-- A step that is not the last leaves its operation running, one step on. -/
theorem pressGroupStep_goes {s : State} {o : Op} (found : s.op? o.id = some o) (running : o.phase = .running) (press : o.queue = 0) (placed : s.opPlaced o = true)
    (free : s.unitTaken o = false) (going : o.atStop = false) (translated : s.opMissing o.rest = []) (sound : s.opFault o.rest = none) (more : o.step + 1 < o.steps) :
    let r := (s.opReach o).opStep o o.step
    Does s (.pressGroupStep o.id) (fun t => ∃ x, t.op? o.id = some x ∧ x.phase = .running ∧ x.step = o.step + 1 ∧ x.flags = o.flags ||| r.2.1 ∧
      t.galley o.fid = r.1.galley o.fid) := by
  obtain ⟨op, galley, -⟩ := groupStepped_op found
  have run := pressGroupStep_runs found running press placed free going translated sound
  dsimp only at run
  rw [if_neg (by omega)] at run
  generalize s.groupStepped o = t at run op galley
  exact ⟨t.stir, run, _, op, running, rfl, rfl, galley⟩

/-- The last step ends its operation, and its forme has the operation's flags. -/
theorem pressGroupStep_ends {s : State} {o : Op} (found : s.op? o.id = some o) (running : o.phase = .running) (press : o.queue = 0) (placed : s.opPlaced o = true)
    (free : s.unitTaken o = false) (going : o.atStop = false) (translated : s.opMissing o.rest = []) (sound : s.opFault o.rest = none) (last : o.steps ≤ o.step + 1) :
    let r := (s.opReach o).opStep o o.step
    Does s (.pressGroupStep o.id) (fun t => t.opOver o.id none ∧
      ∀ f g, s.forme? o.fid = some f → t.forme? o.fid = some g → g.flags = f.flags ||| (o.flags ||| r.2.1)) := by
  intro r
  obtain ⟨-, -, flags⟩ := groupStepped_op found
  have run := pressGroupStep_runs found running press placed free going translated sound
  dsimp only at run
  rw [if_pos last] at run
  have settled := (opSettle_formeFlags (s.groupStepped o) { o with flags := o.flags ||| r.2.1 }).trans flags
  obtain ⟨ended, kept⟩ := opEnded_keeps ((s.groupStepped o).opSettle { o with flags := o.flags ||| r.2.1 }) o (o.flags ||| r.2.1) none
  dsimp only [r] at run settled ended kept ⊢
  generalize State.opEnded _ _ _ _ = t at run ended kept
  refine ⟨t.stir, run, ended, fun f g hf hg => ?_⟩
  obtain ⟨x, hx, -, joined⟩ := kept g hg
  have same := flags_of_formeFlags settled o.fid
  rw [hx, hf, Option.map_some, Option.map_some, Option.some.injEq] at same
  rw [joined, same]

/-- An operation that faults ends with its failure, and the entries that are not its own stand. -/
theorem pressOpFail_ends {s : State} {o : Op} {c : TrapCode} {a : Nat} (found : s.op? o.id = some o) (press : o.queue = 0) (open_ : o.phase = .queued ∨ o.phase = .running)
    (free : s.opFree o = true) (placed : s.opPlaced o = true) (going : s.opStopped o c = false) (faults : s.opFault o.rest = some (c, a)) (canonical : s.Canonical) :
    Does s (.pressOpFail o.id c a) (fun t => t.opOver o.id (some (c, a)) ∧ ∀ g, t.forme? o.fid = some g → ∀ k, k ∉ o.entries →
      tileGet g.galley k = tileGet (s.galley o.fid) k) := by
  have run : exec (.pressOpFail o.id c a) s = .next ((s.opSpoil o).opEnded o o.flags (some (c, a))).stir := by
    rw [exec_pressOpFail, execPressOpFail]
    simp only [found, press, open_, free, placed, going, faults, Bool.false_eq_true, and_false, if_false, and_self, if_true]
  obtain ⟨ended, kept⟩ := opEnded_keeps (s.opSpoil o) o o.flags (some (c, a))
  generalize State.opEnded _ _ _ _ = t at run ended kept
  refine ⟨t.stir, run, ended, fun g hg k away => ?_⟩
  obtain ⟨x, hx, galley, -⟩ := kept g hg
  rw [galley, ← opSpoil_galley canonical away, State.galley, hx]
  rfl

/-- The oldest spilt operation of a queue with room comes back (R348). -/
theorem overflowRefill_op {s : State} {o : Op} {n : Nat} (queue : o.queue < 5)
    (room : ((s.ops.filter fun x => x.queue = o.queue && x.site = n && !(s.forme? x.fid).any (·.place = .saved)).filter fun x => x.phase = .queued).length < queueCap o.queue)
    (oldest : (s.ops.filter fun x => x.queue = o.queue && x.site = n && !(s.forme? x.fid).any (·.place = .saved)).find? (fun x => x.phase = .spilt) = some o)
    (found : s.op? o.id = some o) :
    Does s (.overflowRefill o.queue n) (fun t => t.op? o.id = some { o with phase := .queued } ∧ ∀ j, j ≠ o.id → t.op? j = s.op? j) := by
  refine ⟨s.onOp o.id fun x => { x with phase := .queued }, ?_, op?_onOp_same found fun _ => rfl, fun j ne => op?_onOp_ne s (fun _ => rfl) ne⟩
  rw [exec_overflowRefill, execOverflowRefill, if_neg (by omega), if_neg (by omega)]
  dsimp only
  rw [if_neg (by omega), oldest]

/-- The earliest spilt submission of a die whose launch queue has room comes back (R348). -/
theorem overflowRefill_launch {s : State} {n id : Nat} (room : s.launchesOn n < 256) (earliest : s.spiltLaunch n = some id) :
    Does s (.overflowRefill 5 n) (fun t => (∀ j l, s.launch? j = some l → t.launch? j = some (if l.sub = some (n, id) then { l with spilt := none } else l)) ∧
      (∀ x ∈ s.accepting, (if x.id = id then { x with spilt := none } else x) ∈ t.accepting) ∧ t.ops = s.ops ∧ t.mem = s.mem) := by
  refine ⟨{ s with
      launches := modifyWhere (fun l => l.sub = some (n, id)) (fun l => { l with spilt := none }) s.launches
      accepting := modifyWhere (fun x => x.id = id) (fun x => { x with spilt := none }) s.accepting }, ?_, fun j l hl => ?_, fun x hx => ?_, rfl, rfl⟩
  · rw [exec_overflowRefill, execOverflowRefill, if_pos rfl, if_neg (show ¬ queueCap 5 ≤ s.launchesOn n from Nat.not_le.2 room), earliest]
  · refine (find?_modifyWhere s.launches _ _ (fun l => { l with spilt := none }) fun _ => rfl).trans ?_
    rw [← State.launch?, hl, Option.map_some]
    simp only [decide_eq_true_eq]
  · exact List.mem_map.2 ⟨x, hx, by simp only [decide_eq_true_eq]⟩

/-- Settles O37: a unit takes the operation that its queues' order names; its step, its end and its failure change its own operation, galley entries and flags. -/
theorem pressEvents : Obligations.PressEvents := by
  unfold Obligations.PressEvents
  intro s o n starts turned
  have begins : ∀ {i : Instr} {u : State}, exec i s = .next (u.opBegin o) → u.op? o.id = s.op? o.id → u.galley o.fid = s.galley o.fid → starts i u :=
    fun run ops galley found sound => by
      have begun := opBegin_starts (ops.trans found) sound
      rw [galley] at begun
      exact ⟨_, run, begun⟩
  refine ⟨fun serves => ⟨?_, ?_⟩, ?_, ?_, ?_, ?_, ?_⟩
  · intro idle first second _ ready
    refine begins (u := turned) (pressOpStart_takes (rest := []) serves idle ?_) rfl rfl
    simp [first, second, Option.filter, opReady_free ready, ready]
  · intro a b idle first second _ readyA _ readyB chosen
    have heads := pressOpStart_takes (n := n) (o := a) (rest := [b]) serves idle (by
      simp [first, second, Option.filter, opReady_free readyA, opReady_free readyB, readyA, readyB])
    have turn : s.turnTo a [b] = o := by
      rw [chosen, State.turnTo, pressHead_site first]
      simp only [List.contains_iff_mem]
    rw [turn] at heads
    exact begins (u := turned) heads rfl rfl
  · intro serves sited folds idle head ready
    exact ⟨begins (platenOpStart_takes serves sited folds idle head ready) rfl rfl, platenHead_first head⟩
  · exact fun found running press placed free going translated sound =>
      ⟨pressGroupStep_goes found running press placed free going translated sound, pressGroupStep_ends found running press placed free going translated sound⟩
  · exact fun c a found press open_ free placed going faults canonical => pressOpFail_ends found press open_ free placed going faults canonical
  · exact fun queue room oldest found => overflowRefill_op queue room oldest found
  · exact fun id room earliest => overflowRefill_launch room earliest

end Sys2Proof.Machine
end
